-- ==== Sys2Proof/Word.lean ====
section
/-! DEFINITION. The word types of the machine and register files.

A register file is a vector indexed by a bit vector, so that a register number of the encoding is an index as it
stands. -/
namespace Sys2Proof

/-- One byte of memory. -/
abbrev Byte := BitVec 8
/-- One instruction word (02 R44), one header word (03 R78). -/
abbrev Word := BitVec 32
/-- A 64-bit register (06 R167). -/
abbrev DWord := BitVec 64

/-- `2 ^ k` registers of `w` bits, named by `k`-bit numbers. -/
abbrev Regs (k w : Nat) := Vector (BitVec w) (2 ^ k)

/-- The register numbered `i`. -/
def Regs.get {k w : Nat} (r : Regs k w) (i : BitVec k) : BitVec w := Vector.get r i.toFin

/-- The file with register `i` holding `v`. -/
def Regs.set {k w : Nat} (r : Regs k w) (i : BitVec k) (v : BitVec w) : Regs k w := Vector.set r i.toNat v i.isLt

/-- Every register zero. -/
def Regs.zero {k w : Nat} : Regs k w := Vector.replicate (2 ^ k) 0

end Sys2Proof
end

