-- ==== Sys2Proof/Syntax.lean ====
section
/-! DEFINITION. The instructions and the events of the machine: one constructor per row of spec/opcode_table.json.

A word of a sequencer carries its operand fields as the bits they are (02 R47). Every word ends in a head: the scalar
predicate, the stop bit of a C format and the token field (02 R44). The rows that 95 lists as steps of the machine
without an encoding are constructors too, with what they act on as arguments. -/
namespace Sys2Proof

/-- A sequencer of a core (01 R19), in the ring order L, C, S, K of 01 R20. -/
inductive SeqId where
  | l | c | s | k
  deriving DecidableEq, Repr

/-- An opcode map (02 R53 to R58): the C of a compute core and the C of the broadcast core differ. -/
inductive SeqSel where
  | l | c | s | k | b
  deriving DecidableEq, Repr

/-- The slot class of a C instruction (02 R50). -/
inductive SlotClass where
  | addr | vec | func | opt | none
  deriving DecidableEq, Repr

/-- Predicate, stop bit and token field of a word whose format has all three (02 R44). -/
structure Hd where
  /-- qp, bits [6:4] -/
  qp : BitVec 3
  /-- the stop bit, bit [3] -/
  stop : BitVec 1
  /-- the token field, bits [2:0] -/
  tk : BitVec 3
  deriving DecidableEq, Repr

/-- Predicate and token field of a word of L, S or K (02 R44). -/
structure Hq where
  /-- qp, bits [6:4] -/
  qp : BitVec 3
  /-- the token field, bits [2:0] -/
  tk : BitVec 3
  deriving DecidableEq, Repr

/-- Stop bit and token field of a word of the formats V, P and AI, which name no scalar predicate (02 R47). -/
structure Tl where
  /-- the stop bit, bit [3] -/
  stop : BitVec 1
  /-- the token field, bits [2:0] -/
  tk : BitVec 3
  deriving DecidableEq, Repr

/-- A context: the launch number and the logical core, 0 to 64, or 65 for the handler's context (05 R148, 14 R387). -/
structure CtxId where
  /-- launch number -/
  launch : Nat
  /-- logical core -/
  lcore : Nat
  deriving DecidableEq, Repr

/-- What firmware does with a frame that is its own first (14 R386): the page-table entries it writes, as key and 128
bits, where it resolves the cause; or nothing, and the frame goes on. -/
inductive FirmwareChoice where
  | resolve (entries : List (Nat × BitVec 128))
  | pass
  /-- not a frame: the oldest hardware-error report of the die's mailbox is disposed of (14 R385) -/
  | report (die : Nat)
  deriving DecidableEq, Repr

/-- A request flit at its home (13 R357): of a context of this device, or arriving here from another device. -/
inductive FabricReq where
  /-- the request that K of the context has in flight -/
  | own (c : CtxId)
  /-- a read of `n` bytes at physical address `pa` of this device -/
  | read (src pa n : Nat) (tce : Bool) (tag : BitVec 4)
  /-- a write, of each byte the bits of a mask: all of them, or one nibble of one byte (03 R74) -/
  | write (src pa : Nat) (data : List (BitVec 8)) (mask : BitVec 8) (tce : Bool) (tag : BitVec 4)
  /-- an atomic of `n` bytes: its operation, operand and the new value of a cas (06 R192) -/
  | atomic (src pa n op v w : Nat) (tce : Bool) (tag : BitVec 4)
  /-- STX.tag of the granule that holds `pa` (06 R190) -/
  | tag (src pa : Nat) (new : BitVec 4)
  deriving DecidableEq, Repr

/-- Another member of a collective as its device gives it (13 R364): device, descriptor, ring list and contribution. -/
structure Peer where
  dev : Nat
  desc : BitVec 512
  ring : List Nat
  data : List Nat
  deriving DecidableEq, Repr

/-- What has failed beyond repair (14 R392). -/
inductive Fatal where
  /-- a second parity failure in a register file of a core -/
  | parity (die core : Nat)
  /-- an uncorrectable error at a byte of memory, named by device and physical address in one key -/
  | memory (key : Nat)
  /-- an uncorrectable error in the state of a context -/
  | context (c : CtxId)
  /-- no route remains to a device -/
  | route (dev : Nat)
  /-- a die stops responding -/
  | die (d : Nat)
  /-- a core fails abruptly, or a receiver column of it with no spare -/
  | core (die core : Nat)
  | column (die core : Nat)
  /-- a wavelength line fails with no spare left, or the spare comb laser module after the first -/
  | light
  deriving DecidableEq, Repr

/-- A firmware image as flash holds it (17 R438): its version and its bytes, the public key and the signature. -/
structure FirmwareImage where
  version : Nat
  body : List (BitVec 8)
  pubKey : List (BitVec 8)
  signature : List (BitVec 8)
  deriving DecidableEq, Repr

/-- What a boot step finds (17 R437): images for steps 1 and 2; the spare cores that firmware chooses, for step 3; for step 4
the devices that trained links reach and the peers of the fibre ports; and whether training and calibration succeed. -/
structure BootInput where
  ok : Bool
  images : List FirmwareImage
  spares : List Nat
  present : List Nat
  peers : List (Nat × Nat)
  /-- the exporter of the domain and its plan clock, where this module is joined to one -/
  exporter : Option (Nat × Nat) := none
  deriving DecidableEq, Repr

/-- The light of an exporter's BCAST as it reaches a joined module (11 R319, R333): stamp offset, channels, steps, PA, whether it
serves two weight passes, the levels of the lit rows, and the exponents. -/
structure ExportedLight where
  b0 : Nat
  n : Nat
  t : Nat
  pa : Nat
  wp : Bool
  rows : List (List Int)
  ea : List Int
  deriving DecidableEq, Repr

/-- What the modules of a broadcast domain tell each other of a plan (11 R333). -/
inductive DomainEvent where
  /-- to an exporter: its joined modules run that many waves of the present plan; whether those of its present wave can take a base -/
  | waves (n : Nat) (ready : Bool)
  /-- to an exporter: an urgent pre-emption on a joined module ends the plan -/
  | preempted
  /-- to a joined module: the exporter opens a plan, which is one for a launch; publishes a base; lights; closes a wave, the last one
  or another; aborts -/
  | opens (launch : Nat)
  | publishes (base : Nat)
  | lights (l : ExportedLight)
  | closes (last : Bool)
  | aborts
  deriving DecidableEq, Repr

/-- An access of the host to memory (17 R432), at a physical address of the device. -/
inductive HostAccess where
  | read (pa n : Nat)
  | write (pa : Nat) (data : List (BitVec 8))
  deriving DecidableEq, Repr

/-- Every row of the opcode table: the words of the sequencers, then the events of the machine. -/
inductive Instr where
  /-- NOP (R174). No operation on any sequencer; only its token field waits or posts. -/
  | nop (h : Hd)
  /-- HALT (R175). Stops the sequencer after older instructions retire, discards any pending transfer and on C lands pending SFU writes. -/
  | halt (h : Hd)
  /-- FENCE (R182). Orders the sequencer's accesses and code fetch at the given order and scope, taking tier cache actions at .dev and .sys. -/
  | fence (h : Hd) (c : BitVec 3) (o : BitVec 2)
  /-- TKPOST (R181). Adds n tokens to the queue toward the sequencer at a ring offset, waiting while the count would exceed 15. -/
  | tkpost (h : Hd) (f : BitVec 2) (n : BitVec 4)
  /-- TKWAIT (R181). Waits until the queue from the sequencer at a ring offset holds n tokens and removes them in one step. -/
  | tkwait (h : Hd) (f : BitVec 2) (n : BitVec 4)
  /-- PBT (R176). Loads a PC-relative or register-relative transfer target into a j register. -/
  | pbt (h : Hd) (j : BitVec 2) (m : BitVec 1) (b : BitVec 5) (imm : BitVec 32)
  /-- BRX (R177). Transfers to the latched j target after an exposed delay when its predicate is true. -/
  | brx (h : Hd) (j : BitVec 2)
  /-- BRXD (R178). Decrements a count register and transfers after the delay while the count is non-zero. -/
  | brxd (h : Hd) (j : BitVec 2) (b : BitVec 5)
  /-- ADD (R183). K register add. -/
  | add (h : Hq) (d : BitVec 5) (a : BitVec 5) (b : BitVec 5)
  /-- SUB (R183). K register subtract. -/
  | sub (h : Hq) (d : BitVec 5) (a : BitVec 5) (b : BitVec 5)
  /-- AND (R183). K bitwise AND. -/
  | and (h : Hq) (d : BitVec 5) (a : BitVec 5) (b : BitVec 5)
  /-- OR (R183). K bitwise OR. -/
  | or (h : Hq) (d : BitVec 5) (a : BitVec 5) (b : BitVec 5)
  /-- XOR (R183). K bitwise XOR. -/
  | xor (h : Hq) (d : BitVec 5) (a : BitVec 5) (b : BitVec 5)
  /-- SHL (R183). K shift left by the low 6 bits of b. -/
  | shl (h : Hq) (d : BitVec 5) (a : BitVec 5) (b : BitVec 5)
  /-- SHR (R183). K logical shift right. -/
  | shr (h : Hq) (d : BitVec 5) (a : BitVec 5) (b : BitVec 5)
  /-- SRA (R183). K arithmetic shift right. -/
  | sra (h : Hq) (d : BitVec 5) (a : BitVec 5) (b : BitVec 5)
  /-- MUL (R183). K multiply, low 64 bits. -/
  | mul (h : Hq) (d : BitVec 5) (a : BitVec 5) (b : BitVec 5)
  /-- MULH (R183). K signed multiply, high 64 bits. -/
  | mulh (h : Hq) (d : BitVec 5) (a : BitVec 5) (b : BitVec 5)
  /-- MULHU (R183). K unsigned multiply, high 64 bits. -/
  | mulhu (h : Hq) (d : BitVec 5) (a : BitVec 5) (b : BitVec 5)
  /-- DIV (R183). K signed divide toward zero, 0 on divide by zero. -/
  | div (h : Hq) (d : BitVec 5) (a : BitVec 5) (b : BitVec 5)
  /-- DIVU (R183). K unsigned divide. -/
  | divu (h : Hq) (d : BitVec 5) (a : BitVec 5) (b : BitVec 5)
  /-- REM (R183). K signed remainder. -/
  | rem (h : Hq) (d : BitVec 5) (a : BitVec 5) (b : BitVec 5)
  /-- MIN (R183). K signed minimum. -/
  | min (h : Hq) (d : BitVec 5) (a : BitVec 5) (b : BitVec 5)
  /-- MAX (R183). K signed maximum. -/
  | max (h : Hq) (d : BitVec 5) (a : BitVec 5) (b : BitVec 5)
  /-- ADDI (R183). K add of a signed 9-bit immediate. -/
  | addi (h : Hq) (d : BitVec 5) (a : BitVec 5) (i : BitVec 9)
  /-- ANDI (R183). K AND with a signed immediate. -/
  | andi (h : Hq) (d : BitVec 5) (a : BitVec 5) (i : BitVec 9)
  /-- ORI (R183). K OR with a signed immediate. -/
  | ori (h : Hq) (d : BitVec 5) (a : BitVec 5) (i : BitVec 9)
  /-- XORI (R183). K XOR with a signed immediate. -/
  | xori (h : Hq) (d : BitVec 5) (a : BitVec 5) (i : BitVec 9)
  /-- SHLI (R183). K shift left by an unsigned immediate 0-63. -/
  | shli (h : Hq) (d : BitVec 5) (a : BitVec 5) (i : BitVec 9)
  /-- SHRI (R183). K logical shift right by an immediate. -/
  | shri (h : Hq) (d : BitVec 5) (a : BitVec 5) (i : BitVec 9)
  /-- SRAI (R183). K arithmetic shift right by an immediate. -/
  | srai (h : Hq) (d : BitVec 5) (a : BitVec 5) (i : BitVec 9)
  /-- MOVI (R184). K loads a sign-extended 32-bit immediate. -/
  | movi (h : Hq) (d : BitVec 5) (imm : BitVec 32)
  /-- MOVHI (R184). K places a 32-bit immediate in the high half above the low half of xa. -/
  | movhi (h : Hq) (d : BitVec 5) (a : BitVec 5) (imm : BitVec 32)
  /-- CMP (R185). K compares two registers and writes a scalar predicate. -/
  | cmp (h : Hq) (d : BitVec 3) (a : BitVec 5) (b : BitVec 5) (c : BitVec 4)
  /-- CMPI (R185). K compares a register with a 32-bit immediate and writes a scalar predicate. -/
  | cmpi (h : Hq) (d : BitVec 3) (a : BitVec 5) (c : BitVec 9) (imm : BitVec 32)
  /-- QAND (R186). ANDs two scalar predicates. -/
  | qand (h : Hq) (d : BitVec 3) (a : BitVec 3) (b : BitVec 3)
  /-- QOR (R186). ORs two scalar predicates. -/
  | qor (h : Hq) (d : BitVec 3) (a : BitVec 3) (b : BitVec 3)
  /-- QNOT (R186). Negates a scalar predicate. -/
  | qnot (h : Hq) (d : BitVec 3) (a : BitVec 3)
  /-- LDX (R189). K scalar load with size, order, scope and cache policy. -/
  | ldx (h : Hq) (d : BitVec 5) (a : BitVec 5) (pol : BitVec 2) (so : BitVec 4) (sz : BitVec 3) (imm : BitVec 32)
  /-- STX (R189). K scalar store with optional release. -/
  | stx (h : Hq) (d : BitVec 5) (a : BitVec 5) (pol : BitVec 2) (so : BitVec 4) (sz : BitVec 3) (imm : BitVec 32)
  /-- STX_TAG (R190). Sets the memory tag of one 32-byte granule. -/
  | stxTag (h : Hq) (d : BitVec 5) (a : BitVec 5) (so : BitVec 4) (imm : BitVec 32)
  /-- LDXP (R191). Load that parks the context when the page is homed on another device. -/
  | ldxp (h : Hq) (d : BitVec 5) (a : BitVec 5) (pol : BitVec 2) (so : BitVec 4) (sz : BitVec 3) (imm : BitVec 32)
  /-- AMO (R192). K atomic read-modify-write performed at the home of its location. -/
  | amo (h : Hq) (d : BitVec 5) (a : BitVec 5) (so : BitVec 4) (sz : BitVec 3) (op : BitVec 4)
  /-- CINV (R193). Writes back and drops the cache lines of a range in the data cache or also the die L2. -/
  | cinv (h : Hq) (a : BitVec 5) (b : BitVec 5) (c : BitVec 1)
  /-- CWB (R193). Writes back dirty bytes of a range, leaving lines clean. -/
  | cwb (h : Hq) (a : BitVec 5) (b : BitVec 5) (c : BitVec 1)
  /-- PIN (R193). Fills and pins in the die L2 the lines of a range homed on the issuing die. -/
  | pin (h : Hq) (a : BitVec 5) (b : BitVec 5)
  /-- UNPIN (R193). Releases the launch's pins on the lines of a range. -/
  | unpin (h : Hq) (a : BitVec 5) (b : BitVec 5)
  /-- MFS (R171). K reads a system register into an x register. -/
  | mfs (h : Hq) (d : BitVec 5) (i : BitVec 9)
  /-- MTS (R171). K writes an x register to a system register, checking reserved bits. -/
  | mts (h : Hq) (a : BitVec 5) (i : BitVec 9)
  /-- RDPLAN (R196). Reads the plan clock, absolute or as an offset from the plan base. -/
  | rdplan (h : Hq) (d : BitVec 5) (f : BitVec 1)
  /-- TRAP (R197). Retires then faults software trap with its code. -/
  | trap (h : Hq) (i : BitVec 9)
  /-- BRK (R197). Retires then faults breakpoint with its code. -/
  | brk (h : Hq) (i : BitVec 9)
  /-- GARR (R198). Releases and arrives at a group barrier, returning the phase. -/
  | garr (h : Hq) (d : BitVec 5) (c : BitVec 1) (g : BitVec 8)
  /-- GWAIT (R198). Waits until a named phase of a group completes, then acquires. -/
  | gwait (h : Hq) (a : BitVec 5) (c : BitVec 1) (g : BitVec 8)
  /-- GSYNC (R198). Arrives and waits for the phase just arrived in, using the barrier latch. -/
  | gsync (h : Hq) (d : BitVec 5) (c : BitVec 1) (g : BitVec 8)
  /-- LAUNCH (R164). Releases at .dev and submits a launch packet, returning the launch number. -/
  | launch (h : Hq) (d : BitVec 5) (a : BitVec 5)
  /-- SPAWN (R165). Releases the running node's successors before it completes. -/
  | spawn (h : Hq)
  /-- CPY (R343). Queues one plain copy command with a ticket. -/
  | cpy (h : Hq) (d : BitVec 5) (a : BitVec 5) (b : BitVec 5) (p : BitVec 1) (c : BitVec 1) (st : BitVec 1)
  /-- CPYC (R345). Queues one command of a checksummed chained copy. -/
  | cpyc (h : Hq) (d : BitVec 5) (a : BitVec 5) (b : BitVec 5) (first : BitVec 1) (last : BitVec 1) (c : BitVec 2) (imm : BitVec 32)
  /-- CPYWAIT (R347). Waits until a ticket has completed, raises deferred copy faults and acquires at .core. -/
  | cpywait (h : Hq) (d : BitVec 5) (a : BitVec 5)
  /-- CPYWAIT_ALL (R347). Waits until the copy queue is empty and returns CSEQ. -/
  | cpywaitAll (h : Hq) (d : BitVec 5)
  /-- CPYWAIT_CHAIN (R347). Waits until the copy queue is empty and returns the chain value. -/
  | cpywaitChain (h : Hq) (d : BitVec 5)
  /-- CTREADY_ARM (R371). Arms a tile-table entry from a descriptor and zeroes word 1 of its completion record. -/
  | ctreadyArm (h : Hq) (a : BitVec 5) (b : BitVec 5)
  /-- CTREADY_FIRE (R371). Releases at .dev and fires an armed tile-table entry. -/
  | ctreadyFire (h : Hq) (b : BitVec 5)
  /-- CTREADY_GO (R371). Arms and fires a tile-table entry in one instruction. -/
  | ctreadyGo (h : Hq) (a : BitVec 5) (b : BitVec 5)
  /-- CTWAIT (R372). Waits for a tile entry to be done or failed, raises its fault, acquires and returns SIG. -/
  | ctwait (h : Hq) (d : BitVec 5) (a : BitVec 5)
  /-- CTWAIT_TEST (R372). Tests whether a tile entry is done or failed without waiting. -/
  | ctwaitTest (h : Hq) (d : BitVec 5) (a : BitVec 5)
  /-- BOOST_REL (R429). Releases the context's clock claim and returns ss.permits. -/
  | boostRel (h : Hq) (d : BitVec 5)
  /-- BOOST_MID (R429). Claims 2.2 GHz for the context and returns ss.permits. -/
  | boostMid (h : Hq) (d : BitVec 5)
  /-- BOOST_MAX (R429). Claims 2.4 GHz for the context and returns ss.permits. -/
  | boostMax (h : Hq) (d : BitVec 5)
  /-- FREEZE_MARK (R400). Clears the launch's dirty-granule bitmap in one step. -/
  | freezeMark (h : Hq) (a : BitVec 5)
  /-- FREEZE (R400). Brings a launch to rest, writes its image and returns the image size. -/
  | freeze (h : Hq) (d : BitVec 5) (a : BitVec 5) (b : BitVec 5)
  /-- FREEZE_DROP (R418). Discards a FROZEN launch without a completion record. -/
  | freezeDrop (h : Hq) (a : BitVec 5)
  /-- FREEZE_CONT (R418). Makes a FROZEN launch RUNNING again on its own device. -/
  | freezeCont (h : Hq) (a : BitVec 5)
  /-- THAW (R413). Checks an image and creates a launch restored from it. -/
  | thaw (h : Hq) (d : BitVec 5) (a : BitVec 5) (b : BitVec 5)
  /-- RESUME (R388). Disposes of the handler's frame and restarts the context from its recorded program counters. -/
  | resume (h : Hq) (a : BitVec 5)
  /-- RESUME_TERM (R388). Disposes of the frame by terminating the launch with STATUS 3. -/
  | resumeTerm (h : Hq) (a : BitVec 5)
  /-- Y_ADD (R204). L or S add of y or z registers. -/
  | yAdd (h : Hq) (d : BitVec 4) (a : BitVec 4) (b : BitVec 4)
  /-- Y_SUB (R204). L or S subtract. -/
  | ySub (h : Hq) (d : BitVec 4) (a : BitVec 4) (b : BitVec 4)
  /-- Y_AND (R204). L or S bitwise AND. -/
  | yAnd (h : Hq) (d : BitVec 4) (a : BitVec 4) (b : BitVec 4)
  /-- Y_OR (R204). L or S bitwise OR. -/
  | yOr (h : Hq) (d : BitVec 4) (a : BitVec 4) (b : BitVec 4)
  /-- Y_XOR (R204). L or S bitwise XOR. -/
  | yXor (h : Hq) (d : BitVec 4) (a : BitVec 4) (b : BitVec 4)
  /-- Y_SHL (R204). L or S shift left. -/
  | yShl (h : Hq) (d : BitVec 4) (a : BitVec 4) (b : BitVec 4)
  /-- Y_SHR (R204). L or S logical shift right. -/
  | yShr (h : Hq) (d : BitVec 4) (a : BitVec 4) (b : BitVec 4)
  /-- Y_SRA (R204). L or S arithmetic shift right. -/
  | ySra (h : Hq) (d : BitVec 4) (a : BitVec 4) (b : BitVec 4)
  /-- Y_MIN (R204). L or S signed minimum. -/
  | yMin (h : Hq) (d : BitVec 4) (a : BitVec 4) (b : BitVec 4)
  /-- Y_MAX (R204). L or S signed maximum. -/
  | yMax (h : Hq) (d : BitVec 4) (a : BitVec 4) (b : BitVec 4)
  /-- Y_ADDI (R205). L or S add of a signed 11-bit immediate. -/
  | yAddi (h : Hq) (d : BitVec 4) (a : BitVec 4) (i : BitVec 11)
  /-- Y_MOVI (R205). L or S loads a sign-extended 32-bit immediate. -/
  | yMovi (h : Hq) (d : BitVec 4) (imm : BitVec 32)
  /-- Y_CMP (R206). L or S compares two registers and writes a scalar predicate. -/
  | yCmp (h : Hq) (d : BitVec 3) (a : BitVec 4) (b : BitVec 4) (c : BitVec 3)
  /-- Y_MFS (R206). L or S reads a system register marked all. -/
  | yMfs (h : Hq) (d : BitVec 4) (i : BitVec 9)
  /-- SBIND (R212). Checks a stream register and binds it for reading on L or writing on S. -/
  | sbind (h : Hq) (b : BitVec 6) (st : BitVec 4) (epi : BitVec 1) (bk : BitVec 1) (imm : BitVec 32)
  /-- SSET (R211). Writes one field of a stream register, unbinding it unless the field is POS. -/
  | sset (h : Hq) (st : BitVec 4) (n : BitVec 4) (f : BitVec 5) (imm : BitVec 32)
  /-- LDS (R215). Moves the stream's next image, widened, into a load queue. -/
  | lds (h : Hq) (st : BitVec 4) (n : BitVec 4) (l : BitVec 1)
  /-- LDSO (R218). Stages one weight tile into a weight slot, optionally through the tile cache. -/
  | ldso (h : Hq) (st : BitVec 4) (n : BitVec 4) (c : BitVec 1) (l : BitVec 1)
  /-- LDG (R216). Gathers one image through the index queue into a load queue. -/
  | ldg (h : Hq) (st : BitVec 4) (n : BitVec 4) (l : BitVec 1)
  /-- LDZ (R225). Decodes ZB chunks of a stream into a buffer until y[n] bytes are delivered. -/
  | ldz (h : Hq) (b : BitVec 6) (st : BitVec 4) (n : BitVec 4) (l : BitVec 1)
  /-- LDB (R223). Copies stream elements densely into a buffer at its fill pointer. -/
  | ldb (h : Hq) (b : BitVec 6) (st : BitVec 4) (n : BitVec 4) (l : BitVec 1)
  /-- PREF (R226). Hints that stream elements will be read soon and may fill the die L2. -/
  | pref (h : Hq) (st : BitVec 4) (n : BitVec 4)
  /-- BDECL (R220). Declares a buffer with producer, consumer, offset and length in the frame. -/
  | bdecl (h : Hq) (b : BitVec 6) (cons : BitVec 2) (prod : BitVec 2) (len : BitVec 16) (off : BitVec 16)
  /-- BWAIT (R221). Waits until a buffer enters or holds a named state. -/
  | bwait (h : Hq) (b : BitVec 6) (t : BitVec 2)
  /-- BSTATE_READ (R222). Reads a buffer record into a register. -/
  | bstateRead (h : Hq) (b : BitVec 6) (n : BitVec 4)
  /-- BSTATE_PDONE (R222). Completes the producer side, FILLING to FULL. -/
  | bstatePdone (h : Hq) (b : BitVec 6)
  /-- BSTATE_CDONE (R222). Completes the consumer side, DRAINING to EMPTY. -/
  | bstateCdone (h : Hq) (b : BitVec 6)
  /-- BSTATE_FREE (R222). Undeclares an EMPTY buffer. -/
  | bstateFree (h : Hq) (b : BitVec 6)
  /-- LDTF (R219). Invalidates every entry of the core's tile cache. -/
  | ldtf (h : Hq)
  /-- STS (R266). Takes a store-queue image and writes its elements narrowed to the stream. -/
  | sts (h : Hq) (st : BitVec 4) (n : BitVec 4) (l : BitVec 1)
  /-- QST (R267). Takes a store-queue image and stores it as SB4 by the selection rule. -/
  | qst (h : Hq) (st : BitVec 4) (n : BitVec 4) (o : BitVec 3) (l : BitVec 1)
  /-- STB (R268). Copies a buffer's filled bytes to a write stream as a consumer read. -/
  | stb (h : Hq) (b : BitVec 6) (st : BitVec 4) (n : BitVec 4) (l : BitVec 1)
  /-- SHOPEN (R274). Opens the shadow of every page of a range. -/
  | shopen (h : Hq) (a : BitVec 4) (b : BitVec 4)
  /-- PUBLISH (R275). Releases at a scope and swaps the shadow of every page of a range in one step. -/
  | publish (h : Hq) (a : BitVec 4) (b : BitVec 4) (c : BitVec 3)
  /-- ATOMV (R271). Performs one 32-bit atomic per lane of a store-queue image along a stream. -/
  | atomv (h : Hq) (c : BitVec 4) (st : BitVec 4) (n : BitVec 4) (f : BitVec 5)
  /-- AMOS (R272). Scalar atomic of S on z registers. -/
  | amos (h : Hq) (d : BitVec 4) (a : BitVec 4) (b : BitVec 4) (z : BitVec 1) (so : BitVec 4) (op : BitVec 4)
  /-- BDRAIN (R276). Waits until the writes ordered before it on a write stream are complete. -/
  | bdrain (h : Hq) (st : BitVec 4)
  /-- VADD (R238). Vector add. -/
  | vadd (h : Tl) (d : BitVec 4) (a : BitVec 5) (b : BitVec 5) (g : BitVec 6) (y : BitVec 2)
  /-- VSUB (R238). Vector subtract. -/
  | vsub (h : Tl) (d : BitVec 4) (a : BitVec 5) (b : BitVec 5) (g : BitVec 6) (y : BitVec 2)
  /-- VMUL (R238). Vector multiply. -/
  | vmul (h : Tl) (d : BitVec 4) (a : BitVec 5) (b : BitVec 5) (g : BitVec 6) (y : BitVec 2)
  /-- VFMA (R238). Vector fused multiply-add into vd. -/
  | vfma (h : Tl) (d : BitVec 4) (a : BitVec 5) (b : BitVec 5) (g : BitVec 6) (y : BitVec 2)
  /-- VFMS (R238). Vector fused multiply-subtract from vd. -/
  | vfms (h : Tl) (d : BitVec 4) (a : BitVec 5) (b : BitVec 5) (g : BitVec 6) (y : BitVec 2)
  /-- VMIN (R238). Vector minimum. -/
  | vmin (h : Tl) (d : BitVec 4) (a : BitVec 5) (b : BitVec 5) (g : BitVec 6) (y : BitVec 2)
  /-- VMAX (R238). Vector maximum. -/
  | vmax (h : Tl) (d : BitVec 4) (a : BitVec 5) (b : BitVec 5) (g : BitVec 6) (y : BitVec 2)
  /-- VABS (R238). Vector absolute value. -/
  | vabs (h : Tl) (d : BitVec 4) (a : BitVec 5) (g : BitVec 6) (y : BitVec 2)
  /-- VNEG (R238). Vector negate. -/
  | vneg (h : Tl) (d : BitVec 4) (a : BitVec 5) (g : BitVec 6) (y : BitVec 2)
  /-- VAND (R238). Vector bitwise AND on .i32. -/
  | vand (h : Tl) (d : BitVec 4) (a : BitVec 5) (b : BitVec 5) (g : BitVec 6) (y : BitVec 2)
  /-- VOR (R238). Vector bitwise OR on .i32. -/
  | vor (h : Tl) (d : BitVec 4) (a : BitVec 5) (b : BitVec 5) (g : BitVec 6) (y : BitVec 2)
  /-- VXOR (R238). Vector bitwise XOR on .i32. -/
  | vxor (h : Tl) (d : BitVec 4) (a : BitVec 5) (b : BitVec 5) (g : BitVec 6) (y : BitVec 2)
  /-- VNOT (R238). Vector bitwise NOT on .i32. -/
  | vnot (h : Tl) (d : BitVec 4) (a : BitVec 5) (g : BitVec 6) (y : BitVec 2)
  /-- VSHL (R238). Vector shift left on .i32. -/
  | vshl (h : Tl) (d : BitVec 4) (a : BitVec 5) (b : BitVec 5) (g : BitVec 6) (y : BitVec 2)
  /-- VSHR (R238). Vector logical shift right on .i32. -/
  | vshr (h : Tl) (d : BitVec 4) (a : BitVec 5) (b : BitVec 5) (g : BitVec 6) (y : BitVec 2)
  /-- VSRA (R238). Vector arithmetic shift right on .i32. -/
  | vsra (h : Tl) (d : BitVec 4) (a : BitVec 5) (b : BitVec 5) (g : BitVec 6) (y : BitVec 2)
  /-- VMAD (R238). Adds both packed-half products to an FP32 or I32 lane with one rounding. -/
  | vmad (h : Tl) (d : BitVec 4) (a : BitVec 5) (b : BitVec 5) (g : BitVec 6) (y : BitVec 2)
  /-- VCMP (R239). Compares every lane and writes a lane predicate. -/
  | vcmp (h : Tl) (c : BitVec 4) (a : BitVec 5) (b : BitVec 5) (p : BitVec 6) (y : BitVec 2)
  /-- VSEL (R240). Selects each lane from va or vb by a predicate. -/
  | vsel (h : Tl) (d : BitVec 4) (a : BitVec 5) (b : BitVec 5) (p : BitVec 6) (y : BitVec 2)
  /-- VMOV (R240). Copies the true lanes of a source bit for bit. -/
  | vmov (h : Tl) (d : BitVec 4) (a : BitVec 5) (g : BitVec 6) (y : BitVec 2)
  /-- VMOVI (R240). Writes a 32-bit immediate to the true lanes. -/
  | vmovi (h : Tl) (d : BitVec 4) (g : BitVec 6) (y : BitVec 2) (imm : BitVec 32)
  /-- VCVT (R241). Converts each true lane by the conversion coded in vb. -/
  | vcvt (h : Tl) (d : BitVec 4) (a : BitVec 5) (c : BitVec 5) (g : BitVec 6)
  /-- VROTR (R242). Rotates lanes along each row by an address-register amount. -/
  | vrotr (h : Tl) (d : BitVec 4) (a : BitVec 5) (n : BitVec 4) (g : BitVec 6) (y : BitVec 2)
  /-- VROTC (R242). Rotates lanes down each column. -/
  | vrotc (h : Tl) (d : BitVec 4) (a : BitVec 5) (n : BitVec 4) (g : BitVec 6) (y : BitVec 2)
  /-- VBCR (R242). Broadcasts one column of each row. -/
  | vbcr (h : Tl) (d : BitVec 4) (a : BitVec 5) (n : BitVec 4) (g : BitVec 6) (y : BitVec 2)
  /-- VBCC (R242). Broadcasts one row of each column. -/
  | vbcc (h : Tl) (d : BitVec 4) (a : BitVec 5) (n : BitVec 4) (g : BitVec 6) (y : BitVec 2)
  /-- VREDR (R243). Pairwise reduction along each row. -/
  | vredr (h : Tl) (d : BitVec 4) (a : BitVec 5) (o : BitVec 5) (g : BitVec 6) (y : BitVec 2)
  /-- VREDC (R243). Pairwise reduction down each column. -/
  | vredc (h : Tl) (d : BitVec 4) (a : BitVec 5) (o : BitVec 5) (g : BitVec 6) (y : BitVec 2)
  /-- VSCANR (R243). Pairwise prefix scan along each row. -/
  | vscanr (h : Tl) (d : BitVec 4) (a : BitVec 5) (o : BitVec 5) (g : BitVec 6) (y : BitVec 2)
  /-- VSCANC (R243). Pairwise prefix scan down each column. -/
  | vscanc (h : Tl) (d : BitVec 4) (a : BitVec 5) (o : BitVec 5) (g : BitVec 6) (y : BitVec 2)
  /-- VEXP2 (R245). Starts a pending SFU write of 2^x, landing six bundles later. -/
  | vexp2 (h : Tl) (d : BitVec 4) (a : BitVec 5) (g : BitVec 6) (y : BitVec 2)
  /-- VLOG2 (R245). Starts a pending SFU write of log2 x. -/
  | vlog2 (h : Tl) (d : BitVec 4) (a : BitVec 5) (g : BitVec 6) (y : BitVec 2)
  /-- VRCP (R245). Starts a pending SFU write of 1/x. -/
  | vrcp (h : Tl) (d : BitVec 4) (a : BitVec 5) (g : BitVec 6) (y : BitVec 2)
  /-- VRSQ (R245). Starts a pending SFU write of 1/sqrt x. -/
  | vrsq (h : Tl) (d : BitVec 4) (a : BitVec 5) (g : BitVec 6) (y : BitVec 2)
  /-- VTANH (R245). Starts a pending SFU write of tanh x rounded toward zero. -/
  | vtanh (h : Tl) (d : BitVec 4) (a : BitVec 5) (g : BitVec 6) (y : BitVec 2)
  /-- PAND (R247). ANDs two lane predicates. -/
  | pand (h : Tl) (d : BitVec 6) (a : BitVec 6) (b : BitVec 6)
  /-- POR (R247). ORs two lane predicates. -/
  | por (h : Tl) (d : BitVec 6) (a : BitVec 6) (b : BitVec 6)
  /-- PXOR (R247). XORs two lane predicates. -/
  | pxor (h : Tl) (d : BitVec 6) (a : BitVec 6) (b : BitVec 6)
  /-- PNOT (R247). Negates a lane predicate. -/
  | pnot (h : Tl) (d : BitVec 6) (a : BitVec 6)
  /-- PMOV (R247). Copies a lane predicate. -/
  | pmov (h : Tl) (d : BitVec 6) (a : BitVec 6)
  /-- PANY (R248). Sets a scalar predicate if any lane has both predicates true. -/
  | pany (h : Tl) (d : BitVec 3) (a : BitVec 6) (b : BitVec 6)
  /-- PALL (R248). Sets a scalar predicate if every lane of pb has pa true. -/
  | pall (h : Tl) (d : BitVec 3) (a : BitVec 6) (b : BitVec 6)
  /-- PCNT (R248). Counts lanes with both predicates true into an address register. -/
  | pcnt (h : Tl) (d : BitVec 4) (a : BitVec 6) (b : BitVec 6)
  /-- TWR (R250). Writes a v register into 16 rows of a transpose tile with conversion. -/
  | twr (h : Hd) (t : BitVec 2) (v : BitVec 4) (c : BitVec 6) (w : BitVec 2)
  /-- TRR (R250). Reads 16 tile rows into a v register. -/
  | trr (h : Hd) (t : BitVec 2) (v : BitVec 4) (c : BitVec 6) (w : BitVec 2)
  /-- TRC (R250). Reads 16 tile columns into a v register. -/
  | trc (h : Hd) (t : BitVec 2) (v : BitVec 4) (c : BitVec 6) (w : BitVec 2)
  /-- TCLR (R250). Clears a transpose tile. -/
  | tclr (h : Hd) (t : BitVec 2)
  /-- AADD (R252). Adds two address registers. -/
  | aadd (h : Hd) (d : BitVec 4) (a : BitVec 4) (m : BitVec 4)
  /-- AMOV (R252). Copies an address register. -/
  | amov (h : Hd) (d : BitVec 4) (a : BitVec 4)
  /-- APOST (R252). Copies an address register and steps it by a modifier. -/
  | apost (h : Hd) (d : BitVec 4) (a : BitVec 4) (m : BitVec 4)
  /-- AMODSET (R252). Writes a modifier register after checking its fields. -/
  | amodset (h : Hd) (a : BitVec 4) (m : BitVec 4)
  /-- AIDX (R252). Computes an indexed address from a modifier. -/
  | aidx (h : Hd) (d : BitVec 4) (a : BitVec 4) (m : BitVec 4)
  /-- AADDI (R253). Adds a signed 14-bit immediate to an address register. -/
  | aaddi (h : Tl) (d : BitVec 4) (a : BitVec 4) (i : BitVec 14)
  /-- QPUSH (R246). Gives an image, false lanes zeroed, to a store queue or the index queue. -/
  | qpush (h : Tl) (n : BitVec 4) (a : BitVec 5) (g : BitVec 6)
  /-- A_MFS (R253). C reads a system register marked all into an address register. -/
  | aMfs (h : Tl) (d : BitVec 4) (i : BitVec 9)
  /-- WIN (R300). Checks and accepts one optical window at a stamp. -/
  | win (h : Hd) (ws : BitVec 2) (c : BitVec 4) (ak : BitVec 4) (h0 : BitVec 2) (e : BitVec 2) (first : BitVec 1) (last : BitVec 1) (rel : BitVec 1) (b0 : BitVec 20)
  /-- WCFG (R299). Writes a bank register from an address register. -/
  | wcfg (h : Hd) (n : BitVec 5) (a : BitVec 4)
  /-- WCFG_RD (R299). Reads a bank register into an address register. -/
  | wcfgRd (h : Hd) (n : BitVec 5) (a : BitVec 4)
  /-- WACC_RD (R312). Waits for pending windows and reads an accumulator into a v register. -/
  | waccRd (h : Hd) (c : BitVec 4) (v : BitVec 4)
  /-- WACC_WR (R312). Waits for pending windows and writes an accumulator from a source. -/
  | waccWr (h : Hd) (c : BitVec 4) (a : BitVec 5)
  /-- WACC_CLR (R312). Waits for pending windows and clears an accumulator. -/
  | waccClr (h : Hd) (c : BitVec 4)
  /-- WACC_EPI (R312). Enters an accumulator into the epilogue queue with a descriptor. -/
  | waccEpi (h : Hd) (c : BitVec 4) (e : BitVec 2)
  /-- WSTAT (R308). Reads the head of the window status queue and its saturation mask. -/
  | wstat (h : Hd) (d : BitVec 4) (p : BitVec 6) (e : BitVec 1)
  /-- LVTSET (R313). Loads a level table or activation table from an image after earlier windows finish. -/
  | lvtset (h : Hd) (t : BitVec 1) (n : BitVec 3) (a : BitVec 5)
  /-- BCAST (R318). Checks, reads and accepts one activation window of the broadcast core. -/
  | bcast (h : Hd) (s0 : BitVec 4) (ak : BitVec 4) (nm1 : BitVec 6) (tm1 : BitVec 4) (wp : BitVec 1) (b0 : BitVec 20)
  /-- PLANB (R323). Opens a plan: stops L, S and K, takes the snapshot and forms participants and waves. -/
  | planb (h : Hd) (d : BitVec 4)
  /-- PLANE (R325). Closes the plan after its last BCAST step. -/
  | plane (h : Hd)
  /-- FIBEX_RD (R334). Reads the fibre status word. -/
  | fibexRd (h : Hd) (d : BitVec 4)
  /-- FIBEX_SET (R334). Sets the fibre export mask. -/
  | fibexSet (h : Hd) (a : BitVec 4)
  /-- LDXP_REPLY (R191). The remote reply writes xd or records the home's fault and makes the parked context ready. -/
  | ldxpReply (c : CtxId)
  /-- DECODER_CHUNK_DONE (R225). A decoder lane finishes a chunk, which is delivered in chunk order or discards later chunks on failure. -/
  | decoderChunkDone (c : CtxId)
  /-- SHADOW_COPY_ON_FIRST_WRITE (R127). The first shadow write to an OPEN page copies the visible page with tags, sets WRITTEN and then writes. -/
  | shadowCopyOnFirstWrite
  /-- WINDOW_STAGING (R302). At step B - 32 the tile is read from its slot and checked, the slot released if REL, or the window made INVALID. -/
  | windowStaging (c : CtxId) (n : Nat)
  /-- WINDOW_PASS (R282). Light of one pass meets the weights and each cell's converter delivers a clamped code. -/
  | windowPass (c : CtxId) (n : Nat)
  /-- WINDOW_RESCALE (R288). At E + 16 pass codes combine into C and D is formed. -/
  | windowRescale (c : CtxId) (n : Nat)
  /-- WINDOW_ACCUMULATE (R289). At E + 24 D is added to the accumulator, the status entry queued and a LAST tile enters the epilogue. -/
  | windowAccumulate (c : CtxId) (n : Nat)
  /-- EPILOGUE_TILE (R303). The head tile reads its bias and applies its activation table. -/
  | epilogueTile (c : CtxId)
  /-- EPILOGUE_OUTPUT (R305). The tile is given to oq or written, possibly quantised, to its epilogue stream. -/
  | epilogueOutput (c : CtxId)
  /-- EPILOGUE_TIMEOUT (R306). A tile waiting past the window's BOUND defers watchdog and is removed from the head. -/
  | epilogueTimeout (c : CtxId)
  /-- BCAST_SIDEBAND (R320). At B - 32 the exponents and pass descriptors are sent on the side-band. -/
  | bcastSideband (b : Nat)
  /-- BCAST_LIGHT (R319). At each step of each pass the activation rows are lit with the decoded levels. -/
  | bcastLight (b : Nat)
  /-- PLAN_PUBLISH (R323). Once the wave is resident the base is published to each participant with its plan-start copy, and PLANB retires. -/
  | planPublish
  /-- PLAN_CLOSE (R325). The plan closes for every participant, deferred pre-emptions act, and a remaining wave restarts from the snapshot. -/
  | planClose
  /-- PLAN_OVERRUN (R327). A plan open at base + 2^20 + 4,096 is aborted with plan overrun. -/
  | planOverrun
  /-- PLAN_ABORT (R328). The broadcast stops sending light for the plan across the whole domain. -/
  | planAbort
  /-- FIBRE_LIGHT_LOSS (R335). A fibre port loses light, clearing its UP bit and making the peer's windows ABSENT. -/
  | fibreLightLoss (port : Nat)
  /-- COPY_COMMAND_START (R341). The range checker lets a queued command start and it makes its execution checks. -/
  | copyCommandStart (c : CtxId) (t : DWord)
  /-- COPY_COMMAND_FINISH (R340). A command's writes, buffer transitions and chain actions are performed. -/
  | copyCommandFinish (c : CtxId) (t : DWord)
  /-- COPY_BOUND_OVERRUN (R349). A command overrunning its BOUND stops with a written prefix and records watchdog. -/
  | copyBoundOverrun (c : CtxId) (n : Nat)
  /-- TILE_FLAG_WRITE (R363). A write leaving a firing or failing value in an ARMED entry's flag word fires or fails it. -/
  | tileFlagWrite (t : Nat)
  /-- COLLECTIVE_COMPLETE (R370). Each member writes the result into its DST shadow, publishes if PUB, and writes CREC. -/
  | collectiveComplete (t : Nat) (peers : List Peer) (order : List Nat)
  /-- COLLECTIVE_BOUND_OVERRUN (R373). An instance not complete within BOUND of FD0's clock fails watchdog. -/
  | collectiveBoundOverrun (t : Nat)
  /-- COLLECTIVE_PEER_FAILED (R373). A member told of a peer's failure fails its entry with collective peer failed. -/
  | collectivePeerFailed (t : Nat) (dev : Nat) (mismatch : Bool)
  /-- REMOTE_REQUEST (R358). A request flit arrives at its home, which checks and performs it once in path order. -/
  | remoteRequest (r : FabricReq)
  /-- REMOTE_REPLY (R359). A reply or acknowledgement arrives at the requester, completing or faulting the access. -/
  | remoteReply (c : CtxId)
  /-- LINK_LANE_FAILURE (R356). A failed lane is replaced by the spare or its link leaves routing. -/
  | linkLaneFailure (link : Nat) (lost : List Nat)
  /-- NODE_DISPATCH (R153). The task-graph machine places and dispatches the first dispatchable node of the ready pool. -/
  | nodeDispatch
  /-- NODE_COMPLETE (R155). A node whose sequencers halted and engine commands completed releases and decrements its successors. -/
  | nodeComplete (c : CtxId)
  /-- NODE_LATE (R156). The plan clock passes a pooled node's deadline, counting it late and discarding its reach under ABL. -/
  | nodeLate
  /-- PREEMPTION (R161). A lower-key node or context takes a core's bank, bringing it into the shadow bank and swapping. -/
  | preemption (die : Nat) (core : Nat)
  /-- BANK_SWAP (R157). A core exchanges its active and shadow banks in exactly 32 cycles. -/
  | bankSwap (die : Nat) (core : Nat)
  /-- SPILL (R159). The spill engine saves a bank image and frame to the spill area. -/
  | spill (c : CtxId)
  /-- CONTEXT_RESTORE (R159). The spill engine restores a spilled context into a free bank. -/
  | contextRestore (c : CtxId) (die : Nat) (core : Nat) (bank : Nat)
  /-- CONTEXT_YIELD (R416). A context whose sequencers all waited 1,024 counted cycles is treated as parked. -/
  | contextYield (c : CtxId)
  /-- PAGE_MIGRATION (R135). Firmware moves a page between stacks in the steps of R135. -/
  | pageMigration (asid : Nat) (va : DWord) (ppn : Nat)
  /-- PAGE_UNMAP (R135). Firmware unmaps a page, writing V = 0 and resuming waiters with page fault. -/
  | pageUnmap (asid : Nat) (va : DWord)
  /-- L2_LEASE_EXPIRY (R122). A line homed on another die is written back and dropped 16,384 cycles after fill. -/
  | l2LeaseExpiry (die : Nat) (line : Nat)
  /-- WATCH_HIT_BY_OTHER_AGENT (R134). Another agent's access hits a watchpoint and the setter's core stops within 64 cycles. -/
  | watchHitByOtherAgent
  /-- FAULT_FRAME_WRITE (R385). The stopped core writes its 256-byte frame into the mailbox slot of its bank. -/
  | faultFrameWrite (c : CtxId)
  /-- FRAME_ROUTING (R386). The management core routes a frame to firmware, the handler node or the device-fatal path. -/
  | frameRouting (c : CtxId) (choice : FirmwareChoice)
  /-- PARITY_REPLAY (R390). A register parity error cancels and replays the read, repairing from the operand log. -/
  | parityReplay (c : CtxId) (q : SeqId)
  /-- WATCHDOG_EXPIRY (R391). A wait's count exceeds BOUND in a counted cycle and faults watchdog. -/
  | watchdogExpiry (c : CtxId) (q : SeqId)
  /-- DEVICE_FATAL_ERROR (R392). An uncorrectable or fatal condition is detected and affected launches are lost with STATUS 4. -/
  | deviceFatalError (f : Fatal)
  /-- URGENT_PREEMPTION (R397). Firmware pre-empts urgently, aborting any plan within 4,096 steps. -/
  | urgentPreemption (c : CtxId)
  /-- CALIBRATION_RUN (R395). Firmware calibrates a bank's phase and skew in calibration slots. -/
  | calibrationRun (die : Nat) (core : Nat)
  /-- CALIBRATION_STALE (R395). A bank's calibration stops being current after 1 ms or a 2 degree drift. -/
  | calibrationStale (die : Nat) (core : Nat) (skew : Bool)
  /-- SPARE_LINE_OR_COLUMN (R396). A spare line or column replaces a degrading one at a calibration slot. -/
  | spareLineOrColumn (core : Option (Nat × Nat))
  /-- COMB_LASER_SWITCH (R396). The spare comb laser module replaces a failing one within 2 ms, marking windows LASER. -/
  | combLaserSwitch (steps : Nat)
  /-- SPARE_CORE_MOVE (R396). Contexts of a degrading core move to the spare core and SPARES falls. -/
  | spareCoreMove (die : Nat) (core : Nat)
  /-- CORE_WITHDRAWAL (R34). A core failing with no spare is withdrawn and CORES falls. -/
  | coreWithdrawal (die : Nat) (core : Nat)
  /-- INTERVAL_BOUNDARY (R426). At each 64,000-step boundary pools refill, grant permits and fix each die's frequency. -/
  | intervalBoundary
  /-- THERMAL_CAP_CHANGE (R423). Firmware changes a compute die's thermal cap. -/
  | thermalCapChange (die : Nat) (freq : Nat)
  /-- HOST_SUBMISSION (R434). The machine reads the expected submission slot, checks the packet and writes its status. -/
  | hostSubmission
  /-- SUBMISSION_QUEUE_BASE_WRITE (R433). Writing the submission queue base resets the expected sequence number to 1. -/
  | submissionQueueBaseWrite (v : DWord)
  /-- IDENT (R436). Mailbox command returning the identity record. -/
  | ident (slot : Nat)
  /-- MGMT_FREEZE (R419). Mailbox command performing FREEZE on any launch of the device. -/
  | mgmtFreeze (slot : Nat)
  /-- MGMT_THAW (R419). Mailbox command performing THAW under a named ASID. -/
  | mgmtThaw (slot : Nat)
  /-- ATTEST (R439). Mailbox command writing a signed attestation report after advancing the counter. -/
  | attest (slot : Nat)
  /-- URGENT (R435). Mailbox command making a management-urgent pre-emption of every context of a launch. -/
  | urgent (slot : Nat)
  /-- MBOX_OTHER_OP (R435). A mailbox command with an unknown OP is refused with cause 0x300. -/
  | mboxOtherOp (slot : Nat)
  /-- REGISTER_WINDOW_WRITE (R435). A host write to a register-window location with no behaviour of its own. -/
  | registerWindowWrite (off : Nat) (v : DWord)
  /-- HOST_MEMORY_ACCESS (R432). A host read or write of device HBM performed at the line's home. -/
  | hostMemoryAccess (a : HostAccess)
  /-- RESET_RELEASE (R437). Reset is released, the plan clock starts at 0 and boot begins. -/
  | resetRelease
  /-- BOOT_STEP (R437). A boot step completes or fails, setting BOOT to 2 and FAIL. -/
  | bootStep (b : BootInput)
  /-- ILLEGAL_INSTRUCTION (R53). A sequencer about to execute a word whose major opcode is unassigned on it, such as an all-zero word, faults illegal instruction of that sequencer. -/
  | illegalInstruction
  /-- DEBUGGER_STOP (R391). A debugger or management stop halts a context, and its release lets it run again; no watchdog cycles are counted while it is stopped. -/
  | debuggerStop (c : CtxId) (stop : Bool)
  /-- SPARE_HBM_PSEUDO_CHANNEL (R33). Firmware brings in a spare HBM pseudo-channel in place of a failing one, at any step, and the program sees only time. -/
  | spareHbmPseudoChannel (stack : Nat)
  /-- FIBRE_LIGHT_RETURN (R335). Working light returns on a fibre port to a joined peer, and its UP bit sets again. -/
  | fibreLightReturn (port : Nat)
  /-- POWER_LOSS (R439). Power is lost, possibly between the advance of the attestation counter and the release of a signature, which wastes that signature and never repeats one. -/
  | powerLoss
  deriving DecidableEq, Repr

/-- One turn of the machine (log 2): time passes, a sequencer issues, or an event takes place. -/
inductive Turn where
  /-- `n` steps of the plan clock pass, or fewer when a due event stands before. -/
  | elapse (n : Nat)
  /-- The sequencer of the context issues its next instruction, or its next bundle on C. -/
  | issue (c : CtxId) (q : SeqId)
  /-- Firmware writes entries of page tables, and root tables of ASIDs, and completes the invalidation (04 R98, R107). -/
  | tables (entries : List (Nat × BitVec 128)) (roots : List (Nat × Nat))
  /-- Another module of the broadcast domain tells this one of a plan (11 R333). -/
  | domain (e : DomainEvent)
  /-- The event takes place; a word of a sequencer is no event, and such a turn changes nothing. -/
  | act (i : Instr)
  deriving DecidableEq, Repr, Inhabited

end Sys2Proof
end

