-- ==== Sys2Proof/WellFormed.lean ====
section
/-! DEFINITION. Which words are well formed on which sequencer (02 R42 row 4, R49; 01 R21).

A word that is not well formed faults as an illegal instruction of its sequencer. -/
namespace Sys2Proof

/-- The system registers that MFS and MTS of K may name (06 R169). -/
def sysAssigned (n : Nat) : Bool :=
  decide (n ≤ 0x004) || (decide (0x008 ≤ n) && decide (n ≤ 0x00E)) || (decide (0x010 ≤ n) && decide (n ≤ 0x022)) ||
    (decide (0x030 ≤ n) && decide (n ≤ 0x03F))

/-- The system registers whose reader column says "all" (06 R169). -/
def sysAll (n : Nat) : Bool :=
  (decide (0x008 ≤ n) && decide (n ≤ 0x00A)) || (decide (0x010 ≤ n) && decide (n ≤ 0x022))

namespace Instr

/-- The opcode maps that hold the instruction (02 R53 to R58). An event of the machine is on none. -/
def maps (i : Instr) : List SeqSel :=
  match i with
  | .nop _ => [.l, .c, .s, .k, .b]
  | .halt _ => [.l, .c, .s, .k, .b]
  | .fence _ _ _ => [.l, .c, .s, .k, .b]
  | .tkpost _ _ _ => [.l, .c, .s, .k, .b]
  | .tkwait _ _ _ => [.l, .c, .s, .k, .b]
  | .pbt _ _ _ _ _ => [.l, .c, .s, .k, .b]
  | .brx _ _ => [.l, .c, .s, .k, .b]
  | .brxd _ _ _ => [.l, .c, .s, .k, .b]
  | .add _ _ _ _ => [.k]
  | .sub _ _ _ _ => [.k]
  | .and _ _ _ _ => [.k]
  | .or _ _ _ _ => [.k]
  | .xor _ _ _ _ => [.k]
  | .shl _ _ _ _ => [.k]
  | .shr _ _ _ _ => [.k]
  | .sra _ _ _ _ => [.k]
  | .mul _ _ _ _ => [.k]
  | .mulh _ _ _ _ => [.k]
  | .mulhu _ _ _ _ => [.k]
  | .div _ _ _ _ => [.k]
  | .divu _ _ _ _ => [.k]
  | .rem _ _ _ _ => [.k]
  | .min _ _ _ _ => [.k]
  | .max _ _ _ _ => [.k]
  | .addi _ _ _ _ => [.k]
  | .andi _ _ _ _ => [.k]
  | .ori _ _ _ _ => [.k]
  | .xori _ _ _ _ => [.k]
  | .shli _ _ _ _ => [.k]
  | .shri _ _ _ _ => [.k]
  | .srai _ _ _ _ => [.k]
  | .movi _ _ _ => [.k]
  | .movhi _ _ _ _ => [.k]
  | .cmp _ _ _ _ _ => [.k]
  | .cmpi _ _ _ _ _ => [.k]
  | .qand _ _ _ _ => [.k]
  | .qor _ _ _ _ => [.k]
  | .qnot _ _ _ => [.k]
  | .ldx _ _ _ _ _ _ _ => [.k]
  | .stx _ _ _ _ _ _ _ => [.k]
  | .stxTag _ _ _ _ _ => [.k]
  | .ldxp _ _ _ _ _ _ _ => [.k]
  | .amo _ _ _ _ _ _ => [.k]
  | .cinv _ _ _ _ => [.k]
  | .cwb _ _ _ _ => [.k]
  | .pin _ _ _ => [.k]
  | .unpin _ _ _ => [.k]
  | .mfs _ _ _ => [.k]
  | .mts _ _ _ => [.k]
  | .rdplan _ _ _ => [.k]
  | .trap _ _ => [.k]
  | .brk _ _ => [.k]
  | .garr _ _ _ _ => [.k]
  | .gwait _ _ _ _ => [.k]
  | .gsync _ _ _ _ => [.k]
  | .launch _ _ _ => [.k]
  | .spawn _ => [.k]
  | .cpy _ _ _ _ _ _ _ => [.k]
  | .cpyc _ _ _ _ _ _ _ _ => [.k]
  | .cpywait _ _ _ => [.k]
  | .cpywaitAll _ _ => [.k]
  | .cpywaitChain _ _ => [.k]
  | .ctreadyArm _ _ _ => [.k]
  | .ctreadyFire _ _ => [.k]
  | .ctreadyGo _ _ _ => [.k]
  | .ctwait _ _ _ => [.k]
  | .ctwaitTest _ _ _ => [.k]
  | .boostRel _ _ => [.k]
  | .boostMid _ _ => [.k]
  | .boostMax _ _ => [.k]
  | .freezeMark _ _ => [.k]
  | .freeze _ _ _ _ => [.k]
  | .freezeDrop _ _ => [.k]
  | .freezeCont _ _ => [.k]
  | .thaw _ _ _ _ => [.k]
  | .resume _ _ => [.k]
  | .resumeTerm _ _ => [.k]
  | .yAdd _ _ _ _ => [.l, .s]
  | .ySub _ _ _ _ => [.l, .s]
  | .yAnd _ _ _ _ => [.l, .s]
  | .yOr _ _ _ _ => [.l, .s]
  | .yXor _ _ _ _ => [.l, .s]
  | .yShl _ _ _ _ => [.l, .s]
  | .yShr _ _ _ _ => [.l, .s]
  | .ySra _ _ _ _ => [.l, .s]
  | .yMin _ _ _ _ => [.l, .s]
  | .yMax _ _ _ _ => [.l, .s]
  | .yAddi _ _ _ _ => [.l, .s]
  | .yMovi _ _ _ => [.l, .s]
  | .yCmp _ _ _ _ _ => [.l, .s]
  | .yMfs _ _ _ => [.l, .s]
  | .sbind _ _ _ _ _ _ => [.l, .s]
  | .sset _ _ _ _ _ => [.l, .s]
  | .lds _ _ _ _ => [.l]
  | .ldso _ _ _ _ _ => [.l]
  | .ldg _ _ _ _ => [.l]
  | .ldz _ _ _ _ _ => [.l]
  | .ldb _ _ _ _ _ => [.l]
  | .pref _ _ _ => [.l]
  | .bdecl _ _ _ _ _ _ => [.l]
  | .bwait _ _ _ => [.l, .s]
  | .bstateRead _ _ _ => [.l, .s]
  | .bstatePdone _ _ => [.l, .s]
  | .bstateCdone _ _ => [.l, .s]
  | .bstateFree _ _ => [.l, .s]
  | .ldtf _ => [.l]
  | .sts _ _ _ _ => [.s]
  | .qst _ _ _ _ _ => [.s]
  | .stb _ _ _ _ _ => [.s]
  | .shopen _ _ _ => [.s]
  | .publish _ _ _ _ => [.s]
  | .atomv _ _ _ _ _ => [.s]
  | .amos _ _ _ _ _ _ _ => [.s]
  | .bdrain _ _ => [.s]
  | .vadd _ _ _ _ _ _ => [.c, .b]
  | .vsub _ _ _ _ _ _ => [.c, .b]
  | .vmul _ _ _ _ _ _ => [.c, .b]
  | .vfma _ _ _ _ _ _ => [.c, .b]
  | .vfms _ _ _ _ _ _ => [.c, .b]
  | .vmin _ _ _ _ _ _ => [.c, .b]
  | .vmax _ _ _ _ _ _ => [.c, .b]
  | .vabs _ _ _ _ _ => [.c, .b]
  | .vneg _ _ _ _ _ => [.c, .b]
  | .vand _ _ _ _ _ _ => [.c, .b]
  | .vor _ _ _ _ _ _ => [.c, .b]
  | .vxor _ _ _ _ _ _ => [.c, .b]
  | .vnot _ _ _ _ _ => [.c, .b]
  | .vshl _ _ _ _ _ _ => [.c, .b]
  | .vshr _ _ _ _ _ _ => [.c, .b]
  | .vsra _ _ _ _ _ _ => [.c, .b]
  | .vmad _ _ _ _ _ _ => [.c, .b]
  | .vcmp _ _ _ _ _ _ => [.c, .b]
  | .vsel _ _ _ _ _ _ => [.c, .b]
  | .vmov _ _ _ _ _ => [.c, .b]
  | .vmovi _ _ _ _ _ => [.c, .b]
  | .vcvt _ _ _ _ _ => [.c, .b]
  | .vrotr _ _ _ _ _ _ => [.c, .b]
  | .vrotc _ _ _ _ _ _ => [.c, .b]
  | .vbcr _ _ _ _ _ _ => [.c, .b]
  | .vbcc _ _ _ _ _ _ => [.c, .b]
  | .vredr _ _ _ _ _ _ => [.c, .b]
  | .vredc _ _ _ _ _ _ => [.c, .b]
  | .vscanr _ _ _ _ _ _ => [.c, .b]
  | .vscanc _ _ _ _ _ _ => [.c, .b]
  | .vexp2 _ _ _ _ _ => [.c, .b]
  | .vlog2 _ _ _ _ _ => [.c, .b]
  | .vrcp _ _ _ _ _ => [.c, .b]
  | .vrsq _ _ _ _ _ => [.c, .b]
  | .vtanh _ _ _ _ _ => [.c, .b]
  | .pand _ _ _ _ => [.c, .b]
  | .por _ _ _ _ => [.c, .b]
  | .pxor _ _ _ _ => [.c, .b]
  | .pnot _ _ _ => [.c, .b]
  | .pmov _ _ _ => [.c, .b]
  | .pany _ _ _ _ => [.c, .b]
  | .pall _ _ _ _ => [.c, .b]
  | .pcnt _ _ _ _ => [.c, .b]
  | .twr _ _ _ _ _ => [.c, .b]
  | .trr _ _ _ _ _ => [.c, .b]
  | .trc _ _ _ _ _ => [.c, .b]
  | .tclr _ _ => [.c, .b]
  | .aadd _ _ _ _ => [.c, .b]
  | .amov _ _ _ => [.c, .b]
  | .apost _ _ _ _ => [.c, .b]
  | .amodset _ _ _ => [.c, .b]
  | .aidx _ _ _ _ => [.c, .b]
  | .aaddi _ _ _ _ => [.c, .b]
  | .qpush _ _ _ _ => [.c, .b]
  | .aMfs _ _ _ => [.c, .b]
  | .win _ _ _ _ _ _ _ _ _ _ => [.c]
  | .wcfg _ _ _ => [.c]
  | .wcfgRd _ _ _ => [.c]
  | .waccRd _ _ _ => [.c]
  | .waccWr _ _ _ => [.c]
  | .waccClr _ _ => [.c]
  | .waccEpi _ _ _ => [.c]
  | .wstat _ _ _ _ => [.c]
  | .lvtset _ _ _ _ => [.c, .b]
  | .bcast _ _ _ _ _ _ _ => [.b]
  | .planb _ _ => [.b]
  | .plane _ => [.b]
  | .fibexRd _ _ => [.b]
  | .fibexSet _ _ => [.b]
  | .ldxpReply _ => []
  | .decoderChunkDone _ => []
  | .shadowCopyOnFirstWrite => []
  | .windowStaging _ _ => []
  | .windowPass _ _ => []
  | .windowRescale _ _ => []
  | .windowAccumulate _ _ => []
  | .epilogueTile _ => []
  | .epilogueOutput _ => []
  | .epilogueTimeout _ => []
  | .bcastSideband _ => []
  | .bcastLight _ => []
  | .planPublish => []
  | .planClose => []
  | .planOverrun => []
  | .planAbort => []
  | .fibreLightLoss _ => []
  | .copyCommandStart _ _ => []
  | .copyCommandFinish _ _ => []
  | .copyBoundOverrun _ _ => []
  | .tileFlagWrite _ => []
  | .collectiveComplete _ _ _ => []
  | .collectiveBoundOverrun _ => []
  | .collectivePeerFailed _ _ _ => []
  | .remoteRequest _ => []
  | .remoteReply _ => []
  | .linkLaneFailure _ _ => []
  | .nodeDispatch => []
  | .nodeComplete _ => []
  | .nodeLate => []
  | .preemption _ _ => []
  | .bankSwap _ _ => []
  | .spill _ => []
  | .contextRestore _ _ _ _ => []
  | .contextYield _ => []
  | .pageMigration _ _ _ => []
  | .pageUnmap _ _ => []
  | .l2LeaseExpiry _ _ => []
  | .watchHitByOtherAgent => []
  | .faultFrameWrite _ => []
  | .frameRouting _ _ => []
  | .parityReplay _ _ => []
  | .watchdogExpiry _ _ => []
  | .deviceFatalError _ => []
  | .urgentPreemption _ => []
  | .calibrationRun _ _ => []
  | .calibrationStale _ _ _ => []
  | .spareLineOrColumn _ => []
  | .combLaserSwitch _ => []
  | .spareCoreMove _ _ => []
  | .coreWithdrawal _ _ => []
  | .intervalBoundary => []
  | .thermalCapChange _ _ => []
  | .hostSubmission => []
  | .submissionQueueBaseWrite _ => []
  | .ident _ => []
  | .mgmtFreeze _ => []
  | .mgmtThaw _ => []
  | .attest _ => []
  | .urgent _ => []
  | .mboxOtherOp _ => []
  | .registerWindowWrite _ _ => []
  | .hostMemoryAccess _ => []
  | .resetRelease => []
  | .bootStep _ => []
  | .illegalInstruction => []
  | .debuggerStop _ _ => []
  | .spareHbmPseudoChannel _ => []
  | .fibreLightReturn _ => []
  | .powerLoss => []

/-- The token field of the word (01 R21); 0 for an event. -/
def tokenField (i : Instr) : BitVec 3 :=
  match i with
  | .nop h => h.tk
  | .halt h => h.tk
  | .fence h _ _ => h.tk
  | .tkpost h _ _ => h.tk
  | .tkwait h _ _ => h.tk
  | .pbt h _ _ _ _ => h.tk
  | .brx h _ => h.tk
  | .brxd h _ _ => h.tk
  | .add h _ _ _ => h.tk
  | .sub h _ _ _ => h.tk
  | .and h _ _ _ => h.tk
  | .or h _ _ _ => h.tk
  | .xor h _ _ _ => h.tk
  | .shl h _ _ _ => h.tk
  | .shr h _ _ _ => h.tk
  | .sra h _ _ _ => h.tk
  | .mul h _ _ _ => h.tk
  | .mulh h _ _ _ => h.tk
  | .mulhu h _ _ _ => h.tk
  | .div h _ _ _ => h.tk
  | .divu h _ _ _ => h.tk
  | .rem h _ _ _ => h.tk
  | .min h _ _ _ => h.tk
  | .max h _ _ _ => h.tk
  | .addi h _ _ _ => h.tk
  | .andi h _ _ _ => h.tk
  | .ori h _ _ _ => h.tk
  | .xori h _ _ _ => h.tk
  | .shli h _ _ _ => h.tk
  | .shri h _ _ _ => h.tk
  | .srai h _ _ _ => h.tk
  | .movi h _ _ => h.tk
  | .movhi h _ _ _ => h.tk
  | .cmp h _ _ _ _ => h.tk
  | .cmpi h _ _ _ _ => h.tk
  | .qand h _ _ _ => h.tk
  | .qor h _ _ _ => h.tk
  | .qnot h _ _ => h.tk
  | .ldx h _ _ _ _ _ _ => h.tk
  | .stx h _ _ _ _ _ _ => h.tk
  | .stxTag h _ _ _ _ => h.tk
  | .ldxp h _ _ _ _ _ _ => h.tk
  | .amo h _ _ _ _ _ => h.tk
  | .cinv h _ _ _ => h.tk
  | .cwb h _ _ _ => h.tk
  | .pin h _ _ => h.tk
  | .unpin h _ _ => h.tk
  | .mfs h _ _ => h.tk
  | .mts h _ _ => h.tk
  | .rdplan h _ _ => h.tk
  | .trap h _ => h.tk
  | .brk h _ => h.tk
  | .garr h _ _ _ => h.tk
  | .gwait h _ _ _ => h.tk
  | .gsync h _ _ _ => h.tk
  | .launch h _ _ => h.tk
  | .spawn h => h.tk
  | .cpy h _ _ _ _ _ _ => h.tk
  | .cpyc h _ _ _ _ _ _ _ => h.tk
  | .cpywait h _ _ => h.tk
  | .cpywaitAll h _ => h.tk
  | .cpywaitChain h _ => h.tk
  | .ctreadyArm h _ _ => h.tk
  | .ctreadyFire h _ => h.tk
  | .ctreadyGo h _ _ => h.tk
  | .ctwait h _ _ => h.tk
  | .ctwaitTest h _ _ => h.tk
  | .boostRel h _ => h.tk
  | .boostMid h _ => h.tk
  | .boostMax h _ => h.tk
  | .freezeMark h _ => h.tk
  | .freeze h _ _ _ => h.tk
  | .freezeDrop h _ => h.tk
  | .freezeCont h _ => h.tk
  | .thaw h _ _ _ => h.tk
  | .resume h _ => h.tk
  | .resumeTerm h _ => h.tk
  | .yAdd h _ _ _ => h.tk
  | .ySub h _ _ _ => h.tk
  | .yAnd h _ _ _ => h.tk
  | .yOr h _ _ _ => h.tk
  | .yXor h _ _ _ => h.tk
  | .yShl h _ _ _ => h.tk
  | .yShr h _ _ _ => h.tk
  | .ySra h _ _ _ => h.tk
  | .yMin h _ _ _ => h.tk
  | .yMax h _ _ _ => h.tk
  | .yAddi h _ _ _ => h.tk
  | .yMovi h _ _ => h.tk
  | .yCmp h _ _ _ _ => h.tk
  | .yMfs h _ _ => h.tk
  | .sbind h _ _ _ _ _ => h.tk
  | .sset h _ _ _ _ => h.tk
  | .lds h _ _ _ => h.tk
  | .ldso h _ _ _ _ => h.tk
  | .ldg h _ _ _ => h.tk
  | .ldz h _ _ _ _ => h.tk
  | .ldb h _ _ _ _ => h.tk
  | .pref h _ _ => h.tk
  | .bdecl h _ _ _ _ _ => h.tk
  | .bwait h _ _ => h.tk
  | .bstateRead h _ _ => h.tk
  | .bstatePdone h _ => h.tk
  | .bstateCdone h _ => h.tk
  | .bstateFree h _ => h.tk
  | .ldtf h => h.tk
  | .sts h _ _ _ => h.tk
  | .qst h _ _ _ _ => h.tk
  | .stb h _ _ _ _ => h.tk
  | .shopen h _ _ => h.tk
  | .publish h _ _ _ => h.tk
  | .atomv h _ _ _ _ => h.tk
  | .amos h _ _ _ _ _ _ => h.tk
  | .bdrain h _ => h.tk
  | .vadd h _ _ _ _ _ => h.tk
  | .vsub h _ _ _ _ _ => h.tk
  | .vmul h _ _ _ _ _ => h.tk
  | .vfma h _ _ _ _ _ => h.tk
  | .vfms h _ _ _ _ _ => h.tk
  | .vmin h _ _ _ _ _ => h.tk
  | .vmax h _ _ _ _ _ => h.tk
  | .vabs h _ _ _ _ => h.tk
  | .vneg h _ _ _ _ => h.tk
  | .vand h _ _ _ _ _ => h.tk
  | .vor h _ _ _ _ _ => h.tk
  | .vxor h _ _ _ _ _ => h.tk
  | .vnot h _ _ _ _ => h.tk
  | .vshl h _ _ _ _ _ => h.tk
  | .vshr h _ _ _ _ _ => h.tk
  | .vsra h _ _ _ _ _ => h.tk
  | .vmad h _ _ _ _ _ => h.tk
  | .vcmp h _ _ _ _ _ => h.tk
  | .vsel h _ _ _ _ _ => h.tk
  | .vmov h _ _ _ _ => h.tk
  | .vmovi h _ _ _ _ => h.tk
  | .vcvt h _ _ _ _ => h.tk
  | .vrotr h _ _ _ _ _ => h.tk
  | .vrotc h _ _ _ _ _ => h.tk
  | .vbcr h _ _ _ _ _ => h.tk
  | .vbcc h _ _ _ _ _ => h.tk
  | .vredr h _ _ _ _ _ => h.tk
  | .vredc h _ _ _ _ _ => h.tk
  | .vscanr h _ _ _ _ _ => h.tk
  | .vscanc h _ _ _ _ _ => h.tk
  | .vexp2 h _ _ _ _ => h.tk
  | .vlog2 h _ _ _ _ => h.tk
  | .vrcp h _ _ _ _ => h.tk
  | .vrsq h _ _ _ _ => h.tk
  | .vtanh h _ _ _ _ => h.tk
  | .pand h _ _ _ => h.tk
  | .por h _ _ _ => h.tk
  | .pxor h _ _ _ => h.tk
  | .pnot h _ _ => h.tk
  | .pmov h _ _ => h.tk
  | .pany h _ _ _ => h.tk
  | .pall h _ _ _ => h.tk
  | .pcnt h _ _ _ => h.tk
  | .twr h _ _ _ _ => h.tk
  | .trr h _ _ _ _ => h.tk
  | .trc h _ _ _ _ => h.tk
  | .tclr h _ => h.tk
  | .aadd h _ _ _ => h.tk
  | .amov h _ _ => h.tk
  | .apost h _ _ _ => h.tk
  | .amodset h _ _ => h.tk
  | .aidx h _ _ _ => h.tk
  | .aaddi h _ _ _ => h.tk
  | .qpush h _ _ _ => h.tk
  | .aMfs h _ _ => h.tk
  | .win h _ _ _ _ _ _ _ _ _ => h.tk
  | .wcfg h _ _ => h.tk
  | .wcfgRd h _ _ => h.tk
  | .waccRd h _ _ => h.tk
  | .waccWr h _ _ => h.tk
  | .waccClr h _ => h.tk
  | .waccEpi h _ _ => h.tk
  | .wstat h _ _ _ => h.tk
  | .lvtset h _ _ _ => h.tk
  | .bcast h _ _ _ _ _ _ => h.tk
  | .planb h _ => h.tk
  | .plane h => h.tk
  | .fibexRd h _ => h.tk
  | .fibexSet h _ => h.tk
  | .ldxpReply _ => 0
  | .decoderChunkDone _ => 0
  | .shadowCopyOnFirstWrite => 0
  | .windowStaging _ _ => 0
  | .windowPass _ _ => 0
  | .windowRescale _ _ => 0
  | .windowAccumulate _ _ => 0
  | .epilogueTile _ => 0
  | .epilogueOutput _ => 0
  | .epilogueTimeout _ => 0
  | .bcastSideband _ => 0
  | .bcastLight _ => 0
  | .planPublish => 0
  | .planClose => 0
  | .planOverrun => 0
  | .planAbort => 0
  | .fibreLightLoss _ => 0
  | .copyCommandStart _ _ => 0
  | .copyCommandFinish _ _ => 0
  | .copyBoundOverrun _ _ => 0
  | .tileFlagWrite _ => 0
  | .collectiveComplete _ _ _ => 0
  | .collectiveBoundOverrun _ => 0
  | .collectivePeerFailed _ _ _ => 0
  | .remoteRequest _ => 0
  | .remoteReply _ => 0
  | .linkLaneFailure _ _ => 0
  | .nodeDispatch => 0
  | .nodeComplete _ => 0
  | .nodeLate => 0
  | .preemption _ _ => 0
  | .bankSwap _ _ => 0
  | .spill _ => 0
  | .contextRestore _ _ _ _ => 0
  | .contextYield _ => 0
  | .pageMigration _ _ _ => 0
  | .pageUnmap _ _ => 0
  | .l2LeaseExpiry _ _ => 0
  | .watchHitByOtherAgent => 0
  | .faultFrameWrite _ => 0
  | .frameRouting _ _ => 0
  | .parityReplay _ _ => 0
  | .watchdogExpiry _ _ => 0
  | .deviceFatalError _ => 0
  | .urgentPreemption _ => 0
  | .calibrationRun _ _ => 0
  | .calibrationStale _ _ _ => 0
  | .spareLineOrColumn _ => 0
  | .combLaserSwitch _ => 0
  | .spareCoreMove _ _ => 0
  | .coreWithdrawal _ _ => 0
  | .intervalBoundary => 0
  | .thermalCapChange _ _ => 0
  | .hostSubmission => 0
  | .submissionQueueBaseWrite _ => 0
  | .ident _ => 0
  | .mgmtFreeze _ => 0
  | .mgmtThaw _ => 0
  | .attest _ => 0
  | .urgent _ => 0
  | .mboxOtherOp _ => 0
  | .registerWindowWrite _ _ => 0
  | .hostMemoryAccess _ => 0
  | .resetRelease => 0
  | .bootStep _ => 0
  | .illegalInstruction => 0
  | .debuggerStop _ _ => 0
  | .spareHbmPseudoChannel _ => 0
  | .fibreLightReturn _ => 0
  | .powerLoss => 0

/-- The stop bit of the word (02 R44): 0 where the format has none. -/
def stopBit (i : Instr) : BitVec 1 :=
  match i with
  | .nop h => h.stop
  | .halt h => h.stop
  | .fence h _ _ => h.stop
  | .tkpost h _ _ => h.stop
  | .tkwait h _ _ => h.stop
  | .pbt h _ _ _ _ => h.stop
  | .brx h _ => h.stop
  | .brxd h _ _ => h.stop
  | .add _ _ _ _ => 0
  | .sub _ _ _ _ => 0
  | .and _ _ _ _ => 0
  | .or _ _ _ _ => 0
  | .xor _ _ _ _ => 0
  | .shl _ _ _ _ => 0
  | .shr _ _ _ _ => 0
  | .sra _ _ _ _ => 0
  | .mul _ _ _ _ => 0
  | .mulh _ _ _ _ => 0
  | .mulhu _ _ _ _ => 0
  | .div _ _ _ _ => 0
  | .divu _ _ _ _ => 0
  | .rem _ _ _ _ => 0
  | .min _ _ _ _ => 0
  | .max _ _ _ _ => 0
  | .addi _ _ _ _ => 0
  | .andi _ _ _ _ => 0
  | .ori _ _ _ _ => 0
  | .xori _ _ _ _ => 0
  | .shli _ _ _ _ => 0
  | .shri _ _ _ _ => 0
  | .srai _ _ _ _ => 0
  | .movi _ _ _ => 0
  | .movhi _ _ _ _ => 0
  | .cmp _ _ _ _ _ => 0
  | .cmpi _ _ _ _ _ => 0
  | .qand _ _ _ _ => 0
  | .qor _ _ _ _ => 0
  | .qnot _ _ _ => 0
  | .ldx _ _ _ _ _ _ _ => 0
  | .stx _ _ _ _ _ _ _ => 0
  | .stxTag _ _ _ _ _ => 0
  | .ldxp _ _ _ _ _ _ _ => 0
  | .amo _ _ _ _ _ _ => 0
  | .cinv _ _ _ _ => 0
  | .cwb _ _ _ _ => 0
  | .pin _ _ _ => 0
  | .unpin _ _ _ => 0
  | .mfs _ _ _ => 0
  | .mts _ _ _ => 0
  | .rdplan _ _ _ => 0
  | .trap _ _ => 0
  | .brk _ _ => 0
  | .garr _ _ _ _ => 0
  | .gwait _ _ _ _ => 0
  | .gsync _ _ _ _ => 0
  | .launch _ _ _ => 0
  | .spawn _ => 0
  | .cpy _ _ _ _ _ _ _ => 0
  | .cpyc _ _ _ _ _ _ _ _ => 0
  | .cpywait _ _ _ => 0
  | .cpywaitAll _ _ => 0
  | .cpywaitChain _ _ => 0
  | .ctreadyArm _ _ _ => 0
  | .ctreadyFire _ _ => 0
  | .ctreadyGo _ _ _ => 0
  | .ctwait _ _ _ => 0
  | .ctwaitTest _ _ _ => 0
  | .boostRel _ _ => 0
  | .boostMid _ _ => 0
  | .boostMax _ _ => 0
  | .freezeMark _ _ => 0
  | .freeze _ _ _ _ => 0
  | .freezeDrop _ _ => 0
  | .freezeCont _ _ => 0
  | .thaw _ _ _ _ => 0
  | .resume _ _ => 0
  | .resumeTerm _ _ => 0
  | .yAdd _ _ _ _ => 0
  | .ySub _ _ _ _ => 0
  | .yAnd _ _ _ _ => 0
  | .yOr _ _ _ _ => 0
  | .yXor _ _ _ _ => 0
  | .yShl _ _ _ _ => 0
  | .yShr _ _ _ _ => 0
  | .ySra _ _ _ _ => 0
  | .yMin _ _ _ _ => 0
  | .yMax _ _ _ _ => 0
  | .yAddi _ _ _ _ => 0
  | .yMovi _ _ _ => 0
  | .yCmp _ _ _ _ _ => 0
  | .yMfs _ _ _ => 0
  | .sbind _ _ _ _ _ _ => 0
  | .sset _ _ _ _ _ => 0
  | .lds _ _ _ _ => 0
  | .ldso _ _ _ _ _ => 0
  | .ldg _ _ _ _ => 0
  | .ldz _ _ _ _ _ => 0
  | .ldb _ _ _ _ _ => 0
  | .pref _ _ _ => 0
  | .bdecl _ _ _ _ _ _ => 0
  | .bwait _ _ _ => 0
  | .bstateRead _ _ _ => 0
  | .bstatePdone _ _ => 0
  | .bstateCdone _ _ => 0
  | .bstateFree _ _ => 0
  | .ldtf _ => 0
  | .sts _ _ _ _ => 0
  | .qst _ _ _ _ _ => 0
  | .stb _ _ _ _ _ => 0
  | .shopen _ _ _ => 0
  | .publish _ _ _ _ => 0
  | .atomv _ _ _ _ _ => 0
  | .amos _ _ _ _ _ _ _ => 0
  | .bdrain _ _ => 0
  | .vadd h _ _ _ _ _ => h.stop
  | .vsub h _ _ _ _ _ => h.stop
  | .vmul h _ _ _ _ _ => h.stop
  | .vfma h _ _ _ _ _ => h.stop
  | .vfms h _ _ _ _ _ => h.stop
  | .vmin h _ _ _ _ _ => h.stop
  | .vmax h _ _ _ _ _ => h.stop
  | .vabs h _ _ _ _ => h.stop
  | .vneg h _ _ _ _ => h.stop
  | .vand h _ _ _ _ _ => h.stop
  | .vor h _ _ _ _ _ => h.stop
  | .vxor h _ _ _ _ _ => h.stop
  | .vnot h _ _ _ _ => h.stop
  | .vshl h _ _ _ _ _ => h.stop
  | .vshr h _ _ _ _ _ => h.stop
  | .vsra h _ _ _ _ _ => h.stop
  | .vmad h _ _ _ _ _ => h.stop
  | .vcmp h _ _ _ _ _ => h.stop
  | .vsel h _ _ _ _ _ => h.stop
  | .vmov h _ _ _ _ => h.stop
  | .vmovi h _ _ _ _ => h.stop
  | .vcvt h _ _ _ _ => h.stop
  | .vrotr h _ _ _ _ _ => h.stop
  | .vrotc h _ _ _ _ _ => h.stop
  | .vbcr h _ _ _ _ _ => h.stop
  | .vbcc h _ _ _ _ _ => h.stop
  | .vredr h _ _ _ _ _ => h.stop
  | .vredc h _ _ _ _ _ => h.stop
  | .vscanr h _ _ _ _ _ => h.stop
  | .vscanc h _ _ _ _ _ => h.stop
  | .vexp2 h _ _ _ _ => h.stop
  | .vlog2 h _ _ _ _ => h.stop
  | .vrcp h _ _ _ _ => h.stop
  | .vrsq h _ _ _ _ => h.stop
  | .vtanh h _ _ _ _ => h.stop
  | .pand h _ _ _ => h.stop
  | .por h _ _ _ => h.stop
  | .pxor h _ _ _ => h.stop
  | .pnot h _ _ => h.stop
  | .pmov h _ _ => h.stop
  | .pany h _ _ _ => h.stop
  | .pall h _ _ _ => h.stop
  | .pcnt h _ _ _ => h.stop
  | .twr h _ _ _ _ => h.stop
  | .trr h _ _ _ _ => h.stop
  | .trc h _ _ _ _ => h.stop
  | .tclr h _ => h.stop
  | .aadd h _ _ _ => h.stop
  | .amov h _ _ => h.stop
  | .apost h _ _ _ => h.stop
  | .amodset h _ _ => h.stop
  | .aidx h _ _ _ => h.stop
  | .aaddi h _ _ _ => h.stop
  | .qpush h _ _ _ => h.stop
  | .aMfs h _ _ => h.stop
  | .win h _ _ _ _ _ _ _ _ _ => h.stop
  | .wcfg h _ _ => h.stop
  | .wcfgRd h _ _ => h.stop
  | .waccRd h _ _ => h.stop
  | .waccWr h _ _ => h.stop
  | .waccClr h _ => h.stop
  | .waccEpi h _ _ => h.stop
  | .wstat h _ _ _ => h.stop
  | .lvtset h _ _ _ => h.stop
  | .bcast h _ _ _ _ _ _ => h.stop
  | .planb h _ => h.stop
  | .plane h => h.stop
  | .fibexRd h _ => h.stop
  | .fibexSet h _ => h.stop
  | .ldxpReply _ => 0
  | .decoderChunkDone _ => 0
  | .shadowCopyOnFirstWrite => 0
  | .windowStaging _ _ => 0
  | .windowPass _ _ => 0
  | .windowRescale _ _ => 0
  | .windowAccumulate _ _ => 0
  | .epilogueTile _ => 0
  | .epilogueOutput _ => 0
  | .epilogueTimeout _ => 0
  | .bcastSideband _ => 0
  | .bcastLight _ => 0
  | .planPublish => 0
  | .planClose => 0
  | .planOverrun => 0
  | .planAbort => 0
  | .fibreLightLoss _ => 0
  | .copyCommandStart _ _ => 0
  | .copyCommandFinish _ _ => 0
  | .copyBoundOverrun _ _ => 0
  | .tileFlagWrite _ => 0
  | .collectiveComplete _ _ _ => 0
  | .collectiveBoundOverrun _ => 0
  | .collectivePeerFailed _ _ _ => 0
  | .remoteRequest _ => 0
  | .remoteReply _ => 0
  | .linkLaneFailure _ _ => 0
  | .nodeDispatch => 0
  | .nodeComplete _ => 0
  | .nodeLate => 0
  | .preemption _ _ => 0
  | .bankSwap _ _ => 0
  | .spill _ => 0
  | .contextRestore _ _ _ _ => 0
  | .contextYield _ => 0
  | .pageMigration _ _ _ => 0
  | .pageUnmap _ _ => 0
  | .l2LeaseExpiry _ _ => 0
  | .watchHitByOtherAgent => 0
  | .faultFrameWrite _ => 0
  | .frameRouting _ _ => 0
  | .parityReplay _ _ => 0
  | .watchdogExpiry _ _ => 0
  | .deviceFatalError _ => 0
  | .urgentPreemption _ => 0
  | .calibrationRun _ _ => 0
  | .calibrationStale _ _ _ => 0
  | .spareLineOrColumn _ => 0
  | .combLaserSwitch _ => 0
  | .spareCoreMove _ _ => 0
  | .coreWithdrawal _ _ => 0
  | .intervalBoundary => 0
  | .thermalCapChange _ _ => 0
  | .hostSubmission => 0
  | .submissionQueueBaseWrite _ => 0
  | .ident _ => 0
  | .mgmtFreeze _ => 0
  | .mgmtThaw _ => 0
  | .attest _ => 0
  | .urgent _ => 0
  | .mboxOtherOp _ => 0
  | .registerWindowWrite _ _ => 0
  | .hostMemoryAccess _ => 0
  | .resetRelease => 0
  | .bootStep _ => 0
  | .illegalInstruction => 0
  | .debuggerStop _ _ => 0
  | .spareHbmPseudoChannel _ => 0
  | .fibreLightReturn _ => 0
  | .powerLoss => 0

/-- Words the instruction takes (02 R45): 2 for a long form, 0 for an event. -/
def words (i : Instr) : Nat :=
  match i with
  | .nop _ => 1
  | .halt _ => 1
  | .fence _ _ _ => 1
  | .tkpost _ _ _ => 1
  | .tkwait _ _ _ => 1
  | .pbt _ _ _ _ _ => 2
  | .brx _ _ => 1
  | .brxd _ _ _ => 1
  | .add _ _ _ _ => 1
  | .sub _ _ _ _ => 1
  | .and _ _ _ _ => 1
  | .or _ _ _ _ => 1
  | .xor _ _ _ _ => 1
  | .shl _ _ _ _ => 1
  | .shr _ _ _ _ => 1
  | .sra _ _ _ _ => 1
  | .mul _ _ _ _ => 1
  | .mulh _ _ _ _ => 1
  | .mulhu _ _ _ _ => 1
  | .div _ _ _ _ => 1
  | .divu _ _ _ _ => 1
  | .rem _ _ _ _ => 1
  | .min _ _ _ _ => 1
  | .max _ _ _ _ => 1
  | .addi _ _ _ _ => 1
  | .andi _ _ _ _ => 1
  | .ori _ _ _ _ => 1
  | .xori _ _ _ _ => 1
  | .shli _ _ _ _ => 1
  | .shri _ _ _ _ => 1
  | .srai _ _ _ _ => 1
  | .movi _ _ _ => 2
  | .movhi _ _ _ _ => 2
  | .cmp _ _ _ _ _ => 1
  | .cmpi _ _ _ _ _ => 2
  | .qand _ _ _ _ => 1
  | .qor _ _ _ _ => 1
  | .qnot _ _ _ => 1
  | .ldx _ _ _ _ _ _ _ => 2
  | .stx _ _ _ _ _ _ _ => 2
  | .stxTag _ _ _ _ _ => 2
  | .ldxp _ _ _ _ _ _ _ => 2
  | .amo _ _ _ _ _ _ => 2
  | .cinv _ _ _ _ => 1
  | .cwb _ _ _ _ => 1
  | .pin _ _ _ => 1
  | .unpin _ _ _ => 1
  | .mfs _ _ _ => 1
  | .mts _ _ _ => 1
  | .rdplan _ _ _ => 1
  | .trap _ _ => 1
  | .brk _ _ => 1
  | .garr _ _ _ _ => 1
  | .gwait _ _ _ _ => 1
  | .gsync _ _ _ _ => 1
  | .launch _ _ _ => 1
  | .spawn _ => 1
  | .cpy _ _ _ _ _ _ _ => 1
  | .cpyc _ _ _ _ _ _ _ _ => 2
  | .cpywait _ _ _ => 1
  | .cpywaitAll _ _ => 1
  | .cpywaitChain _ _ => 1
  | .ctreadyArm _ _ _ => 1
  | .ctreadyFire _ _ => 1
  | .ctreadyGo _ _ _ => 1
  | .ctwait _ _ _ => 1
  | .ctwaitTest _ _ _ => 1
  | .boostRel _ _ => 1
  | .boostMid _ _ => 1
  | .boostMax _ _ => 1
  | .freezeMark _ _ => 1
  | .freeze _ _ _ _ => 1
  | .freezeDrop _ _ => 1
  | .freezeCont _ _ => 1
  | .thaw _ _ _ _ => 1
  | .resume _ _ => 1
  | .resumeTerm _ _ => 1
  | .yAdd _ _ _ _ => 1
  | .ySub _ _ _ _ => 1
  | .yAnd _ _ _ _ => 1
  | .yOr _ _ _ _ => 1
  | .yXor _ _ _ _ => 1
  | .yShl _ _ _ _ => 1
  | .yShr _ _ _ _ => 1
  | .ySra _ _ _ _ => 1
  | .yMin _ _ _ _ => 1
  | .yMax _ _ _ _ => 1
  | .yAddi _ _ _ _ => 1
  | .yMovi _ _ _ => 2
  | .yCmp _ _ _ _ _ => 1
  | .yMfs _ _ _ => 1
  | .sbind _ _ _ _ _ _ => 2
  | .sset _ _ _ _ _ => 2
  | .lds _ _ _ _ => 1
  | .ldso _ _ _ _ _ => 1
  | .ldg _ _ _ _ => 1
  | .ldz _ _ _ _ _ => 1
  | .ldb _ _ _ _ _ => 1
  | .pref _ _ _ => 1
  | .bdecl _ _ _ _ _ _ => 2
  | .bwait _ _ _ => 1
  | .bstateRead _ _ _ => 1
  | .bstatePdone _ _ => 1
  | .bstateCdone _ _ => 1
  | .bstateFree _ _ => 1
  | .ldtf _ => 1
  | .sts _ _ _ _ => 1
  | .qst _ _ _ _ _ => 1
  | .stb _ _ _ _ _ => 1
  | .shopen _ _ _ => 1
  | .publish _ _ _ _ => 1
  | .atomv _ _ _ _ _ => 1
  | .amos _ _ _ _ _ _ _ => 2
  | .bdrain _ _ => 1
  | .vadd _ _ _ _ _ _ => 1
  | .vsub _ _ _ _ _ _ => 1
  | .vmul _ _ _ _ _ _ => 1
  | .vfma _ _ _ _ _ _ => 1
  | .vfms _ _ _ _ _ _ => 1
  | .vmin _ _ _ _ _ _ => 1
  | .vmax _ _ _ _ _ _ => 1
  | .vabs _ _ _ _ _ => 1
  | .vneg _ _ _ _ _ => 1
  | .vand _ _ _ _ _ _ => 1
  | .vor _ _ _ _ _ _ => 1
  | .vxor _ _ _ _ _ _ => 1
  | .vnot _ _ _ _ _ => 1
  | .vshl _ _ _ _ _ _ => 1
  | .vshr _ _ _ _ _ _ => 1
  | .vsra _ _ _ _ _ _ => 1
  | .vmad _ _ _ _ _ _ => 1
  | .vcmp _ _ _ _ _ _ => 1
  | .vsel _ _ _ _ _ _ => 1
  | .vmov _ _ _ _ _ => 1
  | .vmovi _ _ _ _ _ => 2
  | .vcvt _ _ _ _ _ => 1
  | .vrotr _ _ _ _ _ _ => 1
  | .vrotc _ _ _ _ _ _ => 1
  | .vbcr _ _ _ _ _ _ => 1
  | .vbcc _ _ _ _ _ _ => 1
  | .vredr _ _ _ _ _ _ => 1
  | .vredc _ _ _ _ _ _ => 1
  | .vscanr _ _ _ _ _ _ => 1
  | .vscanc _ _ _ _ _ _ => 1
  | .vexp2 _ _ _ _ _ => 1
  | .vlog2 _ _ _ _ _ => 1
  | .vrcp _ _ _ _ _ => 1
  | .vrsq _ _ _ _ _ => 1
  | .vtanh _ _ _ _ _ => 1
  | .pand _ _ _ _ => 1
  | .por _ _ _ _ => 1
  | .pxor _ _ _ _ => 1
  | .pnot _ _ _ => 1
  | .pmov _ _ _ => 1
  | .pany _ _ _ _ => 1
  | .pall _ _ _ _ => 1
  | .pcnt _ _ _ _ => 1
  | .twr _ _ _ _ _ => 1
  | .trr _ _ _ _ _ => 1
  | .trc _ _ _ _ _ => 1
  | .tclr _ _ => 1
  | .aadd _ _ _ _ => 1
  | .amov _ _ _ => 1
  | .apost _ _ _ _ => 1
  | .amodset _ _ _ => 1
  | .aidx _ _ _ _ => 1
  | .aaddi _ _ _ _ => 1
  | .qpush _ _ _ _ => 1
  | .aMfs _ _ _ => 1
  | .win _ _ _ _ _ _ _ _ _ _ => 2
  | .wcfg _ _ _ => 1
  | .wcfgRd _ _ _ => 1
  | .waccRd _ _ _ => 1
  | .waccWr _ _ _ => 1
  | .waccClr _ _ => 1
  | .waccEpi _ _ _ => 1
  | .wstat _ _ _ _ => 1
  | .lvtset _ _ _ _ => 1
  | .bcast _ _ _ _ _ _ _ => 2
  | .planb _ _ => 1
  | .plane _ => 1
  | .fibexRd _ _ => 1
  | .fibexSet _ _ => 1
  | .ldxpReply _ => 0
  | .decoderChunkDone _ => 0
  | .shadowCopyOnFirstWrite => 0
  | .windowStaging _ _ => 0
  | .windowPass _ _ => 0
  | .windowRescale _ _ => 0
  | .windowAccumulate _ _ => 0
  | .epilogueTile _ => 0
  | .epilogueOutput _ => 0
  | .epilogueTimeout _ => 0
  | .bcastSideband _ => 0
  | .bcastLight _ => 0
  | .planPublish => 0
  | .planClose => 0
  | .planOverrun => 0
  | .planAbort => 0
  | .fibreLightLoss _ => 0
  | .copyCommandStart _ _ => 0
  | .copyCommandFinish _ _ => 0
  | .copyBoundOverrun _ _ => 0
  | .tileFlagWrite _ => 0
  | .collectiveComplete _ _ _ => 0
  | .collectiveBoundOverrun _ => 0
  | .collectivePeerFailed _ _ _ => 0
  | .remoteRequest _ => 0
  | .remoteReply _ => 0
  | .linkLaneFailure _ _ => 0
  | .nodeDispatch => 0
  | .nodeComplete _ => 0
  | .nodeLate => 0
  | .preemption _ _ => 0
  | .bankSwap _ _ => 0
  | .spill _ => 0
  | .contextRestore _ _ _ _ => 0
  | .contextYield _ => 0
  | .pageMigration _ _ _ => 0
  | .pageUnmap _ _ => 0
  | .l2LeaseExpiry _ _ => 0
  | .watchHitByOtherAgent => 0
  | .faultFrameWrite _ => 0
  | .frameRouting _ _ => 0
  | .parityReplay _ _ => 0
  | .watchdogExpiry _ _ => 0
  | .deviceFatalError _ => 0
  | .urgentPreemption _ => 0
  | .calibrationRun _ _ => 0
  | .calibrationStale _ _ _ => 0
  | .spareLineOrColumn _ => 0
  | .combLaserSwitch _ => 0
  | .spareCoreMove _ _ => 0
  | .coreWithdrawal _ _ => 0
  | .intervalBoundary => 0
  | .thermalCapChange _ _ => 0
  | .hostSubmission => 0
  | .submissionQueueBaseWrite _ => 0
  | .ident _ => 0
  | .mgmtFreeze _ => 0
  | .mgmtThaw _ => 0
  | .attest _ => 0
  | .urgent _ => 0
  | .mboxOtherOp _ => 0
  | .registerWindowWrite _ _ => 0
  | .hostMemoryAccess _ => 0
  | .resetRelease => 0
  | .bootStep _ => 0
  | .illegalInstruction => 0
  | .debuggerStop _ _ => 0
  | .spareHbmPseudoChannel _ => 0
  | .fibreLightReturn _ => 0
  | .powerLoss => 0

/-- Every field holds a value that the entry of the instruction assigns (02 R49; the rules named in Syntax.lean). -/
def fieldsOk (q : SeqSel) (i : Instr) : Bool :=
  match i with
  | .nop _ => true
  | .halt _ => true
  | .fence _ c o => decide (c.toNat ≤ 4) && o != 0#2
  | .tkpost _ f n => f != 0#2 && n != 0#4
  | .tkwait _ f n => f != 0#2 && n != 0#4
  | .pbt _ _ m b _ => (m == 1#1 || b == 0#5) && (q == .k || decide (b.toNat < 16))
  | .brx _ _ => true
  | .brxd _ _ b => q == .k || decide (b.toNat < 16)
  | .add _ _ _ _ => true
  | .sub _ _ _ _ => true
  | .and _ _ _ _ => true
  | .or _ _ _ _ => true
  | .xor _ _ _ _ => true
  | .shl _ _ _ _ => true
  | .shr _ _ _ _ => true
  | .sra _ _ _ _ => true
  | .mul _ _ _ _ => true
  | .mulh _ _ _ _ => true
  | .mulhu _ _ _ _ => true
  | .div _ _ _ _ => true
  | .divu _ _ _ _ => true
  | .rem _ _ _ _ => true
  | .min _ _ _ _ => true
  | .max _ _ _ _ => true
  | .addi _ _ _ _ => true
  | .andi _ _ _ _ => true
  | .ori _ _ _ _ => true
  | .xori _ _ _ _ => true
  | .shli _ _ _ i => decide (i.toNat ≤ 63)
  | .shri _ _ _ i => decide (i.toNat ≤ 63)
  | .srai _ _ _ i => decide (i.toNat ≤ 63)
  | .movi _ _ _ => true
  | .movhi _ _ _ _ => true
  | .cmp _ _ _ _ c => decide (c.toNat ≤ 7)
  | .cmpi _ _ _ c _ => decide (c.toNat ≤ 7)
  | .qand _ _ _ _ => true
  | .qor _ _ _ _ => true
  | .qnot _ _ _ => true
  | .ldx _ _ _ pol so sz _ => decide (pol.toNat ≤ 2) && decide (so.toNat ≤ 5) && decide (sz.toNat ≤ 6)
  | .stx _ _ _ pol so sz _ => decide (pol.toNat ≤ 2) && (so == 0#4 || (decide (6 ≤ so.toNat) && decide (so.toNat ≤ 10))) && decide (sz.toNat ≤ 3)
  | .stxTag _ _ _ so _ => (so == 0#4 || (decide (6 ≤ so.toNat) && decide (so.toNat ≤ 10)))
  | .ldxp _ _ _ pol so sz _ => decide (pol.toNat ≤ 2) && decide (so.toNat ≤ 5) && decide (sz.toNat ≤ 6)
  | .amo _ d _ _ sz op => (sz == 2#3 || sz == 3#3) && decide (op.toNat ≤ 10) && (op != 9#4 || d.toNat % 2 == 0) && (op != 10#4 || sz == 2#3)
  | .cinv _ _ _ _ => true
  | .cwb _ _ _ _ => true
  | .pin _ _ _ => true
  | .unpin _ _ _ => true
  | .mfs _ _ i => sysAssigned i.toNat
  | .mts _ _ i => sysAssigned i.toNat
  | .rdplan _ _ _ => true
  | .trap _ _ => true
  | .brk _ _ => true
  | .garr _ _ _ _ => true
  | .gwait _ _ _ _ => true
  | .gsync _ _ _ _ => true
  | .launch _ _ _ => true
  | .spawn _ => true
  | .cpy _ _ _ _ p c st => p == 0#1 || c == 1#1 || st == 1#1
  | .cpyc _ _ _ _ _ last c imm => last == 1#1 || (imm == 0#32 && c == 0#2)
  | .cpywait _ _ _ => true
  | .cpywaitAll _ _ => true
  | .cpywaitChain _ _ => true
  | .ctreadyArm _ _ _ => true
  | .ctreadyFire _ _ => true
  | .ctreadyGo _ _ _ => true
  | .ctwait _ _ _ => true
  | .ctwaitTest _ _ _ => true
  | .boostRel _ _ => true
  | .boostMid _ _ => true
  | .boostMax _ _ => true
  | .freezeMark _ _ => true
  | .freeze _ _ _ _ => true
  | .freezeDrop _ _ => true
  | .freezeCont _ _ => true
  | .thaw _ _ _ _ => true
  | .resume _ _ => true
  | .resumeTerm _ _ => true
  | .yAdd _ _ _ _ => true
  | .ySub _ _ _ _ => true
  | .yAnd _ _ _ _ => true
  | .yOr _ _ _ _ => true
  | .yXor _ _ _ _ => true
  | .yShl _ _ _ _ => true
  | .yShr _ _ _ _ => true
  | .ySra _ _ _ _ => true
  | .yMin _ _ _ _ => true
  | .yMax _ _ _ _ => true
  | .yAddi _ _ _ _ => true
  | .yMovi _ _ _ => true
  | .yCmp _ _ _ _ _ => true
  | .yMfs _ _ i => sysAll i.toNat
  | .sbind _ b _ epi bk _ => (q == .s || epi == 0#1) && (bk == 1#1 || b == 0#6)
  | .sset _ _ _ f _ => decide (f.toNat ≤ 12)
  | .lds _ _ n _ => decide (n.toNat ≤ 3)
  | .ldso _ _ n _ _ => decide (n.toNat ≤ 3)
  | .ldg _ _ n _ => decide (n.toNat ≤ 3)
  | .ldz _ _ _ _ _ => true
  | .ldb _ _ _ _ _ => true
  | .pref _ _ _ => true
  | .bdecl _ _ _ _ _ _ => true
  | .bwait _ _ _ => true
  | .bstateRead _ _ _ => true
  | .bstatePdone _ _ => true
  | .bstateCdone _ _ => true
  | .bstateFree _ _ => true
  | .ldtf _ => true
  | .sts _ _ n _ => decide (n.toNat ≤ 3)
  | .qst _ _ n _ _ => decide (n.toNat ≤ 3)
  | .stb _ _ _ _ _ => true
  | .shopen _ _ _ => true
  | .publish _ _ _ c => decide (c.toNat ≤ 4)
  | .atomv _ _ _ n f => decide (n.toNat ≤ 3) && (decide (f.toNat ≤ 8) || f == 10#5)
  | .amos _ _ _ b z _ op => decide (op.toNat ≤ 10) && (op != 10#4 || z == 1#1) && (op == 9#4 || b == 0#4)
  | .bdrain _ _ => true
  | .vadd _ _ a b _ _ => decide (a.toNat ≤ 25) && decide (b.toNat ≤ 25)
  | .vsub _ _ a b _ _ => decide (a.toNat ≤ 25) && decide (b.toNat ≤ 25)
  | .vmul _ _ a b _ _ => decide (a.toNat ≤ 25) && decide (b.toNat ≤ 25)
  | .vfma _ _ a b _ _ => decide (a.toNat ≤ 25) && decide (b.toNat ≤ 25)
  | .vfms _ _ a b _ _ => decide (a.toNat ≤ 25) && decide (b.toNat ≤ 25)
  | .vmin _ _ a b _ _ => decide (a.toNat ≤ 25) && decide (b.toNat ≤ 25)
  | .vmax _ _ a b _ _ => decide (a.toNat ≤ 25) && decide (b.toNat ≤ 25)
  | .vabs _ _ a _ _ => decide (a.toNat ≤ 25)
  | .vneg _ _ a _ _ => decide (a.toNat ≤ 25)
  | .vand _ _ a b _ y => decide (a.toNat ≤ 25) && decide (b.toNat ≤ 25) && y == 3#2
  | .vor _ _ a b _ y => decide (a.toNat ≤ 25) && decide (b.toNat ≤ 25) && y == 3#2
  | .vxor _ _ a b _ y => decide (a.toNat ≤ 25) && decide (b.toNat ≤ 25) && y == 3#2
  | .vnot _ _ a _ y => decide (a.toNat ≤ 25) && y == 3#2
  | .vshl _ _ a b _ y => decide (a.toNat ≤ 25) && decide (b.toNat ≤ 25) && y == 3#2
  | .vshr _ _ a b _ y => decide (a.toNat ≤ 25) && decide (b.toNat ≤ 25) && y == 3#2
  | .vsra _ _ a b _ y => decide (a.toNat ≤ 25) && decide (b.toNat ≤ 25) && y == 3#2
  | .vmad _ _ a b _ y => decide (a.toNat ≤ 25) && decide (b.toNat ≤ 25) && y != 0#2
  | .vcmp _ c a b _ y => decide (a.toNat ≤ 25) && decide (b.toNat ≤ 25) && decide (c.toNat ≤ 7) && (decide (c.toNat ≤ 5) || y == 3#2)
  | .vsel _ _ a b _ _ => decide (a.toNat ≤ 25) && decide (b.toNat ≤ 25)
  | .vmov _ _ a _ _ => decide (a.toNat ≤ 25)
  | .vmovi _ _ _ _ _ => true
  | .vcvt _ _ a c _ => decide (a.toNat ≤ 25) && decide (c.toNat ≤ 14)
  | .vrotr _ _ a _ _ _ => decide (a.toNat ≤ 25)
  | .vrotc _ _ a _ _ _ => decide (a.toNat ≤ 25)
  | .vbcr _ _ a _ _ _ => decide (a.toNat ≤ 25)
  | .vbcc _ _ a _ _ _ => decide (a.toNat ≤ 25)
  | .vredr _ _ a o _ _ => decide (a.toNat ≤ 25) && decide (o.toNat ≤ 2)
  | .vredc _ _ a o _ _ => decide (a.toNat ≤ 25) && decide (o.toNat ≤ 2)
  | .vscanr _ _ a o _ _ => decide (a.toNat ≤ 25) && decide (o.toNat ≤ 2)
  | .vscanc _ _ a o _ _ => decide (a.toNat ≤ 25) && decide (o.toNat ≤ 2)
  | .vexp2 _ _ a _ y => decide (a.toNat ≤ 25) && y != 3#2
  | .vlog2 _ _ a _ y => decide (a.toNat ≤ 25) && y != 3#2
  | .vrcp _ _ a _ y => decide (a.toNat ≤ 25) && y != 3#2
  | .vrsq _ _ a _ y => decide (a.toNat ≤ 25) && y != 3#2
  | .vtanh _ _ a _ y => decide (a.toNat ≤ 25) && y != 3#2
  | .pand _ _ _ _ => true
  | .por _ _ _ _ => true
  | .pxor _ _ _ _ => true
  | .pnot _ _ _ => true
  | .pmov _ _ _ => true
  | .pany _ _ _ _ => true
  | .pall _ _ _ _ => true
  | .pcnt _ _ _ _ => true
  | .twr _ _ _ _ _ => true
  | .trr _ _ _ _ _ => true
  | .trc _ _ _ _ _ => true
  | .tclr _ _ => true
  | .aadd _ _ _ _ => true
  | .amov _ _ _ => true
  | .apost _ _ _ _ => true
  | .amodset _ _ _ => true
  | .aidx _ _ _ _ => true
  | .aaddi _ _ _ _ => true
  | .qpush _ n a _ => decide (a.toNat ≤ 25) && decide (n.toNat ≤ 4)
  | .aMfs _ _ i => sysAll i.toNat
  | .win _ _ _ _ _ _ _ _ _ _ => true
  | .wcfg _ n _ => decide (n.toNat ≤ 8)
  | .wcfgRd _ n _ => decide (n.toNat ≤ 8)
  | .waccRd _ _ _ => true
  | .waccWr _ _ a => decide (a.toNat ≤ 25)
  | .waccClr _ _ => true
  | .waccEpi _ _ _ => true
  | .wstat _ _ _ _ => true
  | .lvtset _ t n a => decide (a.toNat ≤ 25) && (t == 0#1 || decide (n.toNat ≤ 3))
  | .bcast _ _ _ _ _ _ _ => true
  | .planb _ _ => true
  | .plane _ => true
  | .fibexRd _ _ => true
  | .fibexSet _ _ => true
  | .ldxpReply _ => true
  | .decoderChunkDone _ => true
  | .shadowCopyOnFirstWrite => true
  | .windowStaging _ _ => true
  | .windowPass _ _ => true
  | .windowRescale _ _ => true
  | .windowAccumulate _ _ => true
  | .epilogueTile _ => true
  | .epilogueOutput _ => true
  | .epilogueTimeout _ => true
  | .bcastSideband _ => true
  | .bcastLight _ => true
  | .planPublish => true
  | .planClose => true
  | .planOverrun => true
  | .planAbort => true
  | .fibreLightLoss _ => true
  | .copyCommandStart _ _ => true
  | .copyCommandFinish _ _ => true
  | .copyBoundOverrun _ _ => true
  | .tileFlagWrite _ => true
  | .collectiveComplete _ _ _ => true
  | .collectiveBoundOverrun _ => true
  | .collectivePeerFailed _ _ _ => true
  | .remoteRequest _ => true
  | .remoteReply _ => true
  | .linkLaneFailure _ _ => true
  | .nodeDispatch => true
  | .nodeComplete _ => true
  | .nodeLate => true
  | .preemption _ _ => true
  | .bankSwap _ _ => true
  | .spill _ => true
  | .contextRestore _ _ _ _ => true
  | .contextYield _ => true
  | .pageMigration _ _ _ => true
  | .pageUnmap _ _ => true
  | .l2LeaseExpiry _ _ => true
  | .watchHitByOtherAgent => true
  | .faultFrameWrite _ => true
  | .frameRouting _ _ => true
  | .parityReplay _ _ => true
  | .watchdogExpiry _ _ => true
  | .deviceFatalError _ => true
  | .urgentPreemption _ => true
  | .calibrationRun _ _ => true
  | .calibrationStale _ _ _ => true
  | .spareLineOrColumn _ => true
  | .combLaserSwitch _ => true
  | .spareCoreMove _ _ => true
  | .coreWithdrawal _ _ => true
  | .intervalBoundary => true
  | .thermalCapChange _ _ => true
  | .hostSubmission => true
  | .submissionQueueBaseWrite _ => true
  | .ident _ => true
  | .mgmtFreeze _ => true
  | .mgmtThaw _ => true
  | .attest _ => true
  | .urgent _ => true
  | .mboxOtherOp _ => true
  | .registerWindowWrite _ _ => true
  | .hostMemoryAccess _ => true
  | .resetRelease => true
  | .bootStep _ => true
  | .illegalInstruction => true
  | .debuggerStop _ _ => true
  | .spareHbmPseudoChannel _ => true
  | .fibreLightReturn _ => true
  | .powerLoss => true

/-- Slot class of a C instruction (02 R50, R53, R57, R58). -/
def slotClass (i : Instr) : SlotClass :=
  match i with
  | .nop _ => .none
  | .halt _ => .func
  | .fence _ _ _ => .func
  | .tkpost _ _ _ => .func
  | .tkwait _ _ _ => .func
  | .pbt _ _ _ _ _ => .func
  | .brx _ _ => .func
  | .brxd _ _ _ => .func
  | .add _ _ _ _ => .none
  | .sub _ _ _ _ => .none
  | .and _ _ _ _ => .none
  | .or _ _ _ _ => .none
  | .xor _ _ _ _ => .none
  | .shl _ _ _ _ => .none
  | .shr _ _ _ _ => .none
  | .sra _ _ _ _ => .none
  | .mul _ _ _ _ => .none
  | .mulh _ _ _ _ => .none
  | .mulhu _ _ _ _ => .none
  | .div _ _ _ _ => .none
  | .divu _ _ _ _ => .none
  | .rem _ _ _ _ => .none
  | .min _ _ _ _ => .none
  | .max _ _ _ _ => .none
  | .addi _ _ _ _ => .none
  | .andi _ _ _ _ => .none
  | .ori _ _ _ _ => .none
  | .xori _ _ _ _ => .none
  | .shli _ _ _ _ => .none
  | .shri _ _ _ _ => .none
  | .srai _ _ _ _ => .none
  | .movi _ _ _ => .none
  | .movhi _ _ _ _ => .none
  | .cmp _ _ _ _ _ => .none
  | .cmpi _ _ _ _ _ => .none
  | .qand _ _ _ _ => .none
  | .qor _ _ _ _ => .none
  | .qnot _ _ _ => .none
  | .ldx _ _ _ _ _ _ _ => .none
  | .stx _ _ _ _ _ _ _ => .none
  | .stxTag _ _ _ _ _ => .none
  | .ldxp _ _ _ _ _ _ _ => .none
  | .amo _ _ _ _ _ _ => .none
  | .cinv _ _ _ _ => .none
  | .cwb _ _ _ _ => .none
  | .pin _ _ _ => .none
  | .unpin _ _ _ => .none
  | .mfs _ _ _ => .none
  | .mts _ _ _ => .none
  | .rdplan _ _ _ => .none
  | .trap _ _ => .none
  | .brk _ _ => .none
  | .garr _ _ _ _ => .none
  | .gwait _ _ _ _ => .none
  | .gsync _ _ _ _ => .none
  | .launch _ _ _ => .none
  | .spawn _ => .none
  | .cpy _ _ _ _ _ _ _ => .none
  | .cpyc _ _ _ _ _ _ _ _ => .none
  | .cpywait _ _ _ => .none
  | .cpywaitAll _ _ => .none
  | .cpywaitChain _ _ => .none
  | .ctreadyArm _ _ _ => .none
  | .ctreadyFire _ _ => .none
  | .ctreadyGo _ _ _ => .none
  | .ctwait _ _ _ => .none
  | .ctwaitTest _ _ _ => .none
  | .boostRel _ _ => .none
  | .boostMid _ _ => .none
  | .boostMax _ _ => .none
  | .freezeMark _ _ => .none
  | .freeze _ _ _ _ => .none
  | .freezeDrop _ _ => .none
  | .freezeCont _ _ => .none
  | .thaw _ _ _ _ => .none
  | .resume _ _ => .none
  | .resumeTerm _ _ => .none
  | .yAdd _ _ _ _ => .none
  | .ySub _ _ _ _ => .none
  | .yAnd _ _ _ _ => .none
  | .yOr _ _ _ _ => .none
  | .yXor _ _ _ _ => .none
  | .yShl _ _ _ _ => .none
  | .yShr _ _ _ _ => .none
  | .ySra _ _ _ _ => .none
  | .yMin _ _ _ _ => .none
  | .yMax _ _ _ _ => .none
  | .yAddi _ _ _ _ => .none
  | .yMovi _ _ _ => .none
  | .yCmp _ _ _ _ _ => .none
  | .yMfs _ _ _ => .none
  | .sbind _ _ _ _ _ _ => .none
  | .sset _ _ _ _ _ => .none
  | .lds _ _ _ _ => .none
  | .ldso _ _ _ _ _ => .none
  | .ldg _ _ _ _ => .none
  | .ldz _ _ _ _ _ => .none
  | .ldb _ _ _ _ _ => .none
  | .pref _ _ _ => .none
  | .bdecl _ _ _ _ _ _ => .none
  | .bwait _ _ _ => .none
  | .bstateRead _ _ _ => .none
  | .bstatePdone _ _ => .none
  | .bstateCdone _ _ => .none
  | .bstateFree _ _ => .none
  | .ldtf _ => .none
  | .sts _ _ _ _ => .none
  | .qst _ _ _ _ _ => .none
  | .stb _ _ _ _ _ => .none
  | .shopen _ _ _ => .none
  | .publish _ _ _ _ => .none
  | .atomv _ _ _ _ _ => .none
  | .amos _ _ _ _ _ _ _ => .none
  | .bdrain _ _ => .none
  | .vadd _ _ _ _ _ _ => .vec
  | .vsub _ _ _ _ _ _ => .vec
  | .vmul _ _ _ _ _ _ => .vec
  | .vfma _ _ _ _ _ _ => .vec
  | .vfms _ _ _ _ _ _ => .vec
  | .vmin _ _ _ _ _ _ => .vec
  | .vmax _ _ _ _ _ _ => .vec
  | .vabs _ _ _ _ _ => .vec
  | .vneg _ _ _ _ _ => .vec
  | .vand _ _ _ _ _ _ => .vec
  | .vor _ _ _ _ _ _ => .vec
  | .vxor _ _ _ _ _ _ => .vec
  | .vnot _ _ _ _ _ => .vec
  | .vshl _ _ _ _ _ _ => .vec
  | .vshr _ _ _ _ _ _ => .vec
  | .vsra _ _ _ _ _ _ => .vec
  | .vmad _ _ _ _ _ _ => .vec
  | .vcmp _ _ _ _ _ _ => .vec
  | .vsel _ _ _ _ _ _ => .vec
  | .vmov _ _ _ _ _ => .vec
  | .vmovi _ _ _ _ _ => .vec
  | .vcvt _ _ _ _ _ => .vec
  | .vrotr _ _ _ _ _ _ => .vec
  | .vrotc _ _ _ _ _ _ => .vec
  | .vbcr _ _ _ _ _ _ => .vec
  | .vbcc _ _ _ _ _ _ => .vec
  | .vredr _ _ _ _ _ _ => .vec
  | .vredc _ _ _ _ _ _ => .vec
  | .vscanr _ _ _ _ _ _ => .vec
  | .vscanc _ _ _ _ _ _ => .vec
  | .vexp2 _ _ _ _ _ => .func
  | .vlog2 _ _ _ _ _ => .func
  | .vrcp _ _ _ _ _ => .func
  | .vrsq _ _ _ _ _ => .func
  | .vtanh _ _ _ _ _ => .func
  | .pand _ _ _ _ => .addr
  | .por _ _ _ _ => .addr
  | .pxor _ _ _ _ => .addr
  | .pnot _ _ _ => .addr
  | .pmov _ _ _ => .addr
  | .pany _ _ _ _ => .addr
  | .pall _ _ _ _ => .addr
  | .pcnt _ _ _ _ => .addr
  | .twr _ _ _ _ _ => .func
  | .trr _ _ _ _ _ => .func
  | .trc _ _ _ _ _ => .func
  | .tclr _ _ => .func
  | .aadd _ _ _ _ => .addr
  | .amov _ _ _ => .addr
  | .apost _ _ _ _ => .addr
  | .amodset _ _ _ => .addr
  | .aidx _ _ _ _ => .addr
  | .aaddi _ _ _ _ => .addr
  | .qpush _ _ _ _ => .opt
  | .aMfs _ _ _ => .addr
  | .win _ _ _ _ _ _ _ _ _ _ => .opt
  | .wcfg _ _ _ => .opt
  | .wcfgRd _ _ _ => .opt
  | .waccRd _ _ _ => .opt
  | .waccWr _ _ _ => .opt
  | .waccClr _ _ => .opt
  | .waccEpi _ _ _ => .opt
  | .wstat _ _ _ _ => .opt
  | .lvtset _ _ _ _ => .opt
  | .bcast _ _ _ _ _ _ _ => .opt
  | .planb _ _ => .opt
  | .plane _ => .opt
  | .fibexRd _ _ => .opt
  | .fibexSet _ _ => .opt
  | .ldxpReply _ => .none
  | .decoderChunkDone _ => .none
  | .shadowCopyOnFirstWrite => .none
  | .windowStaging _ _ => .none
  | .windowPass _ _ => .none
  | .windowRescale _ _ => .none
  | .windowAccumulate _ _ => .none
  | .epilogueTile _ => .none
  | .epilogueOutput _ => .none
  | .epilogueTimeout _ => .none
  | .bcastSideband _ => .none
  | .bcastLight _ => .none
  | .planPublish => .none
  | .planClose => .none
  | .planOverrun => .none
  | .planAbort => .none
  | .fibreLightLoss _ => .none
  | .copyCommandStart _ _ => .none
  | .copyCommandFinish _ _ => .none
  | .copyBoundOverrun _ _ => .none
  | .tileFlagWrite _ => .none
  | .collectiveComplete _ _ _ => .none
  | .collectiveBoundOverrun _ => .none
  | .collectivePeerFailed _ _ _ => .none
  | .remoteRequest _ => .none
  | .remoteReply _ => .none
  | .linkLaneFailure _ _ => .none
  | .nodeDispatch => .none
  | .nodeComplete _ => .none
  | .nodeLate => .none
  | .preemption _ _ => .none
  | .bankSwap _ _ => .none
  | .spill _ => .none
  | .contextRestore _ _ _ _ => .none
  | .contextYield _ => .none
  | .pageMigration _ _ _ => .none
  | .pageUnmap _ _ => .none
  | .l2LeaseExpiry _ _ => .none
  | .watchHitByOtherAgent => .none
  | .faultFrameWrite _ => .none
  | .frameRouting _ _ => .none
  | .parityReplay _ _ => .none
  | .watchdogExpiry _ _ => .none
  | .deviceFatalError _ => .none
  | .urgentPreemption _ => .none
  | .calibrationRun _ _ => .none
  | .calibrationStale _ _ _ => .none
  | .spareLineOrColumn _ => .none
  | .combLaserSwitch _ => .none
  | .spareCoreMove _ _ => .none
  | .coreWithdrawal _ _ => .none
  | .intervalBoundary => .none
  | .thermalCapChange _ _ => .none
  | .hostSubmission => .none
  | .submissionQueueBaseWrite _ => .none
  | .ident _ => .none
  | .mgmtFreeze _ => .none
  | .mgmtThaw _ => .none
  | .attest _ => .none
  | .urgent _ => .none
  | .mboxOtherOp _ => .none
  | .registerWindowWrite _ _ => .none
  | .hostMemoryAccess _ => .none
  | .resetRelease => .none
  | .bootStep _ => .none
  | .illegalInstruction => .none
  | .debuggerStop _ _ => .none
  | .spareHbmPseudoChannel _ => .none
  | .fibreLightReturn _ => .none
  | .powerLoss => .none

/-- The stop bit is a field of C words only (02 R44). -/
def stopOk (q : SeqSel) (i : Instr) : Bool := q == .c || q == .b || i.stopBit == 0

/-- The whole encoding check of row 4 of 02 R42 on a word whose reserved fields are zero. -/
def wellFormed (q : SeqSel) (i : Instr) : Bool :=
  i.maps.contains q && i.tokenField != 7 && i.stopOk q && i.fieldsOk q

end Instr
end Sys2Proof
end

