-- ==== Sys2Proof/Decode.lean ====
section
/-! DEFINITION. Decoding an instruction word of a sequencer, and encoding one (02 R44 to R58).

A word is a number `w`: its first word in bits 31 to 0, the second word of a long form in bits 63 to 32. -/
namespace Sys2Proof

/-- Why a word is no instruction of a sequencer; each is the illegal-instruction cause of that sequencer (02 R59). -/
inductive DecodeError where
  /-- The major opcode is in no row of the sequencer's map (02 R53 to R58). -/
  | unassignedOpcode
  /-- A reserved field is not zero, or a function value is not assigned (00 R7, 02 R49). -/
  | reservedOrUnassigned
  /-- A field holds a value that the entry of the instruction does not assign (02 R48, R49; 01 R21). -/
  | fieldValue
  /-- Fewer bytes than the instruction has. -/
  | truncated
  deriving DecidableEq, Repr

/-- The `k` bits of `w` from bit `lo` up. -/
def fld (w lo k : Nat) : BitVec k := BitVec.ofNat k (w / 2 ^ lo)

/-- The `k` bits of `w` from bit `lo` up are `v`. -/
def fits (w lo k v : Nat) : Bool := w / 2 ^ lo % 2 ^ k == v

/-- The value `v` at bit `lo`. -/
def put (v lo : Nat) : Nat := v * 2 ^ lo

/-- The head of a word. -/
def Hd.of (w : Nat) : Hd := ⟨fld w 4 3, fld w 3 1, fld w 0 3⟩
/-- The head of a word of L, S or K. -/
def Hq.of (w : Nat) : Hq := ⟨fld w 4 3, fld w 0 3⟩
/-- The tail of a V, P or AI word. -/
def Tl.of (w : Nat) : Tl := ⟨fld w 3 1, fld w 0 3⟩
/-- Bits [6:0] of a word. -/
def Hd.bits (h : Hd) : Nat := h.qp.toNat * 16 + h.stop.toNat * 8 + h.tk.toNat
/-- Bits [6:0] of a word of L, S or K. -/
def Hq.bits (h : Hq) : Nat := h.qp.toNat * 16 + h.tk.toNat
/-- Bits [3:0] of a V, P or AI word. -/
def Tl.bits (h : Tl) : Nat := h.stop.toNat * 8 + h.tk.toNat

/-- Opcode 0x01 of K: NOP. -/
def decK01 (w : Nat) : Except DecodeError Instr :=
  if fits w 7 19 0 && fits w 3 1 0 then .ok (.nop (Hd.of w)) else
  .error .reservedOrUnassigned

/-- Opcode 0x02 of K: HALT. -/
def decK02 (w : Nat) : Except DecodeError Instr :=
  if fits w 7 19 0 && fits w 3 1 0 then .ok (.halt (Hd.of w)) else
  .error .reservedOrUnassigned

/-- Opcode 0x03 of K: FENCE. -/
def decK03 (w : Nat) : Except DecodeError Instr :=
  if fits w 7 14 0 && fits w 3 1 0 then .ok (.fence (Hd.of w) (fld w 23 3) (fld w 21 2)) else
  .error .reservedOrUnassigned

/-- Opcode 0x04 of K: TKPOST. -/
def decK04 (w : Nat) : Except DecodeError Instr :=
  if fits w 7 13 0 && fits w 3 1 0 then .ok (.tkpost (Hd.of w) (fld w 24 2) (fld w 20 4)) else
  .error .reservedOrUnassigned

/-- Opcode 0x05 of K: TKWAIT. -/
def decK05 (w : Nat) : Except DecodeError Instr :=
  if fits w 7 13 0 && fits w 3 1 0 then .ok (.tkwait (Hd.of w) (fld w 24 2) (fld w 20 4)) else
  .error .reservedOrUnassigned

/-- Opcode 0x06 of K: PBT. -/
def decK06 (w : Nat) : Except DecodeError Instr :=
  if fits w 7 11 0 && fits w 3 1 0 then .ok (.pbt (Hd.of w) (fld w 24 2) (fld w 23 1) (fld w 18 5) (fld w 32 32)) else
  .error .reservedOrUnassigned

/-- Opcode 0x07 of K: BRX. -/
def decK07 (w : Nat) : Except DecodeError Instr :=
  if fits w 7 17 0 && fits w 3 1 0 then .ok (.brx (Hd.of w) (fld w 24 2)) else
  .error .reservedOrUnassigned

/-- Opcode 0x08 of K: BRXD. -/
def decK08 (w : Nat) : Except DecodeError Instr :=
  if fits w 23 1 0 && fits w 7 11 0 && fits w 3 1 0 then .ok (.brxd (Hd.of w) (fld w 24 2) (fld w 18 5)) else
  .error .reservedOrUnassigned

/-- Opcode 0x10 of K: ADD, SUB, AND, OR, XOR, SHL, SHR, SRA, MUL, MULH, MULHU, DIV, DIVU, REM, MIN, MAX. -/
def decK10 (w : Nat) : Except DecodeError Instr :=
  if fits w 7 4 0 && fits w 3 1 0 then .ok (.add (Hq.of w) (fld w 21 5) (fld w 16 5) (fld w 11 5)) else
  if fits w 7 4 1 && fits w 3 1 0 then .ok (.sub (Hq.of w) (fld w 21 5) (fld w 16 5) (fld w 11 5)) else
  if fits w 7 4 2 && fits w 3 1 0 then .ok (.and (Hq.of w) (fld w 21 5) (fld w 16 5) (fld w 11 5)) else
  if fits w 7 4 3 && fits w 3 1 0 then .ok (.or (Hq.of w) (fld w 21 5) (fld w 16 5) (fld w 11 5)) else
  if fits w 7 4 4 && fits w 3 1 0 then .ok (.xor (Hq.of w) (fld w 21 5) (fld w 16 5) (fld w 11 5)) else
  if fits w 7 4 5 && fits w 3 1 0 then .ok (.shl (Hq.of w) (fld w 21 5) (fld w 16 5) (fld w 11 5)) else
  if fits w 7 4 6 && fits w 3 1 0 then .ok (.shr (Hq.of w) (fld w 21 5) (fld w 16 5) (fld w 11 5)) else
  if fits w 7 4 7 && fits w 3 1 0 then .ok (.sra (Hq.of w) (fld w 21 5) (fld w 16 5) (fld w 11 5)) else
  if fits w 7 4 8 && fits w 3 1 0 then .ok (.mul (Hq.of w) (fld w 21 5) (fld w 16 5) (fld w 11 5)) else
  if fits w 7 4 9 && fits w 3 1 0 then .ok (.mulh (Hq.of w) (fld w 21 5) (fld w 16 5) (fld w 11 5)) else
  if fits w 7 4 10 && fits w 3 1 0 then .ok (.mulhu (Hq.of w) (fld w 21 5) (fld w 16 5) (fld w 11 5)) else
  if fits w 7 4 11 && fits w 3 1 0 then .ok (.div (Hq.of w) (fld w 21 5) (fld w 16 5) (fld w 11 5)) else
  if fits w 7 4 12 && fits w 3 1 0 then .ok (.divu (Hq.of w) (fld w 21 5) (fld w 16 5) (fld w 11 5)) else
  if fits w 7 4 13 && fits w 3 1 0 then .ok (.rem (Hq.of w) (fld w 21 5) (fld w 16 5) (fld w 11 5)) else
  if fits w 7 4 14 && fits w 3 1 0 then .ok (.min (Hq.of w) (fld w 21 5) (fld w 16 5) (fld w 11 5)) else
  if fits w 7 4 15 && fits w 3 1 0 then .ok (.max (Hq.of w) (fld w 21 5) (fld w 16 5) (fld w 11 5)) else
  .error .reservedOrUnassigned

/-- Opcode 0x11 of K: ADDI. -/
def decK11 (w : Nat) : Except DecodeError Instr :=
  if fits w 3 1 0 then .ok (.addi (Hq.of w) (fld w 21 5) (fld w 16 5) (fld w 7 9)) else
  .error .reservedOrUnassigned

/-- Opcode 0x12 of K: ANDI. -/
def decK12 (w : Nat) : Except DecodeError Instr :=
  if fits w 3 1 0 then .ok (.andi (Hq.of w) (fld w 21 5) (fld w 16 5) (fld w 7 9)) else
  .error .reservedOrUnassigned

/-- Opcode 0x13 of K: ORI. -/
def decK13 (w : Nat) : Except DecodeError Instr :=
  if fits w 3 1 0 then .ok (.ori (Hq.of w) (fld w 21 5) (fld w 16 5) (fld w 7 9)) else
  .error .reservedOrUnassigned

/-- Opcode 0x14 of K: XORI. -/
def decK14 (w : Nat) : Except DecodeError Instr :=
  if fits w 3 1 0 then .ok (.xori (Hq.of w) (fld w 21 5) (fld w 16 5) (fld w 7 9)) else
  .error .reservedOrUnassigned

/-- Opcode 0x15 of K: SHLI. -/
def decK15 (w : Nat) : Except DecodeError Instr :=
  if fits w 3 1 0 then .ok (.shli (Hq.of w) (fld w 21 5) (fld w 16 5) (fld w 7 9)) else
  .error .reservedOrUnassigned

/-- Opcode 0x16 of K: SHRI. -/
def decK16 (w : Nat) : Except DecodeError Instr :=
  if fits w 3 1 0 then .ok (.shri (Hq.of w) (fld w 21 5) (fld w 16 5) (fld w 7 9)) else
  .error .reservedOrUnassigned

/-- Opcode 0x17 of K: SRAI. -/
def decK17 (w : Nat) : Except DecodeError Instr :=
  if fits w 3 1 0 then .ok (.srai (Hq.of w) (fld w 21 5) (fld w 16 5) (fld w 7 9)) else
  .error .reservedOrUnassigned

/-- Opcode 0x18 of K: MOVI. -/
def decK18 (w : Nat) : Except DecodeError Instr :=
  if fits w 16 5 0 && fits w 7 9 0 && fits w 3 1 0 then .ok (.movi (Hq.of w) (fld w 21 5) (fld w 32 32)) else
  .error .reservedOrUnassigned

/-- Opcode 0x19 of K: MOVHI. -/
def decK19 (w : Nat) : Except DecodeError Instr :=
  if fits w 7 9 0 && fits w 3 1 0 then .ok (.movhi (Hq.of w) (fld w 21 5) (fld w 16 5) (fld w 32 32)) else
  .error .reservedOrUnassigned

/-- Opcode 0x1A of K: CMP. -/
def decK1a (w : Nat) : Except DecodeError Instr :=
  if fits w 24 2 0 && fits w 3 1 0 then .ok (.cmp (Hq.of w) (fld w 21 3) (fld w 16 5) (fld w 11 5) (fld w 7 4)) else
  .error .reservedOrUnassigned

/-- Opcode 0x1B of K: CMPI. -/
def decK1b (w : Nat) : Except DecodeError Instr :=
  if fits w 24 2 0 && fits w 3 1 0 then .ok (.cmpi (Hq.of w) (fld w 21 3) (fld w 16 5) (fld w 7 9) (fld w 32 32)) else
  .error .reservedOrUnassigned

/-- Opcode 0x1C of K: QNOT, QAND, QOR. -/
def decK1c (w : Nat) : Except DecodeError Instr :=
  if fits w 24 2 0 && fits w 19 2 0 && fits w 7 9 2 && fits w 3 1 0 then .ok (.qnot (Hq.of w) (fld w 21 3) (fld w 16 3)) else
  if fits w 24 2 0 && fits w 19 2 0 && fits w 14 2 0 && fits w 7 4 0 && fits w 3 1 0 then .ok (.qand (Hq.of w) (fld w 21 3) (fld w 16 3) (fld w 11 3)) else
  if fits w 24 2 0 && fits w 19 2 0 && fits w 14 2 0 && fits w 7 4 1 && fits w 3 1 0 then .ok (.qor (Hq.of w) (fld w 21 3) (fld w 16 3) (fld w 11 3)) else
  .error .reservedOrUnassigned

/-- Opcode 0x20 of K: LDX. -/
def decK20 (w : Nat) : Except DecodeError Instr :=
  if fits w 3 1 0 then .ok (.ldx (Hq.of w) (fld w 21 5) (fld w 16 5) (fld w 14 2) (fld w 10 4) (fld w 7 3) (fld w 32 32)) else
  .error .reservedOrUnassigned

/-- Opcode 0x21 of K: STX_TAG, STX. -/
def decK21 (w : Nat) : Except DecodeError Instr :=
  if fits w 14 2 0 && fits w 7 3 4 && fits w 3 1 0 then .ok (.stxTag (Hq.of w) (fld w 21 5) (fld w 16 5) (fld w 10 4) (fld w 32 32)) else
  if fits w 3 1 0 then .ok (.stx (Hq.of w) (fld w 21 5) (fld w 16 5) (fld w 14 2) (fld w 10 4) (fld w 7 3) (fld w 32 32)) else
  .error .reservedOrUnassigned

/-- Opcode 0x22 of K: LDXP. -/
def decK22 (w : Nat) : Except DecodeError Instr :=
  if fits w 3 1 0 then .ok (.ldxp (Hq.of w) (fld w 21 5) (fld w 16 5) (fld w 14 2) (fld w 10 4) (fld w 7 3) (fld w 32 32)) else
  .error .reservedOrUnassigned

/-- Opcode 0x23 of K: AMO. -/
def decK23 (w : Nat) : Except DecodeError Instr :=
  if fits w 14 2 0 && fits w 36 28 0 && fits w 3 1 0 then .ok (.amo (Hq.of w) (fld w 21 5) (fld w 16 5) (fld w 10 4) (fld w 7 3) (fld w 32 4)) else
  .error .reservedOrUnassigned

/-- Opcode 0x24 of K: CINV. -/
def decK24 (w : Nat) : Except DecodeError Instr :=
  if fits w 21 5 0 && fits w 8 3 0 && fits w 3 1 0 then .ok (.cinv (Hq.of w) (fld w 16 5) (fld w 11 5) (fld w 7 1)) else
  .error .reservedOrUnassigned

/-- Opcode 0x25 of K: CWB. -/
def decK25 (w : Nat) : Except DecodeError Instr :=
  if fits w 21 5 0 && fits w 8 3 0 && fits w 3 1 0 then .ok (.cwb (Hq.of w) (fld w 16 5) (fld w 11 5) (fld w 7 1)) else
  .error .reservedOrUnassigned

/-- Opcode 0x26 of K: PIN. -/
def decK26 (w : Nat) : Except DecodeError Instr :=
  if fits w 21 5 0 && fits w 7 4 0 && fits w 3 1 0 then .ok (.pin (Hq.of w) (fld w 16 5) (fld w 11 5)) else
  .error .reservedOrUnassigned

/-- Opcode 0x27 of K: UNPIN. -/
def decK27 (w : Nat) : Except DecodeError Instr :=
  if fits w 21 5 0 && fits w 7 4 0 && fits w 3 1 0 then .ok (.unpin (Hq.of w) (fld w 16 5) (fld w 11 5)) else
  .error .reservedOrUnassigned

/-- Opcode 0x28 of K: MFS. -/
def decK28 (w : Nat) : Except DecodeError Instr :=
  if fits w 16 5 0 && fits w 3 1 0 then .ok (.mfs (Hq.of w) (fld w 21 5) (fld w 7 9)) else
  .error .reservedOrUnassigned

/-- Opcode 0x29 of K: MTS. -/
def decK29 (w : Nat) : Except DecodeError Instr :=
  if fits w 21 5 0 && fits w 3 1 0 then .ok (.mts (Hq.of w) (fld w 16 5) (fld w 7 9)) else
  .error .reservedOrUnassigned

/-- Opcode 0x2A of K: RDPLAN. -/
def decK2a (w : Nat) : Except DecodeError Instr :=
  if fits w 8 13 0 && fits w 3 1 0 then .ok (.rdplan (Hq.of w) (fld w 21 5) (fld w 7 1)) else
  .error .reservedOrUnassigned

/-- Opcode 0x2B of K: TRAP. -/
def decK2b (w : Nat) : Except DecodeError Instr :=
  if fits w 16 10 0 && fits w 3 1 0 then .ok (.trap (Hq.of w) (fld w 7 9)) else
  .error .reservedOrUnassigned

/-- Opcode 0x2C of K: BRK. -/
def decK2c (w : Nat) : Except DecodeError Instr :=
  if fits w 16 10 0 && fits w 3 1 0 then .ok (.brk (Hq.of w) (fld w 7 9)) else
  .error .reservedOrUnassigned

/-- Opcode 0x30 of K: GARR. -/
def decK30 (w : Nat) : Except DecodeError Instr :=
  if fits w 16 5 0 && fits w 3 1 0 then .ok (.garr (Hq.of w) (fld w 21 5) (fld w 15 1) (fld w 7 8)) else
  .error .reservedOrUnassigned

/-- Opcode 0x31 of K: GWAIT. -/
def decK31 (w : Nat) : Except DecodeError Instr :=
  if fits w 21 5 0 && fits w 3 1 0 then .ok (.gwait (Hq.of w) (fld w 16 5) (fld w 15 1) (fld w 7 8)) else
  .error .reservedOrUnassigned

/-- Opcode 0x32 of K: GSYNC. -/
def decK32 (w : Nat) : Except DecodeError Instr :=
  if fits w 16 5 0 && fits w 3 1 0 then .ok (.gsync (Hq.of w) (fld w 21 5) (fld w 15 1) (fld w 7 8)) else
  .error .reservedOrUnassigned

/-- Opcode 0x34 of K: LAUNCH. -/
def decK34 (w : Nat) : Except DecodeError Instr :=
  if fits w 7 9 0 && fits w 3 1 0 then .ok (.launch (Hq.of w) (fld w 21 5) (fld w 16 5)) else
  .error .reservedOrUnassigned

/-- Opcode 0x35 of K: SPAWN. -/
def decK35 (w : Nat) : Except DecodeError Instr :=
  if fits w 7 19 0 && fits w 3 1 0 then .ok (.spawn (Hq.of w)) else
  .error .reservedOrUnassigned

/-- Opcode 0x36 of K: CPY. -/
def decK36 (w : Nat) : Except DecodeError Instr :=
  if fits w 10 1 0 && fits w 3 1 0 then .ok (.cpy (Hq.of w) (fld w 21 5) (fld w 16 5) (fld w 11 5) (fld w 9 1) (fld w 8 1) (fld w 7 1)) else
  .error .reservedOrUnassigned

/-- Opcode 0x37 of K: CPYC. -/
def decK37 (w : Nat) : Except DecodeError Instr :=
  if fits w 3 1 0 then .ok (.cpyc (Hq.of w) (fld w 21 5) (fld w 16 5) (fld w 11 5) (fld w 10 1) (fld w 9 1) (fld w 7 2) (fld w 32 32)) else
  .error .reservedOrUnassigned

/-- Opcode 0x38 of K: CPYWAIT_ALL, CPYWAIT_CHAIN, CPYWAIT. -/
def decK38 (w : Nat) : Except DecodeError Instr :=
  if fits w 7 14 1 && fits w 3 1 0 then .ok (.cpywaitAll (Hq.of w) (fld w 21 5)) else
  if fits w 7 14 2 && fits w 3 1 0 then .ok (.cpywaitChain (Hq.of w) (fld w 21 5)) else
  if fits w 7 9 0 && fits w 3 1 0 then .ok (.cpywait (Hq.of w) (fld w 21 5) (fld w 16 5)) else
  .error .reservedOrUnassigned

/-- Opcode 0x39 of K: CTREADY_FIRE, CTREADY_ARM, CTREADY_GO. -/
def decK39 (w : Nat) : Except DecodeError Instr :=
  if fits w 16 10 0 && fits w 7 4 1 && fits w 3 1 0 then .ok (.ctreadyFire (Hq.of w) (fld w 11 5)) else
  if fits w 21 5 0 && fits w 7 4 0 && fits w 3 1 0 then .ok (.ctreadyArm (Hq.of w) (fld w 16 5) (fld w 11 5)) else
  if fits w 21 5 0 && fits w 7 4 2 && fits w 3 1 0 then .ok (.ctreadyGo (Hq.of w) (fld w 16 5) (fld w 11 5)) else
  .error .reservedOrUnassigned

/-- Opcode 0x3A of K: CTWAIT, CTWAIT_TEST. -/
def decK3a (w : Nat) : Except DecodeError Instr :=
  if fits w 7 9 0 && fits w 3 1 0 then .ok (.ctwait (Hq.of w) (fld w 21 5) (fld w 16 5)) else
  if fits w 7 9 1 && fits w 3 1 0 then .ok (.ctwaitTest (Hq.of w) (fld w 21 5) (fld w 16 5)) else
  .error .reservedOrUnassigned

/-- Opcode 0x3B of K: BOOST_REL, BOOST_MID, BOOST_MAX. -/
def decK3b (w : Nat) : Except DecodeError Instr :=
  if fits w 7 14 0 && fits w 3 1 0 then .ok (.boostRel (Hq.of w) (fld w 21 5)) else
  if fits w 7 14 1 && fits w 3 1 0 then .ok (.boostMid (Hq.of w) (fld w 21 5)) else
  if fits w 7 14 2 && fits w 3 1 0 then .ok (.boostMax (Hq.of w) (fld w 21 5)) else
  .error .reservedOrUnassigned

/-- Opcode 0x3C of K: FREEZE_MARK, FREEZE_DROP, FREEZE_CONT, FREEZE. -/
def decK3c (w : Nat) : Except DecodeError Instr :=
  if fits w 21 5 0 && fits w 7 9 0 && fits w 3 1 0 then .ok (.freezeMark (Hq.of w) (fld w 16 5)) else
  if fits w 21 5 0 && fits w 7 9 2 && fits w 3 1 0 then .ok (.freezeDrop (Hq.of w) (fld w 16 5)) else
  if fits w 21 5 0 && fits w 7 9 3 && fits w 3 1 0 then .ok (.freezeCont (Hq.of w) (fld w 16 5)) else
  if fits w 7 4 1 && fits w 3 1 0 then .ok (.freeze (Hq.of w) (fld w 21 5) (fld w 16 5) (fld w 11 5)) else
  .error .reservedOrUnassigned

/-- Opcode 0x3D of K: THAW. -/
def decK3d (w : Nat) : Except DecodeError Instr :=
  if fits w 7 4 0 && fits w 3 1 0 then .ok (.thaw (Hq.of w) (fld w 21 5) (fld w 16 5) (fld w 11 5)) else
  .error .reservedOrUnassigned

/-- Opcode 0x3E of K: RESUME, RESUME_TERM. -/
def decK3e (w : Nat) : Except DecodeError Instr :=
  if fits w 21 5 0 && fits w 7 9 0 && fits w 3 1 0 then .ok (.resume (Hq.of w) (fld w 16 5)) else
  if fits w 21 5 0 && fits w 7 9 1 && fits w 3 1 0 then .ok (.resumeTerm (Hq.of w) (fld w 16 5)) else
  .error .reservedOrUnassigned

/-- Opcode 0x10 of L: Y_ADD, Y_SUB, Y_AND, Y_OR, Y_XOR, Y_SHL, Y_SHR, Y_SRA, Y_MIN, Y_MAX. -/
def decL10 (w : Nat) : Except DecodeError Instr :=
  if fits w 7 7 0 && fits w 3 1 0 then .ok (.yAdd (Hq.of w) (fld w 22 4) (fld w 18 4) (fld w 14 4)) else
  if fits w 7 7 1 && fits w 3 1 0 then .ok (.ySub (Hq.of w) (fld w 22 4) (fld w 18 4) (fld w 14 4)) else
  if fits w 7 7 2 && fits w 3 1 0 then .ok (.yAnd (Hq.of w) (fld w 22 4) (fld w 18 4) (fld w 14 4)) else
  if fits w 7 7 3 && fits w 3 1 0 then .ok (.yOr (Hq.of w) (fld w 22 4) (fld w 18 4) (fld w 14 4)) else
  if fits w 7 7 4 && fits w 3 1 0 then .ok (.yXor (Hq.of w) (fld w 22 4) (fld w 18 4) (fld w 14 4)) else
  if fits w 7 7 5 && fits w 3 1 0 then .ok (.yShl (Hq.of w) (fld w 22 4) (fld w 18 4) (fld w 14 4)) else
  if fits w 7 7 6 && fits w 3 1 0 then .ok (.yShr (Hq.of w) (fld w 22 4) (fld w 18 4) (fld w 14 4)) else
  if fits w 7 7 7 && fits w 3 1 0 then .ok (.ySra (Hq.of w) (fld w 22 4) (fld w 18 4) (fld w 14 4)) else
  if fits w 7 7 8 && fits w 3 1 0 then .ok (.yMin (Hq.of w) (fld w 22 4) (fld w 18 4) (fld w 14 4)) else
  if fits w 7 7 9 && fits w 3 1 0 then .ok (.yMax (Hq.of w) (fld w 22 4) (fld w 18 4) (fld w 14 4)) else
  .error .reservedOrUnassigned

/-- Opcode 0x11 of L: Y_ADDI. -/
def decL11 (w : Nat) : Except DecodeError Instr :=
  if fits w 3 1 0 then .ok (.yAddi (Hq.of w) (fld w 22 4) (fld w 18 4) (fld w 7 11)) else
  .error .reservedOrUnassigned

/-- Opcode 0x12 of L: Y_MOVI. -/
def decL12 (w : Nat) : Except DecodeError Instr :=
  if fits w 18 4 0 && fits w 14 4 0 && fits w 7 7 0 && fits w 3 1 0 then .ok (.yMovi (Hq.of w) (fld w 22 4) (fld w 32 32)) else
  .error .reservedOrUnassigned

/-- Opcode 0x13 of L: Y_CMP. -/
def decL13 (w : Nat) : Except DecodeError Instr :=
  if fits w 25 1 0 && fits w 10 4 0 && fits w 3 1 0 then .ok (.yCmp (Hq.of w) (fld w 22 3) (fld w 18 4) (fld w 14 4) (fld w 7 3)) else
  .error .reservedOrUnassigned

/-- Opcode 0x14 of L: SBIND. -/
def decL14 (w : Nat) : Except DecodeError Instr :=
  if fits w 12 4 0 && fits w 9 3 0 && fits w 3 1 0 then .ok (.sbind (Hq.of w) (fld w 20 6) (fld w 16 4) (fld w 8 1) (fld w 7 1) (fld w 32 32)) else
  .error .reservedOrUnassigned

/-- Opcode 0x15 of L: SSET. -/
def decL15 (w : Nat) : Except DecodeError Instr :=
  if fits w 20 6 0 && fits w 3 1 0 then .ok (.sset (Hq.of w) (fld w 16 4) (fld w 12 4) (fld w 7 5) (fld w 32 32)) else
  .error .reservedOrUnassigned

/-- Opcode 0x16 of L: LDS. -/
def decL16 (w : Nat) : Except DecodeError Instr :=
  if fits w 20 6 0 && fits w 8 4 0 && fits w 3 1 0 then .ok (.lds (Hq.of w) (fld w 16 4) (fld w 12 4) (fld w 7 1)) else
  .error .reservedOrUnassigned

/-- Opcode 0x17 of L: LDSO. -/
def decL17 (w : Nat) : Except DecodeError Instr :=
  if fits w 20 6 0 && fits w 9 3 0 && fits w 3 1 0 then .ok (.ldso (Hq.of w) (fld w 16 4) (fld w 12 4) (fld w 8 1) (fld w 7 1)) else
  .error .reservedOrUnassigned

/-- Opcode 0x18 of L: LDG. -/
def decL18 (w : Nat) : Except DecodeError Instr :=
  if fits w 20 6 0 && fits w 8 4 0 && fits w 3 1 0 then .ok (.ldg (Hq.of w) (fld w 16 4) (fld w 12 4) (fld w 7 1)) else
  .error .reservedOrUnassigned

/-- Opcode 0x19 of L: LDZ. -/
def decL19 (w : Nat) : Except DecodeError Instr :=
  if fits w 8 4 0 && fits w 3 1 0 then .ok (.ldz (Hq.of w) (fld w 20 6) (fld w 16 4) (fld w 12 4) (fld w 7 1)) else
  .error .reservedOrUnassigned

/-- Opcode 0x1A of L: LDB. -/
def decL1a (w : Nat) : Except DecodeError Instr :=
  if fits w 8 4 0 && fits w 3 1 0 then .ok (.ldb (Hq.of w) (fld w 20 6) (fld w 16 4) (fld w 12 4) (fld w 7 1)) else
  .error .reservedOrUnassigned

/-- Opcode 0x1B of L: PREF. -/
def decL1b (w : Nat) : Except DecodeError Instr :=
  if fits w 20 6 0 && fits w 7 5 0 && fits w 3 1 0 then .ok (.pref (Hq.of w) (fld w 16 4) (fld w 12 4)) else
  .error .reservedOrUnassigned

/-- Opcode 0x1C of L: BDECL. -/
def decL1c (w : Nat) : Except DecodeError Instr :=
  if fits w 12 8 0 && fits w 11 1 0 && fits w 3 1 0 then .ok (.bdecl (Hq.of w) (fld w 20 6) (fld w 9 2) (fld w 7 2) (fld w 48 16) (fld w 32 16)) else
  .error .reservedOrUnassigned

/-- Opcode 0x1D of L: BWAIT. -/
def decL1d (w : Nat) : Except DecodeError Instr :=
  if fits w 9 11 0 && fits w 3 1 0 then .ok (.bwait (Hq.of w) (fld w 20 6) (fld w 7 2)) else
  .error .reservedOrUnassigned

/-- Opcode 0x1E of L: BSTATE_PDONE, BSTATE_CDONE, BSTATE_FREE, BSTATE_READ. -/
def decL1e (w : Nat) : Except DecodeError Instr :=
  if fits w 7 13 1 && fits w 3 1 0 then .ok (.bstatePdone (Hq.of w) (fld w 20 6)) else
  if fits w 7 13 2 && fits w 3 1 0 then .ok (.bstateCdone (Hq.of w) (fld w 20 6)) else
  if fits w 7 13 3 && fits w 3 1 0 then .ok (.bstateFree (Hq.of w) (fld w 20 6)) else
  if fits w 16 4 0 && fits w 7 5 0 && fits w 3 1 0 then .ok (.bstateRead (Hq.of w) (fld w 20 6) (fld w 12 4)) else
  .error .reservedOrUnassigned

/-- Opcode 0x1F of L: LDTF. -/
def decL1f (w : Nat) : Except DecodeError Instr :=
  if fits w 7 19 0 && fits w 3 1 0 then .ok (.ldtf (Hq.of w)) else
  .error .reservedOrUnassigned

/-- Opcode 0x20 of L: Y_MFS. -/
def decL20 (w : Nat) : Except DecodeError Instr :=
  if fits w 16 6 0 && fits w 3 1 0 then .ok (.yMfs (Hq.of w) (fld w 22 4) (fld w 7 9)) else
  .error .reservedOrUnassigned

/-- Opcode 0x16 of S: STS. -/
def decS16 (w : Nat) : Except DecodeError Instr :=
  if fits w 20 6 0 && fits w 8 4 0 && fits w 3 1 0 then .ok (.sts (Hq.of w) (fld w 16 4) (fld w 12 4) (fld w 7 1)) else
  .error .reservedOrUnassigned

/-- Opcode 0x17 of S: QST. -/
def decS17 (w : Nat) : Except DecodeError Instr :=
  if fits w 20 6 0 && fits w 8 1 0 && fits w 3 1 0 then .ok (.qst (Hq.of w) (fld w 16 4) (fld w 12 4) (fld w 9 3) (fld w 7 1)) else
  .error .reservedOrUnassigned

/-- Opcode 0x18 of S: STB. -/
def decS18 (w : Nat) : Except DecodeError Instr :=
  if fits w 8 4 0 && fits w 3 1 0 then .ok (.stb (Hq.of w) (fld w 20 6) (fld w 16 4) (fld w 12 4) (fld w 7 1)) else
  .error .reservedOrUnassigned

/-- Opcode 0x19 of S: SHOPEN. -/
def decS19 (w : Nat) : Except DecodeError Instr :=
  if fits w 22 4 0 && fits w 7 7 0 && fits w 3 1 0 then .ok (.shopen (Hq.of w) (fld w 18 4) (fld w 14 4)) else
  .error .reservedOrUnassigned

/-- Opcode 0x1A of S: PUBLISH. -/
def decS1a (w : Nat) : Except DecodeError Instr :=
  if fits w 22 4 0 && fits w 10 4 0 && fits w 3 1 0 then .ok (.publish (Hq.of w) (fld w 18 4) (fld w 14 4) (fld w 7 3)) else
  .error .reservedOrUnassigned

/-- Opcode 0x1B of S: ATOMV. -/
def decS1b (w : Nat) : Except DecodeError Instr :=
  if fits w 24 2 0 && fits w 3 1 0 then .ok (.atomv (Hq.of w) (fld w 20 4) (fld w 16 4) (fld w 12 4) (fld w 7 5)) else
  .error .reservedOrUnassigned

/-- Opcode 0x1C of S: AMOS. -/
def decS1c (w : Nat) : Except DecodeError Instr :=
  if fits w 7 7 0 && fits w 41 23 0 && fits w 3 1 0 then .ok (.amos (Hq.of w) (fld w 22 4) (fld w 18 4) (fld w 14 4) (fld w 40 1) (fld w 36 4) (fld w 32 4)) else
  .error .reservedOrUnassigned

/-- Opcode 0x1F of S: BDRAIN. -/
def decS1f (w : Nat) : Except DecodeError Instr :=
  if fits w 20 6 0 && fits w 7 9 0 && fits w 3 1 0 then .ok (.bdrain (Hq.of w) (fld w 16 4)) else
  .error .reservedOrUnassigned

/-- Opcode 0x01 of C: NOP. -/
def decC01 (w : Nat) : Except DecodeError Instr :=
  if fits w 7 19 0 then .ok (.nop (Hd.of w)) else
  .error .reservedOrUnassigned

/-- Opcode 0x02 of C: HALT. -/
def decC02 (w : Nat) : Except DecodeError Instr :=
  if fits w 7 19 0 then .ok (.halt (Hd.of w)) else
  .error .reservedOrUnassigned

/-- Opcode 0x03 of C: FENCE. -/
def decC03 (w : Nat) : Except DecodeError Instr :=
  if fits w 7 14 0 then .ok (.fence (Hd.of w) (fld w 23 3) (fld w 21 2)) else
  .error .reservedOrUnassigned

/-- Opcode 0x04 of C: TKPOST. -/
def decC04 (w : Nat) : Except DecodeError Instr :=
  if fits w 7 13 0 then .ok (.tkpost (Hd.of w) (fld w 24 2) (fld w 20 4)) else
  .error .reservedOrUnassigned

/-- Opcode 0x05 of C: TKWAIT. -/
def decC05 (w : Nat) : Except DecodeError Instr :=
  if fits w 7 13 0 then .ok (.tkwait (Hd.of w) (fld w 24 2) (fld w 20 4)) else
  .error .reservedOrUnassigned

/-- Opcode 0x06 of C: PBT. -/
def decC06 (w : Nat) : Except DecodeError Instr :=
  if fits w 7 11 0 then .ok (.pbt (Hd.of w) (fld w 24 2) (fld w 23 1) (fld w 18 5) (fld w 32 32)) else
  .error .reservedOrUnassigned

/-- Opcode 0x07 of C: BRX. -/
def decC07 (w : Nat) : Except DecodeError Instr :=
  if fits w 7 17 0 then .ok (.brx (Hd.of w) (fld w 24 2)) else
  .error .reservedOrUnassigned

/-- Opcode 0x08 of C: BRXD. -/
def decC08 (w : Nat) : Except DecodeError Instr :=
  if fits w 23 1 0 && fits w 7 11 0 then .ok (.brxd (Hd.of w) (fld w 24 2) (fld w 18 5)) else
  .error .reservedOrUnassigned

/-- Opcode 0x10 of C: VADD. -/
def decC10 (w : Nat) : Except DecodeError Instr :=
  .ok (.vadd (Tl.of w) (fld w 22 4) (fld w 17 5) (fld w 12 5) (fld w 6 6) (fld w 4 2))

/-- Opcode 0x11 of C: VSUB. -/
def decC11 (w : Nat) : Except DecodeError Instr :=
  .ok (.vsub (Tl.of w) (fld w 22 4) (fld w 17 5) (fld w 12 5) (fld w 6 6) (fld w 4 2))

/-- Opcode 0x12 of C: VMUL. -/
def decC12 (w : Nat) : Except DecodeError Instr :=
  .ok (.vmul (Tl.of w) (fld w 22 4) (fld w 17 5) (fld w 12 5) (fld w 6 6) (fld w 4 2))

/-- Opcode 0x13 of C: VFMA. -/
def decC13 (w : Nat) : Except DecodeError Instr :=
  .ok (.vfma (Tl.of w) (fld w 22 4) (fld w 17 5) (fld w 12 5) (fld w 6 6) (fld w 4 2))

/-- Opcode 0x14 of C: VFMS. -/
def decC14 (w : Nat) : Except DecodeError Instr :=
  .ok (.vfms (Tl.of w) (fld w 22 4) (fld w 17 5) (fld w 12 5) (fld w 6 6) (fld w 4 2))

/-- Opcode 0x15 of C: VMIN. -/
def decC15 (w : Nat) : Except DecodeError Instr :=
  .ok (.vmin (Tl.of w) (fld w 22 4) (fld w 17 5) (fld w 12 5) (fld w 6 6) (fld w 4 2))

/-- Opcode 0x16 of C: VMAX. -/
def decC16 (w : Nat) : Except DecodeError Instr :=
  .ok (.vmax (Tl.of w) (fld w 22 4) (fld w 17 5) (fld w 12 5) (fld w 6 6) (fld w 4 2))

/-- Opcode 0x17 of C: VABS. -/
def decC17 (w : Nat) : Except DecodeError Instr :=
  if fits w 12 5 0 then .ok (.vabs (Tl.of w) (fld w 22 4) (fld w 17 5) (fld w 6 6) (fld w 4 2)) else
  .error .reservedOrUnassigned

/-- Opcode 0x18 of C: VNEG. -/
def decC18 (w : Nat) : Except DecodeError Instr :=
  if fits w 12 5 0 then .ok (.vneg (Tl.of w) (fld w 22 4) (fld w 17 5) (fld w 6 6) (fld w 4 2)) else
  .error .reservedOrUnassigned

/-- Opcode 0x19 of C: VAND. -/
def decC19 (w : Nat) : Except DecodeError Instr :=
  .ok (.vand (Tl.of w) (fld w 22 4) (fld w 17 5) (fld w 12 5) (fld w 6 6) (fld w 4 2))

/-- Opcode 0x1A of C: VOR. -/
def decC1a (w : Nat) : Except DecodeError Instr :=
  .ok (.vor (Tl.of w) (fld w 22 4) (fld w 17 5) (fld w 12 5) (fld w 6 6) (fld w 4 2))

/-- Opcode 0x1B of C: VXOR. -/
def decC1b (w : Nat) : Except DecodeError Instr :=
  .ok (.vxor (Tl.of w) (fld w 22 4) (fld w 17 5) (fld w 12 5) (fld w 6 6) (fld w 4 2))

/-- Opcode 0x1C of C: VNOT. -/
def decC1c (w : Nat) : Except DecodeError Instr :=
  if fits w 12 5 0 then .ok (.vnot (Tl.of w) (fld w 22 4) (fld w 17 5) (fld w 6 6) (fld w 4 2)) else
  .error .reservedOrUnassigned

/-- Opcode 0x1D of C: VSHL. -/
def decC1d (w : Nat) : Except DecodeError Instr :=
  .ok (.vshl (Tl.of w) (fld w 22 4) (fld w 17 5) (fld w 12 5) (fld w 6 6) (fld w 4 2))

/-- Opcode 0x1E of C: VSHR. -/
def decC1e (w : Nat) : Except DecodeError Instr :=
  .ok (.vshr (Tl.of w) (fld w 22 4) (fld w 17 5) (fld w 12 5) (fld w 6 6) (fld w 4 2))

/-- Opcode 0x1F of C: VSRA. -/
def decC1f (w : Nat) : Except DecodeError Instr :=
  .ok (.vsra (Tl.of w) (fld w 22 4) (fld w 17 5) (fld w 12 5) (fld w 6 6) (fld w 4 2))

/-- Opcode 0x20 of C: VMAD. -/
def decC20 (w : Nat) : Except DecodeError Instr :=
  .ok (.vmad (Tl.of w) (fld w 22 4) (fld w 17 5) (fld w 12 5) (fld w 6 6) (fld w 4 2))

/-- Opcode 0x21 of C: VCMP. -/
def decC21 (w : Nat) : Except DecodeError Instr :=
  .ok (.vcmp (Tl.of w) (fld w 22 4) (fld w 17 5) (fld w 12 5) (fld w 6 6) (fld w 4 2))

/-- Opcode 0x22 of C: VSEL. -/
def decC22 (w : Nat) : Except DecodeError Instr :=
  .ok (.vsel (Tl.of w) (fld w 22 4) (fld w 17 5) (fld w 12 5) (fld w 6 6) (fld w 4 2))

/-- Opcode 0x23 of C: VMOV. -/
def decC23 (w : Nat) : Except DecodeError Instr :=
  if fits w 12 5 0 then .ok (.vmov (Tl.of w) (fld w 22 4) (fld w 17 5) (fld w 6 6) (fld w 4 2)) else
  .error .reservedOrUnassigned

/-- Opcode 0x24 of C: VMOVI. -/
def decC24 (w : Nat) : Except DecodeError Instr :=
  if fits w 17 5 0 && fits w 12 5 0 then .ok (.vmovi (Tl.of w) (fld w 22 4) (fld w 6 6) (fld w 4 2) (fld w 32 32)) else
  .error .reservedOrUnassigned

/-- Opcode 0x25 of C: VCVT. -/
def decC25 (w : Nat) : Except DecodeError Instr :=
  if fits w 4 2 0 then .ok (.vcvt (Tl.of w) (fld w 22 4) (fld w 17 5) (fld w 12 5) (fld w 6 6)) else
  .error .reservedOrUnassigned

/-- Opcode 0x26 of C: VROTR. -/
def decC26 (w : Nat) : Except DecodeError Instr :=
  if fits w 16 1 0 then .ok (.vrotr (Tl.of w) (fld w 22 4) (fld w 17 5) (fld w 12 4) (fld w 6 6) (fld w 4 2)) else
  .error .reservedOrUnassigned

/-- Opcode 0x27 of C: VROTC. -/
def decC27 (w : Nat) : Except DecodeError Instr :=
  if fits w 16 1 0 then .ok (.vrotc (Tl.of w) (fld w 22 4) (fld w 17 5) (fld w 12 4) (fld w 6 6) (fld w 4 2)) else
  .error .reservedOrUnassigned

/-- Opcode 0x28 of C: VBCR. -/
def decC28 (w : Nat) : Except DecodeError Instr :=
  if fits w 16 1 0 then .ok (.vbcr (Tl.of w) (fld w 22 4) (fld w 17 5) (fld w 12 4) (fld w 6 6) (fld w 4 2)) else
  .error .reservedOrUnassigned

/-- Opcode 0x29 of C: VBCC. -/
def decC29 (w : Nat) : Except DecodeError Instr :=
  if fits w 16 1 0 then .ok (.vbcc (Tl.of w) (fld w 22 4) (fld w 17 5) (fld w 12 4) (fld w 6 6) (fld w 4 2)) else
  .error .reservedOrUnassigned

/-- Opcode 0x2A of C: VREDR. -/
def decC2a (w : Nat) : Except DecodeError Instr :=
  .ok (.vredr (Tl.of w) (fld w 22 4) (fld w 17 5) (fld w 12 5) (fld w 6 6) (fld w 4 2))

/-- Opcode 0x2B of C: VREDC. -/
def decC2b (w : Nat) : Except DecodeError Instr :=
  .ok (.vredc (Tl.of w) (fld w 22 4) (fld w 17 5) (fld w 12 5) (fld w 6 6) (fld w 4 2))

/-- Opcode 0x2C of C: VSCANR. -/
def decC2c (w : Nat) : Except DecodeError Instr :=
  .ok (.vscanr (Tl.of w) (fld w 22 4) (fld w 17 5) (fld w 12 5) (fld w 6 6) (fld w 4 2))

/-- Opcode 0x2D of C: VSCANC. -/
def decC2d (w : Nat) : Except DecodeError Instr :=
  .ok (.vscanc (Tl.of w) (fld w 22 4) (fld w 17 5) (fld w 12 5) (fld w 6 6) (fld w 4 2))

/-- Opcode 0x2E of C: VEXP2, VLOG2, VRCP, VRSQ, VTANH. -/
def decC2e (w : Nat) : Except DecodeError Instr :=
  if fits w 12 5 0 then .ok (.vexp2 (Tl.of w) (fld w 22 4) (fld w 17 5) (fld w 6 6) (fld w 4 2)) else
  if fits w 12 5 1 then .ok (.vlog2 (Tl.of w) (fld w 22 4) (fld w 17 5) (fld w 6 6) (fld w 4 2)) else
  if fits w 12 5 2 then .ok (.vrcp (Tl.of w) (fld w 22 4) (fld w 17 5) (fld w 6 6) (fld w 4 2)) else
  if fits w 12 5 3 then .ok (.vrsq (Tl.of w) (fld w 22 4) (fld w 17 5) (fld w 6 6) (fld w 4 2)) else
  if fits w 12 5 4 then .ok (.vtanh (Tl.of w) (fld w 22 4) (fld w 17 5) (fld w 6 6) (fld w 4 2)) else
  .error .reservedOrUnassigned

/-- Opcode 0x2F of C: PNOT, PMOV, PAND, POR, PXOR. -/
def decC2f (w : Nat) : Except DecodeError Instr :=
  if fits w 4 10 3 then .ok (.pnot (Tl.of w) (fld w 20 6) (fld w 14 6)) else
  if fits w 4 10 4 then .ok (.pmov (Tl.of w) (fld w 20 6) (fld w 14 6)) else
  if fits w 4 4 0 then .ok (.pand (Tl.of w) (fld w 20 6) (fld w 14 6) (fld w 8 6)) else
  if fits w 4 4 1 then .ok (.por (Tl.of w) (fld w 20 6) (fld w 14 6) (fld w 8 6)) else
  if fits w 4 4 2 then .ok (.pxor (Tl.of w) (fld w 20 6) (fld w 14 6) (fld w 8 6)) else
  .error .reservedOrUnassigned

/-- Opcode 0x30 of C: PANY, PALL, PCNT. -/
def decC30 (w : Nat) : Except DecodeError Instr :=
  if fits w 23 3 0 && fits w 4 4 0 then .ok (.pany (Tl.of w) (fld w 20 3) (fld w 14 6) (fld w 8 6)) else
  if fits w 23 3 0 && fits w 4 4 1 then .ok (.pall (Tl.of w) (fld w 20 3) (fld w 14 6) (fld w 8 6)) else
  if fits w 24 2 0 && fits w 4 4 2 then .ok (.pcnt (Tl.of w) (fld w 20 4) (fld w 14 6) (fld w 8 6)) else
  .error .reservedOrUnassigned

/-- Opcode 0x31 of C: TCLR, TWR, TRR, TRC. -/
def decC31 (w : Nat) : Except DecodeError Instr :=
  if fits w 7 17 3 then .ok (.tclr (Hd.of w) (fld w 24 2)) else
  if fits w 7 5 0 then .ok (.twr (Hd.of w) (fld w 24 2) (fld w 20 4) (fld w 14 6) (fld w 12 2)) else
  if fits w 7 5 1 then .ok (.trr (Hd.of w) (fld w 24 2) (fld w 20 4) (fld w 14 6) (fld w 12 2)) else
  if fits w 7 5 2 then .ok (.trc (Hd.of w) (fld w 24 2) (fld w 20 4) (fld w 14 6) (fld w 12 2)) else
  .error .reservedOrUnassigned

/-- Opcode 0x32 of C: AMOV, AMODSET, AADD, APOST, AIDX. -/
def decC32 (w : Nat) : Except DecodeError Instr :=
  if fits w 7 11 1 then .ok (.amov (Hd.of w) (fld w 22 4) (fld w 18 4)) else
  if fits w 22 4 0 && fits w 7 7 3 then .ok (.amodset (Hd.of w) (fld w 18 4) (fld w 14 4)) else
  if fits w 7 7 0 then .ok (.aadd (Hd.of w) (fld w 22 4) (fld w 18 4) (fld w 14 4)) else
  if fits w 7 7 2 then .ok (.apost (Hd.of w) (fld w 22 4) (fld w 18 4) (fld w 14 4)) else
  if fits w 7 7 4 then .ok (.aidx (Hd.of w) (fld w 22 4) (fld w 18 4) (fld w 14 4)) else
  .error .reservedOrUnassigned

/-- Opcode 0x33 of C: AADDI. -/
def decC33 (w : Nat) : Except DecodeError Instr :=
  .ok (.aaddi (Tl.of w) (fld w 22 4) (fld w 18 4) (fld w 4 14))

/-- Opcode 0x34 of C: QPUSH. -/
def decC34 (w : Nat) : Except DecodeError Instr :=
  if fits w 12 5 0 && fits w 4 2 0 then .ok (.qpush (Tl.of w) (fld w 22 4) (fld w 17 5) (fld w 6 6)) else
  .error .reservedOrUnassigned

/-- Opcode 0x35 of C: A_MFS. -/
def decC35 (w : Nat) : Except DecodeError Instr :=
  if fits w 13 9 0 then .ok (.aMfs (Tl.of w) (fld w 22 4) (fld w 4 9)) else
  .error .reservedOrUnassigned

/-- Opcode 0x38 of C: WIN. -/
def decC38 (w : Nat) : Except DecodeError Instr :=
  if fits w 7 2 0 && fits w 52 12 0 then .ok (.win (Hd.of w) (fld w 24 2) (fld w 20 4) (fld w 16 4) (fld w 14 2) (fld w 12 2) (fld w 11 1) (fld w 10 1) (fld w 9 1) (fld w 32 20)) else
  .error .reservedOrUnassigned

/-- Opcode 0x39 of C: WCFG, WCFG_RD. -/
def decC39 (w : Nat) : Except DecodeError Instr :=
  if fits w 25 1 0 && fits w 7 9 0 then .ok (.wcfg (Hd.of w) (fld w 20 5) (fld w 16 4)) else
  if fits w 25 1 1 && fits w 7 9 0 then .ok (.wcfgRd (Hd.of w) (fld w 20 5) (fld w 16 4)) else
  .error .reservedOrUnassigned

/-- Opcode 0x3A of C: WACC_CLR, WACC_EPI, WACC_RD, WACC_WR. -/
def decC3a (w : Nat) : Except DecodeError Instr :=
  if fits w 24 2 2 && fits w 7 13 0 then .ok (.waccClr (Hd.of w) (fld w 20 4)) else
  if fits w 24 2 3 && fits w 18 2 0 && fits w 7 9 0 then .ok (.waccEpi (Hd.of w) (fld w 20 4) (fld w 16 2)) else
  if fits w 24 2 0 && fits w 7 9 0 then .ok (.waccRd (Hd.of w) (fld w 20 4) (fld w 16 4)) else
  if fits w 24 2 1 && fits w 16 4 0 && fits w 7 4 0 then .ok (.waccWr (Hd.of w) (fld w 20 4) (fld w 11 5)) else
  .error .reservedOrUnassigned

/-- Opcode 0x3B of C: WSTAT. -/
def decC3b (w : Nat) : Except DecodeError Instr :=
  if fits w 7 8 0 then .ok (.wstat (Hd.of w) (fld w 22 4) (fld w 16 6) (fld w 15 1)) else
  .error .reservedOrUnassigned

/-- Opcode 0x3C of C: LVTSET. -/
def decC3c (w : Nat) : Except DecodeError Instr :=
  if fits w 7 10 0 then .ok (.lvtset (Hd.of w) (fld w 25 1) (fld w 22 3) (fld w 17 5)) else
  .error .reservedOrUnassigned

/-- Opcode 0x38 of the broadcast core's C: BCAST. -/
def decB38 (w : Nat) : Except DecodeError Instr :=
  if fits w 52 12 0 then .ok (.bcast (Hd.of w) (fld w 22 4) (fld w 18 4) (fld w 12 6) (fld w 8 4) (fld w 7 1) (fld w 32 20)) else
  .error .reservedOrUnassigned

/-- Opcode 0x39 of the broadcast core's C: PLANB. -/
def decB39 (w : Nat) : Except DecodeError Instr :=
  if fits w 7 15 0 then .ok (.planb (Hd.of w) (fld w 22 4)) else
  .error .reservedOrUnassigned

/-- Opcode 0x3A of the broadcast core's C: PLANE. -/
def decB3a (w : Nat) : Except DecodeError Instr :=
  if fits w 7 19 0 then .ok (.plane (Hd.of w)) else
  .error .reservedOrUnassigned

/-- Opcode 0x3B of the broadcast core's C: FIBEX_RD, FIBEX_SET. -/
def decB3b (w : Nat) : Except DecodeError Instr :=
  if fits w 7 15 0 then .ok (.fibexRd (Hd.of w) (fld w 22 4)) else
  if fits w 22 4 0 && fits w 7 11 512 then .ok (.fibexSet (Hd.of w) (fld w 18 4)) else
  .error .reservedOrUnassigned

/-- The opcode map of K (02 R53, R54). -/
def rawDecodeK (w : Nat) : Except DecodeError Instr :=
  match w / 2 ^ 26 % 64 with
  | 1 => decK01 w
  | 2 => decK02 w
  | 3 => decK03 w
  | 4 => decK04 w
  | 5 => decK05 w
  | 6 => decK06 w
  | 7 => decK07 w
  | 8 => decK08 w
  | 16 => decK10 w
  | 17 => decK11 w
  | 18 => decK12 w
  | 19 => decK13 w
  | 20 => decK14 w
  | 21 => decK15 w
  | 22 => decK16 w
  | 23 => decK17 w
  | 24 => decK18 w
  | 25 => decK19 w
  | 26 => decK1a w
  | 27 => decK1b w
  | 28 => decK1c w
  | 32 => decK20 w
  | 33 => decK21 w
  | 34 => decK22 w
  | 35 => decK23 w
  | 36 => decK24 w
  | 37 => decK25 w
  | 38 => decK26 w
  | 39 => decK27 w
  | 40 => decK28 w
  | 41 => decK29 w
  | 42 => decK2a w
  | 43 => decK2b w
  | 44 => decK2c w
  | 48 => decK30 w
  | 49 => decK31 w
  | 50 => decK32 w
  | 52 => decK34 w
  | 53 => decK35 w
  | 54 => decK36 w
  | 55 => decK37 w
  | 56 => decK38 w
  | 57 => decK39 w
  | 58 => decK3a w
  | 59 => decK3b w
  | 60 => decK3c w
  | 61 => decK3d w
  | 62 => decK3e w
  | _ => .error .unassignedOpcode

/-- The opcode map of L (02 R53, R55). -/
def rawDecodeL (w : Nat) : Except DecodeError Instr :=
  match w / 2 ^ 26 % 64 with
  | 1 => decK01 w
  | 2 => decK02 w
  | 3 => decK03 w
  | 4 => decK04 w
  | 5 => decK05 w
  | 6 => decK06 w
  | 7 => decK07 w
  | 8 => decK08 w
  | 16 => decL10 w
  | 17 => decL11 w
  | 18 => decL12 w
  | 19 => decL13 w
  | 20 => decL14 w
  | 21 => decL15 w
  | 22 => decL16 w
  | 23 => decL17 w
  | 24 => decL18 w
  | 25 => decL19 w
  | 26 => decL1a w
  | 27 => decL1b w
  | 28 => decL1c w
  | 29 => decL1d w
  | 30 => decL1e w
  | 31 => decL1f w
  | 32 => decL20 w
  | _ => .error .unassignedOpcode

/-- The opcode map of S (02 R53, R56). -/
def rawDecodeS (w : Nat) : Except DecodeError Instr :=
  match w / 2 ^ 26 % 64 with
  | 1 => decK01 w
  | 2 => decK02 w
  | 3 => decK03 w
  | 4 => decK04 w
  | 5 => decK05 w
  | 6 => decK06 w
  | 7 => decK07 w
  | 8 => decK08 w
  | 16 => decL10 w
  | 17 => decL11 w
  | 18 => decL12 w
  | 19 => decL13 w
  | 20 => decL14 w
  | 21 => decL15 w
  | 22 => decS16 w
  | 23 => decS17 w
  | 24 => decS18 w
  | 25 => decS19 w
  | 26 => decS1a w
  | 27 => decS1b w
  | 28 => decS1c w
  | 29 => decL1d w
  | 30 => decL1e w
  | 31 => decS1f w
  | 32 => decL20 w
  | _ => .error .unassignedOpcode

/-- The opcode map of a compute core's C (02 R53, R57). -/
def rawDecodeC (w : Nat) : Except DecodeError Instr :=
  match w / 2 ^ 26 % 64 with
  | 1 => decC01 w
  | 2 => decC02 w
  | 3 => decC03 w
  | 4 => decC04 w
  | 5 => decC05 w
  | 6 => decC06 w
  | 7 => decC07 w
  | 8 => decC08 w
  | 16 => decC10 w
  | 17 => decC11 w
  | 18 => decC12 w
  | 19 => decC13 w
  | 20 => decC14 w
  | 21 => decC15 w
  | 22 => decC16 w
  | 23 => decC17 w
  | 24 => decC18 w
  | 25 => decC19 w
  | 26 => decC1a w
  | 27 => decC1b w
  | 28 => decC1c w
  | 29 => decC1d w
  | 30 => decC1e w
  | 31 => decC1f w
  | 32 => decC20 w
  | 33 => decC21 w
  | 34 => decC22 w
  | 35 => decC23 w
  | 36 => decC24 w
  | 37 => decC25 w
  | 38 => decC26 w
  | 39 => decC27 w
  | 40 => decC28 w
  | 41 => decC29 w
  | 42 => decC2a w
  | 43 => decC2b w
  | 44 => decC2c w
  | 45 => decC2d w
  | 46 => decC2e w
  | 47 => decC2f w
  | 48 => decC30 w
  | 49 => decC31 w
  | 50 => decC32 w
  | 51 => decC33 w
  | 52 => decC34 w
  | 53 => decC35 w
  | 56 => decC38 w
  | 57 => decC39 w
  | 58 => decC3a w
  | 59 => decC3b w
  | 60 => decC3c w
  | _ => .error .unassignedOpcode

/-- The opcode map of the broadcast core's C (02 R53, R58). -/
def rawDecodeB (w : Nat) : Except DecodeError Instr :=
  match w / 2 ^ 26 % 64 with
  | 1 => decC01 w
  | 2 => decC02 w
  | 3 => decC03 w
  | 4 => decC04 w
  | 5 => decC05 w
  | 6 => decC06 w
  | 7 => decC07 w
  | 8 => decC08 w
  | 16 => decC10 w
  | 17 => decC11 w
  | 18 => decC12 w
  | 19 => decC13 w
  | 20 => decC14 w
  | 21 => decC15 w
  | 22 => decC16 w
  | 23 => decC17 w
  | 24 => decC18 w
  | 25 => decC19 w
  | 26 => decC1a w
  | 27 => decC1b w
  | 28 => decC1c w
  | 29 => decC1d w
  | 30 => decC1e w
  | 31 => decC1f w
  | 32 => decC20 w
  | 33 => decC21 w
  | 34 => decC22 w
  | 35 => decC23 w
  | 36 => decC24 w
  | 37 => decC25 w
  | 38 => decC26 w
  | 39 => decC27 w
  | 40 => decC28 w
  | 41 => decC29 w
  | 42 => decC2a w
  | 43 => decC2b w
  | 44 => decC2c w
  | 45 => decC2d w
  | 46 => decC2e w
  | 47 => decC2f w
  | 48 => decC30 w
  | 49 => decC31 w
  | 50 => decC32 w
  | 51 => decC33 w
  | 52 => decC34 w
  | 53 => decC35 w
  | 56 => decB38 w
  | 57 => decB39 w
  | 58 => decB3a w
  | 59 => decB3b w
  | 60 => decC3c w
  | _ => .error .unassignedOpcode

/-- The words of an instruction as one number, the second word above the first (02 R44, R45, R47): 0 for an event,
which has no encoding. -/
def encode (i : Instr) : Nat :=
  match i with
  | .nop h => 67108864 + h.bits
  | .halt h => 134217728 + h.bits
  | .fence h c o => 201326592 + put c.toNat 23 + put o.toNat 21 + h.bits
  | .tkpost h f n => 268435456 + put f.toNat 24 + put n.toNat 20 + h.bits
  | .tkwait h f n => 335544320 + put f.toNat 24 + put n.toNat 20 + h.bits
  | .pbt h j m b imm => 402653184 + put j.toNat 24 + put m.toNat 23 + put b.toNat 18 + put imm.toNat 32 + h.bits
  | .brx h j => 469762048 + put j.toNat 24 + h.bits
  | .brxd h j b => 536870912 + put j.toNat 24 + put b.toNat 18 + h.bits
  | .add h d a b => 1073741824 + put d.toNat 21 + put a.toNat 16 + put b.toNat 11 + h.bits
  | .sub h d a b => 1073741824 + 128 + put d.toNat 21 + put a.toNat 16 + put b.toNat 11 + h.bits
  | .and h d a b => 1073741824 + 256 + put d.toNat 21 + put a.toNat 16 + put b.toNat 11 + h.bits
  | .or h d a b => 1073741824 + 384 + put d.toNat 21 + put a.toNat 16 + put b.toNat 11 + h.bits
  | .xor h d a b => 1073741824 + 512 + put d.toNat 21 + put a.toNat 16 + put b.toNat 11 + h.bits
  | .shl h d a b => 1073741824 + 640 + put d.toNat 21 + put a.toNat 16 + put b.toNat 11 + h.bits
  | .shr h d a b => 1073741824 + 768 + put d.toNat 21 + put a.toNat 16 + put b.toNat 11 + h.bits
  | .sra h d a b => 1073741824 + 896 + put d.toNat 21 + put a.toNat 16 + put b.toNat 11 + h.bits
  | .mul h d a b => 1073741824 + 1024 + put d.toNat 21 + put a.toNat 16 + put b.toNat 11 + h.bits
  | .mulh h d a b => 1073741824 + 1152 + put d.toNat 21 + put a.toNat 16 + put b.toNat 11 + h.bits
  | .mulhu h d a b => 1073741824 + 1280 + put d.toNat 21 + put a.toNat 16 + put b.toNat 11 + h.bits
  | .div h d a b => 1073741824 + 1408 + put d.toNat 21 + put a.toNat 16 + put b.toNat 11 + h.bits
  | .divu h d a b => 1073741824 + 1536 + put d.toNat 21 + put a.toNat 16 + put b.toNat 11 + h.bits
  | .rem h d a b => 1073741824 + 1664 + put d.toNat 21 + put a.toNat 16 + put b.toNat 11 + h.bits
  | .min h d a b => 1073741824 + 1792 + put d.toNat 21 + put a.toNat 16 + put b.toNat 11 + h.bits
  | .max h d a b => 1073741824 + 1920 + put d.toNat 21 + put a.toNat 16 + put b.toNat 11 + h.bits
  | .addi h d a i => 1140850688 + put d.toNat 21 + put a.toNat 16 + put i.toNat 7 + h.bits
  | .andi h d a i => 1207959552 + put d.toNat 21 + put a.toNat 16 + put i.toNat 7 + h.bits
  | .ori h d a i => 1275068416 + put d.toNat 21 + put a.toNat 16 + put i.toNat 7 + h.bits
  | .xori h d a i => 1342177280 + put d.toNat 21 + put a.toNat 16 + put i.toNat 7 + h.bits
  | .shli h d a i => 1409286144 + put d.toNat 21 + put a.toNat 16 + put i.toNat 7 + h.bits
  | .shri h d a i => 1476395008 + put d.toNat 21 + put a.toNat 16 + put i.toNat 7 + h.bits
  | .srai h d a i => 1543503872 + put d.toNat 21 + put a.toNat 16 + put i.toNat 7 + h.bits
  | .movi h d imm => 1610612736 + put d.toNat 21 + put imm.toNat 32 + h.bits
  | .movhi h d a imm => 1677721600 + put d.toNat 21 + put a.toNat 16 + put imm.toNat 32 + h.bits
  | .cmp h d a b c => 1744830464 + put d.toNat 21 + put a.toNat 16 + put b.toNat 11 + put c.toNat 7 + h.bits
  | .cmpi h d a c imm => 1811939328 + put d.toNat 21 + put a.toNat 16 + put c.toNat 7 + put imm.toNat 32 + h.bits
  | .qand h d a b => 1879048192 + put d.toNat 21 + put a.toNat 16 + put b.toNat 11 + h.bits
  | .qor h d a b => 1879048192 + 128 + put d.toNat 21 + put a.toNat 16 + put b.toNat 11 + h.bits
  | .qnot h d a => 1879048192 + 256 + put d.toNat 21 + put a.toNat 16 + h.bits
  | .ldx h d a pol so sz imm => 2147483648 + put d.toNat 21 + put a.toNat 16 + put pol.toNat 14 + put so.toNat 10 + put sz.toNat 7 + put imm.toNat 32 + h.bits
  | .stx h d a pol so sz imm => 2214592512 + put d.toNat 21 + put a.toNat 16 + put pol.toNat 14 + put so.toNat 10 + put sz.toNat 7 + put imm.toNat 32 + h.bits
  | .stxTag h d a so imm => 2214592512 + 512 + put d.toNat 21 + put a.toNat 16 + put so.toNat 10 + put imm.toNat 32 + h.bits
  | .ldxp h d a pol so sz imm => 2281701376 + put d.toNat 21 + put a.toNat 16 + put pol.toNat 14 + put so.toNat 10 + put sz.toNat 7 + put imm.toNat 32 + h.bits
  | .amo h d a so sz op => 2348810240 + put d.toNat 21 + put a.toNat 16 + put so.toNat 10 + put sz.toNat 7 + put op.toNat 32 + h.bits
  | .cinv h a b c => 2415919104 + put a.toNat 16 + put b.toNat 11 + put c.toNat 7 + h.bits
  | .cwb h a b c => 2483027968 + put a.toNat 16 + put b.toNat 11 + put c.toNat 7 + h.bits
  | .pin h a b => 2550136832 + put a.toNat 16 + put b.toNat 11 + h.bits
  | .unpin h a b => 2617245696 + put a.toNat 16 + put b.toNat 11 + h.bits
  | .mfs h d i => 2684354560 + put d.toNat 21 + put i.toNat 7 + h.bits
  | .mts h a i => 2751463424 + put a.toNat 16 + put i.toNat 7 + h.bits
  | .rdplan h d f => 2818572288 + put d.toNat 21 + put f.toNat 7 + h.bits
  | .trap h i => 2885681152 + put i.toNat 7 + h.bits
  | .brk h i => 2952790016 + put i.toNat 7 + h.bits
  | .garr h d c g => 3221225472 + put d.toNat 21 + put c.toNat 15 + put g.toNat 7 + h.bits
  | .gwait h a c g => 3288334336 + put a.toNat 16 + put c.toNat 15 + put g.toNat 7 + h.bits
  | .gsync h d c g => 3355443200 + put d.toNat 21 + put c.toNat 15 + put g.toNat 7 + h.bits
  | .launch h d a => 3489660928 + put d.toNat 21 + put a.toNat 16 + h.bits
  | .spawn h => 3556769792 + h.bits
  | .cpy h d a b p c st => 3623878656 + put d.toNat 21 + put a.toNat 16 + put b.toNat 11 + put p.toNat 9 + put c.toNat 8 + put st.toNat 7 + h.bits
  | .cpyc h d a b first last c imm => 3690987520 + put d.toNat 21 + put a.toNat 16 + put b.toNat 11 + put first.toNat 10 + put last.toNat 9 + put c.toNat 7 + put imm.toNat 32 + h.bits
  | .cpywait h d a => 3758096384 + put d.toNat 21 + put a.toNat 16 + h.bits
  | .cpywaitAll h d => 3758096384 + 128 + put d.toNat 21 + h.bits
  | .cpywaitChain h d => 3758096384 + 256 + put d.toNat 21 + h.bits
  | .ctreadyArm h a b => 3825205248 + put a.toNat 16 + put b.toNat 11 + h.bits
  | .ctreadyFire h b => 3825205248 + 128 + put b.toNat 11 + h.bits
  | .ctreadyGo h a b => 3825205248 + 256 + put a.toNat 16 + put b.toNat 11 + h.bits
  | .ctwait h d a => 3892314112 + put d.toNat 21 + put a.toNat 16 + h.bits
  | .ctwaitTest h d a => 3892314112 + 128 + put d.toNat 21 + put a.toNat 16 + h.bits
  | .boostRel h d => 3959422976 + put d.toNat 21 + h.bits
  | .boostMid h d => 3959422976 + 128 + put d.toNat 21 + h.bits
  | .boostMax h d => 3959422976 + 256 + put d.toNat 21 + h.bits
  | .freezeMark h a => 4026531840 + put a.toNat 16 + h.bits
  | .freeze h d a b => 4026531840 + 128 + put d.toNat 21 + put a.toNat 16 + put b.toNat 11 + h.bits
  | .freezeDrop h a => 4026531840 + 256 + put a.toNat 16 + h.bits
  | .freezeCont h a => 4026531840 + 384 + put a.toNat 16 + h.bits
  | .thaw h d a b => 4093640704 + put d.toNat 21 + put a.toNat 16 + put b.toNat 11 + h.bits
  | .resume h a => 4160749568 + put a.toNat 16 + h.bits
  | .resumeTerm h a => 4160749568 + 128 + put a.toNat 16 + h.bits
  | .yAdd h d a b => 1073741824 + put d.toNat 22 + put a.toNat 18 + put b.toNat 14 + h.bits
  | .ySub h d a b => 1073741824 + 128 + put d.toNat 22 + put a.toNat 18 + put b.toNat 14 + h.bits
  | .yAnd h d a b => 1073741824 + 256 + put d.toNat 22 + put a.toNat 18 + put b.toNat 14 + h.bits
  | .yOr h d a b => 1073741824 + 384 + put d.toNat 22 + put a.toNat 18 + put b.toNat 14 + h.bits
  | .yXor h d a b => 1073741824 + 512 + put d.toNat 22 + put a.toNat 18 + put b.toNat 14 + h.bits
  | .yShl h d a b => 1073741824 + 640 + put d.toNat 22 + put a.toNat 18 + put b.toNat 14 + h.bits
  | .yShr h d a b => 1073741824 + 768 + put d.toNat 22 + put a.toNat 18 + put b.toNat 14 + h.bits
  | .ySra h d a b => 1073741824 + 896 + put d.toNat 22 + put a.toNat 18 + put b.toNat 14 + h.bits
  | .yMin h d a b => 1073741824 + 1024 + put d.toNat 22 + put a.toNat 18 + put b.toNat 14 + h.bits
  | .yMax h d a b => 1073741824 + 1152 + put d.toNat 22 + put a.toNat 18 + put b.toNat 14 + h.bits
  | .yAddi h d a i => 1140850688 + put d.toNat 22 + put a.toNat 18 + put i.toNat 7 + h.bits
  | .yMovi h d imm => 1207959552 + put d.toNat 22 + put imm.toNat 32 + h.bits
  | .yCmp h d a b c => 1275068416 + put d.toNat 22 + put a.toNat 18 + put b.toNat 14 + put c.toNat 7 + h.bits
  | .yMfs h d i => 2147483648 + put d.toNat 22 + put i.toNat 7 + h.bits
  | .sbind h b st epi bk imm => 1342177280 + put b.toNat 20 + put st.toNat 16 + put epi.toNat 8 + put bk.toNat 7 + put imm.toNat 32 + h.bits
  | .sset h st n f imm => 1409286144 + put st.toNat 16 + put n.toNat 12 + put f.toNat 7 + put imm.toNat 32 + h.bits
  | .lds h st n l => 1476395008 + put st.toNat 16 + put n.toNat 12 + put l.toNat 7 + h.bits
  | .ldso h st n c l => 1543503872 + put st.toNat 16 + put n.toNat 12 + put c.toNat 8 + put l.toNat 7 + h.bits
  | .ldg h st n l => 1610612736 + put st.toNat 16 + put n.toNat 12 + put l.toNat 7 + h.bits
  | .ldz h b st n l => 1677721600 + put b.toNat 20 + put st.toNat 16 + put n.toNat 12 + put l.toNat 7 + h.bits
  | .ldb h b st n l => 1744830464 + put b.toNat 20 + put st.toNat 16 + put n.toNat 12 + put l.toNat 7 + h.bits
  | .pref h st n => 1811939328 + put st.toNat 16 + put n.toNat 12 + h.bits
  | .bdecl h b cons prod len off => 1879048192 + put b.toNat 20 + put cons.toNat 9 + put prod.toNat 7 + put len.toNat 48 + put off.toNat 32 + h.bits
  | .bwait h b t => 1946157056 + put b.toNat 20 + put t.toNat 7 + h.bits
  | .bstateRead h b n => 2013265920 + put b.toNat 20 + put n.toNat 12 + h.bits
  | .bstatePdone h b => 2013265920 + 128 + put b.toNat 20 + h.bits
  | .bstateCdone h b => 2013265920 + 256 + put b.toNat 20 + h.bits
  | .bstateFree h b => 2013265920 + 384 + put b.toNat 20 + h.bits
  | .ldtf h => 2080374784 + h.bits
  | .sts h st n l => 1476395008 + put st.toNat 16 + put n.toNat 12 + put l.toNat 7 + h.bits
  | .qst h st n o l => 1543503872 + put st.toNat 16 + put n.toNat 12 + put o.toNat 9 + put l.toNat 7 + h.bits
  | .stb h b st n l => 1610612736 + put b.toNat 20 + put st.toNat 16 + put n.toNat 12 + put l.toNat 7 + h.bits
  | .shopen h a b => 1677721600 + put a.toNat 18 + put b.toNat 14 + h.bits
  | .publish h a b c => 1744830464 + put a.toNat 18 + put b.toNat 14 + put c.toNat 7 + h.bits
  | .atomv h c st n f => 1811939328 + put c.toNat 20 + put st.toNat 16 + put n.toNat 12 + put f.toNat 7 + h.bits
  | .amos h d a b z so op => 1879048192 + put d.toNat 22 + put a.toNat 18 + put b.toNat 14 + put z.toNat 40 + put so.toNat 36 + put op.toNat 32 + h.bits
  | .bdrain h st => 2080374784 + put st.toNat 16 + h.bits
  | .vadd h d a b g y => 1073741824 + put d.toNat 22 + put a.toNat 17 + put b.toNat 12 + put g.toNat 6 + put y.toNat 4 + h.bits
  | .vsub h d a b g y => 1140850688 + put d.toNat 22 + put a.toNat 17 + put b.toNat 12 + put g.toNat 6 + put y.toNat 4 + h.bits
  | .vmul h d a b g y => 1207959552 + put d.toNat 22 + put a.toNat 17 + put b.toNat 12 + put g.toNat 6 + put y.toNat 4 + h.bits
  | .vfma h d a b g y => 1275068416 + put d.toNat 22 + put a.toNat 17 + put b.toNat 12 + put g.toNat 6 + put y.toNat 4 + h.bits
  | .vfms h d a b g y => 1342177280 + put d.toNat 22 + put a.toNat 17 + put b.toNat 12 + put g.toNat 6 + put y.toNat 4 + h.bits
  | .vmin h d a b g y => 1409286144 + put d.toNat 22 + put a.toNat 17 + put b.toNat 12 + put g.toNat 6 + put y.toNat 4 + h.bits
  | .vmax h d a b g y => 1476395008 + put d.toNat 22 + put a.toNat 17 + put b.toNat 12 + put g.toNat 6 + put y.toNat 4 + h.bits
  | .vabs h d a g y => 1543503872 + put d.toNat 22 + put a.toNat 17 + put g.toNat 6 + put y.toNat 4 + h.bits
  | .vneg h d a g y => 1610612736 + put d.toNat 22 + put a.toNat 17 + put g.toNat 6 + put y.toNat 4 + h.bits
  | .vand h d a b g y => 1677721600 + put d.toNat 22 + put a.toNat 17 + put b.toNat 12 + put g.toNat 6 + put y.toNat 4 + h.bits
  | .vor h d a b g y => 1744830464 + put d.toNat 22 + put a.toNat 17 + put b.toNat 12 + put g.toNat 6 + put y.toNat 4 + h.bits
  | .vxor h d a b g y => 1811939328 + put d.toNat 22 + put a.toNat 17 + put b.toNat 12 + put g.toNat 6 + put y.toNat 4 + h.bits
  | .vnot h d a g y => 1879048192 + put d.toNat 22 + put a.toNat 17 + put g.toNat 6 + put y.toNat 4 + h.bits
  | .vshl h d a b g y => 1946157056 + put d.toNat 22 + put a.toNat 17 + put b.toNat 12 + put g.toNat 6 + put y.toNat 4 + h.bits
  | .vshr h d a b g y => 2013265920 + put d.toNat 22 + put a.toNat 17 + put b.toNat 12 + put g.toNat 6 + put y.toNat 4 + h.bits
  | .vsra h d a b g y => 2080374784 + put d.toNat 22 + put a.toNat 17 + put b.toNat 12 + put g.toNat 6 + put y.toNat 4 + h.bits
  | .vmad h d a b g y => 2147483648 + put d.toNat 22 + put a.toNat 17 + put b.toNat 12 + put g.toNat 6 + put y.toNat 4 + h.bits
  | .vcmp h c a b p y => 2214592512 + put c.toNat 22 + put a.toNat 17 + put b.toNat 12 + put p.toNat 6 + put y.toNat 4 + h.bits
  | .vsel h d a b p y => 2281701376 + put d.toNat 22 + put a.toNat 17 + put b.toNat 12 + put p.toNat 6 + put y.toNat 4 + h.bits
  | .vmov h d a g y => 2348810240 + put d.toNat 22 + put a.toNat 17 + put g.toNat 6 + put y.toNat 4 + h.bits
  | .vmovi h d g y imm => 2415919104 + put d.toNat 22 + put g.toNat 6 + put y.toNat 4 + put imm.toNat 32 + h.bits
  | .vcvt h d a c g => 2483027968 + put d.toNat 22 + put a.toNat 17 + put c.toNat 12 + put g.toNat 6 + h.bits
  | .vrotr h d a n g y => 2550136832 + put d.toNat 22 + put a.toNat 17 + put n.toNat 12 + put g.toNat 6 + put y.toNat 4 + h.bits
  | .vrotc h d a n g y => 2617245696 + put d.toNat 22 + put a.toNat 17 + put n.toNat 12 + put g.toNat 6 + put y.toNat 4 + h.bits
  | .vbcr h d a n g y => 2684354560 + put d.toNat 22 + put a.toNat 17 + put n.toNat 12 + put g.toNat 6 + put y.toNat 4 + h.bits
  | .vbcc h d a n g y => 2751463424 + put d.toNat 22 + put a.toNat 17 + put n.toNat 12 + put g.toNat 6 + put y.toNat 4 + h.bits
  | .vredr h d a o g y => 2818572288 + put d.toNat 22 + put a.toNat 17 + put o.toNat 12 + put g.toNat 6 + put y.toNat 4 + h.bits
  | .vredc h d a o g y => 2885681152 + put d.toNat 22 + put a.toNat 17 + put o.toNat 12 + put g.toNat 6 + put y.toNat 4 + h.bits
  | .vscanr h d a o g y => 2952790016 + put d.toNat 22 + put a.toNat 17 + put o.toNat 12 + put g.toNat 6 + put y.toNat 4 + h.bits
  | .vscanc h d a o g y => 3019898880 + put d.toNat 22 + put a.toNat 17 + put o.toNat 12 + put g.toNat 6 + put y.toNat 4 + h.bits
  | .vexp2 h d a g y => 3087007744 + put d.toNat 22 + put a.toNat 17 + put g.toNat 6 + put y.toNat 4 + h.bits
  | .vlog2 h d a g y => 3087007744 + 4096 + put d.toNat 22 + put a.toNat 17 + put g.toNat 6 + put y.toNat 4 + h.bits
  | .vrcp h d a g y => 3087007744 + 8192 + put d.toNat 22 + put a.toNat 17 + put g.toNat 6 + put y.toNat 4 + h.bits
  | .vrsq h d a g y => 3087007744 + 12288 + put d.toNat 22 + put a.toNat 17 + put g.toNat 6 + put y.toNat 4 + h.bits
  | .vtanh h d a g y => 3087007744 + 16384 + put d.toNat 22 + put a.toNat 17 + put g.toNat 6 + put y.toNat 4 + h.bits
  | .pand h d a b => 3154116608 + put d.toNat 20 + put a.toNat 14 + put b.toNat 8 + h.bits
  | .por h d a b => 3154116608 + 16 + put d.toNat 20 + put a.toNat 14 + put b.toNat 8 + h.bits
  | .pxor h d a b => 3154116608 + 32 + put d.toNat 20 + put a.toNat 14 + put b.toNat 8 + h.bits
  | .pnot h d a => 3154116608 + 48 + put d.toNat 20 + put a.toNat 14 + h.bits
  | .pmov h d a => 3154116608 + 64 + put d.toNat 20 + put a.toNat 14 + h.bits
  | .pany h d a b => 3221225472 + put d.toNat 20 + put a.toNat 14 + put b.toNat 8 + h.bits
  | .pall h d a b => 3221225472 + 16 + put d.toNat 20 + put a.toNat 14 + put b.toNat 8 + h.bits
  | .pcnt h d a b => 3221225472 + 32 + put d.toNat 20 + put a.toNat 14 + put b.toNat 8 + h.bits
  | .twr h t v c w => 3288334336 + put t.toNat 24 + put v.toNat 20 + put c.toNat 14 + put w.toNat 12 + h.bits
  | .trr h t v c w => 3288334336 + 128 + put t.toNat 24 + put v.toNat 20 + put c.toNat 14 + put w.toNat 12 + h.bits
  | .trc h t v c w => 3288334336 + 256 + put t.toNat 24 + put v.toNat 20 + put c.toNat 14 + put w.toNat 12 + h.bits
  | .tclr h t => 3288334336 + 384 + put t.toNat 24 + h.bits
  | .aadd h d a m => 3355443200 + put d.toNat 22 + put a.toNat 18 + put m.toNat 14 + h.bits
  | .amov h d a => 3355443200 + 128 + put d.toNat 22 + put a.toNat 18 + h.bits
  | .apost h d a m => 3355443200 + 256 + put d.toNat 22 + put a.toNat 18 + put m.toNat 14 + h.bits
  | .amodset h a m => 3355443200 + 384 + put a.toNat 18 + put m.toNat 14 + h.bits
  | .aidx h d a m => 3355443200 + 512 + put d.toNat 22 + put a.toNat 18 + put m.toNat 14 + h.bits
  | .aaddi h d a i => 3422552064 + put d.toNat 22 + put a.toNat 18 + put i.toNat 4 + h.bits
  | .qpush h n a g => 3489660928 + put n.toNat 22 + put a.toNat 17 + put g.toNat 6 + h.bits
  | .aMfs h d i => 3556769792 + put d.toNat 22 + put i.toNat 4 + h.bits
  | .win h ws c ak h0 e first last rel b0 => 3758096384 + put ws.toNat 24 + put c.toNat 20 + put ak.toNat 16 + put h0.toNat 14 + put e.toNat 12 + put first.toNat 11 + put last.toNat 10 + put rel.toNat 9 + put b0.toNat 32 + h.bits
  | .wcfg h n a => 3825205248 + put n.toNat 20 + put a.toNat 16 + h.bits
  | .wcfgRd h n a => 3825205248 + 33554432 + put n.toNat 20 + put a.toNat 16 + h.bits
  | .waccRd h c v => 3892314112 + put c.toNat 20 + put v.toNat 16 + h.bits
  | .waccWr h c a => 3892314112 + 16777216 + put c.toNat 20 + put a.toNat 11 + h.bits
  | .waccClr h c => 3892314112 + 33554432 + put c.toNat 20 + h.bits
  | .waccEpi h c e => 3892314112 + 50331648 + put c.toNat 20 + put e.toNat 16 + h.bits
  | .wstat h d p e => 3959422976 + put d.toNat 22 + put p.toNat 16 + put e.toNat 15 + h.bits
  | .lvtset h t n a => 4026531840 + put t.toNat 25 + put n.toNat 22 + put a.toNat 17 + h.bits
  | .bcast h s0 ak nm1 tm1 wp b0 => 3758096384 + put s0.toNat 22 + put ak.toNat 18 + put nm1.toNat 12 + put tm1.toNat 8 + put wp.toNat 7 + put b0.toNat 32 + h.bits
  | .planb h d => 3825205248 + put d.toNat 22 + h.bits
  | .plane h => 3892314112 + h.bits
  | .fibexRd h d => 3959422976 + put d.toNat 22 + h.bits
  | .fibexSet h a => 3959422976 + 65536 + put a.toNat 18 + h.bits
  | .ldxpReply _ => 0
  | .decoderChunkDone _ => 0
  | .shadowCopyOnFirstWrite => 0
  | .windowStaging _ _ => 0
  | .windowPass _ _ => 0
  | .windowRescale _ _ => 0
  | .windowAccumulate _ _ => 0
  | .epilogueTile _ => 0
  | .epilogueOutput _ => 0
  | .epilogueTimeout _ => 0
  | .bcastSideband _ => 0
  | .bcastLight _ => 0
  | .planPublish => 0
  | .planClose => 0
  | .planOverrun => 0
  | .planAbort => 0
  | .fibreLightLoss _ => 0
  | .copyCommandStart _ _ => 0
  | .copyCommandFinish _ _ => 0
  | .copyBoundOverrun _ _ => 0
  | .tileFlagWrite _ => 0
  | .collectiveComplete _ _ _ => 0
  | .collectiveBoundOverrun _ => 0
  | .collectivePeerFailed _ _ _ => 0
  | .remoteRequest _ => 0
  | .remoteReply _ => 0
  | .linkLaneFailure _ _ => 0
  | .nodeDispatch => 0
  | .nodeComplete _ => 0
  | .nodeLate => 0
  | .preemption _ _ => 0
  | .bankSwap _ _ => 0
  | .spill _ => 0
  | .contextRestore _ _ _ _ => 0
  | .contextYield _ => 0
  | .pageMigration _ _ _ => 0
  | .pageUnmap _ _ => 0
  | .l2LeaseExpiry _ _ => 0
  | .watchHitByOtherAgent => 0
  | .faultFrameWrite _ => 0
  | .frameRouting _ _ => 0
  | .parityReplay _ _ => 0
  | .watchdogExpiry _ _ => 0
  | .deviceFatalError _ => 0
  | .urgentPreemption _ => 0
  | .calibrationRun _ _ => 0
  | .calibrationStale _ _ _ => 0
  | .spareLineOrColumn _ => 0
  | .combLaserSwitch _ => 0
  | .spareCoreMove _ _ => 0
  | .coreWithdrawal _ _ => 0
  | .intervalBoundary => 0
  | .thermalCapChange _ _ => 0
  | .hostSubmission => 0
  | .submissionQueueBaseWrite _ => 0
  | .ident _ => 0
  | .mgmtFreeze _ => 0
  | .mgmtThaw _ => 0
  | .attest _ => 0
  | .urgent _ => 0
  | .mboxOtherOp _ => 0
  | .registerWindowWrite _ _ => 0
  | .hostMemoryAccess _ => 0
  | .resetRelease => 0
  | .bootStep _ => 0
  | .illegalInstruction => 0
  | .debuggerStop _ _ => 0
  | .spareHbmPseudoChannel _ => 0
  | .fibreLightReturn _ => 0
  | .powerLoss => 0

/-- The opcode of a long form (02 R45, R47). -/
def isLong (q : SeqSel) (op : Nat) : Bool :=
  match q with
  | .k => [6, 24, 25, 27, 32, 33, 34, 35, 55].contains op
  | .l => [6, 18, 20, 21, 28].contains op
  | .s => [6, 18, 20, 21, 28].contains op
  | .c => [6, 36, 56].contains op
  | .b => [6, 36, 56].contains op

/-- The word read by the map of `q`, before the checks of field values. -/
def rawDecode (q : SeqSel) (w : Nat) : Except DecodeError Instr :=
  match q with
  | .k => rawDecodeK w
  | .l => rawDecodeL w
  | .s => rawDecodeS w
  | .c => rawDecodeC w
  | .b => rawDecodeB w

/-- Row 4 of 02 R42: the instruction that the word is on the sequencer, or why it is none. -/
def decode (q : SeqSel) (w : Nat) : Except DecodeError Instr :=
  match rawDecode q w with
  | .error e => .error e
  | .ok i => if i.wellFormed q then .ok i else .error .fieldValue

/-- The little-endian number of a list of bytes (00 R4). -/
def leNat (bs : List Byte) : Nat := bs.foldr (fun b n => b.toNat + 256 * n) 0

/-- Decoding from bytes: the instruction and the bytes after it. -/
def decodeBytes (q : SeqSel) (bs : List Byte) : Except DecodeError (Instr × List Byte) :=
  if bs.length < 4 then .error .truncated
  else
    let w := leNat (bs.take 4)
    if isLong q (w / 2 ^ 26 % 64) then
      if bs.length < 8 then .error .truncated
      else (decode q (leNat (bs.take 8))).map (fun i => (i, bs.drop 8))
    else (decode q w).map (fun i => (i, bs.drop 4))

/-- The first sequencer, in the order K, L, S, C, broadcast C of the opcode table's sections, on which the word is an
instruction that a test allows. DESIGN CHOICE (log 15): a word names no sequencer of its own (02 R53 to R58). -/
def firstOf (w : Nat) (ok : Instr → Bool) : Option (SeqSel × Instr) :=
  [SeqSel.k, .l, .s, .c, .b].findSome? (fun q =>
    match decode q w with
    | .ok i => if ok i then some (q, i) else none
    | .error _ => none)

/-- The instruction that `nbits` bits are: one of that length where there is one, else one whose second word is 0. -/
def firstMap (nbits w : Nat) : Option (SeqSel × Instr) :=
  match firstOf w (fun i => decide (32 * i.words ≤ nbits)) with
  | some r => some r
  | none => firstOf w (fun _ => true)

/-- The instruction whose bits are `w`, numbered as the opcode table numbers them: the bits above `nbits` are 0. -/
def decodeTableWord (nbits w : Nat) : Option Instr := (firstMap nbits (w % 2 ^ nbits)).map (·.2)

end Sys2Proof
end

