-- ==== Sys2Proof/Config.lean ====
section
/-! DEFINITION. What the spec leaves open: free values, each an opaque constant applied to the model's own counter or to
what the value depends on, and the fixed numbers of the part. -/
namespace Sys2Proof.Config

/-- The turn that the machine takes when its agenda is empty, drawn by the model's own counter. The spec leaves the
interleaving of agents open (05 R163, 14 R381; log 2). -/
opaque freeTurn : Nat → Turn

/-- PA[47:7] of the dirty-granule bitmap that firmware gives a launch, by launch number (04 R137). The spec does not say
where it lies. -/
opaque freeDmap : Nat → Nat

/-- What decides the error of a code of a stale bank, by the model's own counter (10 R283: the code is within one of the
ideal one; log 9). -/
opaque freeCode : Nat → Nat

/-- How many bytes a copy command has written when it passes its bound, before it is reduced below its length, by the step (12 R349;
log 10). -/
opaque freePrefix : Nat → Nat

/-- Of a chain of copies that was in mid-run when its launch was frozen, and of which a copy fault stands recorded in the image: whether it
has failed; and the pages that it wrote before the freeze. An image carries neither (15 R408; log 32). By the step. -/
opaque freeChain : Nat → Bool
opaque freePages : Nat → List (BitVec 64)

/-- The hash in one-time storage of the public key of firmware, and the HSS signature of a report under the device's attestation key
(17 R438, R439): the spec gives neither key (log 14). -/
opaque keyHash : BitVec 256
opaque hssSignature : Nat → Nat

/-- 48 GiB: bytes of one HBM4 stack (01 R14, 04 R103). -/
def hbmStackBytes : Nat := 48 * 2 ^ 30
/-- Compute dies (01 R12). -/
def computeDies : Nat := 16
/-- Physical cores of a compute die (01 R12). -/
def coresPerDie : Nat := 5
/-- The broadcast die. DESIGN CHOICE (log 57): the spec numbers the compute dies alone; the model numbers the other dies after them. -/
def broadcastDie : Nat := 16
/-- The die of the task-graph machine, FD0 (01 R12). -/
def fabricDie0 : Nat := 17
/-- FD1. -/
def fabricDie1 : Nat := 18
/-- Bytes of a scratchpad frame (01 R14). -/
def frameBytes : Nat := 4 * 2 ^ 20
/-- Logical core number of the broadcast core (01 R32). -/
def bcastLcore : Nat := 64
/-- Logical core number of the handler's context (14 R387). -/
def handlerLcore : Nat := 65

end Sys2Proof.Config
end

