-- ==== Sys2Proof/Machine/State.lean ====
section
/-! DEFINITION. The state of the machine: every piece of state that the spec names, as plain data.

A field's default value is its value at reset (05 R148 for what a context holds; INVENTORY.md, State, for each rule). -/
namespace Sys2Proof.Machine

/-! ## Memory cells -/

/-- A sparse map from addresses, in one canonical form: addresses rising, no entry equal to the value an unlisted
address reads as. Bytes of memory are such a list of `Host.Cell`. -/
abbrev Memory := List Host.Cell
/-- Memory tags by 32-byte granule number (04 R130), sparse as Memory is. -/
abbrev Tags := List (Nat × BitVec 4)

/-! ## What a sequencer waits for -/

/-- The awaited item of a wait (14 R383, R384, kind in AUX0). -/
inductive Await where
  /-- `n` tokens in the token queue numbered `3a + f - 1` (01 R21, 06 R181). -/
  | token (queue n : Nat)
  /-- Room for `n` tokens in the token queue. -/
  | room (queue n : Nat)
  /-- An entry in lq n, or room for one. -/
  | lqEntry (n : Nat)
  | lqRoom (n : Nat)
  /-- An entry in sq n, or room for one. -/
  | sqEntry (n : Nat)
  | sqRoom (n : Nat)
  /-- An entry in oq. -/
  | oqEntry
  /-- An entry in iq, or room for one. -/
  | iqEntry
  | iqRoom
  /-- Buffer b in the state whose number is `st` (01 R27), or a side of it free of transfers. -/
  | buffer (b st : Nat)
  /-- Phase `n` of group g complete, or the arrival set of the phase open to this logical core (06 R198). -/
  | group (g n : Nat)
  /-- A remote reply, or acceptance of a launch (06 R188, 05 R164). -/
  | reply
  /-- A weight slot EMPTY (07 R217). -/
  | slot (n : Nat)
  /-- A decoder lane (07 R224). -/
  | lane
  /-- Room in the epilogue queue, or an epilogue stream drained (09 R271, 10 R306). -/
  | epilogue (n : Nat)
  /-- Room in the copy queue, or a ticket complete (12 R338, R346). -/
  | copyRoom
  | ticket (n : Nat)
  /-- Room for a window (10 R300). -/
  | window
  /-- Windows to be accumulated, or to end their epilogue (10 R312, R313). -/
  | windows
  /-- The broadcast core: room for a BCAST, a plan publication or its close (11 R316 to R325). -/
  | plan
  /-- A tile entry (13 R364). -/
  | tile (n : Nat)
  deriving DecidableEq, Repr

/-! ## Faults as data -/

/-- A fault about to be taken: what the frame will hold of it (14 R383, R384). -/
structure Trap where
  /-- CAUSE -/
  cause : Nat
  /-- TCODE -/
  tcode : BitVec 9 := 0
  /-- VA -/
  va : DWord := 0
  /-- LKIND -/
  lkind : Nat := 0
  /-- LVAL -/
  lval : Nat := 0
  /-- AUX0 -/
  aux0 : Nat := 0
  /-- AUX1 -/
  aux1 : Nat := 0
  /-- SRCE where it is not the sequencer itself: 4 optical bank, 5 copy queue, 6 tile entry, 7 machine, 8 hardware -/
  srce : Option Nat := none
  /-- DEFER -/
  deferred : Bool := false
  /-- the instruction retired first (06 R197: TRAP and BRK) -/
  retires : Bool := false
  /-- INSTR is 0 (14 R440) -/
  noInstr : Bool := false
  deriving DecidableEq, Repr

/-- A fault frame (14 R383), field by field. -/
structure Frame where
  /-- FSERIAL -/
  serial : Nat
  /-- SFU: entries of [3:0] register, [6:4] remaining, [7] valid, from entry 0 up -/
  sfu : List (BitVec 8)
  /-- BST: buffer states from buffer 0 up -/
  bst : List (BitVec 2)
  /-- TOK: token counts in the order of 3a + f - 1 -/
  tok : List (BitVec 4)
  /-- CPQ, EPQ, WSQ, IQ, OQ -/
  cpq : Nat
  epq : Nat
  wsq : Nat
  iq : Nat
  oq : Nat
  /-- SQ and LQ: entries of each queue -/
  sq : List Nat
  lq : List Nat
  /-- PSTATE, one byte a sequencer, and PTGT -/
  pstate : List (BitVec 8)
  ptgt : List DWord
  aux1 : Nat
  aux0 : Nat
  lkind : Nat
  lval : Nat
  /-- INSTR: first word and second word -/
  instr : Nat
  va : DWord
  /-- PCL, PCC, PCS, PCK -/
  pcs : List DWord
  launchNo : Nat
  node : Nat
  lcore : Nat
  plan : Bool
  deferred : Bool
  srce : Nat
  tcode : BitVec 9
  cause : Nat
  deriving DecidableEq, Repr

/-! ## The sequencers of a context -/

/-- A transfer waiting for its delay to end (06 R179). -/
structure Pend where
  /-- the latched target -/
  target : DWord
  /-- whether it will be made -/
  taken : Bool
  /-- delay instructions or bundles still to come -/
  left : Nat
  deriving DecidableEq, Repr

/-- A code line as a sequencer fetched it (02 R36, R43): its address and its sixteen words, word 0 lowest. -/
structure Line where
  va : DWord
  bits : BitVec 512
  deriving DecidableEq, Repr

/-- A translation: the leaf, where it stands, and its level (04 R99, R101). -/
structure Tr where
  /-- key of the leaf entry's lowest byte -/
  entry : Nat
  /-- its 128 bits -/
  leaf : Nat
  level : Nat
  deriving DecidableEq, Repr

/-- One page's part of an access (04 R112). -/
structure Seg where
  va : DWord
  len : Nat
  tr : Tr
  deriving DecidableEq, Repr

/-- A transfer of L or S, or a BDRAIN, that waits (07 R207, 09 R276). -/
structure Flight where
  /-- the stream -/
  st : BitVec 4
  /-- BOUND as it was when the transfer began to count -/
  bound : Nat
  /-- the level table as it stood when a QST issued (09 R267) -/
  table : BitVec 128 := 0
  /-- LKIND, LVAL and VA of a watchdog frame of its present wait (07 R207, R213, R225; 09 R262) -/
  names : Nat × Nat × DWord := (0, 0, 0)
  /-- the parts of its writes as they were checked and sent, write by write (09 R263) -/
  parts : List (List Seg) := []
  /-- the buffers of frames that its writes were sent to, with the number of the write (09 R270) -/
  reached : List (Nat × CtxId × BitVec 6) := []
  /-- its writes have passed their checks everywhere: no later event fails them (09 R263) -/
  accepted : Bool := false
  /-- chunks that an LDZ has delivered (07 R225) -/
  chunks : Nat := 0
  /-- a BDRAIN: windows of the context accepted from this serial on are not waited for, nor tiles that WACC.epi enters from this
  number on -/
  drain : Option (Nat × Nat) := none
  deriving DecidableEq, Repr

/-- One sequencer of a context (06 R167, R179; 02 R37, R43). -/
structure SeqState where
  /-- the program counter in the form of 02 R37. DESIGN CHOICE 0 before a node starts (log 4). -/
  pc : DWord := 0
  /-- halted (06 R175); a sequencer with no entry line is halted (05 R148) -/
  halted : Bool := true
  /-- the pending transfer -/
  pend : Option Pend := none
  /-- q0 to q7; q0 reads true whatever it holds -/
  q : Vector Bool 8 := Vector.replicate 8 false
  /-- j0 to j3 -/
  j : Regs 2 64 := Regs.zero
  /-- counted cycles of the present wait (14 R391) -/
  waited : Nat := 0
  /-- BOUND of ss.wdb as it stood when the present wait began (06 R171, R200) -/
  bound : Nat := 0
  /-- what the sequencer waits for -/
  awaiting : Option Await := none
  /-- in a bundle of C, the index of the word that waits, or of the HALT that it stopped at (14 R440) -/
  off : Nat := 0
  /-- the token queues that the fields of a waiting TKWAIT, or of its bundle, have taken a token from (06 R181) -/
  fielded : List Nat := []
  /-- the awaited buffer state was entered since the wait began (07 R221) -/
  met : Bool := false
  /-- the transfer that waits -/
  flight : Option Flight := none
  /-- replies and acknowledgements of what L or S has sent have arrived (09 R259, R269), or an LDZ has begun to deliver: it
  completes even where its context is not to go on (14 R381) -/
  acked : Bool := false
  /-- the devices that what it has sent goes to (13 R356) -/
  toward : List Nat := []
  /-- the line it executes, as fetched -/
  line : Option Line := none
  /-- the lines fetched since its last FENCE -/
  fetched : List Line := []
  deriving DecidableEq, Repr

/-! ## The load, compute and store sequencers' state (01 R25 to R29, 07, 08) -/

/-- A 16 x 64 x 32-bit register image: lane (r, c) at bit 32 * (64 r + c) (01 R25). -/
abbrev Image := BitVec 32768

/-- A declared buffer (01 R27, 07 R222). Agents: 0 L, 1 S, 2 copy engine, 3 remote. -/
structure Buffer where
  declared : Bool := false
  prod : BitVec 2 := 0
  cons : BitVec 2 := 0
  /-- 0 EMPTY, 1 FILLING, 2 FULL, 3 DRAINING -/
  st : BitVec 2 := 0
  /-- offset in the frame and length, in 64-byte units -/
  off64 : Nat := 0
  len64 : Nat := 0
  /-- FP, in bytes -/
  fp : Nat := 0
  /-- a remote producer has completed it, and writes that it has accepted are still to land (09 R264) -/
  closing : Bool := false
  deriving DecidableEq, Repr

/-- The binding of a stream register (07 R208, R212). -/
structure Binding where
  /-- DIR: bound for writing -/
  write : Bool
  bk : Bool
  buf : BitVec 6
  epi : Bool
  deriving DecidableEq, Repr

/-- What revoked a scratchpad window (04 R135, R136). -/
inductive Revocation where
  | migration
  | unmapping
  deriving DecidableEq, Repr

/-- A translation held by a bound stream (04 R136): the page it covers, and what has revoked it. -/
structure StreamPage where
  va : Nat
  size : Nat
  revoked : Option Revocation := none
  deriving DecidableEq, Repr

/-- A stream register (07 R208): fields 0 to 12 as SSET wrote them, BOUND and the binding. -/
structure Stream where
  f : Vector DWord 13 := #v[0, 0, 1, 1, 1, 0, 1, 0, 0, 0, 0, 8, 0]
  bound : BitVec 32 := 0
  bind : Option Binding := none
  pages : List StreamPage := []
  deriving DecidableEq, Repr

/-- What a weight tile was staged from (07 R217). -/
inductive TileKind where
  /-- 4-bit from SB4 -/
  | sb4
  /-- 4-bit from I4 or N4 -/
  | int4
  /-- NI8 at precision `p` -/
  | ni8 (p : Nat)
  deriving DecidableEq, Repr

/-- A weight tile (07 R217): by column, the weights along K and the exponents of the scale blocks. -/
structure Tile where
  kind : TileKind
  kw : Nat
  nc : Nat
  weights : List (List Int)
  exps : List (List Int)
  deriving DecidableEq, Repr

/-- An entry of a core's tile cache (07 R219). The list of the machine holds the most recently used first. -/
structure CachedTile where
  core : Nat × Nat
  key : List Nat
  tile : Tile
  deriving DecidableEq, Repr

/-- A pending write of a special function (08 R235). -/
structure SfuWrite where
  reg : BitVec 4
  mask : BitVec 1024
  value : Image
  /-- bundles until it lands -/
  left : Nat
  deriving DecidableEq, Repr

/-! ## The optical bank (10) -/

/-- An activation table (10 R304): entry i of a list stands in bits [32 i + 31 : 32 i]. -/
structure ActTable where
  slope : BitVec 2048 := 0
  icpt : BitVec 2048 := 0
  lo : BitVec 32 := 0
  w : Int := 0
  deriving DecidableEq, Repr

/-- What a window's status entry will say of it (10 R307, R309). -/
structure WindowFlags where
  stage : Bool := false
  invalid : Bool := false
  abort : Bool := false
  absent : Bool := false
  laser : Bool := false
  skew : Bool := false
  stale : Bool := false
  sat : Bool := false
  deriving DecidableEq, Repr

/-- What staging copied from a slot (10 R302): by column, the weights of the window and the exponent. -/
structure Staged where
  ni8 : Bool
  p : Nat
  weights : List (List Int)
  ew : List Int
  deriving DecidableEq, Repr

/-- An accepted window not yet accumulated (10 R300 to R302). -/
structure Window where
  /-- its place in the order of acceptance of the context -/
  serial : Nat
  /-- address of the WIN -/
  addr : DWord
  /-- the plan base, and the stamp offset -/
  base : Nat
  b0 : Nat
  ws : BitVec 2
  acc : BitVec 4
  kofs : Nat
  /-- the copied shape, descriptor and policy -/
  shape : DWord
  epi : DWord
  pol : DWord
  first : Bool
  last : Bool
  rel : Bool
  /-- what staging copied; none before it, and where it failed -/
  staged : Option Staged := none
  /-- what the weight port has delivered of it (10 R295), in tenths of a byte -/
  port : Nat := 0
  /-- its delivery is over -/
  ported : Bool := false
  /-- passes whose codes were delivered, and passes whose light met a stale bank (10 R283) -/
  passes : Nat := 0
  stales : List Nat := []
  /-- the sum of code 2^shift of each cell so far (10 R287), and the exponents of the rows -/
  c : List Int := []
  ea : List Int := []
  /-- D of each cell, once it is formed (10 R288) -/
  d : Option (List Nat) := none
  mask : BitVec 256 := 0
  flags : WindowFlags := {}
  deriving DecidableEq, Repr

/-- An entry of the window status queue (10 R307). -/
structure WindowStatus where
  summary : DWord
  mask : BitVec 256
  deriving DecidableEq, Repr

/-- A status entry in the order of accumulation; one that waits for the quantisation of its tile is held (10 R307). -/
structure HeldStatus where
  serial : Nat
  ready : Bool
  entry : WindowStatus
  deriving DecidableEq, Repr

/-- A tile of the epilogue queue (10 R303, R306). -/
structure EpiTile where
  /-- serial of its window; none for WACC.epi -/
  win : Option Nat
  /-- its number among the tiles that WACC.epi has entered -/
  entry : Nat := 0
  /-- the step that orders its faults (10 R310), and where the frame says it arose -/
  step : Nat
  addr : DWord
  b0 : Nat
  acc : BitVec 4
  ws : BitVec 2
  epi : DWord
  /-- BOUND of its policy; 0 takes ss.wdb when counting begins (10 R298) -/
  bound : Nat
  /-- counted cycles at the head of the queue, and the bound of them once counting has begun (14 R391) -/
  waited : Nat := 0
  limit : Option Nat := none
  /-- cycles that it has been held while the epilogue of its active bank did not wait (10 R294) -/
  idle : Nat := 0
  /-- bias and activation have been applied -/
  shaped : Bool := false
  /-- its stream access has been sent to another device or another frame, and answered (10 R303, R306) -/
  sent : Bool := false
  acked : Bool := false
  /-- the parts of its writes as they were checked and sent, write by write -/
  parts : List (List Seg) := []
  /-- the buffers of frames that its writes were sent to, with the number of the write -/
  reached : List (Nat × CtxId × BitVec 6) := []
  /-- its writes have passed their checks everywhere (09 R263) -/
  accepted : Bool := false
  /-- the devices that its access was sent to (13 R356) -/
  toward : List Nat := []
  /-- the 256 elements -/
  x : List Nat
  /-- plan base of its window; 0 for none -/
  base : Nat
  deriving DecidableEq, Repr

/-- Where a deferred fault of the bank comes from (10 R310). -/
inductive DeferredKind where
  | window
  | waccEpi
  | abort
  deriving DecidableEq, Repr

/-- A deferred fault of the bank: the step that orders it, and the fault. -/
structure Deferred where
  kind : DeferredKind
  step : Nat
  trap : Trap
  deriving DecidableEq, Repr

/-! ## The copy engine (12) -/

/-- A command of a copy queue (12 R343, R345). -/
structure CopyCmd where
  ticket : DWord
  /-- the instruction words: first, and second from bit 32 up -/
  words : Nat
  chained : Bool
  first : Bool
  last : Bool
  scope : Nat
  expect : BitVec 32
  sbuf : Bool
  dbuf : Bool
  done : Bool
  dst : DWord
  src : DWord
  len : Nat
  /-- BOUND; 0 takes ss.wdb when counting begins (12 R342) -/
  bound : Nat
  /-- step of its start -/
  started : Option Nat := none
  finished : Bool := false
  /-- the fault that it finished with: a deferred copy fault once it completes -/
  fault : Option Trap := none
  deriving DecidableEq, Repr

/-- The copy state of a context (12 R338). -/
structure CopyState where
  iseq : DWord := 0
  cseq : DWord := 0
  isOpen : Bool := false
  chain : BitVec 32 := 0xFFFFFFFF
  /-- a command of the chain that runs has failed (12 R346) -/
  failed : Bool := false
  /-- leaf entries of the pages that the chain has written -/
  pages : List Nat := []
  /-- the chain was in mid-run when its launch was frozen: what it wrote before is not known (log 32) -/
  thawed : Bool := false
  queue : List CopyCmd := []
  /-- counted cycles of the oldest command, and the bound of them once counting has begun (14 R391) -/
  waited : Nat := 0
  limit : Option Nat := none
  /-- deferred copy faults: ticket and fault -/
  faults : List (Nat × Trap) := []
  deriving DecidableEq, Repr

/-! ## Contexts -/

/-- Where a context stands (05 R154, R157, R159). -/
inductive Place where
  /-- never placed -/
  | unplaced
  /-- in bank `bank` of physical core `core` of die `die`; the broadcast core is core 0 of die 16 -/
  | bank (die core bank : Nat)
  /-- saved to the spill area; `die` is where its frame was last resident -/
  | spilled (die : Nat)
  deriving DecidableEq, Repr

/-- What a context is doing (05 R160, R161; 14 R381; 15 R416). -/
inductive Status where
  /-- no node -/
  | idle
  /-- its node may issue whenever its bank is active -/
  | running
  /-- parked on an LDXP whose reply has not arrived -/
  | parked
  /-- yielded: treated as parked until an awaited item arrives (15 R416) -/
  | yielded
  /-- stopped by a fault whose frame is not yet disposed of -/
  | stopped
  deriving DecidableEq, Repr

/-- What a request asks its home to do (13 R357, R358). -/
inductive RemoteOp where
  | load
  | store (data : List Byte)
  /-- an AMO: operation, operand and the new value of a cas -/
  | amo (op v w : Nat)
  deriving DecidableEq, Repr

/-- One page's part of a remote access: address, key of the backing, length, TCE, the leaf entry. -/
structure RemotePart where
  va : DWord
  key : Nat
  len : Nat
  tce : Bool
  entry : Nat
  deriving DecidableEq, Repr

/-- A remote access of K in flight (06 R188, R191; 13 R357 to R359). -/
structure Remote where
  op : RemoteOp
  parts : List RemotePart
  /-- LDXP: the context is parked meanwhile -/
  parks : Bool := false
  /-- the line may be held by the die's L2 afterwards -/
  caches : Bool := false
  /-- the request has been performed at its home: the value it returned, or the trap it found there -/
  performed : Option (Nat × Option Trap) := none
  /-- the reply has arrived -/
  replied : Bool := false
  deriving DecidableEq, Repr

/-- The bank image of a logical core and what is kept beside it (05 R148, R157; 06 R167). -/
structure Ctx where
  id : CtxId := ⟨0, 0⟩
  /-- ss.asid (04 R98) -/
  asid : BitVec 13 := 0
  /-- index of the running node (05 R151) -/
  node : Nat := 0
  place : Place := .unplaced
  status : Status := .idle
  /-- stopped by a debugger or by management (14 R391) -/
  debugStop : Bool := false
  /-- the step at which it last stopped for a fault (14 R386) -/
  stopAt : Nat := 0
  /-- its next issue acquires at .dev (14 R388) -/
  acquires : Bool := false
  /-- step at which its last node completed (05 R154) -/
  lastDone : Nat := 0
  /-- the four sequencers -/
  seqL : SeqState := {}
  seqC : SeqState := {}
  seqS : SeqState := {}
  seqK : SeqState := {}
  /-- x0 to x31 (06 R167); x0 reads zero -/
  x : Regs 5 64 := Regs.zero
  /-- y0 to y15 of L (07 R202) -/
  y : Regs 4 64 := Regs.zero
  /-- z0 to z15 of S (09 R257) -/
  z : Regs 4 64 := Regs.zero
  /-- a0 to a15 of C (08 R229) -/
  a : Regs 4 64 := Regs.zero
  /-- m0 to m15 of C (08 R251) -/
  m : Regs 4 64 := Regs.zero
  /-- k0 to k15 (06 R170) -/
  k : Regs 4 64 := Regs.zero
  /-- the twelve token counts, queue `3a + f - 1` from sequencer a at ring offset f (01 R20, 14 R383) -/
  tok : Vector (BitVec 4) 12 := Vector.replicate 12 0
  /-- ss.cause (06 R170) -/
  cause : DWord := 0
  /-- ss.pcl, ss.pcc, ss.pcs, ss.pck (06 R170) -/
  fpc : Regs 2 64 := Regs.zero
  /-- ss.wdb (06 R200) -/
  wdb : DWord := 0x01000000
  /-- ss.wpa0 to ss.wpa7 (04 R132) -/
  wpa : Regs 3 64 := Regs.zero
  /-- ss.wpc0 to ss.wpc7 (04 R133): LEN 5 -/
  wpc : Regs 3 64 := Vector.replicate 8 0x0500
  /-- ss.pbase (11 R322) -/
  pbase : DWord := 0
  /-- the claim of BOOST in units of 100 MHz (16 R427): 20 is none -/
  claim : Nat := 20
  /-- its last plan has closed, and PLANE is to retire (11 R325) -/
  planeDone : Bool := false
  /-- ss.pbase before its last plan closed, while PLANE is to retire (02 R52) -/
  closed : DWord := 0
  /-- the phase a waiting GSYNC has arrived in, and its group (06 R198) -/
  arrived : Option (Nat × BitVec 32) := none
  /-- the remote access of K in flight -/
  remote : Option Remote := none
  /-- the frame the core has raised and not yet written to its mailbox slot (14 R385) -/
  frameOut : Option Frame := none
  /-- lq0 to lq3, sq0 to sq3, oldest image first (01 R25) -/
  lq : Vector (List Image) 4 := Vector.replicate 4 []
  sq : Vector (List Image) 4 := Vector.replicate 4 []
  /-- oq -/
  oq : List Image := []
  /-- iq: entries of 64 indices of 32 bits -/
  iq : List (BitVec 2048) := []
  /-- v0 to v15, p0 to p63, t0 to t3 of C (08 R229); p0 reads all true. Element (i, k) of a tile stands at bit
  32 * (64 i + k). -/
  v : Regs 4 32768 := Regs.zero
  p : Regs 6 1024 := Regs.zero
  t : Regs 2 131072 := Regs.zero
  /-- bundles retired. DESIGN CHOICE 0 before a node starts (log 4). -/
  bundles : DWord := 0
  /-- pending SFU writes, in landing order -/
  sfu : List SfuWrite := []
  /-- s0 to s15 (07 R208) -/
  streams : Vector Stream (2 ^ 4) := Vector.replicate (2 ^ 4) {}
  /-- ws0 to ws3: none is EMPTY (07 R217) -/
  slots : Vector (Option Tile) (2 ^ 2) := Vector.replicate (2 ^ 2) none
  /-- buf0 to buf63 -/
  bufs : Vector Buffer (2 ^ 6) := Vector.replicate (2 ^ 6) {}
  /-- acc0 to acc15 and the plan-start copy: element (r, c) at bit 32 * (8 r + c) (10 R290) -/
  acc : Regs 4 8192 := Regs.zero
  pacc : Regs 4 8192 := Regs.zero
  /-- lvt0 to lvt7: entry i at bit 8 i (03 R80); act0 to act3 (10 R304) -/
  lvt : Regs 3 128 := Regs.zero
  act : Vector ActTable (2 ^ 2) := Vector.replicate (2 ^ 2) {}
  /-- wsh0 to wsh3, wep0 to wep3, wpol (10 R296 to R298) -/
  wsh : Regs 2 64 := Regs.zero
  wep : Regs 2 64 := Regs.zero
  wpol : DWord := 0
  /-- accepted windows, in order of acceptance, and the serial of the next -/
  wins : List Window := []
  nextWin : Nat := 0
  /-- status entries not yet queued, and the status queue, head first (10 R307) -/
  held : List HeldStatus := []
  wstat : List WindowStatus := []
  /-- the epilogue queue, head first (10 R306), and the number of the next tile that WACC.epi enters -/
  epi : List EpiTile := []
  nextTile : Nat := 0
  /-- deferred faults of the bank (10 R310), in the order recorded -/
  deferred : List Deferred := []
  /-- the copy queue of the context (12 R338) -/
  copy : CopyState := {}
  /-- tile entries that the node has fired and that are in flight, and deferred collective faults by tile index (13 R371,
  R374) -/
  tilesFired : List Nat := []
  tileFaults : List (Nat × Trap) := []
  /-- the scratchpad frame (01 R14): bytes by offset, unlisted bytes zero (05 R148) -/
  spad : Memory := []
  deriving DecidableEq, Repr

/-! ## Launches (05 R139 to R156) -/

/-- What has become of a node (05 R152 to R156). -/
inductive NodeState where
  /-- predecessors remain -/
  | blocked
  /-- in the ready pool -/
  | pooled
  /-- dispatched and not complete -/
  | running
  | done
  | discarded
  deriving DecidableEq, Repr

/-- A node of an accepted graph (05 R144), with what the machine keeps of it. -/
structure Node where
  /-- the record as read at acceptance, 512 bits -/
  record : BitVec 512
  /-- its successor list -/
  succ : List Nat := []
  /-- node deadline (05 R144, DLBACK) -/
  deadline : Nat := 0
  /-- predecessor entries still to complete or spawn (05 R152) -/
  remaining : Nat := 0
  st : NodeState := .blocked
  /-- it has executed SPAWN (05 R165) -/
  spawned : Bool := false
  /-- its lateness has been counted (05 R156) -/
  late : Bool := false
  /-- the logical core it runs as; a free node gets one when it is dispatched (05 R153) -/
  lcore : Nat := 127
  deriving DecidableEq, Repr

/-- The barrier of a group (05 R150). -/
structure Barrier where
  phase : BitVec 32 := 0
  /-- members that have arrived in the current phase -/
  arrived : List Nat := []
  deriving DecidableEq, Repr

/-- Whether a launch runs (15 R399). -/
inductive RunState where
  | running
  | freezing
  | frozen
  deriving DecidableEq, Repr

/-- A launch (05 R139). -/
structure Launch where
  /-- the launch number -/
  num : Nat
  /-- the packet as accepted -/
  packet : BitVec 1024 := 0
  asid : BitVec 13 := 0
  det : Bool := false
  abl : Bool := false
  grant : Nat := 1
  bc : Bool := false
  lcores : Nat := 1
  /-- index of the handler node, 0xFFFF for none -/
  handler : Nat := 0xFFFF
  deadline : Nat := 0
  /-- CREC and GRAPH, GTAB: full virtual addresses -/
  crec : DWord := 0
  gtab : DWord := 0
  graph : DWord := 0
  nodes : List Node := []
  /-- MEMBERS of each entry of the group table that has members, by index (05 R149) -/
  groups : List (Nat × BitVec 65) := []
  /-- barrier states by group index; one not listed is at phase 0 with no arrivals (05 R150) -/
  barriers : List (Nat × Barrier) := []
  /-- counters of the completion record (05 R143) -/
  late : Nat := 0
  firstLate : Nat := 0xFFFF
  discard : Nat := 0
  /-- run state and the step of the freeze (15 R399, R402) -/
  run : RunState := .running
  freezeStep : Nat := 0
  /-- the mailbox slot whose command freezes it; none for the handler's FREEZE -/
  freezer : Option Nat := none
  /-- PA[47:7] of the dirty-granule bitmap, as a physical address of this device (04 R137) -/
  dmap : Nat := 0
  /-- frames routed to the handler and not yet delivered: stop step and frame (14 R386, R387) -/
  frames : List (Nat × Frame) := []
  /-- the frame the handler holds -/
  held : Option Frame := none
  /-- FSERIAL of the next frame (14 R383) -/
  serial : Nat := 0
  deriving DecidableEq, Repr

/-! ## Caches of a die -/

/-- A line of a die L2 that is homed on another die or another device (04 R121, R122). -/
structure L2Line where
  /-- the caching die -/
  die : Nat
  /-- the line's number: its physical address by 64 -/
  line : Nat
  data : BitVec 512
  /-- which nibbles were written: bit `2 i + 1` stands for the high nibble of byte `i` -/
  dirty : BitVec 128 := 0
  /-- plan-clock step of the fill -/
  filled : Nat := 0
  /-- the cores of the die whose data cache holds the line, and which nibbles are dirty there (06 R193) -/
  held : List (Nat × BitVec 128) := []
  deriving DecidableEq, Repr

/-- A line kept in a die L2 by PIN (06 R193): the die, the line's number and the launch. -/
structure PinnedLine where
  die : Nat
  line : Nat
  launch : Nat
  deriving DecidableEq, Repr

/-- State of a tile-table entry; a FREE one is not listed (13 R363). -/
inductive TileState where
  | armed
  | fired
  | done
  | failed
  deriving DecidableEq, Repr

/-- An entry of the tile table (13 R361 to R363). -/
structure TileEntry where
  index : Nat
  /-- the launch it belongs to -/
  launch : Nat
  asid : Nat
  /-- the descriptor, and its ring list -/
  desc : BitVec 512
  ring : List Nat
  st : TileState := .armed
  /-- the context that fired it by CTREADY -/
  firer : Option CtxId := none
  /-- the core on which that context stood -/
  core : Option (Nat × Nat) := none
  /-- BOUND, and the step of the fire -/
  bound : Nat
  fired : Nat := 0
  /-- leaf entries of its DST pages, and those that another agent published or reopened since (13 R373) -/
  pages : List Nat := []
  lost : List Nat := []
  /-- SIG, or the fault -/
  sig : DWord := 0
  fault : Option Trap := none
  deriving DecidableEq, Repr

/-- A watchpoint hit by another agent and not yet reported (04 R134): the watcher and the frame's details. -/
structure WatchHit where
  ctx : CtxId
  va : DWord
  aux0 : Nat
  aux1 : Nat
  deriving DecidableEq, Repr

/-- A shadow write to a page whose copy on first write is still to be made (04 R127). -/
structure FirstWrite where
  /-- key of the leaf entry -/
  entry : Nat
  /-- byte offset in the page -/
  off : Nat
  data : List Byte
  /-- the bits of each byte that it writes: one nibble alone for a nibble write (03 R74) -/
  mask : Byte := 0xFF
  /-- the launch whose dirty bitmap the write marks -/
  launch : Nat
  deriving DecidableEq, Repr

/-! ## Power (16 R423 to R428) -/

/-- The clock and the claims of a compute die; frequencies in units of 100 MHz. -/
structure DiePower where
  /-- the frequency of its present cycle -/
  freq : Nat := 20
  /-- the frequency that it takes when its present cycle ends (01 R18) -/
  target : Nat := 20
  /-- how much of its present cycle is over, in 160ths of a cycle (01 R17, 16 R422) -/
  phase : Nat := 0
  /-- its claim at the last boundary -/
  claim : Nat := 20
  grace : Bool := false
  /-- it takes the next contended permit -/
  next : Bool := false
  idle : Nat := 0
  /-- it took a permit at the last boundary -/
  took : Bool := false
  /-- its thermal cap -/
  limit : Nat := 24
  deriving DecidableEq, Repr

/-! ## Light and plans (11) -/

/-- The light of an accepted BCAST (11 R319): levels of each lit row, or NI8 values of which the passes light parts. -/
structure Bcast where
  base : Nat
  b0 : Nat
  n : Nat
  t : Nat
  /-- PA: the precision where the activation enters in two parts, else 0 -/
  pa : Nat
  wp : Bool
  rows : List (List Int)
  /-- exponents of the 32 rows -/
  ea : List Int
  /-- the side-band has carried its exponents and pass descriptors (11 R320) -/
  side : Bool := false
  /-- passes whose light has begun -/
  lit : Nat := 0
  /-- the step from which the broadcast die sends it no more (11 R328) -/
  cut : Option Nat := none
  deriving DecidableEq, Repr

/-- Where a plan stands (11 R323 to R330). -/
inductive PlanPhase where
  /-- PLANB has stopped L, S and K, which complete what they have issued -/
  | stopping
  /-- the snapshot is taken: PLANB waits for the wave -/
  | opening
  /-- the wave is resident and active and the base is taken: each participant gets it once its earlier windows are over -/
  | publishing
  /-- every publication is done; PLANB has not yet retired -/
  | published
  | running
  /-- PLANE waits for the last occupied step -/
  | closing
  /-- aborted at a step: the participants are still to be told -/
  | aborting (step : Nat)
  /-- aborted: the snapshot is kept until the broadcast core's frame is disposed of -/
  | aborted
  deriving DecidableEq, Repr

/-- The plan of the broadcast core (11 R323, R324). -/
structure Plan where
  launch : Nat
  /-- the snapshot -/
  snapshot : Ctx
  /-- the logical cores of every wave -/
  waves : List (List Nat)
  /-- the running wave -/
  wave : Nat := 0
  base : Nat := 0
  phase : PlanPhase := .opening
  /-- the first step after those that the BCASTs of the wave occupy -/
  lastStep : Nat := 0
  /-- on an exporter: the participants of the joined modules can take a base (11 R323, R335) -/
  peersReady : Bool := true
  /-- on a joined module: the exporter's light was lost while the plan was open (11 R335) -/
  dark : Bool := false
  deriving DecidableEq, Repr

/-! ## The device -/

/-- A C bundle while its instructions are executed (02 R50, R52): the context before it, which operands are read from,
and what it has done so far. -/
structure Bundle where
  old : Ctx
  /-- ss.pbase before it -/
  pbase : DWord := 0
  /-- words of the bundle, and the index in it of the word that is executed -/
  words : Nat
  off : Nat := 0
  /-- queue heads taken once at the end (02 R52): lq 0 to 3, and 4 for oq -/
  takes : List Nat := []
  /-- tokens to post when it retires: queue, count, and the index of the word that posts -/
  posts : List (Nat × Nat × Nat) := []
  /-- tokens that a TKWAIT removes once the fields of every word are satisfied (02 R52, 06 R181): likewise -/
  gets : List (Nat × Nat × Nat) := []
  /-- it holds a HALT that executes: the index of its word -/
  halts : Option Nat := none
  /-- the token queues that the fields of its words take a token from, and whether one lacks its token (06 R181) -/
  taken : List Nat := []
  short : Bool := false
  /-- the transfer it opens -/
  xfer : Option Pend := none
  /-- what it waits for, and its faults, with the index of the word of each -/
  waits : List (Nat × Await) := []
  traps : List (Nat × Trap) := []
  deriving DecidableEq, Repr

/-- A reserved mailbox slot that holds a frame (14 R385): the bank that it belongs to, the stop step, and whether the frame has been
routed. It is freed when the frame is disposed of. -/
structure MailSlot where
  ctx : CtxId
  die : Nat
  core : Nat
  bank : Nat
  frame : Frame
  stop : Nat
  routed : Bool := false
  deriving DecidableEq, Repr

/-- A command slot of the management mailbox (17 R435): its eight words, whether the management core has begun the
command in word 0, and the attestation count that it has taken for it. -/
structure MboxSlot where
  w : List DWord := List.replicate 8 0
  begun : Bool := false
  count : Nat := 0
  deriving DecidableEq, Repr

/-- The machine. -/
structure State where
  /-- the sequencer in focus: the one whose instruction `exec` runs -/
  cur : SeqId := .k
  /-- the context in focus -/
  cx : Ctx := {}
  /-- every other context of every launch the device holds -/
  others : List Ctx := []
  /-- turns to come (log 2) -/
  agenda : List Turn := []
  /-- the counter that free values are drawn by (log 2) -/
  ticks : Nat := 0
  /-- the bundle being executed -/
  bun : Option Bundle := none
  /-- the number of this device in its domain (13 R354) -/
  dev : Nat := 0
  /-- the plan clock (01 R17) -/
  clock : Nat := 0
  /-- SPARES, BCW and CORES of ss.crun (01 R35) -/
  spares : BitVec 8 := 16
  bcw : Bool := true
  cores : BitVec 7 := 64
  /-- memory of every device of the domain, and the host's: byte `PA` of device `d` stands at `d * 2^48 + PA` -/
  mem : Memory := []
  tags : Tags := []
  /-- the ASID table: root table address of each ASID that has one (04 R98) -/
  asids : List (Nat × Nat) := []
  l2 : List L2Line := []
  /-- the tile caches of the cores, most recently used first (07 R219) -/
  tiles : List CachedTile := []
  pins : List PinnedLine := []
  /-- the spare core of each compute die (01 R33). DESIGN CHOICE core 4 (log 12): firmware chooses at boot. -/
  spareCores : List (Nat × Nat) := (List.range 16).map (fun d => (d, 4))
  /-- cores withdrawn (01 R34) -/
  withdrawn : List (Nat × Nat) := []
  /-- cores whose active bank is bank 1 (05 R157) -/
  bank1 : List (Nat × Nat) := []
  /-- launches held (05 R139) -/
  launches : List Launch := []
  /-- the number of the next launch accepted. DESIGN CHOICE 1 (log 11). -/
  nextLaunch : Nat := 1
  hits : List WatchHit := []
  /-- the reserved mailbox slots that hold a frame (14 R385) -/
  slots : List MailSlot := []
  /-- hardware-error reports of agents that are no cores, by the die of the mailbox and with the cause, in order of detection: the
  first 16 of a mailbox stand in its shared slots, the others wait in their agents (14 R385) -/
  reports : List (Nat × Nat) := []
  /-- contexts whose management-urgent pre-emption waits (14 R397) -/
  urgent : List CtxId := []
  /-- the compute dies' clocks; NEXT stands on the even dies (16 R424) -/
  dies : List DiePower := (List.range 16).map (fun d => { next := d % 2 == 0 })
  /-- the permits of the eight pools (16 R424) -/
  pools : List Nat := List.replicate 8 64
  /-- interval boundaries that have been (16 R425) -/
  intervals : Nat := 0
  /-- the devices present in the domain besides this one (13 R354): firmware fixes them at system start -/
  present : List Nat := []
  /-- the tile table: the entries that are not FREE, by index (13 R361) -/
  table : List TileEntry := []
  /-- the entries that frozen launches hold as recorded (15 R402) -/
  frozenTiles : List TileEntry := []
  /-- the plan of the broadcast core, and the light accepted (11) -/
  plan : Option Plan := none
  /-- plans whose snapshot is kept after an abort; one that is to open again is in phase opening (11 R330) -/
  snapshots : List Plan := []
  light : List Bcast := []
  /-- the export mask, the ports with working light, and the peer of each joined port (11 R334). DESIGN CHOICE (log 12):
  no module is joined at reset. -/
  exportMask : BitVec 4 := 0
  fibreUp : BitVec 4 := 0
  peers : List (Nat × Nat) := []
  /-- the exporter that this module is joined to (11 R333): its own broadcast die is then dark. An exporter's joined modules have told
  how many waves they run of the present plan. -/
  exporter : Option Nat := none
  peerWaves : Nat := 0
  /-- step up to which the spare comb laser module is switching in (14 R396) -/
  laser : Nat := 0
  /-- step of the last calibration run of each bank; one not listed was calibrated at step 0 (14 R395) -/
  calibrated : List ((Nat × Nat) × Nat) := []
  /-- banks whose temperature has left the band of their last run, and banks whose skew is out of tolerance -/
  drifted : List (Nat × Nat) := []
  skewed : List (Nat × Nat) := []
  /-- the spare comb laser module is not yet in use; spare wavelength lines; cores whose spare column is in use; spare
  pseudo-channels of each HBM stack; lanes that have failed on each link (01 R33) -/
  spareLaser : Bool := true
  spareLines : Nat := 4
  columnsUsed : List (Nat × Nat) := []
  spareChannels : List Nat := List.replicate 8 4
  lanesFailed : List (Nat × Nat) := []
  /-- shadow writes that wait for the copy on first write of their page (04 R127), oldest first -/
  firstWrites : List FirstWrite := []
  /-- held in reset, without power or not yet released (17 R436) -/
  held : Bool := false
  /-- BOOT and FAIL of the identity record, and the boot steps that are done (17 R436, R437) -/
  boot : BitVec 2 := 0
  fail : BitVec 10 := 0
  bootSteps : Nat := 0
  /-- the SHA-256 of the images that boot has started: the boot firmware, then the management cores' (17 R437, R439) -/
  images : List (BitVec 256) := []
  /-- one-time storage: the rollback and the attestation counter (17 R438, R439) -/
  rollback : Nat := 0
  attested : Nat := 0
  /-- the submission queue: its base, and the number of the next submission (17 R433). DESIGN CHOICE 0 (log 12): no ring lies there. -/
  subBase : DWord := 0
  subNext : Nat := 1
  /-- the management mailbox: the 16 command slots (17 R435) -/
  mbox : List MboxSlot := List.replicate 16 {}
  deriving DecidableEq, Repr

/-! ## Outcomes -/

/-- Reasons the model stops with a fault. The spec's own faults are next states: the context stops with a frame. -/
inductive Fault where
  /-- Raised by no meaning. -/
  | none
  deriving DecidableEq, Repr

/-- Reasons the model refuses. -/
inductive Refusal where
  /-- Raised by an arm of Dispatch.lean alone, for an instruction without a meaning; safe. -/
  | notModelled (mnemonic : String)
  deriving DecidableEq, Repr

/-- The machine right after reset. -/
def State.reset : State := {}

end Sys2Proof.Machine
end

