-- ==== Sys2Proof/Machine/Memory.lean ====
section
/-! DEFINITION. Sparse maps in canonical form, bytes of memory, and the bit-field helpers of the machine.

What an unlisted byte or tag reads as is 0: DESIGN CHOICE (log 1), the spec gives none. A scratchpad frame is zero where
nothing has written it (05 R148). -/
namespace Sys2Proof.Machine

/-! ## Sparse maps -/

/-- The value at `k`: `d` where the map lists none. -/
def sparseGet {α : Type} (d : α) : List (Nat × α) → Nat → α
  | [], _ => d
  | (k', v) :: m, k => if k' = k then v else sparseGet d m k

/-- The map with `v` at `k`, kept canonical: no entry equal to `d`, addresses rising. -/
def sparsePut {α : Type} [DecidableEq α] (d : α) (k : Nat) (v : α) : List (Nat × α) → List (Nat × α)
  | [] => if v = d then [] else [(k, v)]
  | (k', v') :: m =>
    if k' = k then (if v = d then m else (k, v) :: m)
    else if k < k' then (if v = d then (k', v') :: m else (k, v) :: (k', v') :: m)
    else (k', v') :: sparsePut d k v m

/-- The canonical form: addresses strictly rising from `lo` up, no entry equal to `d`. -/
def sparseWf {α : Type} [DecidableEq α] (d : α) : Nat → List (Nat × α) → Bool
  | _, [] => true
  | lo, (k, v) :: m => decide (lo ≤ k) && decide (v ≠ d) && sparseWf d (k + 1) m

/-! ## Memory -/

/-- What an unlisted byte reads as. DESIGN CHOICE (log 1). -/
def Memory.unlisted : Byte := 0

/-- The byte at an address. -/
def Memory.read (m : Memory) (a : Nat) : Byte := sparseGet Memory.unlisted m a

/-- The memory with one byte written. -/
def Memory.write (m : Memory) (a : Nat) (b : Byte) : Memory := sparsePut Memory.unlisted a b m

/-- The canonical form of a memory. -/
def Memory.wf (m : Memory) : Bool := sparseWf Memory.unlisted 0 m

/-- `n` bytes from an address, the lowest first. -/
def Memory.readN (m : Memory) (a n : Nat) : List Byte := (List.range n).map (fun i => m.read (a + i))

/-- The bytes written from an address upward. -/
def Memory.writeN (m : Memory) (a : Nat) : List Byte → Memory
  | [] => m
  | b :: bs => (m.write a b).writeN (a + 1) bs

/-- The tag of a granule (04 R130). -/
def Tags.read (t : Tags) (g : Nat) : BitVec 4 := sparseGet 0 t g
/-- The tags with one granule's tag set. -/
def Tags.write (t : Tags) (g : Nat) (v : BitVec 4) : Tags := sparsePut 0 g v t
/-- The canonical form of the tags. -/
def Tags.wf (t : Tags) : Bool := sparseWf (0 : BitVec 4) 0 t

/-- A byte with the bits of a mask replaced. -/
def mergeByte (old new mask : Byte) : Byte := (old &&& ~~~mask) ||| (new &&& mask)

/-- Write bytes from an address up, of each byte the bits of a mask (03 R74). -/
def Memory.mergeN (m : Memory) (a : Nat) (mask : Byte) (data : List Byte) : Memory :=
  m.writeN a (List.zipWith (fun o b => mergeByte o b mask) (m.readN a data.length) data)

/-! ## Numbers and bits -/

/-- The low `n` bytes of a number, the lowest first (00 R4). -/
def natBytes : Nat → Nat → List Byte
  | 0, _ => []
  | n + 1, v => BitVec.ofNat 8 v :: natBytes n (v / 256)

/-- Bits [hi:lo] of a number (00 R10). -/
def bits (v hi lo : Nat) : Nat := v / 2 ^ lo % 2 ^ (hi + 1 - lo)

/-- Bit `i` of a number. -/
def bit (v i : Nat) : Bool := v / 2 ^ i % 2 = 1

/-- The value of the low `n` bits read as signed (00 R10). -/
def signExt (v n : Nat) : Int := if v % 2 ^ n < 2 ^ (n - 1) then (v % 2 ^ n : Nat) else ((v % 2 ^ n : Nat) : Int) - 2 ^ n

/-- A 64-bit value from an integer: bits [63:0] (00 R9). -/
def dw (i : Int) : DWord := BitVec.ofInt 64 i

/-- Clamp of 00 R10. -/
def clampInt (x lo hi : Int) : Int := if x < lo then lo else if x > hi then hi else x

/-- Read an entry of an association list. -/
def look {α : Type} (l : List (Nat × α)) (k : Nat) : Option α := (l.find? (fun e => e.1 == k)).map (·.2)

/-- The association list with the entry of `k` replaced, or added at the end. -/
def upd {α : Type} (l : List (Nat × α)) (k : Nat) (v : α) : List (Nat × α) :=
  if l.any (fun e => e.1 == k) then l.map (fun e => if e.1 == k then (k, v) else e) else l ++ [(k, v)]

/-- The list with the element at `i` changed. -/
def modAt {α : Type} (l : List α) (i : Nat) (f : α → α) : List α :=
  match l, i with
  | [], _ => []
  | x :: xs, 0 => f x :: xs
  | x :: xs, i + 1 => x :: modAt xs i f

end Sys2Proof.Machine
end

