-- ==== Sys2Proof/Machine/Base.lean ====
section
/-! DEFINITION. The step monad: what an operation of the machine answers, and access to the contexts and launches.

An operation goes on with a new state, waits for an item, or takes a trap. A trap keeps the state it was found in, since
translation may have set A bits (04 R106). -/
namespace Sys2Proof.Machine

/-- Why an operation does not complete. -/
inductive Stop where
  /-- it waits; nothing of it has happened -/
  | wait (a : Await)
  /-- it faults -/
  | trap (t : Trap)
  deriving DecidableEq, Repr

/-- Operations of the machine. -/
abbrev M (α : Type) := EStateM Stop State α

/-- Take the fault of a cause. -/
def fault {α : Type} (cause : Nat) : M α := throw (.trap { cause := cause })
/-- Take the fault of a cause that names an address. -/
def faultAt {α : Type} (cause : Nat) (va : DWord) : M α := throw (.trap { cause := cause, va := va })
/-- Wait for an item. -/
def waitFor {α : Type} (a : Await) : M α := throw (.wait a)
/-- Wait unless a condition holds. -/
def waitUnless (c : Bool) (a : Await) : M Unit := if c then pure () else waitFor a
/-- Fault unless a condition holds. -/
def require (c : Bool) (cause : Nat) : M Unit := if c then pure () else fault cause

/-- An operation whose traps say more of where they arose. -/
def withTrap {α : Type} (f : Trap → Trap) (m : M α) : M α := fun s =>
  match m s with
  | .error (.trap t) s' => .error (.trap (f t)) s'
  | r => r

/-- Do an operation on each element of a list, in order. -/
def eachM {α : Type} (l : List α) (f : α → M Unit) : M Unit :=
  match l with
  | [] => pure ()
  | x :: xs => do f x; eachM xs f

/-- Do an operation on each element of a list, in order, and collect the answers. -/
def collectM {α β : Type} (l : List α) (f : α → M β) : M (List β) :=
  match l with
  | [] => pure []
  | x :: xs => do
    let y ← f x
    let ys ← collectM xs f
    pure (y :: ys)

/-! ## Contexts and launches -/

/-- Every context. -/
def State.ctxs (s : State) : List Ctx := s.cx :: s.others

/-- The context of a name. -/
def State.ctx? (s : State) (c : CtxId) : Option Ctx := s.ctxs.find? (fun x => x.id == c)

/-- Change the context of a name, wherever it is held. -/
def State.updCtx (s : State) (c : CtxId) (f : Ctx → Ctx) : State :=
  if s.cx.id = c then { s with cx := f s.cx }
  else { s with others := s.others.map (fun x => if x.id == c then f x else x) }

/-- Change every context of a launch. -/
def State.updCtxsOf (s : State) (l : Nat) (f : Ctx → Ctx) : State :=
  { s with cx := if s.cx.id.launch = l then f s.cx else s.cx,
           others := s.others.map (fun x => if x.id.launch = l then f x else x) }

/-- Bring the context of a name into focus; nothing changes where there is none. -/
def State.focus (s : State) (c : CtxId) : State :=
  if s.cx.id = c then s
  else
    match s.others.find? (fun x => x.id == c) with
    | none => s
    | some x => { s with cx := x, others := s.cx :: s.others.filter (fun y => y.id != c) }

/-- The launch of a number. -/
def State.launch? (s : State) (n : Nat) : Option Launch := s.launches.find? (fun l => l.num == n)

/-- Change the launch of a number. -/
def State.updLaunch (s : State) (n : Nat) (f : Launch → Launch) : State :=
  { s with launches := s.launches.map (fun l => if l.num == n then f l else l) }

/-- One sequencer of a context. -/
def Ctx.seq (c : Ctx) (q : SeqId) : SeqState :=
  match q with
  | .l => c.seqL
  | .c => c.seqC
  | .s => c.seqS
  | .k => c.seqK

/-- Change one sequencer of a context. -/
def Ctx.updSeq (c : Ctx) (q : SeqId) (f : SeqState → SeqState) : Ctx :=
  match q with
  | .l => { c with seqL := f c.seqL }
  | .c => { c with seqC := f c.seqC }
  | .s => { c with seqS := f c.seqS }
  | .k => { c with seqK := f c.seqK }

/-- Change every sequencer of a context. -/
def Ctx.updSeqs (c : Ctx) (f : SeqState → SeqState) : Ctx :=
  { c with seqL := f c.seqL, seqC := f c.seqC, seqS := f c.seqS, seqK := f c.seqK }

/-- The sequencers in the order of their numbers (14 R383). -/
def allSeqs : List SeqId := [.l, .c, .s, .k]

/-- The number of a sequencer (02 R36, 14 R383). -/
def seqNum (q : SeqId) : Nat :=
  match q with
  | .l => 0
  | .c => 1
  | .s => 2
  | .k => 3

/-- Change the context in focus. -/
def modCx (f : Ctx → Ctx) : M Unit := modify (fun s => { s with cx := f s.cx })

/-- Change the sequencer in focus. -/
def modSeq (f : SeqState → SeqState) : M Unit := modify (fun s => { s with cx := s.cx.updSeq s.cur f })

/-- Die and core that a context stands on. -/
def Ctx.core (c : Ctx) : Nat × Nat :=
  match c.place with
  | .bank d i _ => (d, i)
  | _ => (0, 0)

/-- The page that a stream holds covers an address, without its tag (04 R136). -/
def StreamPage.covers (p : StreamPage) (va : DWord) : Bool :=
  decide (p.va ≤ va.toNat % 2 ^ 56) && decide (va.toNat % 2 ^ 56 < p.va + p.size)

/-- A stream register that holds no translation: its next access walks afresh. -/
def Stream.unheld (t : Stream) : Stream := { t with pages := [] }

/-- What a logical core keeps from one node to the next (05 R148). -/
def Ctx.keepForNode (c : Ctx) : Ctx :=
  { ({ id := c.id } : Ctx) with
    spad := c.spad, wpa := c.wpa, wpc := c.wpc, lastDone := c.lastDone, bufs := c.bufs, acc := c.acc, pacc := c.pacc,
    lvt := c.lvt, act := c.act, wsh := c.wsh, wep := c.wep, wpol := c.wpol, pbase := c.pbase, nextWin := c.nextWin, nextTile := c.nextTile }

/-- Every engine command of the node has completed (05 R155). -/
def Ctx.enginesDone (c : Ctx) : Bool :=
  c.wins.isEmpty && c.epi.isEmpty && c.deferred.isEmpty && c.copy.queue.isEmpty && c.copy.faults.isEmpty &&
    c.tilesFired.isEmpty && c.tileFaults.isEmpty

/-- The context stands on the broadcast core (01 R32). -/
def Ctx.onBcast (c : Ctx) : Bool := c.id.lcore == Config.bcastLcore

/-- The bank of a core that issues (05 R157). -/
def State.activeBank (s : State) (core : Nat × Nat) : Nat := if s.bank1.contains core then 1 else 0

/-- The context stands in the active bank of its core. -/
def State.isActive (s : State) (c : Ctx) : Bool :=
  match c.place with
  | .bank d i b => s.activeBank (d, i) == b
  | _ => false

/-- The context stands in a bank. -/
def Ctx.placed (c : Ctx) : Bool :=
  match c.place with
  | .bank _ _ _ => true
  | _ => false

/-- The context in a bank of a core. -/
def State.inBank (s : State) (core : Nat × Nat) (b : Nat) : Option Ctx :=
  s.ctxs.find? (fun c => c.place == .bank core.1 core.2 b)

end Sys2Proof.Machine
end

