-- ==== Sys2Proof/Machine/Translate.lean ====
section
/-! DEFINITION. Virtual addresses: the walk, its checks and fates (04 R97 to R106), tags (R130, R131), watchpoints
(R132 to R134), and accesses of one or two pages (R112). -/
namespace Sys2Proof.Machine

/-- What an access does to a page (04 R105 row 4). -/
inductive Acc where
  | read
  | write
  | atomic
  /-- a shadow write (04 R125) -/
  | shadow
  /-- a code fetch (02 R41) -/
  | fetch
  deriving DecidableEq, Repr

/-- Who makes an access: its context, where it stands, and what it is (14 R383 SRCE). -/
structure Agent where
  ctx : CtxId
  asid : Nat
  die : Nat
  core : Nat
  /-- 0 L, 1 C, 2 S, 3 K, 4 optical bank, 5 copy queue, 6 ring sequencer, 7 task-graph machine -/
  srce : Nat
  pc : DWord
  /-- the core that fired the tile entry that a ring sequencer works on, or issued the FREEZE whose image is written -/
  issuer? : Option (Nat × Nat) := none
  /-- the replies to the requests of its transfer have arrived -/
  acked : Bool := false
  /-- the parts of its writes, where these have passed their checks everywhere (09 R263) -/
  accepted : Option (List (List Seg)) := none
  /-- the buffers of frames that its requests have been sent to, with the number of the write (09 R270) -/
  reached : List (Nat × CtxId × BitVec 6) := []
  deriving DecidableEq, Repr

/-- The agent that a unit of a context is. -/
def Ctx.agent (c : Ctx) (srce : Nat) (pc : DWord) : Agent :=
  { ctx := c.id, asid := c.asid.toNat, die := c.core.1, core := c.core.2, srce := srce, pc := pc }

/-- The sequencer in focus as an agent. -/
def State.agent (s : State) : Agent := { s.cx.agent (seqNum s.cur) (s.cx.seq s.cur).pc with
  acked := (s.cx.seq s.cur).acked
  accepted := ((s.cx.seq s.cur).flight.filter (·.accepted)).map (·.parts)
  reached := ((s.cx.seq s.cur).flight.map (·.reached)).getD [] }

/-! ## Fields of a leaf (04 R101, R104) -/

def Tr.home (t : Tr) : Nat := bits t.leaf 127 114
def Tr.ppn2 (t : Tr) : Nat := bits t.leaf 113 78
def Tr.ppn (t : Tr) : Nat := bits t.leaf 63 28
def Tr.kind (t : Tr) : Nat := bits t.leaf 27 26
def Tr.cmax (t : Tr) : Nat := bits t.leaf 25 24
def Tr.tce (t : Tr) : Bool := bit t.leaf 23
def Tr.spe (t : Tr) : Bool := bit t.leaf 22
def Tr.sps (t : Tr) : Bool := bit t.leaf 21
def Tr.shst (t : Tr) : Nat := bits t.leaf 20 19
def Tr.h (t : Tr) : Bool := bit t.leaf 18
def Tr.pin (t : Tr) : Bool := bit t.leaf 17
def Tr.cont (t : Tr) : Nat := bits t.leaf 16 15
def Tr.ex (t : Tr) : Bool := bit t.leaf 12
def Tr.wr (t : Tr) : Bool := bit t.leaf 11
def Tr.rd (t : Tr) : Bool := bit t.leaf 10
def Tr.spad (t : Tr) : Bool := bit t.leaf 9
/-- LCORE and SPG of a scratchpad leaf. -/
def Tr.lcore (t : Tr) : Nat := bits t.leaf 45 39
def Tr.spg (t : Tr) : Nat := bits t.leaf 38 29

/-- Address bits below the index of a level: 30 at level 2, 21 at 3, 12 at 4 (04 R99). -/
def levelShift (level : Nat) : Nat := if level ≤ 2 then 30 else if level = 3 then 21 else 12

/-- A key: a byte of a device's physical memory. -/
def key (dev pa : Nat) : Nat := dev * 2 ^ 48 + pa

/-- The 128 bits of a table entry. -/
def readEntry (m : Memory) (a : Nat) : Nat := leNat (m.readN a 16)

/-- Runs that CONT may declare at a level (04 R102); 0 where the value is not allowed. -/
def contRun (level cont : Nat) : Nat :=
  match level, cont with
  | _, 0 => 1
  | 4, 1 => 4
  | 4, 2 => 16
  | 3, 1 => 16
  | 2, 1 => 16
  | _, _ => 0

/-- An entry without its A, D and PPN fields. -/
def leafFixed (e : Nat) : Nat := e - bits e 63 28 * 2 ^ 28 - bits e 14 13 * 2 ^ 13

/-- The run of 04 R102: every leaf of it has the same fields and its place in the run as its page. DEDUCED (log 18): the
position counts in pages of the level, since a leaf's page is aligned to its own size. -/
def runOk (m : Memory) (level e ea idx : Nat) : Bool :=
  let n := contRun level (bits e 16 15)
  let unit := 2 ^ (levelShift level - 12)
  let first := idx - idx % n
  let p0 := bits (readEntry m (ea - idx % n * 16)) 63 28
  decide (0 < n) && (n == 1 || (p0 % (n * unit) == 0 &&
    (List.range n).all (fun j =>
      let ej := readEntry m (ea - idx % n * 16 + j * 16)
      leafFixed ej == leafFixed e && bits ej 63 28 == p0 + j * unit) && decide (first ≤ idx)))

/-- Row 3 of 04 R105 for a leaf at a level: no reserved value, every condition of R101 to R104. -/
def leafOk (s : State) (level e ea idx : Nat) : Bool :=
  let t : Tr := ⟨ea, e, level⟩
  decide (2 ≤ level) && bits e 8 2 == 0 && bits e 77 64 == 0 && t.kind != 3 && t.cmax != 3 &&
  (if t.spe then level == 4 && t.cont == 0 && t.shst != 3 && bits t.ppn2 35 27 == 0
   else t.ppn2 == 0 && !t.sps && t.shst == 0) &&
  (if t.spad then
     level == 4 && t.cont == 0 && t.kind != 1 && t.cmax == 0 && !t.tce && !t.spe && !t.h && t.home == s.dev &&
       decide (t.lcore ≤ 64) && bits e 63 46 == 0 && !bit e 28
   else
     t.ppn % 2 ^ (levelShift level - 12) == 0 && runOk s.mem level e ea idx &&
       (bits t.ppn 35 27 != 1 || (t.h && t.home == s.dev)))

/-- Row 3 for a table entry: only V, PA[47:13] and no LEAF (04 R100). -/
def tableOk (level e : Nat) : Bool := decide (level < 4) && bits e 127 64 == 0 && bits e 28 2 == 0

/-- Rows 2 and 3 of 04 R105: the walk from a table of a level down. DEDUCED (log 18): the rows are applied entry by
entry, as the walk meets them. DESIGN CHOICE (log 18): a table that lies outside the map of 04 R103 is read as memory, like any other;
row 5 is checked of the page alone. -/
def walk (s : State) (va : Nat) : List Nat → Nat → Except Nat Tr
  | [], _ => .error 0x083
  | level :: rest, table =>
    let shift := 48 - 9 * level
    let idx := if level = 0 then bits va 55 48 else va / 2 ^ shift % 512
    let ea := table + 16 * idx
    let e := readEntry s.mem ea
    if !bit e 0 then .error 0x081
    else if bit e 1 then
      if leafOk s level e ea idx then .ok ⟨ea, e, level⟩ else .error 0x083
    else if tableOk level e then walk s va rest (key s.dev (bits e 63 28 * 2 ^ 12))
    else .error 0x083

/-- The walk from the root table of an ASID (04 R98, R99). A root that is not aligned to 4 KiB, or lies past the 48 bits of a
physical address, breaks row 3 of R105. DESIGN CHOICE (log 50): an ASID without a root table has no page. -/
def walkRoot (s : State) (asid va : Nat) : Except Nat Tr :=
  match look s.asids asid with
  | none => .error 0x081
  | some root => if root % 4096 = 0 ∧ root < 2 ^ 48 then walk s va [0, 1, 2, 3, 4] (key s.dev root) else .error 0x083

/-- Row 4 of 04 R105. -/
def permitted (t : Tr) (k : Acc) : Bool :=
  match k with
  | .read => t.rd
  | .write => t.wr
  | .shadow => t.wr
  | .atomic => t.rd && t.wr
  | .fetch => t.ex

/-- The map of 04 R103. -/
def paOk (pa : Nat) : Bool :=
  if bits pa 47 39 = 0 then decide (bits pa 35 0 < Config.hbmStackBytes) else bits pa 47 39 == 1

/-- The physical address that a page number gives a virtual address. -/
def Tr.paOf (t : Tr) (ppn va : Nat) : Nat := ppn * 2 ^ 12 + va % 2 ^ levelShift t.level

/-- The page numbers of the visible and of the shadow backing (04 R125). -/
def Tr.visiblePpn (t : Tr) : Nat := if t.spe && t.sps then t.ppn2 else t.ppn
def Tr.shadowPpn (t : Tr) : Nat := if t.spe && !t.sps then t.ppn2 else t.ppn

/-- The visible and the shadow backing of an address, as keys. -/
def Tr.visible (t : Tr) (va : Nat) : Nat := key t.home (t.paOf t.visiblePpn va)
def Tr.shadow (t : Tr) (va : Nat) : Nat := key t.home (t.paOf t.shadowPpn va)

/-- Row 5 of 04 R105, for the backing that the access reaches; a scratchpad page has no physical address. -/
def inMap (t : Tr) (k : Acc) (va : Nat) : Bool :=
  t.spad || paOk (t.paOf (if k = .shadow then t.shadowPpn else t.visiblePpn) va)

/-- 04 R105: the translation of an access, or the cause of the first failing row. Row 5 of a remote page is its home's to
check (13 R358, `homeCheck`). -/
def translate (s : State) (asid : Nat) (k : Acc) (va : DWord) : Except Nat Tr :=
  if va.toNat / 2 ^ 60 ≠ 0 then .error 0x080
  else
    match walkRoot s asid va.toNat with
    | .error c => .error c
    | .ok t =>
      if !permitted t k then .error 0x082 else if t.home == s.dev && !inMap t k va.toNat then .error 0x086 else .ok t

/-! ## A and D bits (04 R106) -/

/-- Set bits of the second byte of an entry: 0x20 is A, 0x40 is D. -/
def setEntryBits (m : Memory) (ea : Nat) (b : Byte) : Memory := m.write (ea + 1) (m.read (ea + 1) ||| b)

/-- Set A. -/
def markA (t : Tr) : M Unit := modify (fun s => { s with mem := setEntryBits s.mem t.entry 0x20 })
/-- Set D of the leaf at an entry. -/
def setD (entry : Nat) (s : State) : State := { s with mem := setEntryBits s.mem entry 0x40 }
/-- Set D. -/
def markD (t : Tr) : M Unit := modify (setD t.entry)
/-- Set A of the leaf that an access passes rows 1 to 5 through. -/
def passA (k : Acc) (va : DWord) (t : Tr) : M Unit := if inMap t k va.toNat then markA t else pure ()

/-! ## Accesses -/

/-- An access cut at 4 KiB boundaries, which every page boundary is. -/
def cut (va : DWord) (n : Nat) : List (DWord × Nat) :=
  let room := 4096 - va.toNat % 4096
  if n ≤ room then [(va, n)] else [(va, room), (va + BitVec.ofNat 64 room, n - room)]

/-- What 04 R105 has for one part of an access; where the access crosses a page boundary, row 5 of a page of another present device
as well, since the lowest failing page sets the fate (R112 row 2). -/
def partFate (s : State) (asid : Nat) (k : Acc) (crosses : Bool) (va : DWord) : Except Nat Tr :=
  match translate s asid k va with
  | .ok t => if crosses && s.present.contains t.home && !inMap t k va.toNat then .error 0x086 else .ok t
  | .error c => .error c

/-- Translate the parts of an access: A is set on each part that passes, and the lowest failing part sets the cause
(04 R106, R112 row 2). -/
def translateAll (ag : Agent) (k : Acc) (crosses : Bool) : List (DWord × Nat) → M (List Seg)
  | [] => pure []
  | (va, n) :: rest => do
    let s ← get
    match partFate s ag.asid k crosses va with
    | .ok t => do
      passA k va t
      let r ← translateAll ag k crosses rest
      pure (⟨va, n, t⟩ :: r)
    | .error c => do
      let s ← get
      match rest with
      | [] => faultAt c va
      | (va2, _) :: _ => do
        match partFate s ag.asid k crosses va2 with
        | .ok t2 => do passA k va2 t2; faultAt c va
        | .error _ => faultAt c va

/-- Rows 1 to 3 of 04 R112. -/
def pages (ag : Agent) (k : Acc) (va : DWord) (n : Nat) : M (List Seg) := do
  let parts := cut va n
  if k = .atomic ∧ 1 < parts.length then faultAt 0x085 va
  else do
    let segs ← translateAll ag k (decide (1 < parts.length)) parts
    match segs with
    | [a, b] =>
      if a.tr.kind ≠ b.tr.kind ∨ a.tr.spad ≠ b.tr.spad then faultAt 0x084 va else pure segs
    | _ => pure segs

/-- The key of the backing that an access of a kind reaches. -/
def Seg.key (g : Seg) (k : Acc) : Nat := if k = .shadow then g.tr.shadow g.va.toNat else g.tr.visible g.va.toNat

/-- The key whose tags an access is checked against. DEDUCED (log 19): a shadow write to an OPEN page is checked against
the visible page's tags, which its copy on first write is about to bring (04 R127, R130). -/
def Seg.tagKey (g : Seg) (k : Acc) : Nat :=
  if k = .shadow ∧ g.tr.shst = 2 then g.tr.shadow g.va.toNat else g.tr.visible g.va.toNat

/-- The granules of a run of bytes. -/
def granules (a n : Nat) : List Nat := (List.range ((a + n - 1) / 32 + 1 - a / 32)).map (fun i => a / 32 + i)

/-- 04 R130, R131 for one part. -/
def tagCheck (k : Acc) (g : Seg) : M Unit := do
  let s ← get
  if g.tr.tce then
    let tag := BitVec.ofNat 4 (bits g.va.toNat 59 56)
    match (granules (g.tagKey k) g.len).find? (fun r => s.tags.read r != tag) with
    | some r => throw (.trap { cause := 0x089, va := g.va, aux0 := tag.toNat + 16 * (s.tags.read r).toNat })
    | none => pure ()
  else pure ()

/-- 0 read, 1 write, 2 atomic (14 R384). -/
def Acc.num (k : Acc) : Nat :=
  match k with
  | .read => 0
  | .fetch => 0
  | .write => 1
  | .shadow => 1
  | .atomic => 2

/-- Watchpoint `i` of a context is enabled for a kind of access and its range meets the bytes (04 R132 to R134). -/
def watches (c : Ctx) (i : BitVec 3) (k : Acc) (va n : Nat) : Bool :=
  let w := (c.wpc.get i).toNat
  let len := bits w 13 8
  let base := (c.wpa.get i).toNat % 2 ^ 56 / 2 ^ len * 2 ^ len
  bit w 0 && (match k.num with | 0 => bit w 1 | 1 => bit w 2 | _ => bit w 3) &&
    decide (va % 2 ^ 56 < base + 2 ^ len) && decide (base < va % 2 ^ 56 + n)

/-- The core that an agent is one of, or that commands it (04 R115): its own for a sequencer and the engines of a core, the one
that fired it for a ring sequencer, and none for the task-graph machine. -/
def Agent.coreOf (ag : Agent) : Option (Nat × Nat) := ag.issuer?.or (if ag.srce < 6 then some (ag.die, ag.core) else none)

/-- The agent lies within the scope of watchpoint `i`, measured from the setter's core (04 R115, R134). -/
def inWatchScope (c : Ctx) (i : BitVec 3) (ag : Agent) : Bool :=
  match bits (c.wpc.get i).toNat 7 5 with
  | 0 => ag.coreOf == some c.core && ag.srce == 3
  | 1 => ag.coreOf == some c.core
  | 2 => c.core.1 == (ag.coreOf.map (·.1)).getD ag.die
  | _ => true

/-- The eight watchpoint numbers. -/
def eight : List (BitVec 3) := [0, 1, 2, 3, 4, 5, 6, 7]

/-- Some watchpoint of the context triggers on the access. DESIGN CHOICE (log 50): the watchpoints of a context that stands
in no bank trigger on nothing. -/
def watchHit (c : Ctx) (ag : Agent) (k : Acc) (va n : Nat) : Bool :=
  c.placed && c.asid.toNat == ag.asid && eight.any (fun i => watches c i k va n && inWatchScope c i ag)

/-- The agent is a sequencer of the context's own core, in either bank; or it writes the image of a FREEZE that K of that core has
issued (15 R401 row 6). -/
def ownSequencer (c : Ctx) (ag : Agent) : Bool :=
  (c.core == (ag.die, ag.core) && decide (ag.srce < 4)) || (ag.srce == 7 && ag.coreOf == some c.core)

/-- AUX0 of "watch hit by other agent" (14 R384). DESIGN CHOICE (log 57): an agent that stands on no compute die, whose number is the
model's own and has no place in the four bits, has die 0 and core 0 there; SRCE and the logical core tell what it is. -/
def watchAux (dev : Nat) (ag : Agent) (k : Acc) : Nat :=
  let place := if ag.die < Config.computeDies then ag.die * 2 ^ 14 + ag.core * 2 ^ 18 else 0
  dev + place + ag.ctx.lcore * 2 ^ 21 + ag.srce * 2 ^ 28 + k.num * 2 ^ 32

/-- Another agent's hits are recorded against the setters of the watchpoints. -/
def noteHits (ag : Agent) (k : Acc) (va : DWord) (n : Nat) (s : State) : State :=
  { s with hits := s.hits ++ ((s.ctxs.filter (fun c => !ownSequencer c ag && watchHit c ag k va.toNat n)).map
    (fun c : Ctx => WatchHit.mk c.id va (watchAux s.dev ag k) ag.pc.toNat)) }

/-- 04 R134: the setter's own sequencer faults before the access; another agent's hit is recorded against the setter.
DEDUCED (log 20): the tag check is made before the watchpoint check. -/
def watchCheck (ag : Agent) (k : Acc) (va : DWord) (n : Nat) : M Unit := do
  let s ← get
  if s.ctxs.any (fun c => ownSequencer c ag && watchHit c ag k va.toNat n) then faultAt 0x08A va
  else set (noteHits ag k va n s)

/-- What 13 R358 checks of a remote part beyond rows 1 to 4 of 04 R105: the requester that its HOME is a present device, and
then the home row 5. -/
def homeCheck (k : Acc) (segs : List Seg) : M Unit := do
  let s ← get
  let away := segs.filter (fun g => !g.tr.spad && g.tr.home != s.dev)
  match away.find? (fun g => !s.present.contains g.tr.home), away.find? (fun g => !inMap g.tr k g.va.toNat) with
  | some g, _ => faultAt 0x283 g.va
  | none, some g => faultAt 0x086 g.va
  | none, none => pure ()

/-- Only L, S and the optical bank reach scratchpad pages, through streams (01 R30, 04 R104). DESIGN CHOICE (log 51): an access
of the task-graph machine to one faults "scratchpad access path", as K's does. -/
def reachCheck (ag : Agent) (segs : List Seg) : M Unit :=
  match segs.find? (fun g => g.tr.spad) with
  | some g => if ag.srce = 0 ∨ ag.srce = 2 ∨ ag.srce = 4 then pure () else faultAt 0x091 g.va
  | none => pure ()

/-- Every check of an access to memory, before it takes effect: translation, tags, watchpoints. -/
def checkAccess (ag : Agent) (k : Acc) (va : DWord) (n : Nat) : M (List Seg) := do
  let segs ← pages ag k va n
  reachCheck ag segs
  homeCheck k segs
  eachM segs (tagCheck k)
  watchCheck ag k va n
  pure segs

/-! ## The caches of a die (04 R114, R121 to R123) -/

/-- Home die of a physical address of local HBM (04 R121): 2h + PA[12]. -/
def homeDie (pa : Nat) : Nat := 2 * bits pa 38 36 + bits pa 12 12

/-- The page is of kind S (04 R108): a scratchpad page too, whose accesses keep their order toward the C pages. -/
def Tr.strong (t : Tr) : Bool := t.kind == 0

/-- The strength of the policy that applies: 0 NC, 1 WT, 2 WB (04 R114, 06 R187). DEDUCED (log 3): an access to an S page is
performed at its home, so that every observer sees it in program order (R110). -/
def policy (t : Tr) (pol : Nat) : Nat := if t.strong then 0 else min t.cmax (2 - pol)

/-- The agent's die holds the line in its L2 without coherence: homed on another die or another device (04 R121). Ring
sequencers and the task-graph machine cache nothing. -/
def cachesAway (s : State) (ag : Agent) (t : Tr) (k : Nat) : Bool :=
  !t.h && ag.srce < 6 && (k / 2 ^ 48 != s.dev || homeDie (k % 2 ^ 48) != ag.die)

/-- The line of a die. -/
def State.l2? (s : State) (die line : Nat) : Option L2Line := s.l2.find? (fun e => e.die == die && e.line == line)

/-- The lines of a run of bytes. -/
def linesOf (a n : Nat) : List Nat := if n = 0 then [] else (List.range ((a + n - 1) / 64 + 1 - a / 64)).map (fun i => a / 64 + i)

/-- The 64 bytes of a line as bits. -/
def lineBits (m : Memory) (line : Nat) : BitVec 512 := BitVec.ofNat 512 (leNat (m.readN (line * 64) 64))

/-- Byte `i` of a line's data. -/
def L2Line.byte (e : L2Line) (i : Nat) : Byte := BitVec.ofNat 8 (e.data.toNat / 2 ^ (8 * i))

/-- The nibbles of byte `i` that a mask writes, as a line counts them. -/
def nibbles (i : Nat) (mask : Byte) : BitVec 128 :=
  BitVec.ofNat 128 (((if mask &&& 0x0F = 0 then 0 else 1) + (if mask &&& 0xF0 = 0 then 0 else 2)) * 4 ^ i)

/-- The bits of byte `i` that a set of nibbles covers. -/
def nibbleMask (m : BitVec 128) (i : Nat) : Byte :=
  (if m.getLsbD (2 * i) then 0x0F else 0) ||| (if m.getLsbD (2 * i + 1) then 0xF0 else 0)

/-- The line with the masked bits of byte `i` written. -/
def L2Line.put (e : L2Line) (i : Nat) (b mask : Byte) (dirty : Bool) : L2Line :=
  let b := mergeByte (e.byte i) b mask
  { e with data := BitVec.ofNat 512 (e.data.toNat - bits e.data.toNat (8 * i + 7) (8 * i) * 2 ^ (8 * i) + b.toNat * 2 ^ (8 * i)),
           dirty := if dirty then e.dirty ||| nibbles i mask else e.dirty }

/-- The line as the data cache of a core of the die takes part in it (06 R193): it holds the line, with more nibbles dirty. -/
def L2Line.hold (e : L2Line) (core : Nat) (m : BitVec 128) : L2Line :=
  { e with held := upd e.held core (m ||| (look e.held core).getD 0) }

/-- Write the nibbles of a line that a set selects to its home. -/
def writeNibbles (e : L2Line) (sel : BitVec 128) (m : Memory) : Memory :=
  (List.range 64).foldl (fun m i =>
    let mask := nibbleMask sel i
    if mask = 0 then m else m.write (e.line * 64 + i) (mergeByte (m.read (e.line * 64 + i)) (e.byte i) mask)) m

/-- Write what was written of a line to its home (04 R122): two dies that wrote different nibbles of one line both keep their
writes (03 R74). -/
def writeBack (m : Memory) (e : L2Line) : Memory := writeNibbles e e.dirty m

/-- Fill a line that the die does not hold. -/
def fillLine (die line : Nat) (s : State) : State :=
  match s.l2? die line with
  | some _ => s
  | none => { s with l2 := s.l2 ++ [{ die := die, line := line, data := lineBits s.mem line, filled := s.clock }] }

/-- Change a line that a die holds. -/
def updLine (die line : Nat) (f : L2Line → L2Line) (s : State) : State :=
  { s with l2 := s.l2.map (fun e => if e.die == die && e.line == line then f e else e) }

/-- A line as an agent's access brings it into the caches: the die's L2, and for a sequencer the data cache of its core.
DESIGN CHOICE (log 3): the accesses of L, S and K fill it. -/
def bringLine (ag : Agent) (line : Nat) (m : BitVec 128) (s : State) : State :=
  let s := fillLine ag.die line s
  if ag.srce < 4 then updLine ag.die line (fun e => e.hold ag.core m) s else s

/-- Write back and drop lines of the caches that a test selects. -/
def dropLines (p : L2Line → Bool) (s : State) : State :=
  { s with mem := (s.l2.filter p).foldl writeBack s.mem, l2 := s.l2.filter (fun e => !p e) }

/-- The line with every nibble that was not written here as its home now has it. -/
def L2Line.freshen (m : Memory) (e : L2Line) : L2Line := { e with data := lineBits (writeBack m e) e.line }

/-- Lines that a test selects are stale no more: a clean one is dropped, and one that holds dirty bytes keeps these alone. DEDUCED
(log 3): 04 R121 has an acquire drop clean lines, and R111 and R117 hold for the other bytes of a dirty one too. -/
def freshLines (p : L2Line → Bool) (s : State) : State :=
  { s with l2 := (s.l2.filter (fun e => !(p e && e.dirty == 0))).map (fun e => if p e then e.freshen s.mem else e) }

/-- Write back lines of the caches that a test selects, and keep them clean. -/
def cleanLines (p : L2Line → Bool) (s : State) : State :=
  { s with mem := (s.l2.filter p).foldl writeBack s.mem,
           l2 := s.l2.map (fun e => if p e then { e with dirty := 0, held := e.held.map (fun h => (h.1, 0)) } else e) }

/-- What a core's data cache has dirty of a line. -/
def L2Line.dirtyAt (e : L2Line) (core : Nat) : BitVec 128 := e.dirty &&& (look e.held core).getD 0

/-- The data cache of a core writes back its dirty bytes of the lines; it then drops them, or keeps them clean (06 R193). -/
def cleanHeld (die core : Nat) (lines : List Nat) (drop : Bool) (s : State) : State :=
  let mine (e : L2Line) : Bool := e.die == die && lines.contains e.line
  { s with
    mem := (s.l2.filter mine).foldl (fun m e => writeNibbles e (e.dirtyAt core) m) s.mem
    l2 := s.l2.map (fun e =>
      if mine e then
        { e with
          dirty := e.dirty &&& ~~~(e.dirtyAt core)
          held := if drop then e.held.filter (fun h => h.1 != core) else e.held.map (fun h => if h.1 == core then (h.1, 0) else h) }
      else e) }

/-- Every die writes back and drops its lines of the 4 KiB from a key (04 R127 to R129, R135). -/
def dropPage (a : Nat) (s : State) : State := dropLines (fun e => e.line / 64 == a / 4096) s

/-- An access to an S page comes after every older access to S and C pages and before every younger one, for every observer
(04 R110): the die writes back and drops the lines that it holds without coherence (log 3). -/
def inOrderOf (ag : Agent) (t : Tr) (s : State) : State :=
  if t.strong && ag.srce < 6 then dropLines (fun e => e.die == ag.die) s else s

/-- The policy of a write: a stream, a copy and an epilogue retire when their writes to another device have been performed at
their home and acknowledged (09 R269, 12 R340), so they leave nothing dirty there. -/
def writePolicy (s : State) (ag : Agent) (t : Tr) (k pol : Nat) : Nat :=
  if k / 2 ^ 48 != s.dev && ag.srce != 3 then min (policy t pol) 1 else policy t pol

/-- Write the masked bits of one byte at a key: to its home, and to the line that the agent's die holds of it; or to the line
alone, which stays dirty. -/
def putByte (away : Bool) (pol : Nat) (ag : Agent) (mask : Byte) (a : Nat) (b : Byte) (s : State) : State :=
  if away && pol == 2 then
    updLine ag.die (a / 64) (fun e => e.put (a % 64) b mask true) (bringLine ag (a / 64) (nibbles (a % 64) mask) s)
  else
    let s := { s with mem := s.mem.write a (mergeByte (s.mem.read a) b mask) }
    if away then updLine ag.die (a / 64) (fun e => e.put (a % 64) b mask false) s else s

/-- Write bytes from a key upward. -/
def putBytes (away : Bool) (pol : Nat) (ag : Agent) (mask : Byte) : Nat → List Byte → State → State
  | _, [], s => s
  | a, b :: bs, s => putBytes away pol ag mask (a + 1) bs (putByte away pol ag mask a b s)

/-- Read a byte at a key through the die's lines. -/
def getByte (s : State) (away : Bool) (die a : Nat) : Byte :=
  if away then
    match s.l2? die (a / 64) with
    | some e => e.byte (a % 64)
    | none => s.mem.read a
  else s.mem.read a

/-! ## Reading and writing memory -/

/-- The base of the launch's dirty-granule bitmap: PA[47:7] (04 R137). -/
def Launch.bitmap (l : Launch) : Nat := l.dmap % 2 ^ 48 / 128 * 128

/-- The bit of the launch's dirty bitmap for a physical address (04 R137), set in memory. DESIGN CHOICE (log 36): the whole bitmap lies in
this device's address space, below 2^48. -/
def markDirty (s : State) (launch : Nat) (k : Nat) : State :=
  let pa := k % 2 ^ 48
  if k / 2 ^ 48 = s.dev ∧ bits pa 47 39 = 0 then
    match s.launch? launch with
    | none => s
    | some l =>
      let n := bits pa 38 36 * 786432 + bits pa 35 0 / 2 ^ 16
      let a := key s.dev (l.bitmap + n / 8)
      { s with mem := s.mem.write a (s.mem.read a ||| BitVec.ofNat 8 (2 ^ (n % 8))) }
  else s

/-- The frame of a logical core of the launch, resident on this device (04 R104). -/
def State.frame? (s : State) (launch lcore : Nat) : Option Ctx :=
  s.ctxs.find? (fun c => c.id == CtxId.mk launch lcore && c.placed)

/-- The bytes of a checked part, through the die's lines. -/
def fetchSeg (ag : Agent) (pol : Nat) (g : Seg) : M (List Byte) := do
  let s ← get
  if g.tr.spad then
    match s.frame? ag.ctx.launch g.tr.lcore with
    | none => faultAt 0x090 g.va
    | some c => pure (c.spad.readN (g.tr.spg * 4096 + g.va.toNat % 4096) g.len)
  else
    let a := g.key .read
    let away := cachesAway s ag g.tr a
    if away && policy g.tr pol == 0 then
      let s := dropLines (fun e => e.die == ag.die && (linesOf a g.len).contains e.line) s
      set s
      pure (s.mem.readN a g.len)
    else
      let s := if away then (linesOf a g.len).foldl (fun s l => bringLine ag l 0 s) s else s
      set s
      pure ((List.range g.len).map (fun i => getByte s away ag.die (a + i)))

/-- Read a checked part of an access. -/
def readSeg (ag : Agent) (pol : Nat) (g : Seg) : M (List Byte) := do
  modify (inOrderOf ag g.tr)
  fetchSeg ag pol g

/-- Write a checked part of an access, of each byte the bits of a mask: D and the dirty bitmap first (04 R106, R137). A shadow
write to a page whose copy is still to be made waits for it (04 R127). -/
def writeSegBits (ag : Agent) (pol : Nat) (k : Acc) (mask : Byte) (g : Seg) (data : List Byte) : M Unit := do
  let s ← get
  if g.tr.spad then
    match s.frame? ag.ctx.launch g.tr.lcore with
    | none => faultAt 0x090 g.va
    | some c => do
      markD g.tr
      modify (inOrderOf ag g.tr)
      modify (fun s => s.updCtx c.id (fun c => { c with spad := c.spad.mergeN (g.tr.spg * 4096 + g.va.toNat % 4096) mask data }))
  else do
    markD g.tr
    modify (inOrderOf ag g.tr)
    let s ← get
    let waits := k == .shadow && g.tr.spe && (g.tr.shst == 1 || s.firstWrites.any (fun f => f.entry == g.tr.entry))
    if waits then
      set { s with firstWrites := s.firstWrites ++ [FirstWrite.mk g.tr.entry (g.va.toNat % 4096) data mask ag.ctx.launch] }
    else
      let a := g.key k
      let s := markDirty s ag.ctx.launch a
      let s := if data.isEmpty then s else markDirty s ag.ctx.launch (a + data.length - 1)
      let away := cachesAway s ag g.tr a
      let p := writePolicy s ag g.tr a pol
      let s := if away && p == 0 then
          dropLines (fun e => e.die == ag.die && (linesOf a data.length).contains e.line) s else s
      set (putBytes away p ag mask a data s)

/-- Write a checked part of an access. -/
def writeSeg (ag : Agent) (pol : Nat) (k : Acc) (g : Seg) (data : List Byte) : M Unit := writeSegBits ag pol k 0xFF g data

/-- Read the parts of an access. -/
def readSegs (ag : Agent) (pol : Nat) : List Seg → M (List Byte)
  | [] => pure []
  | g :: gs => do
    let a ← readSeg ag pol g
    let b ← readSegs ag pol gs
    pure (a ++ b)

/-- Write the parts of an access, of each byte the bits of a mask. -/
def writeSegsBits (ag : Agent) (pol : Nat) (k : Acc) (mask : Byte) : List Seg → List Byte → M Unit
  | [], _ => pure ()
  | g :: gs, data => do
    writeSegBits ag pol k mask g (data.take g.len)
    writeSegsBits ag pol k mask gs (data.drop g.len)

/-- Write the parts of an access. -/
def writeSegs (ag : Agent) (pol : Nat) (k : Acc) (segs : List Seg) (data : List Byte) : M Unit := writeSegsBits ag pol k 0xFF segs data

/-- Mem[va, n] read (00 R10). -/
def readMem (ag : Agent) (pol : Nat) (va : DWord) (n : Nat) : M (List Byte) := do
  let segs ← checkAccess ag .read va n
  readSegs ag pol segs

/-- Mem[va, n] written (00 R10). -/
def writeMem (ag : Agent) (pol : Nat) (va : DWord) (data : List Byte) : M Unit := do
  let segs ← checkAccess ag .write va data.length
  writeSegs ag pol .write segs data

/-! ## The state of a shadow pair (04 R125 to R128) -/

/-- 04 R126: a shadow write must find its pair open; a writer that needs a shadow destination finds a pair. -/
def shadowCheck (needPair : Bool) (g : Seg) : M Unit :=
  if g.tr.spad || !g.tr.spe then (if needPair then faultAt 0x08E g.va else pure ())
  else if g.tr.shst = 0 then faultAt 0x08D g.va else pure ()

/-- Set SHST of an entry, bits [20:19], and invert SPS, bit [21], where asked. -/
def setShadowState (m : Memory) (ea st : Nat) (swap : Bool) : Memory :=
  let b := (m.read (ea + 2)).toNat
  let b := b - bits b 4 3 * 8 + st * 8
  let b := if swap then (if bit b 5 then b - 32 else b + 32) else b
  m.write (ea + 2) (BitVec.ofNat 8 b)

/-- Copy a page of 4 KiB with its tags, as every die has written it (04 R127). -/
def copyPage (s : State) (src dst : Nat) : State :=
  let s := dropPage dst (dropPage src s)
  { s with mem := s.mem.writeN dst (s.mem.readN src 4096),
           tags := (List.range 128).foldl (fun t i => t.write (dst / 32 + i) (s.tags.read (src / 32 + i))) s.tags }

/-- The oldest waiting shadow write (04 R127): the first to an OPEN page makes the copy and sets WRITTEN; then it is
performed. -/
def firstWrite (s : State) : State :=
  match s.firstWrites with
  | [] => s
  | f :: rest =>
    let s := { s with firstWrites := rest }
    let t : Tr := ⟨f.entry, readEntry s.mem f.entry, 4⟩
    let src := t.visible 0
    let dst := t.shadow 0
    let s := if t.shst = 1 then
        let s := copyPage (markDirty s f.launch dst) src dst
        { s with mem := setShadowState s.mem f.entry 2 false }
      else dropPage dst s
    let s := markDirty s f.launch (dst + f.off)
    { s with mem := s.mem.mergeN (dst + f.off) f.mask f.data }

end Sys2Proof.Machine
end

