-- ==== Sys2Proof/Machine/Ops.lean ====
section
/-! DEFINITION. The named operations that every instruction is made of: scalar predicates, tokens, the program counter and
transfers, taking a fault (14 R381 to R384), and the shell that runs one word of L, S or K (01 R21, 02 R46). -/
namespace Sys2Proof.Machine

/-! ## Registers of the sequencers -/

/-- x[i]; x0 reads zero (06 R167). -/
def Ctx.rx (c : Ctx) (i : BitVec 5) : DWord := if i = 0 then 0 else c.x.get i
/-- x[i] written; a write to x0 is ignored. -/
def Ctx.wx (c : Ctx) (i : BitVec 5) (v : DWord) : Ctx := if i = 0 then c else { c with x := c.x.set i v }
/-- y[i] of L; y0 reads zero (07 R202). -/
def Ctx.ry (c : Ctx) (i : BitVec 4) : DWord := if i = 0 then 0 else c.y.get i
/-- y[i] written. -/
def Ctx.wy (c : Ctx) (i : BitVec 4) (v : DWord) : Ctx := if i = 0 then c else { c with y := c.y.set i v }
/-- z[i] of S; z0 reads zero (09 R257). -/
def Ctx.rz (c : Ctx) (i : BitVec 4) : DWord := if i = 0 then 0 else c.z.get i
/-- z[i] written. -/
def Ctx.wz (c : Ctx) (i : BitVec 4) (v : DWord) : Ctx := if i = 0 then c else { c with z := c.z.set i v }
/-- a[i] of C; a0 reads zero (08 R229). -/
def Ctx.ra (c : Ctx) (i : BitVec 4) : DWord := if i = 0 then 0 else c.a.get i
/-- a[i] written. -/
def Ctx.wa (c : Ctx) (i : BitVec 4) (v : DWord) : Ctx := if i = 0 then c else { c with a := c.a.set i v }

/-- The register that a shared instruction names on a sequencer: x, y, z or a (06 R173). -/
def Ctx.rReg (c : Ctx) (q : SeqId) (i : BitVec 5) : DWord :=
  match q with
  | .k => c.rx i
  | .l => c.ry (i.setWidth 4)
  | .s => c.rz (i.setWidth 4)
  | .c => c.ra (i.setWidth 4)

/-- That register written. -/
def Ctx.wReg (c : Ctx) (q : SeqId) (i : BitVec 5) (v : DWord) : Ctx :=
  match q with
  | .k => c.wx i v
  | .l => c.wy (i.setWidth 4) v
  | .s => c.wz (i.setWidth 4) v
  | .c => c.wa (i.setWidth 4) v

/-- q[i] of a sequencer; q0 reads true (06 R167). -/
def SeqState.rq (st : SeqState) (i : BitVec 3) : Bool := i == 0 || Vector.get st.q i.toFin
/-- q[i] written; a write to q0 is ignored. -/
def SeqState.wq (st : SeqState) (i : BitVec 3) (v : Bool) : SeqState :=
  if i = 0 then st else { st with q := Vector.set st.q i.toNat v i.isLt }

/-- The context that operands are read from: in a C bundle, the one before the bundle (02 R52). -/
def State.operands (s : State) : Ctx :=
  match s.bun with
  | some b => b.old
  | none => s.cx

/-- ss.pbase of the context in focus as it stands before what its PLANB or PLANE does: 0 before a PLANB whose base has been published, the
plan's base before a PLANE that has closed it (02 R52; 11 R325, R330). -/
def State.baseBefore (s : State) : DWord :=
  if s.cx.onBcast && s.plan.any (fun p => p.launch == s.cx.id.launch && p.phase == .published) then 0
  else if s.cx.onBcast && s.cx.planeDone then s.cx.closed
  else s.cx.pbase

/-- ss.pbase as an operand: in a C bundle, the one before the bundle (02 R52). -/
def State.opBase (s : State) : DWord :=
  match s.bun with
  | some b => b.pbase
  | none => s.baseBefore

/-- Operands of the instruction. -/
def opsCx : M Ctx := do
  let s ← get
  pure s.operands

/-! ## Tokens (01 R20 to R24) -/

/-- The queue from a sequencer to the one at ring offset `f`: 3a + f - 1 (14 R383). -/
def postQueue (q : SeqId) (f : Nat) : Nat := 3 * seqNum q + f - 1
/-- The queue to a sequencer from the one at ring offset `f` forward of it. -/
def waitQueue (q : SeqId) (f : Nat) : Nat := 3 * ((seqNum q + f) % 4) + (4 - f) - 1

/-- The count of a token queue. -/
def Ctx.tokens (c : Ctx) (i : Nat) : Nat := if h : i < 12 then (c.tok[i]'h).toNat else 0
/-- The count set. -/
def Ctx.setTokens (c : Ctx) (i n : Nat) : Ctx := if h : i < 12 then { c with tok := c.tok.set i (BitVec.ofNat 4 n) h } else c

/-- The wait of a token field: its queue, where the field is 1, 2 or 3 (01 R21). -/
def fieldWait (q : SeqId) (tk : BitVec 3) : Option Nat :=
  if 1 ≤ tk.toNat ∧ tk.toNat ≤ 3 then some (waitQueue q tk.toNat) else none
/-- The post of a token field: its queue, where the field is 4, 5 or 6. -/
def fieldPost (q : SeqId) (tk : BitVec 3) : Option Nat :=
  if 4 ≤ tk.toNat ∧ tk.toNat ≤ 6 then some (postQueue q (tk.toNat - 3)) else none

/-- The queue that the field of a word still waits on: none once a waiting TKWAIT's field has had its token (06 R181). -/
def Ctx.openField (c : Ctx) (q : SeqId) (tk : BitVec 3) : Option Nat := if (c.seq q).fielded.isEmpty then fieldWait q tk else none

/-! ## Code lines and the program counter (02 R36 to R39) -/

/-- The address of the line that holds a word. -/
def lineVa (pc : DWord) : DWord := BitVec.ofNat 64 (pc.toNat / 64 * 64)
/-- The word index of a program counter. -/
def wordIx (pc : DWord) : Nat := pc.toNat / 4 % 16
/-- Word `i` of a line. -/
def Line.word (l : Line) (i : Nat) : Nat := l.bits.toNat / 2 ^ (32 * i) % 2 ^ 32

/-- Fields of a link word (02 R36). -/
def linkOwner (w : Nat) : Nat := bits w 31 30
def linkLast (w : Nat) : Bool := bit w 29
def linkOk (w : Nat) : Bool := !bit w 28 && bits w 27 24 == 0b1010
def linkNext (w : Nat) : Int := signExt (bits w 23 0) 24

/-- The link word of the line being executed; 0 where no line was fetched. -/
def SeqState.link (st : SeqState) : Nat :=
  match st.line with
  | some l => if l.va = lineVa st.pc then l.word 0 else 0
  | none => 0

/-- The program counter after `n` words from `pc`, in the line whose link word is given (02 R37 to R39). -/
def pcAfter (pc : DWord) (link n : Nat) : DWord :=
  if wordIx pc + n ≤ 15 then pc + BitVec.ofNat 64 (4 * n)
  else if linkLast link then lineVa pc + 64
  else lineVa pc + dw (64 * linkNext link) + 4

/-- One instruction or bundle of the delay is over; a transfer not taken then goes (06 R179). -/
def Pend.step (p : Pend) : Option Pend :=
  if p.left ≤ 1 then (if p.taken then some { p with left := 0 } else none) else some { p with left := p.left - 1 }

/-- The sequencer after it retires `n` words; one that the words halted stays at them (log 27). `opened` says that the words opened
a transfer. Past the last line of a chain a taken transfer is made at once (02 R39). -/
def SeqState.retire (st : SeqState) (n : Nat) (opened : Bool) : SeqState :=
  if st.halted then { st with pend := none, waited := 0, awaiting := none, met := false, flight := none, acked := false, fielded := [] }
  else
  let pc := pcAfter st.pc st.link n
  let pend := if opened then st.pend else st.pend.bind Pend.step
  let pend := if wordIx pc = 0 then pend.map (fun p => if p.taken then { p with left := 0 } else p) else pend
  { st with pc := pc, pend := pend, waited := 0, awaiting := none, met := false, flight := none, acked := false, fielded := [],
            line := if lineVa pc = lineVa st.pc ∧ wordIx st.pc < wordIx pc then st.line else none }

/-! ## Taking a fault (14 R381 to R384) -/

/-- 0x010 to 0x013: illegal instruction of a sequencer (02 R59). -/
def illegalCause (q : SeqId) : Nat := 0x010 + seqNum q

/-- The opcode map of a sequencer of a context. -/
def selOf (c : Ctx) (q : SeqId) : SeqSel :=
  match q with
  | .k => .k
  | .l => .l
  | .s => .s
  | .c => if c.onBcast then .b else .c

/-- INSTR: the words at an index of the line being executed (14 R440). -/
def instrAt (c : Ctx) (q : SeqId) (i : Nat) : Nat :=
  match (c.seq q).line with
  | none => 0
  | some l =>
    let w := l.word i
    if isLong (selOf c q) (w / 2 ^ 26 % 64) && decide (i < 15) then w + l.word (i + 1) * 2 ^ 32 else w

/-- The line at an address, as the sequencer in focus fetched it since its last FENCE, or fetched now (02 R41, R43; log 8).
VA of "instruction page" is the line's address (log 35). -/
def fetchLine (va : DWord) : M Line := do
  let s ← get
  match (s.cx.seq s.cur).fetched.find? (fun l => l.va == va) with
  | some l => pure l
  | none =>
    match translate s s.cx.asid.toNat .fetch va with
    | .error _ => throw (.trap { cause := 0x088, va := va, noInstr := true })
    | .ok t =>
      if t.spad then throw (.trap { cause := 0x088, va := va, noInstr := true })
      else if t.home != s.dev && !s.present.contains t.home then throw (.trap { cause := 0x283, va := va, noInstr := true })
      else if !inMap t .fetch va.toNat then throw (.trap { cause := 0x088, va := va, noInstr := true })
      else do
        markA t
        let b ← fetchSeg s.agent 0 ⟨va, 64, t⟩
        pure ⟨va, BitVec.ofNat 512 (leNat b)⟩

/-- From a word of the line on, the first that holds HALT of C: a HALT stands in its bundle (02 R50). -/
def haltFrom (q : SeqSel) (l : Line) : Nat → Nat → Option Nat
  | 0, _ => none
  | fuel + 1, i =>
    if 15 < i then none
    else
      let w := l.word i
      let long := isLong q (w / 2 ^ 26 % 64)
      match decode q (if long && decide (i < 15) then w + l.word (i + 1) * 2 ^ 32 else w) with
      | .ok (.halt _) => some i
      | _ => haltFrom q l fuel (i + if long then 2 else 1)

/-- A halted sequencer of the context in focus has the line of its HALT at hand: one that a record has restored (15 R408) reads it again,
so that a deferred fault is raised with the HALT as the recorded instruction (12 R350). DEDUCED (log 32): where that read fails, INSTR is
0. -/
def State.recallHalt (q : SeqId) (s : State) : State :=
  let st := s.cx.seq q
  if !st.halted || st.line.isSome then s
  else
    match fetchLine (lineVa st.pc) { s with cur := q } with
    | .ok l s' =>
      let i := (haltFrom (selOf s.cx q) l 15 (wordIx st.pc)).getD (wordIx st.pc)
      { s' with cur := s.cur, cx := s'.cx.updSeq q (fun st => { st with line := some l, off := i - wordIx st.pc }) }
    | .error _ _ => s

/-- PSTATE of a pending transfer (14 R383). -/
def pstateOf (p : Option Pend) : BitVec 8 :=
  match p with
  | none => 0
  | some p => BitVec.ofNat 8 (1 + (if p.taken then 2 else 0) + 4 * p.left)

/-- An entry of the frame's SFU field. -/
def sfuByte (w : SfuWrite) : BitVec 8 := BitVec.ofNat 8 (w.reg.toNat + 16 * w.left + 128)

/-- Commands in the copy queue, tiles in the epilogue queue, entries of the status queue. -/
def Ctx.copies (c : Ctx) : Nat := c.copy.queue.length
def Ctx.tiles (c : Ctx) : Nat := c.epi.length
def Ctx.statuses (c : Ctx) : Nat := c.wstat.length
/-- A base is taken for publication, and its plan neither closed nor aborted. DEDUCED (log 56): between two waves no plan is open for any
context (11 R322), although the frame stays guarded. -/
def PlanPhase.isOpen (p : PlanPhase) : Bool := p == .publishing || p == .published || p == .running || p == .closing

/-- A plan is open for the launch (11 R322). -/
def State.planOpen (s : State) (l : Nat) : Bool :=
  match s.plan with
  | some p => p.launch == l && p.phase.isOpen
  | none => false

/-- No other agent writes the broadcast core's frame: a plan of the launch is open (11 R327), or a later wave of it is still to see
the same light (R331). -/
def State.frameGuarded (s : State) (l : Nat) : Bool :=
  s.plan.any (fun p => p.launch == l && (p.phase.isOpen || (p.phase == .opening && p.wave != 0)))

/-- The participants of the running wave. -/
def Plan.members (p : Plan) : List Nat := (p.waves[p.wave]?).getD []

/-- A plan aborts at a step (11 R328). -/
def Plan.aborts (p : Plan) (step : Nat) : Plan := { p with phase := .aborting step }

/-- The broadcast core's context faults while PLANB stops its sequencers: PLANB is to begin anew. -/
def Plan.survives (p : Plan) (c : Ctx) : Bool := !(c.onBcast && p.launch == c.id.launch && p.phase == .stopping)

/-- The broadcast die sends the light no more from a step on (11 R328). -/
def Bcast.cutAt (b : Bcast) (step : Nat) : Bcast := { b with cut := some (min step (b.cut.getD step)) }

/-- A context as the snapshot of its plan holds it: the frame's contents, its place and its name stay (11 R323, R330), and so do its
copy queue and its collectives, whose commands run once (05 R158). -/
def Ctx.fromSnapshot (c snap : Ctx) : Ctx :=
  { snap with
    spad := c.spad, place := c.place, lastDone := c.lastDone, debugStop := c.debugStop, pbase := 0, copy := c.copy
    tilesFired := c.tilesFired, tileFaults := c.tileFaults }

/-- The bank image of the broadcast core is restored from the snapshot kept for the launch, and PLANB is to open the plan
again from its first wave (11 R330). -/
def State.restorePlan (s : State) (l : Nat) : State :=
  match s.snapshots.find? (fun p => p.launch == l) with
  | none => s
  | some p =>
    { s.updCtx ⟨l, Config.bcastLcore⟩ (fun c => c.fromSnapshot p.snapshot) with
      snapshots := s.snapshots.map (fun q => if q.launch = l then { q with phase := .opening, wave := 0, base := 0, lastStep := 0 } else q) }

/-- What the engines of other units hold of a launch goes when it ends: its tile entries become FREE (13 R363), its plan and
its snapshot go, and its light ends. -/
def State.freeEngines (s : State) (n : Nat) : State :=
  { s with
    table := s.table.filter (fun e => e.launch != n)
    plan := s.plan.filter (fun p => p.launch != n)
    snapshots := s.snapshots.filter (fun p => p.launch != n)
    light := if s.planOpen n then s.light.map (·.cutAt s.clock) else s.light }

/-- The frame of a trap of the context (14 R383). -/
def frameOf (s : State) (c : Ctx) (t : Trap) (srce instr : Nat) : Frame :=
  { serial := match s.launch? c.id.launch with | some l => l.serial | none => 0
    sfu := c.sfu.map sfuByte
    bst := c.bufs.toList.map (fun b => if b.declared then b.st else 0)
    tok := c.tok.toList
    cpq := c.copies, epq := c.tiles, wsq := c.statuses, iq := c.iq.length, oq := c.oq.length
    sq := c.sq.toList.map List.length, lq := c.lq.toList.map List.length
    pstate := allSeqs.map (fun q => pstateOf (c.seq q).pend)
    ptgt := allSeqs.map (fun q => match (c.seq q).pend with | some p => p.target | none => 0)
    aux1 := t.aux1, aux0 := t.aux0, lkind := t.lkind, lval := t.lval
    instr := if t.noInstr then 0 else instr
    va := t.va
    pcs := allSeqs.map (fun q => (c.seq q).pc)
    launchNo := c.id.launch, node := c.node, lcore := c.id.lcore
    plan := c.pbase != 0, deferred := t.deferred, srce := srce, tcode := t.tcode, cause := t.cause }

/-- A frame with what the sequencers that go on after the stop leave (14 R381): pending SFU writes, counts, buffer states and program counters. -/
def Frame.refresh (f : Frame) (s : State) : Frame :=
  let g := frameOf s s.cx { cause := f.cause } f.srce f.instr
  { f with sfu := g.sfu, bst := g.bst, tok := g.tok, iq := g.iq, oq := g.oq, sq := g.sq, lq := g.lq, pstate := g.pstate, ptgt := g.ptgt
           pcs := g.pcs }

/-- K's access gives no more: its reply is dropped, and the instruction is executed again. -/
def Ctx.dropReply (c : Ctx) (q : SeqId) : Ctx := if q = .k then { c with remote := none } else c

/-- ss.cause of a frame (06 R170). -/
def causeWord (t : Trap) : DWord := BitVec.ofNat 64 (t.tcode.toNat * 2 ^ 16 + t.cause % 2 ^ 10)

/-- A program counter of a list. -/
def heldAt (i : Nat) (l : List DWord) : DWord := (l[i]?).getD 0

/-- A token that the field of an instruction has taken goes back when the instruction is not to complete (14 R381). DEDUCED
(log 21): one whose queue has been filled meanwhile stays taken, and the instruction goes on without it. -/
def Ctx.giveBack (c : Ctx) : Ctx :=
  allSeqs.foldl (fun c q =>
    (c.seq q).fielded.foldl (fun c i =>
      if c.tokens i < 15 then (c.setTokens i (c.tokens i + 1)).updSeq q (fun st => { st with fielded := st.fielded.erase i })
      else c) c) c

/-- A sequencer at a stop (14 R381): an LDZ that has begun to deliver completes; the one that faults is to execute its instruction
again, and an LDZ goes on from the chunk that it had come to (07 R225). -/
def SeqState.stop (st : SeqState) (faulting : Bool) : SeqState :=
  let begun := st.flight.any (fun f => decide (0 < f.chunks))
  if faulting then { st with acked := false, flight := st.flight.filter (fun _ => begun) } else { st with acked := st.acked || begun }

/-- The context in focus takes a fault: it stops with its frame written out, ss.cause and the recorded program counters
take the frame's values (06 R170, 14 R381, R383). A remote access that K has sent completes and retires although another
sequencer faults (14 R381). A fault of the broadcast core aborts its open plan (11 R328). -/
def State.takeFault (s : State) (t : Trap) (srce instr : Nat) : State :=
  let s := { s with cx := s.cx.giveBack }
  let f := frameOf s s.cx t (t.srce.getD srce) instr
  { s with
    cx := { allSeqs.foldl (fun c q => c.updSeq q (fun st => st.stop (t.srce.getD srce == seqNum q))) s.cx with
      status := .stopped, cause := causeWord t, frameOut := some f, stopAt := s.clock
      remote := s.cx.remote.filter (fun _ => t.srce.getD srce != 3)
      fpc := (#v[heldAt 0 f.pcs, heldAt 1 f.pcs, heldAt 2 f.pcs, heldAt 3 f.pcs] : Vector DWord 4) }
    launches := s.launches.map (fun l => if l.num == s.cx.id.launch then { l with serial := l.serial + 1 } else l)
    plan := if s.cx.onBcast && s.planOpen s.cx.id.launch then s.plan.map (·.aborts s.clock) else s.plan.filter (fun p => p.survives s.cx)
    light := if s.cx.onBcast && s.planOpen s.cx.id.launch then s.light.map (·.cutAt s.clock) else s.light }

/-! ## Waiting (14 R391) -/

/-- The awaited item in AUX0 and AUX1 of a watchdog frame: kind, index, and the token count, phase or ticket (14 R384). -/
def Await.aux (a : Await) (c : Ctx) : Nat × Nat × Nat :=
  match a with
  | .token q _ => (0, q, c.tokens q)
  | .room q _ => (0, q, c.tokens q)
  | .lqEntry n => (1, n, 0)
  | .lqRoom n => (1, n, 0)
  | .sqEntry n => (2, n, 0)
  | .sqRoom n => (2, n, 0)
  | .oqEntry => (3, 0, 0)
  | .iqEntry => (4, 0, 0)
  | .iqRoom => (4, 0, 0)
  | .buffer b _ => (5, b, 0)
  | .group g n => (6, g, n)
  | .reply => (7, 0, 0)
  | .slot n => (8, n, 0)
  | .lane => (9, 0, 0)
  | .epilogue n => (10, n, 0)
  | .copyRoom => (11, 0, 0)
  | .ticket n => (11, 0, n)
  | .window => (12, 0, 0)
  | .windows => (12, 0, 0)
  | .plan => (12, 0, 0)
  | .tile n => (7, n, 0)

/-- The wait of a sequencer is counted against a bound (06 R200, 07 R207, 08 R232, 09 R259). A wait for the boundary of a plan is
not (11 R323), and a wait for a reply only where it is one of a transfer or of S. -/
def Await.bounded (a : Await) (q : SeqId) : Bool :=
  match a with
  | .reply => q == .l || q == .s
  | .plan => false
  | _ => true

/-- BOUND of ss.wdb (06 R200). -/
def Ctx.bound (c : Ctx) : Nat := c.wdb.toNat % 2 ^ 32

/-- A token wait or a token post: bounded by ss.wdb in a transfer too (07 R207). -/
def Await.isToken (a : Await) : Bool :=
  match a with
  | .token _ _ => true
  | .room _ _ => true
  | _ => false

/-- The bound of a sequencer's wait on an item: that of its transfer, or ss.wdb as it stood when the wait began (06 R171, 07
R207). -/
def SeqState.boundOf (st : SeqState) (a : Await) : Nat :=
  match st.flight with
  | some f => if a.isToken then st.bound else f.bound
  | none => st.bound

/-- LKIND, LVAL and VA of a watchdog frame: a transfer names its stream and the element whose access waits, an LDZ its chunk (07
R207, R213, R225); a wait for a tile entry the tile index, and one for a token neither. -/
def waitLane (a : Await) (st : SeqState) : Nat × Nat × DWord :=
  if a.isToken then (0, 0, 0)
  else
    match st.flight, a with
    | some f, _ => f.names
    | none, .tile n => (6, n, 0)
    | none, _ => (0, 0, 0)

/-- The fault of a wait past its bound (14 R391). -/
def watchdogTrap (a : Await) (c : Ctx) (st : SeqState) : Trap :=
  let (k, i, d) := a.aux c
  let (lk, lv, va) := waitLane a st
  { cause := 0x310, va := va, lkind := lk, lval := lv, aux0 := k * 2 ^ 60 + i, aux1 := d }

/-- A wait on an item: one that goes on is as it was; otherwise a wait begins, at a count of 0 and with BOUND as it stands. A
transfer's count goes on to its end, and one carried in an image goes on with the first item (14 R391, 15 R415). -/
def SeqState.await (st : SeqState) (a : Await) (bound : Nat) : SeqState :=
  if st.awaiting = some a then st
  else if st.awaiting = none then { st with awaiting := some a, bound := bound }
  else if st.flight.isSome ∧ !a.isToken then { st with awaiting := some a }
  else { st with awaiting := some a, bound := bound, waited := 0 }

/-- The sequencer in focus waits (14 R391, log 6): its cycles are counted as the clock goes on. -/
def State.wait (s : State) (a : Await) : State := { s with cx := s.cx.updSeq s.cur (fun st => st.await a s.cx.bound) }

/-- A cycle of the digital clock of a die ends with this step (01 R17, R18; 16 R422): the clock of a compute die at its own
frequency, that of the broadcast die and of the fabric dies at 2.0 GHz. -/
def State.cycleEnds (s : State) (die : Nat) : Bool :=
  match s.dies[die]? with
  | some d => decide (160 ≤ d.phase + d.freq)
  | none => s.clock % 8 == 7

/-- One step more of a die's clock. A frequency that has been set is taken as a cycle ends (01 R18). -/
def DiePower.step (d : DiePower) : DiePower :=
  { d with phase := (d.phase + d.freq) % 160, freq := if 160 ≤ d.phase + d.freq then d.target else d.freq }

/-- A frequency is set: at the end of a cycle it is taken at once, inside one as the cycle ends. -/
def DiePower.setTo (d : DiePower) (f : Nat) : DiePower := { d with target := f, freq := if d.phase = 0 then f else d.freq }

/-- Every sequencer that waits has waited one cycle more. -/
def Ctx.countWaits (c : Ctx) : Ctx :=
  c.updSeqs (fun st => if st.awaiting.isSome ∧ !st.halted then { st with waited := st.waited + 1 } else st)

/-- The oldest command of the copy queue and the head of the epilogue queue have waited one cycle more. A BOUND of 0 takes ss.wdb
as counting begins. -/
def Ctx.countEngines (c : Ctx) : Ctx :=
  { c with
    copy := match c.copy.queue with
      | [] => c.copy
      | k :: _ => { c.copy with
          waited := c.copy.waited + 1, limit := some (c.copy.limit.getD (if k.bound = 0 then c.bound else k.bound)) }
    epi := match c.epi with
      | [] => []
      | e :: rest => { e with waited := e.waited + 1, limit := some (e.limit.getD (if e.bound = 0 then c.bound else e.bound)) } :: rest }

/-- The cycles of a context are counted (14 R391): it is active in its bank, stopped neither for a fault nor by a debugger, and its
launch runs (15 R399). -/
def State.counts (s : State) (c : Ctx) : Bool :=
  s.isActive c && !c.debugStop && c.status != .stopped && c.status != .idle &&
    (match s.launch? c.id.launch with | some l => l.run == .running | none => false)

/-- The context's launch is brought to rest, and the bounds of what its steps wait on are counted (15 R402): of a transfer of L or S
whose access has been sent, of a copy that has started, of a tile that does not wait for oq. No other wait is (R399), and none of the
handler's. -/
def State.settling (s : State) (c : Ctx) : Bool :=
  s.isActive c && !c.debugStop && c.status != .stopped && c.status != .idle && c.id.lcore != Config.handlerLcore &&
    (match s.launch? c.id.launch with | some l => l.run == .freezing | none => false)

/-- L or S waits for replies to what it has sent. -/
def SeqState.sent (st : SeqState) : Bool := st.awaiting == some .reply && !st.acked

/-- OUT of an epilogue descriptor (10 R297). -/
def epiOut (d : DWord) : Bool := bit d.toNat 31

/-- Images that oq holds (01 R25). -/
def oqLimit : Nat := 4

/-- The output of a tile waits for room in oq (10 R306). -/
def EpiTile.waitsForOq (e : EpiTile) (x : Ctx) : Bool := e.shaped && !epiOut e.epi && decide (oqLimit ≤ x.oq.length)

/-- The tile waits: for its bias, for the acknowledgements of its writes, or for room in oq (10 R303, R306). -/
def EpiTile.waits (e : EpiTile) (x : Ctx) : Bool := (e.sent && !e.acked) || e.waitsForOq x

/-- One cycle more for the tiles that an epilogue holds although its head does not wait (10 R294). -/
def Ctx.ageTiles (c : Ctx) : Ctx :=
  if c.epi.head?.all (fun e => e.waits c) then c else { c with epi := c.epi.map (fun e => { e with idle := e.idle + 1 }) }

/-- One cycle more for what a launch that is brought to rest waits on. -/
def Ctx.countSettling (c : Ctx) : Ctx :=
  let step (st : SeqState) : SeqState := if st.sent then { st with waited := st.waited + 1 } else st
  let n := (({ c with seqL := step c.seqL, seqS := step c.seqS } : Ctx))
  let m := n.countEngines
  { m with
    copy := if n.copy.queue.head?.any (fun k => k.started.isSome) then m.copy else n.copy
    epi := if n.epi.head?.any (fun e => e.waitsForOq n) then n.epi else m.epi }

/-- One cycle of the clock of its die for a context; a parked one counts for its engine commands alone. -/
def State.cycle (s : State) (c : Ctx) : Ctx :=
  if !s.cycleEnds c.core.1 then c
  else
  let c := if s.isActive c then c.ageTiles else c
  if s.counts c then (if c.status == .parked then c else c.countWaits).countEngines
  else if s.settling c then c.countSettling
  else c

/-- The cycles that end with this step, in every context. -/
def State.cycles (s : State) : State :=
  { s with cx := s.cycle s.cx, others := s.others.map s.cycle, dies := s.dies.map DiePower.step }

/-! ## What has issued and is in progress -/

/-- K holds the reply of an access that its home has performed. -/
def Ctx.hasReply (c : Ctx) : Bool := c.remote.any (fun r => r.replied)

/-- A transfer of L or S has issued and is in progress (05 R158, 07 R227). -/
def Ctx.inTransfer (c : Ctx) (q : SeqId) : Bool :=
  (q == .l || q == .s) && (c.seq q).flight.any (fun f => f.drain.isNone)

/-- Parts of writes that L, S or the optical bank of a context has accepted and are still to land: those of a transfer, or of a
tile (09 R263). The number is that of 14 R383. -/
def Ctx.landing (c : Ctx) (srce : Nat) : List Seg :=
  if srce = 2 then ((c.seqS.flight.filter (·.accepted)).map (·.parts.flatten)).getD []
  else if srce = 4 then (c.epi.filter (·.accepted)).flatMap (·.parts.flatten)
  else []

/-- Accepted writes of a context are to land in the frame of a logical core of its launch. -/
def Ctx.landsOn (c : Ctx) (t : CtxId) : Bool :=
  c.id.launch == t.launch && (c.landing 2 ++ c.landing 4).any (fun g => g.tr.spad && g.tr.lcore == t.lcore)

/-- What the sequencer has issued goes on without the context being active in its bank: a transfer, an AMOS that has been sent, or
an access of K whose reply has come, or a PLANE whose plan has closed. -/
def Ctx.goesOn (c : Ctx) (q : SeqId) : Bool :=
  c.inTransfer q || (q == .s && (c.seqS.acked || c.seqS.sent)) || (q == .k && c.hasReply) || (q == .c && c.planeDone)

/-- What L, S or K has issued is to complete before it stops at an instruction boundary (14 R381; 11 R323): an access that has been
sent, a transfer that waits for replies or has them, an LDZ that has begun to deliver. -/
def Ctx.unfinished (c : Ctx) (q : SeqId) : Bool :=
  match q with
  | .k => c.remote.isSome
  | .c => false
  | _ => (c.seq q).sent || (c.seq q).acked || (c.seq q).flight.any (fun f => decide (0 < f.chunks))

/-- It waits for what another sequencer is to do: it completes nothing while the others stand still. -/
def SeqState.stalled (st : SeqState) : Bool := st.awaiting.any (fun a => a != .reply && a != .lane && a != .plan)

/-- What the sequencer of a stopped context has issued and can now complete (14 R381): an access whose reply has come, an LDZ
that has begun to deliver, or a PLANE whose plan has closed. The one that faulted completes nothing. -/
def Ctx.drains (c : Ctx) (q : SeqId) : Bool :=
  c.frameOut.any (fun f => f.srce != seqNum q) && !(c.seq q).stalled &&
    ((q == .k && c.hasReply) || (q == .c && c.planeDone) || (q != .k && (c.seq q).acked))

/-- What the sequencers of a stopped context have issued is still in flight: its frame is not yet written (14 R381). -/
def Ctx.draining (c : Ctx) : Bool :=
  (c.remote.isSome && !c.seqK.stalled) || allSeqs.any (fun q =>
    c.drains q || (c.frameOut.any (fun f => f.srce != seqNum q) && (q == .l || q == .s) && (c.seq q).sent))

/-! ## The shell of L, S and K -/

/-- The outcome of every meaning is a next state: the spec's faults and waits are states of the machine. -/
abbrev Result := Host.Outcome State Fault Refusal

/-- The sequencer in focus faults at its instruction. -/
def State.faultHere (s : State) (t : Trap) : State :=
  s.takeFault t (seqNum s.cur) (instrAt s.cx s.cur (wordIx (s.cx.seq s.cur).pc))

/-- Retire: post the token of the field, then move on. A post to a queue that holds 15 keeps the whole instruction from
taking effect (01 R22; log 21): a transfer is in flight meanwhile. `s0` is the state before the instruction. -/
def finish (s0 : State) (tk : BitVec 3) (words : Nat) (opened : Bool) (s : State) : State × Bool :=
  match fieldPost s.cur tk with
  | none => ({ s with cx := s.cx.updSeq s.cur (fun st => st.retire words opened) }, true)
  | some i =>
    if s.cx.tokens i ≥ 15 then
      (({ s0 with cx := s0.cx.updSeq s.cur (fun st => { st with flight := (s.cx.seq s.cur).flight }) } : State).wait (.room i 1), false)
    else
      let cx := s.cx.setTokens i (s.cx.tokens i + 1)
      ({ s with cx := cx.updSeq s.cur (fun st => st.retire words opened) }, true)

/-- A word of L, S or K: its token wait, its predicate, its effect, its token post, its retirement (01 R21, 02 R46).
A wait or a trap removes no token, but that `keeps` says of TKWAIT and TKPOST that their field's token stays removed while they wait
(06 R181).
An instruction that ends its own launch has no context left to retire in. -/
def runWord (qp tk : BitVec 3) (words : Nat) (op : M Unit) (s : State) (keeps : Bool := false) : State :=
  let had := (s.cx.seq s.cur).pend.isSome
  let field := s.cx.openField s.cur tk
  if field.any (fun i => s.cx.tokens i == 0) then s.wait (.token (field.getD 0) 1)
  else
    let s1 := match field with
      | some i => { s with cx := s.cx.setTokens i (s.cx.tokens i - 1) }
      | none => s
    let back (s2 : State) : State := match field with
      | some i => { s2 with cx := s2.cx.setTokens i (s2.cx.tokens i + 1) }
      | none => s2
    if !((s.cx.seq s.cur).rq qp) then (finish s tk words false s1).1
    else
      match op s1 with
      | .ok _ s2 =>
        if s2.cx.id ≠ s.cx.id then s2
        else (finish s tk words (!had && (s2.cx.seq s2.cur).pend.isSome) s2).1
      | .error (.wait a) s2 =>
        match keeps, field with
        | true, some i => ({ s2 with cx := s2.cx.updSeq s2.cur (fun st => { st with fielded := [i] }) } : State).wait a
        | _, _ => (back s2).wait a
      | .error (.trap t) s2 =>
        if t.retires then
          match finish s tk words false s2 with
          | (s3, true) => s3.takeFault t (seqNum s.cur) (instrAt s.cx s.cur (wordIx (s.cx.seq s.cur).pc))
          | (s3, false) => s3
        else (back s2).faultHere t

/-- The instruction is not one of the sequencer in focus. -/
def State.illegal (s : State) : State := s.faultHere { cause := illegalCause s.cur }

/-- A word of K. -/
def runK (h : Hq) (words : Nat) (op : M Unit) (s : State) : Result :=
  .next (if s.cur = .k then runWord h.qp h.tk words op s else s.illegal)

/-- A word of L. -/
def runL (h : Hq) (words : Nat) (op : M Unit) (s : State) : Result :=
  .next (if s.cur = .l then runWord h.qp h.tk words op s else s.illegal)

/-- A word of S. -/
def runS (h : Hq) (words : Nat) (op : M Unit) (s : State) : Result :=
  .next (if s.cur = .s then runWord h.qp h.tk words op s else s.illegal)

/-- A word of L or S. -/
def runLS (h : Hq) (words : Nat) (op : M Unit) (s : State) : Result :=
  .next (if s.cur = .l ∨ s.cur = .s then runWord h.qp h.tk words op s else s.illegal)

/-- Inside a plan the broadcast core runs nothing that a replay could not repeat (11 R326): the instruction faults
"non-replayable plan". -/
def replayable : M Unit := do
  let s ← get
  if s.cx.onBcast && s.planOpen s.cx.id.launch then fault 0x207 else pure ()

/-! ## Releases and acquires (04 R116, R121, R123) -/

/-- Perform every shadow write that waits for its page's copy (04 R127). -/
def settleWrites (s : State) : State := (List.range s.firstWrites.length).foldl (fun s _ => firstWrite s) s

/-- The machine after a release at a scope (0 .seq to 4 .sys): at .dev and .sys lines homed on another die of the device are
written back, at .sys those homed on another device (04 R121). The shadow writes that wait for the copy on first write of
their page are performed first (04 R123, R127). -/
def State.released (scope : Nat) (s : State) : State :=
  let s := settleWrites s
  if scope < 3 then s
  else cleanLines (fun e => e.die == s.cx.core.1 && (scope == 4 || e.line * 64 / 2 ^ 48 == s.dev)) s

/-- The machine after an acquire: at .dev and .sys lines homed on another die of the device are stale no more; at .sys every
line homed on another device is dropped, after writing it back (04 R121). -/
def State.acquired (scope : Nat) (s : State) : State :=
  if scope < 3 then s
  else
    let away (e : L2Line) : Bool := e.die == s.cx.core.1 && e.line * 64 / 2 ^ 48 != s.dev
    let s := if scope = 4 then dropLines away s else s
    freshLines (fun e => e.die == s.cx.core.1 && e.line * 64 / 2 ^ 48 == s.dev) s

/-- Release at a scope. -/
def release (scope : Nat) : M Unit := modify (fun s => s.released scope)

/-- Acquire at a scope. -/
def acquire (scope : Nat) : M Unit := modify (fun s => s.acquired scope)

end Sys2Proof.Machine
end

