-- ==== Sys2Proof/Machine/Flags.lean ====
section
/-! DEFINITION. The conditions that write a scalar predicate, Brirun's only flags (06 R185, 07 R202), and the writes of
scalar predicates (06 R186). -/
namespace Sys2Proof.Machine

/-- The condition of code `c` (06 R185). -/
def condition (c : Nat) (a b : DWord) : Bool :=
  match c with
  | 0 => a == b
  | 1 => a != b
  | 2 => decide (a.toInt < b.toInt)
  | 3 => decide (b.toInt ≤ a.toInt)
  | 4 => decide (a.toNat < b.toNat)
  | 5 => decide (b.toNat ≤ a.toNat)
  | 6 => (a &&& b) != 0
  | _ => (a &&& b) == 0

/-- q[d] of the sequencer in focus written; q0 keeps reading true. -/
def setQ (d : BitVec 3) (v : Bool) : M Unit := modSeq (fun st => st.wq d v)

/-- q[i] of the sequencer in focus as an operand. -/
def getQ (i : BitVec 3) : M Bool := do
  let s ← get
  pure ((s.operands.seq s.cur).rq i)

end Sys2Proof.Machine
end

