-- ==== Sys2Proof/Machine/Float.lean ====
section
/-! DEFINITION. Floating point (03 R66 to R70, R75, R76), reduction order (R91) and the special functions (R93 to R95).

A finite value is kept exact, as a sign and a natural number times a power of two; every operation computes exactly and
rounds once. -/
namespace Sys2Proof.Machine

/-! ## Formats (03 R66) -/

/-- Exponent and fraction bits of a format. -/
structure Fmt where
  ebits : Nat
  mbits : Nat
  deriving DecidableEq, Repr

def fp32 : Fmt := ⟨8, 23⟩
def bf16 : Fmt := ⟨8, 7⟩
def fp16 : Fmt := ⟨5, 10⟩

/-- Bits of a value of the format. -/
def Fmt.width (f : Fmt) : Nat := 1 + f.ebits + f.mbits
def Fmt.bias (f : Fmt) : Nat := 2 ^ (f.ebits - 1) - 1
/-- Exponent of the smallest subnormal. -/
def Fmt.emin (f : Fmt) : Int := 1 - (f.bias : Int) - f.mbits
/-- The bits of infinity. -/
def Fmt.infBits (f : Fmt) : Nat := (2 ^ f.ebits - 1) * 2 ^ f.mbits
/-- The canonical NaN. -/
def Fmt.nan (f : Fmt) : Nat := f.infBits + 2 ^ (f.mbits - 1)

/-- A value: NaN, an infinity, or (-1)^neg m 2^e. A zero keeps its sign. -/
inductive FVal where
  | nan
  | inf (neg : Bool)
  | fin (neg : Bool) (m : Nat) (e : Int)
  deriving DecidableEq, Repr

/-- The value of bits of a format. -/
def Fmt.value (f : Fmt) (w : Nat) : FVal :=
  let neg := bit w (f.ebits + f.mbits)
  let e := w / 2 ^ f.mbits % 2 ^ f.ebits
  let m := w % 2 ^ f.mbits
  if e = 2 ^ f.ebits - 1 then (if m = 0 then .inf neg else .nan)
  else if e = 0 then .fin neg m f.emin
  else .fin neg (2 ^ f.mbits + m) (f.emin + (e - 1))

/-- The sign bit of a format. -/
def Fmt.sign (f : Fmt) (neg : Bool) : Nat := if neg then 2 ^ (f.ebits + f.mbits) else 0

/-- m / 2^k rounded to the nearest, ties to even. -/
def shiftNE (m k : Nat) : Nat :=
  let q := m / 2 ^ k
  let r := m % 2 ^ k
  if 2 * r < 2 ^ k then q else if 2 ^ k < 2 * r then q + 1 else q + q % 2

/-- The magnitude m 2^e in a format, rounded by `rnd`; subnormals are kept, and what is too large goes through `cap`. -/
def Fmt.pack (f : Fmt) (rnd : Nat → Nat → Nat) (cap : Nat → Nat) (m : Nat) (e : Int) : Nat :=
  if m = 0 then 0
  else
    let q := max (Nat.log2 m + e - f.mbits) f.emin
    let m' := if q ≤ e then m * 2 ^ (e - q).toNat else rnd m (q - e).toNat
    cap ((q - f.emin).toNat * 2 ^ f.mbits + m')

/-- RoundNE (00 R10, 03 R67): the magnitude; a result too large becomes infinity. -/
def Fmt.magNE (f : Fmt) (m : Nat) (e : Int) : Nat := f.pack shiftNE (fun b => min b f.infBits) m e
/-- RoundTZ (03 R94): the magnitude, never above the largest finite one. -/
def Fmt.magTZ (f : Fmt) (m : Nat) (e : Int) : Nat := f.pack (fun m k => m / 2 ^ k) (fun b => min b (f.infBits - 1)) m e

/-- RoundNE of a value. -/
def Fmt.round (f : Fmt) (v : FVal) : Nat :=
  match v with
  | .nan => f.nan
  | .inf neg => f.sign neg + f.infBits
  | .fin neg m e => f.sign neg + f.magNE m e

/-! ## Exact arithmetic (03 R67, R68) -/

def FVal.neg (v : FVal) : FVal :=
  match v with
  | .nan => .nan
  | .inf s => .inf (!s)
  | .fin s m e => .fin (!s) m e

/-- The signed integer of a finite value at exponent `q`, at or below its own. -/
def scaleAt (s : Bool) (m : Nat) (e q : Int) : Int := (if s then -1 else 1) * (m * 2 ^ (e - q).toNat : Nat)

/-- The exact sum. A sum that is exactly zero is +0 unless both are -0 (03 R67). -/
def FVal.add (a b : FVal) : FVal :=
  match a, b with
  | .nan, _ => .nan
  | _, .nan => .nan
  | .inf s, .inf t => if s = t then .inf s else .nan
  | .inf s, .fin _ _ _ => .inf s
  | .fin _ _ _, .inf t => .inf t
  | .fin s m e, .fin t n g =>
    let q := min e g
    let i := scaleAt s m e q + scaleAt t n g q
    if i = 0 then .fin (s && t && m == 0 && n == 0) 0 q else .fin (decide (i < 0)) i.natAbs q

/-- The exact product. -/
def FVal.mul (a b : FVal) : FVal :=
  match a, b with
  | .nan, _ => .nan
  | _, .nan => .nan
  | .inf s, .inf t => .inf (s != t)
  | .inf s, .fin t n _ => if n = 0 then .nan else .inf (s != t)
  | .fin s m _, .inf t => if m = 0 then .nan else .inf (s != t)
  | .fin s m e, .fin t n g => .fin (s != t) (m * n) (e + g)

def Fmt.add (f : Fmt) (a b : Nat) : Nat := f.round ((f.value a).add (f.value b))
def Fmt.sub (f : Fmt) (a b : Nat) : Nat := f.round ((f.value a).add (f.value b).neg)
def Fmt.mul (f : Fmt) (a b : Nat) : Nat := f.round ((f.value a).mul (f.value b))
/-- a b + c, rounded once. -/
def Fmt.fma (f : Fmt) (a b c : Nat) : Nat := f.round (((f.value a).mul (f.value b)).add (f.value c))

/-- a < b for values that are not NaN; -0 and +0 are equal. -/
def FVal.lt (a b : FVal) : Bool :=
  match a, b with
  | .nan, _ => false
  | _, .nan => false
  | .inf s, .inf t => s && !t
  | .inf s, .fin _ _ _ => s
  | .fin _ _ _, .inf t => !t
  | .fin s m e, .fin t n g =>
    let q := min e g
    decide (scaleAt s m e q < scaleAt t n g q)

def FVal.isNan (a : FVal) : Bool :=
  match a with
  | .nan => true
  | _ => false

/-- a = b as numbers: false when either is NaN. -/
def FVal.eq (a b : FVal) : Bool := !a.isNan && !b.isNan && !a.lt b && !b.lt a

/-- The order of minimum and maximum: -0 below +0 (03 R70). -/
def FVal.before (a b : FVal) : Bool :=
  a.lt b || (a.eq b && (match a, b with | .fin true 0 _, .fin false 0 _ => true | _, _ => false))

/-- Minimum and maximum (03 R70). -/
def Fmt.min (f : Fmt) (a b : Nat) : Nat :=
  if (f.value a).isNan || (f.value b).isNan then f.nan else if (f.value b).before (f.value a) then b else a
def Fmt.max (f : Fmt) (a b : Nat) : Nat :=
  if (f.value a).isNan || (f.value b).isNan then f.nan else if (f.value a).before (f.value b) then b else a

/-! ## Conversions (03 R75, R76) -/

/-- Between floating-point formats. -/
def convFF (src dst : Fmt) (w : Nat) : Nat := dst.round (src.value w)

/-- An integer to floating point. -/
def convIF (dst : Fmt) (i : Int) : Nat := dst.round (.fin (decide (i < 0)) i.natAbs 0)

/-- ToInt: nearest-even, or toward zero. -/
def toInt (v : FVal) (lo hi : Int) (towardZero : Bool) : Int :=
  match v with
  | .nan => 0
  | .inf neg => if neg then lo else hi
  | .fin neg m e =>
    let n : Nat := if 0 ≤ e then m * 2 ^ e.toNat else if towardZero then m / 2 ^ (-e).toNat else shiftNE m (-e).toNat
    clampInt (if neg then -(n : Int) else n) lo hi

/-! ## Reduction order (03 R91) -/

/-- PairSum over a list that is not empty; `fuel` is at least its length. -/
def pairTree {α : Type} (op : α → α → α) (d : α) : Nat → List α → α
  | 0, _ => d
  | _ + 1, [] => d
  | _ + 1, [a] => a
  | fuel + 1, l =>
    let m := 2 ^ Nat.log2 (l.length - 1)
    op (pairTree op d fuel (l.take m)) (pairTree op d fuel (l.drop m))

/-- PairSum: the identity `d` for an empty list. -/
def pairSum {α : Type} (op : α → α → α) (d : α) (l : List α) : α := pairTree op d l.length l

/-! ## Special functions (03 R93 to R95)

The transcendental ones are computed in fixed point with 320 fraction bits and then rounded once. PRESUMED (log 16): no
operand's true result lies so near a rounding boundary that 320 bits fail to place it. -/

/-- Fraction bits of the fixed-point values. -/
def fpBits : Nat := 320

/-- Sum of `n` terms of atanh t: t^(2k+1) / (2k+1), `p` being the power so far. -/
def atanhTerms (t2 : Nat) : Nat → Nat → Nat → Nat
  | 0, _, _ => 0
  | n + 1, k, p => p / (2 * k + 1) + atanhTerms t2 n (k + 1) (p * t2 / 2 ^ fpBits)

/-- atanh of a fixed-point value at most 1/3. -/
def atanhFix (t : Nat) : Nat := atanhTerms (t * t / 2 ^ fpBits) 110 0 t

/-- ln 2 in fixed point: 2 atanh (1/3). -/
def ln2Fix : Nat := 2 * atanhFix (2 ^ fpBits / 3)

/-- Terms of the exponential series: x^k / k!. -/
def expTerms (x : Nat) : Nat → Nat → Nat → Nat
  | 0, _, _ => 0
  | n + 1, k, p => p + expTerms x n (k + 1) (p * x / 2 ^ fpBits / (k + 1))

/-- e^x in fixed point for x below 1. -/
def expFix (x : Nat) : Nat := expTerms x 80 0 (2 ^ fpBits)

/-- The fixed-point value of m 2^e. -/
def toFix (m : Nat) (e : Int) : Nat := if 0 ≤ e + fpBits then m * 2 ^ (e + fpBits).toNat else m / 2 ^ (-(e + fpBits)).toNat

/-- 2^x (03 R93, R95). -/
def Fmt.exp2 (f : Fmt) (w : Nat) : Nat :=
  match f.value w with
  | .nan => f.nan
  | .inf neg => if neg then 0 else f.infBits
  | .fin neg m e =>
    if m = 0 then f.round (.fin false 1 0)
    else if (10 : Int) ≤ Nat.log2 m + e then (if neg then 0 else f.infBits)
    else
      let x := toFix m e
      let n : Int := if neg then -((x + (2 ^ fpBits - 1)) / 2 ^ fpBits : Nat) else (x / 2 ^ fpBits : Nat)
      let frac : Nat := ((if neg then -(x : Int) else x) - n * 2 ^ fpBits).toNat
      if frac = 0 then f.round (.fin false 1 n)
      else f.round (.fin false (2 * expFix (frac * ln2Fix / 2 ^ fpBits) + 1) (n - fpBits - 1))

/-- log2 x (03 R93, R95). -/
def Fmt.log2 (f : Fmt) (w : Nat) : Nat :=
  match f.value w with
  | .nan => f.nan
  | .inf neg => if neg then f.nan else f.infBits
  | .fin neg m e =>
    if m = 0 then f.sign true + f.infBits
    else if neg then f.nan
    else
      let k := Nat.log2 m
      let x := m * 2 ^ fpBits / 2 ^ k
      let t := (x - 2 ^ fpBits) * 2 ^ fpBits / (x + 2 ^ fpBits)
      let l := 2 * atanhFix t * 2 ^ fpBits / ln2Fix
      if m = 2 ^ k then convIF f (e + k)
      else
        let r : Int := (e + k) * 2 ^ fpBits + l
        f.round (.fin (decide (r < 0)) (2 * r.natAbs + 1) (-(fpBits : Int) - 1))

/-- 1 / x (03 R93, R95). -/
def Fmt.rcp (f : Fmt) (w : Nat) : Nat :=
  match f.value w with
  | .nan => f.nan
  | .inf neg => f.sign neg
  | .fin neg m e =>
    if m = 0 then f.sign neg + f.infBits
    else
      let q := 2 ^ 128 / m
      f.round (.fin neg (2 * q + (if q * m = 2 ^ 128 then 0 else 1)) (-128 - e - 1))

/-- The integer square root, by trying bits from `n` down. -/
def isqrtBits (x : Nat) : Nat → Nat → Nat
  | 0, r => r
  | n + 1, r => isqrtBits x n (if (r + 2 ^ n) * (r + 2 ^ n) ≤ x then r + 2 ^ n else r)

/-- 1 / sqrt x (03 R93, R95). -/
def Fmt.rsq (f : Fmt) (w : Nat) : Nat :=
  match f.value w with
  | .nan => f.nan
  | .inf neg => if neg then f.nan else 0
  | .fin neg m e =>
    if m = 0 then f.sign neg + f.infBits
    else if neg then f.nan
    else
      let m' := if e % 2 = 0 then m else 2 * m
      let e' := if e % 2 = 0 then e else e - 1
      let r := isqrtBits (2 ^ 256 / m') 130 0
      f.round (.fin false (2 * r + (if r * r * m' = 2 ^ 256 then 0 else 1)) (-128 - e' / 2 - 1))

/-- tanh x rounded toward zero (03 R94, R95). Below 2^-14 the true value lies between x and its neighbour toward zero. -/
def Fmt.tanh (f : Fmt) (w : Nat) : Nat :=
  match f.value w with
  | .nan => f.nan
  | .inf neg => f.round (.fin neg 1 0)
  | .fin neg m e =>
    let top : Int := Nat.log2 m + e
    if m = 0 then f.sign neg
    else if top < -14 then f.sign neg + (f.magNE m e - 1)
    else if 6 ≤ top then f.sign neg + (f.magNE 1 0 - 1)
    else
      let y := 2 * toFix m e
      let n := y / ln2Fix
      let ex := expFix (y % ln2Fix) * 2 ^ n
      f.sign neg + f.magTZ ((ex - 2 ^ fpBits) * 2 ^ fpBits / (ex + 2 ^ fpBits)) (-(fpBits : Int))

end Sys2Proof.Machine
end

