-- ==== Sys2Proof/Machine/Formats.lean ====
section
/-! DEFINITION. Block formats: SB4 and its selection rule (03 R77 to R86), NI8 (R87, R88), and the rescale of converter
codes (R90). -/
namespace Sys2Proof.Machine

/-! ## SB4 headers (03 R78, R79) -/

/-- One step of the CRC: eight shifts of a byte value. -/
def crcShift : Nat → Nat → Nat
  | 0, c => c
  | n + 1, c => crcShift n (if bit c 7 then (2 * c % 256) ^^^ 0x07 else 2 * c % 256)

/-- Crc8 over bits [23:0] of a header. -/
def crc8 (h : Nat) : Nat := [bits h 7 0, bits h 15 8, bits h 23 16].foldl (fun c b => crcShift 8 (c ^^^ b)) 0

/-- E and the selector of block `j`. -/
def hdrE (h : Nat) : Nat := bits h 7 0
def hdrSel (h j : Nat) : Nat := bits h (9 + 2 * j) (8 + 2 * j)

/-- Rows 2 and 3 of 03 R83. -/
def hdrOk (h : Nat) : Bool := bits h 31 24 == crc8 h && hdrE h != 0xFF

/-! ## Levels (03 R80) -/

/-- Entry `i` of a level table of 16 signed bytes. -/
def lvtEntry (t : BitVec 128) (i : Nat) : Int := signExt (t.toNat / 2 ^ (8 * i) % 256) 8

def fltMags : List Int := [0, 1, 2, 3, 4, 6, 8, 12]
def nufMags : List Int := [0, 1, 2, 3, 5, 7, 10, 15]

/-- The level of a code under a selector: 0 INT, 1 FLT, 2 NUF, 3 TAB. -/
def level (sel code : Nat) (lvt : BitVec 128) : Int :=
  let sm (mags : List Int) : Int := (if bit code 3 then -1 else 1) * (mags[code % 8]?).getD 0
  match sel with
  | 0 => signExt code 4
  | 1 => sm fltMags
  | 2 => sm nufMags
  | _ => lvtEntry lvt code

/-- The value of an SB4 element as FP32 (03 R75, R81). -/
def sb4Value (e : Nat) (l : Int) : Nat :=
  if e = 0 then 0 else fp32.round (.fin (decide (l < 0)) l.natAbs (e - 127))

/-! ## The selection rule (03 R85) -/

/-- x 2^(-e) clamped to -15 .. 15, as an integer over 2^k. -/
def clampY (x : FVal) (e : Int) : Int × Nat :=
  match x with
  | .nan => (0, 0)
  | .inf neg => (if neg then -15 else 15, 0)
  | .fin neg m g =>
    let q := g - e
    let k := (-q).toNat
    let i : Int := (if neg then -1 else 1) * (m * 2 ^ q.toNat : Nat)
    (clampInt i (-15 * 2 ^ k) (15 * 2 ^ k), k)

/-- A code is better than another for y: nearer, then of the smaller |L|, then of the positive L. -/
def betterLevel (y : Int) (k : Nat) (l l' : Int) : Bool :=
  let d := (y - l * 2 ^ k).natAbs
  let d' := (y - l' * 2 ^ k).natAbs
  decide (d < d') || (d == d' && (decide (l.natAbs < l'.natAbs) || (l.natAbs == l'.natAbs && decide (l' < l))))

/-- Nearest (03 R85): the lowest-numbered best code. -/
def nearest (y : Int) (k sel : Nat) (lvt : BitVec 128) : Nat :=
  (List.range 16).foldl (fun b c => if betterLevel y k (level sel c lvt) (level sel b lvt) then c else b) 0

/-- The squared error of a code: d = RoundNE(y - L), then RoundNE(d d). -/
def sqErr (y : Int) (k : Nat) (l : Int) : Nat :=
  let i := y - l * 2 ^ k
  let d := fp32.round (.fin (decide (i < 0)) i.natAbs (-(k : Int)))
  fp32.mul d d

/-- Codes and error of one selector over a selector block. -/
def trySel (ys : List (Int × Nat)) (sel : Nat) (lvt : BitVec 128) : Nat × List Nat :=
  let cs := ys.map (fun y => nearest y.1 y.2 sel lvt)
  (pairSum fp32.add 0 (List.zipWith (fun y c => sqErr y.1 y.2 (level sel c lvt)) ys cs), cs)

/-- The best selector of a block: error, selector, codes; a tie goes to the lowest selector. -/
def bestSel (ys : List (Int × Nat)) (tab : Bool) (lvt : BitVec 128) : Nat × List Nat :=
  let r := ((if tab then [1, 2, 3] else [1, 2]).foldl (fun (b : Nat × Nat × List Nat) s =>
    let t := trySel ys s lvt
    if t.1 < b.1 then (t.1, s, t.2) else b) ((trySel ys 0 lvt).1, 0, (trySel ys 0 lvt).2))
  (r.2.1, r.2.2)

/-- The smallest n with 15 2^n >= m 2^q, kept within -126 .. 127. -/
def blockExp (m : Nat) (q : Int) : Int :=
  let t := Nat.log2 m + q
  let n := t - 3
  clampInt (if m * 8 ≤ 15 * 2 ^ Nat.log2 m then n else n + 1) (-126) 127

/-- What the selection rule gives: header, 256 codes, overflow. -/
structure Quantised where
  header : Nat
  codes : List Nat
  ovf : Bool
  deriving DecidableEq, Repr

/-- Quantise (03 R85) on 256 FP32 inputs; none where one is NaN. -/
def quantise (xs : List Nat) (tab : Bool) (lvt : BitVec 128) : Option Quantised :=
  if xs.any (fun x => (fp32.value x).isNan) then none
  else
    let amax := xs.foldl (fun a x => max a (x % 2 ^ 31)) 0
    if amax = 0 then some ⟨crc8 0 * 2 ^ 24, List.replicate 256 0, false⟩
    else
      let ovf := amax == fp32.infBits
      let e : Int := match fp32.value amax with | .fin _ m q => blockExp m q | _ => 127
      let blocks := (List.range 8).map (fun j =>
        bestSel ((xs.drop (32 * j)).take 32 |>.map (fun x => clampY (fp32.value x) e)) tab lvt)
      let sels := ((List.range 8).map (fun j => ((blocks[j]?).getD (0, [])).1 * 4 ^ j)).foldl (· + ·) 0
      let h := (e + 127).toNat + 256 * sels
      some ⟨h + crc8 h * 2 ^ 24, blocks.flatMap (·.2), ovf⟩

/-- The 128 code bytes of 256 codes: even elements in the low nibble (03 R77). -/
def codeBytes : List Nat → List Byte
  | a :: b :: rest => BitVec.ofNat 8 (a % 16 + 16 * b) :: codeBytes rest
  | [a] => [BitVec.ofNat 8 (a % 16)]
  | [] => []

/-! ## NI8 (03 R87, R88) -/

/-- Element `i` of a group whose 64 bytes are given, read from planes 0 to p - 1. -/
def ni8Elem (grp : List Byte) (p i : Nat) : Int :=
  signExt ((List.range p).foldl (fun v j =>
    2 * v + (if bit ((grp[8 * j + i / 8]?).getD 0).toNat (i % 8) then 1 else 0)) 0) p

/-- The 64 bytes of a group of 64 values of 8 bits. -/
def ni8Group (vs : List Nat) : List Byte :=
  (List.range 64).map (fun k => BitVec.ofNat 8 ((List.range 8).foldl (fun b i =>
    b + (if bit ((vs[8 * (k % 8) + i]?).getD 0) (7 - k / 8) then 2 ^ i else 0)) 0))

/-! ## Rescaling (03 R90) -/

/-- D = RoundNE(code 2^(sh + Ea + Ew)). -/
def rescale (code : Int) (sh : Nat) (ea ew : Int) : Nat :=
  if code = 0 then 0 else fp32.round (.fin (decide (code < 0)) code.natAbs (sh + ea + ew))

end Sys2Proof.Machine
end

