-- ==== Sys2Proof/Machine/Operands.lean ====
section
/-! DEFINITION. Operand forms of the scalar memory instructions: size, order, scope and policy (06 R187), and the values
of atomics (06 R192). The operand forms of C and the stream fields stand beside their sequencers (Compute.lean,
Streams.lean). -/
namespace Sys2Proof.Machine

/-- Bytes of a size code: .b .h .w .d .sb .sh .sw (06 R187). -/
def sizeBytes (sz : BitVec 3) : Nat :=
  match sz.toNat with
  | 0 => 1
  | 1 => 2
  | 2 => 4
  | 3 => 8
  | 4 => 1
  | 5 => 2
  | _ => 4

/-- A loaded value, zero- or sign-extended by its size code. -/
def extendLoad (sz : BitVec 3) (v : Nat) : DWord :=
  if 4 ≤ sz.toNat then dw (signExt v (8 * sizeBytes sz)) else BitVec.ofNat 64 v

/-- The scope of an so field that orders: 0 .seq to 4 .sys (06 R187). -/
def soScope (so : BitVec 4) : Nat := (so.toNat - 1) % 5
/-- The so field acquires, or releases. -/
def soAcq (so : BitVec 4) : Bool := (decide (1 ≤ so.toNat) && decide (so.toNat ≤ 5)) || decide (11 ≤ so.toNat)
def soRel (so : BitVec 4) : Bool := decide (6 ≤ so.toNat)

/-- The release of an so field. -/
def relOf (so : BitVec 4) : M Unit := if soRel so then release (soScope so) else pure ()
/-- The acquire of an so field. -/
def acqOf (so : BitVec 4) : M Unit := if soAcq so then acquire (soScope so) else pure ()

/-- The new value of an atomic of `n` bytes; none where nothing is written (06 R192). -/
def amoNew (op n old v w : Nat) : Option Nat :=
  let b := 8 * n
  match op with
  | 0 => some v
  | 1 => some ((old + v) % 2 ^ b)
  | 2 => some (old &&& v)
  | 3 => some (old ||| v)
  | 4 => some (old ^^^ v)
  | 5 => some (if signExt old b ≤ signExt v b then old else v)
  | 6 => some (if signExt old b ≤ signExt v b then v else old)
  | 7 => some (min old v)
  | 8 => some (max old v)
  | 9 => if old = v then some w else none
  | _ => some (fp32.add old v)

end Sys2Proof.Machine
end

