-- ==== Sys2Proof/Machine/KMem.lean ====
section
/-! DEFINITION. Scalar memory of K: LDX, STX, STX.tag, LDXP, AMO (06 R187 to R192), their remote forms (13 R358, R359), and
the cache and pin instructions (06 R193 to R195). -/
namespace Sys2Proof.Machine

/-- The address x[a] + imm32 (06 R189). -/
def kAddr (c : Ctx) (a : BitVec 5) (imm : BitVec 32) : DWord := c.rx a + imm.signExtend 64

/-- The home of a checked part is another device. -/
def Seg.away (s : State) (g : Seg) : Bool := !g.tr.spad && g.tr.home != s.dev

/-- The read-modify-write of an atomic at a key, after the issuing die wrote back and dropped the line (04 R120). A cas that
writes nothing sets no D bit (06 R192). -/
def amoAt (ag : Agent) (g : Seg) (op n v w : Nat) : M Nat := do
  modify (inOrderOf ag g.tr)
  modify (dropLines (fun e => e.die == ag.die && e.line == g.key .atomic / 64))
  let s ← get
  let old := leNat (s.mem.readN (g.key .atomic) n)
  match amoNew op n old v w with
  | none => pure old
  | some new => do
    markD g.tr
    modify (fun s => markDirty s ag.ctx.launch (g.key .atomic))
    modify (fun s => { s with mem := s.mem.writeN (g.key .atomic) (natBytes n new) })
    pure old

/-- Do a checked local access: the value that comes back. -/
def kPerform (ag : Agent) (pol : Nat) (op : RemoteOp) (segs : List Seg) : M Nat :=
  match op with
  | .load => do let b ← readSegs ag pol segs; pure (leNat b)
  | .store data => do writeSegs ag pol .write segs data; pure 0
  | .amo o v w =>
    match segs with
    | g :: _ => amoAt ag g o g.len v w
    | [] => pure 0

/-- Every line of a remote load is held by the die's L2. -/
def heldAway (s : State) (ag : Agent) (pol : Nat) (segs : List Seg) : Bool :=
  segs.all (fun g => policy g.tr pol != 0 && (linesOf (g.key .read) g.len).all (fun l => (s.l2? ag.die l).isSome))

/-- The scalar accesses of K (06 R188): translated and checked; a scratchpad page faults; a local one is performed; a
remote one is sent, and K waits for its reply. A store to a remote page with TCE = 0 retires when it is sent, and the
model performs it then (log 17). -/
def kAccess (k : Acc) (va : DWord) (n pol : Nat) (op : RemoteOp) (parks : Bool) : M Nat := do
  let s ← get
  match s.cx.remote with
  | some r =>
    if r.replied then do
      modCx (fun c => { c with remote := none })
      match r.performed with
      | some (v, none) => pure v
      | some (_, some t) => throw (.trap t)
      | none => pure 0
    else waitFor .reply
  | none => do
    let ag := s.agent
    let segs ← pages ag k va n
    if segs.any (fun g => g.tr.spad) then faultAt 0x091 va
    else do
      let s ← get
      if segs.any (fun g => g.away s) then do
        match segs.find? (fun g => g.away s && !s.present.contains g.tr.home) with
        | some g => faultAt 0x283 g.va
        | none => pure ()
        watchCheck ag k va n
        let s ← get
        let isLoad := match op with | .load => true | _ => false
        let isStore := match op with | .store _ => true | _ => false
        if isLoad && !parks && heldAway s ag pol segs then do
          eachM segs (tagCheck k)
          kPerform ag pol op segs
        else if isStore && segs.all (fun g => !g.tr.tce) then do
          homeCheck k segs
          kPerform ag pol op segs
        else do
          modCx (fun c => { c with
            status := if parks then .parked else c.status
            remote := some { op := op, parks := parks, caches := segs.all (fun g => policy g.tr pol != 0),
                             parts := segs.map (fun g => ⟨g.va, g.key k, g.len, g.tr.tce, g.tr.entry⟩) } })
          waitFor .reply
      else do
        eachM segs (tagCheck k)
        watchCheck ag k va n
        kPerform ag pol op segs

/-- LDX and LDXP (06 R189, R191). -/
def loadX (parks : Bool) (d a : BitVec 5) (pol : BitVec 2) (so : BitVec 4) (sz : BitVec 3) (imm : BitVec 32) : M Unit := do
  replayable
  let s ← get
  let v ← kAccess .read (kAddr s.cx a imm) (sizeBytes sz) pol.toNat .load parks
  modCx (fun c => c.wx d (extendLoad sz v))
  acqOf so

def execLdx (h : Hq) (d a : BitVec 5) (pol : BitVec 2) (so : BitVec 4) (sz : BitVec 3) (imm : BitVec 32) (s : State) : Result :=
  runK h 2 (loadX false d a pol so sz imm) s
def execLdxp (h : Hq) (d a : BitVec 5) (pol : BitVec 2) (so : BitVec 4) (sz : BitVec 3) (imm : BitVec 32) (s : State) : Result :=
  runK h 2 (loadX true d a pol so sz imm) s

/-- STX (06 R189). -/
def execStx (h : Hq) (d a : BitVec 5) (pol : BitVec 2) (so : BitVec 4) (sz : BitVec 3) (imm : BitVec 32) (s : State) : Result :=
  runK h 2 (do
    replayable
    let s ← get
    relOf so
    let _ ← kAccess .write (kAddr s.cx a imm) (sizeBytes sz) pol.toNat
      (.store (natBytes (sizeBytes sz) (s.cx.rx d).toNat)) false
    pure ()) s

/-- STX.tag (06 R190): the tag of the granule that holds the address. It writes no data byte, and sets no D bit and no
dirty-granule bit (log 22). -/
def execStxTag (h : Hq) (d a : BitVec 5) (so : BitVec 4) (imm : BitVec 32) (s : State) : Result :=
  runK h 2 (do
    replayable
    let s ← get
    relOf so
    let va0 := kAddr s.cx a imm
    let va := va0 - BitVec.ofNat 64 (va0.toNat % 32)
    let segs ← pages s.agent .write va 32
    if segs.any (fun g => g.tr.spad) then faultAt 0x091 va
    else do
      homeCheck .write segs
      watchCheck s.agent .write va 32
      eachM segs (fun g => do
        modify (inOrderOf s.agent g.tr)
        modify (fun s1 => { s1 with tags := s1.tags.write (g.key .write / 32) ((s.cx.rx d).setWidth 4) }))) s

/-- AMO (06 R192). -/
def execAmo (h : Hq) (d a : BitVec 5) (so : BitVec 4) (sz : BitVec 3) (op : BitVec 4) (s : State) : Result :=
  runK h 2 (do
    replayable
    let s ← get
    let n := sizeBytes sz
    let va := s.cx.rx a
    if va.toNat % n ≠ 0 then faultAt 0x085 va
    else do
      relOf so
      let old ← kAccess .atomic va n 0
        (.amo op.toNat ((s.cx.rx d).toNat % 2 ^ (8 * n)) ((s.cx.rx (d + 1)).toNat % 2 ^ (8 * n))) false
      modCx (fun c => c.wx d (BitVec.ofNat 64 old))
      acqOf so) s

/-! ## Requests at their home, and replies (13 R358, R359) -/

/-- Row 5 of 04 R105, which the home of a part checks (13 R358). -/
def partRange (s : State) (p : RemotePart) : Option Trap :=
  if p.key / 2 ^ 48 != s.dev && !paOk (p.key % 2 ^ 48) then some { cause := 0x086, va := p.va } else none

/-- The tags of a part, as its home checks them. -/
def partTrap (s : State) (p : RemotePart) : Option Trap :=
  let tag := BitVec.ofNat 4 (bits p.va.toNat 59 56)
  if p.tce then
    ((granules p.key p.len).find? (fun r => s.tags.read r != tag)).map
      (fun r => { cause := 0x089, va := p.va, aux0 := tag.toNat + 16 * (s.tags.read r).toNat })
  else none

/-- The checks that the home makes of the parts of a request: none fails its tags where one fails row 5 (04 R112 row 2). -/
def partsTrap (s : State) (ps : List RemotePart) : Option Trap := (ps.findSome? (partRange s)).or (ps.findSome? (partTrap s))

/-- The part lies on an S page. -/
def RemotePart.strong (s : State) (p : RemotePart) : Bool := bits (readEntry s.mem p.entry) 27 26 == 0

/-- The lines of the parts of a request. -/
def Remote.lines (r : Remote) : List Nat := r.parts.flatMap (fun p => linesOf p.key p.len)

/-- The home performs a request: the value and the state after. The requester's die holds no line of it while it is performed, so
that the sequencer's own accesses stay in their order (04 R111, R114, R120). D is set where the request writes (R106). -/
def performRemote (launch die : Nat) (r : Remote) (s : State) : Nat × State :=
  let all := r.parts.any (RemotePart.strong s)
  let s := dropLines (fun e => e.die == die && (all || r.lines.contains e.line)) s
  match r.op with
  | .load =>
    let v := leNat (r.parts.flatMap (fun p => s.mem.readN p.key p.len))
    (v, if r.caches then r.lines.foldl (fun s l => fillLine die l s) s else s)
  | .store data =>
    (0, (r.parts.foldl (fun (sd : State × List Byte) p =>
      let s := markDirty (setD p.entry sd.1) launch p.key
      ({ s with mem := s.mem.writeN p.key (sd.2.take p.len) }, sd.2.drop p.len)) (s, data)).1)
  | .amo op v w =>
    match r.parts with
    | [] => (0, s)
    | p :: _ =>
      let old := leNat (s.mem.readN p.key p.len)
      match amoNew op p.len old v w with
      | none => (old, s)
      | some new =>
        let s := setD p.entry s
        (old, { s with mem := s.mem.writeN p.key (natBytes p.len new) })

/-- The watched address that an access arriving at bytes of this device reaches: its range translates to them. -/
def arrivalAt (s : State) (c : Ctx) (i : BitVec 3) (k : Acc) (pa n : Nat) : Option Nat :=
  let w := (c.wpc.get i).toNat
  let len := bits w 13 8
  let base := (c.wpa.get i).toNat % 2 ^ 56 / 2 ^ len * 2 ^ len
  if bit w 0 && bits w 7 5 == 4 && (match k.num with | 0 => bit w 1 | 1 => bit w 2 | _ => bit w 3) then
    (List.range (2 ^ (len - 12))).findSome? (fun p =>
      let va := base + p * 4096
      match walkRoot s c.asid.toNat va with
      | .ok t =>
        if t.home == s.dev && !t.spad && decide (t.visible va < key s.dev pa + n) &&
            decide (key s.dev pa < t.visible va + min 4096 (2 ^ len)) then some (va + (key s.dev pa - t.visible va)) else none
      | .error _ => none)
  else none

/-- Watchpoints of scope .sys trigger on an access arriving from another device (04 R134, 13 R358). The frame names the virtual
address; a request carries no program counter (13 R357). -/
def arrivalHits (s : State) (k : Acc) (src pa n : Nat) : List WatchHit :=
  (s.ctxs.filter Ctx.placed).filterMap (fun c => (eight.findSome? (fun i => arrivalAt s c i k pa n)).map (fun va =>
    WatchHit.mk c.id (BitVec.ofNat 64 va) (src + k.num * 2 ^ 32) 0))

/-- The checks that a home makes of a request from another device: 04 R105 row 5 and the tags (13 R358). -/
def arrivalOk (s : State) (pa n : Nat) (tce : Bool) (tag : BitVec 4) : Bool :=
  paOk pa && bits pa 47 39 == 0 && (!tce || (granules (key s.dev pa) n).all (fun r => s.tags.read r == tag))

/-- A request of the context in flight is performed at its home. -/
def performOwn (c : CtxId) (s : State) : State :=
  match s.ctx? c with
  | none => s
  | some cx =>
    match cx.remote with
    | none => s
    | some r =>
      if r.performed.isSome then s
      else
        match partsTrap s r.parts with
        | some t => s.updCtx c (fun cx => { cx with remote := some { r with performed := some (0, some t) } })
        | none =>
          let vs := performRemote c.launch cx.core.1 r s
          vs.2.updCtx c (fun cx => { cx with remote := some { r with performed := some (vs.1, none) } })

/-- REMOTE_REQUEST: a request is performed once at its home. What an inbound request answers goes to the other device. -/
def execRemoteRequest (r : FabricReq) (s : State) : Result :=
  .next (match r with
  | .own c => performOwn c s
  | .read src pa n tce tag =>
    if arrivalOk s pa n tce tag then { s with hits := s.hits ++ arrivalHits s .read src pa n } else s
  | .write src pa data mask tce tag =>
    if arrivalOk s pa data.length tce tag then
      { s with mem := s.mem.mergeN (key s.dev pa) mask data, hits := s.hits ++ arrivalHits s .write src pa data.length }
    else s
  | .atomic src pa n op v w tce tag =>
    if arrivalOk s pa n tce tag then
      let s := { s with hits := s.hits ++ arrivalHits s .atomic src pa n }
      match amoNew op n (leNat (s.mem.readN (key s.dev pa) n)) v w with
      | none => s
      | some new => { s with mem := s.mem.writeN (key s.dev pa) (natBytes n new) }
    else s
  | .tag src pa new =>
    let g := pa / 32 * 32
    if arrivalOk s g 32 false 0 then
      { s with tags := s.tags.write (key s.dev g / 32) new, hits := s.hits ++ arrivalHits s .write src g 32 }
    else s)

/-- A performed request of the context is answered. -/
def answer (c : CtxId) (parks : Bool) (s : State) : State :=
  s.updCtx c (fun cx =>
    match cx.remote with
    | some r =>
      if r.performed.isSome && r.parks == parks then
        { cx with remote := some { r with replied := true }
                  status := if parks && cx.status == .parked then .running else cx.status }
      else cx
    | none => cx)

/-- LDXP_REPLY (06 R191): the parked context becomes ready. Its K then writes x[xd], or takes the home's fault. -/
def execLdxpReply (c : CtxId) (s : State) : Result := .next (answer c true s)

/-! ## Cache and pin control (06 R193 to R195) -/

/-- The 4 KiB pieces of a range, by address. -/
def rangePages (va : DWord) (n : Nat) : List DWord :=
  (List.range ((va.toNat % 4096 + n + 4095) / 4096)).map (fun i =>
    if i = 0 then va else va - BitVec.ofNat 64 (va.toNat % 4096) + BitVec.ofNat 64 (4096 * i))

/-- Row 3 of 06 R194 for one page: its translation, with RD, or with RD or WR; or the cause. -/
def cacheFate (s : State) (asid : Nat) (needRd : Bool) (va : DWord) : Except Nat Tr :=
  if va.toNat / 2 ^ 60 ≠ 0 then .error 0x080
  else
    match walkRoot s asid va.toNat with
    | .error c => .error c
    | .ok t =>
      if !(t.rd || (!needRd && t.wr)) then .error 0x082
      else if !inMap t .read va.toNat then .error 0x086
      else .ok t

/-- One page of the range: A is set where it passes (04 R106). -/
def cachePage (asid : Nat) (needRd : Bool) (va : DWord) : M (DWord × Except Nat Tr) := do
  let s ← get
  let t := cacheFate s asid needRd va
  match t with
  | .ok t => markA t
  | .error _ => pure ()
  pure (va, t)

/-- The cause that a page of the range failed with. -/
def pageCause (p : DWord × Except Nat Tr) : Option (DWord × Nat) :=
  match p.2 with
  | .error c => some (p.1, c)
  | .ok _ => none

/-- The page with its translation. -/
def pageTr (p : DWord × Except Nat Tr) : Option (DWord × Tr) :=
  match p.2 with
  | .error _ => none
  | .ok t => some (p.1, t)

/-- The checks of 06 R194 before row 5; none where the length is 0. Every page is translated before one of them faults. DESIGN CHOICE
(log 55): "cache range", as "pin capacity", names the base of the range in VA. -/
def cacheRange (needRd : Bool) (va : DWord) (n : Nat) : M (List (DWord × Tr)) := do
  let s ← get
  if 2 ^ 30 < n then faultAt 0x092 va
  else do
    let all ← collectM (rangePages va n) (cachePage s.cx.asid.toNat needRd)
    match all.findSome? pageCause with
    | some p => faultAt p.2 p.1
    | none =>
      let ps := all.filterMap pageTr
      match ps.find? (fun p => p.2.spad) with
      | some p => faultAt 0x091 p.1
      | none => pure ps

/-- The lines of a translated range: those of the bytes from `va` up to `va + n`. -/
def rangeLines (va : DWord) (n : Nat) (ps : List (DWord × Tr)) : List Nat :=
  ps.flatMap (fun p =>
    let last := min (va.toNat + n) (p.1.toNat / 4096 * 4096 + 4096)
    linesOf (p.2.visible p.1.toNat) (last - p.1.toNat))

/-- CINV and CWB (06 R193): fn 0 acts on the data cache of the core, fn 1 on the die L2 as well. -/
def cacheWord (h : Hq) (a b : BitVec 5) (c : BitVec 1) (drop : Bool) (s : State) : Result :=
  runK h 1 (do
    replayable
    let s ← get
    let va := s.cx.rx a
    let n := (s.cx.rx b).toNat
    if n = 0 then pure ()
    else do
      let ps ← cacheRange false va n
      let ls := rangeLines va n ps
      let mine (e : L2Line) : Bool := e.die == s.cx.core.1 && ls.contains e.line
      if c = 0 then modify (cleanHeld s.cx.core.1 s.cx.core.2 ls drop)
      else if drop then modify (dropLines mine)
      else modify (cleanLines mine)) s

/-- CINV (06 R193). -/
def execCinv (h : Hq) (a b : BitVec 5) (c : BitVec 1) (s : State) : Result := cacheWord h a b c true s

/-- CWB (06 R193). -/
def execCwb (h : Hq) (a b : BitVec 5) (c : BitVec 1) (s : State) : Result := cacheWord h a b c false s

/-- Bytes of lines that a die may pin: 16 MiB (06 R194). -/
def pinLimit : Nat := 16 * 2 ^ 20 / 64

/-- PIN (06 R193, R194): lines homed on the issuing die; others are ignored. -/
def execPin (h : Hq) (a b : BitVec 5) (s : State) : Result :=
  runK h 1 (do
    replayable
    let s ← get
    let va := s.cx.rx a
    let n := (s.cx.rx b).toNat
    let die := s.cx.core.1
    if n = 0 then pure ()
    else do
      let ps ← cacheRange true va n
      let s1 ← get
      let mine := (rangeLines va n (ps.filter (fun p => !p.2.h))).filter (fun l =>
        l * 64 / 2 ^ 48 == s1.dev && homeDie (l * 64 % 2 ^ 48) == die)
      let old := ((s1.pins.filter (fun p => p.die == die)).map (·.line)).dedup
      let fresh := mine.filter (fun l => !old.contains l)
      if pinLimit < old.length + fresh.dedup.length then faultAt 0x093 va
      else modify (fun s1 => { s1 with pins := s1.pins ++
        ((mine.filter (fun l => !s1.pins.contains ⟨die, l, s.cx.id.launch⟩)).dedup.map (fun l => ⟨die, l, s.cx.id.launch⟩)) })) s

/-- UNPIN (06 R193): the pins that the launch holds on the lines. -/
def execUnpin (h : Hq) (a b : BitVec 5) (s : State) : Result :=
  runK h 1 (do
    replayable
    let s ← get
    let va := s.cx.rx a
    let n := (s.cx.rx b).toNat
    if n = 0 then pure ()
    else do
      let ps ← cacheRange false va n
      let ls := rangeLines va n ps
      modify (fun s1 => { s1 with pins := s1.pins.filter (fun p =>
        !(p.die == s.cx.core.1 && p.launch == s.cx.id.launch && ls.contains p.line)) })) s

/-- Steps after which a line homed on another die of the device leaves a die L2: 16,384 cycles at 2.4 GHz, so that no frequency of
the die makes them more (04 R122). -/
def leaseSteps : Nat := 16384 * 160 / 24

/-- The lease of a line has ended. A line homed on another device has none. -/
def State.leaseOver (s : State) (e : L2Line) : Bool :=
  e.line * 64 / 2 ^ 48 == s.dev && decide (e.filled + leaseSteps ≤ s.clock)

/-- L2_LEASE_EXPIRY (04 R122): a line homed on another die leaves the L2, its dirty bytes written back. A line homed on
another device has no lease, and leaves by eviction at any time. -/
def execL2LeaseExpiry (die line : Nat) (s : State) : Result :=
  .next (dropLines (fun e => e.die == die && e.line == line) s)

end Sys2Proof.Machine
end

