-- ==== Sys2Proof/Machine/Boost.lean ====
section
/-! DEFINITION. Power: ss.permits (16 R428), BOOST (R429), the interval boundary (R426) and the thermal cap (R423). -/
namespace Sys2Proof.Machine

/-- The power state of a compute die. -/
def State.die (s : State) (d : Nat) : DiePower := (s.dies[d]?).getD {}
/-- The permits of a die's pool. -/
def State.poolOf (s : State) (d : Nat) : Nat := (s.pools[d / 2]?).getD 0

/-- ss.permits of a die (16 R428). -/
def permitsWord (p : DiePower) (pool : Nat) : DWord :=
  BitVec.ofNat 64 (p.freq * 2 ^ 24 + p.claim * 2 ^ 16 + (if p.grace then 2 ^ 15 else 0) + (if p.next then 2 ^ 14 else 0) +
    p.idle * 2 ^ 12 + pool)

/-- ss.permits of a context; on the broadcast core it reads 0x1414_0000. -/
def State.permitsOf (s : State) (c : Ctx) : DWord :=
  if c.onBcast then 0x14140000 else permitsWord (s.die c.core.1) (s.poolOf c.core.1)

/-- BOOST (16 R429). -/
def boost (d : BitVec 5) (claim : Nat) : M Unit := do
  replayable
  let s ← get
  modCx (fun c => { c with claim := if c.onBcast then c.claim else claim })
  modCx (fun c => c.wx d (s.permitsOf s.cx))

def execBoostRel (h : Hq) (d : BitVec 5) (s : State) : Result := runK h 1 (boost d 20) s
def execBoostMid (h : Hq) (d : BitVec 5) (s : State) : Result := runK h 1 (boost d 22) s
def execBoostMax (h : Hq) (d : BitVec 5) (s : State) : Result := runK h 1 (boost d 24) s

/-- Steps of an interval (16 R425). -/
def intervalSteps : Nat := 64000

/-- The claim of a die: the highest among the contexts in the active banks of its cores (16 R427). -/
def State.dieClaim (s : State) (d : Nat) : Nat :=
  s.ctxs.foldl (fun m c => if s.isActive c && c.core.1 == d && !c.onBcast then max m c.claim else m) 20

/-- A die at the end of its interval: idle counting (16 R426), and the permits that it returns. -/
def countIdle (p : DiePower) : DiePower × Nat :=
  if !p.took && !p.grace then (if p.idle + 1 = 4 then ({ p with idle := 0 }, 1) else ({ p with idle := p.idle + 1 }, 0))
  else ({ p with idle := 0 }, 0)

/-- The frequency of a die for the interval that begins (16 R426). `want`: it is in W. -/
def setFreq (p : DiePower) (claim : Nat) (want take : Bool) : DiePower :=
  if take then ({ p with claim := claim, took := true, grace := false } : DiePower).setTo (min claim p.limit)
  else if want && p.took then ({ p with claim := claim, took := false, grace := true } : DiePower).setTo 22
  else ({ p with claim := claim, took := false, grace := false } : DiePower).setTo (min 20 p.limit)

/-- What a pool does at a boundary (16 R426) with the claims of its two dies. -/
def poolBoundary (pool : Nat) (p0 p1 : DiePower) (c0 c1 : Nat) : Nat × DiePower × DiePower :=
  let (q0, r0) := countIdle p0
  let pool := min (pool + r0) 64
  let (q1, r1) := countIdle p1
  let pool := min (pool + r1) 64
  let w0 := decide (20 < min c0 p0.limit)
  let w1 := decide (20 < min c1 p1.limit)
  let n := (if w0 then 1 else 0) + (if w1 then 1 else 0)
  if n ≤ pool then (pool - n, setFreq q0 c0 w0 w0, setFreq q1 c1 w1 w1)
  else if pool = 1 then
    let t0 := q0.next
    (0, setFreq { q0 with next := !t0 } c0 w0 t0, setFreq { q1 with next := t0 } c1 w1 (!t0))
  else (pool, setFreq q0 c0 w0 false, setFreq q1 c1 w1 false)

/-- One pair of dies at a boundary. -/
def pairBoundary (s : State) (p : Nat) : State :=
  let (pool, q0, q1) := poolBoundary (s.poolOf (2 * p)) (s.die (2 * p)) (s.die (2 * p + 1)) (s.dieClaim (2 * p))
    (s.dieClaim (2 * p + 1))
  { s with pools := modAt s.pools p (fun _ => pool),
           dies := modAt (modAt s.dies (2 * p) (fun _ => q0)) (2 * p + 1) (fun _ => q1) }

/-- The next interval boundary is now, or past. -/
def State.boundaryDue (s : State) : Bool := decide (intervalSteps * (s.intervals + 1) ≤ s.clock)

/-- INTERVAL_BOUNDARY (16 R426): every pool acts once. -/
def execIntervalBoundary (s : State) : Result :=
  .next (if s.boundaryDue then
      (List.range 8).foldl pairBoundary { s with intervals := s.intervals + 1 }
    else s)

/-- The steps of the digital clock (01 R18), in units of 100 MHz. -/
def clockSteps : List Nat := [12, 14, 16, 18, 20, 22, 24]

/-- THERMAL_CAP_CHANGE (16 R423): a lower cap acts as the die's present cycle ends (01 R18), a higher one at the next boundary. -/
def execThermalCapChange (die freq : Nat) (s : State) : Result :=
  .next (if clockSteps.contains freq then
      { s with dies := modAt s.dies die (fun p => ({ p with limit := freq } : DiePower).setTo (min p.target freq)) }
    else s)

end Sys2Proof.Machine
end

