-- ==== Sys2Proof/Machine/KSys.lean ====
section
/-! DEFINITION. System registers (06 R169 to R171), the plan clock (R196), software traps (R197) and groups (R198, 05
R150). -/
namespace Sys2Proof.Machine

/-! ## System registers -/

/-- ss.crun (01 R35). -/
def State.crun (s : State) : DWord :=
  BitVec.ofNat 64 (s.spares.toNat * 2 ^ 8 + (if s.bcw then 2 ^ 7 else 0) + s.cores.toNat)

/-- ss.dmap of the launch (04 R137). -/
def State.dmapOf (s : State) (l : Nat) : DWord :=
  match s.launch? l with
  | some l => BitVec.ofNat 64 l.bitmap
  | none => 0

/-- The value of a system register (06 R169). -/
def sysRead (s : State) (n : Nat) : DWord :=
  let c := s.cx
  if n = 0x000 then c.cause
  else if n ≤ 0x004 then c.fpc.get (BitVec.ofNat 2 (n - 1))
  else if n = 0x008 then BitVec.ofNat 64 s.clock
  else if n = 0x009 then c.pbase
  else if n = 0x00A then s.crun
  else if n = 0x00B then s.permitsOf c
  else if n = 0x00C then c.asid.setWidth 64
  else if n = 0x00D then s.dmapOf c.id.launch
  else if n = 0x00E then c.wdb
  else if n < 0x020 then c.k.get (BitVec.ofNat 4 (n - 0x010))
  else if n = 0x020 then BitVec.ofNat 64 c.id.lcore
  else if n = 0x021 then BitVec.ofNat 64 c.node
  else if n = 0x022 then BitVec.ofNat 64 c.id.launch
  else if n < 0x038 then c.wpa.get (BitVec.ofNat 3 (n - 0x030))
  else c.wpc.get (BitVec.ofNat 3 (n - 0x038))

/-- The value may be written: no reserved bit, and the limits of 04 R133. -/
def sysWriteOk (n : Nat) (v : DWord) : Bool :=
  if n = 0x00E then v.toNat / 2 ^ 32 == 0
  else if n < 0x038 then v.toNat / 2 ^ 56 == 0
  else v.toNat / 2 ^ 14 == 0 && !bit v.toNat 4 && decide (5 ≤ bits v.toNat 13 8) && decide (bits v.toNat 13 8 ≤ 30) &&
    decide (bits v.toNat 7 5 ≤ 4)

/-- The register is read and write (06 R169). -/
def sysWritable (n : Nat) : Bool := n == 0x00E || decide (0x030 ≤ n)

/-- Write a system register. -/
def sysWrite (n : Nat) (v : DWord) : M Unit :=
  modCx (fun c =>
    if n = 0x00E then { c with wdb := v }
    else if n < 0x038 then { c with wpa := c.wpa.set (BitVec.ofNat 3 (n - 0x030)) v }
    else { c with wpc := c.wpc.set (BitVec.ofNat 3 (n - 0x038)) v })

/-- MFS (06 R171). -/
def execMfs (h : Hq) (d : BitVec 5) (i : BitVec 9) (s : State) : Result :=
  runK h 1 (do let s ← get; modCx (fun c => c.wx d (sysRead s i.toNat))) s

/-- MTS (06 R171): a write to a read-only register is ignored. -/
def execMts (h : Hq) (a : BitVec 5) (i : BitVec 9) (s : State) : Result :=
  runK h 1 (do
    let s ← get
    if !sysWritable i.toNat then pure ()
    else if !sysWriteOk i.toNat (s.cx.rx a) then fault 0x013
    else sysWrite i.toNat (s.cx.rx a)) s

/-- RDPLAN (06 R196). -/
def execRdplan (h : Hq) (d : BitVec 5) (f : BitVec 1) (s : State) : Result :=
  runK h 1 (do
    let s ← get
    let step : DWord := BitVec.ofNat 64 s.clock
    modCx (fun c => c.wx d (if f = 0 then step else step - c.pbase))) s

/-- TRAP (06 R197): retires, then faults "software trap". -/
def execTrap (h : Hq) (i : BitVec 9) (s : State) : Result :=
  runK h 1 (throw (.trap { cause := 0x030, tcode := i, retires := true })) s
/-- BRK (06 R197): retires, then faults "breakpoint". -/
def execBrk (h : Hq) (i : BitVec 9) (s : State) : Result :=
  runK h 1 (throw (.trap { cause := 0x031, tcode := i, retires := true })) s

/-! ## Groups (05 R149, R150; 06 R198) -/

/-- The barrier of a group. -/
def Launch.barrier (l : Launch) (g : Nat) : Barrier := (look l.barriers g).getD {}

/-- The logical core is a member of the group. -/
def Launch.member (l : Launch) (g lcore : Nat) : Bool :=
  match look l.groups g with
  | some m => decide (lcore ≤ 64) && m.getLsbD lcore
  | none => false

/-- Every member has arrived. -/
def allArrived (members : BitVec 65) (arrived : List Nat) : Bool :=
  (List.range 65).all (fun n => !members.getLsbD n || arrived.contains n)

/-- An arrival: the phase completes when every member has arrived. -/
def Launch.arrive (l : Launch) (g lcore : Nat) : Launch :=
  let b := l.barrier g
  let arrived := b.arrived ++ [lcore]
  let b' : Barrier := if allArrived ((look l.groups g).getD 0) arrived then ⟨b.phase + 1, []⟩ else ⟨b.phase, arrived⟩
  { l with barriers := upd l.barriers g b' }

/-- Phase `n` is complete: (PHASE - n) mod 2^32 from 1 to 2^31 (06 R198). -/
def phaseDone (phase n : BitVec 32) : Bool := decide (1 ≤ (phase - n).toNat) && decide ((phase - n).toNat ≤ 2 ^ 31)

/-- The scope of a group instruction: 0 .dev, 1 .die. -/
def groupScope (c : BitVec 1) : Nat := if c = 0 then 3 else 2

/-- The launch of the running context, which must list it in the group. -/
def groupOf (g : BitVec 8) : M Launch := do
  let s ← get
  match s.launch? s.cx.id.launch with
  | none => fault 0x303
  | some l => if l.member g.toNat s.cx.id.lcore then pure l else fault 0x303

/-- Arrive in the current phase, waiting while an earlier arrival's phase is open; answers the phase. -/
def arriveM (g : BitVec 8) (l : Launch) : M (BitVec 32) := do
  let s ← get
  let b := l.barrier g.toNat
  if b.arrived.contains s.cx.id.lcore then waitFor (.group g.toNat b.phase.toNat)
  else do
    set (s.updLaunch l.num (fun l => l.arrive g.toNat s.cx.id.lcore))
    pure b.phase

/-- Wait until a phase is complete. -/
def waitPhase (g : BitVec 8) (n : BitVec 32) : M Unit := do
  let s ← get
  match s.launch? s.cx.id.launch with
  | none => fault 0x303
  | some l => waitUnless (phaseDone (l.barrier g.toNat).phase n) (.group g.toNat n.toNat)

/-- GARR (06 R198). -/
def execGarr (h : Hq) (d : BitVec 5) (c : BitVec 1) (g : BitVec 8) (s : State) : Result :=
  runK h 1 (do
    replayable
    let l ← groupOf g
    release (groupScope c)
    let n ← arriveM g l
    modCx (fun cx => cx.wx d (n.setWidth 64))) s

/-- GWAIT (06 R198). -/
def execGwait (h : Hq) (a : BitVec 5) (c : BitVec 1) (g : BitVec 8) (s : State) : Result :=
  runK h 1 (do
    replayable
    let _ ← groupOf g
    let s ← get
    waitPhase g ((s.cx.rx a).setWidth 32)
    acquire (groupScope c)) s

/-- GSYNC (06 R198): an arrival, kept in the barrier latch while it waits (15 R403), then a wait for its phase. -/
def execGsync (h : Hq) (d : BitVec 5) (c : BitVec 1) (g : BitVec 8) (s : State) : Result :=
  runK h 1 (do
    replayable
    let l ← groupOf g
    let s ← get
    match s.cx.arrived with
    | some (g', n) =>
      if g' = g.toNat then do
        waitPhase g n
        modCx (fun cx => { cx with arrived := none })
        acquire (groupScope c)
        modCx (fun cx => cx.wx d (n.setWidth 64))
      else do
        modCx (fun cx => { cx with arrived := none })
        waitFor (.group g.toNat n.toNat)
    | none => do
      release (groupScope c)
      let n ← arriveM g l
      modCx (fun cx => { cx with arrived := some (g.toNat, n) })
      waitPhase g n
      modCx (fun cx => { cx with arrived := none })
      acquire (groupScope c)
      modCx (fun cx => cx.wx d (n.setWidth 64))) s

end Sys2Proof.Machine
end

