-- ==== Sys2Proof/Machine/Scalar.lean ====
section
/-! DEFINITION. Scalar arithmetic of K (06 R183 to R186), whose operations L and S share (07 R203,
R204). -/
namespace Sys2Proof.Machine

/-! ## The arithmetic (06 R183) -/

/-- The quotient rounded toward zero; 0 where the divisor is 0. The register wraps -2^63 ÷ -1 to -2^63. -/
def aluDiv (a b : DWord) : DWord := if b = 0 then 0 else dw (Int.tdiv a.toInt b.toInt)
/-- The remainder of that division; A where the divisor is 0. -/
def aluRem (a b : DWord) : DWord := if b = 0 then a else dw (a.toInt - b.toInt * Int.tdiv a.toInt b.toInt)
def aluMulh (a b : DWord) : DWord := dw ((a.toInt * b.toInt) / 2 ^ 64)
def aluMulhu (a b : DWord) : DWord := BitVec.ofNat 64 (a.toNat * b.toNat / 2 ^ 64)
def aluDivu (a b : DWord) : DWord := if b = 0 then 0 else BitVec.ofNat 64 (a.toNat / b.toNat)
/-- Shifts take bits [5:0] of the second operand. -/
def aluShl (a b : DWord) : DWord := a <<< (b.toNat % 64)
def aluShr (a b : DWord) : DWord := a >>> (b.toNat % 64)
def aluSra (a b : DWord) : DWord := a.sshiftRight (b.toNat % 64)
def aluMin (a b : DWord) : DWord := if a.toInt ≤ b.toInt then a else b
def aluMax (a b : DWord) : DWord := if a.toInt ≤ b.toInt then b else a

/-- Write x[d] (06 R183). -/
def setX (d : BitVec 5) (v : DWord) : M Unit := modCx (fun c => c.wx d v)

/-- A register form: x[d] from x[a] and x[b]. -/
def aluKR (f : DWord → DWord → DWord) (d a b : BitVec 5) : M Unit := do
  let s ← get
  setX d (f (s.cx.rx a) (s.cx.rx b))

/-- An immediate form: x[d] from x[a] and the sign-extended imm9. -/
def aluKI (f : DWord → DWord → DWord) (d a : BitVec 5) (i : BitVec 9) : M Unit := do
  let s ← get
  setX d (f (s.cx.rx a) (i.signExtend 64))

/-- A shift by an unsigned imm9. -/
def shiftKI (f : DWord → DWord → DWord) (d a : BitVec 5) (i : BitVec 9) : M Unit := do
  let s ← get
  setX d (f (s.cx.rx a) (i.setWidth 64))

def execAdd (h : Hq) (d a b : BitVec 5) (s : State) : Result := runK h 1 (aluKR (· + ·) d a b) s
def execSub (h : Hq) (d a b : BitVec 5) (s : State) : Result := runK h 1 (aluKR (· - ·) d a b) s
def execAnd (h : Hq) (d a b : BitVec 5) (s : State) : Result := runK h 1 (aluKR (· &&& ·) d a b) s
def execOr (h : Hq) (d a b : BitVec 5) (s : State) : Result := runK h 1 (aluKR (· ||| ·) d a b) s
def execXor (h : Hq) (d a b : BitVec 5) (s : State) : Result := runK h 1 (aluKR (· ^^^ ·) d a b) s
def execShl (h : Hq) (d a b : BitVec 5) (s : State) : Result := runK h 1 (aluKR aluShl d a b) s
def execShr (h : Hq) (d a b : BitVec 5) (s : State) : Result := runK h 1 (aluKR aluShr d a b) s
def execSra (h : Hq) (d a b : BitVec 5) (s : State) : Result := runK h 1 (aluKR aluSra d a b) s
def execMul (h : Hq) (d a b : BitVec 5) (s : State) : Result := runK h 1 (aluKR (· * ·) d a b) s
def execMulh (h : Hq) (d a b : BitVec 5) (s : State) : Result := runK h 1 (aluKR aluMulh d a b) s
def execMulhu (h : Hq) (d a b : BitVec 5) (s : State) : Result := runK h 1 (aluKR aluMulhu d a b) s
def execDiv (h : Hq) (d a b : BitVec 5) (s : State) : Result := runK h 1 (aluKR aluDiv d a b) s
def execDivu (h : Hq) (d a b : BitVec 5) (s : State) : Result := runK h 1 (aluKR aluDivu d a b) s
def execRem (h : Hq) (d a b : BitVec 5) (s : State) : Result := runK h 1 (aluKR aluRem d a b) s
def execMin (h : Hq) (d a b : BitVec 5) (s : State) : Result := runK h 1 (aluKR aluMin d a b) s
def execMax (h : Hq) (d a b : BitVec 5) (s : State) : Result := runK h 1 (aluKR aluMax d a b) s

def execAddi (h : Hq) (d a : BitVec 5) (i : BitVec 9) (s : State) : Result := runK h 1 (aluKI (· + ·) d a i) s
def execAndi (h : Hq) (d a : BitVec 5) (i : BitVec 9) (s : State) : Result := runK h 1 (aluKI (· &&& ·) d a i) s
def execOri (h : Hq) (d a : BitVec 5) (i : BitVec 9) (s : State) : Result := runK h 1 (aluKI (· ||| ·) d a i) s
def execXori (h : Hq) (d a : BitVec 5) (i : BitVec 9) (s : State) : Result := runK h 1 (aluKI (· ^^^ ·) d a i) s
def execShli (h : Hq) (d a : BitVec 5) (i : BitVec 9) (s : State) : Result := runK h 1 (shiftKI aluShl d a i) s
def execShri (h : Hq) (d a : BitVec 5) (i : BitVec 9) (s : State) : Result := runK h 1 (shiftKI aluShr d a i) s
def execSrai (h : Hq) (d a : BitVec 5) (i : BitVec 9) (s : State) : Result := runK h 1 (shiftKI aluSra d a i) s

/-- MOVI (06 R184). -/
def execMovi (h : Hq) (d : BitVec 5) (imm : BitVec 32) (s : State) : Result := runK h 2 (setX d (imm.signExtend 64)) s
/-- MOVHI (06 R184): imm32 above bits [31:0] of x[a]. -/
def execMovhi (h : Hq) (d a : BitVec 5) (imm : BitVec 32) (s : State) : Result :=
  runK h 2 (do let s ← get; setX d (imm ++ (s.cx.rx a).setWidth 32)) s

/-- CMP (06 R185). -/
def execCmp (h : Hq) (d : BitVec 3) (a b : BitVec 5) (c : BitVec 4) (s : State) : Result :=
  runK h 1 (do let s ← get; setQ d (condition c.toNat (s.cx.rx a) (s.cx.rx b))) s
/-- CMPI (06 R185). -/
def execCmpi (h : Hq) (d : BitVec 3) (a : BitVec 5) (c : BitVec 9) (imm : BitVec 32) (s : State) : Result :=
  runK h 2 (do let s ← get; setQ d (condition c.toNat (s.cx.rx a) (imm.signExtend 64))) s

/-- QAND (06 R186). -/
def execQand (h : Hq) (d a b : BitVec 3) (s : State) : Result :=
  runK h 1 (do let u ← getQ a; let v ← getQ b; setQ d (u && v)) s
/-- QOR (06 R186). -/
def execQor (h : Hq) (d a b : BitVec 3) (s : State) : Result :=
  runK h 1 (do let u ← getQ a; let v ← getQ b; setQ d (u || v)) s
/-- QNOT (06 R186). -/
def execQnot (h : Hq) (d a : BitVec 3) (s : State) : Result := runK h 1 (do let u ← getQ a; setQ d (!u)) s

end Sys2Proof.Machine
end

