-- ==== Sys2Proof/Machine/LScalar.lean ====
section
/-! DEFINITION. Scalar instructions of L and S (07 R204 to R206, 09 R260): the arithmetic of K on y or z registers. -/
namespace Sys2Proof.Machine

/-- y[i] of L or z[i] of S. -/
def State.ryz (s : State) (i : BitVec 4) : DWord := if s.cur = .l then s.cx.ry i else s.cx.rz i
/-- That register written. -/
def setYz (i : BitVec 4) (v : DWord) : M Unit :=
  modify (fun s => { s with cx := if s.cur = .l then s.cx.wy i v else s.cx.wz i v })

/-- A register form. -/
def aluY (f : DWord → DWord → DWord) (d a b : BitVec 4) : M Unit := do
  let s ← get
  setYz d (f (s.ryz a) (s.ryz b))

def execYAdd (h : Hq) (d a b : BitVec 4) (s : State) : Result := runLS h 1 (aluY (· + ·) d a b) s
def execYSub (h : Hq) (d a b : BitVec 4) (s : State) : Result := runLS h 1 (aluY (· - ·) d a b) s
def execYAnd (h : Hq) (d a b : BitVec 4) (s : State) : Result := runLS h 1 (aluY (· &&& ·) d a b) s
def execYOr (h : Hq) (d a b : BitVec 4) (s : State) : Result := runLS h 1 (aluY (· ||| ·) d a b) s
def execYXor (h : Hq) (d a b : BitVec 4) (s : State) : Result := runLS h 1 (aluY (· ^^^ ·) d a b) s
def execYShl (h : Hq) (d a b : BitVec 4) (s : State) : Result := runLS h 1 (aluY aluShl d a b) s
def execYShr (h : Hq) (d a b : BitVec 4) (s : State) : Result := runLS h 1 (aluY aluShr d a b) s
def execYSra (h : Hq) (d a b : BitVec 4) (s : State) : Result := runLS h 1 (aluY aluSra d a b) s
def execYMin (h : Hq) (d a b : BitVec 4) (s : State) : Result := runLS h 1 (aluY aluMin d a b) s
def execYMax (h : Hq) (d a b : BitVec 4) (s : State) : Result := runLS h 1 (aluY aluMax d a b) s

/-- ADDI (07 R205). -/
def execYAddi (h : Hq) (d a : BitVec 4) (i : BitVec 11) (s : State) : Result :=
  runLS h 1 (do let s ← get; setYz d (s.ryz a + i.signExtend 64)) s
/-- MOVI (07 R205). -/
def execYMovi (h : Hq) (d : BitVec 4) (imm : BitVec 32) (s : State) : Result := runLS h 2 (setYz d (imm.signExtend 64)) s
/-- CMP (07 R206). -/
def execYCmp (h : Hq) (d : BitVec 3) (a b : BitVec 4) (c : BitVec 3) (s : State) : Result :=
  runLS h 1 (do let s ← get; setQ d (condition c.toNat (s.ryz a) (s.ryz b))) s
/-- MFS (07 R206). -/
def execYMfs (h : Hq) (d : BitVec 4) (i : BitVec 9) (s : State) : Result :=
  runLS h 1 (do let s ← get; setYz d (sysRead s i.toNat)) s

end Sys2Proof.Machine
end

