-- ==== Sys2Proof/Machine/Streams.lean ====
section
/-! DEFINITION. Buffers (01 R27, 07 R220 to R222), stream registers (07 R208 to R214), and the reads of streams. -/
namespace Sys2Proof.Machine

/-! ## Images -/

/-- Values laid side by side, `w` bits each, the first lowest. -/
def packBits (w : Nat) : List Nat → Nat
  | [] => 0
  | v :: vs => v % 2 ^ w + 2 ^ w * packBits w vs

/-- The first `n` values of `w` bits of a number. -/
def unpackBits (w : Nat) : Nat → Nat → List Nat
  | 0, _ => []
  | n + 1, v => v % 2 ^ w :: unpackBits w n (v / 2 ^ w)

/-- The image of lanes from position 0 up; positions past the last are zero (07 R214). -/
def imageOf (lanes : List Nat) : Image := BitVec.ofNat 32768 (packBits 32 lanes)
/-- The 1,024 lanes of an image. -/
def lanesOf (img : Image) : List Nat := unpackBits 32 1024 img.toNat

/-! ## Buffers -/

def Ctx.buf (c : Ctx) (i : BitVec 6) : Buffer := Vector.get c.bufs i.toFin
def Buffer.base (b : Buffer) : Nat := 64 * b.off64
def Buffer.len (b : Buffer) : Nat := 64 * b.len64

/-- A buffer record changed. BWAITs of the context that await the state it enters are met (07 R221). -/
def Ctx.setBuf (c : Ctx) (i : BitVec 6) (b : Buffer) : Ctx :=
  let note (st : SeqState) : SeqState := if st.awaiting = some (.buffer i.toNat b.st.toNat) then { st with met := true } else st
  { c.updSeqs note with bufs := Vector.set c.bufs i.toNat b i.isLt }

/-- Accesses of 01 R27 by the numbers of 14 R384: 0 write, 1 read, 2 producer completes, 3 consumer completes. A buffer that is being
completed takes no further write (09 R264). -/
def Buffer.legal (b : Buffer) (agent acc : Nat) : Bool :=
  match acc with
  | 0 => b.prod.toNat == agent && (b.st == 0 || b.st == 1) && !b.closing
  | 1 => b.cons.toNat == agent && (b.st == 2 || b.st == 3)
  | 2 => b.prod.toNat == agent && b.st == 1 && !b.closing
  | _ => b.cons.toNat == agent && b.st == 3

/-- The buffer after a legal access. -/
def Buffer.after (b : Buffer) (acc : Nat) : Buffer :=
  match acc with
  | 0 => if b.st = 0 then { b with st := 1, fp := 0 } else b
  | 1 => { b with st := 3 }
  | 2 => { b with st := 2 }
  | _ => { b with st := 0 }

/-- A fault that names a buffer (14 R384). -/
def bufTrap (cause : Nat) (c : Ctx) (i : BitVec 6) (acc : Nat) : Trap :=
  { cause := cause, aux0 := i.toNat + (c.buf i).st.toNat * 2 ^ 6 + acc * 2 ^ 8 + c.id.lcore * 2 ^ 10 }

/-- The buffer allows the access (01 R27), or it faults; nothing changes. -/
def bufCheck (target : CtxId) (i : BitVec 6) (agent acc : Nat) : M Unit := do
  let s ← get
  match s.ctx? target with
  | none => fault 0x090
  | some c =>
    if !(c.buf i).declared then throw (.trap (bufTrap 0x111 c i acc))
    else if !(c.buf i).legal agent acc then throw (.trap (bufTrap 0x110 c i acc))
    else pure ()

/-- An access to a buffer: its check and its transition. -/
def bufAccess (target : CtxId) (i : BitVec 6) (agent acc : Nat) : M Unit := do
  bufCheck target i agent acc
  modify (fun s => s.updCtx target (fun c => c.setBuf i ((c.buf i).after acc)))

/-- FP covers bytes up to `top` (09 R264). -/
def bufFill (target : CtxId) (i : BitVec 6) (top : Nat) : M Unit :=
  modify (fun s => s.updCtx target (fun c => c.setBuf i { c.buf i with fp := max (c.buf i).fp top }))

/-- The 64 buffer numbers. -/
def bufNums : List (BitVec 6) := (List.range 64).map (BitVec.ofNat 6)

/-- The declared buffer that holds a byte of the frame. -/
def Ctx.bufAt (c : Ctx) (off : Nat) : Option (BitVec 6) :=
  bufNums.find? (fun i => (c.buf i).declared && decide ((c.buf i).base ≤ off) && decide (off < (c.buf i).base + (c.buf i).len))

/-- The frame offset of a scratchpad part (04 R104). -/
def Seg.frameOff (g : Seg) : Nat := g.tr.spg * 4096 + g.va.toNat % 4096

/-- The buffers of a frame that a part of an access touches, each once. -/
def Ctx.bufsOf (c : Ctx) (g : Seg) : List (BitVec 6) :=
  ((List.range g.len).filterMap (fun j => c.bufAt (g.frameOff + j))).dedup

/-- Checks of a scratchpad part by an agent of 07 R220 (04 R104, 09 R270): the frame is resident, and every buffer it
touches allows the access. No other agent writes the broadcast core's frame while its plan is open (11 R327). -/
def spadCheck (me : CtxId) (own acc : Nat) (g : Seg) : M Unit := do
  let s ← get
  if g.tr.spad then
    match s.frame? me.launch g.tr.lcore with
    | none => faultAt 0x090 g.va
    | some c =>
      if acc == 0 && c.onBcast && s.frameGuarded c.id.launch then faultAt 0x207 g.va
      else
        withTrap (fun t => ({ t with va := g.va } : Trap)) <|
          (eachM (c.bufsOf g) (fun i => bufCheck c.id i (if c.id = me then own else 3) acc))
  else pure ()

/-- An operation on each declared buffer that a scratchpad part touches. -/
def spadEach (me : CtxId) (g : Seg) (f : Ctx → BitVec 6 → M Unit) : M Unit := do
  let s ← get
  if g.tr.spad then
    match s.frame? me.launch g.tr.lcore with
    | none => faultAt 0x090 g.va
    | some c => eachM (c.bufsOf g) (f c)
  else pure ()

/-- The transitions of a scratchpad part's buffers. -/
def spadEnter (me : CtxId) (own acc : Nat) (g : Seg) : M Unit :=
  spadEach me g (fun c i => bufAccess c.id i (if c.id = me then own else 3) acc)

/-- FP of the buffers that a scratchpad part is written to. -/
def spadFill (me : CtxId) (g : Seg) : M Unit :=
  spadEach me g (fun c i => bufFill c.id i (min (c.buf i).len (g.frameOff + g.len - (c.buf i).base)))

/-- A scratchpad part is read (`acc` 1) or written (0). -/
def spadTouch (me : CtxId) (own acc : Nat) (g : Seg) : M Unit := do
  spadEnter me own acc g
  if acc = 0 then spadFill me g else pure ()

/-! ## Stream registers (07 R208, R209) -/

def Ctx.stream (c : Ctx) (i : BitVec 4) : Stream := Vector.get c.streams i.toFin
def Ctx.setStream (c : Ctx) (i : BitVec 4) (t : Stream) : Ctx := { c with streams := Vector.set c.streams i.toNat t i.isLt }

/-- A field by its number. -/
def Stream.field (t : Stream) (i : Nat) : Nat := if h : i < 13 then (t.f[i]'h).toNat else 0
def Stream.setField (t : Stream) (i : Nat) (v : DWord) : Stream := if h : i < 13 then { t with f := t.f.set i v h } else t

def Stream.base (t : Stream) : Nat := t.field 0
def Stream.form (t : Stream) : Nat := t.field 1
def Stream.n0 (t : Stream) : Nat := t.field 2
def Stream.n1 (t : Stream) : Nat := t.field 3
def Stream.n2 (t : Stream) : Nat := t.field 4
def Stream.start (t : Stream) : Nat := t.field 5
def Stream.p0 (t : Stream) : Int := signExt (t.field 6) 48
def Stream.p1 (t : Stream) : Int := signExt (t.field 7) 48
def Stream.p2 (t : Stream) : Int := signExt (t.field 8) 48
def Stream.hb (t : Stream) : Nat := t.field 9
def Stream.sstr (t : Stream) : Nat := t.field 10
def Stream.expb (t : Stream) : Nat := t.field 11
def Stream.pos (t : Stream) : Nat := t.field 12
def Stream.total (t : Stream) : Nat := t.n0 * t.n1 * t.n2
def Stream.fmt (t : Stream) : Nat := bits t.form 3 0
def Stream.prec (t : Stream) : Nat := bits t.form 7 4
def Stream.lvt (t : Stream) : BitVec 3 := BitVec.ofNat 3 (bits t.form 10 8)
def Stream.taben (t : Stream) : Bool := bit t.form 11
def Stream.raw (t : Stream) : Bool := bit t.form 16
def Stream.pol (t : Stream) : Nat := bits t.form 18 17
def Stream.shd (t : Stream) : Bool := bit t.form 19

/-- Bits of an element (07 R209, 03 R66, R71). -/
def fmtWidth (fmt : Nat) : Nat :=
  match fmt with
  | 0 => 32
  | 1 => 16
  | 2 => 16
  | 3 => 32
  | 6 => 4
  | 7 => 4
  | 8 => 4
  | _ => 8
def Stream.width (t : Stream) : Nat := fmtWidth t.fmt

/-- Bits of each field (07 R208). -/
def fieldWidths : List Nat := [64, 64, 32, 32, 32, 48, 48, 48, 48, 64, 32, 7, 64]

/-- Row 3 of 07 R212 and 09 R261: the fields and FORM are well formed. -/
def streamFormOk (t : Stream) (write bk epi : Bool) (bufLen : Nat) : Bool :=
  (List.range 13).all (fun i => t.field i / 2 ^ ((fieldWidths[i]?).getD 64) == 0) &&
  decide (0 < t.n0) && decide (0 < t.n1) && decide (0 < t.n2) && decide (t.fmt ≤ 10) &&
  bits t.form 63 20 == 0 && bits t.form 15 12 == 0 && (t.prec == 0 || t.fmt == 9) &&
  !(t.raw && decide (8 ≤ t.fmt)) && (write || (!t.shd && !t.taben)) && t.pol != 3 &&
  (!bk || decide (t.base < bufLen)) && (t.fmt != 10 || (decide (1 ≤ t.expb) && decide (t.expb ≤ 64))) &&
  (t.fmt != 8 || (t.hb % 4 == 0 && t.sstr % 4 == 0)) && (t.fmt != 10 || (t.n1 == 1 && t.n2 == 1)) &&
  (!(write && t.taben) || t.fmt == 8) &&
  (!epi || (t.shd && !bk && !t.raw && (t.fmt == 0 || t.fmt == 1 || t.fmt == 8)))

/-- START, P1, P2 and N0 are multiples of a block, and P0 is 1 (rows 4 and 5 of 07 R212). -/
def Stream.aligned (t : Stream) (m : Nat) : Bool :=
  t.start % m == 0 && t.field 7 % m == 0 && t.field 8 % m == 0 && t.n0 % m == 0 && t.p0 == 1

/-- Rows 3 to 7 of 07 R212: the cause of the first that holds. -/
def bindCause (t : Stream) (write bk epi : Bool) (bufLen : Nat) : Option Nat :=
  if !streamFormOk t write bk epi bufLen then some 0x103
  else if t.fmt == 8 && !t.aligned 256 then some 0x108
  else if t.fmt == 9 && !t.aligned 64 then some 0x108
  else if t.fmt == 10 && (t.p0 != 1 || t.start % 16 != 0) then some 0x108
  else if t.fmt == 9 && (if write then t.prec != 8 else decide (t.prec < 2) || decide (8 < t.prec)) then some 0x109
  else none

/-! ## Transfers in flight -/

/-- OS, BEN and BS of an epilogue descriptor (10 R297). -/
def epiOs (d : DWord) : BitVec 4 := BitVec.ofNat 4 (bits d.toNat 30 27)
def epiBen (d : DWord) : Bool := bit d.toNat 26
def epiBs (d : DWord) : BitVec 4 := BitVec.ofNat 4 (bits d.toNat 25 22)

/-- A tile is held for the stream, or its bias is still to be read from it (10 R303, R314). -/
def Ctx.epiBusy (c : Ctx) (st : BitVec 4) : Bool :=
  c.epi.any (fun e => (epiOut e.epi && epiOs e.epi == st) || (epiBen e.epi && epiBs e.epi == st && !e.shaped)) ||
  c.wins.any (fun w => w.last && !w.flags.abort && epiBen w.epi && epiBs w.epi == st)

/-- A transfer on the stream is in flight (07 R211, R212). DEDUCED (log 24): a transfer is in flight from when its
instruction first waits inside it until it retires. -/
def Ctx.streamBusy (c : Ctx) (st : BitVec 4) : Bool :=
  allSeqs.any (fun q => match (c.seq q).flight with | some f => f.st == st && f.drain.isNone | none => false) || c.epiBusy st

/-- BOUND of a stream, or ss.wdb where it is 0 (07 R207). -/
def Ctx.streamBound (c : Ctx) (st : BitVec 4) : Nat :=
  if (c.stream st).bound = 0 then c.bound else (c.stream st).bound.toNat

/-- The sequencer in focus has a transfer in flight: the bound of its waits and the level table of its stream stay as they are
now. -/
def beginFlight (st : BitVec 4) (drain : Option (Nat × Nat)) (s : State) : State :=
  { s with cx := s.cx.updSeq s.cur (fun q =>
      match q.flight with
      | some _ => q
      | none => { q with
          flight := some { st := st, bound := s.cx.streamBound st, drain := drain, table := s.cx.lvt.get (s.cx.stream st).lvt }
          waited := if q.awaiting.isSome then 0 else q.waited }) }

/-- The state after a transfer that did not complete: no effect but A bits, the lines it moved between caches, and what a release
performed. -/
def undone (s s' : State) : State := { s with mem := s'.mem, tags := s'.tags, l2 := s'.l2, firstWrites := s'.firstWrites }

/-- The state in which an access of L or S waits: what it has sent is recorded. -/
def sending (s s' : State) : State :=
  let q' := s'.cx.seq s.cur
  { undone s s' with cx := s.cx.updSeq s.cur (fun q => { q with flight := q'.flight, toward := q'.toward, waited := q'.waited }) }

/-- The state in which a transfer waits: it is in flight. -/
def inFlight (st : BitVec 4) (s s' : State) : State := beginFlight st none (sending s s')

/-- Say of a fault which stream, element number and element index it names, where it names none yet (14 R384). -/
def atElem (st : BitVec 4) (k : Nat) (e : Int) (t : Trap) : Trap :=
  if t.lkind ≠ 0 then t
  else { t with lkind := 3, lval := st.toNat * 2 ^ 48 + k % 2 ^ 48,
                aux0 := if t.cause = 0x089 ∨ (0x110 ≤ t.cause ∧ t.cause ≤ 0x112) then t.aux0 else (dw e).toNat }

/-- LKIND and LVAL of an element of a stream (14 R384). -/
def elemName (st : BitVec 4) (k : Nat) : Nat × Nat := (3, st.toNat * 2 ^ 48 + k % 2 ^ 48)

/-- What a watchdog frame of the transfer in flight names. -/
def SeqState.rename (f : Nat × Nat × DWord → Nat × Nat × DWord) (q : SeqState) : SeqState :=
  { q with flight := q.flight.map (fun x => { x with names := f x.names }) }

/-- Where an access of a transfer waits, say what a watchdog frame names (07 R207, R213). -/
def naming {α : Type} (ag : Agent) (st : BitVec 4) (f : Nat × Nat × DWord → Nat × Nat × DWord) (op : M α) : M α := fun s =>
  match op s with
  | .error (.wait a) s' =>
    if ag.srce = 0 ∨ ag.srce = 2 then
      let s' := beginFlight st none s'
      .error (.wait a) { s' with cx := s'.cx.updSeq s'.cur (·.rename f) }
    else .error (.wait a) s'
  | r => r

/-- A transfer on a stream from element number `k` on: it has no effect where it faults or waits (07 R203, R213, 09 R262). A wait that
no access of an element makes names element `k`. DESIGN CHOICE (log 55): so does a fault of the whole transfer, with element index 0. -/
def transferAt (k : Stream → Nat) (st : BitVec 4) (op : M Unit) : M Unit := fun s =>
  let n := k (s.cx.stream st)
  match op s with
  | .ok a s' => .ok a (beginFlight st none s')
  | .error (.wait a) s' =>
    let s' := inFlight st s s'
    .error (.wait a) (if a = .reply then s' else
      { s' with cx := s'.cx.updSeq s'.cur (·.rename (fun _ => ((elemName st n).1, (elemName st n).2, 0))) })
  | .error (.trap t) s' => .error (.trap (atElem st n 0 t)) (undone s s')

/-- A transfer on a stream from POS on. -/
def transfer (st : BitVec 4) (op : M Unit) : M Unit := transferAt Stream.pos st op

/-- Row 1 of 07 R213 and 09 R262. -/
def boundFor (st : BitVec 4) (write : Bool) : M (Stream × Binding) := do
  let s ← get
  let t := s.cx.stream st
  match t.bind with
  | none => fault 0x100
  | some b => if b.write = write then pure (t, b) else fault 0x100

/-- Row 3. -/
def notExhausted (t : Stream) : M Unit := require (decide (t.pos < t.total)) 0x102

/-- Set POS. -/
def setPos (st : BitVec 4) (v : Nat) : M Unit :=
  modCx (fun c => c.setStream st ((c.stream st).setField 12 (BitVec.ofNat 64 v)))

/-! ## Elements (07 R210) -/

/-- The element index of coordinates. -/
def Stream.index (t : Stream) (i0 i1 i2 : Nat) : Int := t.start + i0 * t.p0 + i1 * t.p1 + i2 * t.p2
/-- The element index of an element number. -/
def Stream.elem (t : Stream) (k : Nat) : Int := t.index (k % t.n0) (k / t.n0 % t.n1) (k / (t.n0 * t.n1))

/-- Elem(k), or "stream range". -/
def rangeCheck (st : BitVec 4) (k : Nat) (e : Int) : M Nat :=
  if e < 0 ∨ 2 ^ 52 ≤ e then withTrap (atElem st k e) (fault 0x107) else pure e.toNat

/-- Byte and length of the storage of an element; an NI8 element is read plane by plane (03 R73, R87). -/
def Stream.byteOf (t : Stream) (e : Nat) : Nat := e * t.width / 8

/-- The first byte position that an element read touches, and how many from it to the last. -/
def Stream.span (t : Stream) (e : Nat) : Nat × Nat :=
  if t.fmt = 9 then (e / 64 * 64 + e % 64 / 8, 8 * (t.prec - 1) + 1) else (t.byteOf e, max 1 (t.width / 8))

/-- The first address of an access whose held translation has been revoked (04 R136), of the parts that 4 KiB boundaries cut. -/
def Stream.revokedAt (t : Stream) (va : DWord) (n : Nat) : Option DWord :=
  ((cut va n).find? (fun g => t.pages.any (fun p => p.revoked.isSome && p.covers g.1))).map (·.1)

/-- An access through a revoked window faults (04 R136). -/
def windowCheck (t : Stream) (va : DWord) (n : Nat) : M Unit :=
  match t.revokedAt va n with
  | some a => faultAt 0x08C a
  | none => pure ()

/-- The stream holds the translations of a checked access: of the address without its tag. -/
def holdPages (st : BitVec 4) (segs : List Seg) : M Unit :=
  modCx (fun c =>
    let t := c.stream st
    let new := (segs.map (fun g =>
      StreamPage.mk (g.va.toNat % 2 ^ 56 / 2 ^ levelShift g.tr.level * 2 ^ levelShift g.tr.level) (2 ^ levelShift g.tr.level) none)).filter (fun p =>
        !t.pages.any (fun q => q.va == p.va && q.size == p.size))
    if new.isEmpty then c else c.setStream st { t with pages := t.pages ++ new })

/-- The part is read or written at its home on another device, or in the frame of another logical core, to which a request goes. A
read of lines that the die holds needs none. -/
def Seg.elsewhere (s : State) (ag : Agent) (pol : Nat) (k : Acc) (g : Seg) : Bool :=
  if g.tr.spad then g.tr.lcore != ag.ctx.lcore
  else g.tr.home != s.dev &&
    !(k == .read && policy g.tr pol != 0 && (linesOf (g.key .read) g.len).all (fun l => (s.l2? ag.die l).isSome))

/-- A sequencer, or the tile that the optical bank works on, has sent to devices. -/
def noteToward (ag : Agent) (ds : List Nat) (s : State) : State :=
  if ag.srce = 4 then { s with cx := { s.cx with epi := s.cx.epi.map (fun e => if e.sent then e else { e with toward := ds }) } }
  else { s with cx := s.cx.updSeq s.cur (fun st => { st with toward := ds }) }

/-- The homes on other devices that a transfer sends requests to for bytes at a virtual address. -/
def sentHomes (s : State) (ag : Agent) (pol : Nat) (k : Acc) (va : DWord) (n : Nat) : List Nat :=
  (cut va n).filterMap (fun p =>
    match translate s ag.asid k p.1 with
    | .ok t => if !t.spad && Seg.elsewhere s ag pol k ⟨p.1, p.2, t⟩ then some t.home else none
    | .error _ => none)

/-- A read transfer that waits has sent for all the bytes that it reads: it is lost with any of their homes (13 R356). -/
def reading {α : Type} (ag : Agent) (pol : Nat) (places : List (DWord × Nat)) (op : M α) : M α := fun s =>
  match op s with
  | .error (.wait a) s' => .error (.wait a) (noteToward ag (places.flatMap (fun p => sentHomes s ag pol .read p.1 p.2)).dedup s')
  | r => r

/-- A transfer waits until what it has sent is answered (07 R207, 09 R259, R269). -/
def awaitReply (ag : Agent) (pol : Nat) (k : Acc) (segs : List Seg) : M Unit := do
  let s ← get
  let away := segs.filter (Seg.elsewhere s ag pol k)
  if ag.acked || away.isEmpty then pure ()
  else do
    modify (noteToward ag ((away.filter (fun g => !g.tr.spad)).map (fun g => g.tr.home)).dedup)
    waitFor .reply

/-- The byte lies in the broadcast core's own frame (11 R318, R326). -/
def ownFrame (s : State) (va : Nat) : Bool :=
  match walkRoot s s.cx.asid.toNat va with
  | .ok t => t.spad && t.lcore == Config.bcastLcore
  | .error _ => false

/-- The first and the last of a run of bytes lie there. -/
def ownBytes (s : State) (va n : Nat) : Bool := ownFrame s (va % 2 ^ 64) && ownFrame s ((va + n - 1) % 2 ^ 64)

/-- Inside a plan the broadcast core's streams read its own frame alone (11 R326, R318). -/
def replayableRead (va : DWord) (n : Nat) : M Unit := do
  let s ← get
  if s.cx.onBcast && s.planOpen s.cx.id.launch && !ownBytes s va.toNat n then faultAt 0x207 va else pure ()

/-- Read bytes of memory through a stream. `own` is the reader's agent number for the buffers of its own frame. -/
def streamMem (ag : Agent) (own : Nat) (st : BitVec 4) (t : Stream) (va : DWord) (n : Nat) : M (List Byte) := do
  replayableRead va n
  windowCheck t va n
  let segs ← pages ag .read va n
  eachM segs (spadCheck ag.ctx own 1)
  homeCheck .read segs
  eachM segs (tagCheck .read)
  watchCheck ag .read va n
  naming ag st (fun n => (n.1, n.2.1, va)) (awaitReply ag t.pol .read segs)
  holdPages st segs
  eachM segs (spadTouch ag.ctx own 1)
  readSegs ag t.pol segs

/-- Row 5 of 07 R213 for `n` bytes at a byte position: they lie in the buffer. -/
def bufRange (t : Stream) (b : Binding) (off n acc : Nat) : M Unit := do
  let s ← get
  if b.bk ∧ (s.cx.buf b.buf).len < t.base + off + n then throw (.trap (bufTrap 0x112 s.cx b.buf acc)) else pure ()

/-- Read bytes at a byte position of a stream (07 R210). -/
def streamBytes (ag : Agent) (own : Nat) (st : BitVec 4) (t : Stream) (b : Binding) (off n : Nat) : M (List Byte) := do
  if b.bk then do
    bufRange t b off n 1
    let s ← get
    bufAccess s.cx.id b.buf own 1
    pure (s.cx.spad.readN ((s.cx.buf b.buf).base + t.base + off) n)
  else streamMem ag own st t (BitVec.ofNat 64 (t.base + off)) n

/-- The header of the scale block of an element (03 R78, R83). -/
def streamHeader (ag : Agent) (own : Nat) (st : BitVec 4) (t : Stream) (e : Nat) : M Nat := do
  let va : DWord := BitVec.ofNat 64 (t.hb + e / 256 * t.sstr)
  let b ← streamMem ag own st t va 4
  if hdrOk (leNat b) then pure (leNat b) else faultAt 0x180 va

/-- The stored code of an element: `w` bits, or the `p` bits read of an NI8 element. -/
def streamCode (ag : Agent) (own : Nat) (st : BitVec 4) (t : Stream) (b : Binding) (e : Nat) : M Nat := do
  if t.fmt = 9 then do
    let bs ← collectM (List.range t.prec) (fun j => streamBytes ag own st t b (e / 64 * 64 + 8 * j + e % 64 / 8) 1)
    pure (bs.foldl (fun v x => 2 * v + (if bit (leNat x) (e % 8) then 1 else 0)) 0)
  else do
    let x ← streamBytes ag own st t b (t.byteOf e) (max 1 (t.width / 8))
    pure (if t.width = 4 then leNat x / (if e % 2 = 1 then 16 else 1) % 16 else leNat x)

/-- An element as read: its index, its code, and the header of its scale block. -/
structure Element where
  e : Nat
  code : Nat
  hdr : Nat
  deriving DecidableEq, Repr

/-- An access of a transfer to one element: a fault or a wait of it names the element. -/
def elemOp {α : Type} (ag : Agent) (st : BitVec 4) (k e : Nat) (op : M α) : M α :=
  naming ag st (fun n => ((elemName st k).1, (elemName st k).2, n.2.2)) (withTrap (atElem st k e) op)

/-- Elements by number, lowest first (rows 5 and 6 of 07 R213). A header is read once a scale block. -/
def elemsFrom (ag : Agent) (own : Nat) (st : BitVec 4) (t : Stream) (b : Binding) :
    List (Nat × Int) → Option (Nat × Nat) → M (List Element)
  | [], _ => pure []
  | (k, e) :: rest, hdr => do
    let e ← rangeCheck st k e
    withTrap (atElem st k e) (bufRange t b (t.span e).1 (t.span e).2 1)
    let h ← elemOp ag st k e (match hdr with
      | some (blk, h) => if blk = e / 256 then pure h else if t.fmt = 8 then streamHeader ag own st t e else pure 0
      | none => if t.fmt = 8 then streamHeader ag own st t e else pure 0)
    let v ← elemOp ag st k e (streamCode ag own st t b e)
    let r ← elemsFrom ag own st t b rest (some (e / 256, h))
    pure (⟨e, v, h⟩ :: r)

/-- Where the bytes of elements, and their headers, lie in memory. -/
def Stream.places (t : Stream) (b : Binding) (elems : List (Nat × Int)) : List (DWord × Nat) :=
  elems.flatMap (fun p =>
    (if b.bk then [] else [(BitVec.ofNat 64 (t.base + (t.span p.2.toNat).1), (t.span p.2.toNat).2)]) ++
    (if t.fmt = 8 then [(BitVec.ofNat 64 (t.hb + p.2.toNat / 256 * t.sstr), 4)] else []))

/-- Elements of a read transfer. -/
def readElems (ag : Agent) (own : Nat) (st : BitVec 4) (t : Stream) (b : Binding) (elems : List (Nat × Int)) :
    M (List Element) := reading ag t.pol (t.places b elems) (elemsFrom ag own st t b elems none)

/-- The level of an element that enters the optics whole (07 R217, 03 R82); an NI8 element gives its value. -/
def elemLevel (c : Ctx) (t : Stream) (x : Element) : Int :=
  match t.fmt with
  | 8 => if hdrE x.hdr = 0 then 0 else level (hdrSel x.hdr (x.e % 256 / 32)) x.code (c.lvt.get t.lvt)
  | 6 => signExt x.code 4
  | 9 => signExt x.code t.prec
  | _ => x.code

/-- The lane value of an element (07 R214). -/
def widen (c : Ctx) (t : Stream) (x : Element) : Nat :=
  let ext (i : Int) : Nat := (BitVec.ofInt 32 i).toNat
  match t.fmt with
  | 1 => convFF bf16 fp32 x.code
  | 2 => convFF fp16 fp32 x.code
  | 4 => ext (signExt x.code 8)
  | 6 => ext (signExt x.code 4)
  | 8 => sb4Value (hdrE x.hdr) (elemLevel c t x)
  | 9 => ext (signExt x.code t.prec)
  | _ => x.code

/-- Row 4 of 07 R213, for L. -/
def rowFour (b : Binding) : M Unit := do
  let s ← get
  if b.bk then bufCheck s.cx.id b.buf 0 1 else pure ()

/-- LAST of a read transfer: the consumer completes the bound buffer (07 R215). -/
def lastRead (l : BitVec 1) (b : Binding) : M Unit := do
  let s ← get
  if l = 1 ∧ b.bk then bufAccess s.cx.id b.buf 0 3 else pure ()

/-! ## SSET and SBIND -/

/-- SSET (07 R211). DESIGN CHOICE (log 52): one of a field other than POS ends the binding of an epilogue stream too, although 09
R261 says that S may not name the stream so. -/
def execSset (h : Hq) (st n : BitVec 4) (f : BitVec 5) (imm : BitVec 32) (s : State) : Result :=
  runLS h 2 (withTrap (atElem st 0 0) (do
    let s ← get
    let t := s.cx.stream st
    if s.cx.streamBusy st then fault 0x104
    else do
      let v := s.ryz n + imm.signExtend 64
      let t' := t.setField f.toNat v
      if f ≠ 12 then modCx (fun c => c.setStream st { t' with bind := none, pages := [] })
      else if t.bind.isSome ∧ t.total < v.toNat then fault 0x107
      else modCx (fun c => c.setStream st t'))) s

/-- SBIND (07 R212, 09 R261). A bind that fails after row 1 leaves the register unbound. -/
def execSbind (h : Hq) (b : BitVec 6) (st : BitVec 4) (epi bk : BitVec 1) (imm : BitVec 32) (s : State) : Result :=
  runLS h 2 (withTrap (atElem st 0 0) (do
    let s ← get
    if s.cx.streamBusy st then fault 0x104
    else do
      let t := s.cx.stream st
      modCx (fun c => c.setStream st { t with bind := none, pages := [] })
      let write := s.cur == .s
      let bf := s.cx.buf b
      if bk = 1 ∧ !bf.declared then throw (.trap (bufTrap 0x111 s.cx b (if write then 0 else 1)))
      else
        match bindCause t write (bk == 1) (epi == 1) bf.len with
        | some c => fault c
        | none => modCx (fun c => c.setStream st { t.setField 12 0 with
            bind := some ⟨write, bk == 1, b, epi == 1⟩, bound := imm, pages := [] }))) s

/-! ## Buffer instructions -/

/-- The agent number of L or S (07 R220). -/
def agentNum (q : SeqId) : Nat := if q = .l then 0 else 1

/-- BDECL (07 R220). -/
def execBdecl (h : Hq) (b : BitVec 6) (cons prod : BitVec 2) (len off : BitVec 16) (s : State) : Result :=
  runL h 2 (do
    replayable
    let s ← get
    let bf := s.cx.buf b
    let n := len.toNat + 1
    let overlap := bufNums.any (fun i => i != b && (s.cx.buf i).declared &&
      decide ((s.cx.buf i).off64 < off.toNat + n) && decide (off.toNat < (s.cx.buf i).off64 + (s.cx.buf i).len64))
    if (bf.declared && bf.st != 0) || decide (65536 < off.toNat + n) || overlap then throw (.trap (bufTrap 0x111 s.cx b 0))
    else modCx (fun c => c.setBuf b { declared := true, prod := prod, cons := cons, st := 0, off64 := off.toNat, len64 := n, fp := 0 })) s

/-- BWAIT (07 R221). -/
def execBwait (h : Hq) (b : BitVec 6) (t : BitVec 2) (s : State) : Result :=
  runLS h 1 (do
    let s ← get
    if !(s.cx.buf b).declared then throw (.trap (bufTrap 0x111 s.cx b 1))
    else waitUnless ((s.cx.buf b).st == t || (s.cx.seq s.cur).met) (.buffer b.toNat t.toNat)) s

/-- The buffer record (07 R222). -/
def Buffer.record (b : Buffer) : DWord :=
  if b.declared then
    BitVec.ofNat 64 (b.len64 * 2 ^ 46 + b.off64 * 2 ^ 30 + b.fp * 2 ^ 7 + 2 ^ 6 + b.cons.toNat * 2 ^ 4 + b.prod.toNat * 2 ^ 2 +
      b.st.toNat)
  else 0

/-- BSTATE.read (07 R222). -/
def execBstateRead (h : Hq) (b : BitVec 6) (n : BitVec 4) (s : State) : Result :=
  runLS h 1 (do let s ← get; setYz n (s.cx.buf b).record) s

/-- BSTATE.pdone. -/
def execBstatePdone (h : Hq) (b : BitVec 6) (s : State) : Result :=
  runLS h 1 (do replayable; let s ← get; bufAccess s.cx.id b (agentNum s.cur) 2) s

/-- BSTATE.cdone. -/
def execBstateCdone (h : Hq) (b : BitVec 6) (s : State) : Result :=
  runLS h 1 (do replayable; let s ← get; bufAccess s.cx.id b (agentNum s.cur) 3) s

/-- BSTATE.free. -/
def execBstateFree (h : Hq) (b : BitVec 6) (s : State) : Result :=
  runLS h 1 (do
    replayable
    let s ← get
    if !(s.cx.buf b).declared then throw (.trap (bufTrap 0x111 s.cx b 0))
    else if (s.cx.buf b).st ≠ 0 then throw (.trap (bufTrap 0x110 s.cx b 0))
    else modCx (fun c => c.setBuf b {})) s

end Sys2Proof.Machine
end

