-- ==== Sys2Proof/Machine/Load.lean ====
section
/-! DEFINITION. The transfers of L: LDS, LDG, LDSO, LDB, LDZ, PREF, LDTF (07 R213 to R226), and the decoder. -/
namespace Sys2Proof.Machine

/-- Image queues by number. -/
def Ctx.lqAt (c : Ctx) (n : Nat) : List Image := if h : n < 4 then c.lq[n]'h else []
def Ctx.setLq (c : Ctx) (n : Nat) (l : List Image) : Ctx := if h : n < 4 then { c with lq := c.lq.set n l h } else c
def Ctx.sqAt (c : Ctx) (n : Nat) : List Image := if h : n < 4 then c.sq[n]'h else []
def Ctx.setSq (c : Ctx) (n : Nat) (l : List Image) : Ctx := if h : n < 4 then { c with sq := c.sq.set n l h } else c

/-- Give an image to lq n (01 R25, R26); it waits while the queue holds two. -/
def giveLq (n : Nat) (img : Image) : M Unit := do
  let s ← get
  if 2 ≤ (s.cx.lqAt n).length then waitFor (.lqRoom n)
  else modCx (fun c => c.setLq n (c.lqAt n ++ [img]))

/-- Elements of an image of a stream (07 R214). -/
def Stream.perImage (t : Stream) : Nat := if t.raw then 32768 / t.width else 1024

/-- Element numbers from `k` up, with their indices. -/
def Stream.run (t : Stream) (k n : Nat) : List (Nat × Int) := (List.range n).map (fun j => (k + j, t.elem (k + j)))

/-- The image of elements read (07 R214). -/
def elemImage (c : Ctx) (t : Stream) (xs : List Element) : Image :=
  if t.raw then BitVec.ofNat 32768 (packBits t.width (xs.map (·.code))) else imageOf (xs.map (widen c t))

/-- A fault of the position of a transfer names the element there (14 R384). -/
def atPos (st : BitVec 4) (t : Stream) (op : M Unit) : M Unit := withTrap (atElem st t.pos (t.elem t.pos)) op

/-- LDS (07 R215). -/
def execLds (h : Hq) (st n : BitVec 4) (l : BitVec 1) (s : State) : Result :=
  runL h 1 (transfer st (do
    let (t, b) ← boundFor st false
    require (decide (t.fmt ≤ 7) || (decide (t.fmt ≤ 9) && !t.raw)) 0x103
    notExhausted t
    rowFour b
    let cnt := min t.perImage (t.total - t.pos)
    let s ← get
    let xs ← readElems s.agent 0 st t b (t.run t.pos cnt)
    giveLq n.toNat (elemImage s.cx t xs)
    setPos st (t.pos + cnt)
    lastRead l b)) s

/-- Index `c` of an entry of iq. -/
def indexAt (e : BitVec 2048) (c : Nat) : Nat := e.toNat / 2 ^ (32 * c) % 2 ^ 32

/-- A column among others in the order of their indices. -/
def insertColumn (ix : BitVec 2048) (c : Nat) : List Nat → List Nat
  | [] => [c]
  | d :: ds => if indexAt ix c ≤ indexAt ix d then c :: d :: ds else d :: insertColumn ix c ds

/-- The elements of LDG (07 R216), with the lane each fills. The element number that a fault names is that of its coordinates in
dimensions 0 and 1 (log 25), so the columns go in the order of their indices: the lowest-numbered element that fails sets the fate
(R213). -/
def gatherRun (t : Stream) (ix : BitVec 2048) : List (Nat × Nat × Int) :=
  ((List.range 64).foldr (insertColumn ix) []).flatMap (fun c => (List.range (min t.n0 16)).map (fun r =>
    (64 * r + c, r + indexAt ix c * t.n0, t.index r (indexAt ix c) 0)))

/-- LDG (07 R216), which ignores POS. -/
def execLdg (h : Hq) (st n : BitVec 4) (l : BitVec 1) (s : State) : Result :=
  runL h 1 (transferAt (fun _ => 0) st (do
    let (t, b) ← boundFor st false
    require (decide (t.fmt ≤ 7) && !t.raw) 0x103
    rowFour b
    let s ← get
    match s.cx.iq with
    | [] => waitFor .iqEntry
    | ix :: rest =>
      match (List.range 64).find? (fun c => decide (t.n1 ≤ indexAt ix c)) with
      | some c => throw (.trap { cause := 0x118, lkind := 1, lval := c })
      | none => do
        let run := gatherRun t ix
        let xs ← readElems s.agent 0 st t b (run.map (·.2))
        let lanes := List.zip (run.map (·.1)) (xs.map (widen s.cx t))
        giveLq n.toNat (imageOf ((List.range 1024).map (fun j => (look lanes j).getD 0)))
        modCx (fun c => { c with iq := rest })
        lastRead l b)) s

/-! ## Weights (07 R217 to R219) -/

def Ctx.slot (c : Ctx) (i : BitVec 2) : Option Tile := Vector.get c.slots i.toFin
def Ctx.setSlot (c : Ctx) (i : BitVec 2) (t : Option Tile) : Ctx := { c with slots := Vector.set c.slots i.toNat t i.isLt }

/-- The key of the tile cache (07 R219). -/
def tileKey (c : Ctx) (t : Stream) (b : Binding) : List Nat :=
  [c.id.launch, c.asid.toNat, (if b.bk then 1 + b.buf.toNat else 0), t.base, t.form, t.n0, t.n1, t.start, t.field 6, t.field 7,
   t.hb, t.sstr, t.pos / (t.n0 * t.n1)]

/-- Tiles that a core's cache holds. -/
def tileCacheSize : Nat := 16

/-- A tile becomes the most recently used of its core; past sixteen the least recently used goes. -/
def useTile (e : CachedTile) (l : List CachedTile) : List CachedTile :=
  let others := l.filter (fun x => x.core != e.core)
  let mine := l.filter (fun x => x.core == e.core && x.key != e.key)
  e :: mine.take (tileCacheSize - 1) ++ others

/-- Lists of `n` elements, one after another. -/
def chunksOf {α : Type} (n : Nat) : Nat → List α → List (List α)
  | 0, _ => []
  | k + 1, l => l.take n :: chunksOf n k (l.drop n)

/-- The kind of a tile staged from a stream. -/
def tileKind (t : Stream) : TileKind := if t.fmt = 8 then .sb4 else if t.fmt = 9 then .ni8 t.prec else .int4

/-- The exponent of a scale block: E - 127, or 0 for a zero block and for other formats. -/
def blockEw (t : Stream) (x : Element) : Int := if t.fmt = 8 ∧ hdrE x.hdr ≠ 0 then (hdrE x.hdr : Int) - 127 else 0

/-- The tile of the elements of a slice: N0 along K in each of N1 columns. -/
def buildTile (c : Ctx) (t : Stream) (xs : List Element) : Tile :=
  let cols := chunksOf t.n0 t.n1 xs
  { kind := tileKind t, kw := t.n0, nc := t.n1
    weights := cols.map (fun col => col.map (elemLevel c t))
    exps := cols.map (fun col => (List.range ((t.n0 + 255) / 256)).map (fun b =>
      match col[256 * b]? with | some x => blockEw t x | none => 0)) }

/-- LDSO (07 R218). The broadcast core has none (07 R217). -/
def execLdso (h : Hq) (st n : BitVec 4) (c l : BitVec 1) (s : State) : Result :=
  if s.cx.onBcast then .next s.illegal
  else runL h 1 (transfer st (do
    let (t, b) ← boundFor st false
    require ((t.fmt == 6 || t.fmt == 7 || t.fmt == 8 || t.fmt == 9) && !(t.raw && decide (8 ≤ t.fmt))) 0x103
    require (decide (t.n0 ≤ 1024) && decide (t.n1 ≤ 8)) 0x103
    notExhausted t
    let z := t.n0 * t.n1
    atPos st t (require (t.pos % z == 0) 0x107)
    let s ← get
    let key := tileKey s.cx t b
    let tile ← match (if c = 1 then s.tiles.find? (fun e => e.core == s.cx.core && e.key == key) else none) with
      | some e => do
        modify (fun s => { s with tiles := useTile e s.tiles })
        pure e.tile
      | none => do
        rowFour b
        let xs ← readElems s.agent 0 st t b (t.run t.pos z)
        let tile := buildTile s.cx t xs
        if c = 1 then modify (fun s => { s with tiles := useTile ⟨s.cx.core, key, tile⟩ s.tiles }) else pure ()
        pure tile
    let i : BitVec 2 := n.setWidth 2
    let s ← get
    if (s.cx.slot i).isSome then waitFor (.slot n.toNat)
    else do
      modCx (fun c => c.setSlot i (some tile))
      setPos st (t.pos + z)
      lastRead l b)) s

/-- LDTF (07 R219). -/
def execLdtf (h : Hq) (s : State) : Result :=
  runL h 1 (modify (fun s => { s with tiles := s.tiles.filter (fun e => e.core != s.cx.core) })) s

/-! ## LDB (07 R223) -/

/-- Write bytes of the frame at FP of a buffer, and advance FP. -/
def fillBuffer (b : BitVec 6) (data : List Byte) : M Unit := do
  bufAccess (← get).cx.id b 0 0
  modCx (fun c =>
    let bf := c.buf b
    { c.setBuf b { bf with fp := bf.fp + data.length } with spad := c.spad.writeN (bf.base + bf.fp) data })

/-- FP as a producer's first write finds it. -/
def Buffer.writeFp (b : Buffer) : Nat := if b.st = 0 then 0 else b.fp

/-- The 64 bytes of an NI8 group from element number `k` and index `e`: byte `o` of each of eight planes holds a bit of elements `8 o` to
`8 o + 7` (03 R73), so they are read in the order of the elements. DEDUCED (log 25): a plane past PREC belongs to them too. -/
def groupBytes (ag : Agent) (st : BitVec 4) (t : Stream) (b : Binding) (k e : Nat) : M (List Byte) := do
  let cols ← collectM (List.range 8) (fun o => elemOp ag st (k + 8 * o) (e + 8 * o)
    (collectM (List.range 8) (fun j => streamBytes ag 0 st t b (e / 64 * 64 + 8 * j + o) 1)))
  pure ((List.range 8).flatMap (fun j => cols.flatMap (fun x => (x[j]?).getD [])))

/-- The bytes of elements in storage order: codes packed, or whole groups of NI8. -/
def storedBytes (ag : Agent) (st : BitVec 4) (t : Stream) (b : Binding) (cnt : Nat) : M (List Byte) :=
  reading ag t.pol (t.places b (t.run t.pos cnt)) (do
    if t.fmt = 9 then do
      let gs ← collectM (List.range (cnt / 64)) (fun g => do
        let k := t.pos + 64 * g
        let e ← rangeCheck st k (t.elem k)
        groupBytes ag st t b k e)
      pure gs.flatten
    else do
      let vs ← collectM (t.run t.pos cnt) (fun p => do
        let e ← rangeCheck st p.1 p.2
        elemOp ag st p.1 e (streamCode ag 0 st t b e))
      pure (natBytes (cnt * t.width / 8) (packBits t.width vs)))

/-- LDB (07 R223). -/
def execLdb (h : Hq) (b : BitVec 6) (st n : BitVec 4) (l : BitVec 1) (s : State) : Result :=
  runL h 1 (transfer st (do
    replayable
    let (t, bd) ← boundFor st false
    let s ← get
    let cnt := (s.cx.ry n).toNat
    require (cnt * t.width % 8 == 0 && (t.fmt != 8 || cnt % 256 == 0) && (t.fmt != 9 || cnt % 64 == 0)) 0x103
    atPos st t (require ((t.fmt != 8 || t.pos % 256 == 0) && (t.fmt != 9 || t.pos % 64 == 0)) 0x107)
    notExhausted t
    require (decide (cnt ≤ t.total - t.pos)) 0x102
    let size := cnt * t.width / 8
    let bf := s.cx.buf b
    if cnt = 0 then
      if !bf.declared then throw (.trap (bufTrap 0x111 s.cx b 0))
      else if bf.prod ≠ 0 then throw (.trap (bufTrap 0x110 s.cx b 0))
      else rowFour bd
    else do
      bufCheck s.cx.id b 0 0
      if bf.len < bf.writeFp + size then throw (.trap (bufTrap 0x112 s.cx b 0)) else pure ()
      rowFour bd
      let data ← storedBytes s.agent st t bd cnt
      fillBuffer b data
    setPos st (t.pos + cnt)
    if l = 1 then bufAccess s.cx.id b 0 2 else pure ())) s

/-! ## The decoder (07 R224, R225) -/

/-- RWS-32 over whole words (12 R344). -/
def rws32 (c : BitVec 32) : Nat → List Byte → BitVec 32
  | 0, _ => c
  | n + 1, bs => rws32 (c.rotateLeft 1 + BitVec.ofNat 32 (leNat (bs.take 4))) n (bs.drop 4)

/-- RWS-32 of a byte string. -/
def rwsOf (c : BitVec 32) (bs : List Byte) : BitVec 32 := rws32 c (bs.length / 4) bs

/-- A ZRUN payload expanded; none where it breaks the format. -/
def zrun (outLen : Nat) : Nat → List Byte → List Byte → Option (List Byte)
  | _, [], out => if out.length = outLen then some out else none
  | 0, _ :: _, _ => none
  | fuel + 1, b :: bs, out =>
    if b.toNat < 128 then
      if bs.length < b.toNat + 1 ∨ outLen < out.length + b.toNat + 1 then none
      else zrun outLen fuel (bs.drop (b.toNat + 1)) (out ++ bs.take (b.toNat + 1))
    else if outLen < out.length + (b.toNat - 126) then none
    else zrun outLen fuel bs (out ++ List.replicate (b.toNat - 126) 0)

/-- A decoder fault names its chunk, the address of its header, the sum computed and the CHECK stored (07 R225, 14
R384). -/
def atChunk (f : Nat) (va : DWord) (sum check : Nat) (t : Trap) : Trap :=
  let own := decide (0x120 ≤ t.cause) && decide (t.cause ≤ 0x122)
  { t with lkind := 5, lval := f, va := va, aux0 := if own then sum else t.aux0, aux1 := if own then check else t.aux1 }

/-- Bytes of a ZB stream from an element number. -/
def zbBytes (ag : Agent) (st : BitVec 4) (t : Stream) (b : Binding) (k n : Nat) : M (List Byte) :=
  reading ag t.pol (t.places b (t.run k n)) (do
    let xs ← collectM (t.run k n) (fun p => do let e ← rangeCheck st p.1 p.2; streamBytes ag 0 st t b e 1)
    pure xs.flatten)

/-- The virtual address of the header of a chunk; none in a buffer. -/
def Stream.chunkVa (t : Stream) (b : Binding) (a : Nat) : DWord := if b.bk then 0 else BitVec.ofNat 64 (t.base + t.start + a)

/-- DecodeChunk (07 R224): the output, the payload's length, and the RWS-32 and the CHECK that agree. -/
def decodeChunk (ag : Agent) (st : BitVec 4) (t : Stream) (b : Binding) (f a : Nat) : M (List Byte × Nat × Nat) := do
  let va := t.chunkVa b a
  withTrap (atChunk f va 0 0) (require (decide (a + 16 ≤ t.total)) 0x102)
  let hb ← withTrap (atChunk f va 0 0) (zbBytes ag st t b a 16)
  let hdr := leNat hb
  let inLen := bits hdr 63 32
  let outLen := bits hdr 31 0
  let check := bits hdr 127 96
  let out ← withTrap (atChunk f va 0 check) (do
    require (decide (a + 16 + inLen ≤ t.total)) 0x102
    let payload ← zbBytes ag st t b (a + 16) inLen
    require (decide (bits hdr 71 64 ≤ 1) && bits hdr 95 72 == 0 && decide (4 ≤ outLen) && decide (outLen ≤ 4096) &&
      outLen % 4 == 0 && decide (inLen ≤ 4096)) 0x122
    require (decide (outLen ≤ t.expb * (16 + inLen))) 0x121
    match (if bits hdr 71 64 = 0 then (if inLen = outLen then some payload else none)
        else zrun outLen (inLen + 1) payload []) with
      | some o => pure o
      | none => fault 0x122)
  let sum := (rwsOf 0xFFFFFFFF out).toNat
  withTrap (atChunk f va sum check) (require (sum == check) 0x120)
  pure (out, inLen, check)

/-- One chunk of an LDZ: decoded, checked against what is left, delivered (07 R225). -/
def ldzChunk (b : BitVec 6) (st n : BitVec 4) (f : Nat) : M Unit := transfer st (do
  replayable
  let (t, bd) ← boundFor st false
  let s ← get
  let va := t.chunkVa bd t.pos
  withTrap (atChunk f va 0 0) (notExhausted t)
  withTrap (atChunk f va 0 0) (rowFour bd)
  let (out, inLen, sum) ← naming s.agent st (fun _ => (5, f, va)) (decodeChunk s.agent st t bd f t.pos)
  withTrap (atChunk f va sum sum) (require (decide (out.length ≤ (s.cx.ry n).toNat)) 0x121)
  fillBuffer b out
  setPos st (min t.total ((t.pos + 16 + inLen + 15) / 16 * 16))
  modCx (fun c => c.wy n (c.ry n - BitVec.ofNat 64 out.length)))

/-- One more chunk has been delivered. -/
def SeqState.delivered (f : Nat) (q : SeqState) : SeqState := { q with flight := q.flight.map (fun x => { x with chunks := f + 1 }) }

/-- Chunk `f` of an LDZ is delivered, and counted. -/
def ldzDeliver (b : BitVec 6) (st n : BitVec 4) (f : Nat) : M Unit := do
  ldzChunk b st n f
  modSeq (·.delivered f)

/-- Chunks in order until y[n] is 0. -/
def ldzLoop (b : BitVec 6) (st n : BitVec 4) : Nat → Nat → M Unit
  | 0, _ => pure ()
  | fuel + 1, f => do
    let s ← get
    if s.cx.ry n = 0 then pure ()
    else do
      ldzDeliver b st n f
      ldzLoop b st n fuel (f + 1)

/-- What LDZ checks before its first chunk. -/
def ldzStart (b : BitVec 6) (st n : BitVec 4) : M Unit := transfer st (do
  replayable
  let (t, bd) ← boundFor st false
  require (t.fmt == 10) 0x103
  notExhausted t
  let s ← get
  let bf := s.cx.buf b
  if !bf.declared then throw (.trap (bufTrap 0x111 s.cx b 0))
  else if bf.prod ≠ 0 then throw (.trap (bufTrap 0x110 s.cx b 0))
  else do
    withTrap (atChunk 0 (t.chunkVa bd t.pos) 0 0) (require ((s.cx.ry n).toNat % 4 == 0) 0x121)
    if s.cx.ry n = 0 then rowFour bd
    else do
      bufCheck s.cx.id b 0 0
      if bf.len < bf.writeFp + (s.cx.ry n).toNat then throw (.trap (bufTrap 0x112 s.cx b 0)) else pure ())

/-- Chunks that the LDZ at the head of L has delivered. -/
def chunksDone (s : State) : Nat :=
  match s.cx.seqL.flight with
  | some f => f.chunks
  | none => 0

/-- LAST of an LDZ: the producer completes the buffer. DESIGN CHOICE (log 55): its fault names element POS. -/
def lastChunk (b : BitVec 6) (st : BitVec 4) : M Unit := do
  let s ← get
  withTrap (atElem st (s.cx.stream st).pos 0) (bufAccess s.cx.id b 0 2)

/-- The post of the field has room, or the instruction waits with what it has done so far. -/
def postRoom (tk : BitVec 3) : M Unit := do
  let s ← get
  match fieldPost s.cur tk with
  | some i => waitUnless (decide (s.cx.tokens i < 15)) (.room i 1)
  | none => pure ()

/-- LDZ (07 R225): the chunks that it has delivered stay while its post waits for room. -/
def execLdz (h : Hq) (b : BitVec 6) (st n : BitVec 4) (l : BitVec 1) (s : State) : Result :=
  runL h 1 (do
    let s ← get
    if chunksDone s = 0 then ldzStart b st n else pure ()
    ldzLoop b st n ((s.cx.ry n).toNat / 4) (chunksDone s)
    postRoom h.tk
    if l = 1 then lastChunk b st else pure ()) s

/-- The LDZ that the L of a context has issued or is about to issue, if it stands at one: its line is there, no transfer is to be
made first, its predicate is true, its token has come. -/
def ldzAt (c : Ctx) : Option (BitVec 6 × BitVec 4 × BitVec 4) :=
  match decode .l (instrAt c .l (wordIx c.seqL.pc)) with
  | .ok (.ldz h b st n _) =>
    let tokenOk := match fieldWait .l h.tk with | some i => c.tokens i != 0 | none => true
    let moves := c.seqL.pend.any (fun p => p.taken && p.left == 0)
    if tokenOk && !moves && c.seqL.rq h.qp && c.seqL.line.any (fun l => l.va == lineVa c.seqL.pc) then some (b, st, n) else none
  | _ => none

/-- The remaining chunks of an LDZ, up to one that fails. -/
def ldzRest (b : BitVec 6) (st n : BitVec 4) : Nat → State → State
  | 0, s => s
  | fuel + 1, s =>
    if s.cx.ry n = 0 then s
    else
      match ldzDeliver b st n (chunksDone s) s with
      | .ok _ s' => ldzRest b st n fuel s'
      | .error _ _ => s

/-- The LDZ of a context that has begun to deliver, and goes on, delivers the rest of its chunks: a PUBLISH falls before or after the
whole of a stream transfer (04 R129). -/
def finishLdz (c : CtxId) (s : State) : State :=
  let s1 := { s.focus c with cur := .l }
  if s1.cx.id ≠ c ∨ chunksDone s1 = 0 ∨ (s1.cx.status = .stopped ∧ s1.cx.seqL.acked = false) then s
  else
    match ldzAt s1.cx with
    | none => s
    | some (b, st, n) =>
      let s2 := ldzRest b st n ((s1.cx.ry n).toNat / 4) { s1 with cx := s1.cx.updSeq .l (fun q => { q with acked := true }) }
      ({ s2 with cx := s2.cx.updSeq .l (fun q => { q with acked := s1.cx.seqL.acked }), cur := s.cur } : State).focus s.cx.id

/-- Every LDZ that has begun to deliver is finished. -/
def State.finishChunks (s : State) : State := (s.ctxs.map Ctx.id).foldl (fun s c => finishLdz c s) s

/-- PREF (07 R226): no architectural access; the model prefetches nothing, whatever y[n] is. It faults by row 1 of R213 alone, inside a
plan too. -/
def execPref (h : Hq) (st _n : BitVec 4) (s : State) : Result :=
  runL h 1 (transfer st (do
    let _ ← boundFor st false
    pure ())) s

end Sys2Proof.Machine
end

