-- ==== Sys2Proof/Machine/Store.lean ====
section
/-! DEFINITION. S: STS, QST, STB, ATOMV, AMOS, SHOPEN, PUBLISH, BDRAIN (09 R261 to R276), and the writes of streams. -/
namespace Sys2Proof.Machine

/-! ## Writes of streams -/

/-- Where a write goes: a byte position of the bound buffer, or memory. -/
inductive Target where
  | buf (pos : Nat)
  | mem (va : DWord)
  deriving DecidableEq, Repr

/-- One write of a transfer: the element it belongs to, its place, its bytes and the bits of each that it writes; the lane of the
image that it comes from, where the frame is to name it. -/
structure Item where
  k : Nat
  e : Int
  dest : Target
  data : List Byte
  mask : Byte := 0xFF
  lane : Option Nat := none
  deriving DecidableEq, Repr

/-- Say of a fault which element of a write it names (14 R384). DEDUCED (log 25): one of QST or ATOMV names the lane as well as the
element index (09 R262), but for the causes whose row of R384 gives LKIND and AUX0 another use. -/
def Item.at (st : BitVec 4) (it : Item) (t : Trap) : Trap :=
  match it.lane with
  | some j =>
    if t.lkind ≠ 0 ∨ (0x110 ≤ t.cause ∧ t.cause ≤ 0x112) then atElem st it.k it.e t
    else { t with lkind := 1, lval := j, aux0 := if t.cause = 0x089 then t.aux0 else (dw it.e).toNat }
  | none => atElem st it.k it.e t

/-- The place of a byte position of a stream. -/
def Stream.target (t : Stream) (b : Binding) (off : Nat) : Target :=
  if b.bk then .buf (t.base + off) else .mem (BitVec.ofNat 64 (t.base + off))

/-- The write of one element of at most 32 bits (03 R73); of one of 4 bits, a nibble (R74). -/
def elemItem (t : Stream) (b : Binding) (k : Nat) (e : Int) (v : Nat) : Item :=
  if t.width = 4 then
    let hi := e.toNat % 2 = 1
    { k := k, e := e, dest := t.target b (e.toNat / 2), data := [BitVec.ofNat 8 (if hi then v % 16 * 16 else v % 16)],
      mask := if hi then 0xF0 else 0x0F }
  else { k := k, e := e, dest := t.target b (t.byteOf e.toNat), data := natBytes (t.width / 8) v }

/-- The writes of a whole NI8 group from element number `k` and index `e`: byte `o` of each of eight planes holds a bit of elements
`8 o` to `8 o + 7` (03 R73), so the bytes go in the order of the elements. -/
def groupItems (t : Stream) (b : Binding) (k : Nat) (e : Int) (data : List Byte) : List Item :=
  (List.range 8).flatMap (fun o => (List.range 8).map (fun j =>
    { k := k + 8 * o, e := e + 8 * (o : Int), dest := t.target b (e.toNat / 64 * 64 + 8 * j + o), data := [(data[8 * j + o]?).getD 0] }))

/-- The writes of elements from POS: values by element, or bytes of NI8 groups. -/
def elemItems (t : Stream) (b : Binding) (vs : List Nat) (groups : List (List Byte)) : List Item :=
  if t.fmt = 9 then
    groups.zipIdx.flatMap (fun p => groupItems t b (t.pos + 64 * p.2) (t.elem (t.pos + 64 * p.2)) p.1)
  else vs.zipIdx.map (fun p => elemItem t b (t.pos + p.2) (t.elem (t.pos + p.2)) p.1)

/-- The writes of QST and ATOMV name their lanes. -/
def Stream.byLane (t : Stream) (items : List Item) : List Item := items.map (fun it => { it with lane := some (it.k - t.pos) })

/-- Row 7 of 09 R262 for one write: the element index, and the bytes of a bound buffer. -/
def itemRange (st : BitVec 4) (b : Binding) (it : Item) : M Unit := do
  let s ← get
  withTrap (it.at st) (
    if it.e < 0 ∨ 2 ^ 52 ≤ it.e then fault 0x107
    else
      match it.dest with
      | .buf pos => if (s.cx.buf b.buf).len < pos + it.data.length then throw (.trap (bufTrap 0x112 s.cx b.buf 0)) else pure ()
      | .mem _ => pure ())

/-- A buffer that write `n` of the transfer was sent to has been freed before the write reached it (07 R227, 09 R270). -/
def reachedCheck (ag : Agent) (n : Nat) (va : DWord) : M Unit := do
  let s ← get
  let freed := ag.reached.findSome? (fun r =>
    if r.1 = n then (s.ctx? r.2.1).bind (fun c => if (c.buf r.2.2).declared then none else some (c, r.2.2)) else none)
  match freed with
  | some r => throw (.trap { bufTrap 0x111 r.1 r.2 0 with va := va })
  | none => pure ()

/-- The buffers that the transfer was sent to are declared, as its writes reach them. -/
def reachedDeclared (ag : Agent) : M Unit := do
  let s ← get
  require (ag.reached.all (fun r => (s.ctx? r.2.1).all (fun c => (c.buf r.2.2).declared))) 0x111

/-- Row 8 of 09 R262 for write `n`: the parts of memory it goes to. `own` is the writer's agent number for the buffers of
its own frame. -/
def itemCheck (ag : Agent) (own : Nat) (st : BitVec 4) (t : Stream) (k : Acc) (n : Nat) (it : Item) : M (List Seg) :=
  withTrap (it.at st) (
    match it.dest with
    | .buf pos => if k = .atomic ∧ pos % 4 ≠ 0 then fault 0x085 else pure []
    | .mem va => do
      windowCheck t va it.data.length
      if k = .atomic ∧ va.toNat % 4 ≠ 0 then faultAt 0x085 va else pure ()
      let segs ← pages ag k va it.data.length
      eachM segs (spadCheck ag.ctx own 0)
      if ag.acked then reachedCheck ag n va else pure ()
      homeCheck k segs
      if k = .shadow then eachM segs (shadowCheck false) else pure ()
      eachM segs (tagCheck k)
      watchCheck ag k va it.data.length
      holdPages st segs
      pure segs)

/-- The buffers of frames that a write is sent to. -/
def Seg.sentTo (s : State) (me : CtxId) (n : Nat) (g : Seg) : List (Nat × CtxId × BitVec 6) :=
  if g.tr.spad then
    match s.frame? me.launch g.tr.lcore with
    | some c => (c.bufsOf g).map (fun i => (n, c.id, i))
    | none => []
  else []

/-- What a watchdog frame names of a write: its lane or its element, and its address. -/
def Item.names (st : BitVec 4) (it : Item) : Nat × Nat × DWord :=
  let va := match it.dest with | .mem va => va | .buf _ => 0
  match it.lane with
  | some j => (1, j, va)
  | none => ((elemName st it.k).1, (elemName st it.k).2, va)

/-- Homes on other devices and the cores of other frames make their checks and acknowledge them before the first write (09 R263,
R269): the transfer waits for them, and for the acknowledgements of its writes, at once (log 17). -/
def awaitAcks (ag : Agent) (st : BitVec 4) (t : Stream) (k : Acc) (ws : List (Item × List Seg)) : M Unit := do
  let s ← get
  let reached := ws.zipIdx.flatMap (fun p => p.1.2.flatMap (Seg.sentTo s ag.ctx p.2))
  let parts := ws.map (·.2)
  let first := ws.find? (fun p => p.2.any (Seg.elsewhere s ag t.pol k))
  if ag.acked then pure ()
  else if ag.srce = 4 then modCx (fun c => { c with epi := modAt c.epi 0 (fun e => { e with reached := reached, parts := parts }) })
  else do
    modify (beginFlight st none)
    modSeq (fun q => { q with flight := q.flight.map (fun f => { f with reached := reached, parts := parts }) })
  naming ag st (fun _ => (first.map (fun p => p.1.names st)).getD (0, 0, 0)) (awaitReply ag t.pol k (ws.flatMap (·.2)))

/-- A write that has been accepted lands: the watchpoints of other agents trigger (04 R134), and the stream holds its
translations. -/
def landItem (ag : Agent) (st : BitVec 4) (k : Acc) (p : Item × List Seg) : M Unit :=
  match p.1.dest with
  | .buf _ => pure ()
  | .mem va => do
    modify (noteHits ag k va p.1.data.length)
    holdPages st p.2

/-- Every check of a transfer's writes, before any of them (09 R262 rows 6 to 8, R263). Writes that have been accepted are checked no
more. -/
def itemsCheck (ag : Agent) (own : Nat) (st : BitVec 4) (t : Stream) (b : Binding) (k : Acc) (items : List Item) :
    M (List (Item × List Seg)) := do
  match ag.accepted with
  | some parts => do
    let ws := List.zip items parts
    eachM ws (landItem ag st k)
    pure ws
  | none => do
    let s ← get
    if b.bk then bufCheck s.cx.id b.buf own 0 else pure ()
    eachM items (itemRange st b)
    let ws ← collectM items.zipIdx (fun p => do let g ← itemCheck ag own st t k p.2 p.1; pure (p.1, g))
    awaitAcks ag st t k ws
    pure ws

/-- The buffers of a frame that a written part touches: their transitions, which writes that have been accepted have made, and
FP. -/
def enterPart (ag : Agent) (own : Nat) (g : Seg) : M Unit := if ag.accepted.isSome then spadFill ag.ctx g else spadTouch ag.ctx own 0 g

/-- Perform one checked write. DESIGN CHOICE (log 58): a shadow write that was accepted before a PUBLISH (R263) lands in the backing that
its check found, and does not fault 0x08D when it is performed after it (04 R129). -/
def itemWrite (ag : Agent) (own : Nat) (t : Stream) (b : Binding) (k : Acc) (p : Item × List Seg) : M Unit := do
  let it := p.1
  match it.dest with
  | .buf pos => do
    let s ← get
    bufAccess s.cx.id b.buf own 0
    modCx (fun c =>
      { c with spad := c.spad.mergeN ((c.buf b.buf).base + pos) it.mask it.data })
    bufFill s.cx.id b.buf (pos + it.data.length)
  | .mem _ => do
    eachM p.2 (enterPart ag own)
    writeSegsBits ag t.pol k it.mask p.2 it.data

/-- Writes of another transfer or tile into a buffer of a frame have been accepted and are still to land. -/
def State.landsIn (s : State) (ag : Agent) (c : Ctx) (i : BitVec 6) : Bool :=
  s.ctxs.any (fun x => x.id.launch == c.id.launch && [2, 4].any (fun q => !(x.id == ag.ctx && q == ag.srce) &&
    (x.landing q).any (fun g => g.tr.spad && g.tr.lcore == c.id.lcore && (c.bufsOf g).contains i)))

/-- The producer side of a buffer of a frame completes; it takes effect after every write that the buffer has accepted (09 R264). One that
another's LAST is completing already, after the writes that land here too, completes with them (R277). -/
def completeBuffer (ag : Agent) (own : Nat) (c : CtxId) (i : BitVec 6) : M Unit := do
  let s ← get
  if ag.accepted.isSome && (s.ctx? c).any (fun x => (x.buf i).closing) then pure ()
  else do
    bufCheck c i (if c = ag.ctx then own else 3) 2
    modify (fun s => s.updCtx c (fun x => x.setBuf i (if s.landsIn ag x i then { x.buf i with closing := true } else (x.buf i).after 2)))

/-- The accepted writes of a transfer or a tile have landed: buffers that were to complete after them do (09 R264, R277). -/
def closeBuffers (ag : Agent) (ws : List (Item × List Seg)) : M Unit :=
  if ag.accepted.isNone then pure ()
  else eachM (ws.flatMap (·.2)) (fun g => modify (fun s =>
    match (if g.tr.spad then s.frame? ag.ctx.launch g.tr.lcore else none) with
    | none => s
    | some c => (c.bufsOf g).foldl (fun s i => s.updCtx c.id (fun x =>
        if (x.buf i).closing && !s.landsIn ag x i then x.setBuf i { (x.buf i).after 2 with closing := false } else x)) s))

/-- LAST of a store (09 R264): the producer side of the bound buffer, or of the buffer that holds the byte of the last
element. -/
def lastWrite (ag : Agent) (own : Nat) (l : Bool) (b : Binding) (items : List (Item × List Seg)) : M Unit := do
  let s ← get
  if !l then pure ()
  else if b.bk then bufAccess s.cx.id b.buf own 2
  else
    match items.getLast? with
    | none => pure ()
    | some p =>
      match p.2.getLast? with
      | none => pure ()
      | some g =>
        if !g.tr.spad then pure ()
        else
          match s.frame? ag.ctx.launch g.tr.lcore with
          | none => pure ()
          | some c =>
            match c.bufAt (g.frameOff + g.len - 1) with
            | none => pure ()
            | some i => completeBuffer ag own c.id i

/-- Perform the checked writes of a transfer, in order, and its LAST; then what its writes held back. `codes` are the writes of its
elements. -/
def performItems (ag : Agent) (own : Nat) (t : Stream) (b : Binding) (k : Acc) (l : Bool) (ws codes : List (Item × List Seg)) :
    M Unit := do
  eachM ws (itemWrite ag own t b k)
  lastWrite ag own l b codes
  closeBuffers ag ws

/-- Plain writes or shadow writes. -/
def Stream.acc (t : Stream) : Acc := if t.shd then .shadow else .write

/-- Rows 1 to 4 of 09 R262 for S; `ok` is row 2 for the instruction. An epilogue stream is refused by row 2 (R261). -/
def storeStart (st : BitVec 4) (ok : Stream → Bool) : M (Stream × Binding) := do
  replayable
  let (t, b) ← boundFor st true
  require (ok t && !b.epi) 0x103
  notExhausted t
  atPos st t (require ((t.fmt != 8 || t.pos % 256 == 0) && (t.fmt != 9 || t.pos % 64 == 0)) 0x107)
  pure (t, b)

/-- The head of sq n; it waits while the queue is empty. -/
def headSq (n : BitVec 4) : M Image := do
  let s ← get
  match s.cx.sqAt n.toNat with
  | [] => waitFor (.sqEntry n.toNat)
  | img :: _ => pure img

/-- Take the head of sq n and advance POS. -/
def takeSq (n st : BitVec 4) (pos : Nat) : M Unit := do
  modCx (fun c => c.setSq n.toNat (c.sqAt n.toNat).tail)
  setPos st pos

/-- Narrow (09 R266): the element that a lane gives in a format. -/
def narrow (fmt a : Nat) : Nat :=
  let cl (lo hi : Int) (w : Nat) : Nat := (BitVec.ofInt w (clampInt (signExt a 32) lo hi)).toNat
  match fmt with
  | 1 => convFF fp32 bf16 a
  | 2 => convFF fp32 fp16 a
  | 4 => cl (-128) 127 8
  | 5 => cl 0 255 8
  | 6 => cl (-8) 7 4
  | 7 => cl 0 15 4
  | 9 => cl (-128) 127 8
  | _ => a

/-- The elements of an image for a write stream, `cnt` of them. -/
def narrowImage (t : Stream) (img : Image) (cnt : Nat) : List Nat :=
  if t.raw then unpackBits t.width cnt img.toNat else ((lanesOf img).take cnt).map (narrow t.fmt)

/-- STS (09 R266). -/
def execSts (h : Hq) (st n : BitVec 4) (l : BitVec 1) (s : State) : Result :=
  runS h 1 (transfer st (do
    let (t, b) ← storeStart st (fun t => t.fmt != 8 && t.fmt != 10)
    let cnt := min t.perImage (t.total - t.pos)
    let img ← headSq n
    let s ← get
    let vs := narrowImage t img cnt
    let ws ← itemsCheck s.agent 1 st t b t.acc (elemItems t b vs ((chunksOf 64 (cnt / 64) vs).map ni8Group))
    performItems s.agent 1 t b t.acc (l == 1) ws ws
    takeSq n st (t.pos + cnt))) s

/-- Blocks of an image quantised (03 R85), from block `i` up; a NaN lane faults and is named (09 R262 row 5). -/
def quantiseBlocks (taben : Bool) (lvt : BitVec 128) : Nat → Nat → List Nat → M (List Quantised)
  | 0, _, _ => pure []
  | m + 1, i, lanes =>
    match quantise (lanes.take 256) taben lvt with
    | none => throw (.trap { cause := 0x184, lkind := 1,
                             lval := 256 * i + ((lanes.take 256).findIdx (fun x => (fp32.value x).isNan)) })
    | some q => do
      let r ← quantiseBlocks taben lvt m (i + 1) (lanes.drop 256)
      pure (q :: r)

/-- The writes of quantised blocks (09 R267): code bytes, and the header, which goes to memory. DEDUCED (log 25): the header belongs
to the first element of its block, so its checks come after those of that element's code. -/
def blockItems (t : Stream) (b : Binding) (qs : List Quantised) : List Item :=
  qs.zipIdx.flatMap (fun p =>
    let k := t.pos + 256 * p.2
    let e := t.elem k
    let hdr : Item := { k := k, e := e, dest := .mem (BitVec.ofNat 64 (t.hb + e.toNat / 256 * t.sstr)), data := natBytes 4 p.1.header }
    (codeBytes p.1.codes).zipIdx.flatMap (fun c =>
      { k := k + 2 * c.2, e := e + 2 * (c.2 : Int), dest := t.target b (e.toNat / 2 + c.2), data := [c.1] } ::
        (if c.2 = 0 then [hdr] else [])))

/-- The write is that of a header. -/
def Item.isHeader (it : Item) : Bool := it.data.length == 4

/-- Checked writes of quantised blocks in the order in which they are performed: of each block the codes, then the header (03 R84). -/
def headersLast (ws : List (Item × List Seg)) : List (Item × List Seg) :=
  (chunksOf 129 (ws.length / 129) ws).flatMap (fun w => w.filter (fun p => !p.1.isHeader) ++ w.filter (fun p => p.1.isHeader))

/-- The level table that a QST quantises with: the one that stood when it issued (09 R267). -/
def quantTable (s : State) (t : Stream) : BitVec 128 :=
  match (s.cx.seq s.cur).flight with
  | some f => f.table
  | none => s.cx.lvt.get t.lvt

/-- QST (09 R267). -/
def execQst (h : Hq) (st n : BitVec 4) (o : BitVec 3) (l : BitVec 1) (s : State) : Result :=
  runS h 1 (transfer st (do
    let (t, b) ← storeStart st (fun t => t.fmt == 8)
    let cnt := min 1024 (t.total - t.pos)
    let img ← headSq n
    let s ← get
    let qs ← quantiseBlocks t.taben (quantTable s t) (cnt / 256) 0 (lanesOf img)
    let ws ← itemsCheck s.agent 1 st t b t.acc (t.byLane (blockItems t b qs))
    performItems s.agent 1 t b t.acc (l == 1) (headersLast ws) (ws.filter (fun p => !p.1.isHeader))
    setQ o (qs.any (·.ovf))
    takeSq n st (t.pos + cnt))) s

/-- STB (09 R268). One of an empty buffer writes nothing, and makes the checks of R262 all the same. -/
def execStb (h : Hq) (b : BitVec 6) (st n : BitVec 4) (l : BitVec 1) (s : State) : Result :=
  runS h 1 (transfer st (do
    let (t, bd) ← storeStart st (fun t => t.fmt != 8)
    let s ← get
    bufAccess s.cx.id b 1 1
    let bf := s.cx.buf b
    let data := s.cx.spad.readN bf.base bf.fp
    let cnt := bf.fp * 8 / t.width
    require (bf.fp * 8 % t.width == 0 && (t.fmt != 9 || bf.fp % 64 == 0)) 0x103
    require (decide (cnt ≤ t.total - t.pos)) 0x102
    let items := elemItems t bd (unpackBits t.width cnt (leNat data)) (chunksOf 64 (bf.fp / 64) data)
    let ws ← itemsCheck s.agent 1 st t bd t.acc items
    performItems s.agent 1 t bd t.acc false ws ws
    setPos st (t.pos + cnt)
    modCx (fun c => c.wz n (BitVec.ofNat 64 cnt))
    if l = 1 then bufAccess s.cx.id b 1 3 else pure ())) s

/-! ## Atomics -/

/-- One atomic of ATOMV at its place (09 R271). -/
def atomItem (ag : Agent) (b : Binding) (op v : Nat) (p : Item × List Seg) : M Unit := do
  let s ← get
  match p.1.dest, p.2 with
  | .buf pos, _ => do
    bufAccess s.cx.id b.buf 1 0
    modCx (fun c =>
      let a := (c.buf b.buf).base + pos
      match amoNew op 4 (leNat (c.spad.readN a 4)) v 0 with
      | some new => { c with spad := c.spad.writeN a (natBytes 4 new) }
      | none => c)
    bufFill s.cx.id b.buf (pos + 4)
  | .mem _, g :: _ =>
    if g.tr.spad then do
      enterPart ag 1 g
      markD g.tr
      modify (inOrderOf ag g.tr)
      match s.frame? ag.ctx.launch g.tr.lcore with
      | none => pure ()
      | some c => modify (fun s => s.updCtx c.id (fun c =>
          match amoNew op 4 (leNat (c.spad.readN g.frameOff 4)) v 0 with
          | some new => { c with spad := c.spad.writeN g.frameOff (natBytes 4 new) }
          | none => c))
    else do
      let _ ← amoAt ag g op 4 v 0
      pure ()
  | .mem _, [] => pure ()

/-- ATOMV (09 R271). -/
def execAtomv (h : Hq) (c st n : BitVec 4) (f : BitVec 5) (s : State) : Result :=
  runS h 1 (transfer st (do
    let (t, b) ← storeStart st (fun t => !t.raw && !t.shd && (if f = 0 then t.fmt == 3 || t.fmt == 0
      else if f = 10 then t.fmt == 0 else t.fmt == 3))
    let cnt := min 1024 (t.total - t.pos)
    let img ← headSq n
    let s ← get
    let vs := (lanesOf img).take cnt
    let ws ← itemsCheck s.agent 1 st t b .atomic (t.byLane (elemItems t b vs []))
    relOf c
    eachM (List.zip ws vs) (fun p => atomItem s.agent b f.toNat p.2 p.1)
    closeBuffers s.agent ws
    acqOf c
    takeSq n st (t.pos + cnt))) s

/-- An access that is no transfer of a stream: it has no effect where it waits. -/
def scalarTransfer (op : M Unit) : M Unit := fun s =>
  match op s with
  | .error (.wait a) s' => .error (.wait a) (sending s s')
  | r => r

/-- AMOS (09 R272): a remote one waits for its reply under ss.wdb, and the home performs it (09 R259). -/
def execAmos (h : Hq) (d a b : BitVec 4) (z : BitVec 1) (so op : BitVec 4) (s : State) : Result :=
  runS h 2 (scalarTransfer (do
    replayable
    let s ← get
    let n := if z = 1 then 4 else 8
    let va := s.cx.rz a
    if va.toNat % n ≠ 0 then faultAt 0x085 va
    else do
      let segs ← pages s.agent .atomic va n
      if segs.any (fun g => g.tr.spad) then faultAt 0x091 va else pure ()
      homeCheck .atomic segs
      eachM segs (tagCheck .atomic)
      watchCheck s.agent .atomic va n
      awaitReply s.agent 0 .atomic segs
      relOf so
      match segs with
      | g :: _ => do
        let old ← amoAt s.agent g op.toNat n ((s.cx.rz d).toNat % 2 ^ (8 * n)) ((s.cx.rz b).toNat % 2 ^ (8 * n))
        modCx (fun c => c.wz d (BitVec.ofNat 64 old))
        acqOf so
      | [] => pure ())) s

/-! ## Shadows (09 R273 to R275) -/

/-- Row 3 of 09 R273: a page's translation for a write, which sets no A bit here. -/
def shadowPage (va : DWord) : M (DWord × Tr) := do
  let s ← get
  match translate s s.cx.asid.toNat .write va with
  | .ok t => pure (va, t)
  | .error c => faultAt c va

/-- The checks of 09 R273 after row 1: the pages of the range. -/
def shadowRange (va : DWord) (n : Nat) : M (List (DWord × Tr)) := do
  let s ← get
  if 2 ^ 30 < n then faultAt 0x08F va
  else do
    let ps ← collectM (rangePages va n) shadowPage
    match ps.find? (fun p => !p.2.spe || p.2.home != s.dev) with
    | some p => faultAt 0x08E p.1
    | none => pure ps

/-- A page is published or reopened: the collectives in flight that were to write it have lost it (13 R373). -/
def losePage (entry : Nat) (s : State) : State :=
  { s with table := s.table.map (fun e => if e.st == .fired && e.pages.contains entry then { e with lost := e.lost ++ [entry] } else e) }

/-- SHOPEN (09 R273, R274; 04 R127). -/
def execShopen (h : Hq) (a b : BitVec 4) (s : State) : Result :=
  runS h 1 (do
    replayable
    let s ← get
    if s.cx.rz b = 0 then pure ()
    else do
      let ps ← shadowRange (s.cx.rz a) (s.cx.rz b).toNat
      eachM ps (fun p => modify (fun s => losePage p.2.entry { s with mem := setShadowState s.mem p.2.entry 1 false }))) s

/-- The change of one page at a publication (04 R128): no die keeps a line of either backing. -/
def publishPage (entry : Nat) (s : State) : State :=
  let s := losePage entry s
  let t : Tr := ⟨entry, readEntry s.mem entry, 4⟩
  let s := dropPage (t.visible 0) (dropPage (t.shadow 0) s)
  match t.shst with
  | 0 => s
  | 2 => { s with mem := setShadowState s.mem entry 0 true }
  | _ => { s with mem := setShadowState s.mem entry 0 false }

/-- PUBLISH (09 R273, R275; 04 R128, R129). -/
def execPublish (h : Hq) (a b : BitVec 4) (c : BitVec 3) (s : State) : Result :=
  runS h 1 (do
    replayable
    let s ← get
    if s.cx.rz b = 0 then pure ()
    else do
      let ps ← shadowRange (s.cx.rz a) (s.cx.rz b).toNat
      modify State.finishChunks
      release c.toNat
      eachM ps (fun p => modify (publishPage p.2.entry))) s

/-- Output of a window or tile on the stream that a BDRAIN still waits for (09 R276): of windows accepted before a serial, and of
tiles that WACC.epi entered before a number. -/
def drainPending (c : Ctx) (st : BitVec 4) (upTo : Nat × Nat) : Bool :=
  c.epi.any (fun e => epiOut e.epi && epiOs e.epi == st &&
    (match e.win with | some n => decide (n < upTo.1) | none => decide (e.entry < upTo.2))) ||
  c.wins.any (fun w => w.last && epiOut w.epi && epiOs w.epi == st && decide (w.serial < upTo.1) && !w.flags.abort)

/-- What a BDRAIN waits for at most: what the bank had accepted when it began to wait. -/
def drainUpTo (s : State) : Nat × Nat := (s.cx.seqS.flight.bind (·.drain)).getD (s.cx.nextWin, s.cx.nextTile)

/-- BDRAIN (09 R276). Its frames name element 0 of the stream (log 55). DESIGN CHOICE (log 52): it is no transfer of S, and acts inside a
plan as outside (11 R326 names it in no row). -/
def execBdrain (h : Hq) (st : BitVec 4) (s : State) : Result :=
  runS h 1 (withTrap (atElem st 0 0) (do
    let _ ← boundFor st true
    let s ← get
    if drainPending s.cx st (drainUpTo s) then do
      modify (beginFlight st (some (drainUpTo s)))
      modSeq (·.rename (fun _ => ((elemName st 0).1, (elemName st 0).2, 0)))
      waitFor (.epilogue st.toNat)
    else pure ())) s

/-! ## Replies (13 R358, R359) -/

/-- The writes that S of a context has sent, or its head tile, reach their places (09 R263, R270): where every frame is there and
every buffer allows the write, they are accepted together, and the buffers make their transitions; nothing fails them from then
on. -/
def acceptParts (ag : Agent) (bound : Option (BitVec 6)) (parts : List (List Seg)) : M Unit := do
  reachedDeclared ag
  eachM parts.flatten (spadCheck ag.ctx 1 0)
  (match bound with
    | some b => bufAccess ag.ctx b 1 0
    | none => pure ())
  eachM parts.flatten (spadEnter ag.ctx 1 0)

/-- The buffer that a transfer of S writes. -/
def Ctx.boundBuffer (c : Ctx) (st : BitVec 4) : Option (BitVec 6) :=
  ((c.stream st).bind.filter (fun b => b.bk && b.write)).map (·.buf)

/-- The writes of a transfer of S are accepted. -/
def acceptStore (c : CtxId) (s : State) : State :=
  match s.ctx? c with
  | none => s
  | some x =>
    match x.seqS.flight.filter (fun f => x.seqS.sent && !f.accepted && !f.parts.isEmpty) with
    | none => s
    | some f =>
      match acceptParts { x.agent 2 x.seqS.pc with reached := f.reached } (x.boundBuffer f.st) f.parts s with
      | .ok _ s' => s'.updCtx c (fun x => x.updSeq .s (fun q => { q with flight := q.flight.map (fun f => { f with accepted := true }) }))
      | .error _ _ => s

/-- The writes of the tile at the head of the epilogue queue are accepted. -/
def acceptTile (c : CtxId) (s : State) : State :=
  match (s.ctx? c).bind (fun x => (x.epi.head?.filter (fun e => e.sent && !e.acked && !e.accepted && !e.parts.isEmpty)).map (fun e => (x, e))) with
  | none => s
  | some (x, e) =>
    match acceptParts { x.agent 4 0 with reached := e.reached } none e.parts s with
    | .ok _ s' => s'.updCtx c (fun x => { x with epi := modAt x.epi 0 (fun e => { e with accepted := true }) })
    | .error _ _ => s

/-- The replies and acknowledgements of what L, S and the epilogue of a context have sent arrive. -/
def Ctx.ackAll (c : Ctx) : Ctx :=
  { (c.updSeq .l (fun st => { st with acked := st.acked || st.sent })).updSeq .s (fun st => { st with acked := st.acked || st.sent }) with
    epi := c.epi.map (fun e => if e.sent then { e with acked := true } else e) }

/-- REMOTE_REPLY: the reply reaches the requester, whose access completes or faults when its sequencer next issues. -/
def execRemoteReply (c : CtxId) (s : State) : Result :=
  .next ((acceptTile c (acceptStore c (answer c false s))).updCtx c Ctx.ackAll)

end Sys2Proof.Machine
end

