-- ==== Sys2Proof/Machine/Compute.lean ====
section
/-! DEFINITION. C: how a bundle issues, retires, waits and faults (02 R50 to R52, 08 R231 to R236), its operand forms (02
R48), and the deferred faults that C raises (10 R310). -/
namespace Sys2Proof.Machine

/-! ## Registers of C -/

/-- p[i]; p0 reads all true (08 R229). -/
def Ctx.rp (c : Ctx) (i : BitVec 6) : BitVec 1024 := if i = 0 then BitVec.allOnes 1024 else c.p.get i
/-- p[i] written; a write to p0 is ignored. -/
def Ctx.wp (c : Ctx) (i : BitVec 6) (v : BitVec 1024) : Ctx := if i = 0 then c else { c with p := c.p.set i v }
/-- v[i] written. -/
def Ctx.wv (c : Ctx) (i : BitVec 4) (v : Image) : Ctx := { c with v := c.v.set i v }

/-- The lanes of `new` where the mask is 1, else those of `old`. -/
def mergeLanes (mask : BitVec 1024) (new old : Image) : Image :=
  imageOf ((List.zip (lanesOf new) (lanesOf old)).zipIdx.map (fun p => if mask.getLsbD p.2 then p.1.1 else p.1.2))

/-! ## Operands (02 R48, R52) -/

/-- Record in the bundle. -/
def modBun (f : Bundle → Bundle) : M Unit := modify (fun s => { s with bun := s.bun.map f })

/-- A queue head: read, and taken once at the end unless it is kept. -/
def headOf (q : List Image) (i : Nat) (keep : Bool) (a : Await) : M Image :=
  match q with
  | [] => waitFor a
  | img :: _ => do
    if keep then pure () else modBun (fun b => { b with takes := b.takes ++ [i] })
    pure img

/-- The operand of a source code. -/
def src (c : BitVec 5) : M Image := do
  let o ← opsCx
  let n := c.toNat
  if n < 16 then pure (o.v.get (c.setWidth 4))
  else if n < 24 then headOf (o.lqAt (n % 4)) (n % 4) (decide (20 ≤ n)) (.lqEntry (n % 4))
  else headOf o.oq 4 (n == 25) .oqEntry

/-! ## Deferred faults (10 R310) -/

/-- The fault of the bank that is raised next: the lowest step, the first recorded of equal steps. -/
def nextDeferred (ds : List Deferred) : Option Deferred :=
  ds.foldl (fun (b : Option Deferred) d => match b with
    | none => some d
    | some e => if d.step < e.step then some d else b) none

/-- The record after that fault is raised: the faults of windows go, the others stay. -/
def afterRaise (ds : List Deferred) (d : Deferred) : List Deferred :=
  (ds.erase d).filter (fun e => e.kind != .window)

/-- A fault of the bank, raised. -/
def Deferred.raised (d : Deferred) : Trap := { d.trap with deferred := true, srce := some 4 }

/-- A true slot of opcode 0x38 to 0x3C, or a HALT, finds a deferred fault. -/
def raiseBank : M Unit := do
  let s ← get
  match nextDeferred s.operands.deferred with
  | some d => throw (.trap d.raised)
  | none => pure ()

/-! ## Bundles -/

/-- The address of the word that is executed. -/
def State.wordPc (s : State) : DWord :=
  (s.cx.seq s.cur).pc + BitVec.ofNat 64 (4 * (match s.bun with | some b => b.off | none => 0))

/-- Note a wait or a fault of a word. -/
def Bundle.waitsOn (b : Bundle) (a : Await) : Bundle := { b with waits := b.waits ++ [(b.off, a)] }
def Bundle.trapped (b : Bundle) (t : Trap) : Bundle := { b with traps := b.traps ++ [(b.off, t)] }

/-- One word of the bundle: its token wait, its truth, its effect, its token post. What it waits for and what it faults
with are noted; the bundle decides. -/
def slot (truth : Bool) (tk : BitVec 3) (op : M Unit) (s : State) : State :=
  match s.bun with
  | none => s
  | some b =>
    let note (f : Bundle → Bundle) (s : State) : State := { s with bun := s.bun.map f }
    let post (s : State) : State :=
      match fieldPost .c tk with
      | some i => note (fun b => { b with posts := b.posts ++ [(i, 1, b.off)] }) s
      | none => s
    match b.old.openField .c tk with
    | some i =>
      if s.cx.tokens i = 0 then { s with bun := some { b.waitsOn (.token i 1) with short := true } }
      else effect note post { s with cx := s.cx.setTokens i (s.cx.tokens i - 1), bun := some { b with taken := b.taken ++ [i] } }
    | none => effect note post s
where
  effect (note : (Bundle → Bundle) → State → State) (post : State → State) (s1 : State) : State :=
    if truth then
      match op s1 with
      | .ok _ s2 => post s2
      | .error (.wait .plan) s2 => note (·.waitsOn .plan) s2
      | .error (.wait a) s2 => note (·.waitsOn a) (undone s1 s2)
      | .error (.trap t) s2 => note (·.trapped t) (undone s1 s2)
    else post s1

/-- An SFU write lands (08 R235). -/
def SfuWrite.land (w : SfuWrite) (c : Ctx) : Ctx := c.wv w.reg (mergeLanes w.mask w.value (c.v.get w.reg))

/-- One bundle more has retired: the first `n` pending writes were there before it. HALT lands every one (08 R236). -/
def landSfu (n : Nat) (halts : Bool) (c : Ctx) : Ctx :=
  let aged := c.sfu.zipIdx.map (fun p => if p.2 < n then { p.1 with left := p.1.left - 1 } else p.1)
  let due := aged.filter (fun w => halts || w.left == 0)
  due.foldl (fun c w => w.land c) { c with sfu := aged.filter (fun w => !(halts || w.left == 0)) }

/-- Take a queue head. -/
def Ctx.take (c : Ctx) (i : Nat) : Ctx := if i = 4 then { c with oq := c.oq.tail } else c.setLq i (c.lqAt i).tail

/-- Tokens posted; none where a queue has no room (01 R22). -/
def postAll (c : Ctx) : List (Nat × Nat × Nat) → Option Ctx
  | [] => some c
  | (i, n, _) :: rest => if 15 < c.tokens i + n then none else postAll (c.setTokens i (c.tokens i + n)) rest

/-- The post that its queue lacks room for. -/
def fullQueue (c : Ctx) : List (Nat × Nat × Nat) → Nat × Nat × Nat
  | [] => (0, 0, 0)
  | (i, n, off) :: rest => if 15 < c.tokens i + n then (i, n, off) else fullQueue (c.setTokens i (c.tokens i + n)) rest

/-- A bundle begins: its operands are those before it. -/
def State.openBundle (s : State) (words : Nat) : State := { s with bun := some { old := s.cx, pbase := s.baseBefore, words := words } }

/-- A bundle whose TKWAITs have taken their tokens, once the field of every word has its own (06 R181); or the wait of the first that
lacks them, in the order of the words. -/
def takeGets (s : State) (b : Bundle) : State × Bundle :=
  if b.short then (s, b)
  else b.gets.foldl (fun p g =>
    let (i, n, off) := g
    if p.1.cx.tokens i < n then
      (p.1, { p.2 with waits := p.2.waits.filter (fun w => decide (w.1 < off)) ++ [(off, .token i n)] ++ p.2.waits.filter (fun w => decide (off < w.1)) })
    else ({ p.1 with cx := p.1.cx.setTokens i (p.1.cx.tokens i - n) }, p.2)) (s, b)

/-- The bundle retires (08 R231). -/
def retireBundle (s : State) (b : Bundle) (cx : Ctx) : State :=
  let cx := b.takes.dedup.foldl Ctx.take cx
  let cx := landSfu b.old.sfu.length b.halts.isSome { cx with bundles := cx.bundles + 1 }
  let cx := cx.updSeq .c (fun st => ({ st with
    halted := st.halted || b.halts.isSome
    off := b.halts.getD 0
    pend := match b.xfer with | some p => some p | none => st.pend } : SeqState).retire b.words b.xfer.isSome)
  { s with cx := cx, bun := none }

/-- The bundle takes a fault: no effect of it stands (08 R231). A deferred fault raised leaves the record. -/
def trapBundle (s0 s : State) (b : Bundle) (off : Nat) (t : Trap) : State :=
  let s1 := { undone s0 s with bun := none }
  let s1 := if t.deferred then
      match nextDeferred b.old.deferred with
      | some d => { s1 with cx := { s1.cx with deferred := afterRaise s1.cx.deferred d } }
      | none => s1
    else s1
  s1.takeFault t 1 (instrAt s0.cx .c (wordIx s0.cx.seqC.pc + off))

/-- C waits at a word of its bundle (14 R440). -/
def State.waitAt (s : State) (off : Nat) (a : Await) : State :=
  ({ s with cx := s.cx.updSeq .c (fun st => { st with off := off }) } : State).wait a

/-- The bundle waits for an item of one of its words. Where the fields of all its words have their tokens, they stay removed while
a TKWAIT waits, or a post (01 R21, 06 R181). -/
def waitBundle (s0 s : State) (b : Bundle) (off : Nat) (a : Await) : State :=
  let s1 : State := { undone s0 s with bun := none }
  let s1 : State :=
    if b.short || b.taken.isEmpty || !a.isToken then s1
    else { s1 with cx := (b.taken.foldl (fun c i => c.setTokens i (c.tokens i - 1)) s1.cx).updSeq .c (fun st => { st with fielded := b.taken }) }
  s1.waitAt off a

/-- The end of a bundle whose words have all been executed. `s0` is the state before it. A transfer in a delay faults before
any token is waited for (06 R180); a wait comes before a fault, since a bundle issues once it waits for nothing (08 R231). DESIGN
CHOICE (log 6): of several items that a bundle awaits, the frame names and the watchdog counts the first in the order of the words,
and the count starts again where that item changes. PLANB and PLANE keep what they have begun while they wait. -/
def endBundle (s0 s : State) : State :=
  match s.bun with
  | none => s
  | some b =>
    let (s, b) := takeGets s b
    match b.traps.find? (fun p => p.2.cause == 0x026), b.waits.find? (fun a => a.2 != .plan), b.traps with
    | some (off, t), _, _ => trapBundle s0 s b off t
    | none, some (off, a), _ => waitBundle s0 s b off a
    | none, none, (off, t) :: _ => trapBundle s0 s b off t
    | none, none, [] =>
      if b.waits.isEmpty then
        match postAll s.cx b.posts with
        | some cx => retireBundle s b cx
        | none =>
          let (i, n, off) := fullQueue s.cx b.posts
          waitBundle s0 s b off (.room i n)
      else ({ s with cx := s0.cx, bun := none } : State).waitAt ((b.waits.head?.map (·.1)).getD 0) .plan

/-- A word of C: in its bundle, or as a bundle of its own. -/
def runC (words : Nat) (truth : Ctx → Bool) (tk : BitVec 3) (op : M Unit) (s : State) : State :=
  if s.cur ≠ .c then s.illegal
  else
    match s.bun with
    | some b => slot (truth b.old) tk op s
    | none => endBundle s (slot (truth s.cx) tk op (s.openBundle words))

/-- A word whose truth is its qp (08 R233). -/
def runCq (h : Hd) (words : Nat) (op : M Unit) (s : State) : Result :=
  .next (runC words (fun c => c.seqC.rq h.qp) h.tk op s)

/-- A V word with a lane predicate. -/
def runCv (h : Tl) (g : BitVec 6) (words : Nat) (op : M Unit) (s : State) : Result :=
  .next (runC words (fun c => c.rp g != 0) h.tk op s)

/-- A word that always executes. -/
def runCa (h : Tl) (op : M Unit) (s : State) : Result := .next (runC 1 (fun _ => true) h.tk op s)

/-- A word of the bank: opcodes 0x38 to 0x3C raise a deferred fault first. -/
def runCw (h : Hd) (words : Nat) (op : M Unit) (s : State) : Result :=
  runCq h words (do raiseBank; op) s

/-- A bundle of instructions: each executed in turn from the words at the program counter. `run` executes one. -/
def runBundle (run : Instr → State → State) (is : List Instr) (s : State) : State :=
  let step (p : State × Nat) (i : Instr) : State × Nat :=
    (run i { p.1 with bun := p.1.bun.map (fun b => { b with off := p.2 }) }, p.2 + i.words)
  let n := (is.map Instr.words).foldl (· + ·) 0
  endBundle s (is.foldl step (s.openBundle n, 0)).1

end Sys2Proof.Machine
end

