-- ==== Sys2Proof/Machine/Windows.lean ====
section
/-! DEFINITION. Windows of the optical bank (10 R279 to R302): the bank registers, WIN, staging, the weight port, the passes,
the rescale, the accumulation and the status entries (R307). -/
namespace Sys2Proof.Machine

/-! ## The copied registers of a window (10 R296, R298) -/

/-- Fields of a shape. -/
def shapePa (d : DWord) : Nat := bits d.toNat 23 20
def shapeSh (d : DWord) : Nat := bits d.toNat 19 16
def shapeT (d : DWord) : Nat := bits d.toNat 15 12 + 1
def shapePw (d : DWord) : Nat := bits d.toNat 9 6
def shapeN (d : DWord) : Nat := bits d.toNat 5 0 + 1
/-- Steps that a pass occupies (10 R287). -/
def unitOf (t : Nat) : Nat := max t 4
/-- Passes (10 R286). -/
def shapePasses (d : DWord) : Nat := (if shapePa d = 0 then 1 else 2) * (if shapePw d = 0 then 1 else 2)
/-- Steps that a window occupies (10 R292). -/
def shapeSpan (d : DWord) : Nat := shapePasses d * unitOf (shapeT d)

def Window.t (w : Window) : Nat := shapeT w.shape
def Window.n (w : Window) : Nat := shapeN w.shape
def Window.k (w : Window) : Nat := w.n * w.t
def Window.u (w : Window) : Nat := unitOf w.t
def Window.p (w : Window) : Nat := shapePasses w.shape
/-- The absolute stamp (10 R291). -/
def Window.stamp (w : Window) : Nat := w.base + w.b0
/-- The end of the light of its last pass (10 R294). -/
def Window.lightEnd (w : Window) : Nat := w.stamp + (w.p - 1) * w.u + w.t
/-- Bytes that the port delivers for it (10 R295). -/
def Window.bytes (w : Window) : Nat := w.p * w.t * (4 * w.n)

/-- MABS, MSKW, MLSR, SATT and BOUND of a policy. -/
def polMabs (d : DWord) : Bool := bit d.toNat 35
def polMskw (d : DWord) : Bool := bit d.toNat 34
def polMlsr (d : DWord) : Bool := bit d.toNat 33
def polSatt (d : DWord) : Bool := bit d.toNat 32
def polBound (d : DWord) : Nat := bits d.toNat 31 0

/-- What WCFG accepts (10 R296 to R298). -/
def bankRegOk (n : Nat) (v : DWord) : Bool :=
  let ok (p : Nat) : Bool := p == 0 || (decide (5 ≤ p) && decide (p ≤ 8))
  if n < 4 then bits v.toNat 63 24 == 0 && bits v.toNat 11 10 == 0 && ok (shapePa v) && ok (shapePw v) && decide (shapeSh v ≤ 9)
  else if n < 8 then bits v.toNat 63 32 == 0 && bits v.toNat 18 0 == 0
  else bits v.toNat 63 36 == 0

/-- A bank register by its number in WCFG (10 R299). -/
def Ctx.bankReg (c : Ctx) (n : Nat) : DWord :=
  if n < 4 then c.wsh.get (BitVec.ofNat 2 n) else if n < 8 then c.wep.get (BitVec.ofNat 2 n) else c.wpol
def Ctx.setBankReg (c : Ctx) (n : Nat) (v : DWord) : Ctx :=
  if n < 4 then { c with wsh := c.wsh.set (BitVec.ofNat 2 n) v }
  else if n < 8 then { c with wep := c.wep.set (BitVec.ofNat 2 n) v }
  else { c with wpol := v }

/-- A word of the bank of a compute core; the broadcast core has no bank (11 R315). -/
def runBank (h : Hd) (words : Nat) (op : M Unit) (s : State) : Result :=
  runCw h words (do
    let s ← get
    if s.cx.onBcast then fault 0x011 else op) s

/-- WCFG writing (10 R299). -/
def execWcfg (h : Hd) (n : BitVec 5) (a : BitVec 4) (s : State) : Result :=
  runBank h 1 (do
    let o ← opsCx
    let v := o.ra a
    if decide (n.toNat ≤ 8) && bankRegOk n.toNat v then modCx (fun c => c.setBankReg n.toNat v) else fault 0x011) s

/-- WCFG reading. -/
def execWcfgRd (h : Hd) (n : BitVec 5) (a : BitVec 4) (s : State) : Result :=
  runBank h 1 (do
    let o ← opsCx
    modCx (fun c => c.wa a (o.bankReg n.toNat))) s

/-! ## WIN (10 R300, R301) -/

/-- Steps of a plan (10 R292). -/
def planSpan : Nat := 2 ^ 20

/-- An occupancy reaches past the plan: steps from an offset (10 R292). -/
def pastPlan (b0 span : Nat) : Bool := decide (planSpan < b0 + span)

/-- An occupancy touches a calibration slot (10 R292). -/
def touchesCalibration (b span : Nat) : Bool := decide (4092 < b % 4096 + span)

/-- Two runs of steps meet. -/
def meets (b n b' n' : Nat) : Bool := decide (b < b' + n') && decide (b' < b + n)

/-- The lead of a WIN (10 R293): longer where the module belongs to a domain joined by fibre. -/
def State.lead (s : State) : Nat := if s.peers.isEmpty then 256 else 768

/-- The windows of the contexts of a core that have not been discarded. -/
def State.windowsOn (s : State) (core : Nat × Nat) : List Window :=
  (s.ctxs.filter (fun c => c.placed && c.core == core)).flatMap (fun c => c.wins.filter (fun w => !w.flags.abort))

/-- Rows 3 to 6 of 10 R301. -/
def epiStreams (d : DWord) : M Unit := do
  let s ← get
  let os := s.cx.stream (epiOs d)
  let bs := s.cx.stream (epiBs d)
  if epiOut d then
    match os.bind with
    | none => fault 0x100
    | some b => do
      require b.write 0x100
      require b.epi 0x103
  else pure ()
  if epiBen d then
    match bs.bind with
    | none => fault 0x100
    | some b => do
      require (!b.write) 0x100
      require ((bs.fmt == 0 || bs.fmt == 1) && !bs.raw) 0x103
  else pure ()

/-- Windows that a context may hold (10 R301). -/
def windowLimit : Nat := 32

/-- The context can hold another window. -/
def Ctx.winRoom (c : Ctx) : Bool := decide ((c.wins.filter (fun w => !w.flags.abort)).length < windowLimit)

/-- WIN. -/
def execWin (h : Hd) (ws : BitVec 2) (c ak : BitVec 4) (sh e : BitVec 2) (first last rel : BitVec 1) (b0 : BitVec 20)
    (s : State) : Result :=
  runBank h 2 (do
    let o ← opsCx
    let s ← get
    let shape := o.wsh.get sh
    let epi := o.wep.get e
    let b := o.pbase.toNat + b0.toNat
    let span := shapeSpan shape
    waitUnless s.cx.winRoom .window
    require (decide ((o.ra ak).toNat < 1024)) 0x205
    if last = 1 then epiStreams epi else pure ()
    require (o.pbase != 0 && !pastPlan b0.toNat span) 0x204
    require (decide (s.clock + s.lead ≤ b)) 0x200
    require (!touchesCalibration b span) 0x202
    require (!(s.windowsOn s.cx.core).any (fun w => meets b span w.stamp (shapeSpan w.shape))) 0x203
    let w : Window := { serial := s.cx.nextWin, addr := s.wordPc, base := o.pbase.toNat, b0 := b0.toNat, ws := ws, acc := c,
                        kofs := (o.ra ak).toNat, shape := shape, epi := epi, pol := o.wpol, first := first == 1,
                        last := last == 1, rel := rel == 1 }
    modCx (fun c => { c with wins := c.wins ++ [w], nextWin := c.nextWin + 1 })) s

/-! ## Deferred faults of windows (10 R310) -/

/-- The frame's account of a bank fault (14 R384): the address of the WIN, its stamp offset, accumulator and slot. A cause
that points at no element names cell 0 (log 28). -/
def bankTrap (t : Trap) (addr : DWord) (b0 : Nat) (acc : BitVec 4) (ws : BitVec 2) : Trap :=
  { t with lkind := if t.lkind = 3 then 3 else 2, lval := if t.lkind = 0 then 0 else t.lval, aux0 := addr.toNat,
           aux1 := b0 + acc.toNat * 2 ^ 20 + ws.toNat * 2 ^ 24 }

/-- Record a fault of a window. -/
def Ctx.deferWindow (c : Ctx) (w : Window) (t : Trap) : Ctx :=
  { c with deferred := c.deferred ++ [⟨.window, w.stamp, bankTrap t w.addr w.b0 w.acc w.ws⟩] }

/-- The window of a serial. -/
def Ctx.win? (c : Ctx) (n : Nat) : Option Window := c.wins.find? (fun w => w.serial == n)
/-- Change it. -/
def Ctx.updWin (c : Ctx) (n : Nat) (f : Window → Window) : Ctx :=
  { c with wins := c.wins.map (fun w => if w.serial == n then f w else w) }

/-- Invalid(w, cause) (10 R302). -/
def Ctx.invalidate (c : Ctx) (w : Window) (cause : Nat) : Ctx :=
  (c.updWin w.serial (fun w => { w with flags := { w.flags with stage := true, invalid := true }, ported := true })).deferWindow w
    { cause := cause }

/-! ## Staging (10 R286, R302) -/

/-- The tile is of the kind that PW names. -/
def kindOk (pw : Nat) (k : TileKind) : Bool :=
  match k with
  | .ni8 p => if pw = 0 then decide (p ≤ 4) else p == pw
  | _ => pw == 0

/-- What staging copies of a tile: columns 0 to 7, elements kofs up. -/
def stage (w : Window) (t : Tile) : Staged :=
  { ni8 := match t.kind with | .ni8 _ => true | _ => false
    p := match t.kind with | .ni8 p => p | _ => 4
    weights := (List.range 8).map (fun c => match t.weights[c]? with
      | some col => (col.drop w.kofs).take w.k
      | none => List.replicate w.k 0)
    ew := (List.range 8).map (fun c => ((t.exps[c]?).getD [])[w.kofs / 256]?.getD 0) }

/-- Staging of a window: the cause that makes it INVALID, or what is copied. -/
def staging (c : Ctx) (w : Window) : Except Nat Staged :=
  match c.slot w.ws with
  | none => .error 0x200
  | some t =>
    if !kindOk (shapePw w.shape) t.kind then .error 0x205
    else if t.kw < w.kofs + w.k then .error 0x205
    else if t.kind = .sb4 ∧ w.kofs / 256 ≠ (w.kofs + w.k - 1) / 256 then .error 0x182
    else .ok (stage w t)

/-- The window has been staged, or failed to be. -/
def Window.stagingDone (w : Window) : Bool := w.staged.isSome || w.flags.stage

/-- WINDOW_STAGING (10 R302): at step B - 32. -/
def execWindowStaging (c : CtxId) (n : Nat) (s : State) : Result :=
  .next (match s.ctx? c with
  | none => s
  | some x =>
    match x.win? n with
    | none => s
    | some w =>
      if w.flags.abort || w.stagingDone || decide (s.clock + 32 < w.stamp) then s
      else
        s.updCtx c (fun x => match staging x w with
          | .error cause => x.invalidate w cause
          | .ok g =>
            let x := x.updWin n (fun w => { w with staged := some g })
            if w.rel then x.setSlot w.ws none else x))

/-! ## Calibration, laser and skew at the light (10 R283, R309; 14 R395, R396) -/

/-- Steps of 1 ms (01 R17). -/
def calibrationLife : Nat := 16000000

/-- Step of the last calibration run of a bank; step 0 where there was none (log 12). -/
def State.calibratedAt (s : State) (core : Nat × Nat) : Nat :=
  match s.calibrated.find? (fun e => e.1 == core) with
  | some e => e.2
  | none => 0

/-- Calibration of a bank is not current. -/
def State.stale (s : State) (core : Nat × Nat) : Bool :=
  s.drifted.contains core || decide (s.calibratedAt core + calibrationLife < s.clock)

/-- The pass of a window whose light a step belongs to, and the step of the pass. -/
def Window.lightAt (w : Window) (x : Nat) : Option (Nat × Nat) :=
  if x < w.stamp ∨ w.stamp + w.p * w.u ≤ x then none
  else if (x - w.stamp) % w.u < w.t then some ((x - w.stamp) / w.u, (x - w.stamp) % w.u) else none

/-- Tenths of a byte that the port must have delivered before a step of light begins (10 R295). -/
def Window.due (w : Window) (pass step : Nat) : Nat := 10 * ((pass * w.t + step + 1) * (4 * w.n))

/-- The weight port has fallen behind the light at a step (10 R295). -/
def Window.lags (w : Window) (x : Nat) : Bool :=
  match w.lightAt x with
  | some (i, t) => w.staged.isSome && !w.ported && !w.flags.invalid && decide (w.port < w.due i t)
  | none => false

/-- What the present step of light says of a window. -/
def Window.shine (w : Window) (s : State) (core : Nat × Nat) : Window :=
  match w.lightAt s.clock with
  | none => w
  | some (i, _) =>
    let fl := { w.flags with laser := w.flags.laser || decide (s.clock < s.laser), skew := w.flags.skew || s.skewed.contains core,
                             stale := w.flags.stale || s.stale core }
    { w with flags := fl, stales := if s.stale core && !w.stales.contains i then w.stales ++ [i] else w.stales }

/-- The window that the port of a core serves: the earliest stamp whose delivery has begun and is not over. -/
def State.portHead (s : State) (core : Nat × Nat) : Option (CtxId × Nat) :=
  let ws := (s.ctxs.filter (fun c => c.placed && c.core == core)).flatMap (fun c =>
    (c.wins.filter (fun w => w.staged.isSome && !w.ported)).map (fun w => (w.stamp, c.id, w.serial)))
  (ws.foldl (fun (b : Option (Nat × CtxId × Nat)) w => match b with
    | none => some w
    | some v => if w.1 < v.1 then some w else b) none).map (·.2)

/-- A step's delivery to the window that the port serves: 128 f bytes at f GHz (10 R295; log 29). -/
def Window.deliver (w : Window) (s : State) (core : Nat × Nat) : Window :=
  if w.flags.invalid then { w with ported := true }
  else
    let n := w.port + 128 * ((s.dies[core.1]?).getD {}).freq
    { w with port := n, ported := decide (10 * w.bytes ≤ n) }

/-- A window over one step of the plan clock. -/
def stepWindow (s : State) (x : Ctx) (w : Window) (c : Ctx) : Ctx :=
  let core := x.core
  let c := if w.lags s.clock then
      (c.updWin w.serial (fun w => { w with flags := { w.flags with stage := true, invalid := true } })).deferWindow w { cause := 0x200 }
    else c
  c.updWin w.serial (fun w =>
    let w := if w.flags.abort then w else w.shine s core
    if s.portHead core = some (x.id, w.serial) then w.deliver s core else w)

/-- The windows of a context over one step. -/
def stepCtxWindows (s : State) (c : Ctx) : Ctx :=
  if c.wins.isEmpty then c else c.wins.foldl (fun c' w => stepWindow s c w c') c

/-- Every window over one step of the plan clock. -/
def State.stepWindows (s : State) : State :=
  { s with cx := stepCtxWindows s s.cx, others := s.others.map (stepCtxWindows s) }

/-! ## Passes (10 R280 to R287, R321) -/

/-- A part of an operand (10 R286). -/
inductive Part where
  | whole
  | high
  | low
  deriving DecidableEq, Repr

/-- A part of a value of `p` bits (03 R88). -/
def partOf (k : Part) (p : Nat) (v : Int) : Int :=
  match k with
  | .whole => v
  | .high => v / 2 ^ (p - 4)
  | .low => v % 2 ^ (p - 4)

/-- Activation part, weight part and shift of pass `i` (10 R287). -/
def passParts (pa pw i : Nat) : Part × Part × Nat :=
  if pa = 0 ∧ pw = 0 then (.whole, .whole, 0)
  else if pw = 0 then (if i = 0 then (.high, .whole, pa - 4) else (.low, .whole, 0))
  else if pa = 0 then (if i = 0 then (.whole, .high, pw - 4) else (.whole, .low, 0))
  else
    match i with
    | 0 => (.high, .high, pa + pw - 8)
    | 1 => (.high, .low, pa - 4)
    | 2 => (.low, .high, pw - 4)
    | _ => (.low, .low, 0)

/-- Passes of a BCAST, the steps of each, and the part that pass `i` carries (11 R319). -/
def Bcast.passes (b : Bcast) : Nat := (if b.pa = 0 then 1 else 2) * (if b.wp then 2 else 1)
def Bcast.u (b : Bcast) : Nat := unitOf b.t
def Bcast.stamp (b : Bcast) : Nat := b.base + b.b0
def Bcast.lightEnd (b : Bcast) : Nat := b.stamp + b.passes * b.u
def Bcast.part (b : Bcast) (i : Nat) : Part :=
  if b.pa = 0 then .whole else if (!b.wp && i == 0) || (b.wp && decide (i < 2)) then .high else .low

/-- A pass of a BCAST lights the first `n` steps of pass `i` of a window (11 R321): it begins with it, carries its PA and its part,
and lasts as long; its light was sent. -/
def Bcast.lightsFor (b : Bcast) (w : Window) (i n : Nat) : Bool :=
  let x := w.stamp + i * w.u
  let (part, _, _) := passParts (shapePa w.shape) (shapePw w.shape) i
  decide (b.stamp ≤ x) && decide (x < b.lightEnd) && (x - b.stamp) % b.u == 0 && b.pa == shapePa w.shape &&
    b.part ((x - b.stamp) / b.u) == part && decide (w.t ≤ b.t) &&
    b.side && decide ((x - b.stamp) / b.u < b.lit) && (match b.cut with | some a => decide (x + n ≤ a) | none => true)

/-- It lights the whole pass. -/
def Bcast.lights (b : Bcast) (w : Window) (i : Nat) : Bool := b.lightsFor w i w.t

/-- A step of light of the window before step `x` met no light, in a pass whose code has not come (10 R309). -/
def Window.darkBy (w : Window) (light : List Bcast) (x : Nat) : Bool :=
  (List.range w.p).any (fun i => decide (w.passes ≤ i) && decide (w.stamp + i * w.u < x) &&
    !light.any (fun b => b.lightsFor w i (min w.t (x - (w.stamp + i * w.u)))))

/-- La of a row: the levels of the K products in order (10 R280); channels past the BCAST's carry level 0 (11 R321). -/
def Bcast.row (b : Bcast) (w : Window) (part : Part) (r : Nat) : List Int :=
  let lev := (b.rows[r]?).getD []
  (List.range w.t).flatMap (fun t => (List.range w.n).map (fun l =>
    if l < b.n then partOf part b.pa ((lev[t * b.n + l]?).getD 0) else 0))

/-- The sum of products. -/
def dot (a b : List Int) : Int := (List.zipWith (· * ·) a b).foldl (· + ·) 0

/-- The unclamped converter value (10 R282). -/
def unclamped (v : Int) (sh : Nat) : Int := (v + (if sh = 0 then 0 else 2 ^ (sh - 1))) / 2 ^ sh
/-- Code(S, sh). -/
def convert (v : Int) (sh : Nat) : Int := clampInt (unclamped v sh) (-512) 511

/-- The error of a code of a stale bank, within one (10 R283): a free value (log 9). -/
def staleError (n : Nat) : Int := ((Config.freeCode n % 3 : Nat) : Int) - 1

/-- A pass with light and weights: the codes join the sums, and saturation the mask. `tick` numbers the free values. -/
def passCodes (w : Window) (g : Staged) (b : Bcast) (i tick : Nat) : Window :=
  let (pa, pw, shift) := passParts (shapePa w.shape) (shapePw w.shape) i
  let sh := shapeSh w.shape
  let cols := g.weights.map (fun col => col.map (partOf pw g.p))
  let sums := (List.range 32).flatMap (fun r =>
    let row := b.row w pa r
    cols.map (dot row))
  let codes := sums.zipIdx.map (fun v =>
    if w.stales.contains i then clampInt (convert v.1 sh + staleError (tick + v.2)) (-512) 511 else convert v.1 sh)
  let sat := packBits 1 (sums.map (fun v => if convert v sh = unclamped v sh then 0 else 1))
  let old := if w.c.isEmpty then List.replicate 256 0 else w.c
  { w with c := List.zipWith (fun o c => o + c * 2 ^ shift) old codes, mask := w.mask ||| BitVec.ofNat 256 sat,
           ea := if i = 0 then b.ea else w.ea }

/-- The weight side of pass `i` is lit in full: the port did not fall behind before its end (10 R295). DESIGN CHOICE (log 58): a pass
whose weight light stops midway gives no code, so it sets no bit of the mask. -/
def Window.weighted (w : Window) (i : Nat) : Bool := !w.flags.stage || decide (w.due i (w.t - 1) ≤ w.port)

/-- WINDOW_PASS (10 R282 to R284, R294; 11 R321): the codes of the next pass are delivered, at B + i U + T + 8. -/
def execWindowPass (c : CtxId) (n : Nat) (s : State) : Result :=
  .next (match s.ctx? c with
  | none => s
  | some x =>
    match x.win? n with
    | none => s
    | some w =>
      if w.flags.abort || decide (w.p ≤ w.passes) || decide (s.clock < w.stamp + w.passes * w.u + w.t + 8) then s
      else
        let i := w.passes
        let w' := match s.light.find? (fun b => b.lights w i) with
          | none => { w with flags := { w.flags with absent := true } }
          | some b =>
            match w.staged with
            | some g => if w.weighted i then passCodes w g b i s.ticks else w
            | none => w
        { s.updCtx c (fun x => x.updWin n (fun _ => { w' with passes := i + 1 })) with ticks := s.ticks + 256 })

/-- WINDOW_RESCALE (10 R287, R288): at E + 16. -/
def execWindowRescale (c : CtxId) (n : Nat) (s : State) : Result :=
  .next (match s.ctx? c with
  | none => s
  | some x =>
    match x.win? n with
    | none => s
    | some w =>
      if w.flags.abort || w.d.isSome || decide (s.clock < w.lightEnd + 16) then s
      else
        let ew := match w.staged with | some g => g.ew | none => []
        let d := w.c.zipIdx.map (fun v =>
          rescale v.1 (shapeSh w.shape) ((w.ea[v.2 / 8]?).getD 0) ((ew[v.2 % 8]?).getD 0))
        s.updCtx c (fun x => x.updWin n (fun w => { w with d := some d })))

/-! ## Accumulation and status (10 R289, R307, R309) -/

/-- The elements of an accumulator: (r, c) at 8 r + c. -/
def Ctx.accAt (c : Ctx) (a : BitVec 4) : List Nat := unpackBits 32 256 (c.acc.get a).toNat
/-- An accumulator set. -/
def Ctx.setAcc (c : Ctx) (a : BitVec 4) (xs : List Nat) : Ctx := { c with acc := c.acc.set a (BitVec.ofNat 8192 (packBits 32 xs)) }

/-- The window is not accumulated. -/
def Window.invalid (w : Window) : Bool :=
  w.flags.invalid || w.flags.abort || w.flags.absent || w.flags.laser || w.flags.skew

/-- An invalid window whose epilogue runs all the same: every condition it met is marked only (10 R309). -/
def Window.markedOnly (w : Window) : Bool :=
  !w.flags.invalid && !w.flags.abort && (!w.flags.absent || polMabs w.pol) && (!w.flags.skew || polMskw w.pol) &&
    (!w.flags.laser || polMlsr w.pol)

/-- The first saturated cell. -/
def firstCell (m : BitVec 256) : Nat := ((List.range 256).find? (fun j => m.getLsbD j)).getD 0

/-- The deferred faults of a window's conditions (10 R309). -/
def Window.faults (w : Window) : List Trap :=
  (if w.mask ≠ 0 ∧ polSatt w.pol then [{ cause := 0x20C, lkind := 2, lval := firstCell w.mask }] else []) ++
  (if w.flags.laser && !polMlsr w.pol then [{ cause := 0x20A }] else []) ++
  (if w.flags.skew && !polMskw w.pol then [{ cause := 0x20B }] else []) ++
  (if w.flags.absent && !polMabs w.pol then [{ cause := 0x209 }] else [])

/-- Bit `i`, where it is set. -/
def flagBit (b : Bool) (i : Nat) : Nat := if b then 2 ^ i else 0

/-- The status entry of a window (10 R307). VALID is set as it is queued. -/
def Window.entry (w : Window) : WindowStatus :=
  { summary := BitVec.ofNat 64 (w.b0 * 2 ^ 36 + w.acc.toNat * 2 ^ 32 + flagBit w.flags.stage 10 + 2 ^ 8 + flagBit w.invalid 7 +
      flagBit w.flags.abort 6 + flagBit w.flags.absent 5 + flagBit w.flags.laser 4 + flagBit w.flags.skew 3 +
      flagBit w.flags.stale 2 + flagBit (w.mask != 0) 1 + flagBit w.last 0)
    mask := w.mask }

/-- Entries that the status queue holds (10 R307). -/
def statusLimit : Nat := 32

/-- Queue one entry; when the queue is full the oldest goes and LOST is set in the new head. -/
def queueStatus (q : List WindowStatus) (e : WindowStatus) : List WindowStatus :=
  if q.length < statusLimit then q ++ [e]
  else
    match q.tail ++ [e] with
    | [] => []
    | h :: rest => { h with summary := h.summary ||| 0x200 } :: rest

/-- Entries that are final leave the held ones in the order of accumulation. -/
def flushHeld : List HeldStatus → List WindowStatus → List HeldStatus × List WindowStatus
  | [], q => ([], q)
  | h :: hs, q => if h.ready then flushHeld hs (queueStatus q h.entry) else (h :: hs, q)

/-- Queue what is final. -/
def Ctx.flushStatus (c : Ctx) : Ctx :=
  let r := flushHeld c.held c.wstat
  { c with held := r.1, wstat := r.2 }

/-- Tiles that the epilogue queue holds (10 R306). -/
def epiLimit : Nat := 4

/-- The tile quantises to SB4 (10 R305). -/
def Ctx.epiSb4 (c : Ctx) (d : DWord) : Bool := epiOut d && (c.stream (epiOs d)).fmt == 8

/-- A LAST window's tile enters the epilogue queue, or is dropped where it is full (10 R306). -/
def Ctx.enterEpilogue (c : Ctx) (w : Window) : Ctx :=
  if epiLimit ≤ c.epi.length then c.deferWindow w { cause := 0x20D }
  else { c with epi := c.epi ++ [{
    win := some w.serial, step := w.stamp, addr := w.addr, b0 := w.b0, acc := w.acc, ws := w.ws, epi := w.epi,
    bound := polBound w.pol, x := c.accAt w.acc, base := w.base }] }

/-- A window at E + 24. DEDUCED (log 28): the window that an aborted plan ends records 0x208 alone, and no fault of another
condition it has met (10 R309 does not say whether those are recorded beside it). -/
def Ctx.accumulate (c : Ctx) (w : Window) : Ctx :=
  let ok := !w.invalid
  let c := if ok then c.setAcc w.acc (match w.d with
      | some d => if w.first then d else List.zipWith fp32.add (c.accAt w.acc) d
      | none => c.accAt w.acc)
    else c
  let c := (if w.flags.abort then [] else w.faults).foldl (fun c t => c.deferWindow w t) c
  let runs := w.last && (ok || w.markedOnly)
  let room := decide (c.epi.length < epiLimit)
  let hold := ok && runs && room && c.epiSb4 w.epi
  let c := if runs then c.enterEpilogue w else c
  ({ c with wins := c.wins.filter (fun v => v.serial != w.serial)
            held := c.held ++ [⟨w.serial, !hold, w.entry⟩] } : Ctx).flushStatus

/-- WINDOW_ACCUMULATE (10 R289, R302, R307): at E + 24. -/
def execWindowAccumulate (c : CtxId) (n : Nat) (s : State) : Result :=
  .next (match s.ctx? c with
  | none => s
  | some x =>
    match x.win? n with
    | none => s
    | some w => if s.clock < w.lightEnd + 24 then s else s.updCtx c (fun x => x.accumulate w))

/-- The event of a window that is due at the present step (10 R294). -/
def Window.dueEvent (c : CtxId) (w : Window) (clock : Nat) : Option Instr :=
  if !w.flags.abort && !w.stagingDone && decide (w.stamp ≤ clock + 32) then some (.windowStaging c w.serial)
  else if !w.flags.abort && decide (w.passes < w.p) && decide (w.stamp + w.passes * w.u + w.t + 8 ≤ clock) then
    some (.windowPass c w.serial)
  else if !w.flags.abort && w.d.isNone && decide (w.lightEnd + 16 ≤ clock) then some (.windowRescale c w.serial)
  else if w.lightEnd + 24 ≤ clock then some (.windowAccumulate c w.serial)
  else none

end Sys2Proof.Machine
end

