-- ==== Sys2Proof/Machine/Bank.lean ====
section
/-! DEFINITION. The epilogue (10 R303 to R306), WSTAT (R308), deferred faults raised at a halted C (R310), WACC (R312) and
LVTSET (R313). -/
namespace Sys2Proof.Machine

/-! ## The epilogue -/

/-- The value of `x` scaled by 2^(-w), and its floor kept within 0 to 63 (10 R304). -/
def actIndex (v : FVal) (w : Int) : Nat :=
  match v with
  | .nan => 0
  | .inf neg => if neg then 0 else 63
  | .fin neg m e =>
    let g := e - w
    let i : Int := (if neg then -1 else 1) * m
    let f : Int := if 0 ≤ g then i * 2 ^ g.toNat else i / 2 ^ (-g).toNat
    (clampInt f 0 63).toNat

/-- Act (10 R304). -/
def activate (tab : ActTable) (x : Nat) : Nat :=
  match fp32.value x with
  | .nan => fp32.nan
  | v =>
    let i := actIndex (v.add (fp32.value tab.lo.toNat).neg) tab.w
    fp32.fma (tab.slope.toNat / 2 ^ (32 * i) % 2 ^ 32) x (tab.icpt.toNat / 2 ^ (32 * i) % 2 ^ 32)

/-- AEN and ACT of a descriptor (10 R297). -/
def epiAen (d : DWord) : Bool := bit d.toNat 21
def epiAct (d : DWord) : BitVec 2 := BitVec.ofNat 2 (bits d.toNat 20 19)

def Ctx.actTable (c : Ctx) (i : BitVec 2) : ActTable := Vector.get c.act i.toFin

/-- Record a fault of a tile (10 R310). -/
def Ctx.deferTile (c : Ctx) (e : EpiTile) (t : Trap) : Ctx :=
  { c with deferred := c.deferred ++ [⟨if e.win.isSome then .window else .waccEpi, e.step, bankTrap t e.addr e.b0 e.acc e.ws⟩] }

/-- A tile leaves the queue; its status entry, if it waited for it, is final. -/
def Ctx.popTileAt (c : Ctx) (i : Nat) (ovf : Bool) : Ctx :=
  match c.epi[i]? with
  | none => c
  | some e =>
    ({ c with
      epi := c.epi.eraseIdx i
      held := c.held.map (fun h => if some h.serial = e.win then
        { h with ready := true, entry := { h.entry with summary := h.entry.summary ||| BitVec.ofNat 64 (flagBit ovf 11) } }
      else h) } : Ctx).flushStatus

/-- The head tile leaves the queue. -/
def Ctx.popTile (c : Ctx) (ovf : Bool) : Ctx := c.popTileAt 0 ovf

/-- The launch of a context is being brought to rest (15 R399). -/
def State.freezing (s : State) (c : CtxId) : Bool := (s.launch? c.launch).any (fun l => l.run == .freezing)

/-- The head tile of a context whose bank is active (10 R306), or whose launch is brought to rest (15 R402). -/
def State.tileOf (s : State) (c : CtxId) : Option (Ctx × EpiTile) :=
  match s.ctx? c with
  | none => none
  | some x => if s.isActive x || s.freezing c then (x.epi.head?).map (fun e => (x, e)) else none

/-- The tile that takes its bias and activation next: the head; while its launch is brought to rest, the first that has not
had them, since an image holds tiles after them (15 R402, R408). -/
def State.shapeNext (s : State) (c : CtxId) (x : Ctx) : Nat := if s.freezing c then x.epi.findIdx (fun e => !e.shaped) else 0

/-- Run an operation of the epilogue for tile `i` of a context. A fault is deferred, and the tile is dropped. A tile whose stream
access goes to another device or another frame waits for the answer, before which nothing takes effect. -/
def runTile (c : CtxId) (i : Nat) (e : EpiTile) (op : M Unit) (s : State) : State :=
  let back := s.cx.id
  let s1 := s.focus c
  match op s1 with
  | .ok _ s2 => s2.focus back
  | .error (.wait a) s2 =>
    let s3 := undone s1 s2
    if a = .reply then
      ({ s3 with cx := { s3.cx with epi := modAt s3.cx.epi i (fun e =>
          { e with
            sent := true, reached := ((s2.cx.epi[i]?).map (·.reached)).getD [], parts := ((s2.cx.epi[i]?).map (·.parts)).getD []
            toward := ((s2.cx.epi[i]?).map (·.toward)).getD [] }) } } : State).focus back
    else s3.focus back
  | .error (.trap t) s2 =>
    let s3 := undone s1 s2
    ({ s3 with cx := (s3.cx.deferTile e t).popTileAt i false } : State).focus back

/-- The optical bank of a context as an agent, for a tile. -/
def Ctx.bankAgent (c : Ctx) (e : EpiTile) : Agent := { c.agent 4 0 with
  acked := e.acked, reached := e.reached, accepted := if e.accepted then some e.parts else none }

/-- The bias: 8 elements of stream BS (10 R303). DESIGN CHOICE (log 52): where fewer than 8 elements are left, Elem is taken past
the last, and POS passes the total. -/
def readBias (e : EpiTile) (st : BitVec 4) : M (List Nat) := do
  let (t, b) ← boundFor st false
  withTrap (atElem st t.pos 0) (do notExhausted t; rowFour b)
  let s ← get
  let xs ← readElems (s.cx.bankAgent e) 0 st t b (t.run t.pos 8)
  setPos st (t.pos + 8)
  pure (xs.map (widen s.cx t))

/-- EPILOGUE_TILE (10 R303): the bias and the activation of a tile. -/
def execEpilogueTile (c : CtxId) (s : State) : Result :=
  .next (match s.tileOf c with
  | none => s
  | some (x, _) =>
    let i := s.shapeNext c x
    match x.epi[i]? with
    | none => s
    | some e =>
    if e.shaped then s
    else
      runTile c i e (do
        let bias ← if epiBen e.epi then readBias e (epiBs e.epi) else pure []
        modCx (fun x =>
          let biased := if epiBen e.epi then e.x.zipIdx.map (fun v => fp32.add v.1 ((bias[v.2 % 8]?).getD 0)) else e.x
          let shaped := if epiAen e.epi then biased.map (activate (x.actTable (epiAct e.epi))) else biased
          { x with epi := modAt x.epi i (fun e => { e with x := shaped, shaped := true, sent := false, acked := false }) })) s)

/-- Give the tile to its output stream (10 R305): the writes are checked whole before any is performed. DESIGN CHOICE (log 52):
where fewer than 256 elements are left, Elem is taken past the last, and POS passes the total; and a stream that is no longer bound as
an epilogue stream fails rows 1 and 2 of 09 R262, although R305 names rows 3, 4, 7 and 8 alone. -/
def writeTile (e : EpiTile) : M Unit := do
  let st := epiOs e.epi
  let (t, b) ← boundFor st true
  require b.epi 0x103
  withTrap (atElem st t.pos 0) (do
    notExhausted t
    require (t.fmt != 8 || t.pos % 256 == 0) 0x107)
  let s ← get
  let ag := s.cx.bankAgent e
  if t.fmt = 8 then
    match quantise e.x t.taben (s.cx.lvt.get t.lvt) with
    | none => throw (.trap { cause := 0x184, lkind := 2, lval := e.x.findIdx (fun x => (fp32.value x).isNan) })
    | some q => do
      let ws ← itemsCheck ag 1 st t b .shadow (blockItems t b [q])
      performItems ag 1 t b .shadow false (headersLast ws) ws
      setPos st (t.pos + 256)
      modCx (fun c => c.popTile q.ovf)
  else do
    let ws ← itemsCheck ag 1 st t b .shadow (elemItems t b (e.x.map (narrow t.fmt)) [])
    performItems ag 1 t b .shadow false ws ws
    setPos st (t.pos + 256)
    modCx (fun c => c.popTile false)

/-- The wait of a tile past its bound (10 R306): it is dropped with "watchdog". -/
def Ctx.timeoutTile (c : Ctx) (e : EpiTile) : Ctx := (c.deferTile e { cause := 0x310 }).popTile false

/-- EPILOGUE_OUTPUT (10 R305, R306): the head tile goes to oq, where that has room, or to its stream. -/
def execEpilogueOutput (c : CtxId) (s : State) : Result :=
  .next (match s.tileOf c with
  | none => s
  | some (x, e) =>
    if !e.shaped then s
    else if epiOut e.epi then runTile c 0 e (writeTile e) s
    else if x.oq.length < oqLimit then
      s.updCtx c (fun x => ({ x with oq := x.oq ++ [imageOf e.x] } : Ctx).popTile false)
    else s)

/-- The head tile has been held for 64 cycles while it did not wait: its bias and activation, or its output, are due (10 R294). -/
def State.tileStepDue (s : State) (x : Ctx) : Option Instr :=
  if !s.isActive x then none
  else (x.epi.head?.filter (fun e => !e.waits x && decide (64 ≤ e.idle + 1))).map (fun e => if e.shaped then .epilogueOutput x.id else .epilogueTile x.id)

/-- The wait of the head tile has passed its bound (14 R391). -/
def State.tileOverdue (s : State) (x : Ctx) : Option EpiTile :=
  x.epi.head?.filter (fun e => (s.counts x || (s.settling x && !e.waitsForOq x)) && e.waits x && e.limit.any (fun n => decide (n < e.waited)))

/-- EPILOGUE_TIMEOUT (10 R306): the head tile's wait has passed its bound. Writes that have been issued are performed; a tile whose
output has not begun is dropped. DEDUCED (log 17): writes that have been sent with the checks of their homes count as issued, although
those checks are not yet acknowledged. -/
def execEpilogueTimeout (c : CtxId) (s : State) : Result :=
  .next (match (s.ctx? c).bind (fun x => s.tileOverdue x) with
  | none => s
  | some e =>
    if e.shaped && epiOut e.epi then
      runTile c 0 e (writeTile { e with acked := true }) (s.updCtx c (fun x => x.deferTile e { cause := 0x310 }))
    else s.updCtx c (fun x => x.timeoutTile e))

/-! ## Deferred faults at a C that does not issue (10 R310, 11 R329) -/

/-- C raises the next deferred fault where it stands: at the HALT that it executed, or at the instruction that waits (14 R440). -/
def raiseBankAt (c : CtxId) (s : State) : State :=
  let back := s.cx.id
  let s1 := (s.focus c).recallHalt .c
  match nextDeferred s1.cx.deferred with
  | none => s
  | some d =>
    let s2 := { s1 with cx := { s1.cx with deferred := afterRaise s1.cx.deferred d, seqC := { s1.cx.seqC with halted := false } } }
    (s2.takeFault d.raised 1 (instrAt s1.cx .c (wordIx s1.cx.seqC.pc + s1.cx.seqC.off))).focus back

/-- C of the context has halted, or its plan was aborted while it waited for it, and a deferred fault is raised at once. -/
def State.bankDue (s : State) (c : Ctx) : Bool :=
  c.status == .running && s.isActive c && !c.debugStop && (c.seqC.halted || c.seqC.awaiting == some .plan) && !c.deferred.isEmpty

/-! ## WSTAT (10 R308) -/

/-- WSTAT. -/
def execWstat (h : Hd) (d : BitVec 4) (p : BitVec 6) (e : BitVec 1) (s : State) : Result :=
  runBank h 1 (do
    let o ← opsCx
    match o.wstat with
    | [] => modCx (fun c => (c.wa d 0).wp p 0)
    | w :: _ => do
      modCx (fun c => (c.wa d w.summary).wp p (w.mask.setWidth 1024))
      if e = 1 then pure () else modCx (fun c => { c with wstat := c.wstat.tail })) s

/-! ## WACC (10 R312) -/

/-- Windows accepted before that name the accumulator have been accumulated or made INVALID. DEDUCED (log 47): a staging check,
the weight port or an abort makes a window INVALID at once; absent light, the laser line and skew do so when the policy is
applied, at E + 24 (R302, R309). -/
def Ctx.accDone (c : Ctx) (a : BitVec 4) : Bool := !c.wins.any (fun w => w.acc == a && !(w.flags.invalid || w.flags.abort))

/-- WACC waits for them. -/
def accWait (a : BitVec 4) : M Unit := do
  let s ← get
  waitUnless (s.cx.accDone a) .windows

/-- WACC.rd. -/
def execWaccRd (h : Hd) (c v : BitVec 4) (s : State) : Result :=
  runBank h 1 (do
    accWait c
    modCx (fun x => x.wv v ((x.acc.get c).setWidth 32768))) s

/-- WACC.wr: accumulator element (r, c) takes lane position 8 r + c. -/
def execWaccWr (h : Hd) (c : BitVec 4) (a : BitVec 5) (s : State) : Result :=
  runBank h 1 (do
    accWait c
    let img ← src a
    modCx (fun x => { x with acc := x.acc.set c (img.setWidth 8192) })) s

/-- WACC.clr. -/
def execWaccClr (h : Hd) (c : BitVec 4) (s : State) : Result :=
  runBank h 1 (do
    accWait c
    modCx (fun x => { x with acc := x.acc.set c 0 })) s

/-- WACC.epi: the accumulator enters the epilogue queue; it waits while that is full (10 R306). The tile's wait at the head is
bounded by wpol (log 28). DESIGN CHOICE (log 55): no WIN issued the tile, so a fault of it names the address of the WACC, offset 0 and
slot 0. -/
def execWaccEpi (h : Hd) (c : BitVec 4) (e : BitVec 2) (s : State) : Result :=
  runBank h 1 (do
    accWait c
    let o ← opsCx
    let d := o.wep.get e
    epiStreams d
    let s ← get
    waitUnless (decide (s.cx.epi.length < epiLimit)) (.epilogue 0)
    modCx (fun x => { x with nextTile := x.nextTile + 1, epi := x.epi ++ [{
      win := none, entry := x.nextTile, step := s.clock, addr := s.wordPc, b0 := 0, acc := c, ws := 0, epi := d,
      bound := polBound o.wpol, x := x.accAt c, base := o.pbase.toNat }] })) s

/-! ## LVTSET (10 R313) -/

/-- The 16 entries of a level table in an image. -/
def lvtEntries (img : Image) : List Int := (unpackBits 32 16 img.toNat).map (fun v => signExt v 32)

/-- Lane position `j` of an image. -/
def laneNum (img : Image) (j : Nat) : Nat := img.toNat / 2 ^ (32 * j) % 2 ^ 32

/-- A finite FP32 value. -/
def isFinite (x : Nat) : Bool :=
  match fp32.value x with
  | .fin _ _ _ => true
  | _ => false

/-- No window is pending, and no tile of one is held. DESIGN CHOICE (log 47): one that has become INVALID without an epilogue is pending
until its policy is applied. -/
def Ctx.bankIdle (c : Ctx) : Bool := !c.wins.any (fun w => !w.flags.abort) && !c.epi.any (fun e => e.win.isSome)

/-- LVTSET; the broadcast core has it too. DESIGN CHOICE (log 52): "table form" names no lane of the image. -/
def execLvtset (h : Hd) (t : BitVec 1) (n : BitVec 3) (a : BitVec 5) (s : State) : Result :=
  runCw h 1 (do
    let img ← src a
    let s ← get
    waitUnless s.cx.bankIdle .windows
    if t = 0 then do
      let es := lvtEntries img
      require (es.all (fun e => decide (-15 ≤ e) && decide (e ≤ 15))) 0x20E
      modCx (fun c => { c with lvt := c.lvt.set n (BitVec.ofNat 128 (packBits 8 (es.map (fun e => (BitVec.ofInt 8 e).toNat)))) })
    else do
      let lo := laneNum img 128
      let w := signExt (laneNum img 129) 32
      require (isFinite lo && decide (-126 ≤ w) && decide (w ≤ 127)) 0x20E
      let i : BitVec 2 := n.setWidth 2
      let tab : ActTable := { slope := BitVec.ofNat 2048 img.toNat, icpt := BitVec.ofNat 2048 (img.toNat / 2 ^ 2048),
                              lo := BitVec.ofNat 32 lo, w := w }
      modCx (fun c => { c with act := Vector.set c.act i.toNat tab i.isLt })) s

end Sys2Proof.Machine
end

