-- ==== Sys2Proof/Machine/Lanes.lean ====
section
/-! DEFINITION. The vector family of C (08 R237 to R243), the special functions (R245) and QPUSH (R246). -/
namespace Sys2Proof.Machine

/-! ## Elements -/

/-- The format of a type code: 0 .f32, 1 .bf16, 2 .f16. -/
def tyFmt (y : BitVec 2) : Fmt := match y.toNat with | 0 => fp32 | 1 => bf16 | _ => fp16

/-- A lane of a 32-bit or a packed type from its elements. -/
def perElem (y : BitVec 2) (fl : Fmt → Nat → Nat → Nat → Nat) (int : Nat → Nat → Nat → Nat) (a b d : Nat) : Nat :=
  match y.toNat with
  | 0 => fl fp32 a b d
  | 3 => int a b d % 2 ^ 32
  | _ => fl (tyFmt y) (a % 2 ^ 16) (b % 2 ^ 16) (d % 2 ^ 16) +
      2 ^ 16 * fl (tyFmt y) (a / 2 ^ 16) (b / 2 ^ 16) (d / 2 ^ 16)

/-- A lane as a signed number, and back. -/
def sI (a : Nat) : Int := signExt a 32
def uI (i : Int) : Nat := (BitVec.ofInt 32 i).toNat

/-- a × b + d, one rounding. -/
def fmaF (f : Fmt) (a b d : Nat) : Nat := f.fma a b d
/-- d − a × b, one rounding. -/
def fmsF (f : Fmt) (a b d : Nat) : Nat := f.round ((f.value d).add ((f.value a).mul (f.value b)).neg)
/-- |a|; NaN gives the canonical NaN. -/
def absF (f : Fmt) (a : Nat) : Nat := if (f.value a).isNan then f.nan else a % 2 ^ (f.width - 1)
/-- −a; NaN gives the canonical NaN. -/
def negF (f : Fmt) (a : Nat) : Nat := if (f.value a).isNan then f.nan else a ^^^ 2 ^ (f.width - 1)

/-- VMAD (08 R238). -/
def madLane (y : BitVec 2) (a b d : Nat) : Nat :=
  if y = 3 then uI (sI d + signExt a 16 * signExt b 16 + signExt (a / 2 ^ 16) 16 * signExt (b / 2 ^ 16) 16)
  else
    let f := tyFmt y
    let p (i j : Nat) : FVal := (f.value i).mul (f.value j)
    fp32.round ((p (a % 2 ^ 16) (b % 2 ^ 16)).add (p (a / 2 ^ 16) (b / 2 ^ 16)) |>.add (fp32.value d))

/-! ## The general form (08 R237) -/

/-- Write the true lanes of v[d]. -/
def setV (d : BitVec 4) (g : BitVec 6) (new : Image) : M Unit := do
  let o ← opsCx
  modCx (fun c => c.wv d (mergeLanes (o.rp g) new (c.v.get d)))

/-- Lane by lane, from two operands and the destination. -/
def lanes3 (f : Nat → Nat → Nat → Nat) (a b d : Image) : Image :=
  imageOf (List.zipWith (fun p z => f p.1 p.2 z) (List.zip (lanesOf a) (lanesOf b)) (lanesOf d))

/-- Lane by lane, from one operand. -/
def lanes1 (f : Nat → Nat) (a : Image) : Image := imageOf ((lanesOf a).map f)

/-- A two-operand instruction. -/
def vector2 (d : BitVec 4) (a b : BitVec 5) (g : BitVec 6) (f : Nat → Nat → Nat → Nat) : M Unit := do
  let o ← opsCx
  let x ← src a
  let z ← src b
  setV d g (lanes3 f x z (o.v.get d))

/-- A unary instruction. -/
def vector1 (d : BitVec 4) (a : BitVec 5) (g : BitVec 6) (f : Nat → Nat) : M Unit := do
  let x ← src a
  setV d g (lanes1 f x)

/-! ## Arithmetic (08 R238) -/

def execVadd (h : Tl) (d : BitVec 4) (a b : BitVec 5) (g : BitVec 6) (y : BitVec 2) (s : State) : Result :=
  runCv h g 1 (vector2 d a b g (perElem y (fun f a b _ => f.add a b) (fun a b _ => a + b))) s
def execVsub (h : Tl) (d : BitVec 4) (a b : BitVec 5) (g : BitVec 6) (y : BitVec 2) (s : State) : Result :=
  runCv h g 1 (vector2 d a b g (perElem y (fun f a b _ => f.sub a b) (fun a b _ => uI (sI a - sI b)))) s
def execVmul (h : Tl) (d : BitVec 4) (a b : BitVec 5) (g : BitVec 6) (y : BitVec 2) (s : State) : Result :=
  runCv h g 1 (vector2 d a b g (perElem y (fun f a b _ => f.mul a b) (fun a b _ => a * b))) s
def execVfma (h : Tl) (d : BitVec 4) (a b : BitVec 5) (g : BitVec 6) (y : BitVec 2) (s : State) : Result :=
  runCv h g 1 (vector2 d a b g (perElem y fmaF (fun a b d => a * b + d))) s
def execVfms (h : Tl) (d : BitVec 4) (a b : BitVec 5) (g : BitVec 6) (y : BitVec 2) (s : State) : Result :=
  runCv h g 1 (vector2 d a b g (perElem y fmsF (fun a b d => uI (sI d - sI a * sI b)))) s
def execVmin (h : Tl) (d : BitVec 4) (a b : BitVec 5) (g : BitVec 6) (y : BitVec 2) (s : State) : Result :=
  runCv h g 1 (vector2 d a b g (perElem y (fun f a b _ => f.min a b) (fun a b _ => if sI a ≤ sI b then a else b))) s
def execVmax (h : Tl) (d : BitVec 4) (a b : BitVec 5) (g : BitVec 6) (y : BitVec 2) (s : State) : Result :=
  runCv h g 1 (vector2 d a b g (perElem y (fun f a b _ => f.max a b) (fun a b _ => if sI a ≤ sI b then b else a))) s
def execVabs (h : Tl) (d : BitVec 4) (a : BitVec 5) (g : BitVec 6) (y : BitVec 2) (s : State) : Result :=
  runCv h g 1 (vector1 d a g (fun x => perElem y (fun f a _ _ => absF f a) (fun a _ _ => uI (sI a).natAbs) x 0 0)) s
def execVneg (h : Tl) (d : BitVec 4) (a : BitVec 5) (g : BitVec 6) (y : BitVec 2) (s : State) : Result :=
  runCv h g 1 (vector1 d a g (fun x => perElem y (fun f a _ _ => negF f a) (fun a _ _ => uI (-sI a)) x 0 0)) s
def execVand (h : Tl) (d : BitVec 4) (a b : BitVec 5) (g : BitVec 6) (_y : BitVec 2) (s : State) : Result :=
  runCv h g 1 (vector2 d a b g (fun a b _ => a &&& b)) s
def execVor (h : Tl) (d : BitVec 4) (a b : BitVec 5) (g : BitVec 6) (_y : BitVec 2) (s : State) : Result :=
  runCv h g 1 (vector2 d a b g (fun a b _ => a ||| b)) s
def execVxor (h : Tl) (d : BitVec 4) (a b : BitVec 5) (g : BitVec 6) (_y : BitVec 2) (s : State) : Result :=
  runCv h g 1 (vector2 d a b g (fun a b _ => a ^^^ b)) s
def execVnot (h : Tl) (d : BitVec 4) (a : BitVec 5) (g : BitVec 6) (_y : BitVec 2) (s : State) : Result :=
  runCv h g 1 (vector1 d a g (fun a => 2 ^ 32 - 1 - a % 2 ^ 32)) s
def execVshl (h : Tl) (d : BitVec 4) (a b : BitVec 5) (g : BitVec 6) (_y : BitVec 2) (s : State) : Result :=
  runCv h g 1 (vector2 d a b g (fun a b _ => a * 2 ^ (b % 32))) s
def execVshr (h : Tl) (d : BitVec 4) (a b : BitVec 5) (g : BitVec 6) (_y : BitVec 2) (s : State) : Result :=
  runCv h g 1 (vector2 d a b g (fun a b _ => a / 2 ^ (b % 32))) s
def execVsra (h : Tl) (d : BitVec 4) (a b : BitVec 5) (g : BitVec 6) (_y : BitVec 2) (s : State) : Result :=
  runCv h g 1 (vector2 d a b g (fun a b _ => uI (sI a / 2 ^ (b % 32)))) s
def execVmad (h : Tl) (d : BitVec 4) (a b : BitVec 5) (g : BitVec 6) (y : BitVec 2) (s : State) : Result :=
  runCv h g 1 (vector2 d a b g (madLane y)) s

/-! ## Comparison and moves (08 R239 to R241) -/

/-- A condition of VCMP on two lanes; packed types compare their low halves. -/
def laneCond (c : Nat) (y : BitVec 2) (a b : Nat) : Bool :=
  if y = 3 then
    match c with
    | 0 => a == b
    | 1 => a != b
    | 2 => decide (sI a < sI b)
    | 3 => decide (sI a ≤ sI b)
    | 4 => decide (sI b < sI a)
    | 5 => decide (sI b ≤ sI a)
    | 6 => decide (a < b)
    | _ => decide (b ≤ a)
  else
    let f := tyFmt y
    let x := f.value (if y = 0 then a else a % 2 ^ 16)
    let z := f.value (if y = 0 then b else b % 2 ^ 16)
    match c with
    | 0 => x.eq z
    | 1 => !x.eq z
    | 2 => x.lt z
    | 3 => x.lt z || x.eq z
    | 4 => z.lt x
    | _ => z.lt x || x.eq z

/-- A p register from truths by lane. -/
def maskOf (bs : List Bool) : BitVec 1024 := BitVec.ofNat 1024 (packBits 1 (bs.map (fun b => if b then 1 else 0)))

/-- VCMP (08 R239). -/
def execVcmp (h : Tl) (c : BitVec 4) (a b : BitVec 5) (p : BitVec 6) (y : BitVec 2) (s : State) : Result :=
  runCa h (do
    let x ← src a
    let z ← src b
    modCx (fun cx => cx.wp p (maskOf (List.zipWith (laneCond c.toNat y) (lanesOf x) (lanesOf z))))) s

/-- VSEL (08 R240). -/
def execVsel (h : Tl) (d : BitVec 4) (a b : BitVec 5) (p : BitVec 6) (_y : BitVec 2) (s : State) : Result :=
  runCa h (do
    let o ← opsCx
    let x ← src a
    let z ← src b
    modCx (fun c => c.wv d (mergeLanes (o.rp p) x z))) s

/-- VMOV (08 R240). -/
def execVmov (h : Tl) (d : BitVec 4) (a : BitVec 5) (g : BitVec 6) (_y : BitVec 2) (s : State) : Result :=
  runCv h g 1 (do let x ← src a; setV d g x) s

/-- VMOVI (08 R240). -/
def execVmovi (h : Tl) (d : BitVec 4) (g : BitVec 6) (_y : BitVec 2) (imm : BitVec 32) (s : State) : Result :=
  runCv h g 2 (setV d g (imageOf (List.replicate 1024 imm.toNat))) s

/-- A conversion of VCVT (08 R241) on a lane and the lane it goes to. -/
def cvtLane (c : Nat) (a d : Nat) : Nat :=
  let half (hi : Bool) (v : Nat) : Nat := if hi then d % 2 ^ 16 + 2 ^ 16 * v else d / 2 ^ 16 * 2 ^ 16 + v
  let cl (lo hi : Int) : Nat := uI (clampInt (sI a) lo hi)
  match c with
  | 0 => uI (toInt (fp32.value a) (-2 ^ 31) (2 ^ 31 - 1) false)
  | 1 => uI (toInt (fp32.value a) (-2 ^ 31) (2 ^ 31 - 1) true)
  | 2 => convIF fp32 (sI a)
  | 3 => half false (convFF fp32 bf16 a)
  | 4 => half true (convFF fp32 bf16 a)
  | 5 => half false (convFF fp32 fp16 a)
  | 6 => half true (convFF fp32 fp16 a)
  | 7 => convFF bf16 fp32 (a % 2 ^ 16)
  | 8 => convFF bf16 fp32 (a / 2 ^ 16)
  | 9 => convFF fp16 fp32 (a % 2 ^ 16)
  | 10 => convFF fp16 fp32 (a / 2 ^ 16)
  | 11 => cl (-128) 127
  | 12 => cl 0 255
  | 13 => cl (-8) 7
  | _ => cl 0 15

/-- VCVT (08 R241). -/
def execVcvt (h : Tl) (d : BitVec 4) (a : BitVec 5) (c : BitVec 5) (g : BitVec 6) (s : State) : Result :=
  runCv h g 1 (do
    let o ← opsCx
    let x ← src a
    setV d g (lanes3 (fun a _ d => cvtLane c.toNat a d) x 0 (o.v.get d))) s

/-! ## Axes (08 R242, R243) -/

/-- The 16 rows of 64 lanes of an image. -/
def rowsOf (img : Image) : List (List Nat) := chunksOf 64 16 (lanesOf img)
/-- An image from the lane at each row and column. -/
def imageBy (f : Nat → Nat → Nat) : Image := imageOf ((List.range 1024).map (fun j => f (j / 64) (j % 64)))
/-- Lane (r, c) of an image. -/
def laneAt (img : Image) (r c : Nat) : Nat := img.toNat / 2 ^ (32 * (64 * r + c)) % 2 ^ 32

/-- An axis move: which lane goes to (r, c) for amount `n`. -/
def axisMove (d : BitVec 4) (a : BitVec 5) (n : BitVec 4) (g : BitVec 6) (from0 : Nat → Nat → Nat → Nat × Nat) : M Unit := do
  let o ← opsCx
  let x ← src a
  let amount := (o.ra n).toNat
  setV d g (imageBy (fun r c => let p := from0 amount r c; laneAt x p.1 p.2))

def execVrotr (h : Tl) (d : BitVec 4) (a : BitVec 5) (n : BitVec 4) (g : BitVec 6) (_y : BitVec 2) (s : State) : Result :=
  runCv h g 1 (axisMove d a n g (fun n r c => (r, (c + 64 - n % 64) % 64))) s
def execVrotc (h : Tl) (d : BitVec 4) (a : BitVec 5) (n : BitVec 4) (g : BitVec 6) (_y : BitVec 2) (s : State) : Result :=
  runCv h g 1 (axisMove d a n g (fun n r c => ((r + 16 - n % 16) % 16, c))) s
def execVbcr (h : Tl) (d : BitVec 4) (a : BitVec 5) (n : BitVec 4) (g : BitVec 6) (_y : BitVec 2) (s : State) : Result :=
  runCv h g 1 (axisMove d a n g (fun n r _ => (r, n % 64))) s
def execVbcc (h : Tl) (d : BitVec 4) (a : BitVec 5) (n : BitVec 4) (g : BitVec 6) (_y : BitVec 2) (s : State) : Result :=
  runCv h g 1 (axisMove d a n g (fun n _ c => (n % 16, c))) s

/-- The operator of a reduction (0 sum, 1 max, 2 min) on lanes. -/
def redOp (o : Nat) (y : BitVec 2) (a b : Nat) : Nat :=
  match o with
  | 0 => perElem y (fun f a b _ => f.add a b) (fun a b _ => a + b) a b 0
  | 1 => perElem y (fun f a b _ => f.max a b) (fun a b _ => if sI a ≤ sI b then b else a) a b 0
  | _ => perElem y (fun f a b _ => f.min a b) (fun a b _ => if sI a ≤ sI b then a else b) a b 0

/-- Its identity in a lane. -/
def redId (o : Nat) (y : BitVec 2) : Nat :=
  match o with
  | 0 => 0
  | 1 => perElem y (fun f _ _ _ => f.infBits + 2 ^ (f.width - 1)) (fun _ _ _ => 2 ^ 31) 0 0 0
  | _ => perElem y (fun f _ _ _ => f.infBits) (fun _ _ _ => 2 ^ 31 - 1) 0 0 0

/-- The lanes of an operand, the identity where the predicate is 0. -/
def masked (mask : BitVec 1024) (idn : Nat) (img : Image) : Image :=
  imageOf ((lanesOf img).zipIdx.map (fun p => if mask.getLsbD p.2 then p.1 else idn))

/-- Columns of an image. -/
def colsOf (rows : List (List Nat)) : List (List Nat) := (List.range 64).map (fun c => rows.map (fun r => (r[c]?).getD 0))

/-- Every prefix combined pairwise. -/
def scanOf (op : Nat → Nat → Nat) (l : List Nat) : List Nat := (List.range l.length).map (fun i => pairSum op 0 (l.take (i + 1)))

/-- Combine lanes along an axis. `f` maps a line of lanes to the line written. -/
def axisReduce (d : BitVec 4) (a : BitVec 5) (o : BitVec 5) (g : BitVec 6) (y : BitVec 2) (rowAxis : Bool)
    (f : List Nat → List Nat) : M Unit := do
  let c ← opsCx
  let x ← src a
  let rows := rowsOf (masked (c.rp g) (redId o.toNat y) x)
  let out := if rowAxis then (rows.map f).flatten
    else
      let cs := (colsOf rows).map f
      (List.range 16).flatMap (fun r => cs.map (fun l => (l[r]?).getD 0))
  modCx (fun cx => cx.wv d (imageOf out))

/-- Every place of a line takes its reduction. -/
def spread (op : Nat → Nat → Nat) (l : List Nat) : List Nat := List.replicate l.length (pairSum op 0 l)

def execVredr (h : Tl) (d : BitVec 4) (a o : BitVec 5) (g : BitVec 6) (y : BitVec 2) (s : State) : Result :=
  runCv h g 1 (axisReduce d a o g y true (spread (redOp o.toNat y))) s
def execVredc (h : Tl) (d : BitVec 4) (a o : BitVec 5) (g : BitVec 6) (y : BitVec 2) (s : State) : Result :=
  runCv h g 1 (axisReduce d a o g y false (spread (redOp o.toNat y))) s
def execVscanr (h : Tl) (d : BitVec 4) (a o : BitVec 5) (g : BitVec 6) (y : BitVec 2) (s : State) : Result :=
  runCv h g 1 (axisReduce d a o g y true (scanOf (redOp o.toNat y))) s
def execVscanc (h : Tl) (d : BitVec 4) (a o : BitVec 5) (g : BitVec 6) (y : BitVec 2) (s : State) : Result :=
  runCv h g 1 (axisReduce d a o g y false (scanOf (redOp o.toNat y))) s

/-! ## Special functions (08 R235, R245) -/

/-- Start a special function: its write is pending, and lands as the bundle six later retires. -/
def special (d : BitVec 4) (a : BitVec 5) (g : BitVec 6) (y : BitVec 2) (f : Fmt → Nat → Nat) : M Unit := do
  let o ← opsCx
  let x ← src a
  let value := lanes1 (fun l => perElem y (fun fm a _ _ => f fm a) (fun a _ _ => a) l 0 0) x
  modCx (fun c => { c with sfu := c.sfu ++ [⟨d, o.rp g, value, 6⟩] })

def execVexp2 (h : Tl) (d : BitVec 4) (a : BitVec 5) (g : BitVec 6) (y : BitVec 2) (s : State) : Result :=
  runCv h g 1 (special d a g y Fmt.exp2) s
def execVlog2 (h : Tl) (d : BitVec 4) (a : BitVec 5) (g : BitVec 6) (y : BitVec 2) (s : State) : Result :=
  runCv h g 1 (special d a g y Fmt.log2) s
def execVrcp (h : Tl) (d : BitVec 4) (a : BitVec 5) (g : BitVec 6) (y : BitVec 2) (s : State) : Result :=
  runCv h g 1 (special d a g y Fmt.rcp) s
def execVrsq (h : Tl) (d : BitVec 4) (a : BitVec 5) (g : BitVec 6) (y : BitVec 2) (s : State) : Result :=
  runCv h g 1 (special d a g y Fmt.rsq) s
def execVtanh (h : Tl) (d : BitVec 4) (a : BitVec 5) (g : BitVec 6) (y : BitVec 2) (s : State) : Result :=
  runCv h g 1 (special d a g y Fmt.tanh) s

/-! ## QPUSH (08 R246) -/

/-- QPUSH: an image with its false lanes zero, to sq0 to sq3 or, its row 0, to iq. -/
def execQpush (h : Tl) (n : BitVec 4) (a : BitVec 5) (g : BitVec 6) (s : State) : Result :=
  runCv h g 1 (do
    let o ← opsCx
    let x ← src a
    let img := masked (o.rp g) 0 x
    if n.toNat < 4 then
      if 2 ≤ (o.sqAt n.toNat).length then waitFor (.sqRoom n.toNat)
      else modCx (fun c => c.setSq n.toNat (c.sqAt n.toNat ++ [img]))
    else if 4 ≤ o.iq.length then waitFor .iqRoom
    else modCx (fun c => { c with iq := c.iq ++ [img.setWidth 2048] })) s

end Sys2Proof.Machine
end

