-- ==== Sys2Proof/Machine/CScalar.lean ====
section
/-! DEFINITION. Predicates, transpose tiles, address registers and MFS of C (08 R247 to R253). -/
namespace Sys2Proof.Machine

/-! ## Predicate registers (08 R247, R248) -/

/-- p[d] from p[a] and p[b]. -/
def pred2 (d a b : BitVec 6) (f : BitVec 1024 → BitVec 1024 → BitVec 1024) : M Unit := do
  let o ← opsCx
  modCx (fun c => c.wp d (f (o.rp a) (o.rp b)))

def execPand (h : Tl) (d a b : BitVec 6) (s : State) : Result := runCa h (pred2 d a b (· &&& ·)) s
def execPor (h : Tl) (d a b : BitVec 6) (s : State) : Result := runCa h (pred2 d a b (· ||| ·)) s
def execPxor (h : Tl) (d a b : BitVec 6) (s : State) : Result := runCa h (pred2 d a b (· ^^^ ·)) s
def execPnot (h : Tl) (d a : BitVec 6) (s : State) : Result := runCa h (pred2 d a 0 (fun x _ => ~~~x)) s
def execPmov (h : Tl) (d a : BitVec 6) (s : State) : Result := runCa h (pred2 d a 0 (fun x _ => x)) s

/-- PANY: some lane has both bits. -/
def execPany (h : Tl) (d : BitVec 3) (a b : BitVec 6) (s : State) : Result :=
  runCa h (do let o ← opsCx; setQ d (o.rp a &&& o.rp b != 0)) s
/-- PALL: every lane of p[b] has its bit of p[a]. -/
def execPall (h : Tl) (d : BitVec 3) (a b : BitVec 6) (s : State) : Result :=
  runCa h (do let o ← opsCx; setQ d (o.rp b &&& ~~~(o.rp a) == 0)) s

/-- How many of the low `n` bits are set. -/
def countBits : Nat → Nat → Nat
  | 0, _ => 0
  | n + 1, v => v % 2 + countBits n (v / 2)

/-- PCNT. -/
def execPcnt (h : Tl) (d : BitVec 4) (a b : BitVec 6) (s : State) : Result :=
  runCa h (do
    let o ← opsCx
    modCx (fun c => c.wa d (BitVec.ofNat 64 (countBits 1024 (o.rp a &&& o.rp b).toNat)))) s

/-! ## Transpose tiles (08 R249, R250) -/

/-- Conv of a tile element. -/
def tileConv (w : BitVec 2) (x : Nat) : Nat :=
  match w.toNat with
  | 0 => x
  | 1 => convFF fp32 bf16 x
  | 2 => convFF bf16 fp32 (x % 2 ^ 16)
  | _ => convIF fp32 (sI x)

/-- Element (i, k) of a tile. -/
def tileAt (t : BitVec 131072) (i k : Nat) : Nat := t.toNat / 2 ^ (32 * (64 * i + k)) % 2 ^ 32

/-- TWR. -/
def execTwr (h : Hd) (t : BitVec 2) (v : BitVec 4) (c : BitVec 6) (w : BitVec 2) (s : State) : Result :=
  runCq h 1 (do
    let o ← opsCx
    let img := o.v.get v
    let old := o.t.get t
    let row (i : Nat) : Nat :=
      let j := (i + 64 - c.toNat) % 64
      if j < 16 then packBits 32 ((List.range 64).map (fun k => tileConv w (laneAt img j k)))
      else old.toNat / 2 ^ (2048 * i) % 2 ^ 2048
    modCx (fun cx => { cx with t := cx.t.set t (BitVec.ofNat 131072 (packBits 2048 ((List.range 64).map row))) })) s

/-- TRR. -/
def execTrr (h : Hd) (t : BitVec 2) (v : BitVec 4) (c : BitVec 6) (w : BitVec 2) (s : State) : Result :=
  runCq h 1 (do
    let o ← opsCx
    modCx (fun cx => cx.wv v (imageBy (fun i k => tileConv w (tileAt (o.t.get t) ((c.toNat + i) % 64) k))))) s

/-- TRC. -/
def execTrc (h : Hd) (t : BitVec 2) (v : BitVec 4) (c : BitVec 6) (w : BitVec 2) (s : State) : Result :=
  runCq h 1 (do
    let o ← opsCx
    modCx (fun cx => cx.wv v (imageBy (fun i k => tileConv w (tileAt (o.t.get t) k ((c.toNat + i) % 64)))))) s

/-- TCLR. -/
def execTclr (h : Hd) (t : BitVec 2) (s : State) : Result :=
  runCq h 1 (modCx (fun cx => { cx with t := cx.t.set t 0 })) s

/-! ## Address registers (08 R251 to R253) -/

/-- STEP, LEN, BASE and MODE of a modifier. -/
def modStep (m : DWord) : Int := signExt m.toNat 16
def modLen (m : DWord) : Nat := bits m.toNat 39 16
def modBase (m : DWord) : Nat := bits m.toNat 59 40
def modMode (m : DWord) : Nat := bits m.toNat 63 62

/-- BitRev(x, k). -/
def bitRev : Nat → Nat → Nat
  | 0, _ => 0
  | k + 1, x => x % 2 * 2 ^ k + bitRev k (x / 2)

/-- Step(x, m) (08 R251). -/
def stepIndex (x m : DWord) : DWord :=
  let n : Int := x.toNat
  let l : Int := modLen m
  let st := modStep m
  match modMode m with
  | 0 => dw (n + st)
  | 1 => dw (n - n % l + (n + st) % l)
  | 2 =>
    let k := Nat.log2 (modLen m)
    dw (n - n % l + bitRev k (((bitRev k (n % l).toNat : Int) + st) % l).toNat)
  | _ => dw (modBase m + (n - modBase m + st) % l)

/-- Index(x, m). -/
def indexOf (x m : DWord) : DWord :=
  let i : Nat := if modLen m = 0 then x.toNat else x.toNat % modLen m
  dw (modBase m + i * modStep m)

/-- A power of two from 1 up. -/
def isPow2 (n : Nat) : Bool := n != 0 && 2 ^ Nat.log2 n == n

/-- What AMODSET accepts (08 R252). -/
def modOk (m : DWord) : Bool :=
  bits m.toNat 61 60 == 0 && (!(modMode m == 1 || modMode m == 2) || isPow2 (modLen m)) && (modMode m != 3 || modLen m != 0)

def execAadd (h : Hd) (d a m : BitVec 4) (s : State) : Result :=
  runCq h 1 (do let o ← opsCx; modCx (fun c => c.wa d (o.ra a + o.ra m))) s
def execAmov (h : Hd) (d a : BitVec 4) (s : State) : Result :=
  runCq h 1 (do let o ← opsCx; modCx (fun c => c.wa d (o.ra a))) s
/-- APOST: the stepped value remains where a[ad] is a[aa]. -/
def execApost (h : Hd) (d a m : BitVec 4) (s : State) : Result :=
  runCq h 1 (do let o ← opsCx; modCx (fun c => (c.wa d (o.ra a)).wa a (stepIndex (o.ra a) (o.m.get m)))) s
def execAmodset (h : Hd) (a m : BitVec 4) (s : State) : Result :=
  runCq h 1 (do
    let o ← opsCx
    if modOk (o.ra a) then modCx (fun c => { c with m := c.m.set m (o.ra a) }) else fault 0x011) s
def execAidx (h : Hd) (d a m : BitVec 4) (s : State) : Result :=
  runCq h 1 (do let o ← opsCx; modCx (fun c => c.wa d (indexOf (o.ra a) (o.m.get m)))) s
def execAaddi (h : Tl) (d a : BitVec 4) (i : BitVec 14) (s : State) : Result :=
  runCa h (do let o ← opsCx; modCx (fun c => c.wa d (o.ra a + i.signExtend 64))) s
/-- MFS of C: the value before the bundle (02 R52). -/
def execAMfs (h : Tl) (d : BitVec 4) (i : BitVec 9) (s : State) : Result :=
  runCa h (do
    let o ← opsCx
    let s ← get
    modCx (fun c => c.wa d (sysRead { s with cx := { o with pbase := s.opBase } } i.toNat))) s

end Sys2Proof.Machine
end

