-- ==== Sys2Proof/Machine/Copy.lean ====
section
/-! DEFINITION. The copy engine (12): CPY, CPYC, CPYWAIT, and what its commands do. -/
namespace Sys2Proof.Machine

/-! ## Deferred copy faults (12 R350) -/

/-- The copy fault raised next: the lowest ticket. -/
def nextCopyFault (fs : List (Nat × Trap)) : Option (Nat × Trap) :=
  fs.foldl (fun (b : Option (Nat × Trap)) f => match b with
    | none => some f
    | some e => if f.1 < e.1 then some f else b) none

/-- A copy fault as its frame tells it (14 R384): the byte offset and the ticket. -/
def copyTrap (f : Nat × Trap) : Trap := { f.2 with deferred := true, srce := some 5, lkind := 4, aux0 := f.1 }

/-- K raises a deferred copy fault. -/
def raiseCopy : M Unit := do
  let s ← get
  match nextCopyFault s.cx.copy.faults with
  | none => pure ()
  | some f => do
    modCx (fun c => { c with copy := { c.copy with faults := c.copy.faults.erase f } })
    throw (.trap (copyTrap f))

/-- K of a halted context raises it where it stands. -/
def raiseCopyAt (c : CtxId) (s : State) : State :=
  let back := s.cx.id
  let s1 := (s.focus c).recallHalt .k
  match nextCopyFault s1.cx.copy.faults with
  | none => s
  | some f =>
    let s2 := { s1 with cx := { s1.cx with copy := { s1.cx.copy with faults := s1.cx.copy.faults.erase f }
                                           seqK := { s1.cx.seqK with halted := false } } }
    (s2.takeFault (copyTrap f) 3 (instrAt s1.cx .k (wordIx s1.cx.seqK.pc))).focus back

/-- K of the context has halted, and a deferred copy fault is raised at once. -/
def State.copyDue (s : State) (c : Ctx) : Bool :=
  c.status == .running && s.isActive c && !c.debugStop && c.seqK.halted && !c.copy.faults.isEmpty

/-! ## Issue (12 R342, R343, R345, R348) -/

/-- BUF and OFF of a buffer specification, LEN and BOUND of a length register. -/
def specBuf (v : DWord) : BitVec 6 := v.setWidth 6
def specOff (v : DWord) : Nat := bits v.toNat 63 32
def lenOf (v : DWord) : Nat := bits v.toNat 31 0
def boundField (v : DWord) : Nat := bits v.toNat 63 32

/-- Two ranges of bits [55:0] meet; a range that passes the top goes on at 0. -/
def rangesMeet (a b : DWord) (n : Nat) : Bool :=
  decide ((a - b).toNat % 2 ^ 56 < n) || decide ((b - a).toNat % 2 ^ 56 < n)

/-- Row 2 of 12 R348. -/
def copyFormOk (chained sbuf dbuf : Bool) (dst src : DWord) (n : Nat) : Bool :=
  let spec (b : Bool) (v : DWord) : Bool := !b || bits v.toNat 31 6 == 0
  decide (n ≤ 2 ^ 30) && spec sbuf src && spec dbuf dst && (!chained || n % 4 == 0) &&
    (sbuf || dbuf || !rangesMeet src dst n)

/-- The named buffers with the access and the operand. -/
def copySides (sbuf dbuf : Bool) (dst src : DWord) : List (DWord × Nat) :=
  (if sbuf then [(src, 1)] else []) ++ (if dbuf then [(dst, 0)] else [])

/-- Rows 4 to 6 of 12 R348. -/
def copyBuffersOk (sides : List (DWord × Nat)) (n : Nat) : M Unit := do
  let s ← get
  let c := s.cx
  let agent (v : DWord) (acc : Nat) : Nat := if acc = 1 then (c.buf (specBuf v)).cons.toNat else (c.buf (specBuf v)).prod.toNat
  eachM sides (fun p => if (c.buf (specBuf p.1)).declared then pure () else throw (.trap (bufTrap 0x111 c (specBuf p.1) p.2)))
  eachM sides (fun p => if agent p.1 p.2 = 2 then pure () else throw (.trap (bufTrap 0x110 c (specBuf p.1) p.2)))
  eachM sides (fun p => if specOff p.1 + n ≤ (c.buf (specBuf p.1)).len then pure ()
    else throw (.trap (bufTrap 0x112 c (specBuf p.1) p.2)))

/-- Commands that a queue holds (12 R338). -/
def copyLimit : Nat := 32

/-- The queue takes a command. -/
def queueCopy (f : DWord → CopyCmd) : M Unit := do
  let s ← get
  waitUnless (decide (s.cx.copy.queue.length < copyLimit)) .copyRoom
  modCx (fun c => { c with copy := { c.copy with iseq := c.copy.iseq + 1, queue := c.copy.queue ++ [f (c.copy.iseq + 1)] } })

/-- CPY (12 R343). DESIGN CHOICE (log 58): a CPY or a CPYC that waits for room is issued again each time it looks, so that it raises a
deferred fault recorded meanwhile (R350 says of CPYWAIT alone that it does so as it waits). -/
def execCpy (h : Hq) (d a b : BitVec 5) (p c st : BitVec 1) (s : State) : Result :=
  runK h 1 (do
    replayable
    raiseCopy
    let s ← get
    let dst := s.cx.rx d
    let src := s.cx.rx a
    let n := lenOf (s.cx.rx b)
    require (p == 0 || c == 1 || st == 1) 0x013
    require (copyFormOk false (st == 1) (c == 1) dst src n) 0x280
    copyBuffersOk (copySides (st == 1) (c == 1) dst src) n
    queueCopy (fun t => { ticket := t, words := encode (.cpy h d a b p c st), chained := false, first := false, last := false
                          scope := 0, expect := 0, sbuf := st == 1
                          dbuf := c == 1, done := p == 1, dst := dst, src := src, len := n, bound := boundField (s.cx.rx b) })) s

/-- CPYC (12 R345). -/
def execCpyc (h : Hq) (d a b : BitVec 5) (first last : BitVec 1) (c : BitVec 2) (imm : BitVec 32) (s : State) : Result :=
  runK h 2 (do
    replayable
    raiseCopy
    let s ← get
    let dst := s.cx.rx d
    let src := s.cx.rx a
    let n := lenOf (s.cx.rx b)
    require (last == 1 || (imm == 0 && c == 0)) 0x013
    require (copyFormOk true false false dst src n) 0x280
    require (s.cx.copy.isOpen != (first == 1)) 0x282
    queueCopy (fun t => { ticket := t, words := encode (.cpyc h d a b first last c imm), chained := true
                          first := first == 1, last := last == 1, scope := c.toNat, expect := imm
                          sbuf := false, dbuf := false, done := false, dst := dst, src := src, len := n,
                          bound := boundField (s.cx.rx b) })
    modCx (fun x => { x with copy := { x.copy with isOpen := last != 1 } })) s

/-- CPYWAIT (12 R347) until a condition on the queue. Its acquire at .core drops nothing (04 R121). -/
def copyWait (d : BitVec 5) (done : CopyState → Bool) (ticket : CopyState → Nat) (value : CopyState → DWord) : M Unit := do
  replayable
  raiseCopy
  let s ← get
  waitUnless (done s.cx.copy) (.ticket (ticket s.cx.copy))
  acquire 0
  modCx (fun c => c.wx d (value c.copy))

def execCpywait (h : Hq) (d a : BitVec 5) (s : State) : Result :=
  runK h 1 (do
    let s ← get
    let t := s.cx.rx a
    copyWait d (fun q => decide ((q.cseq - t).toNat < 2 ^ 63)) (fun _ => t.toNat) (·.cseq)) s
def execCpywaitAll (h : Hq) (d : BitVec 5) (s : State) : Result :=
  runK h 1 (copyWait d (fun q => q.cseq == q.iseq) (·.iseq.toNat) (·.cseq)) s
def execCpywaitChain (h : Hq) (d : BitVec 5) (s : State) : Result :=
  runK h 1 (copyWait d (fun q => q.cseq == q.iseq) (·.iseq.toNat) (fun q => q.chain.setWidth 64)) s

/-! ## Starting a command (12 R341, R346, R349) -/

/-- The command of a ticket. -/
def CopyState.cmd? (q : CopyState) (t : DWord) : Option CopyCmd := q.queue.find? (fun k => k.ticket == t)
/-- Change it. -/
def CopyState.upd (q : CopyState) (t : DWord) (f : CopyCmd → CopyCmd) : CopyState :=
  { q with queue := q.queue.map (fun k => if k.ticket == t then f k else k) }

/-- Change the copy state of the context in focus. -/
def modCopy (f : CopyState → CopyState) : M Unit := modCx (fun c => { c with copy := f c.copy })

/-- Byte ranges of the frame that a command reads and writes: first, length, whether it writes. A command of length 0 has none. -/
def copyRanges (c : Ctx) (k : CopyCmd) : List (Nat × Nat × Bool) :=
  if k.len = 0 then [] else
  (if k.sbuf then [((c.buf (specBuf k.src)).base + specOff k.src, k.len, false)] else []) ++
  (if k.dbuf then [((c.buf (specBuf k.dst)).base + specOff k.dst, k.len, true)] else [])

/-- The range checker orders two commands (12 R341). -/
def copyConflict (c : Ctx) (k k' : CopyCmd) : Bool :=
  (copyRanges c k).any (fun r => (copyRanges c k').any (fun r' =>
    (r.2.2 || r'.2.2) && decide (r.1 < r'.1 + r'.2.1) && decide (r'.1 < r.1 + r.2.1)))

/-- The commands older than a ticket that have not completed. -/
def CopyState.older (q : CopyState) (t : DWord) : List CopyCmd := q.queue.takeWhile (fun k => k.ticket != t)

/-- The command may start. -/
def copyMayStart (c : Ctx) (k : CopyCmd) : Bool :=
  k.started.isNone && (c.copy.older k.ticket).all (fun o => !(k.chained && o.chained && !o.finished) && !copyConflict c k o)

/-- The copy queue of a context as an agent. -/
def Ctx.copyAgent (c : Ctx) : Agent := c.agent 5 0

/-- The part of a copy that starts at a byte offset: a piece of one page. -/
def copyPieces (va : DWord) (n : Nat) : List (DWord × Nat × Nat) :=
  (rangePages va n).map (fun p =>
    let off := (p - va).toNat
    (p, min (4096 - p.toNat % 4096) (n - off), off))

/-- Say of a fault which byte offset it names. -/
def atOffset (off : Nat) (t : Trap) : Trap := { t with lval := off }

/-- Translate the pieces of a memory operand, and check each. -/
def pieceSegs (check : Seg → M Unit) (ag : Agent) (k : Acc) (va : DWord) (n : Nat) : M (List (Seg × Nat)) :=
  collectM (copyPieces va n) (fun p => withTrap (atOffset p.2.2) (do
    let s ← get
    match translate s ag.asid k p.1 with
    | .error c => faultAt c p.1
    | .ok t => do
      passA k p.1 t
      check ⟨p.1, p.2.1, t⟩
      pure (⟨p.1, p.2.1, t⟩, p.2.2)))

/-- The pieces of a memory operand of a copy (row 2 of 12 R349, with 13 R358). -/
def copySegs (ag : Agent) (k : Acc) : DWord → Nat → M (List (Seg × Nat)) := pieceSegs (fun g => homeCheck k [g]) ag k

/-- The pieces in the order of their offsets, each with a test. -/
def eachPiece (ps : List (Seg × Nat)) (f : Seg → M Unit) : M Unit := eachM ps (fun p => withTrap (atOffset p.2) (f p.1))

/-- Merge the pieces of both ends by offset, the source's first. -/
def byOffset {α : Type} (a b : List (α × Nat)) : List (α × Nat) :=
  (a ++ b).foldr (fun x acc => acc.takeWhile (fun y => decide (y.2 < x.2)) ++ [x] ++ acc.dropWhile (fun y => decide (y.2 < x.2))) []

/-- A piece cut at the boundaries of tag granules (04 R130). -/
def granuleParts (p : Seg × Nat) : List (Seg × Nat) :=
  let va := p.1.va.toNat
  (granules va p.1.len).map (fun g =>
    let lo := max va (32 * g)
    let hi := min (va + p.1.len) (32 * g + 32)
    ({ p.1 with va := BitVec.ofNat 64 lo, len := hi - lo }, p.2 + (lo - va)))

/-- A fault of row 1 of 12 R349: a buffer that is no longer declared allows no access. -/
def copyState (t : Trap) : Trap := if t.cause = 0x111 then { t with cause := 0x110 } else t

/-- No copy writes the broadcast core's frame while its plan is open (11 R327), nor between its waves (R331; log 56). -/
def frameFree (k : CopyCmd) : M Unit := do
  let s ← get
  if k.dbuf && s.cx.onBcast && s.frameGuarded s.cx.id.launch then fault 0x207 else pure ()

/-- The execution checks of 12 R349. -/
def copyChecks (k : CopyCmd) : M Unit := do
  let s ← get
  let ag := s.cx.copyAgent
  withTrap copyState (do
    if k.sbuf then bufCheck s.cx.id (specBuf k.src) 2 1 else pure ()
    if k.dbuf then bufCheck s.cx.id (specBuf k.dst) 2 0 else pure ())
  frameFree k
  let src ← if k.sbuf then pure [] else copySegs ag .read k.src k.len
  let dst ← if k.dbuf then pure [] else copySegs ag .shadow k.dst k.len
  eachPiece (byOffset src dst) (fun g => if g.tr.spad then faultAt 0x091 g.va else pure ())
  eachPiece dst (fun g => if g.tr.spe ∧ g.tr.shst = 0 then faultAt 0x08D g.va else pure ())
  eachPiece dst (fun g => if k.chained ∧ !g.tr.spe then faultAt 0x08E g.va else pure ())
  let tagged (a : Acc) (ps : List (Seg × Nat)) := (ps.flatMap granuleParts).map (fun p => ((p.1, a), p.2))
  eachM (byOffset (tagged .read src) (tagged .shadow dst)) (fun p => withTrap (atOffset p.2) (tagCheck p.1.2 p.1.1))

/-- The first accesses of the named buffers (12 R343). -/
def copyOpens (k : CopyCmd) : M Unit := withTrap copyState (do
  let s ← get
  if k.sbuf then bufAccess s.cx.id (specBuf k.src) 2 1 else pure ()
  if k.dbuf then bufAccess s.cx.id (specBuf k.dst) 2 0 else pure ())

/-- A fault of a command in the record: the words of its cause go to AUX1 (14 R441). -/
def copyRecord (t : Trap) : Trap :=
  if t.cause = 0x089 ∨ (0x110 ≤ t.cause ∧ t.cause ≤ 0x112) then { t with aux1 := t.aux0 } else t

/-- A command has finished; finished commands complete in ticket order, and their faults are then deferred faults of the context
(12 R338, R339). The next command counts from 0. -/
def CopyState.finish (q : CopyState) (t : DWord) : CopyState :=
  let q := q.upd t (fun k => { k with finished := true })
  let done := q.queue.takeWhile (·.finished)
  match done.getLast? with
  | none => q
  | some k => { q with
      queue := q.queue.drop done.length, cseq := k.ticket, waited := 0, limit := none
      faults := q.faults ++ done.filterMap (fun k => k.fault.map (fun f => (k.ticket.toNat, f))) }

/-- A command fails: the fault is recorded, and the chain it belongs to fails with it (12 R346). -/
def CopyState.fail (q : CopyState) (k : CopyCmd) (t : Trap) : CopyState :=
  let q := q.upd k.ticket (fun k => { k with fault := some (copyRecord t) })
  ({ q with failed := if k.chained then !k.last else q.failed } : CopyState).finish k.ticket

/-- A command of a chain that has failed is discarded. -/
def CopyState.discard (q : CopyState) (k : CopyCmd) : CopyState :=
  ({ q with failed := !k.last } : CopyState).finish k.ticket

/-- Run an operation of the copy engine for a context; a fault is recorded against the command. -/
def runCopy (c : CtxId) (k : CopyCmd) (op : M Unit) (s : State) : State :=
  let back := s.cx.id
  match op (s.focus c) with
  | .ok _ s2 => s2.focus back
  | .error (.wait _) _ => s
  | .error (.trap t) s2 => ({ s2 with cx := { s2.cx with copy := s2.cx.copy.fail k t } } : State).focus back

/-- COPY_COMMAND_START (12 R341, R346, R349): a command that may start makes its checks. A failure moves no byte. -/
def execCopyCommandStart (c : CtxId) (ticket : DWord) (s : State) : Result :=
  .next (match s.ctx? c with
  | none => s
  | some x =>
    match x.copy.cmd? ticket with
    | none => s
    | some k =>
      if !x.placed || !copyMayStart x k then s
      else if k.chained && !k.first && x.copy.failed then s.updCtx c (fun x => { x with copy := x.copy.discard k })
      else
        runCopy c k (do
          if k.first then modCopy (fun q => { q with chain := 0xFFFFFFFF, failed := false, pages := [], thawed := false }) else pure ()
          if k.len = 0 then pure () else do copyChecks k; copyOpens k
          modCopy (fun q => q.upd ticket (fun k => { k with started := some s.clock }))) s)

/-! ## Finishing a command (12 R340, R343, R346) -/

/-- The first `n` bytes of the source. The engine is another agent to every watchpoint: what it reads and writes completes (04 R134). -/
def copyRead (k : CopyCmd) (n : Nat) : M (List Byte) := do
  let s ← get
  if k.sbuf then pure (s.cx.spad.readN ((s.cx.buf (specBuf k.src)).base + specOff k.src) n)
  else do
    let ag := s.cx.copyAgent
    let segs ← copySegs ag .read k.src n
    let data ← collectM segs (fun p => do
      modify (noteHits ag .read p.1.va p.1.len)
      readSeg ag 0 p.1)
    pure data.flatten

/-- Write bytes of the destination in ascending order. A page that has been closed meanwhile faults its first write (12
R352). -/
def copyWrite (k : CopyCmd) (data : List Byte) : M Unit := do
  let s ← get
  frameFree k
  if k.dbuf then do
    let i := specBuf k.dst
    modCx (fun c => { c with spad := c.spad.writeN ((c.buf i).base + specOff k.dst) data })
    bufFill s.cx.id i (specOff k.dst + data.length)
  else do
    let ag := s.cx.copyAgent
    let segs ← copySegs ag .shadow k.dst data.length
    eachM segs (fun p => withTrap (atOffset p.2) (do
      if p.1.tr.spe ∧ p.1.tr.shst = 0 then faultAt 0x08D p.1.va else pure ()
      writeSeg ag 0 .shadow p.1 ((data.drop p.2).take p.1.len)
      modify (noteHits ag .shadow p.1.va p.1.len)
      if k.chained then modCopy (fun q => { q with pages := if q.pages.contains p.1.tr.entry then q.pages else q.pages ++ [p.1.tr.entry] })
      else pure ()))

/-- FP of a destination buffer covers the empty range of a command of LEN 0 (12 R343). -/
def copyEmpty (k : CopyCmd) : M Unit := do
  let s ← get
  if k.dbuf && (s.cx.buf (specBuf k.dst)).declared then bufFill s.cx.id (specBuf k.dst) (specOff k.dst) else pure ()

/-- The buffer sides complete (12 R343). -/
def copyDone (k : CopyCmd) : M Unit := withTrap copyState (do
  let s ← get
  if k.done then do
    if k.dbuf then bufAccess s.cx.id (specBuf k.dst) 2 2 else pure ()
    if k.sbuf then bufAccess s.cx.id (specBuf k.src) 2 3 else pure ()
  else pure ())

/-- The pages that a chain wrote before its launch was frozen, as far as they are WRITTEN still: an image does not name them (log 32). -/
def State.lostPages (s : State) : List Nat :=
  if s.cx.copy.thawed then
    (Config.freePages s.clock).filterMap (fun va => match translate s s.cx.asid.toNat .shadow va with
      | .ok t => if t.spe ∧ t.shst = 2 then some t.entry else none
      | .error _ => none)
  else []

/-- What a LAST command does (its scopes are .core to .sys): the compare, and the publication of every page that the chain wrote
(12 R346); an LDZ in delivery sees one version of a page (04 R129). -/
def chainEnd (k : CopyCmd) : M Unit := do
  let s ← get
  if !k.last then pure ()
  else if s.cx.copy.chain != k.expect then
    throw (.trap { cause := 0x281, aux1 := k.expect.toNat + s.cx.copy.chain.toNat * 2 ^ 32 })
  else do
    release (k.scope + 1)
    modify State.finishChunks
    let s ← get
    eachM (s.cx.copy.pages ++ s.lostPages) (fun e => modify (publishPage e))

/-- COPY_COMMAND_FINISH (12 R339, R340): a started command's writes, buffer transitions and chain actions. -/
def execCopyCommandFinish (c : CtxId) (ticket : DWord) (s : State) : Result :=
  .next (match s.ctx? c with
  | none => s
  | some x =>
    match x.copy.cmd? ticket with
    | none => s
    | some k =>
      if k.started.isNone || k.finished then s
      else
        runCopy c k (do
          let data ← if k.len = 0 then pure [] else copyRead k k.len
          if k.len = 0 then copyEmpty k else copyWrite k data
          modify settleWrites
          if k.chained then do
            modCopy (fun q => { q with chain := rwsOf q.chain data })
            chainEnd k
          else copyDone k
          modCopy (fun q => q.finish ticket)) s)

/-- The oldest command has counted past its bound (12 R349, 14 R391). -/
def CopyState.overrun (q : CopyState) : Bool := !q.queue.isEmpty && q.limit.any (fun l => decide (l < q.waited))

/-- Its cycles are counted: always in a launch that runs, and of one that has started while the launch is brought to rest (15 R402). -/
def State.copyCounts (s : State) (c : Ctx) : Bool :=
  s.counts c || (s.settling c && c.copy.queue.head?.any (fun k => k.started.isSome))

/-- COPY_BOUND_OVERRUN (12 R349): the oldest command has counted past its bound and stops. A prefix of its bytes, whose length the
spec leaves open (log 10), has been written, and none of one that has not started; FP of a destination buffer covers it. A command of a
failed chain is discarded. -/
def execCopyBoundOverrun (c : CtxId) (pre : Nat) (s : State) : Result :=
  .next (match s.ctx? c with
  | none => s
  | some x =>
    match x.copy.queue with
    | [] => s
    | k :: _ =>
      if !x.copy.overrun || decide (0 < k.len ∧ k.len ≤ pre) then s
      else if k.chained && !k.first && x.copy.failed then s.updCtx c (fun x => { x with copy := x.copy.discard k })
      else
        let pre := if k.started.isSome then pre else 0
        runCopy c k (do
          if k.started.isSome && decide (0 < k.len) && (k.dbuf || decide (0 < pre)) then do
            let data ← copyRead k pre
            copyWrite k data
            modify settleWrites
          else pure ()
          throw (.trap { cause := 0x310, va := if k.dbuf then 0 else k.dst + BitVec.ofNat 64 pre, lval := pre })) s)

end Sys2Proof.Machine
end

