-- ==== Sys2Proof/Machine/Frames.lean ====
section
/-! DEFINITION. The fault frame as 256 bytes (14 R383), its route (R380), and the pending deferred faults of a context. -/
namespace Sys2Proof.Machine

/-- Values laid side by side from a bit up, `w` bits each. -/
def lay (lo w : Nat) : List Nat → Nat
  | [] => 0
  | v :: vs => v % 2 ^ w * 2 ^ lo + lay (lo + w) w vs

/-- The 2,048 bits of a frame. -/
def Frame.bits (f : Frame) : Nat :=
  f.cause % 2 ^ 10 + f.tcode.toNat * 2 ^ 16 + f.srce % 2 ^ 4 * 2 ^ 28 + (if f.deferred then 2 ^ 34 else 0) +
  (if f.plan then 2 ^ 35 else 0) + f.lcore % 2 ^ 7 * 2 ^ 40 + f.node % 2 ^ 16 * 2 ^ 48 + f.launchNo % 2 ^ 64 * 2 ^ 64 +
  lay 128 64 (f.pcs.map BitVec.toNat) + f.va.toNat * 2 ^ 384 + f.instr % 2 ^ 64 * 2 ^ 448 + f.lval % 2 ^ 60 * 2 ^ 512 +
  f.lkind % 2 ^ 4 * 2 ^ 572 + f.aux0 % 2 ^ 64 * 2 ^ 576 + f.aux1 % 2 ^ 64 * 2 ^ 640 +
  lay 704 64 (f.ptgt.map BitVec.toNat) + lay 960 8 (f.pstate.map BitVec.toNat) + lay 1024 2 f.lq + lay 1032 2 f.sq +
  f.oq % 8 * 2 ^ 1040 + f.iq % 8 * 2 ^ 1043 + f.wsq % 64 * 2 ^ 1046 + f.epq % 8 * 2 ^ 1052 + f.cpq % 64 * 2 ^ 1055 +
  lay 1088 4 (f.tok.map BitVec.toNat) + lay 1152 2 (f.bst.map BitVec.toNat) + lay 1280 8 (f.sfu.map BitVec.toNat) +
  f.serial % 2 ^ 64 * 2 ^ 1344

/-- The 256 bytes of a frame. -/
def Frame.bytes (f : Frame) : List Byte := natBytes 256 f.bits

/-- The route of a cause (14 R380). -/
inductive Route where
  | handler
  | firmwareFirst
  | firmware
  | deviceFatal
  deriving DecidableEq, Repr

/-- 14 R380. -/
def routeOf (cause : Nat) : Route :=
  if cause = 0x081 ∨ cause = 0x08C then .firmwareFirst
  else if cause = 0x318 then .firmware
  else if 0x380 ≤ cause ∧ cause ≤ 0x385 then .deviceFatal
  else .handler

end Sys2Proof.Machine
end

