-- ==== Sys2Proof/Machine/Tasks.lean ====
section
/-! DEFINITION. Launches: the packet and its checks (05 R139 to R146, R149), acceptance, the completion record (R143), the
end of a launch, LAUNCH and SPAWN (R164, R165), and nodes becoming ready (R152). -/
namespace Sys2Proof.Machine

/-! ## The packet (05 R140) -/

/-- Row 3 of 05 R142 on the 1,024 bits of a packet. -/
def packetOk (s : State) (p : Nat) : Bool :=
  bits p 1023 322 == 0 && bits p 319 317 == 0 && bits p 303 303 == 0 &&
  decide (1 ≤ bits p 271 256) && decide (1 ≤ bits p 294 288) && decide (bits p 294 288 ≤ 64) &&
  decide (1 ≤ bits p 302 296) && decide (bits p 302 296 ≤ 64) &&
  bits p 191 128 % 64 == 0 && bits p 127 64 % 16 == 0 && bits p 63 0 % 64 == 0 &&
  bits p 191 188 == 0 && bits p 127 124 == 0 && bits p 63 60 == 0 &&
  (decide (bits p 287 272 < bits p 271 256) || bits p 287 272 == 0xFFFF) && (!bit p 295 || s.bcw)

/-- The launch that a packet describes, before its graph is read. -/
def packetLaunch (num p : Nat) : Launch :=
  { num := num, packet := BitVec.ofNat 1024 p, det := bit p 321, abl := bit p 320, asid := BitVec.ofNat 13 (bits p 316 304), grant := bits p 302 296,
    bc := bit p 295, lcores := bits p 294 288, handler := bits p 287 272, deadline := bits p 255 192,
    crec := BitVec.ofNat 64 (bits p 191 128), gtab := BitVec.ofNat 64 (bits p 127 64), graph := BitVec.ofNat 64 (bits p 63 0) }

/-- NCOUNT. -/
def packetNodes (p : Nat) : Nat := bits p 271 256

/-! ## Node records (05 R144, R145) -/

def recField (r : BitVec 512) (hi lo : Nat) : Nat := bits r.toNat hi lo
def Node.lcoreField (n : Node) : Nat := recField n.record 399 393
def Node.isPlan (n : Node) : Bool := bit n.record.toNat 400
def Node.nops (n : Node) : Nat := recField n.record 392 388
/-- Addresses held as VA[55:6]. -/
def Node.ops (n : Node) : DWord := BitVec.ofNat 64 (recField n.record 387 338 * 64)
def Node.succList (n : Node) : DWord := BitVec.ofNat 64 (recField n.record 305 256 * 64)
def Node.args (n : Node) : DWord := BitVec.ofNat 64 (recField n.record 249 200 * 64)
def Node.npred (n : Node) : Nat := recField n.record 337 322
def Node.nsucc (n : Node) : Nat := recField n.record 321 306
/-- The entry line of a sequencer; 0 for none. -/
def Node.entry (n : Node) (q : SeqId) : Nat :=
  match q with
  | .l => recField n.record 49 0
  | .c => recField n.record 99 50
  | .s => recField n.record 149 100
  | .k => recField n.record 199 150
/-- The node has an entry line. -/
def Node.hasEntry (n : Node) : Bool := allSeqs.any (fun q => n.entry q != 0)

/-- The record breaks no row of 05 R145 that it can break alone. -/
def nodeOk (l : Launch) (n : Node) : Bool :=
  recField n.record 511 434 == 0 && !bit n.record.toNat 401 && recField n.record 255 250 == 0 &&
  (decide (n.lcoreField < l.lcores) || (n.lcoreField == 64 && l.bc) || n.lcoreField == 127) &&
  !(n.isPlan && n.lcoreField == 127) && decide (n.nsucc ≤ 4096) && decide (n.nops ≤ 16)

/-- How many entries of all successor lists name a node. -/
def predEntries (nodes : List Node) (i : Nat) : Nat := (nodes.map (fun n => (n.succ.filter (· == i)).length)).foldl (· + ·) 0

/-- The handler's record (05 R145). -/
def handlerOk (l : Launch) (nodes : List Node) : Bool :=
  match nodes[l.handler]? with
  | none => true
  | some n => n.npred == 0 && n.nsucc == 0 && !n.isPlan && n.lcoreField == 127 && predEntries nodes l.handler == 0

/-- Nodes removed by repeatedly taking away those without predecessors left: none remain when there is no cycle. -/
def removeRoots (nodes : List Node) : Nat → List Nat → List Nat
  | 0, left => left
  | fuel + 1, left =>
    removeRoots nodes fuel (left.filter (fun i =>
      left.any (fun j => match nodes[j]? with | some n => n.succ.contains i | none => false)))

/-- Row 6 of 05 R142 for the graph. -/
def graphOk (l : Launch) (nodes : List Node) : Bool :=
  nodes.all (nodeOk l) && nodes.all (fun n => n.succ.all (· < nodes.length)) &&
  (List.range nodes.length).all (fun i => match nodes[i]? with | some n => n.npred == predEntries nodes i | none => false) &&
  handlerOk l nodes && (removeRoots nodes nodes.length (List.range nodes.length)).isEmpty &&
  (List.range nodes.length).any (fun i => i != l.handler && (match nodes[i]? with | some n => n.npred == 0 | none => false))

/-- Row 6 of 05 R142 for the group table (R149). -/
def groupsOk (l : Launch) (tab : List Nat) : Bool :=
  tab.all (fun e => bits e 127 65 == 0 &&
    (List.range 65).all (fun n => !bit e n || decide (n < l.lcores) || (n == 64 && l.bc))) &&
  (List.range 65).all (fun n => decide ((tab.filter (fun e => bit e n)).length ≤ 4))

/-! ## Reads of the task-graph machine -/

/-- The task-graph machine as an agent of a launch: on FD0, it caches nothing (04 R121). -/
def machineAgent (launch asid : Nat) : Agent :=
  { ctx := ⟨launch, 127⟩, asid := asid, die := Config.fabricDie0, core := 0, srce := 7, pc := 0 }

/-- The cause of a trap. -/
def causeOf (st : Stop) : Nat :=
  match st with
  | .trap t => t.cause
  | .wait _ => 0

/-- Words of a little-endian list, `w` bytes each. -/
def wordsOf (w : Nat) : Nat → List Byte → List Nat
  | 0, _ => []
  | n + 1, bs => leNat (bs.take w) :: wordsOf w n (bs.drop w)

/-- Read the node records, their successor lists and the group table (row 5 of 05 R142). DESIGN CHOICE (log 51): all records are
read first, then the lists, then the group table, and the list of a record whose NSUCC row 6 will refuse is not read. -/
def readGraph (ag : Agent) (l : Launch) (ncount : Nat) : M (List Node × List Nat) := do
  let recs ← collectM (List.range ncount) (fun i => do
    let b ← readMem ag 0 (l.graph + BitVec.ofNat 64 (64 * i)) 64
    pure ({ record := BitVec.ofNat 512 (leNat b) } : Node))
  let nodes ← collectM recs (fun n => do
    if n.nsucc = 0 ∨ 4096 < n.nsucc then pure n
    else do
      let b ← collectM (List.range n.nsucc) (fun i => readMem ag 0 (n.succList + BitVec.ofNat 64 (2 * i)) 2)
      pure { n with succ := b.map leNat })
  let tab ← if l.gtab = 0 then pure [] else
    collectM (List.range 256) (fun g => do let b ← readMem ag 0 (l.gtab + BitVec.ofNat 64 (16 * g)) 16; pure (leNat b))
  pure (nodes, tab)

/-- Row 7 of 05 R142: the record's 64 bytes can be written; nothing is written. DESIGN CHOICE (log 51): a scratchpad page
fails it. -/
def crecCheck (ag : Agent) (l : Launch) : M Unit := fun s =>
  match (do
      let segs ← pages ag .write l.crec 64
      reachCheck ag segs
      homeCheck .write segs
      eachM segs (tagCheck .write) : M Unit) s with
  | .ok _ _ => .ok () s
  | .error e _ => .error e s

/-! ## The completion record (05 R143) -/

/-- Write bytes of the record under the launch's ASID; a write that fails is dropped. -/
def crecWrite (l : Launch) (off : Nat) (data : List Byte) (s : State) : State :=
  match (writeMem (machineAgent l.num l.asid.toNat) 0 (l.crec + BitVec.ofNat 64 off) data) s with
  | .ok _ s' => s'
  | .error _ s' => s'

/-- Bits [127:0] and up of a record, from byte 16: LATE at 17, FIRSTLATE at 19, DISCARD at 21, STATUS at 23, CAUSE at 24. -/
def crecLate (l : Launch) (s : State) : State :=
  crecWrite l 17 (natBytes 4 (min l.late 0xFFFF + l.firstLate * 2 ^ 16)) s

/-- The record at acceptance: STATUS 0, LAUNCHNO, every other field at its reset value. -/
def crecInit (l : Launch) (s : State) : State :=
  crecWrite l 0 (natBytes 64 (l.num % 2 ^ 64 * 2 ^ 64 + 0xFFFF * 2 ^ 152)) s

/-- The record at the end: every other field, then STATUS as a release at .sys, which every die's dirty bytes come before. -/
def crecFinal (l : Launch) (status cause : Nat) (s : State) : State :=
  let s := cleanLines (fun _ => true) s
  let s := crecWrite l 0 (natBytes 23 (s.clock % 2 ^ 64 + l.num % 2 ^ 64 * 2 ^ 64 + min l.late 0xFFFF * 2 ^ 136 +
    l.firstLate * 2 ^ 152 + min l.discard 0xFFFF * 2 ^ 168)) s
  let s := crecWrite l 24 (natBytes 40 (cause % 2 ^ 10)) s
  crecWrite l 23 [BitVec.ofNat 8 status] s

/-! ## The end of a launch -/

/-- The context in focus where its launch is gone. -/
def noCtx : Ctx := {}

/-- A launch is held no more: its contexts, pins, tile entries and plan go, and its frames are disposed of. -/
def State.forget (s : State) (n : Nat) : State :=
  let s := s.freeEngines n
  { s with
    launches := s.launches.filter (fun l => l.num != n)
    cx := if s.cx.id.launch = n then noCtx else s.cx
    others := s.others.filter (fun c => c.id.launch != n)
    pins := s.pins.filter (fun p => p.launch != n)
    slots := s.slots.filter (fun e => e.ctx.launch != n)
    hits := s.hits.filter (fun h => h.ctx.launch != n)
    frozenTiles := s.frozenTiles.filter (fun e => e.launch != n)
    firstWrites := s.firstWrites.filter (fun f => f.launch != n) }

/-- Nodes that the end of the launch discards: those that have neither completed nor been discarded. DEDUCED (log 48): the
handler is not counted, as it is not in the end of a launch (05 R139; 14 R389, R393). -/
def Launch.unfinished (l : Launch) : Nat :=
  ((List.range l.nodes.length).filter (fun i => i != l.handler && (match l.nodes[i]? with
    | some n => n.st != .done && n.st != .discarded
    | none => false))).length

/-- A launch ends (05 R139, R143), every node of it that is left discarded, and its completion record is final. DESIGN CHOICE (log 36):
the record's earlier writes set bits of the launch's dirty bitmap, and this one, of a launch held no more, sets none. -/
def State.endLaunch (s : State) (n status cause : Nat) : State :=
  match s.launch? n with
  | none => s
  | some l => crecFinal { l with discard := l.discard + l.unfinished } status cause (s.forget n)

/-! ## Nodes becoming ready (05 R152) -/

/-- One predecessor entry fewer for each entry of a successor list. -/
def releaseSuccs (nodes : List Node) (succ : List Nat) : List Node :=
  succ.foldl (fun ns i => modAt ns i (fun n => { n with remaining := n.remaining - 1 })) nodes

/-- Ready nodes enter the pool; a ready node with no entry line completes at once and releases its successors. -/
def settleNodes (handler : Nat) : Nat → List Node → List Node
  | 0, ns => ns
  | fuel + 1, ns =>
    match (List.range ns.length).find? (fun i => i != handler && (match ns[i]? with
        | some n => n.st == .blocked && n.remaining == 0
        | none => false)) with
    | none => ns
    | some i =>
      match ns[i]? with
      | none => ns
      | some n =>
        if n.hasEntry then settleNodes handler fuel (modAt ns i (fun n => { n with st := .pooled }))
        else settleNodes handler fuel (releaseSuccs (modAt ns i (fun n => { n with st := .done })) n.succ)

/-- Every node but the handler has completed or been discarded. -/
def Launch.finished (l : Launch) : Bool :=
  (List.range l.nodes.length).all (fun i => i == l.handler || (match l.nodes[i]? with
    | some n => n.st == .done || n.st == .discarded
    | none => true))

/-- The ready nodes of a launch settle; the launch ends when none is left (05 R139, R152, R156). -/
def State.settle (s : State) (n : Nat) : State :=
  let s := s.updLaunch n (fun l => { l with nodes := settleNodes l.handler (l.nodes.length + 1) l.nodes })
  match s.launch? n with
  | none => s
  | some l => if l.finished then s.endLaunch n (if l.discard = 0 then 1 else 2) 0 else s

/-! ## Acceptance (05 R142) -/

/-- The node deadline: DEADLINE - DLBACK, or 0 (05 R144). -/
def nodeDeadline (l : Launch) (n : Node) : Nat := l.deadline - recField n.record 433 402

/-- Rows 3 to 7 of 05 R142, on the bits of a packet: the launch under the next number, or the fault. `issuer` is the ASID of
a LAUNCH. -/
def checkPacket (p : Nat) (issuer : Option Nat) : M Launch := do
  let s ← get
  if !packetOk s p then fault 0x300
  else do
    let l := packetLaunch s.nextLaunch p
    let asid := l.asid.toNat
    if (look s.asids asid).isNone || (match issuer with | some a => a != asid | none => false) then fault 0x301
    else do
      let ag := machineAgent l.num asid
      let (nodes, tab) ← readGraph ag l (packetNodes p)
      if !graphOk l nodes || !groupsOk l tab then fault 0x302
      else do
        crecCheck ag l
        pure { l with
          dmap := Config.freeDmap l.num % (2 ^ 41 - 6144) * 128
          nodes := nodes.map (fun n => { n with remaining := n.npred, deadline := nodeDeadline l n, lcore := n.lcoreField })
          groups := (List.range tab.length).filterMap (fun g =>
            match tab[g]? with
            | some e => if e = 0 then none else some (g, BitVec.ofNat 65 e)
            | none => none) }

/-- A launch is held. -/
def State.hold (s : State) (l : Launch) : State := { s with launches := s.launches ++ [l], nextLaunch := s.nextLaunch + 1 }

/-- Rows 3 to 8 of 05 R142: the launch number, or the fault. DESIGN CHOICE (log 36): the bytes of the launch's dirty-granule bitmap
are as memory holds them; only THAW is said to clear them (15 R415). -/
def acceptPacket (p : Nat) (issuer : Option Nat) : M Nat := do
  let l ← checkPacket p issuer
  modify (fun s => s.hold l)
  modify (crecInit l)
  modify (fun s => s.settle l.num)
  pure l.num

/-- Launches that the machine holds at once (05 R139). -/
def launchLimit : Nat := 256

/-- LAUNCH (05 R164). -/
def execLaunch (h : Hq) (d a : BitVec 5) (s : State) : Result :=
  runK h 1 (do
    replayable
    let s ← get
    let va := s.cx.rx a
    release 3
    if launchLimit ≤ s.launches.length then waitFor .reply
    else if va.toNat % 128 ≠ 0 then faultAt 0x300 va
    else do
      let b ← readMem (machineAgent s.cx.id.launch s.cx.asid.toNat) 0 va 128
      let n ← acceptPacket (leNat b) (some s.cx.asid.toNat)
      modCx (fun c => c.wx d (BitVec.ofNat 64 n))) s

/-- SPAWN (05 R165): releases the successors of the running node once; ignored in the handler node. -/
def execSpawn (h : Hq) (s : State) : Result :=
  runK h 1 (do
    replayable
    release 3
    let s ← get
    match s.launch? s.cx.id.launch with
    | none => pure ()
    | some l =>
      match l.nodes[s.cx.node]? with
      | none => pure ()
      | some n =>
        if n.spawned || s.cx.id.lcore == Config.handlerLcore then pure ()
        else modify (fun s => (s.updLaunch l.num (fun l =>
          { l with nodes := releaseSuccs (modAt l.nodes s.cx.node (fun n => { n with spawned := true })) n.succ })).settle l.num)) s

end Sys2Proof.Machine
end

