-- ==== Sys2Proof/Machine/Tiles.lean ====
section
/-! DEFINITION. The tile table and collectives (13 R361 to R377): CTREADY, CTWAIT, and what an instance does. -/
namespace Sys2Proof.Machine

/-! ## Descriptors (13 R361) -/

def tField (d : BitVec 512) (hi lo : Nat) : Nat := bits d.toNat hi lo
def tSrc (d : BitVec 512) : DWord := BitVec.ofNat 64 (tField d 63 0)
def tDst (d : BitVec 512) : DWord := BitVec.ofNat 64 (tField d 127 64)
def tFlag (d : BitVec 512) : DWord := BitVec.ofNat 64 (tField d 191 128)
def tCrec (d : BitVec 512) : DWord := BitVec.ofNat 64 (tField d 255 192)
def tRing (d : BitVec 512) : DWord := BitVec.ofNat 64 (tField d 319 256)
def tLen (d : BitVec 512) : Nat := tField d 343 320
def tBound (d : BitVec 512) : Nat := tField d 375 344
def tInst (d : BitVec 512) : Nat := tField d 407 376
def tM (d : BitVec 512) : Nat := tField d 422 408
def tPosn (d : BitVec 512) : Nat := tField d 436 423
def tLeafb (d : BitVec 512) : Nat := tField d 460 437
def tLspan (d : BitVec 512) : Nat := tField d 465 461
def tNleaf (d : BitVec 512) : Nat := tField d 470 466
def tOp (d : BitVec 512) : Nat := tField d 473 471
def tMode (d : BitVec 512) : Bool := bit d.toNat 474
def tPub (d : BitVec 512) : Bool := bit d.toNat 475
def tPsc (d : BitVec 512) : Nat := tField d 477 476
/-- Bytes of an element. -/
def tSize (d : BitVec 512) : Nat := if tOp d = 1 then 2 else 4

/-- What a descriptor must keep of 13 R361 and R369, its ring list apart. -/
def tileFormOk (d : BitVec 512) : Bool :=
  tField d 511 478 == 0 && decide (tOp d ≤ 4) && decide (tNleaf d ≤ 24) && decide (tLspan d ≤ tNleaf d) &&
  tLeafb d % 2 ^ tLspan d == 0 && decide (tLeafb d + 2 ^ tLspan d ≤ 2 ^ tNleaf d) && decide (1 ≤ tM d) &&
  decide (tM d ≤ 16384) && decide (tPosn d < tM d) && decide (tLen d ≤ 4194304) && (tCrec d).toNat % 16 == 0 &&
  (tFlag d).toNat % 8 == 0 && (tSrc d).toNat % tSize d == 0 && (tDst d).toNat % tSize d == 0 &&
  (tM d != 1 || (tLeafb d == 0 && tLspan d == tNleaf d))

/-- What its ring list must keep. -/
def ringOk (dev : Nat) (d : BitVec 512) (ring : List Nat) : Bool :=
  ring.all (fun w => decide (w < 2 ^ 14)) && ring[tPosn d]? == some dev && ring.dedup.length == ring.length

/-! ## Deferred collective faults (13 R374) -/

/-- The deferred fault of the lowest tile index. -/
def nextTileFault (fs : List (Nat × Trap)) : Option (Nat × Trap) :=
  fs.foldl (fun (b : Option (Nat × Trap)) f => match b with
    | none => some f
    | some e => if f.1 < e.1 then some f else b) none

/-- A collective fault as K raises it. -/
def tileRaised (t : Trap) : Trap := { t with deferred := true, srce := some 6 }

/-- K raises a deferred collective fault. -/
def raiseTile : M Unit := do
  let s ← get
  match nextTileFault s.cx.tileFaults with
  | none => pure ()
  | some f => do
    modCx (fun c => { c with tileFaults := c.tileFaults.erase f })
    throw (.trap (tileRaised f.2))

/-- K of a halted context raises it where it stands. -/
def raiseTileAt (c : CtxId) (s : State) : State :=
  let back := s.cx.id
  let s1 := (s.focus c).recallHalt .k
  match nextTileFault s1.cx.tileFaults with
  | none => s
  | some f =>
    let s2 := { s1 with cx := { s1.cx with tileFaults := s1.cx.tileFaults.erase f, seqK := { s1.cx.seqK with halted := false } } }
    (s2.takeFault (tileRaised f.2) 3 (instrAt s1.cx .k (wordIx s1.cx.seqK.pc))).focus back

/-- K of the context has halted, and a deferred collective fault is raised at once. -/
def State.tileDue (s : State) (c : Ctx) : Bool :=
  c.status == .running && s.isActive c && !c.debugStop && c.seqK.halted && !c.tileFaults.isEmpty

/-! ## Entries -/

/-- The entry of an index; none where it is FREE. -/
def State.tile? (s : State) (t : Nat) : Option TileEntry := s.table.find? (fun e => e.index == t)
/-- Change it. -/
def State.updTile (s : State) (t : Nat) (f : TileEntry → TileEntry) : State :=
  { s with table := s.table.map (fun e => if e.index == t then f e else e) }
/-- Put an entry into the table, in the order of indices. -/
def putTile (l : List TileEntry) (e : TileEntry) : List TileEntry :=
  l.filter (fun x => decide (x.index < e.index)) ++ [e] ++ l.filter (fun x => decide (e.index < x.index))

/-- The ring sequencers as an agent of an entry: on FD0, they cache nothing. -/
def TileEntry.agent (e : TileEntry) : Agent :=
  { ctx := ⟨e.launch, 127⟩, asid := e.asid, die := Config.fabricDie0, core := 0, srce := 6, pc := 0, issuer? := e.core }

/-- The entry as a context fires it, on the core where it stands, or its flag. -/
def TileEntry.firedBy (e : TileEntry) (s : State) (by' : Option CtxId) : TileEntry :=
  { e with firer := by', core := (by'.bind s.ctx?).bind (fun c => if c.placed then some c.core else none) }

/-- Write 8 bytes of the completion record; a write that fails is dropped (13 R362). -/
def tileWrite (e : TileEntry) (off v : Nat) (s : State) : State :=
  match writeMem e.agent 0 (tCrec e.desc + BitVec.ofNat 64 off) (natBytes 8 v) s with
  | .ok _ s' => s'
  | .error _ s' => s'

/-- The record at completion or failure: SIG, then INST, CAUSE and STATUS. -/
def tileRecord (e : TileEntry) (status cause : Nat) (sig : DWord) (s : State) : State :=
  tileWrite e 8 (status + cause % 2 ^ 10 * 2 ^ 16 + tInst e.desc * 2 ^ 32) (tileWrite e 0 sig.toNat s)

/-- The fault of an entry as its frame tells it (14 R384): the tile index, INST and the device at which it arose. -/
def tileTrap (e : TileEntry) (dev : Nat) (t : Trap) : Trap :=
  { cause := t.cause, va := t.va, lkind := 6, lval := e.index, aux0 := tInst e.desc + dev * 2 ^ 32 }

/-- The node's command is over. -/
def endFiring (e : TileEntry) (t : Option Trap) (s : State) : State :=
  match e.firer with
  | none => s
  | some c => s.updCtx c (fun x => { x with
      tilesFired := x.tilesFired.erase e.index
      tileFaults := match t with | some t => x.tileFaults ++ [(e.index, t)] | none => x.tileFaults })

/-- The entry fails (13 R373, R374). -/
def failTile (e : TileEntry) (dev : Nat) (t : Trap) (s : State) : State :=
  let t := tileTrap e dev t
  let s := s.updTile e.index (fun e => { e with st := .failed, fault := some t })
  endFiring e (some t) (tileRecord e 2 t.cause 0 s)

/-! ## What a collective computes (13 R364 to R368) -/

/-- The operator of 13 R366. -/
def tileOp (op a b : Nat) : Nat :=
  match op with
  | 0 => fp32.add a b
  | 1 => bf16.add a b
  | 2 => fp32.max a b
  | _ => fp32.min a b

/-- A member: device, first leaf, LSPAN, contribution. -/
structure Member where
  dev : Nat
  leafb : Nat
  lspan : Nat
  data : List Nat
  deriving DecidableEq, Repr

/-- Reduce (13 R365) over 2^k leaves from `lo`, for element `j`. -/
def reduce (ms : List Member) (op j : Nat) : Nat → Nat → Nat
  | 0, lo => match ms.find? (fun m => m.leafb == lo && m.lspan == 0) with
    | some m => (m.data[j]?).getD 0
    | none => 0
  | k + 1, lo => match ms.find? (fun m => m.leafb == lo && m.lspan == k + 1) with
    | some m => (m.data[j]?).getD 0
    | none => tileOp op (reduce ms op j k lo) (reduce ms op j k (lo + 2 ^ k))

/-- The fold of arrival mode (13 R367). -/
def foldArrival (ms : List Member) (op j : Nat) : Nat :=
  match ms with
  | [] => 0
  | m :: rest => rest.foldl (fun a b => tileOp op a ((b.data[j]?).getD 0)) ((m.data[j]?).getD 0)

/-- The result (13 R364): members in the order of the instance. -/
def tileResult (d : BitVec 512) (ms : List Member) : List Nat :=
  (List.range (tLen d)).map (fun j =>
    if tOp d = 4 then (match ms.find? (fun m => m.leafb == 0) with | some m => (m.data[j]?).getD 0 | none => 0)
    else if tMode d then foldArrival ms (tOp d) j
    else reduce ms (tOp d) j (tNleaf d) 0)

/-- The order signature of a sequence of devices (13 R368). -/
def signature (devs : List Nat) : DWord :=
  devs.zipIdx.foldl (fun h p => h.rotateLeft 16 ^^^ BitVec.ofNat 64 (p.1 * 2 ^ 14 + p.2)) 1

/-! ## Pages of an instance (13 R369, R370, R373) -/

/-- The SRC of the entry is read: with OP 4, only by the member of leaf 0. -/
def readsSrc (d : BitVec 512) : Bool := tOp d != 4 || tLeafb d == 0

/-- Bytes of a tile. -/
def tBytes (d : BitVec 512) : Nat := tLen d * tSize d

/-- Row 1 of 13 R373 for one operand. -/
def tilePages (ag : Agent) (k : Acc) (va : DWord) (n : Nat) : M (List (Seg × Nat)) := do
  let ps ← pieceSegs (fun _ => pure ()) ag k va n
  let s ← get
  eachM ps (fun p => if p.1.tr.spad then faultAt 0x091 p.1.va else pure ())
  eachM ps (fun p => if p.1.tr.home ≠ s.dev then faultAt 0x290 p.1.va else pure ())
  pure ps

/-- The checks of 13 R373 when an entry is fired: the leaf entries of its DST pages. -/
def tileChecks (e : TileEntry) : M (List Nat) := do
  let d := e.desc
  let src ← if readsSrc d then tilePages e.agent .read (tSrc d) (tBytes d) else pure []
  let dst ← tilePages e.agent .shadow (tDst d) (tBytes d)
  eachM dst (fun p => shadowCheck true p.1)
  eachM src (fun p => tagCheck .read p.1)
  eachM dst (fun p => tagCheck .shadow p.1)
  let s ← get
  if tM d ≠ 1 ∧ e.ring.any (fun v => v != s.dev && !s.present.contains v) then fault 0x293 else pure ()
  pure (dst.map (fun p => p.1.tr.entry))

/-- The elements of SRC. -/
def readTile (e : TileEntry) : M (List Nat) := do
  if readsSrc e.desc then do
    let ps ← copySegs e.agent .read (tSrc e.desc) (tBytes e.desc)
    let b ← collectM ps (fun p => do
      modify (noteHits e.agent .read p.1.va p.1.len)
      readSeg e.agent 0 p.1)
    pure (wordsOf (tSize e.desc) (tLen e.desc) b.flatten)
  else pure []

/-- Write the result into the shadow backing of DST, and publish it where PUB is 1 (13 R370). -/
def writeResult (e : TileEntry) (xs : List Nat) : M Unit := do
  let data := xs.flatMap (natBytes (tSize e.desc))
  let ps ← copySegs e.agent .shadow (tDst e.desc) data.length
  eachM ps (fun p => shadowCheck true p.1)
  eachM ps (fun p => do
    writeSeg e.agent 0 .shadow p.1 ((data.drop p.2).take p.1.len)
    modify (noteHits e.agent .shadow p.1.va p.1.len))
  modify settleWrites
  if tPub e.desc then eachM ps (fun p => modify (publishPage p.1.tr.entry)) else pure ()

/-- The address in the first DST page that another agent published or reopened (13 R373 row 6). -/
def TileEntry.lostVa (e : TileEntry) : Option DWord :=
  ((e.pages.zip (copyPieces (tDst e.desc) (tBytes e.desc))).find? (fun p => e.lost.contains p.1)).map (·.2.1)

/-- The instance completes at this member: DST, then the record (13 R370, R362). -/
def completeTile (e : TileEntry) (xs : List Nat) (sig : DWord) (s : State) : State :=
  match e.lostVa with
  | some va => failTile e s.dev { cause := 0x08D, va := va } s
  | none =>
    match (if tLen e.desc = 0 then (pure () : M Unit) else writeResult e xs) s with
    | .error (.trap t) s' => failTile e s'.dev t (undone s s')
    | .error (.wait _) _ => s
    | .ok _ s' =>
      let s' := s'.updTile e.index (fun e => { e with st := .done, sig := sig })
      endFiring e none (tileRecord e 1 0 sig s')

/-- The entry is fired (13 R371, R373), by a context or by its flag. An instance of no element or of one member completes at
once (R369). -/
def fireTile (t : Nat) (by' : Option CtxId) (s : State) : State :=
  match s.tile? t with
  | none => s
  | some e0 =>
    let e := { e0.firedBy s by' with st := .fired, fired := s.clock, lost := [] }
    let s := s.updTile t (fun _ => e)
    let s := match by' with
      | some c => s.updCtx c (fun x => { x with tilesFired := x.tilesFired ++ [t] })
      | none => s
    if tLen e.desc = 0 then completeTile e [] 0 s
    else
      match tileChecks e s with
      | .error (.trap f) s' => failTile e s'.dev f (undone s s')
      | .error (.wait _) _ => s
      | .ok ps s' =>
        let s' := s'.updTile t (fun e => { e with pages := ps })
        if tM e.desc = 1 then
          match readTile e s' with
          | .ok xs s2 => completeTile e xs (signature [s2.dev]) s2
          | .error _ _ => s'
        else s'

/-! ## Flag words (13 R363) -/

/-- The flag word of an entry as it stands at its home. -/
def flagValue (s : State) (e : TileEntry) : Nat :=
  if tFlag e.desc = 0 then 0
  else
    match translate s e.asid .read (tFlag e.desc) with
    | .ok t =>
      if t.spad ∨ (t.home ≠ s.dev ∧ !s.present.contains t.home) then 0 else leNat (s.mem.readN (t.visible (tFlag e.desc).toNat) 8)
    | .error _ => 0

/-- An ARMED entry takes its flag word: a failing value fails it, a firing value fires it. -/
def takeFlag (t : Nat) (by' : Option CtxId) (s : State) : State :=
  match s.tile? t with
  | none => s
  | some e =>
    if e.st ≠ .armed then s
    else
      let v := flagValue s e
      if v = 0 then s
      else if v % 256 = 2 then
        let s := match by' with
          | some c => s.updCtx c (fun x => { x with tilesFired := x.tilesFired ++ [t] })
          | none => s
        failTile (e.firedBy s by') s.dev { cause := 0x294 } s
      else fireTile t by' s

/-- An entry whose flag word holds a firing or a failing value. -/
def State.flagDue (s : State) : Option Nat :=
  (s.table.find? (fun e => e.st == .armed && flagValue s e != 0)).map (·.index)

/-- TILE_FLAG_WRITE (13 R363): a write has left a value in the flag word of an ARMED entry. -/
def execTileFlagWrite (t : Nat) (s : State) : Result := .next (takeFlag t none s)

/-! ## Completion and failure of an instance -/

/-- The members of an instance: this device's, and the others as their devices give them (log 7). -/
def membersOf (e : TileEntry) (dev : Nat) (own : List Nat) (peers : List Peer) : List Member :=
  ⟨dev, tLeafb e.desc, tLspan e.desc, own⟩ :: peers.map (fun p => ⟨p.dev, tLeafb p.desc, tLspan p.desc, p.data⟩)

/-- Every other member of the ring has fired an entry of the instance. -/
def peersComplete (e : TileEntry) (dev : Nat) (peers : List Peer) : Bool :=
  let ds := peers.map (·.dev)
  (e.ring.filter (· != dev)).all (fun d => ds.contains d) && ds.all (fun d => e.ring.contains d && d != dev) &&
    ds.dedup.length == ds.length && peers.all (fun p => tInst p.desc == tInst e.desc)

/-- The members agree (13 R364). -/
def peersAgree (e : TileEntry) (ms : List Member) (peers : List Peer) : Bool :=
  peers.all (fun p => tLen p.desc == tLen e.desc && tOp p.desc == tOp e.desc && tMode p.desc == tMode e.desc &&
    tNleaf p.desc == tNleaf e.desc && tM p.desc == tM e.desc && p.ring == e.ring) &&
  ms.all (fun m => decide (m.leafb + 2 ^ m.lspan ≤ 2 ^ tNleaf e.desc)) &&
  (ms.map (fun m => 2 ^ m.lspan)).foldl (· + ·) 0 == 2 ^ tNleaf e.desc &&
  ms.all (fun m => ms.all (fun o => o.dev == m.dev || decide (m.leafb + 2 ^ m.lspan ≤ o.leafb) ||
    decide (o.leafb + 2 ^ o.lspan ≤ m.leafb)))

/-- The members in ascending order of their first leaf. -/
def byLeaf : List Member → List Member
  | [] => []
  | m :: ms => let r := byLeaf ms; r.takeWhile (fun o => decide (o.leafb < m.leafb)) ++ [m] ++ r.dropWhile (fun o => decide (o.leafb < m.leafb))

/-- The members in the order that the instance fixes: of their leaves, or of arrival, which names each member once (13 R367, R368). -/
def inOrder (e : TileEntry) (ms : List Member) (order : List Nat) : Option (List Member) :=
  if tMode e.desc && tOp e.desc != 4 then
    if order.isPerm (ms.map (·.dev)) then some (order.filterMap (fun d => ms.find? (fun m => m.dev == d))) else none
  else some (byLeaf ms)

/-- COLLECTIVE_COMPLETE (13 R364 to R370): every member has fired; `peers` is what the other devices give, `order` the order
of arrival. -/
def execCollectiveComplete (t : Nat) (peers : List Peer) (order : List Nat) (s : State) : Result :=
  .next (match s.tile? t with
  | none => s
  | some e =>
    if e.st ≠ .fired ∨ !peersComplete e s.dev peers then s
    else
      match readTile e s with
      | .error (.trap f) s' => failTile e s'.dev f (undone s s')
      | .error (.wait _) _ => s
      | .ok own s' =>
        let ms := membersOf e s.dev own peers
        if !peersAgree e ms peers then failTile e s.dev { cause := 0x293 } s'
        else
          match inOrder e ms order with
          | none => s
          | some l => completeTile e (tileResult e.desc l) (signature (l.map (·.dev))) s')

/-- BOUND cycles of FD0's clock have passed since the fire; it runs at 2.0 GHz, 8 steps a cycle (01 R18, 14 R391). -/
def TileEntry.overrun (e : TileEntry) (clock : Nat) : Bool := e.st == .fired && decide (e.fired + 8 * (e.bound + 1) ≤ clock)

/-- COLLECTIVE_BOUND_OVERRUN (13 R373 row 5). -/
def execCollectiveBoundOverrun (t : Nat) (s : State) : Result :=
  .next (match s.tile? t with
  | none => s
  | some e => if e.overrun s.clock then failTile e s.dev { cause := 0x310 } s else s)

/-- COLLECTIVE_PEER_FAILED (13 R373): a peer's entry has failed, or the members disagree. -/
def execCollectivePeerFailed (t dev : Nat) (mismatch : Bool) (s : State) : Result :=
  .next (match s.tile? t with
  | none => s
  | some e =>
    if e.st = .fired ∧ e.ring.contains dev ∧ dev ≠ s.dev then
      failTile e dev { cause := if mismatch then 0x293 else 0x294 } s
    else s)

/-- The cycles of BOUND stand still while the launch is frozen (13 R361; 14 R391). -/
def State.stepTiles (s : State) : State :=
  if s.table.isEmpty then s
  else { s with table := s.table.map (fun e =>
    match s.launch? e.launch with
    | some l => if e.st == .fired && l.run == .frozen then { e with fired := e.fired + 1 } else e
    | none => e) }

/-! ## CTREADY and CTWAIT (13 R371, R372) -/

/-- A read of K that completes at once (log 17). -/
def kRead (va : DWord) (n : Nat) : M (List Byte) := do
  let s ← get
  let segs ← pages s.agent .read va n
  if segs.any (fun g => g.tr.spad) then faultAt 0x091 va else pure ()
  homeCheck .read segs
  eachM segs (tagCheck .read)
  watchCheck s.agent .read va n
  readSegs s.agent 0 segs

/-- A write of K that completes at once, performed at its home. -/
def kWrite (va : DWord) (data : List Byte) : M Unit := do
  let s ← get
  let segs ← pages s.agent .write va data.length
  if segs.any (fun g => g.tr.spad) then faultAt 0x091 va else pure ()
  homeCheck .write segs
  eachM segs (tagCheck .write)
  watchCheck s.agent .write va data.length
  writeSegs s.agent 2 .write segs data

/-- The entry may be armed by the launch (13 R363). -/
def mayArm (s : State) (t l : Nat) : Bool :=
  match s.tile? t with
  | none => true
  | some e => e.launch == l && (e.st == .done || e.st == .failed)

/-- Arming (13 R371): `go` releases before word 1 of the record is written. -/
def armTile (a : BitVec 5) (t : Nat) (go : Bool) : M Unit := do
  let s ← get
  let va := s.cx.rx a
  require (mayArm s t s.cx.id.launch) 0x292
  if va.toNat % 64 ≠ 0 then faultAt 0x290 va else pure ()
  let b ← kRead va 64
  let d : BitVec 512 := BitVec.ofNat 512 (leNat b)
  require (tileFormOk d) 0x290
  let rb ← collectM (List.range (tM d)) (fun i => kRead (tRing d + BitVec.ofNat 64 (2 * i)) 2)
  let ring := rb.map leNat
  require (ringOk s.dev d ring) 0x290
  let det := match s.launch? s.cx.id.launch with | some l => l.det | none => false
  require (!(tMode d && tOp d != 4 && det)) 0x291
  if go then release 3 else pure ()
  kWrite (tCrec d + 8) (natBytes 8 0)
  let c := s.cx
  modify (fun s => { s with table := putTile s.table {
    index := t, launch := c.id.launch, asid := c.asid.toNat, desc := d, ring := ring,
    bound := if tBound d = 0 then c.bound else tBound d } })

/-- Any deferred collective fault, then the tile index. -/
def tileIndex (r : BitVec 5) : M Nat := do
  raiseTile
  let s ← get
  let t := (s.cx.rx r).toNat
  require (decide (t < 4096)) 0x290
  pure t

/-- CTREADY.arm. -/
def execCtreadyArm (h : Hq) (a b : BitVec 5) (s : State) : Result :=
  runK h 1 (do
    replayable
    let t ← tileIndex b
    armTile a t false
    modify (takeFlag t none)) s

/-- CTREADY.fire. -/
def execCtreadyFire (h : Hq) (b : BitVec 5) (s : State) : Result :=
  runK h 1 (do
    replayable
    let t ← tileIndex b
    let s ← get
    match s.tile? t with
    | none => fault 0x292
    | some e => do
      require (e.launch == s.cx.id.launch && e.st == .armed) 0x292
      release 3
      modify (fireTile t (some s.cx.id))) s

/-- CTREADY.go: an entry that its flag fires or fails as it is armed counts as fired by it. -/
def execCtreadyGo (h : Hq) (a b : BitVec 5) (s : State) : Result :=
  runK h 1 (do
    replayable
    let t ← tileIndex b
    armTile a t true
    let s ← get
    modify (takeFlag t (some s.cx.id))
    let s ← get
    match s.tile? t with
    | some e => if e.st = .armed then modify (fireTile t (some s.cx.id)) else pure ()
    | none => pure ()) s

/-- The entry that CTWAIT names. -/
def waitedTile (a : BitVec 5) : M TileEntry := do
  replayable
  let t ← tileIndex a
  let s ← get
  match s.tile? t with
  | none => fault 0x292
  | some e => do
    require (e.launch == s.cx.id.launch) 0x292
    pure e

/-- CTWAIT. The fault of an entry that its flag fired is raised here precisely. -/
def execCtwait (h : Hq) (d a : BitVec 5) (s : State) : Result :=
  runK h 1 (do
    let e ← waitedTile a
    match e.st with
    | .done => do
      acquire 3
      modCx (fun c => c.wx d e.sig)
    | .failed => throw (.trap { (e.fault.getD { cause := 0x294 }) with srce := some 6 })
    | _ => waitFor (.tile e.index)) s

/-- CTWAIT.test. -/
def execCtwaitTest (h : Hq) (d a : BitVec 5) (s : State) : Result :=
  runK h 1 (do
    let e ← waitedTile a
    modCx (fun c => c.wx d (if e.st = .done ∨ e.st = .failed then 1 else 0))) s

end Sys2Proof.Machine
end

