-- ==== Sys2Proof/Machine/Control.lean ====
section
/-! DEFINITION. The instructions that every sequencer has (06 R172 to R182): NOP, HALT, FENCE, TKPOST, TKWAIT, PBT, BRX and
BRXD. -/
namespace Sys2Proof.Machine

/-- A shared word on the sequencer in focus. -/
def runShared (h : Hd) (words : Nat) (op : M Unit) (s : State) (keeps : Bool := false) : Result :=
  if s.cur = .c then runCq h words op s else .next (runWord h.qp h.tk words op s keeps)

/-- NOP (06 R174). -/
def execNop (h : Hd) (s : State) : Result :=
  if s.cur = .c then .next (runC 1 (fun c => c.seqC.rq h.qp) h.tk (pure ()) s) else runShared h 1 (pure ()) s

/-- HALT (06 R175). On C it raises a deferred fault of the bank, on K one of the copy queue or of a tile entry; inside a
plan the broadcast core's C may not halt (11 R326). -/
def execHalt (h : Hd) (s : State) : Result :=
  runShared h 1 (do
    let s ← get
    match s.cur with
    | .c => do
      if s.cx.onBcast && s.planOpen s.cx.id.launch then fault 0x206 else pure ()
      raiseBank
      modBun (fun b => { b with halts := some b.off })
    | .k => do
      raiseCopy
      raiseTile
      modSeq (fun st => { st with halted := true, pend := none })
    | _ => modSeq (fun st => { st with halted := true, pend := none })) s

/-- FENCE (06 R182): the cache actions of its scope. Whatever its order, it is an acquire at its scope toward code fetch, and lines
entered later are fetched afresh (02 R43). C of a compute core makes no access, so its FENCE releases nothing. -/
def execFence (h : Hd) (c : BitVec 3) (o : BitVec 2) (s : State) : Result :=
  runShared h 1 (do
    let s ← get
    if (s.cur != .c || s.cx.onBcast) && o != 1 then release c.toNat else pure ()
    acquire c.toNat
    modSeq (fun st => { st with fetched := [] })) s

/-- TKPOST (06 R181): on C it takes place with the bundle's other posts. Its field's token stays removed while it waits for room. -/
def execTkpost (h : Hd) (f : BitVec 2) (n : BitVec 4) (s : State) : Result :=
  runShared h 1 (do
    let s ← get
    let q := postQueue s.cur f.toNat
    if s.cur = .c then modBun (fun b => { b with posts := b.posts ++ [(q, n.toNat, b.off)] })
    else if 15 < s.cx.tokens q + n.toNat then waitFor (.room q n.toNat)
    else modCx (fun c => c.setTokens q (c.tokens q + n.toNat))) s true

/-- TKWAIT (06 R181): its tokens are removed in one step, after the wait of its own field has been satisfied; on C, after those of the
fields of every word of the bundle, whose order has no effect (02 R52). -/
def execTkwait (h : Hd) (f : BitVec 2) (n : BitVec 4) (s : State) : Result :=
  runShared h 1 (do
    let s ← get
    let q := waitQueue s.cur f.toNat
    if s.cur = .c then modBun (fun b => { b with gets := b.gets ++ [(q, n.toNat, b.off)] })
    else if s.cx.tokens q < n.toNat then waitFor (.token q n.toNat)
    else modCx (fun c => c.setTokens q (c.tokens q - n.toNat))) s true

/-- PBT (06 R176). -/
def execPbt (h : Hd) (j : BitVec 2) (m : BitVec 1) (b : BitVec 5) (imm : BitVec 32) (s : State) : Result :=
  runShared h 2 (do
    let s ← get
    let from0 := if m = 0 then s.wordPc else s.operands.rReg s.cur b
    modSeq (fun st => { st with j := st.j.set j (from0 + imm.signExtend 64) })) s

/-- Open the delay of a transfer: 2 instructions, or 1 bundle on C (06 R179). -/
def openDelay (j : BitVec 2) (taken : Bool) : M Unit := do
  let s ← get
  let target := (s.operands.seq s.cur).j.get j
  if s.cur = .c then modBun (fun b => { b with xfer := some ⟨target, taken, 1⟩ })
  else modSeq (fun st => { st with pend := some ⟨target, taken, 2⟩ })

/-- A transfer stands in the delay of another: it faults whatever its predicate, before its token wait (06 R180). -/
def inDelay (s : State) : Bool := (s.operands.seq s.cur).pend.isSome

/-- A transfer word. -/
def runTransfer (h : Hd) (op : M Unit) (s : State) : Result :=
  if inDelay s then
    if s.cur = .c then .next (runC 1 (fun _ => true) 0 (fault 0x026) s) else .next (s.faultHere { cause := 0x026 })
  else runShared h 1 op s

/-- BRX (06 R177). -/
def execBrx (h : Hd) (j : BitVec 2) (s : State) : Result := runTransfer h (openDelay j true) s

/-- BRXD (06 R178): the register is written, and the transfer is taken where it then reads other than 0. Register 0 always reads 0,
so a count in it is never taken. -/
def execBrxd (h : Hd) (j : BitVec 2) (b : BitVec 5) (s : State) : Result :=
  runTransfer h (do
    let s ← get
    let c := s.operands.wReg s.cur b (s.operands.rReg s.cur b - 1)
    modCx (fun cx => cx.wReg s.cur b (s.operands.rReg s.cur b - 1))
    openDelay j (c.rReg s.cur b != 0)) s

end Sys2Proof.Machine
end

