-- ==== Sys2Proof/Machine/Sched.lean ====
section
/-! DEFINITION. The task-graph machine: the ready pool, placement and dispatch (05 R152 to R154), what a node starts with
(R148), completion (R155), lateness (R156), banks and swaps (R157 to R162). -/
namespace Sys2Proof.Machine

/-! ## Keys (05 R152) -/

/-- The key of a node: deadline, launch number, index. -/
abbrev Key := Nat × Nat × Nat

/-- The order of keys. -/
def Key.lt (a b : Key) : Bool :=
  decide (a.1 < b.1) || (a.1 == b.1 && (decide (a.2.1 < b.2.1) || (a.2.1 == b.2.1 && decide (a.2.2 < b.2.2))))

/-- The element that a strict order puts first. -/
def firstBy {α : Type} (lt : α → α → Bool) : List α → Option α
  | [] => none
  | x :: xs => match firstBy lt xs with
    | none => some x
    | some y => if lt y x then some y else some x

/-- The key of a context's node. -/
def State.keyOf (s : State) (c : Ctx) : Key :=
  match s.launch? c.id.launch with
  | none => (0, c.id.launch, c.node)
  | some l => (((l.nodes[c.node]?).map (·.deadline)).getD 0, l.num, c.node)

/-! ## Affinity (05 R154) -/

/-- Bytes of a run counted toward a die: those of each 4 KiB whose home die it is. -/
def runBytes (s : State) (die : Nat) (k n : Nat) : Nat :=
  ((List.range ((k % 4096 + n + 4095) / 4096)).map (fun i =>
    let lo := max k (k / 4096 * 4096 + 4096 * i)
    let hi := min (k + n) (k / 4096 * 4096 + 4096 * (i + 1))
    if k / 2 ^ 48 = s.dev ∧ bits k 47 39 = 0 ∧ paOk (lo % 2 ^ 48) ∧ homeDie (lo % 2 ^ 48) = die then hi - lo else 0)).foldl (· + ·) 0

/-- Bytes of a range counted toward a die over at most `fuel` leaf pages; a page that does not translate counts nothing
and is passed over at 4 KiB (log 23). The walk is no access. -/
def rangeAffinity (s : State) (asid die : Nat) : Nat → Nat → Nat → Nat
  | 0, _, _ => 0
  | fuel + 1, va, stop =>
    if stop ≤ va then 0
    else
      match walkRoot s asid va with
      | .error _ => rangeAffinity s asid die fuel (va / 4096 * 4096 + 4096) stop
      | .ok t =>
        let size := 2 ^ levelShift t.level
        let next := va / size * size + size
        (if t.spad then 0 else runBytes s die (t.visible va) (min stop next - va)) + rangeAffinity s asid die fuel next stop

/-- The descriptors of a node as they stand, where they can be read. -/
def descriptors (s : State) (l : Launch) (n : Node) : List Nat :=
  match (collectM (List.range n.nops) (fun i => do
      let b ← readMem (machineAgent l.num l.asid.toNat) 0 (n.ops + BitVec.ofNat 64 (16 * i)) 16
      pure (leNat b)) : M (List Nat)) s with
  | .ok v _ => v
  | .error _ _ => []

/-- The affinity of a die for a node on a logical core (05 R154). -/
def affinity (s : State) (l : Launch) (n : Node) (lcore die : Nat) : Nat :=
  ((descriptors s l n).map (fun d =>
    rangeAffinity s l.asid.toNat die 16 (bits d 55 0) (bits d 55 0 + bits d 111 64))).foldl (· + ·) 0 +
  (match s.ctx? ⟨l.num, lcore⟩ with
   | some c => if c.place = .spilled die then 4 * 2 ^ 20 else 0
   | none => 0)

/-! ## Placement (05 R153, R154) -/

/-- Cores that work (01 R33, R34). -/
def State.working (s : State) (core : Nat × Nat) : Bool := !s.spareCores.contains core && !s.withdrawn.contains core

/-- Physical compute cores that hold a context of the launch, other than one context. Handler contexts count outside the
grant (14 R387). -/
def State.heldCores (s : State) (l : Nat) (but : CtxId) : List (Nat × Nat) :=
  ((s.ctxs.filter (fun c => c.id.launch == l && decide (c.id.lcore < 64) && c.placed && c.id != but)).map Ctx.core).dedup

/-- The launch may put a context on the core without passing its grant, when `but` is gone. -/
def State.mayHold (s : State) (l : Launch) (lcore : Nat) (but : CtxId) (core : Nat × Nat) : Bool :=
  lcore == Config.handlerLcore ||
    (let held := s.heldCores l.num but
     held.contains core || decide (held.length < min l.grant s.cores.toNat))

/-- The banks of a core that hold nothing. -/
def State.freeBanks (s : State) (core : Nat × Nat) : List Nat := [0, 1].filter (fun b => (s.inBank core b).isNone)

/-- No context. -/
def noId : CtxId := ⟨0, 0⟩

/-! A wave is brought in by dispatch, swap and spill, and the launch's other logical cores yield to it (11 R324, R332). -/

/-- The logical core is one of the wave that its launch's plan waits for. -/
def State.awaited (s : State) (c : CtxId) : Bool :=
  s.plan.any (fun p => p.phase == .opening && p.launch == c.launch && p.members.contains c.lcore)

/-- The logical core yields to that wave. -/
def State.makesWay (s : State) (c : CtxId) : Bool :=
  s.plan.any (fun p => p.phase == .opening && p.launch == c.launch && decide (c.lcore < 64) && !p.members.contains c.lcore)

/-- A core holds another logical core of the wave that this one belongs to: only one of the two could be active there. -/
def State.taken (s : State) (c : CtxId) (core : Nat × Nat) : Bool :=
  s.awaited c && s.ctxs.any (fun x => x.id != c && x.placed && x.core == core && s.awaited x.id)

/-- A logical core of a wave stands in the shadow bank of another one's core: it is to move to a core of its own (11 R324). -/
def State.crowded (s : State) (c : Ctx) : Bool := c.placed && !s.isActive c && s.taken c.id c.core

/-- The bank that a die offers: the lowest core with both banks free, else the lowest with one. -/
def bankOnDie (s : State) (l : Launch) (lcore die : Nat) : Option (Nat × Nat × Nat) :=
  let ok := (List.range 5).filter (fun i => s.working (die, i) && s.mayHold l lcore noId (die, i) && !s.taken ⟨l.num, lcore⟩ (die, i))
  match ok.find? (fun i => (s.freeBanks (die, i)).length == 2) with
  | some i => some (die, i, 0)
  | none =>
    match ok.find? (fun i => (s.freeBanks (die, i)).length == 1) with
    | some i => some (die, i, ((s.freeBanks (die, i)).head?).getD 0)
    | none => none

/-- The free bank on the die of highest affinity that has one; equal affinities go to the lower die. DEDUCED (log 23): a
die without a free bank is passed over before any context is spilled. -/
def freeBank (s : State) (l : Launch) (n : Node) (lcore : Nat) : Option (Nat × Nat × Nat) :=
  if lcore = Config.bcastLcore then
    if s.exporter.isSome then none else ((s.freeBanks (Config.broadcastDie, 0)).head?).map (fun b => (Config.broadcastDie, 0, b))
  else
    let offers := (List.range 16).filterMap (fun d => (bankOnDie s l lcore d).map (fun b => (affinity s l n lcore d, b)))
    (firstBy (fun a b => decide (b.1 < a.1)) offers).map (·.2)

/-- The node of a context is inside an open plan (05 R162). -/
def State.inPlan (s : State) (c : Ctx) : Bool := s.planOpen c.id.launch

/-- A copy command of the context has started and not completed (12 R352). -/
def Ctx.copying (c : Ctx) : Bool := c.copy.queue.any (fun k => k.started.isSome)

/-- What L and S of a context have issued is in progress (05 R158). -/
def Ctx.transfers (c : Ctx) : Bool := c.status != .stopped && (c.unfinished .l || c.unfinished .s)

/-- The bank image of a context can be written: its engine work is done or recorded (05 R159), what it has issued is over, and no
accepted transfer is writing into its frame (09 R263). -/
def State.imageReady (s : State) (c : Ctx) : Bool :=
  c.wins.isEmpty && !c.copying && c.frameOut.isNone && !c.draining && !c.transfers && !s.ctxs.any (fun x => x.landsOn c.id)

/-- A context may be moved out of its bank: it holds no node, or it does not issue (05 R154). -/
def State.spillable (s : State) (c : Ctx) : Bool :=
  c.placed && (!s.inPlan c || c.status == .idle) && s.imageReady c &&
    (c.status == .idle || c.status == .parked || c.status == .yielded || c.status == .stopped || !s.isActive c || s.makesWay c.id)

/-- The context whose bank a node takes when none is free (05 R154): one without a node, of the earliest completion; for a logical core
of a wave, one that yields to it, of the latest key; else the parked or pre-empted one of the latest key, later than the node's
own. DEDUCED (log 40): where there is none, a yielded one, whatever its key. -/
def victim (s : State) (l : Launch) (lcore : Nat) (key : Key) : Option Ctx :=
  let here := s.ctxs.filter (fun c => s.spillable c && (c.onBcast == (lcore == Config.bcastLcore)) &&
    (lcore == Config.bcastLcore || (s.working c.core && s.mayHold l lcore c.id c.core)) && !s.taken ⟨l.num, lcore⟩ c.core)
  let idle := here.filter (fun c => c.status == .idle)
  let way := if s.awaited ⟨l.num, lcore⟩ then here.filter (fun c => s.makesWay c.id) else []
  let latest (l : List Ctx) : Option Ctx := firstBy (fun a b : Ctx => Key.lt (s.keyOf b) (s.keyOf a)) l
  (firstBy (fun a b : Ctx => Key.lt (a.lastDone, a.id.launch, a.id.lcore) (b.lastDone, b.id.launch, b.id.lcore)) idle).or <|
    (latest way).or <| (latest (here.filter (fun c => c.status != .idle && Key.lt key (s.keyOf c)))).or
      (latest (here.filter (fun c => c.status == .yielded)))

/-- The bank that a context of a lower key takes where none is free: the shadow bank of the core that runs the node of the highest
key, outside a plan, with the context there spilled under R154 (05 R161). -/
def preemptBank (s : State) (l : Launch) (lcore : Nat) (key : Key) : Option Ctx :=
  let runs := s.ctxs.filter (fun c => s.isActive c && c.status == .running && !s.inPlan c &&
    (c.onBcast == (lcore == Config.bcastLcore)) && (lcore == Config.bcastLcore || s.working c.core))
  match firstBy (fun a b : Ctx => Key.lt (s.keyOf b) (s.keyOf a)) runs with
  | none => none
  | some top =>
    if !Key.lt key (s.keyOf top) then none
    else (s.inBank top.core (1 - s.activeBank top.core)).filter (fun c =>
      s.spillable c && (lcore == Config.bcastLcore || s.mayHold l lcore c.id c.core) && !s.taken ⟨l.num, lcore⟩ c.core &&
        (c.status == .idle || c.status == .yielded || Key.lt key (s.keyOf c)))

/-- Where a logical core's context goes: its own bank, a free one, or that of a context spilled for it. -/
def placeFor (s : State) (l : Launch) (n : Node) (lcore : Nat) (key : Key) : Option (Nat × Nat × Nat × Option CtxId) :=
  match s.ctx? ⟨l.num, lcore⟩ with
  | some c =>
    match c.place with
    | .bank d i b => some (d, i, b, none)
    | _ => other
  | none => other
where
  other : Option (Nat × Nat × Nat × Option CtxId) :=
    match freeBank s l n lcore with
    | some (d, i, b) => some (d, i, b, none)
    | none =>
      match (preemptBank s l lcore key).or (victim s l lcore key) with
      | some c => match c.place with
        | .bank d i b => some (d, i, b, some c.id)
        | _ => none
      | none => none

/-- The logical core runs a node. -/
def State.lcoreBusy (s : State) (l lcore : Nat) : Bool :=
  match s.ctx? ⟨l, lcore⟩ with
  | some c => c.status != .idle
  | none => false

/-- The context that a node of the pool was running in when its launch was frozen: it goes on there, as a pre-empted node does (15
R415). -/
def State.recorded (s : State) (l : Launch) (i : Nat) (n : Node) : Option Ctx :=
  (s.ctx? ⟨l.num, n.lcore⟩).filter (fun c => n.st == .pooled && c.node == i && c.status != .idle)

/-- The logical core a pooled node would run as (05 R153); a free node takes the lowest one that nothing holds. On a joined module
nothing runs as logical core 64 (11 R333). -/
def lcoreFor (s : State) (l : Launch) (i : Nat) (n : Node) : Option Nat :=
  match s.recorded l i n with
  | some c => if c.status = .running ∨ s.awaited c.id then some n.lcore else none
  | none =>
  if n.lcoreField = 127 then
    (List.range l.lcores ++ (if l.bc && s.exporter.isNone then [Config.bcastLcore] else [])).find? (fun c => !s.lcoreBusy l.num c &&
      !l.nodes.any (fun m => m.st == .pooled && m.lcoreField == c))
  else if s.lcoreBusy l.num n.lcoreField || (n.lcoreField == Config.bcastLcore && s.exporter.isSome) then none else some n.lcoreField

/-- A dispatch: launch, node, logical core, bank, and the context spilled for it. -/
structure Dispatch where
  key : Key
  launch : Nat
  node : Nat
  lcore : Nat
  bank : Nat × Nat × Nat
  spills : Option CtxId
  deriving DecidableEq, Repr

/-- The dispatch of a pooled node, if it can be dispatched (05 R153). -/
def dispatchOf (s : State) (l : Launch) (i : Nat) : Option Dispatch :=
  match l.nodes[i]? with
  | none => none
  | some n =>
    if n.st != .pooled || l.run != .running then none
    else
      match (lcoreFor s l i n).filter (fun c => !s.makesWay ⟨l.num, c⟩) with
      | none => none
      | some c =>
        let key : Key := (n.deadline, l.num, i)
        (placeFor s l n c key).map (fun p => ⟨key, l.num, i, c, (p.1, p.2.1, p.2.2.1), p.2.2.2⟩)

/-- The first node in the pool's order that can be dispatched. -/
def nextDispatch (s : State) : Option Dispatch :=
  firstBy (fun a b => a.key.lt b.key)
    (s.launches.flatMap (fun l => (List.range l.nodes.length).filterMap (dispatchOf s l)))

/-! ## Starting a node (05 R146 to R148) -/

/-- The program counter of an entry line: word 1; 0 for none. -/
def entryPc (n : Node) (q : SeqId) : DWord := if n.entry q = 0 then 0 else BitVec.ofNat 64 (n.entry q * 64 + 4)

/-- A sequencer at node start. -/
def startSeq (n : Node) (q : SeqId) : SeqState := { pc := entryPc n q, halted := n.entry q == 0 }

/-- The state of a node at its start (05 R148): what is kept stays, the rest is as in a context never used. -/
def Ctx.startNode (c : Ctx) (n : Node) (i : Nat) (asid : BitVec 13) (place : Place) : Ctx :=
  { c.keepForNode with
    asid := asid, node := i, place := place, status := .running,
    seqL := startSeq n .l, seqC := startSeq n .c, seqS := startSeq n .s, seqK := startSeq n .k }

/-- Read the operand list and the argument block (05 R146, R147): k0 to k15, or the fault. -/
def readNodeArgs (l : Launch) (n : Node) : M (List Nat) := do
  let ag := machineAgent l.num l.asid.toNat
  eachM (List.range n.nops) (fun i => do
    let b ← readMem ag 0 (n.ops + BitVec.ofNat 64 (16 * i)) 16
    let d := leNat b
    if bits d 127 114 ≠ 0 ∨ bits d 63 56 ≠ 0 then fault 0x302 else pure ())
  let b ← readMem ag 0 n.args 128
  pure (wordsOf 8 16 b)

/-- k0 to k15 as read in full, or zero (05 R147). -/
def readArgsAlone (s : State) (l : Launch) (n : Node) : List Nat :=
  match (readMem (machineAgent l.num l.asid.toNat) 0 n.args 128) s with
  | .ok b _ => wordsOf 8 16 b
  | .error _ _ => []

/-- k0 to k15 loaded. -/
def Ctx.loadK (c : Ctx) (ks : List Nat) : Ctx :=
  { c with k := Vector.ofFn (fun i => BitVec.ofNat 64 ((ks[i.val]?).getD 0)) }

/-- Load the constants of the node in focus, or stop it with a frame of SRCE 7 (05 R147). -/
def loadNode (l : Launch) (n : Node) (s : State) : State :=
  match readNodeArgs l n s with
  | .ok ks s' => { s' with cx := s'.cx.loadK ks }
  | .error e s' =>
    let ks := readArgsAlone s' l n
    let s' := { s' with cx := s'.cx.loadK ks }
    match e with
    | .trap t => s'.takeFault { t with srce := some 7, noInstr := true } 7 0
    | .wait _ => s'

/-- The context to place: as it is held, or a new one. -/
def State.takeCtx (s : State) (c : CtxId) : Ctx × State :=
  match s.ctx? c with
  | some x => (x, s)
  | none =>
    let x : Ctx := { id := c }
    (x, { s with others := s.others ++ [x] })

/-- The bank of a core becomes the active one. -/
def State.activate (s : State) (core : Nat × Nat) (b : Nat) : State :=
  { s with bank1 := if b = 1 then (if s.bank1.contains core then s.bank1 else s.bank1 ++ [core])
                    else s.bank1.filter (· != core) }

/-- A context that neither issues nor holds the active bank against another: none, without a node, or parked. -/
def State.yields (s : State) (core : Nat × Nat) : Bool :=
  match s.inBank core (s.activeBank core) with
  | none => true
  | some c => c.status == .idle || ((c.status == .parked || c.status == .yielded) && !s.inPlan c)

/-- A context leaves its bank for the spill area (05 R159). Its die writes back what it holds of other homes, so that the context's
accesses stay in their order on another die, and the entries that its core holds in its tile cache go (07 R219). Its bank image holds no
translation of a stream (15 R408). -/
def spillCtx (v : CtxId) (s : State) : State :=
  match s.ctx? v with
  | none => s
  | some c =>
    let s := cleanLines (fun e => e.die == c.core.1) s
    { s.updCtx v (fun c => { c with place := .spilled c.core.1, streams := c.streams.map Stream.unheld }) with tiles := s.tiles.filter (fun t => t.core != c.core) }

/-- The bank of a core is made free for a context, and active where nothing holds the active one. -/
def State.makeRoom (s : State) (bank : Nat × Nat × Nat) (spills : Option CtxId) : State :=
  let s := match spills with
    | some v => spillCtx v s
    | none => s
  if s.yields (bank.1, bank.2.1) then s.activate (bank.1, bank.2.1) bank.2.2 else s

/-- A spilled context comes into a bank (05 R159). Lines that its die holds of other homes are dropped, so that it sees what it has
written elsewhere. -/
def State.restoreInto (s : State) (c : CtxId) (bank : Nat × Nat × Nat) : State :=
  (freshLines (fun e => e.die == bank.1) s).updCtx c (fun x => { x with place := .bank bank.1 bank.2.1 bank.2.2 })

/-- The bank of a dispatch is made free and its node runs. -/
def State.dispatched (s : State) (d : Dispatch) : State :=
  (s.makeRoom d.bank d.spills).updLaunch d.launch (fun l =>
    { l with nodes := modAt l.nodes d.node (fun n => { n with st := .running, lcore := d.lcore }) })

/-- The context of a dispatch is placed, at the start of its node, and in focus. -/
def State.startAt (s : State) (d : Dispatch) (l : Launch) (n : Node) : State :=
  let id : CtxId := ⟨d.launch, d.lcore⟩
  ((s.takeCtx id).2.updCtx id (fun c => c.startNode n d.node l.asid (.bank d.bank.1 d.bank.2.1 d.bank.2.2))).focus id

/-- Dispatch: spill, place, start, acquire at .dev (05 R154, R155). A node that was frozen as it ran goes on in its context (15 R415). -/
def State.dispatch (s : State) (d : Dispatch) (l : Launch) (n : Node) : State :=
  if (s.recorded l d.node n).isSome then (s.dispatched d).restoreInto ⟨d.launch, d.lcore⟩ d.bank
  else
    freshLines (fun e => e.die == d.bank.1 && e.line * 64 / 2 ^ 48 == s.dev) (loadNode l n ((s.dispatched d).startAt d l n))

/-- The handler of a launch with a frame waiting and none held (14 R387). -/
def handlerReady (s : State) : Option Launch :=
  s.launches.find? (fun l => !l.frames.isEmpty && l.held.isNone && l.run == .running && !s.lcoreBusy l.num Config.handlerLcore)

/-- The frame is written to the handler's frame area, as a release at .dev (14 R387); an area that cannot be written ends
the launch (R389). -/
def writeFrameArea (l : Launch) (n : Node) (f : Frame) : M Unit := do
  let ag := machineAgent l.num l.asid.toNat
  let b ← readMem ag 0 n.args 128
  let k0 := BitVec.ofNat 64 (leNat (b.take 8))
  if k0.toNat % 256 ≠ 0 then fault 0x300 else writeMem ag 0 k0 f.bytes

/-- A context as one that has never been used. -/
def State.freshCtx (s : State) (c : CtxId) : State := s.updCtx c (fun _ => { id := c })

/-- Dispatch the handler of a launch ahead of every node (14 R387). -/
def dispatchHandler (l : Launch) (s : State) : State :=
  match l.frames, l.nodes[l.handler]? with
  | (_, f) :: rest, some n =>
    match writeFrameArea l n f s with
    | .error _ s' => s'.endLaunch l.num 3 f.cause
    | .ok _ s' =>
      let s'' := s'.freshCtx ⟨l.num, Config.handlerLcore⟩
      match placeFor s'' l n Config.handlerLcore (0, l.num, l.handler) with
      | none => s
      | some p =>
        let s' := s''.updLaunch l.num (fun l => { l with held := some f, frames := rest })
        s'.dispatch ⟨(0, l.num, l.handler), l.num, l.handler, Config.handlerLcore, (p.1, p.2.1, p.2.2.1), p.2.2.2⟩ l n
  | _, _ => s

/-- NODE_DISPATCH (05 R152 to R154, 14 R387): the handler first, then the first dispatchable node of the pool. -/
def execNodeDispatch (s : State) : Result :=
  .next (match handlerReady s with
  | some l => dispatchHandler l s
  | none =>
    match nextDispatch s with
    | none => s
    | some d =>
      match s.launch? d.launch with
      | none => s
      | some l => match l.nodes[d.node]? with
        | none => s
        | some n => s.dispatch d l n)

/-! ## Completion and lateness (05 R155, R156) -/

/-- Every sequencer has halted and every engine command is complete. -/
def Ctx.nodeOver (c : Ctx) : Bool := allSeqs.all (fun q => (c.seq q).halted) && c.enginesDone

/-- The node of a context completes: a release at .dev, on whichever dies it has run; its successors are released unless it has
spawned. -/
def completeNode (c : Ctx) (l : Launch) (n : Node) (s : State) : State :=
  let s := cleanLines (fun e => e.line * 64 / 2 ^ 48 == s.dev) s
  let s := s.updCtx c.id (fun c => { c with status := .idle, lastDone := s.clock })
  let s := s.updLaunch l.num (fun l =>
    let ns := modAt l.nodes c.node (fun n => { n with st := .done })
    { l with nodes := if n.spawned then ns else releaseSuccs ns n.succ })
  s.settle l.num

/-- NODE_COMPLETE (05 R155). The handler's halt frees it for the next frame, or ends the launch when it still holds one (14
R389). -/
def execNodeComplete (c : CtxId) (s : State) : Result :=
  .next (match s.ctx? c, s.launch? c.launch with
  | some x, some l =>
    if x.status == .running && x.nodeOver && s.firstWrites.isEmpty && (l.run == .running || c.lcore == Config.handlerLcore) then
      if c.lcore = Config.handlerLcore then
        match l.held with
        | some f => s.endLaunch l.num 3 f.cause
        | none =>
          (s.updCtx c (fun x => { x with status := .idle, place := .unplaced, lastDone := s.clock })).updLaunch l.num
            (fun l => { l with nodes := modAt l.nodes l.handler (fun n => { n with st := .blocked }) })
      else
        match l.nodes[x.node]? with
        | some n => completeNode x l n s
        | none => s
    else s
  | _, _ => s)

/-- The nodes reachable from one through successor lists. -/
def reach (nodes : List Node) : Nat → List Nat → List Nat
  | 0, seen => seen
  | fuel + 1, seen =>
    reach nodes fuel ((seen ++ seen.flatMap (fun i => match nodes[i]? with | some n => n.succ | none => [])).dedup)

/-- The pooled node that is late and not yet counted, first in key order (05 R156). -/
def lateNode (s : State) : Option (Key × Launch × Nat) :=
  firstBy (fun a b => a.1.lt b.1) (s.launches.flatMap (fun l => (List.range l.nodes.length).filterMap (fun i =>
    match l.nodes[i]? with
    | some n => if n.st == .pooled && !n.late && l.run == .running && decide (n.deadline < s.clock) then
        some ((n.deadline, l.num, i), l, i) else none
    | none => none)))

/-- A node waits in the pool. -/
def Launch.poolHolds (l : Launch) (i : Nat) : Bool := (l.nodes[i]?).any (fun n => n.st == .pooled)

/-- NODE_LATE (05 R156): counts it; under ABL discards the node and everything it reaches, with the context that one of them was to go
on in. -/
def execNodeLate (s : State) : Result :=
  .next (match lateNode s with
  | none => s
  | some (_, l, i) =>
    let gone := if l.abl then (reach l.nodes l.nodes.length [i]).filter (fun j => (l.nodes[j]?).any (fun n => n.st != .discarded)) else []
    let l' := { l with
      late := l.late + 1, firstLate := if l.firstLate = 0xFFFF then i else l.firstLate, discard := l.discard + gone.length,
      nodes := (modAt l.nodes i (fun n => { n with late := true })).zipIdx.map (fun p =>
        if gone.contains p.2 then { p.1 with st := .discarded } else p.1) }
    let s := s.updLaunch l.num (fun _ => l')
    let s := s.updCtxsOf l.num (fun c => if gone.contains c.node && c.status != .idle && l.poolHolds c.node then { c with status := .idle } else c)
    (crecLate l' s).settle l.num)

/-! ## Banks (05 R157 to R161) -/

/-- A context that can issue when its bank is active. -/
def Ctx.ready (c : Ctx) : Bool := c.status == .running

/-- The item is a reply: that of a remote access, or the end of a tile entry (13 R372). -/
def Await.isReply (a : Await) : Bool :=
  match a with
  | .reply => true
  | .tile _ => true
  | _ => false

/-- K waits on a reply (05 R161). -/
def Ctx.onReply (c : Ctx) : Bool := (c.seq .k).awaiting.any Await.isReply

/-- Every sequencer has halted. -/
def Ctx.allHalted (c : Ctx) : Bool := allSeqs.all (fun q => (c.seq q).halted)

/-- Exchange the banks of a core (05 R157). -/
def State.swap (s : State) (core : Nat × Nat) : State := s.activate core (1 - s.activeBank core)

/-- The context in the shadow bank. -/
def State.shadowOf (s : State) (core : Nat × Nat) : Option Ctx := s.inBank core (1 - s.activeBank core)

/-- A context of the shadow bank may take the active one: it can issue, or a wave waits for it (11 R324). -/
def State.claims (s : State) (c : Ctx) : Bool := c.ready || s.awaited c.id

/-- BANK_SWAP (05 R157, R160, R161): a shadow context that can issue takes the active bank from one that halted, parked,
yielded, or waits on a reply. A plan node that parks waits in place (R162). One of a wave that is brought in takes it whether it can
issue or not, from one that yields to the wave too, and keeps it (11 R323, R324). -/
def execBankSwap (die core : Nat) (s : State) : Result :=
  .next (match s.shadowOf (die, core) with
  | none => s
  | some c =>
    if !s.claims c then s
    else
      match s.inBank (die, core) (s.activeBank (die, core)) with
      | none => s.swap (die, core)
      | some a =>
        if s.awaited a.id then s
        else if s.awaited c.id && s.makesWay a.id then s.swap (die, core)
        else if a.allHalted || (!s.inPlan a && (a.status == .idle || a.status == .parked || a.status == .yielded || a.onReply ||
          a.status == .stopped)) then s.swap (die, core) else s)

/-- PREEMPTION (05 R161, R162): a shadow context of a lower key takes the bank of the running one, outside a plan. -/
def execPreemption (die core : Nat) (s : State) : Result :=
  .next (match s.shadowOf (die, core), s.inBank (die, core) (s.activeBank (die, core)) with
  | some c, some a =>
    if s.claims c && !s.inPlan a && !(s.awaited a.id && s.makesWay c.id) && Key.lt (s.keyOf c) (s.keyOf a) then s.swap (die, core) else s
  | _, _ => s)

/-- The node of a context waits in the pool: the context goes on with the node's dispatch (15 R415). -/
def State.nodePooled (s : State) (c : Ctx) : Bool := (s.launch? c.id.launch).any (fun l => l.poolHolds c.node)

/-- A spilled context that has a node which can go on (05 R161), or that a wave waits for. -/
def State.wantsBank (s : State) (c : Ctx) : Bool :=
  (match c.place with | .spilled _ => true | _ => false) && ((c.status == .running && !s.makesWay c.id) || s.awaited c.id) &&
    !(c.status != .idle && s.nodePooled c)

/-- What wants a bank: a ready node that stands in none, or a spilled context; each with its launch, logical core and key. -/
def State.wanting (s : State) : List (Launch × Node × Nat × Key) :=
  s.launches.flatMap (fun l =>
    if l.run != .running then []
    else
      (List.range l.nodes.length).filterMap (fun i =>
        match l.nodes[i]? with
        | some n => if n.st == .pooled then (lcoreFor s l i n).map (fun c => (l, n, c, (n.deadline, l.num, i))) else none
        | none => none) ++
      (s.ctxs.filter (fun c => c.id.launch == l.num && s.wantsBank c)).filterMap (fun c =>
        (l.nodes[c.node]?).map (fun n => (l, n, c.id.lcore, s.keyOf c))))

/-- SPILL (05 R154, R159): a context leaves its bank where another is to have it, or where another of its wave holds the active one (11
R324). -/
def execSpill (c : CtxId) (s : State) : Result :=
  .next (match s.ctx? c with
  | some x =>
    if s.spillable x && (s.crowded x || s.wanting.any (fun w => match placeFor s w.1 w.2.1 w.2.2.1 w.2.2.2 with
        | some (_, _, _, some v) => v == c
        | _ => false)) then spillCtx c s
    else s
  | none => s)

/-- CONTEXT_RESTORE (05 R159): a spilled context comes into the bank that R154 gives it, another context spilled for it where none is
free. -/
def execContextRestore (c : CtxId) (die core bank : Nat) (s : State) : Result :=
  .next (match s.ctx? c, s.launch? c.launch with
  | some x, some l =>
    match x.place, l.nodes[x.node]? with
    | .spilled _, some n =>
      match placeFor.other s l n c.lcore (s.keyOf x) with
      | some (d, i, b, v) =>
        if l.run == .running && s.wantsBank x && d == die && i == core && b == bank then
          (s.makeRoom (die, core, bank) v).restoreInto c (die, core, bank)
        else s
      | none => s
    | _, _ => s
  | _, _ => s)

/-- DEBUGGER_STOP (14 R391): a debugger or management stops a context, or lets it run on. -/
def execDebuggerStop (c : CtxId) (stop : Bool) (s : State) : Result :=
  .next (s.updCtx c (fun x => { x with debugStop := stop }))

end Sys2Proof.Machine
end

