-- ==== Sys2Proof/Machine/Plans.lean ====
section
/-! DEFINITION. The broadcast core (11): BCAST (R317 to R320), plans (R322 to R325), aborts (R328 to R330), FIBEX (R334) and
the fibre ports (R335). -/
namespace Sys2Proof.Machine

/-- A word of the broadcast core's C; a compute core has none of its opcode (02 R58). -/
def runBcast (h : Hd) (words : Nat) (op : M Unit) (s : State) : Result :=
  runCq h words (do
    let s ← get
    if s.cx.onBcast then op else fault 0x011) s

/-! ## BCAST -/

/-- BCASTs whose light may be to come, per context (11 R318). -/
def bcastLimit : Nat := 16

/-- LB (11 R320). -/
def State.bcastLead (s : State) : Nat := if s.exportMask = 0 then 128 else 640

/-- Steps that a BCAST occupies. -/
def Bcast.span (b : Bcast) : Nat := b.passes * b.u

/-- The step from which its occupancy is over: the end of its last pass, or the abort that ended it (11 R320, R328). -/
def Bcast.over (b : Bcast) : Nat := match b.cut with | some a => min a b.lightEnd | none => b.lightEnd

/-- The first step at which the light of its last pass has ended (11 R319, R321). -/
def Bcast.dark (b : Bcast) : Nat :=
  let n := b.stamp + (b.passes - 1) * b.u + b.t
  match b.cut with | some a => min a n | none => n

/-- It occupies some of a run of steps. -/
def Bcast.occupies (b : Bcast) (x n : Nat) : Bool := decide (b.stamp < b.over) && meets x n b.stamp (b.over - b.stamp)

/-- Row 5 of 11 R318 for one element: every byte of it that is read, and its header. -/
def elemOwn (s : State) (t : Stream) (bk : Bool) (e : Int) : Bool :=
  decide (e < 0) ||
    ((bk || ownBytes s (t.base + (t.span e.toNat).1) (t.span e.toNat).2) &&
      (t.fmt != 8 || ownBytes s (t.hb + e.toNat / 256 * t.sstr) 4))

/-- A fault of a stream on C names no element (14 R384). -/
def plainTrap (t : Trap) : Trap :=
  { t with lkind := 0, lval := 0, aux0 := if t.cause = 0x089 ∨ (0x110 ≤ t.cause ∧ t.cause ≤ 0x112) then t.aux0 else 0 }

/-- The elements of a BCAST, row by row (11 R319). -/
def bcastRun (t : Stream) (kofs k : Nat) : List (List (Nat × Int)) :=
  (List.range t.n1).map (fun r => t.run (t.pos + r * t.n0 + kofs) k)

/-- An SB4 row spans two scale blocks (row 8). -/
def straddles (row : List Element) : Bool :=
  match row with
  | [] => false
  | x :: rest => rest.any (fun y => y.e / 256 != x.e / 256)

/-- The context can hold another BCAST (row 1). -/
def State.bcastRoom (s : State) (c : Ctx) : Bool :=
  decide ((s.light.filter (fun l => l.base == c.pbase.toNat && decide (s.clock < l.dark))).length < bcastLimit)

/-- BCAST (11 R318, R319). Its wait for room is one on a queue. -/
def execBcast (h : Hd) (s0 ak : BitVec 4) (nm1 : BitVec 6) (tm1 : BitVec 4) (wp : BitVec 1) (b0 : BitVec 20) (s : State) :
    Result :=
  runBcast h 2 (withTrap plainTrap (do
    let o ← opsCx
    let s ← get
    let t := s.cx.stream s0
    let n := nm1.toNat + 1
    let steps := tm1.toNat + 1
    let k := n * steps
    let kofs := (o.ra ak).toNat
    let two := t.fmt == 9 && decide (4 < t.prec)
    let b : Bcast := { base := s.opBase.toNat, b0 := b0.toNat, n := n, t := steps, pa := if two then t.prec else 0,
                       wp := wp == 1, rows := [], ea := [] }
    waitUnless (s.bcastRoom o) .window
    require (s.planOpen s.cx.id.launch && s.opBase != 0 && !pastPlan b0.toNat b.span) 0x204
    let (_, bd) ← boundFor s0 false
    require ((t.fmt == 6 || t.fmt == 7 || t.fmt == 8 || t.fmt == 9) && !t.raw && decide (t.n1 ≤ 32)) 0x103
    let run := bcastRun t kofs k
    require (run.all (fun row => row.all (fun p => elemOwn s t bd.bk p.2))) 0x207
    require (decide (kofs + k ≤ t.n0) && decide (t.pos + t.n1 * t.n0 ≤ t.total)) 0x205
    rowFour bd
    let rows ← collectM run (fun row => readElems s.agent 0 s0 t bd row)
    require (t.fmt != 8 || !rows.any straddles) 0x182
    require (decide (s.clock + s.bcastLead ≤ b.stamp)) 0x200
    require (!touchesCalibration b.stamp b.span) 0x202
    require (!s.light.any (fun l => l.occupies b.stamp b.span)) 0x203
    let levels := rows.map (fun row => row.map (elemLevel s.cx t))
    let ea := rows.map (fun row => match row with | x :: _ => blockEw t x | [] => 0)
    modify (fun s => { s with
      light := s.light ++ [{ b with rows := levels, ea := ea ++ List.replicate (32 - ea.length) 0 }]
      plan := s.plan.map (fun p => { p with lastStep := max p.lastStep (b.stamp + b.span) }) }))) s

/-- Change the BCAST of a stamp. -/
def State.updLight (s : State) (b : Nat) (f : Bcast → Bcast) : State :=
  { s with light := s.light.map (fun l => if l.stamp == b then f l else l) }

/-- The broadcast die still sends for the BCAST at a step (11 R328). -/
def Bcast.sends (b : Bcast) (x : Nat) : Bool :=
  match b.cut with
  | some a => decide (x < a)
  | none => true

/-- The side-band of a BCAST is due: step B - 32 (11 R320). -/
def Bcast.sideDue (b : Bcast) (clock : Nat) : Bool := !b.side && decide (b.stamp ≤ clock + 32) && b.sends (b.stamp - 32)

/-- BCAST_SIDEBAND (11 R319, R320): exponents and pass descriptors of the BCAST whose stamp is `b`. -/
def execBcastSideband (b : Nat) (s : State) : Result :=
  .next (s.updLight b (fun l => if l.sideDue s.clock then { l with side := true } else l))

/-- The light of the next pass is due: step B + i U. -/
def Bcast.lightDue (b : Bcast) (clock : Nat) : Bool :=
  b.side && decide (b.lit < b.passes) && decide (b.stamp + b.lit * b.u ≤ clock) && b.sends (b.stamp + b.lit * b.u)

/-- BCAST_LIGHT (11 R319, R320): the light of the next pass of the BCAST whose stamp is `b` begins. -/
def execBcastLight (b : Nat) (s : State) : Result :=
  .next (s.updLight b (fun l => if l.lightDue s.clock then { l with lit := l.lit + 1 } else l))

/-- Steps after its light ends for which the model keeps a BCAST, so that codes delivered later find it. -/
def lightKept : Nat := 64

/-- Light whose codes have all been delivered is forgotten. -/
def State.dropLight (s : State) : State :=
  if s.light.isEmpty then s else { s with light := s.light.filter (fun b => decide (s.clock < b.lightEnd + lightKept)) }

/-! ## Opening a plan (11 R323, R324) -/

/-- The current node of a logical core: the one dispatched to it, else the first in the ready pool that names it. -/
def Launch.currentNode (l : Launch) (c : Nat) : Option Node :=
  (l.nodes.find? (fun n => n.st == .running && n.lcore == c)).or
    (firstBy (fun a b : Node => decide (a.deadline < b.deadline)) (l.nodes.filter (fun n => n.st == .pooled && n.lcoreField == c)))

/-- The participants of a plan, ascending (11 R324). -/
def participants (l : Launch) : List Nat := (List.range l.lcores).filter (fun c => (l.currentNode c).any Node.isPlan)

/-- The waves (11 R324): one where no one takes part. -/
def wavesOf (g : Nat) (ps : List Nat) : List (List Nat) :=
  if ps.length ≤ g then [ps] else chunksOf g ((ps.length + g - 1) / g) ps

/-- The plan of a launch opens: with the snapshot and its waves; or with the snapshot that is kept for it to open again, from its
first wave in waves formed anew (11 R324, R330; 15 R417), or in the wave that it had come to. -/
def beginPlan (snap : Ctx) (s : State) : State :=
  let g := min ((s.launch? snap.id.launch).map (·.grant) |>.getD 0) s.cores.toNat
  let kept := s.snapshots.find? (fun p => p.launch == snap.id.launch && p.phase == .opening)
  let fresh := (s.launch? snap.id.launch).map (fun l => ({ launch := l.num, snapshot := snap, waves := wavesOf g (participants l) } : Plan))
  let opened := (kept.map (fun p => if p.wave = 0 then { p with waves := wavesOf g p.waves.flatten } else p)).or fresh
  { s with
    plan := opened.map (fun p => { p with peersReady := s.exportMask == 0 })
    snapshots := s.snapshots.filter (fun q => q.launch != snap.id.launch) }

/-- The plan of another launch, whose context gave up the broadcast core before a base was published, is kept to open again (11
R336). -/
def State.parkPlan (s : State) : State :=
  match s.plan with
  | some p =>
    if p.phase = .stopping then { s with plan := none }
    else if p.phase = .opening then { s with plan := none, snapshots := s.snapshots ++ [p] }
    else s
  | none => s

/-- The plan of the context in focus. -/
def State.myPlan (s : State) : Option Plan := s.plan.filter (fun p => p.launch == s.cx.id.launch)

/-- L, S and K have stopped at instruction boundaries. -/
def Ctx.stoppedForPlan (c : Ctx) : Bool := !allSeqs.any c.unfinished

/-- PLANB (11 R323): the snapshot is the context before the bundle, so that the bundle can be executed again. -/
def execPlanb (h : Hd) (d : BitVec 4) (s : State) : Result :=
  runBcast h 1 (do
    let o ← opsCx
    let s ← get
    let snap : Ctx := { o with seqC := { o.seqC with waited := 0, awaiting := none } }
    match s.myPlan with
    | some p =>
      match p.phase with
      | .published => do
        modify (fun s => { s with plan := some { p with phase := .running } })
        modCx (fun c => c.wa d (BitVec.ofNat 64 p.base))
      | .running => fault 0x206
      | .closing => fault 0x206
      | .stopping => do
        if s.cx.stoppedForPlan then modify (beginPlan snap) else pure ()
        waitFor .plan
      | _ => waitFor .plan
    | none => do
      modify State.parkPlan
      let s ← get
      if s.plan.isSome then pure ()
      else if s.cx.stoppedForPlan then modify (beginPlan snap)
      else modify (fun s => { s with plan := some { launch := s.cx.id.launch, snapshot := snap, waves := [], phase := .stopping } })
      waitFor .plan) s

/-- A participant is resident and active. -/
def State.activeMember (s : State) (l c : Nat) : Bool := (s.ctx? ⟨l, c⟩).any s.isActive

/-- Its windows of earlier plans are accumulated or INVALID: it can take the base. -/
def Ctx.takesBase (x : Ctx) : Bool := x.wins.all (fun w => w.flags.invalid || w.flags.abort)

/-- PLANB stands in the active bank of the broadcast core and waits. -/
def State.planbWaits (s : State) (l : Nat) : Bool :=
  (s.ctx? ⟨l, Config.bcastLcore⟩).any (fun c => s.isActive c && c.status == .running && c.seqC.awaiting == some .plan)

/-- The wave of the plan is resident and active: a base is taken for it. -/
def State.waveReady (s : State) (p : Plan) : Bool :=
  p.phase == .opening && (s.launch? p.launch).any (fun l => l.run == .running) && p.members.all (fun c => s.activeMember p.launch c)

/-- The base of a plan has reached a context. -/
def Ctx.hasBase (p : Plan) (x : Ctx) : Bool := x.pbase == BitVec.ofNat 64 p.base

/-- The base reaches a participant, which takes its plan-start copy, once it can; nothing changes before, and after. -/
def State.publishTo (p : Plan) (s : State) (c : Nat) : State :=
  s.updCtx ⟨p.launch, c⟩ (fun x => if !x.hasBase p && x.takesBase then { x with pacc := x.acc, pbase := BitVec.ofNat 64 p.base } else x)

/-- Every participant of the wave has the base. -/
def State.allPublished (s : State) (p : Plan) : Bool := p.members.all (fun c => (s.ctx? ⟨p.launch, c⟩).any (Ctx.hasBase p))

/-- The base of a plan reaches the participants that can take it. The last publication ends PLANB: the broadcast core has the base too,
and its L, S and K go on. A joined module has no PLANB (R333). -/
def State.publishWave (s : State) (p : Plan) : State :=
  let s := p.members.foldl (State.publishTo p) s
  if !s.allPublished p then { s with plan := some { p with phase := .publishing } }
  else if s.exporter.isSome then { s with plan := some { p with phase := .running } }
  else { s.updCtx ⟨p.launch, Config.bcastLcore⟩ (fun x => { x with pbase := BitVec.ofNat 64 p.base }) with plan := some { p with phase := .published } }

/-- The least multiple of 4,096 not below the plan clock + 8,192 (11 R323). -/
def State.planBase (s : State) : Nat := (s.clock + 8192 + 4095) / 4096 * 4096

/-- A base is taken for the wave. -/
def Plan.takes (p : Plan) (base : Nat) : Plan := { p with base := base, phase := .publishing, lastStep := 0 }

/-- PLAN_PUBLISH (11 R323, R335): the wave is resident and active, and so are those of the joined modules, so a base is taken and
published to those whose earlier windows are over; the others get it later. -/
def execPlanPublish (s : State) : Result :=
  .next (match s.plan with
  | none => s
  | some p =>
    if p.phase = .publishing then s.publishWave p
    else if s.waveReady p && p.peersReady && s.planbWaits p.launch then s.publishWave (p.takes s.planBase)
    else s)

/-- L, S and K of the broadcast core stand still until PLANB has published the base of the plan that it opens, or opens again (11 R323,
R330); what they have issued completes first. -/
def State.planStops (s : State) (c : Ctx) (q : SeqId) : Bool :=
  c.onBcast && q != .c &&
    (s.plan.any (fun p => p.launch == c.id.launch &&
      (p.phase == .opening || p.phase == .publishing || (p.phase == .stopping && !c.unfinished q))) ||
    s.snapshots.any (fun p => p.launch == c.id.launch && p.phase == .opening))

/-! ## Closing a plan (11 R325) -/

/-- PLANE (11 R325). -/
def execPlane (h : Hd) (s : State) : Result :=
  runBcast h 1 (do
    let s ← get
    if s.cx.planeDone then modCx (fun c => { c with planeDone := false })
    else
      match (s.myPlan.map Plan.phase : Option PlanPhase) with
      | some .running => do
        modify (fun s => { s with plan := s.plan.map (fun p => { p with phase := .closing }) })
        waitFor .plan
      | some .closing => waitFor .plan
      | _ => fault 0x206) s

/-- PLANE waits and the plan clock has passed the last occupied step. -/
def State.closeDue (s : State) : Bool :=
  match s.plan with
  | some p => p.phase == .closing && decide (p.lastStep ≤ s.clock)
  | none => false

/-- ss.pbase becomes 0 for the wave (11 R325). -/
def State.closeWave (s : State) (p : Plan) : State :=
  p.members.foldl (fun s c => s.updCtx ⟨p.launch, c⟩ (fun x => { x with pbase := 0 })) s

/-- The plan in its next wave; `alone` says that no module is joined to it. -/
def Plan.nextWave (p : Plan) (alone : Bool) : Plan :=
  { p with phase := .opening, wave := p.wave + 1, base := 0, lastStep := 0, peersReady := alone }

/-- PLAN_CLOSE (11 R325, R332): the next wave starts again from the snapshot; after the last, of this module and of those joined to it
(R333), the snapshot is discarded and PLANE retires. -/
def execPlanClose (s : State) : Result :=
  .next (match s.plan with
  | none => s
  | some p =>
    if s.closeDue then
      let s := s.closeWave p
      let b : CtxId := ⟨p.launch, Config.bcastLcore⟩
      if p.wave + 1 < max p.waves.length s.peerWaves then
        { s.updCtx b (fun x => x.fromSnapshot p.snapshot) with plan := some (p.nextWave (s.exportMask == 0)) }
      else { s.updCtx b (fun x => { x with closed := x.pbase, pbase := 0, planeDone := true }) with plan := none, peerWaves := 0 }
    else s)

/-! ## Aborts (11 R327 to R329) -/

/-- The plan has run past its bound (11 R327). -/
def State.overrunDue (s : State) : Bool :=
  match s.plan with
  | some p => p.phase.isOpen && s.exporter.isNone && decide (p.base + planSpan + 4096 ≤ s.clock)
  | none => false

/-- PLAN_OVERRUN (11 R327): the broadcast core faults "plan overrun", which aborts the plan. -/
def execPlanOverrun (s : State) : Result :=
  .next (match s.plan with
  | none => s
  | some p =>
    if s.overrunDue then
      let back := s.cx.id
      let s1 := s.focus ⟨p.launch, Config.bcastLcore⟩
      (s1.takeFault { cause := 0x201 } 1 (instrAt s1.cx .c (wordIx s1.cx.seqC.pc))).focus back
    else s)

/-- R290 for a participant: windows and held output of the plan are discarded, the file restored, and "plan aborted"
recorded with the abort step. A window that has met no light for a step until then keeps that in its entry (10 R309). DESIGN CHOICE (log
28): output whose writes have been sent or accepted and not performed is still held, so it is discarded too, and POS stays. -/
def Ctx.abortPlan (c : Ctx) (light : List Bcast) (now base step : Nat) : Ctx :=
  let gone := (c.epi.filter (fun e => e.base == base)).filterMap (·.win)
  ({ c with
    wins := c.wins.map (fun w => if w.base = base then
      { w with
        flags := { w.flags with abort := true, invalid := true, absent := w.flags.absent || w.darkBy light now }
        ported := w.ported || w.port == 0 } else w)
    epi := c.epi.filter (fun e => e.base != base)
    held := c.held.map (fun h => if gone.contains h.serial then { h with ready := true } else h)
    acc := c.pacc, pbase := 0
    deferred := c.deferred ++ [⟨.abort, step, { cause := 0x208, lkind := 2 }⟩] } : Ctx).flushStatus

/-- The word is a WACC of any action (10 R312). -/
def isWacc (w : Nat) : Bool :=
  match decode .c w with
  | .ok (.waccRd _ _ _) => true
  | .ok (.waccWr _ _ _) => true
  | .ok (.waccClr _ _) => true
  | .ok (.waccEpi _ _ _) => true
  | _ => false

/-- C stands in a wait on oq or in a WACC, whatever that waits for but a token (11 R329); one that is parked does too. -/
def Ctx.stuckOnPlan (c : Ctx) : Bool :=
  (c.status == .running || c.status == .yielded || c.status == .parked) && !c.seqC.halted &&
    c.seqC.awaiting.any (fun a => a == .oqEntry ||
      (!a.isToken && a != .plan && isWacc (instrAt c .c (wordIx c.seqC.pc + c.seqC.off))))

/-- One participant of an aborted plan, which its base has reached. Where its bank is shadow, its C awaits the plan's end, and takes the fault when the
context is active again (14 R398). -/
def abortMember (p : Plan) (step : Nat) (s : State) (c : Nat) : State :=
  let id : CtxId := ⟨p.launch, c⟩
  match s.ctx? id with
  | none => s
  | some x =>
    if !x.hasBase p then s else
    let s := s.updCtx id (fun x => x.abortPlan s.light s.clock p.base step)
    if !x.stuckOnPlan then s
    else if s.isActive x then raiseBankAt id s
    else s.updCtx id (fun x => { x with
      status := if x.status = .yielded then .running else x.status
      seqC := { x.seqC with awaiting := some .plan } })

/-- PLAN_ABORT (11 R328, R329): the participants of the running wave are told; the snapshot is kept (R330). -/
def execPlanAbort (s : State) : Result :=
  .next (match s.plan with
  | none => s
  | some p =>
    match p.phase with
    | .aborting step =>
      let s := p.members.foldl (abortMember p step) s
      { s.updCtx ⟨p.launch, Config.bcastLcore⟩ (fun x => { x with pbase := 0 }) with
        plan := none, peerWaves := 0
        snapshots := if s.exporter.isSome then s.snapshots else s.snapshots ++ [{ p with phase := .aborted }] }
    | _ => s)

/-! ## Fibre ports (11 R334, R335) -/

/-- The peers in the status word: 0x3FFF for none. -/
def peerField (ps : List (Nat × Nat)) (p : Nat) : Nat := (look ps p).getD 0x3FFF

/-- The status word of FIBEX. -/
def fibreWord (s : State) : DWord :=
  BitVec.ofNat 64 (s.exportMask.toNat * 2 ^ 60 + s.fibreUp.toNat * 2 ^ 56 +
    lay 0 14 ((List.range 4).map (peerField s.peers)))

/-- FIBEX with fn 0. -/
def execFibexRd (h : Hd) (d : BitVec 4) (s : State) : Result :=
  runBcast h 1 (do let s ← get; modCx (fun c => c.wa d (fibreWord s))) s

/-- The ports that have a peer. -/
def joinedPorts (s : State) : Nat := ((List.range 4).map (fun p => if (look s.peers p).isSome then 2 ^ p else 0)).foldl (· + ·) 0

/-- FIBEX with fn 1: a port without a peer is ignored. -/
def execFibexSet (h : Hd) (a : BitVec 4) (s : State) : Result :=
  runBcast h 1 (do
    replayable
    let o ← opsCx
    let v := o.ra a
    require (decide (v.toNat < 16)) 0x011
    modify (fun s => { s with exportMask := v.setWidth 4 &&& BitVec.ofNat 4 (joinedPorts s) })) s

/-- The port leads to the exporter of this module. -/
def State.fromExporter (s : State) (port : Nat) : Bool := s.exporter.isSome && look s.peers port == s.exporter

/-- FIBRE_LIGHT_LOSS (11 R335): the UP bit of the port clears. On a joined module the exporter's light ends. DESIGN CHOICE (log 26):
every window from the loss onward is ABSENT to the end of the open plan, even where the light returns before. -/
def execFibreLightLoss (port : Nat) (s : State) : Result :=
  .next { s with
    fibreUp := s.fibreUp &&& ~~~(BitVec.ofNat 4 (2 ^ port))
    plan := if s.fromExporter port then s.plan.map (fun p => { p with dark := p.dark || p.phase.isOpen }) else s.plan
    light := if s.fromExporter port then s.light.map (·.cutAt s.clock) else s.light }

/-- FIBRE_LIGHT_RETURN (11 R334, R335): the UP bit of a port with a joined peer sets. -/
def execFibreLightReturn (port : Nat) (s : State) : Result :=
  .next (if (look s.peers port).isSome then { s with fibreUp := s.fibreUp ||| BitVec.ofNat 4 (2 ^ port) } else s)

/-! ## A domain joined by fibre (11 R333; log 26) -/

/-- A port to the exporter has working light. -/
def State.exportLit (s : State) : Bool := (List.range 4).any (fun p => s.fromExporter p && s.fibreUp.getLsbD p)

/-- The light of an exporter's BCAST under a base. -/
def bcastFrom (l : ExportedLight) (base : Nat) : Bcast :=
  { base := base, b0 := l.b0, n := l.n, t := l.t, pa := l.pa, wp := l.wp, rows := l.rows, ea := l.ea }

/-- A joined module takes its plans from the exporter: its own machine forms the participants and the waves. The exporter publishes a
base when the wave here is resident and active; a wave that has taken none is still to run at the next (R333). -/
def joinedPlan (e : DomainEvent) (s : State) : State :=
  match e, s.plan with
  | .opens n, none =>
    match s.launch? n with
    | some l =>
      if l.bc then
        { s with plan := some { launch := n, snapshot := {}, waves := wavesOf (min l.grant s.cores.toNat) (participants l) } }
      else s
    | none => s
  | .publishes base, some p =>
    if s.waveReady p then s.publishWave (p.takes base) else s
  | .lights l, some p =>
    if p.phase.isOpen && !p.dark && s.exportLit then { s with light := s.light ++ [bcastFrom l p.base] } else s
  | .closes last, some p =>
    if !p.phase.isOpen then s
    else
      let s := s.closeWave p
      { s with plan := if last && decide (p.waves.length ≤ p.wave + 1) then none else some (p.nextWave true) }
  | .aborts, some p =>
    if p.phase.isOpen then { s with plan := some (p.aborts s.clock), light := s.light.map (·.cutAt s.clock) } else s
  | _, _ => s

/-- What another module of the domain tells. An abort on a joined module is one on the exporter (R328). -/
def domainEvent (e : DomainEvent) (s : State) : State :=
  if s.exporter.isSome then joinedPlan e s
  else
    match e, s.plan with
    | .waves n ready, some p => { s with peerWaves := n, plan := some { p with peersReady := ready } }
    | .preempted, some p =>
      if p.phase.isOpen then
        ((s.focus ⟨p.launch, Config.bcastLcore⟩).takeFault { cause := 0x318, srce := some 8, noInstr := true } 8 0).focus s.cx.id
      else s
    | _, _ => s

end Sys2Proof.Machine
end

