-- ==== Sys2Proof/Machine/Resume.lean ====
section
/-! DEFINITION. The path of a frame (14 R385 to R387), RESUME (R388), and the device-fatal path (R392, R393). -/
namespace Sys2Proof.Machine

/-- The launch of a context is frozen or on its way to it, and the context is not its handler's (15 R399). -/
def State.frozen (s : State) (c : CtxId) : Bool :=
  c.lcore != Config.handlerLcore && (s.launch? c.launch).any (fun l => l.run != .running)

/-- A frame that firmware alone disposes of, or that ends the launch. -/
def Frame.settlesFirst (f : Frame) : Bool := routeOf f.cause == .firmware || routeOf f.cause == .deviceFatal

/-- No frame of the context goes out: its launch is FROZEN, or FREEZING with a frame that its image records. One that firmware alone
disposes of, or that ends the launch, still goes (15 R402, R421). -/
def State.keepsFrame (s : State) (c : CtxId) (f : Frame) : Bool :=
  s.frozen c && !(f.settlesFirst && (s.launch? c.launch).any (fun l => l.run == .freezing))

/-- The slot of a bank holds a frame (14 R385). -/
def State.slotTaken (s : State) (p : Place) : Bool :=
  match p with
  | .bank d i b => s.slots.any (fun e => e.die == d && e.core == i && e.bank == b)
  | _ => true

/-- The mailbox slot that a context's frame goes into. -/
def mailSlot (x : Ctx) (f : Frame) : MailSlot :=
  match x.place with
  | .bank d i b => { ctx := x.id, die := d, core := i, bank := b, frame := f, stop := x.stopAt }
  | _ => { ctx := x.id, die := 0, core := 0, bank := 0, frame := f, stop := x.stopAt }

/-- FAULT_FRAME_WRITE (14 R385): a stopped core writes its frame into the mailbox slot of its bank, once its issued
instructions have retired; while the slot holds another frame it waits. -/
def execFaultFrameWrite (c : CtxId) (s : State) : Result :=
  .next (match s.ctx? c with
  | some x =>
    match x.frameOut with
    | some f => if s.keepsFrame c f || x.draining || s.slotTaken x.place then s
      else { s.updCtx c (fun x => { x with frameOut := none }) with slots := s.slots ++ [mailSlot x f] }
    | none => s
  | none => s)

/-- Put a frame into the handler's queue, by stop step and then logical core (14 R386). -/
def queueFrame (q : List (Nat × Frame)) (step : Nat) (f : Frame) : List (Nat × Frame) :=
  q.filter (fun e => decide (e.1 < step) || (e.1 == step && decide (e.2.lcore ≤ f.lcore))) ++ [(step, f)] ++
  q.filter (fun e => !(decide (e.1 < step) || (e.1 == step && decide (e.2.lcore ≤ f.lcore))))

/-- The launches lost to a condition end with STATUS 4 and its cause (14 R393). -/
def State.loseLaunches (s : State) (ls : List Nat) (cause : Nat) : State :=
  ls.foldl (fun s n => s.endLaunch n 4 cause) s

/-- Firmware writes page-table entries. -/
def writeEntries (m : Memory) (es : List (Nat × BitVec 128)) : Memory :=
  es.foldl (fun m e => m.writeN e.1 (natBytes 16 e.2.toNat)) m

/-- The streams walk afresh where their windows were revoked (04 R136). -/
def Ctx.dropRevoked (c : Ctx) : Ctx :=
  { c with streams := c.streams.map (fun t => { t with pages := t.pages.filter (fun p => p.revoked.isNone) }) }

/-- A sequencer is to execute its instruction again: the count of its wait starts again, and of a transfer only the chunks that an LDZ
has delivered stay (07 R225). -/
def SeqState.again (st : SeqState) : SeqState :=
  { st with waited := 0, awaiting := none, acked := false, flight := st.flight.filter (fun f => decide (0 < f.chunks)) }

/-- A context goes on from its recorded program counters (14 R386, R388): the counts of its waits start again, and its next
issue acquires at .dev. -/
def resumeCtx (c : CtxId) (s : State) : State :=
  s.updCtx c (fun x => ({ x.dropRevoked with status := .running, acquires := true }).updSeqs
    SeqState.again)

/-- A frame is disposed of and its context becomes ready (14 R388): the slot is free, the context of a plan is restored from the
snapshot (11 R330), and for SRCE 7 the machine reads the operand list and the argument block again (05 R147). -/
def resumeFrame (c : CtxId) (f : Frame) (s : State) : State :=
  let back := s.cx.id
  let s := { s with slots := s.slots.filter (fun e => e.ctx != c) }
  let s := if f.plan && c.lcore == Config.bcastLcore then s.restorePlan c.launch else s
  let s := resumeCtx c s
  if f.srce = 7 then
    match s.launch? c.launch with
    | none => s
    | some l =>
      match l.nodes[f.node]? with
      | some n => (loadNode l n (s.focus c)).focus back
      | none => s
  else s

/-- A frame is handed to the launch's handler, or ends the launch (14 R387, R389): it has no handler, or the handler
itself faulted. A handler that has frozen its own launch only ends (15 R421). -/
def toHandler (c : CtxId) (stop : Nat) (f : Frame) (s : State) : State :=
  match s.launch? c.launch with
  | none => s
  | some l =>
    if c.lcore = Config.handlerLcore ∧ l.run = .frozen then
      { s.updCtx c (fun x => { x with status := .idle, place := .unplaced, lastDone := s.clock }) with
        slots := s.slots.filter (fun e => e.ctx != c) }
    else if c.lcore = Config.handlerLcore ∨ l.handler = 0xFFFF then s.endLaunch l.num 3 f.cause
    else s.updLaunch l.num (fun l => { l with frames := queueFrame l.frames stop f })

/-- What revoked the window that a frame of "mapping revoked" names (04 R136). -/
def State.revocationOf (s : State) (c : CtxId) (f : Frame) : Option Revocation :=
  match s.ctx? c with
  | none => none
  | some x => (x.streams.toList.flatMap Stream.pages).findSome? (fun p => if p.covers f.va then p.revoked else none)

/-- FRAME_ROUTING (14 R386): the frame in a slot goes by the route of its cause. Firmware resolves a revocation caused by migration,
and one caused by unmapping reaches the handler (04 R136). Or firmware disposes of a hardware-error report. -/
def execFrameRouting (c : CtxId) (choice : FirmwareChoice) (s : State) : Result :=
  .next (match choice, s.slots.find? (fun e => e.ctx == c && !e.routed) with
  | .report die, _ => { s with reports := s.reports.eraseP (fun r => r.1 == die) }
  | _, none => s
  | _, some e =>
    let f := e.frame
    let pass := toHandler c e.stop f { s with slots := s.slots.map (fun x => if x == e then { x with routed := true } else x) }
    let gone := { s with slots := s.slots.filter (fun x => x != e) }
    match routeOf f.cause, choice with
    | .handler, _ => pass
    | .firmwareFirst, .resolve es =>
      if s.revocationOf c f = some .unmapping then pass else resumeFrame c f { s with mem := writeEntries s.mem es }
    | .firmwareFirst, _ => if s.revocationOf c f = some .migration then resumeFrame c f s else pass
    | .firmware, _ => resumeCtx c (gone.restorePlan c.launch)
    | .deviceFatal, _ => gone.loseLaunches [c.launch] f.cause)

/-! ## RESUME (14 R388) -/

/-- Program counter of a sequencer in a frame of 2,048 bits. -/
def framePc (f : Nat) (q : SeqId) : DWord := BitVec.ofNat 64 (bits f (191 + 64 * seqNum q) (128 + 64 * seqNum q))

/-- The frame in memory names the frame held. -/
def namesFrame (f : Nat) (held : Frame) : Bool :=
  bits f 1407 1344 == held.serial % 2 ^ 64 && bits f 127 64 == held.launchNo % 2 ^ 64 && bits f 46 40 == held.lcore % 2 ^ 7 &&
  bits f 63 48 == held.node % 2 ^ 16

/-- A sequencer takes its program counter from the frame: a changed one discards the pending transfer. -/
def resumeSeq (st : SeqState) (old new : DWord) : SeqState :=
  if new = old then st.again else { st.again with pc := new, pend := none, line := none, flight := none }

/-- The delivered program counter of a sequencer. -/
def heldPc (f : Frame) (q : SeqId) : DWord := (f.pcs[seqNum q]?).getD 0

/-- The checks of RESUME on the program counters. -/
def pcsOk (f : Nat) (held : Frame) : Bool :=
  allSeqs.all (fun q =>
    let p := framePc f q
    p.toNat % 4 == 0 && (wordIx p != 0 || p == heldPc held q))

/-- Read the frame, and check that the running node is the handler and holds it. -/
def heldFrame (a : BitVec 5) : M (Launch × Frame × Nat) := do
  let s ← get
  match s.launch? s.cx.id.launch with
  | none => fault 0x311
  | some l =>
    if s.cx.id.lcore ≠ Config.handlerLcore then fault 0x311
    else do
      let va := s.cx.rx a
      let b ← readMem s.agent 0 va 256
      let f := leNat b
      match l.held with
      | none => faultAt 0x311 va
      | some held => if namesFrame f held then pure (l, held, f) else faultAt 0x311 va

/-- The broadcast core is to go on elsewhere than at the PLANB that was to open a plan. -/
def State.leavePlanb (s : State) (l : Nat) : State :=
  { s with
    plan := s.plan.filter (fun p => p.launch != l || !(p.phase == .stopping || p.phase == .opening))
    snapshots := s.snapshots.filter (fun p => p.launch != l || p.phase != .opening) }

/-- RESUME with fn 0: the context becomes ready and issues from the program counters of the frame. -/
def execResume (h : Hq) (a : BitVec 5) (s : State) : Result :=
  runK h 1 (do
    let (l, held, f) ← heldFrame a
    release 3
    if !pcsOk f held then fault 0x311
    else do
      let c : CtxId := ⟨l.num, held.lcore⟩
      modify (fun s => s.updLaunch l.num (fun l => { l with held := none }))
      modify (fun s => s.updCtx c (fun x =>
        let x := allSeqs.foldl (fun x q => x.updSeq q (fun st => resumeSeq st (heldPc held q) (framePc f q))) x
        if framePc f .k = heldPc held .k then x else { x with arrived := none, remote := none }))
      if held.lcore = Config.bcastLcore ∧ framePc f .c ≠ heldPc held .c then modify (fun s => s.leavePlanb l.num) else pure ()
      modify (resumeFrame c held)) s

/-- RESUME with fn 1: the launch is terminated with STATUS 3 and the frame's cause (14 R389). -/
def execResumeTerm (h : Hq) (a : BitVec 5) (s : State) : Result :=
  runK h 1 (do
    let (l, _, f) ← heldFrame a
    release 3
    modify (fun s => s.endLaunch l.num 3 (bits f 9 0))) s

end Sys2Proof.Machine
end

