-- ==== Sys2Proof/Machine/Image.lean ====
section
/-! DEFINITION. Logical core records (15 R407 to R410): a context as bytes, and a context from its record.

A run of bytes is a number, the lowest byte in bits [7:0]. -/
namespace Sys2Proof.Machine

/-- A value at a byte offset. -/
def at8 (off v : Nat) : Nat := v * 2 ^ (8 * off)
/-- `n` bytes at an offset of a run of bytes. -/
def get8 (b off n : Nat) : Nat := b / 2 ^ (8 * off) % 2 ^ (8 * n)
/-- Values of `n` bytes each, side by side. -/
def pack8 (n : Nat) (vs : List Nat) : Nat := packBits (8 * n) vs
/-- Sums. -/
def sumOf (vs : List Nat) : Nat := vs.foldl (· + ·) 0
/-- Offsets are aligned to 64 bytes. -/
def align64 (n : Nat) : Nat := (n + 63) / 64 * 64
/-- A flag as a bit. -/
def bitOf (b : Bool) : Nat := if b then 1 else 0
/-- An integer in `n` bits. -/
def intBits (n : Nat) (i : Int) : Nat := (i % 2 ^ n).toNat

/-- The registers of a file, from register 0 up. -/
def Regs.nats {k w : Nat} (r : Regs k w) : List Nat := r.toList.map BitVec.toNat
/-- A file whose registers stand side by side from an offset, `n` bytes each. -/
def regsFrom (k w n b off : Nat) : Regs k w := Vector.ofFn (fun i => BitVec.ofNat w (get8 b (off + n * i.val) n))

/-! ## The sections of a record (15 R408 to R410) -/

/-- A section: its ID, its length and its bytes. -/
structure Section where
  id : Nat
  len : Nat
  val : Nat
  deriving DecidableEq, Repr

/-- A pending transfer in SEQ. -/
def pendBytes (p : Option Pend) : Nat :=
  match p with
  | none => 0
  | some t => t.target.toNat + at8 8 (pstateOf p).toNat
/-- A pending transfer from SEQ. -/
def pendFrom (b : Nat) : Option Pend :=
  if bit (get8 b 8 1) 0 then some ⟨BitVec.ofNat 64 (get8 b 0 8), bit (get8 b 8 1) 1, bits (get8 b 8 1) 3 2⟩ else none

/-- The counts of the present waits: of the four sequencers, then of the streams of L and of S. A wait of a transfer is its
stream's (14 R391). -/
def waitCount (st : SeqState) : Nat := if st.flight.isSome then 0 else st.waited
def streamCount (st : SeqState) : Nat := if st.flight.isSome then st.waited else 0

/-- SEQ (15 R409) of a context in a node. -/
def seqBytes (c : Ctx) : Nat :=
  pack8 8 (Regs.nats c.x) + at8 0x100 (pack8 8 (Regs.nats c.y)) + at8 0x180 (pack8 8 (Regs.nats c.z)) +
  at8 0x200 (pack8 8 (Regs.nats c.a)) + at8 0x280 (pack8 8 (Regs.nats c.m)) +
  at8 0x300 (pack8 8 (allSeqs.flatMap (fun q => Regs.nats (c.seq q).j))) +
  at8 0x380 (pack8 8 (allSeqs.map (fun q => (c.seq q).pc.toNat))) +
  at8 0x3A0 (pack8 16 (allSeqs.map (fun q => pendBytes (c.seq q).pend))) +
  at8 0x3E0 (pack8 1 (allSeqs.map (fun q => packBits 1 ((List.range 8).map (fun i => bitOf ((c.seq q).rq (BitVec.ofNat 3 i))))))) +
  at8 0x3E4 (packBits 1 (allSeqs.map (fun q => bitOf (c.seq q).halted))) +
  at8 0x3E8 c.bundles.toNat +
  at8 0x3F0 (match c.arrived with | some (g, n) => 1 + g * 2 + n.toNat * 2 ^ 32 | none => 0) +
  at8 0x3F8 c.wdb.toNat +
  at8 0x480 (pack8 4 (allSeqs.map (fun q => waitCount (c.seq q)) ++
    [c.copy.waited, streamCount c.seqL, streamCount c.seqS, match c.epi.head? with | some e => e.waited | none => 0])) +
  at8 0x4A0 (pack8 1 (c.tok.toList.map BitVec.toNat))

/-- The watchpoints in SEQ, which a logical core keeps without a node (05 R148). -/
def watchBytes (c : Ctx) : Nat := at8 0x400 (pack8 8 (Regs.nats c.wpa ++ Regs.nats c.wpc))

/-- SFU: 4,240 bytes for each pending write. -/
def sfuBytes (w : SfuWrite) : Nat := w.reg.toNat + w.left * 2 ^ 8 + at8 8 w.mask.toNat + at8 136 w.value.toNat

/-- QUEUE. -/
def queueSection (c : Ctx) : Section :=
  let imgs := c.lq.toList.flatten ++ c.sq.toList.flatten ++ c.oq
  { id := 5, len := 16 + 4096 * imgs.length + 256 * c.iq.length
    val := pack8 1 (c.lq.toList.map List.length ++ c.sq.toList.map List.length ++ [c.oq.length, c.iq.length]) +
      at8 16 (pack8 4096 (imgs.map BitVec.toNat)) + at8 (16 + 4096 * imgs.length) (pack8 256 (c.iq.map BitVec.toNat)) }

/-- A stream in STREAM. -/
def streamBytes128 (t : Stream) : Nat :=
  pack8 8 (t.f.toList.map BitVec.toNat) + at8 104 t.bound.toNat +
  (match t.bind with
   | some b => at8 112 (1 + 2 * bitOf b.write + 4 * bitOf b.bk + 8 * bitOf b.epi) + at8 113 b.buf.toNat
   | none => 0)

/-- An activation table in OPTICS. -/
def actBytes (t : ActTable) : Nat := t.slope.toNat + at8 256 t.icpt.toNat + at8 512 t.lo.toNat + at8 516 (intBits 32 t.w)

/-- OPTICS. -/
def opticsBytes (c : Ctx) : Nat :=
  pack8 16 (Regs.nats c.lvt) + at8 128 (pack8 528 (c.act.toList.map actBytes)) +
  at8 2240 (pack8 8 (Regs.nats c.wsh ++ Regs.nats c.wep ++ [c.wpol.toNat])) + at8 2312 c.wstat.length +
  at8 2320 (pack8 40 (c.wstat.map (fun w => w.summary.toNat + at8 8 w.mask.toNat)))

/-- A weight slot in WSLOT. -/
def slotBytes (t : Option Tile) : Nat :=
  match t with
  | none => 0
  | some t =>
    1 + (match t.kind with | .ni8 p => 2 + p * 4 | .sb4 => 2 ^ 27 | .int4 => 0) + t.nc * 2 ^ 8 + t.kw * 2 ^ 16 +
    at8 16 (pack8 4 (t.exps.map (fun col => pack8 1 (col.map (intBits 8))))) +
    at8 48 (pack8 1024 (t.weights.map (fun col => pack8 1 (col.map (intBits 8)))))

/-- A held tile in EPI. -/
def epiBytes (e : EpiTile) : Nat := e.epi.toNat + at8 16 (pack8 4 e.x)

/-- A queued command in COPY. -/
def copyBytes (k : CopyCmd) : Nat :=
  pack8 8 [k.ticket.toNat, k.dst.toNat, k.src.toNat, k.len + k.bound * 2 ^ 32, k.words]

/-- Faults of tile entries by their index. -/
def byTile : List (Nat × Trap) → List (Nat × Trap)
  | [] => []
  | f :: fs => let r := byTile fs; r.takeWhile (fun g => decide (g.1 < f.1)) ++ [f] ++ r.dropWhile (fun g => decide (g.1 < f.1))

/-- The deferred faults of a context, in the order of the engines (14 R382), those of tile entries by their index. -/
def Ctx.deferredTraps (c : Ctx) : List Trap :=
  c.deferred.map Deferred.raised ++ c.copy.faults.map copyTrap ++ (byTile c.tileFaults).map (fun f => tileRaised f.2)

/-- A fault in DEFER. -/
def deferBytes (t : Trap) : Nat :=
  t.cause % 2 ^ 10 + (t.srce.getD 0) * 2 ^ 12 + at8 8 (pack8 8 [t.aux0 % 2 ^ 64, t.aux1 % 2 ^ 64, t.va.toNat])

/-- The bytes of a frame page. -/
def pageBytes (m : Memory) (p : Nat) : Nat :=
  sumOf ((m.filter (fun e => e.1 / 4096 == p)).map (fun e => at8 (e.1 % 4096) e.2.toNat))

/-- FRAME: the map of present pages, and the pages. -/
def frameSection (m : Memory) : Section :=
  let here := (List.range 1024).filter (fun p => m.any (fun e => e.1 / 4096 == p))
  { id := 15, len := 128 + 4096 * here.length
    val := sumOf (here.map (fun p => 2 ^ p)) + at8 128 (pack8 4096 (here.map (pageBytes m))) }

/-- The sections of a context: of one in a node, or what a logical core keeps without one (05 R148). -/
def Ctx.sections (c : Ctx) : List Section :=
  let kept : List Section :=
    [⟨7, 512, pack8 8 (c.bufs.toList.map (fun b => b.record.toNat))⟩,
     ⟨8, 32768, pack8 1024 (Regs.nats c.acc ++ Regs.nats c.pacc)⟩]
  (if c.status = .idle then
    ⟨0, 2048, watchBytes c⟩ :: kept ++ [⟨9, 3600, opticsBytes { c with wstat := [] }⟩, frameSection c.spad]
  else
    [⟨0, 2048, seqBytes c + watchBytes c⟩, ⟨1, 65536, pack8 4096 (Regs.nats c.v)⟩,
     ⟨2, 8192, pack8 128 ((List.range 64).map (fun i => (c.rp (BitVec.ofNat 6 i)).toNat))⟩,
     ⟨3, 65536, pack8 16384 (Regs.nats c.t)⟩, ⟨4, 4240 * c.sfu.length, pack8 4240 (c.sfu.map sfuBytes)⟩,
     queueSection c, ⟨6, 2048, pack8 128 (c.streams.toList.map streamBytes128)⟩] ++ kept ++
    [⟨9, 3600, opticsBytes c⟩, ⟨10, 32960, pack8 8240 (c.slots.toList.map slotBytes)⟩,
     ⟨11, 8 + 1040 * c.epi.length, c.epi.length + at8 8 (pack8 1040 (c.epi.map epiBytes))⟩,
     ⟨12, 32 + 40 * c.copy.queue.length, pack8 8 [c.copy.iseq.toNat, c.copy.cseq.toNat,
        c.copy.chain.toNat + bitOf c.copy.isOpen * 2 ^ 32, c.copy.queue.length] + at8 32 (pack8 40 (c.copy.queue.map copyBytes))⟩,
     ⟨13, 8 + 32 * c.deferredTraps.length, c.deferredTraps.length + at8 8 (pack8 32 (c.deferredTraps.map deferBytes))⟩,
     ⟨14, 256, match c.frameOut with | some f => f.bits | none => 0⟩, frameSection c.spad]).filter (fun x => x.val != 0)

/-- STATE of a record. -/
def Ctx.recState (c : Ctx) : Nat := if c.status = .idle then 0 else if c.status = .stopped then 2 else 1

/-- Runs of bytes laid one after another from an offset, each aligned to 64 bytes: their offsets, and the end. -/
def layOut : Nat → List Nat → List Nat × Nat
  | o, [] => ([], align64 o)
  | o, n :: ns => let r := layOut (align64 o + n) ns; (align64 o :: r.1, r.2)

/-- MAGIC of a record. -/
def recordMagic : Nat := 0x4C434F52

/-- The record of a logical core: its length and its bytes (15 R407). One that has never had a context has what R148 keeps, as at a
launch's start. -/
def recordOf (lcore : Nat) (x : Option Ctx) : Nat × Nat :=
  let c := x.getD {}
  let secs := c.sections
  let (offs, len) := layOut 320 (secs.map Section.len)
  let dir := (List.zip secs offs).map (fun p => p.2 + p.1.len * 2 ^ 64 + p.1.id * 2 ^ 96)
  let st := c.recState
  let node := if st = 0 then 0 else c.node
  (len, recordMagic + len * 2 ^ 64 + lcore * 2 ^ 128 + st * 2 ^ 136 + node * 2 ^ 144 + secs.length * 2 ^ 160 +
    at8 64 (pack8 16 dir) + sumOf ((List.zip secs offs).map (fun p => at8 p.2 p.1.val)))

/-! ## A context from its record -/

/-- The directory entries of a record: ID, offset and length. -/
def recDir (r : Nat) : List (Nat × Nat × Nat) :=
  (List.range (bits r 167 160)).map (fun i =>
    let e := get8 r (64 + 16 * i) 16
    (bits e 103 96, bits e 63 0, bits e 95 64))

/-- The bytes of a section; zero where the record leaves it out. -/
def secOf (r i : Nat) : Nat :=
  match (recDir r).find? (fun e => e.1 == i) with
  | some (_, off, len) => get8 r off len
  | none => 0

/-- Entries of a queue in QUEUE: `n` of them after the first `k`. -/
def imagesAt (b k n : Nat) : List Image := (List.range n).map (fun i => BitVec.ofNat 32768 (get8 b (16 + 4096 * (k + i)) 4096))

/-- Entries of the ten counts in QUEUE. -/
def queueCounts (b : Nat) : List Nat := (List.range 10).map (fun i => get8 b i 1)
/-- Entries that stand before count `i`. -/
def entriesBefore (ns : List Nat) (i : Nat) : Nat := sumOf (ns.take i)

/-- The length that a section of an ID must have; none where the ID is unknown. -/
def secLength (i b : Nat) (len : Nat) : Option Nat :=
  match i with
  | 0 => some 2048
  | 1 => some 65536
  | 2 => some 8192
  | 3 => some 65536
  | 4 => some (len / 4240 * 4240)
  | 5 => let ns := queueCounts b; some (16 + 4096 * sumOf (ns.take 9) + 256 * (ns[9]?).getD 0)
  | 6 => some 2048
  | 7 => some 512
  | 8 => some 32768
  | 9 => some 3600
  | 10 => some 32960
  | 11 => some (8 + 1040 * get8 b 0 1)
  | 12 => some (32 + 40 * get8 b 24 8)
  | 13 => some (8 + 32 * get8 b 0 8)
  | 14 => some 256
  | 15 => some (128 + 4096 * ((List.range 1024).filter (fun p => bit (get8 b 0 128) p)).length)
  | _ => none

/-- A buffer from its record (07 R222). -/
def bufferFrom (v : Nat) : Buffer :=
  if bit v 6 then { declared := true, prod := BitVec.ofNat 2 (bits v 3 2), cons := BitVec.ofNat 2 (bits v 5 4),
                    st := BitVec.ofNat 2 (bits v 1 0), off64 := bits v 45 30, len64 := bits v 62 46, fp := bits v 29 7 }
  else {}

/-- A stream from STREAM; it holds no page (15 R408). -/
def streamFrom (b : Nat) : Stream :=
  { f := Vector.ofFn (fun i => BitVec.ofNat 64 (get8 b (8 * i.val) 8)), bound := BitVec.ofNat 32 (get8 b 104 4)
    bind := if bit (get8 b 112 1) 0 then
        some ⟨bit (get8 b 112 1) 1, bit (get8 b 112 1) 2, BitVec.ofNat 6 (get8 b 113 1), bit (get8 b 112 1) 3⟩ else none }

/-- A weight slot from WSLOT. -/
def slotFrom (b : Nat) : Option Tile :=
  let nc := bits b 15 8
  let kw := bits b 26 16
  if bit b 0 then
    some { kind := if bit b 1 then .ni8 (bits b 5 2) else if bit b 27 then .sb4 else .int4, kw := kw, nc := nc
           weights := (List.range nc).map (fun c => (List.range kw).map (fun k => signExt (get8 b (48 + 1024 * c + k) 1) 8))
           exps := (List.range nc).map (fun c => (List.range ((kw + 255) / 256)).map (fun j => signExt (get8 b (16 + 4 * c + j) 1) 8)) }
  else none

/-- An activation table from OPTICS. -/
def actFrom (b : Nat) : ActTable :=
  { slope := BitVec.ofNat 2048 (get8 b 0 256), icpt := BitVec.ofNat 2048 (get8 b 256 256), lo := BitVec.ofNat 32 (get8 b 512 4),
    w := signExt (get8 b 516 4) 32 }

/-- A held tile from EPI. Its window is not in the record; its BOUND is that of wpol (log 32). -/
def epiFrom (b : Nat) (pol : DWord) : EpiTile :=
  { win := none, step := 0, addr := 0, b0 := 0, acc := 0, ws := 0, epi := BitVec.ofNat 64 (get8 b 0 8)
    bound := polBound pol, shaped := true
    x := (List.range 256).map (fun j => get8 b (16 + 4 * j) 4), base := 0 }

/-- A queued command from COPY: its ticket, operands and instruction words. -/
def copyFrom (b : Nat) : Option CopyCmd :=
  let base : CopyCmd :=
    { ticket := BitVec.ofNat 64 (get8 b 0 8), words := get8 b 32 8, chained := false, first := false, last := false, scope := 0
      expect := 0, sbuf := false, dbuf := false, done := false, dst := BitVec.ofNat 64 (get8 b 8 8)
      src := BitVec.ofNat 64 (get8 b 16 8), len := get8 b 24 4, bound := get8 b 28 4 }
  match decode .k base.words with
  | .ok (.cpy _ _ _ _ p c st) => some { base with sbuf := st == 1, dbuf := c == 1, done := p == 1 }
  | .ok (.cpyc _ _ _ _ f l c imm) => some { base with chained := true, first := f == 1, last := l == 1, scope := c.toNat, expect := imm }
  | _ => none

/-- The commands of COPY. -/
def copiesFrom (b : Nat) : List (Option CopyCmd) := (List.range (get8 b 24 8)).map (fun i => copyFrom (get8 b (32 + 40 * i) 40))

/-- A fault from DEFER: its source and the fault as it is recorded. -/
def deferFrom (b : Nat) : Nat × Trap :=
  (bits b 15 12, { cause := bits b 9 0, aux0 := get8 b 8 8, aux1 := get8 b 16 8, va := BitVec.ofNat 64 (get8 b 24 8) })

/-- The faults of DEFER. -/
def defersFrom (b : Nat) : List (Nat × Trap) := (List.range (get8 b 0 8)).map (fun i => deferFrom (get8 b (8 + 32 * i) 32))

/-- A deferred fault of the bank from DEFER, in its order. A record does not say which kind it was, so all but "plan aborted"
go as those of windows do (log 32). -/
def bankFrom (i : Nat) (t : Trap) : Deferred := ⟨if t.cause = 0x208 then .abort else .window, i, { t with lkind := 2 }⟩

/-- The bytes of a frame from FRAME. -/
def frameFrom (b : Nat) : Memory :=
  let here := (List.range 1024).filter (fun p => bit (get8 b 0 128) p)
  here.zipIdx.foldl (fun m p => m.writeN (4096 * p.1) (natBytes 4096 (get8 b (128 + 4096 * p.2) 4096))) []

/-- A sequencer from SEQ: `i` is its number. -/
def seqFrom (b i : Nat) : SeqState :=
  { pc := BitVec.ofNat 64 (get8 b (0x380 + 8 * i) 8), halted := bit (get8 b 0x3E4 1) i, pend := pendFrom (get8 b (0x3A0 + 16 * i) 16)
    q := Vector.ofFn (fun n => bit (get8 b (0x3E0 + i) 1) n.val), j := regsFrom 2 64 8 b (0x300 + 32 * i)
    waited := get8 b (0x480 + 4 * i) 4 + (if i = 0 then get8 b 0x494 4 else if i = 2 then get8 b 0x498 4 else 0) }

/-- What a record gives a logical core without a node (05 R148). -/
def keptFrom (r : Nat) (id : CtxId) (asid : BitVec 13) : Ctx :=
  let seq := secOf r 0
  let opt := secOf r 9
  { id := id, asid := asid, wpa := regsFrom 3 64 8 seq 0x400, wpc := regsFrom 3 64 8 seq 0x440
    bufs := Vector.ofFn (fun i => bufferFrom (get8 (secOf r 7) (8 * i.val) 8))
    acc := regsFrom 4 8192 1024 (secOf r 8) 0, pacc := regsFrom 4 8192 1024 (secOf r 8) 16384
    lvt := regsFrom 3 128 16 opt 0, act := Vector.ofFn (fun i => actFrom (get8 opt (128 + 528 * i.val) 528))
    wsh := regsFrom 2 64 8 opt 2240, wep := regsFrom 2 64 8 opt 2272, wpol := BitVec.ofNat 64 (get8 opt 2304 8)
    spad := frameFrom (secOf r 15) }

/-- A frame of 256 bytes, from its bits (14 R383). -/
def frameOfBits (f : Nat) : Frame :=
  let run (n w lo : Nat) : List Nat := (List.range n).map (fun i => bits f (lo + w * i + w - 1) (lo + w * i))
  { serial := bits f 1407 1344, sfu := (run 6 8 1280).map (BitVec.ofNat 8), bst := (run 64 2 1152).map (BitVec.ofNat 2)
    tok := (run 12 4 1088).map (BitVec.ofNat 4), cpq := bits f 1060 1055, epq := bits f 1054 1052, wsq := bits f 1051 1046
    iq := bits f 1045 1043, oq := bits f 1042 1040, sq := run 4 2 1032, lq := run 4 2 1024
    pstate := (run 4 8 960).map (BitVec.ofNat 8), ptgt := (run 4 64 704).map (BitVec.ofNat 64), aux1 := bits f 703 640
    aux0 := bits f 639 576, lkind := bits f 575 572, lval := bits f 571 512, instr := bits f 511 448
    va := BitVec.ofNat 64 (bits f 447 384), pcs := (run 4 64 128).map (BitVec.ofNat 64), launchNo := bits f 127 64
    node := bits f 63 48, lcore := bits f 46 40, plan := bit f 35, deferred := bit f 34, srce := bits f 31 28
    tcode := BitVec.ofNat 9 (bits f 24 16), cause := bits f 9 0 }

/-! ## Reserved fields of the sections (00 R7, 15 R414 row 2; log 32) -/

/-- The items of `n` bytes that stand side by side from an offset. -/
def itemsFrom (b off n count : Nat) : List Nat := (List.range count).map (fun i => get8 b (off + n * i) n)

/-- SEQ: the modifiers (08 R251), transfers, halts, the latch, ss.wdb, the watchpoints, the token counts and the end. -/
def seqClean (b : Nat) : Bool :=
  (itemsFrom b 0x280 8 16).all (fun m => bits m 61 60 == 0) &&
  (itemsFrom b 0x3A0 16 4).all (fun p => bits p 127 68 == 0) && bits (get8 b 0x3E4 4) 31 4 == 0 && bits (get8 b 0x3F0 8) 31 9 == 0 &&
  bits (get8 b 0x3F8 8) 63 32 == 0 && (itemsFrom b 0x400 8 8).all (fun w => bits w 63 56 == 0) &&
  (itemsFrom b 0x440 8 8).all (fun w => bits w 63 14 == 0 && !bit w 4) && (itemsFrom b 0x4A0 1 12).all (fun n => decide (n < 16)) &&
  get8 b 0x4AC 852 == 0

/-- STREAM: the bytes after BOUND, and those around the binding. -/
def streamClean (t : Nat) : Bool := get8 t 108 4 == 0 && bits (get8 t 112 1) 7 4 == 0 && bits (get8 t 113 1) 7 6 == 0 && get8 t 114 14 == 0

/-- OPTICS: the ends of the activation tables, the bank registers, and the status entries. -/
def opticsClean (b : Nat) : Bool :=
  (itemsFrom b 128 528 4).all (fun t => get8 t 520 8 == 0) &&
  (itemsFrom b 2240 8 9).zipIdx.all (fun p => bankRegOk p.2 (BitVec.ofNat 64 p.1)) && decide (get8 b 2312 8 ≤ statusLimit) &&
  (itemsFrom b 2320 40 32).all (fun e => bits e 63 56 == 0 && bits e 31 12 == 0)

/-- COPY: the chain word, and the operands of the commands. -/
def copyClean (b : Nat) : Bool :=
  bits (get8 b 16 8) 63 33 == 0 &&
    (itemsFrom b 32 40 (get8 b 24 8)).all (fun k => (match copyFrom k with
      | some c => copyBytes c == k && (!c.sbuf || bits c.src.toNat 31 6 == 0) && (!c.dbuf || bits c.dst.toNat 31 6 == 0)
      | none => false))

/-- A frame: its reserved fields, and those of the four pending transfers. -/
def frameClean (b : Nat) : Bool := (frameOfBits b).bits == b && (itemsFrom b 120 1 4).all (fun p => bits p 7 4 == 0)

/-- The reserved fields of a section are zero. -/
def sectionClean (i b len : Nat) : Bool :=
  match i with
  | 0 => seqClean b
  | 4 => (itemsFrom b 0 4240 (len / 4240)).all (fun w => bits w 7 4 == 0 && bits w 63 11 == 0 && get8 w 4232 8 == 0)
  | 5 => get8 b 10 6 == 0
  | 6 => (itemsFrom b 0 128 16).all streamClean
  | 7 => (itemsFrom b 0 8 64).all (fun v => !bit v 63)
  | 9 => opticsClean b
  | 10 => (itemsFrom b 0 8240 4).all (fun t => bits t 63 28 == 0 && bits t 7 6 == 0 && get8 t 8 8 == 0)
  | 11 => get8 b 1 7 == 0 && decide (get8 b 0 1 ≤ epiLimit) &&
      (itemsFrom b 8 1040 (get8 b 0 1)).all (fun t => bankRegOk 4 (BitVec.ofNat 64 (get8 t 0 8)) && get8 t 8 8 == 0)
  | 12 => copyClean b
  | 13 => (itemsFrom b 8 32 (get8 b 0 8)).all (fun d => bits d 11 10 == 0 && bits d 63 16 == 0)
  | 14 => frameClean b
  | _ => true

/-! ## The context -/

/-- A copy chain has begun and has not ended (12 R345, R346): the next of its commands is queued, or it is open and none is. -/
def CopyState.midChain (q : CopyState) : Bool :=
  match q.queue.find? (·.chained) with
  | some k => !k.first
  | none => q.isOpen

/-- The context of a record (15 R408, R415): a spilled context of its logical core. DESIGN CHOICE (log 32): a record has no bytes for
ss.cause and the recorded program counters, so a context with a frame has those of its frame, and another reads 0; nor for the index of
the tile that a deferred fault is of, which counts by its place in the record here (`Ctx.tilesFrom` finds it again). -/
def ctxFrom (r : Nat) (id : CtxId) (asid : BitVec 13) : Ctx :=
  let c := keptFrom r id asid
  let place : Place := .spilled Config.broadcastDie
  if bits r 137 136 = 0 then { c with place := place }
  else
    let seq := secOf r 0
    let que := secOf r 5
    let ns := queueCounts que
    let imgs (i : Nat) : List Image := imagesAt que (entriesBefore ns i) ((ns[i]?).getD 0)
    let opt := secOf r 9
    let cpy := secOf r 12
    let defs := defersFrom (secOf r 13)
    let copyFaults := (defs.filter (fun d => d.1 == 5)).map (fun d => (d.2.aux0, d.2))
    let hframe := if (recDir r).any (fun e => e.1 == 14) then some (frameOfBits (secOf r 14)) else none
    let tok := get8 seq 0x4A0 12
    { c with
      place := place, node := bits r 159 144, status := if bits r 137 136 = 2 then .stopped else .running
      seqL := seqFrom seq 0, seqC := seqFrom seq 1, seqS := seqFrom seq 2, seqK := seqFrom seq 3
      x := regsFrom 5 64 8 seq 0, y := regsFrom 4 64 8 seq 0x100, z := regsFrom 4 64 8 seq 0x180, a := regsFrom 4 64 8 seq 0x200
      m := regsFrom 4 64 8 seq 0x280, tok := Vector.ofFn (fun i => BitVec.ofNat 4 (get8 tok i.val 1))
      wdb := BitVec.ofNat 64 (get8 seq 0x3F8 8), bundles := BitVec.ofNat 64 (get8 seq 0x3E8 8)
      arrived := if bit (get8 seq 0x3F0 1) 0 then some (bits (get8 seq 0x3F0 8) 8 1, BitVec.ofNat 32 (get8 seq 0x3F4 4)) else none
      frameOut := hframe
      cause := match hframe with | some f => causeWord { cause := f.cause, tcode := f.tcode } | none => 0
      fpc := match hframe with | some f => Vector.ofFn (fun i => heldAt i.val f.pcs) | none => Regs.zero
      lq := Vector.ofFn (fun i => imgs i.val), sq := Vector.ofFn (fun i => imgs (4 + i.val)), oq := imgs 8
      iq := (List.range ((ns[9]?).getD 0)).map (fun i => BitVec.ofNat 2048 (get8 que (16 + 4096 * entriesBefore ns 9 + 256 * i) 256))
      v := regsFrom 4 32768 4096 (secOf r 1) 0, p := regsFrom 6 1024 128 (secOf r 2) 0, t := regsFrom 2 131072 16384 (secOf r 3) 0
      sfu := ((recDir r).filter (fun e => e.1 == 4)).flatMap (fun e => (List.range (e.2.2 / 4240)).map (fun i =>
        let w := get8 (secOf r 4) (4240 * i) 4240
        ⟨BitVec.ofNat 4 (bits w 3 0), BitVec.ofNat 1024 (get8 w 8 128), BitVec.ofNat 32768 (get8 w 136 4096), bits w 10 8⟩))
      streams := Vector.ofFn (fun i => streamFrom (get8 (secOf r 6) (128 * i.val) 128))
      slots := Vector.ofFn (fun i => slotFrom (get8 (secOf r 10) (8240 * i.val) 8240))
      wstat := (List.range (get8 opt 2312 8)).map (fun i =>
        let e := get8 opt (2320 + 40 * i) 40
        ⟨BitVec.ofNat 64 (get8 e 0 8), BitVec.ofNat 256 (get8 e 8 32)⟩)
      epi := (List.range (get8 (secOf r 11) 0 1)).map (fun i =>
        let e := epiFrom (get8 (secOf r 11) (8 + 1040 * i) 1040) c.wpol
        { e with waited := if i = 0 then get8 seq 0x49C 4 else 0 })
      copy := { iseq := BitVec.ofNat 64 (get8 cpy 0 8), cseq := BitVec.ofNat 64 (get8 cpy 8 8),
                 chain := BitVec.ofNat 32 (get8 cpy 16 4), isOpen := bit (get8 cpy 20 1) 0,
                 queue := (copiesFrom cpy).filterMap (fun k => k),
                waited := get8 seq 0x490 4, faults := copyFaults }
      deferred := ((defs.filter (fun d => d.1 == 4)).map (·.2)).zipIdx.map (fun p => bankFrom p.2 p.1)
      tileFaults := ((defs.filter (fun d => d.1 == 6)).map (·.2)).zipIdx.map (fun p => (p.2, { p.1 with lkind := 6 })) }

end Sys2Proof.Machine
end

