-- ==== Sys2Proof/Machine/Freeze.lean ====
section
/-! DEFINITION. Freezing and moving a launch (15 R399 to R421): FREEZE, the image, and THAW. -/
namespace Sys2Proof.Machine

/-! ## Bringing a launch to rest (15 R402) -/

/-- Step 2 waits on the plan of the launch: it is open, or its abort is still to reach the participants. -/
def State.planStands (s : State) (l : Nat) : Bool :=
  s.plan.any (fun p => p.launch == l && p.phase != .opening && p.phase != .stopping)

/-- The instruction that C waits at has room for its window, or no longer waits for windows (10 R301, R312, R313; 11 R318). -/
def windowArrived (s : State) (c : Ctx) : Bool :=
  match decode (selOf c .c) (instrAt c .c (wordIx c.seqC.pc + c.seqC.off)) with
  | .ok (.win ..) => c.winRoom
  | .ok (.bcast ..) => s.bcastRoom c
  | .ok (.waccRd _ a _) => c.accDone a
  | .ok (.waccWr _ a _) => c.accDone a
  | .ok (.waccClr _ a) => c.accDone a
  | .ok (.waccEpi _ a _) => c.accDone a
  | .ok (.lvtset ..) => c.bankIdle
  | _ => true

/-- K stands at a FREEZE. -/
def Ctx.atFreeze (c : Ctx) : Bool :=
  match decode .k (instrAt c .k (wordIx c.seqK.pc)) with
  | .ok (.freeze ..) => true
  | _ => false

/-- The awaited item of a sequencer has arrived (14 R391, 15 R416). A plan's boundary is no such item, nor is a decoder lane; L and S
have their replies once their requests are acknowledged, K once its access has been performed, or a launch can be accepted. -/
def arrivedAt (s : State) (c : Ctx) (q : SeqId) (a : Await) : Bool :=
  match a with
  | .token i n => decide (n ≤ c.tokens i)
  | .room i n => decide (c.tokens i + n ≤ 15)
  | .lqEntry n => !(c.lqAt n).isEmpty
  | .lqRoom n => decide ((c.lqAt n).length < 2)
  | .sqEntry n => !(c.sqAt n).isEmpty
  | .sqRoom n => decide ((c.sqAt n).length < 2)
  | .oqEntry => !c.oq.isEmpty
  | .iqEntry => !c.iq.isEmpty
  | .iqRoom => decide (c.iq.length < 4)
  | .buffer b st => (c.buf (BitVec.ofNat 6 b)).st.toNat == st || (c.seq q).met
  | .group g n => (s.launch? c.id.launch).all (fun l => phaseDone (l.barrier g).phase (BitVec.ofNat 32 n))
  | .reply =>
    if q ≠ .k then (c.seq q).acked
    else if c.remote.isSome then c.hasReply
    else !c.atFreeze && decide (s.launches.length < launchLimit)
  | .slot n => (c.slot (BitVec.ofNat 2 n)).isNone
  | .lane => false
  | .epilogue n =>
    match (c.seq q).flight.bind (·.drain) with
    | some upTo => !drainPending c (BitVec.ofNat 4 n) upTo
    | none => decide (c.epi.length < epiLimit)
  | .copyRoom => decide (c.copy.queue.length < copyLimit)
  | .ticket n => decide ((c.copy.cseq - BitVec.ofNat 64 n).toNat < 2 ^ 63) || !c.copy.faults.isEmpty
  | .window => windowArrived s c
  | .windows => windowArrived s c
  | .plan => false
  | .tile n => (s.tile? n).all (fun e => e.st == .done || e.st == .failed)

/-- A sequencer has nothing in progress that can go on: what it has issued is over, or waits for an item of its own launch that has
not come (15 R402 step 3). -/
def State.seqAtRest (s : State) (c : Ctx) (q : SeqId) : Bool :=
  !(c.unfinished q && ((c.seq q).awaiting.all (fun a => a == .reply))) &&
    (!c.goesOn q || (c.seq q).awaiting.any (fun a => !arrivedAt s c q a))

/-- Steps 3 to 6 for a context. A hit that a stopped setter has not reported stays with the device (log 34). -/
def State.ctxAtRest (s : State) (c : Ctx) : Bool :=
  c.remote.isNone && !c.draining && !c.planeDone && allSeqs.all (s.seqAtRest c) && c.wins.isEmpty && !c.copying &&
  c.tilesFired.isEmpty && (c.status == .stopped || !s.hits.any (fun h => h.ctx == c.id)) &&
  (c.epi.all (·.shaped) && (match c.epi.head? with | some e => !epiOut e.epi && decide (oqLimit ≤ c.oq.length) | none => true))

/-- The frames of a launch that stand in its contexts or in mailbox slots and have not been routed. -/
def State.framesOf (s : State) (l : Nat) : List Frame :=
  (s.ctxs.filter (fun c => c.id.launch == l)).filterMap Ctx.frameOut ++
    (s.slots.filter (fun e => e.ctx.launch == l && !e.routed)).map (·.frame)

/-- Everything that R402 waits on has come. Where the issuer is not the handler, the handler has halted. -/
def State.atRest (s : State) (l : Launch) : Bool :=
  !s.planStands l.num && s.ctxs.all (fun c => c.id.launch != l.num || c.id.lcore == Config.handlerLcore || s.ctxAtRest c) &&
  s.table.all (fun e => e.launch != l.num || e.st != .fired) && !(s.framesOf l.num).any Frame.settlesFirst &&
  (l.freezer.isNone || !s.lcoreBusy l.num Config.handlerLcore)

/-- The context of the broadcast core as the snapshot of its plan has it; what it is doing stays. -/
def Ctx.asSnapshot (c : Ctx) (p : Plan) : Ctx := { c.fromSnapshot p.snapshot with status := c.status, frameOut := c.frameOut }

/-- A plan to open again, from its first wave, with the participants that remain (15 R417). -/
def Plan.kept (p : Plan) : Plan := { p with waves := [(p.waves.drop p.wave).flatten], wave := 0, base := 0, lastStep := 0, phase := .opening }

/-- The plan with waves that remain becomes a snapshot to open again (15 R417), and the broadcast core's context is what the
snapshot holds. An aborted plan has every participant left (R421). -/
def freezePlan (n : Nat) (s : State) : State :=
  let left := (s.plan.toList.filter (fun p => p.launch == n && p.phase != .stopping)).map Plan.kept ++
    (s.snapshots.filter (fun p => p.launch == n)).map (fun p =>
      if p.phase = .aborted then ({ p with wave := 0 } : Plan).kept else p.kept)
  let s := { s with plan := s.plan.filter (fun p => p.launch != n)
                    snapshots := s.snapshots.filter (fun p => p.launch != n) ++ left }
  left.foldl (fun s p => s.updCtx ⟨n, Config.bcastLcore⟩ (fun c => c.asSnapshot p)) s

/-- A context in the care of its launch's image: no bank holds it, its status entries are final, and a TKWAIT that waits has given the
token of its field back (06 R181). DESIGN CHOICE (log 21): a token that cannot go back, its queue being at 15, is gone; an image does not
say that the field has had it, so that after the thaw the field takes another. A frame in a mailbox slot goes with it, unless it has been
routed. -/
def Ctx.freeze (c : Ctx) (slots : List MailSlot) : Ctx :=
  let c := ({ c.giveBack with held := c.held.map (fun h => { h with ready := true }) } : Ctx).flushStatus
  { c with
    place := .spilled Config.broadcastDie, remote := none
    frameOut := match slots.find? (fun e => e.ctx == c.id && !e.routed) with | some e => some e.frame | none => c.frameOut }

/-- Steps 7 to 9 of 15 R402, where everything has come to rest. The frame that the handler holds stands first in the queue
(R421). -/
def freezeNow (n : Nat) (s : State) : State :=
  let s := freezePlan n (cleanLines (fun _ => true) (settleWrites s))
  let slots := s.slots
  let s := s.updCtxsOf n (fun c => if c.id.lcore = Config.handlerLcore then c else c.freeze slots)
  let s := { s with
    slots := s.slots.filter (fun e => e.ctx.launch != n || e.ctx.lcore == Config.handlerLcore)
    frozenTiles := s.frozenTiles ++ s.table.filter (fun (e : TileEntry) => e.launch == n)
    table := s.table.filter (fun e => e.launch != n)
    pins := s.pins.filter (fun p => p.launch != n)
    tiles := s.tiles.filter (fun e => e.key.head? != some n) }
  s.updLaunch n (fun l => { l with
    run := .frozen, held := none
    frames := (match l.held with | some f => [(0, f)] | none => []) ++ l.frames })

/-! ## The image (15 R405 to R412) -/

/-- The first byte of a launch's bitmap, and its length (04 R137). -/
def State.bitmapAt (s : State) (l : Launch) : Nat := key s.dev l.bitmap
def bitmapBytes : Nat := 786432

/-- The bytes of the bitmap. -/
def State.bitmap (s : State) (l : Launch) : Nat :=
  let a := s.bitmapAt l
  sumOf ((s.mem.filter (fun e => decide (a ≤ e.1) && decide (e.1 < a + bitmapBytes))).map (fun e => at8 (e.1 - a) e.2.toNat))

/-- The bitmap cleared in one step. -/
def clearBitmap (l : Launch) (s : State) : State :=
  let a := s.bitmapAt l
  { s with mem := s.mem.filter (fun e => decide (e.1 < a) || decide (a + bitmapBytes ≤ e.1)) }

/-- An entry of the group section. -/
def groupEntry (l : Launch) (g : Nat) : Nat :=
  let b := l.barrier g
  b.phase.toNat + sumOf (b.arrived.dedup.map (fun n => 2 ^ (32 + n)))

/-- An entry of the tile section. -/
def tileEntry (e : TileEntry) : Nat :=
  let st := match e.st with | .done => 2 | .failed => 3 | _ => 1
  e.desc.toNat + at8 64 (e.index + st * 2 ^ 12) + at8 72 e.sig.toNat

/-- An entry of the graph progress. -/
def nodeEntry (n : Node) : Nat :=
  let st := match n.st with | .blocked => 0 | .pooled => 1 | .running => 2 | .done => 3 | .discarded => 4
  n.remaining % 2 ^ 16 + st * 2 ^ 16 + bitOf n.spawned * 2 ^ 19 + bitOf n.late * 2 ^ 20

/-- A node as the graph progress holds it: one of the pool that has been frozen as it ran, and has not gone on, is running in its recorded
context still; the handler, which may be the issuer, has no record and waits for its next frame. -/
def State.nodeHeld (s : State) (l : Launch) (i : Nat) (n : Node) : Node :=
  if i = l.handler then { n with st := .blocked } else if (s.recorded l i n).isSome then { n with st := .running } else n

/-- The logical cores that have a record. -/
def Launch.recLcores (l : Launch) : List Nat := List.range l.lcores ++ (if l.bc then [Config.bcastLcore] else [])

/-- MAGIC and VER of an image. -/
def imageMagic : Nat := 0x5A465A31
def imageVersion : Nat := 1

/-- Participants of the waves that remain; none where no plan has waves left. -/
def State.planLeft (s : State) (n : Nat) : Option (List Nat) :=
  (s.snapshots.find? (fun p => p.launch == n)).map (fun p => p.waves.flatten)

/-- The image of a frozen launch: its length and its bytes. DESIGN CHOICE (log 32): the order of the sections. -/
def State.image (s : State) (l : Launch) : Nat × Nat :=
  let nodes := l.nodes.zipIdx.map (fun p => nodeEntry (s.nodeHeld l p.2 p.1))
  let recs := l.recLcores.map (fun n => (n, recordOf n (s.ctx? ⟨l.num, n⟩)))
  let tiles := s.frozenTiles.filter (fun e => e.launch == l.num)
  let tail := [4096, 80 * tiles.length, 8 * l.nodes.length, bitmapBytes, 256 * l.frames.length]
  let (offs, total) := layOut 384 (16 * recs.length :: recs.map (·.2.1) ++ tail)
  let off (i : Nat) : Nat := (offs[i]?).getD 0
  let k := 1 + recs.length
  let mask := match s.planLeft l.num with | some ps => sumOf (ps.dedup.map (fun n => 2 ^ n)) | none => 0
  let header := imageMagic + imageVersion * 2 ^ 32 + total * 2 ^ 64 + recs.length * 2 ^ 160 + s.dev * 2 ^ 192 +
    l.num % 2 ^ 64 * 2 ^ 256 + l.freezeStep % 2 ^ 64 * 2 ^ 320 + 256 * 2 ^ 384 + off 0 * 2 ^ 448 + off k * 2 ^ 512 +
    off (k + 1) * 2 ^ 576 + tiles.length * 2 ^ 640 + off (k + 2) * 2 ^ 704 + off (k + 3) * 2 ^ 768 + off (k + 4) * 2 ^ 832 +
    l.frames.length * 2 ^ 896 + bitOf (s.planLeft l.num).isSome * 2 ^ 960 + mask * 2 ^ 1024 +
    intBits 64 ((l.deadline : Int) - l.freezeStep) * 2 ^ 1152
  let body := at8 256 l.packet.toNat +
    at8 (off 0) (pack8 16 ((List.zip recs (offs.drop 1)).map (fun p => p.2 + p.1.1 * 2 ^ 64))) +
    sumOf ((List.zip recs (offs.drop 1)).map (fun p => at8 p.2 p.1.2.2)) +
    at8 (off k) (pack8 16 ((List.range 256).map (groupEntry l))) + at8 (off (k + 1)) (pack8 80 (tiles.map tileEntry)) +
    at8 (off (k + 2)) (pack8 8 nodes) + at8 (off (k + 3)) (s.bitmap l) +
    at8 (off (k + 4)) (pack8 256 (l.frames.map (fun f => f.2.bits)))
  let check := rwsOf 0xFFFFFFFF (natBytes total (header + body))
  (total, header + body + check.toNat * 2 ^ 128)

/-- The spill engines write or read an image under an ASID, for the core that has issued the FREEZE or for none. No launch's bitmap
counts their writes (15 R404). -/
def imageAgent (s : State) (asid : Nat) (issuer : Option (Nat × Nat)) : Agent := { machineAgent s.nextLaunch asid with issuer? := issuer }

/-- The image written in pieces of 64 bytes. -/
def writeImage (asid : Nat) (issuer : Option (Nat × Nat)) (va : DWord) (total img : Nat) : M Unit := do
  let s ← get
  eachM (List.range (total / 64)) (fun i =>
    writeMem (imageAgent s asid issuer) 0 (va + BitVec.ofNat 64 (64 * i)) (natBytes 64 (get8 img (64 * i) 64)))

/-! ## FREEZE (15 R400, R401) -/

/-- Row 2 of 15 R401: K of the handler, naming its own launch. -/
def handlerOf (n : DWord) : M Unit := do
  let s ← get
  require (s.cx.id.lcore == Config.handlerLcore && n.toNat == s.cx.id.launch) 0x320

/-- Rows 3 and 4 of 15 R401. -/
def freezeTarget (n : DWord) (ok : Launch → Bool) : M Launch := do
  let s ← get
  match s.launch? n.toNat with
  | none => fault 0x320
  | some l => if ok l then pure l else fault 0x320

/-- FREEZE with fn 1, by the handler or by a mailbox slot: brings the launch to rest, writes its image where an address is
given, and answers its size; it is a release at .sys (15 R404). -/
def freezeM (me : Option Nat) (n addr : DWord) (asid : Launch → Nat) : M Nat := do
  let l ← freezeTarget n (fun l => l.run != .freezing || l.freezer == me)
  require (addr == 0 || (addr.toNat % 256 == 0 && addr.toNat / 2 ^ 60 == 0)) 0x320
  if l.run = .running then modify (fun s => s.updLaunch l.num (fun l => { l with run := .freezing, freezeStep := s.clock, freezer := me }))
  else pure ()
  let s ← get
  let l := (s.launch? l.num).getD l
  if l.run = .freezing then (if s.atRest l then modify (freezeNow l.num) else waitFor .reply) else pure ()
  let s ← get
  let l := (s.launch? l.num).getD l
  let img := s.image l
  if addr = 0 then pure ()
  else do
    writeImage (asid l) (if me.isNone then some s.cx.core else none) addr img.1 img.2
    modify (clearBitmap l)
  release 4
  pure img.1

/-- fn 0 (15 R400). -/
def freezeMarkM (n : DWord) : M Unit := do
  let l ← freezeTarget n (fun l => l.run == .running)
  modify (clearBitmap l)

/-- fn 2 (15 R418): nothing is published, and no completion record is written. -/
def freezeDropM (n : DWord) : M Unit := do
  let l ← freezeTarget n (fun l => l.run == .frozen)
  modify (fun s => s.forget l.num)

/-- The deadline of a launch moves, and its nodes' with it. -/
def Launch.moveDeadline (l : Launch) (d : Nat) : Launch :=
  let l := { l with deadline := d }
  { l with nodes := l.nodes.map (fun n => { n with deadline := nodeDeadline l n }) }

/-- k0 to k15 of a restored context, and of the snapshot that holds it for its plan, are read again from the argument block of its node
(log 32). -/
def reloadK (l : Launch) (c : Ctx) (s : State) : State :=
  match (if c.status = .idle then none else l.nodes[c.node]?) with
  | some n =>
    let ks := readArgsAlone s l n
    let s := s.updCtx c.id (fun c => c.loadK ks)
    { s with snapshots := s.snapshots.map (fun p =>
        if p.launch == l.num && p.snapshot.id == c.id then { p with snapshot := p.snapshot.loadK ks } else p) }
  | none => s

/-- The frames that the contexts of a launch carry go to its handler, by logical core (15 R415). -/
def routeCarried (l : Launch) (s : State) : State :=
  l.recLcores.foldl (fun s n =>
    match s.ctx? ⟨l.num, n⟩ with
    | some c => match c.frameOut with
      | some f => toHandler c.id s.clock f (s.updCtx c.id (fun c => { c with frameOut := none }))
      | none => s
    | none => s) s

/-- The launch that runs again: its contexts' constants are read, its record names it, its frames go to the handler, and what
is ready settles. -/
def restart (l : Launch) (s : State) : State :=
  let s := crecWrite l 8 (natBytes 8 (l.num % 2 ^ 64)) s
  let s := (s.ctxs.filter (fun c => c.id.launch == l.num && c.id.lcore != Config.handlerLcore)).foldl (fun s c => reloadK l c s) s
  (routeCarried l s).settle l.num

/-- The tile entries are put back: each index must be FREE (13 R363). -/
def restoreTiles (es : List TileEntry) : M Unit := do
  let s ← get
  require (es.all (fun e => (s.tile? e.index).isNone) && (es.map (·.index)).dedup.length == es.length) 0x292
  modify (fun s => { s with table := es.foldl putTile s.table })

/-- What an image has no bytes for, and a launch that goes on where it stands keeps: ss.cause and the recorded program counters (06
R170), the state of an open copy chain (12 R346), the tile indices of deferred collective faults (13 R374) and the kinds of the bank's
(10 R310). -/
def Ctx.keepUnsaved (x c : Ctx) : Ctx :=
  { x with
    cause := c.cause, fpc := c.fpc, tileFaults := c.tileFaults, deferred := c.deferred
    copy := { x.copy with failed := c.copy.failed, pages := c.copy.pages, thawed := c.copy.thawed } }

/-- A node that ran when its launch was frozen enters the ready pool (15 R415). -/
def Node.thawed (n : Node) : Node := if n.st = .running then { n with st := .pooled } else n

/-- fn 3 (15 R418): the launch goes on as a THAW of the image it would write. -/
def freezeContM (n : DWord) : M Unit := do
  let l ← freezeTarget n (fun l => l.run == .frozen)
  let s ← get
  restoreTiles (s.frozenTiles.filter (fun e => e.launch == l.num))
  let l' := ({ l with
    run := .running, freezer := none
    nodes := l.nodes.zipIdx.map (fun p => if p.2 = l.handler then p.1 else p.1.thawed) } : Launch).moveDeadline
      (l.deadline + (s.clock - l.freezeStep))
  modify (fun s => { s with frozenTiles := s.frozenTiles.filter (fun e => e.launch != l.num) })
  modify (fun s => s.updLaunch l.num (fun _ => l'))
  modify (fun s => s.updCtxsOf l.num (fun c =>
    if c.id.lcore = Config.handlerLcore then c else (ctxFrom (recordOf c.id.lcore (some c)).2 c.id l.asid).keepUnsaved c))
  modify (clearBitmap l')
  modify (restart l')

/-- FREEZE.mark. -/
def execFreezeMark (h : Hq) (a : BitVec 5) (s : State) : Result :=
  runK h 1 (do replayable; let s ← get; handlerOf (s.cx.rx a); freezeMarkM (s.cx.rx a)) s

/-- FREEZE with fn 1. -/
def execFreeze (h : Hq) (d a b : BitVec 5) (s : State) : Result :=
  runK h 1 (do
    replayable
    let s ← get
    handlerOf (s.cx.rx a)
    let n ← freezeM none (s.cx.rx a) (s.cx.rx b) (fun _ => s.cx.asid.toNat)
    modCx (fun c => c.wx d (BitVec.ofNat 64 n))) s

/-- FREEZE.drop: it ends the handler's context with its launch. -/
def execFreezeDrop (h : Hq) (a : BitVec 5) (s : State) : Result :=
  runK h 1 (do replayable; let s ← get; handlerOf (s.cx.rx a); freezeDropM (s.cx.rx a)) s

/-- FREEZE.cont. -/
def execFreezeCont (h : Hq) (a : BitVec 5) (s : State) : Result :=
  runK h 1 (do replayable; let s ← get; handlerOf (s.cx.rx a); freezeContM (s.cx.rx a)) s

/-! ## THAW (15 R413 to R417) -/

/-- Bytes of an image, in pieces of 64. -/
def readImage (asid : Nat) (va : DWord) (n : Nat) : M Nat := do
  let s ← get
  let b ← collectM (List.range ((n + 63) / 64)) (fun i => readMem (imageAgent s asid none) 0 (va + BitVec.ofNat 64 (64 * i)) (min 64 (n - 64 * i)))
  pure (leNat b.flatten)

/-- The header's fields of an image. -/
def hdr (img hi lo : Nat) : Nat := bits img hi lo
def imgTotal (img : Nat) : Nat := hdr img 127 64
def imgRecs (img : Nat) : Nat := hdr img 511 448
def imgNrec (img : Nat) : Nat := hdr img 166 160
def imgPacket (img : Nat) : Nat := get8 img (hdr img 447 384) 128
def imgTilen (img : Nat) : Nat := hdr img 703 640
def imgFrqn (img : Nat) : Nat := hdr img 959 896

/-- Entry `i` of the record table: the record's offset and its logical core. -/
def recEntry (img i : Nat) : Nat × Nat :=
  let e := get8 img (imgRecs img + 16 * i) 16
  (bits e 63 0, bits e 70 64)

/-- The records with their logical cores. -/
def imgRecords (img : Nat) : List (Nat × Nat) :=
  (List.range (imgNrec img)).map (fun i =>
    let e := recEntry img i
    (e.2, get8 img e.1 (get8 img (e.1 + 8) 8)))

/-- An entry of the graph progress, of the tile section, and of the frame queue. -/
def imgNode (img i : Nat) : Nat := get8 img (hdr img 767 704 + 8 * i) 8
def imgTile (img i : Nat) : Nat := get8 img (hdr img 639 576 + 80 * i) 80
def imgFrame (img i : Nat) : Nat := get8 img (hdr img 895 832 + 256 * i) 256
def imgGroup (img g : Nat) : Nat := get8 img (hdr img 575 512 + 16 * g) 16

/-- Ranges within a length that do not meet. -/
def rangesOk (len : Nat) (rs : List (Nat × Nat)) : Bool :=
  rs.all (fun r => decide (r.1 + r.2 ≤ len)) &&
  (List.range rs.length).all (fun i => (List.range i).all (fun j =>
    match rs[i]?, rs[j]? with
    | some a, some b => decide (a.1 + a.2 ≤ b.1) || decide (b.1 + b.2 ≤ a.1)
    | _, _ => true))

/-- A record keeps R407 and R408. -/
def recordOk (lcore : Nat) (r : Nat) : Bool :=
  let dir := recDir r
  bits r 31 0 == recordMagic && bits r 63 32 == 0 && bits r 134 128 == lcore && !bit r 135 && decide (bits r 137 136 ≤ 2) &&
  bits r 143 138 == 0 && decide (bits r 167 160 ≤ 16) && bits r 511 168 == 0 &&
  (List.range (bits r 167 160)).all (fun i => bits (get8 r (64 + 16 * i) 16) 127 104 == 0) &&
  rangesOk (bits r 127 64) ((0, 320) :: dir.map (fun e => e.2)) &&
  dir.all (fun e => secLength e.1 (get8 r e.2.1 e.2.2) e.2.2 == some e.2.2 && sectionClean e.1 (get8 r e.2.1 e.2.2) e.2.2)

/-- CHECK of an image, which is taken with its own bytes zero (15 R406). -/
def imageSum (img : Nat) : Bool :=
  hdr img 159 128 == (rwsOf 0xFFFFFFFF (natBytes (imgTotal img) (img - hdr img 159 128 * 2 ^ 128))).toNat

/-- Row 2 of 15 R414 but for the checksum. -/
def imageForm (img : Nat) : Bool :=
  let p := imgPacket img
  let lcs := List.range (bits p 294 288) ++ (if bit p 295 then [Config.bcastLcore] else [])
  let total := imgTotal img
  hdr img 31 0 == imageMagic && hdr img 63 32 == imageVersion &&
  hdr img 191 167 == 0 && hdr img 255 206 == 0 && hdr img 1023 961 == 0 && hdr img 1151 1089 == 0 && hdr img 2047 1216 == 0 &&
  (List.range (imgNrec img)).all (fun i => bits (get8 img (imgRecs img + 16 * i) 16) 127 71 == 0) &&
  rangesOk total ([(0, 256), (hdr img 447 384, 128), (imgRecs img, 16 * imgNrec img), (hdr img 575 512, 4096),
    (hdr img 639 576, 80 * imgTilen img), (hdr img 767 704, 8 * packetNodes p), (hdr img 831 768, bitmapBytes),
    (hdr img 895 832, 256 * imgFrqn img)] ++
    (List.range (imgNrec img)).map (fun i => let e := recEntry img i; (e.1, get8 img (e.1 + 8) 8))) &&
  ((imgRecords img).map (·.1) == lcs) && (imgRecords img).all (fun r => recordOk r.1 r.2) &&
  decide (imgFrqn img ≤ 65) && decide (imgTilen img ≤ 4096) &&
  (List.range 256).all (fun g => bits (imgGroup img g) 127 97 == 0) &&
  (List.range (packetNodes p)).all (fun i => bits (imgNode img i) 63 21 == 0 && decide (bits (imgNode img i) 18 16 ≤ 4)) &&
  (List.range (imgTilen img)).all (fun i =>
    let w := get8 (imgTile img i) 64 8
    bits w 63 15 == 0 && decide (1 ≤ bits w 14 12) && decide (bits w 14 12 ≤ 3) && bits (get8 (imgTile img i) 0 64) 511 478 == 0) &&
  (List.range (imgFrqn img)).all (fun i => frameClean (imgFrame img i))

/-- Row 2 of 15 R414. -/
def imageOk (img : Nat) : Bool := imageSum img && imageForm img

/-- The packet under a new ASID and, where it is not 0, a new GRANT. -/
def thawPacket (p grant asid : Nat) : Nat :=
  let p := p - bits p 316 304 * 2 ^ 304 + asid * 2 ^ 304
  if grant = 0 then p else p - bits p 302 296 * 2 ^ 296 + grant * 2 ^ 296

/-- Row 4 of 15 R414. -/
def runsOk (img : Nat) (nodes : Nat) : Bool :=
  let live := ((imgRecords img).filter (fun r => bits r.2 137 136 != 0)).map (fun r => bits r.2 159 144)
  (List.range nodes).all (fun i => (bits (imgNode img i) 18 16 == 2) == live.contains i) && live.all (fun i => decide (i < nodes))

/-- A node as the graph progress has it; one that ran enters the ready pool, with the logical core of its record. -/
def thawNode (img : Nat) (i : Nat) (n : Node) : Node :=
  let e := imgNode img i
  let st : NodeState := match bits e 18 16 with | 0 => .blocked | 1 => .pooled | 2 => .pooled | 3 => .done | _ => .discarded
  let lcore := match (imgRecords img).find? (fun r => bits r.2 137 136 != 0 && bits r.2 159 144 == i) with
    | some r => r.1
    | none => n.lcore
  { n with remaining := bits e 15 0, st := st, spawned := bit e 19, late := bit e 20, lcore := lcore }

/-- The barriers of the group section. -/
def thawBarriers (img : Nat) : List (Nat × Barrier) :=
  (List.range 256).filterMap (fun g =>
    let e := imgGroup img g
    if e = 0 then none
    else some (g, { phase := BitVec.ofNat 32 (bits e 31 0), arrived := (List.range 65).filter (fun n => bit e (32 + n)) }))

/-- A carried tile entry. Its ring list is read again through the descriptor; the cause of a failed one stands in its
completion record (log 32). -/
def thawTile (launch asid e : Nat) (s : State) : TileEntry :=
  let d : BitVec 512 := BitVec.ofNat 512 (get8 e 0 64)
  let w := get8 e 64 8
  let ag := machineAgent launch asid
  let read (va : DWord) (n : Nat) : List Byte := match readMem ag 0 va n s with | .ok b _ => b | .error _ _ => []
  let st : TileState := match bits w 14 12 with | 2 => .done | 3 => .failed | _ => .armed
  { index := bits w 11 0, launch := launch, asid := asid, desc := d
    ring := (List.range (tM d)).map (fun i => leNat (read (tRing d + BitVec.ofNat 64 (2 * i)) 2)), st := st
    bound := if tBound d = 0 then 0x01000000 else tBound d, sig := BitVec.ofNat 64 (get8 e 72 8)
    fault := if st = .failed then some { cause := bits (leNat (read (tCrec d + 8) 8)) 25 16, lkind := 6, lval := bits w 11 0,
                                         aux0 := tInst d + s.dev * 2 ^ 32 } else none }

/-- LATE, FIRSTLATE and DISCARD as the completion record holds them (15 R415). -/
def thawCounts (l : Launch) (s : State) : Launch :=
  match readMem (machineAgent l.num l.asid.toNat) 0 (l.crec + 16) 8 s with
  | .ok b _ => let v := leNat b; { l with late := bits v 23 8, firstLate := bits v 39 24, discard := bits v 55 40 }
  | .error _ _ => l

/-- Where an operation faults, its memory is as it was. -/
def wholly {α : Type} (op : M α) : M α := fun s =>
  match op s with
  | .error (.trap t) _ => .error (.trap t) s
  | r => r

/-- The participants that an image names for the waves that remain. -/
def imgPlan (img : Nat) : Option (List Nat) :=
  if bit img 960 then some ((List.range 64).filter (fun n => bit img (1024 + n)) ++ (if bit img 1088 then [Config.bcastLcore] else []))
  else none

/-- A chain of copies in mid-run: the image says neither whether it has failed nor which pages it has written (log 32). It has not failed
where no fault stands recorded that could be of one of its commands; a LAST's 0x281 is of a chain that is over. -/
def Ctx.chainFrom (c : Ctx) (frames : List Frame) (fails : Bool) : Ctx :=
  let faulted := c.copy.faults.any (fun f => f.2.cause != 0x281) ||
    (c.frameOut.toList ++ frames.filter (fun f => f.lcore == c.id.lcore)).any (fun f => f.srce == 5 && f.cause != 0x281)
  { c with copy := { c.copy with thawed := c.copy.midChain, failed := c.copy.midChain && faulted && fails } }

/-- A deferred collective fault is of the entry that failed with its INST; one whose entry has been armed again names tile 0 (log 32). -/
def Ctx.tilesFrom (c : Ctx) (es : List TileEntry) : Ctx :=
  { c with tileFaults := c.tileFaults.map (fun f =>
      match es.find? (fun e => e.st == .failed && tInst e.desc == f.2.aux0 % 2 ^ 32) with
      | some e => (e.index, { f.2 with lval := e.index })
      | none => f) }

/-- Rows 3 to 6 of 15 R414, and R415, for an image that row 2 accepts. -/
def thawImage (img grant asid : Nat) : M Nat := do
  let l ← checkPacket (thawPacket (imgPacket img) grant asid) none
  require (runsOk img l.nodes.length) 0x321
  let s ← get
  let frames := (List.range (imgFrqn img)).map (fun i => frameOfBits (imgFrame img i))
  let tiles := (List.range (imgTilen img)).map (fun i => thawTile l.num asid (imgTile img i) s)
  let ctxs := (imgRecords img).map (fun r =>
    ((ctxFrom r.2 ⟨l.num, r.1⟩ l.asid).chainFrom frames (Config.freeChain s.clock)).tilesFrom tiles)
  let serials := frames.map (·.serial) ++ (ctxs.filterMap Ctx.frameOut).map (·.serial)
  let l := { l with
    packet := BitVec.ofNat 1024 (thawPacket (imgPacket img) grant asid), nodes := l.nodes.zipIdx.map (fun p => thawNode img p.2 p.1)
    barriers := thawBarriers img, frames := frames.map (fun f => (0, f)), serial := serials.foldl (fun a b => max a (b + 1)) 0 }
  let l := (thawCounts l s).moveDeadline (((s.clock : Int) + signExt (hdr img 1215 1152) 64).toNat)
  modify (fun s => s.hold l)
  restoreTiles tiles
  modify (fun s => { s with others := s.others ++ ctxs })
  modify (clearBitmap l)
  match imgPlan img, ctxs.find? (fun c => c.id.lcore == Config.bcastLcore) with
  | some ps, some c => modify (fun s => { s with snapshots := s.snapshots ++
      [{ launch := l.num, snapshot := { c with status := .running, frameOut := none }, waves := [ps] }] })
  | _, _ => pure ()
  modify (restart l)
  pure l.num

/-- THAW: row 1 of R414 but for the alignment, rows 2 to 6, and R415. -/
def thawM (va : DWord) (grant asid : Nat) : M Nat := wholly (do
  let head ← readImage asid va 256
  let img ← readImage asid va (max 256 (imgTotal head))
  require (imageOk img) 0x321
  thawImage img grant asid)

/-- THAW on K (15 R413): only a handler node may issue it; it releases at .dev and waits as LAUNCH does. -/
def execThaw (h : Hq) (d a b : BitVec 5) (s : State) : Result :=
  runK h 1 (do
    replayable
    let s ← get
    require (s.cx.id.lcore == Config.handlerLcore) 0x321
    release 3
    if launchLimit ≤ s.launches.length then waitFor .reply
    else do
      let va := s.cx.rx a
      let g := (s.cx.rx b).toNat
      require (va.toNat % 256 == 0) 0x321
      require (decide (g < 128)) 0x321
      let n ← thawM va g s.cx.asid.toNat
      modCx (fun c => c.wx d (BitVec.ofNat 64 n))) s

end Sys2Proof.Machine
end

