-- ==== Sys2Proof/Machine/Errors.lean ====
section
/-! DEFINITION. What management firmware and failing hardware do: yields (15 R416), watchdog and watch hits (14 R391, 04 R134),
page migration and unmapping (04 R135, R136), the device-fatal path (14 R390 to R393), calibration and spares (14 R395, R396),
urgent pre-emption (R397), and lane failures (13 R356). -/
namespace Sys2Proof.Machine

/-! ## Waits that end -/

/-- The awaited item has come; at a FREEZE, the rest of the launch (15 R400, R402). -/
def State.arrived (s : State) (c : Ctx) (q : SeqId) (a : Await) : Bool :=
  arrivedAt s c q a ||
    (q == .k && a == .reply && c.atFreeze && (s.launch? c.id.launch).all (fun l => l.run != .freezing || s.atRest l))

/-- A wait on a barrier, a token, a queue, a buffer state or a reply (15 R416; 05 R163): on the epilogue too, where BDRAIN waits as a
transfer of S (09 R259) and WACC.epi for room in a queue (08 R232). -/
def Await.yields (a : Await) : Bool :=
  match a with
  | .slot _ => false
  | .lane => false
  | .plan => false
  | .windows => false
  | _ => true

/-- Counted cycles after which a context yields (15 R416). -/
def yieldCycles : Nat := 1024

/-- Every unhalted sequencer of the context has waited long enough. -/
def State.yieldDue (s : State) (c : Ctx) : Bool :=
  c.status == .running && s.isActive c && !c.debugStop && allSeqs.any (fun q => !(c.seq q).halted) &&
  allSeqs.all (fun q => (c.seq q).halted || ((match (c.seq q).awaiting with | some a => a.yields && !s.arrived c q a | none => false) &&
    decide (yieldCycles ≤ (c.seq q).waited)))

/-- CONTEXT_YIELD (15 R416). -/
def execContextYield (c : CtxId) (s : State) : Result :=
  .next (match s.ctx? c with
  | some x => if s.yieldDue x then s.updCtx c (fun x => { x with status := .yielded }) else s
  | none => s)

/-- A halted sequencer of the context has a deferred fault to raise (10 R310, 12 R350, 13 R374). -/
def Ctx.owesFault (c : Ctx) : Bool :=
  (c.seqC.halted && !c.deferred.isEmpty) || (c.seqK.halted && (!c.copy.faults.isEmpty || !c.tileFaults.isEmpty))

/-- A yielded context has an item that it awaits, or a deferred fault to raise. DEDUCED (log 40): so does one outside the active bank
whose epilogue holds output, which resumes only there (05 R158). -/
def State.wakeDue (s : State) (c : Ctx) : Bool :=
  c.status == .yielded &&
    (c.owesFault || (!s.isActive c && !c.epi.isEmpty) ||
      allSeqs.any (fun q => match (c.seq q).awaiting with | some a => s.arrived c q a | none => false))

/-- The wait is counted: each in a launch that runs, and one for replies to what a transfer has sent while the launch is brought to
rest (15 R399, R402). -/
def State.waitCounts (s : State) (c : Ctx) (q : SeqId) : Bool :=
  s.counts c || (s.settling c && (q == .l || q == .s) && (c.seq q).sent)

/-- A sequencer has waited past its bound, and its item has not come in this cycle (14 R391). -/
def State.watchdogDue (s : State) (c : Ctx) (q : SeqId) : Option Await :=
  if (c.status == .running || c.status == .yielded) && s.waitCounts c q && !(c.seq q).halted then
    (c.seq q).awaiting.filter (fun a => a.bounded q && decide ((c.seq q).boundOf a < (c.seq q).waited) && !s.arrived c q a)
  else none

/-- WATCHDOG_EXPIRY (14 R391): the sequencer faults at the instruction that waits. -/
def execWatchdogExpiry (c : CtxId) (q : SeqId) (s : State) : Result :=
  .next (match s.ctx? c with
  | none => s
  | some x =>
    match s.watchdogDue x q with
    | none => s
    | some a =>
      ((s.focus c).takeFault (watchdogTrap a x (x.seq q)) (seqNum q) (instrAt x q (wordIx (x.seq q).pc + (x.seq q).off))).focus s.cx.id)

/-- The launch of a context is FROZEN, and the context is not its handler's. -/
def State.atStandstill (s : State) (c : CtxId) : Bool :=
  c.lcore != Config.handlerLcore && (s.launch? c.launch).any (fun l => l.run == .frozen)

/-- A hit that can be reported: its setter is not stopped, nor held in an image. -/
def State.hitDue (s : State) (h : WatchHit) : Bool :=
  match s.ctx? h.ctx with
  | none => true
  | some c => c.status != .stopped && !s.atStandstill h.ctx

/-- WATCH_HIT_BY_OTHER_AGENT (04 R134): the setter's core stops. A setter that has left its node reports nothing. The frame has
SRCE 8 (log 34). -/
def execWatchHitByOtherAgent (s : State) : Result :=
  .next (match s.hits.find? s.hitDue with
  | none => s
  | some h =>
    let s := { s with hits := s.hits.erase h }
    match s.ctx? h.ctx with
    | none => s
    | some c =>
      if c.status = .idle then s
      else
        let back := s.cx.id
        ((s.focus h.ctx).takeFault
          { cause := 0x08B, va := h.va, aux0 := h.aux0, aux1 := h.aux1, srce := some 8, noInstr := true } 8 0).focus back)

/-- SHADOW_COPY_ON_FIRST_WRITE (04 R127): the oldest waiting shadow write; the first to its page copies it. -/
def execShadowCopyOnFirstWrite (s : State) : Result := .next (firstWrite s)

/-- PARITY_REPLAY (14 R390): the read is made again; no architectural state changes. -/
def execParityReplay (_c : CtxId) (_q : SeqId) (s : State) : Result := .next s

/-! ## Pages (04 R135, R136) -/

/-- A page of this device's tables, which is a run of leaves where CONT declares one (04 R102): the first leaf, how many they are,
the first virtual address and the length. -/
structure PageAt where
  tr : Tr
  n : Nat
  va : Nat
  size : Nat
  deriving DecidableEq, Repr

/-- The page that covers an address under an ASID. -/
def pageAt (s : State) (asid : Nat) (va : DWord) : Option PageAt :=
  match walkRoot s asid va.toNat with
  | .error _ => none
  | .ok t =>
    let unit := 2 ^ levelShift t.level
    let n := contRun t.level t.cont
    let i := va.toNat % 2 ^ 56 / unit
    let first := t.entry - i % n * 16
    some ⟨⟨first, readEntry s.mem first, t.level⟩, n, (i - i % n) * unit, n * unit⟩

/-- A range of virtual addresses meets the page. -/
def PageAt.covers (p : PageAt) (va n : Nat) : Bool := decide (va % 2 ^ 56 < p.va + p.size) && decide (p.va < va % 2 ^ 56 + n)

/-- An engine command is in flight on the page, or the accepted writes of a transfer or a tile (step 2; 09 R263). -/
def pageInUse (s : State) (asid : Nat) (p : PageAt) : Bool :=
  s.ctxs.any (fun c => c.asid.toNat == asid && c.copy.queue.any (fun k => k.started.isSome && !k.finished &&
    ((!k.sbuf && p.covers k.src.toNat k.len) || (!k.dbuf && p.covers k.dst.toNat k.len)))) ||
  s.ctxs.any (fun c => c.asid.toNat == asid && (c.landing 2 ++ c.landing 4).any (fun g => p.covers g.va.toNat g.len)) ||
  s.table.any (fun e => e.st == .fired && e.asid == asid &&
    (p.covers (tSrc e.desc).toNat (tBytes e.desc) || p.covers (tDst e.desc).toNat (tBytes e.desc)))

/-- Steps 3 and 4: the lines of the page, and of its shadow where it is of a pair, leave the pins and the caches. -/
def clearPage (p : PageAt) (s : State) : State :=
  if p.tr.spad then s
  else
    let backs (a line : Nat) : Bool := decide (a ≤ line * 64) && decide (line * 64 < a + p.size)
    let mine (line : Nat) : Bool := backs (p.tr.visible p.va) line || (p.tr.spe && backs (p.tr.shadow p.va) line)
    dropLines (fun e => mine e.line) { s with pins := s.pins.filter (fun q => !mine q.line) }

/-- Step 6: the windows on the page are revoked, and tiles cached under the ASID are invalidated (07 R219). -/
def revokePage (asid : Nat) (p : PageAt) (why : Revocation) (s : State) : State :=
  let revoke (c : Ctx) : Ctx :=
    if c.asid.toNat = asid then
      { c with streams := c.streams.map (fun t =>
        { t with pages := t.pages.map (fun w => if p.covers w.va w.size then { w with revoked := some why } else w) }) }
    else c
  { s with cx := revoke s.cx, others := s.others.map revoke, tiles := s.tiles.filter (fun e => e.key[1]? != some asid) }

/-- The leaf with a new page number for its visible backing. -/
def moveLeaf (t : Tr) (ppn : Nat) : Nat :=
  if t.spe && t.sps then t.leaf - t.ppn2 * 2 ^ 78 + ppn * 2 ^ 78 else t.leaf - t.ppn * 2 ^ 28 + ppn * 2 ^ 28

/-- Brirun migrates the page, and its new place lies in local HBM, aligned to its size (04 R102, R103). -/
def mayMigrate (s : State) (p : PageAt) (ppn : Nat) : Bool :=
  let t := p.tr
  t.home == s.dev && !t.pin && !t.h && !t.spad && (!t.spe || t.shst == 0) && ppn * 4096 % p.size == 0 &&
    bits (ppn * 4096) 47 39 == 0 && decide (ppn < 2 ^ 36) && paOk (ppn * 4096 + p.size - 1)

/-- Copy 4 KiB pages with their tags. -/
def copyPages (src dst : Nat) (n : Nat) (s : State) : State :=
  (List.range n).foldl (fun s i => copyPage s (src + 4096 * i) (dst + 4096 * i)) s

/-- Mark every granule of a range in the bitmaps of the launches of an ASID (04 R137). -/
def markMoved (asid a n : Nat) (s : State) : State :=
  (s.launches.filter (fun l => l.asid.toNat == asid)).foldl (fun s l =>
    (List.range ((n + 65535) / 65536)).foldl (fun s i => markDirty s l.num (a + 65536 * i)) s) s

/-- The leaves of a page with new page numbers, each by its place in the run. -/
def moveLeaves (p : PageAt) (ppn : Nat) (m : Memory) : Memory :=
  (List.range p.n).foldl (fun m i =>
    let ea := p.tr.entry + 16 * i
    m.writeN ea (natBytes 16 (moveLeaf { p.tr with leaf := readEntry m ea } (ppn + i * (p.size / p.n / 4096))))) m

/-- The leaves of a page with V = 0. -/
def clearLeaves (p : PageAt) (m : Memory) : Memory :=
  (List.range p.n).foldl (fun m i => m.write (p.tr.entry + 16 * i) (m.read (p.tr.entry + 16 * i) &&& 0xFE)) m

/-- PAGE_MIGRATION (04 R135): firmware moves a page of an ASID to another place of local HBM, once no engine command is in
flight on it. -/
def execPageMigration (asid : Nat) (va : DWord) (ppn : Nat) (s : State) : Result :=
  .next (match pageAt s asid va with
  | none => s
  | some p =>
    if !mayMigrate s p ppn || pageInUse s asid p then s
    else
      let s := clearPage p (settleWrites s)
      let dst := key s.dev (ppn * 2 ^ 12)
      let s := copyPages (p.tr.visible p.va) dst (p.size / 4096) (markMoved asid dst p.size s)
      revokePage asid p .migration { s with mem := moveLeaves p ppn s.mem })

/-- PAGE_UNMAP (04 R135): firmware clears V of a page's leaves. -/
def execPageUnmap (asid : Nat) (va : DWord) (s : State) : Result :=
  .next (match pageAt s asid va with
  | none => s
  | some p =>
    if pageInUse s asid p then s
    else
      let s := clearPage p (settleWrites s)
      revokePage asid p .unmapping { s with mem := clearLeaves p s.mem })

/-! ## Device-fatal errors (14 R390, R392, R393; 01 R34) -/

/-- A table or a leaf, of the tables from one of a level down, has a property: a table by its first byte and its length, a leaf by
its translation and its first virtual address. -/
def anyEntry (s : State) (tab : Nat → Nat → Bool) (p : Tr → Nat → Bool) : List Nat → Nat → Nat → Bool
  | [], _, _ => false
  | level :: rest, table, va =>
    let n := if level = 0 then 256 else 512
    tab table (16 * n) || (List.range n).any (fun i =>
      let ea := table + 16 * i
      let e := readEntry s.mem ea
      let va' := va + i * 2 ^ (48 - 9 * level)
      if !bit e 0 then false
      else if bit e 1 then leafOk s level e ea i && p ⟨ea, e, level⟩ va'
      else tableOk level e && anyEntry s tab p rest (key s.dev (bits e 63 28 * 2 ^ 12)) va')

/-- An ASID has a table or maps a page with a property. -/
def asidHas (s : State) (asid : Nat) (tab : Nat → Nat → Bool) (p : Tr → Nat → Bool) : Bool :=
  match look s.asids asid with
  | none => false
  | some root => anyEntry s tab p [0, 1, 2, 3, 4] (key s.dev root) 0

/-- The backing of a page holds a byte. -/
def backs (k : Nat) (t : Tr) (va : Nat) : Bool :=
  let size := 2 ^ levelShift t.level
  let has (a : Nat) : Bool := decide (a ≤ k) && decide (k < a + size)
  !t.spad && (has (t.visible va) || (t.spe && has (t.shadow va)))

/-- A backing of the page, of a shadow pair either one, is homed on a die of this device: pages above 4 KiB are shared by the two dies
of their stack (04 R121). -/
def homedOn (dev d : Nat) (t : Tr) (va : Nat) : Bool :=
  let here (a : Nat) : Bool := a / 2 ^ 48 == dev && (if t.level = 4 then homeDie (a % 2 ^ 48) == d else bits a 38 36 == d / 2)
  !t.spad && !t.h && (here (t.visible va) || (t.spe && here (t.shadow va)))

/-- Launches with a context that a test selects. -/
def State.launchesWith (s : State) (p : Ctx → Bool) : List Nat :=
  (s.launches.filter (fun l => s.ctxs.any (fun c => c.id.launch == l.num && p c))).map (·.num)

/-- Launches whose ASID has a table or maps a page that a test selects. -/
def State.launchesMapping (s : State) (tab : Nat → Nat → Bool) (p : Tr → Nat → Bool) : List Nat :=
  (s.launches.filter (fun l => asidHas s l.asid.toNat tab p)).map (·.num)

/-- The context stands on a core. -/
def Ctx.onCore (c : Ctx) (core : Nat × Nat) : Bool := c.placed && c.core == core

/-- Some page of a range is homed on a device. -/
def rangeAt (s : State) (asid d : Nat) (va : DWord) (n : Nat) : Bool :=
  (List.range ((va.toNat % 4096 + n + 4095) / 4096)).any (fun i =>
    match walkRoot s asid (va.toNat + 4096 * i) with
    | .ok t => !t.spad && t.home == d
    | .error _ => false)

/-- The context has an access in flight toward a device (13 R356): one of K, a transfer or an AMOS, a started copy, or a tile of
the epilogue. -/
def Ctx.toward (s : State) (d : Nat) (c : Ctx) : Bool :=
  c.remote.any (fun r => !r.replied && r.parts.any (fun p => p.key / 2 ^ 48 == d)) ||
  allSeqs.any (fun q => (c.seq q).sent && (c.seq q).toward.contains d) ||
  c.copy.queue.any (fun k => k.started.isSome && !k.finished &&
    ((!k.sbuf && rangeAt s c.asid.toNat d k.src k.len) || (!k.dbuf && rangeAt s c.asid.toNat d k.dst k.len))) ||
  c.epi.any (fun e => e.sent && !e.acked && e.toward.contains d)

/-- Launches with an access or a collective in flight toward a device (13 R356). -/
def State.toward (s : State) (d : Nat) : List Nat :=
  (s.launchesWith (Ctx.toward s d) ++ (s.table.filter (fun e => e.st == .fired && e.ring.contains d)).map (·.launch)).dedup

/-- The affected launches of a condition, and its cause (14 R392). A context's state is held by that context alone. -/
def fatalAffects (s : State) (f : Fatal) : List Nat × Nat :=
  match f with
  | .parity d i => (s.launchesWith (fun c => c.onCore (d, i)), 0x380)
  | .memory k => (s.launchesMapping (fun a n => decide (a ≤ k) && decide (k < a + n)) (backs k), 0x381)
  | .context c => (s.launchesWith (fun x => x.id == c), 0x381)
  | .route d => (s.toward d, 0x382)
  | .die d =>
    ((s.launchesWith (fun c => c.placed && c.core.1 == d) ++ s.launchesMapping (fun _ _ => false) (homedOn s.dev d)).dedup, 0x383)
  | .core d i => (s.launchesWith (fun c => c.onCore (d, i)), 0x384)
  | .column d i => (s.launchesWith (fun c => c.onCore (d, i)), 0x384)
  | .light => ((s.launches.filter (fun l => l.bc)).map (·.num), 0x385)

/-- A compute core in use. -/
def State.inUse (s : State) (core : Nat × Nat) : Bool := decide (core.1 < 16) && decide (core.2 < 5) && s.working core

/-- The broadcast core. -/
def bcastCore : Nat × Nat := (Config.broadcastDie, 0)

/-- The condition can arise: what fails is in use, and no spare of it is left (14 R392; 01 R33, R34). -/
def State.canFail (s : State) (f : Fatal) : Bool :=
  match f with
  | .core d i => s.inUse (d, i) || (d, i) == bcastCore
  | .column d i => s.inUse (d, i) && s.columnsUsed.contains (d, i)
  | .light => s.bcw && (s.spareLines == 0 || !s.spareLaser)
  | .route d => d != s.dev
  | _ => true

/-- The spare core of a die goes into use in place of a core (01 R33), or the core is withdrawn (R34). -/
def State.replaceCore (s : State) (core : Nat × Nat) (spare : Bool) : State :=
  if !s.inUse core then s
  else
    match (if spare then s.spareCores.find? (fun c => c.1 == core.1) else none) with
    | some sp => { s with spareCores := s.spareCores.erase sp, withdrawn := s.withdrawn ++ [core], spares := s.spares - 1 }
    | none => { s with withdrawn := s.withdrawn ++ [core], cores := s.cores - 1 }

/-- A die is withdrawn with its cores (14 R394): its spare core can no longer be brought in. DEDUCED (log 53): without the broadcast
die the broadcast is lost. -/
def State.withdrawDie (s : State) (d : Nat) : State :=
  if d = Config.broadcastDie then { s with bcw := false }
  else
    let s := (List.range 5).foldl (fun s i => s.replaceCore (d, i) false) s
    { s with
      withdrawn := s.withdrawn ++ s.spareCores.filter (fun c => c.1 == d)
      spares := s.spares - BitVec.ofNat 8 (s.spareCores.filter (fun c => c.1 == d)).length
      spareCores := s.spareCores.filter (fun c => c.1 != d) }

/-- What a condition does to the machine besides its launches (14 R392, R394). The broadcast core has no spare. -/
def fatalDisables (f : Fatal) (s : State) : State :=
  match f with
  | .route d => { s with present := s.present.filter (· != d) }
  | .die d => s.withdrawDie d
  | .core d i => if (d, i) = bcastCore then { s with bcw := false } else s.replaceCore (d, i) true
  | .column d i => s.replaceCore (d, i) false
  | .light => { s with bcw := false }
  | _ => s

/-- The die whose mailbox takes the report of a condition that an agent without a bank of its own detects: an HBM or die L2 agent, a
link, a die (14 R385). DESIGN CHOICE (log 53): the mailbox of that die, FD0's for a link. -/
def reportDie (s : State) (f : Fatal) : Option Nat :=
  match f with
  | .memory k => if k / 2 ^ 48 = s.dev then some (homeDie (k % 2 ^ 48)) else none
  | .route _ => some Config.fabricDie0
  | .die d => some d
  | .light => some Config.broadcastDie
  | _ => none

/-- DEVICE_FATAL_ERROR (14 R392, R393): the affected launches are lost with STATUS 4. What has detected the condition reports it
(R385). -/
def execDeviceFatalError (f : Fatal) (s : State) : Result :=
  .next (if !s.canFail f then s
    else
      let (ls, cause) := fatalAffects s f
      let s' := fatalDisables f (s.loseLaunches ls cause)
      { s' with reports := s'.reports ++ ((reportDie s f).toList.map (fun d => (d, cause))) })

/-- CORE_WITHDRAWAL (01 R34): a core fails on a die that has no spare core left. -/
def execCoreWithdrawal (die core : Nat) (s : State) : Result :=
  .next (if s.spareCores.any (fun c => c.1 == die) || !s.inUse (die, core) then s
    else (s.loseLaunches (s.launchesWith (fun c => c.onCore (die, core))) 0x384).replaceCore (die, core) false)

/-- LINK_LANE_FAILURE (13 R356; 14 R392): the first lane of a link to fail is replaced by its spare; the next takes the link
out of routing, and the devices to which no route then remains are lost, each with a report. -/
def execLinkLaneFailure (link : Nat) (lost : List Nat) (s : State) : Result :=
  .next (
    let n := (look s.lanesFailed link).getD 0
    let s := { s with lanesFailed := upd s.lanesFailed link (n + 1) }
    if n = 1 then
      (lost.filter (· != s.dev)).foldl (fun s d =>
        let s' := fatalDisables (.route d) (s.loseLaunches (s.toward d) 0x382)
        { s' with reports := s'.reports ++ [(Config.fabricDie0, 0x382)] }) s
    else s)

/-! ## Urgent pre-emption (14 R397) -/

/-- Inside a plan the broadcast core records "urgent pre-emption" and the plan aborts; on a joined module the exporter's does. -/
def urgentAbort (x : Ctx) (s : State) : State :=
  if s.exporter.isSome then { s with plan := s.plan.map (·.aborts s.clock), light := s.light.map (·.cutAt s.clock) }
  else
    ((s.focus ⟨x.id.launch, Config.bcastLcore⟩).takeFault { cause := 0x318, srce := some 8, noInstr := true } 8 0).focus s.cx.id

/-- Outside a plan it acts as a pre-emption: the context gives up its bank, to the shadow context where that can issue, else for the
spill area once its image can be written (R159). None while it must wait. -/
def urgentOutside (x : Ctx) (s : State) : Option State :=
  if !s.isActive x || x.status == .idle then some s
  else if (s.shadowOf x.core).any Ctx.ready then some (s.swap x.core)
  else if s.imageReady x then some (spillCtx x.id s)
  else none

/-- The urgent pre-emption of a context, inside a plan or outside one. DEDUCED (log 54): inside a plan it is over with the abort;
outside, one that must wait is kept. -/
def urgentWith (inside : Bool) (c : CtxId) (s : State) : State :=
  let rid : State := { s with urgent := s.urgent.filter (· != c) }
  match s.ctx? c with
  | none => rid
  | some x =>
    let waits : State := { s with urgent := if s.urgent.contains c then s.urgent else s.urgent ++ [c] }
    if inside then (if s.inPlan x then urgentAbort x rid else rid) else (urgentOutside x rid).getD waits

/-- The urgent pre-emption of a context as it stands. -/
def urgentOn (c : CtxId) (s : State) : State := urgentWith ((s.ctx? c).any s.inPlan) c s

/-- An urgent pre-emption that has waited can go on. It was one outside a plan, so a plan that has begun since defers it to its PLANE, as
it does any pre-emption (05 R162). -/
def State.urgentDue (s : State) : Option CtxId :=
  s.urgent.find? (fun c => (s.ctx? c).all (fun x => !s.inPlan x && (urgentOutside x s).isSome))

/-- URGENT_PREEMPTION. -/
def execUrgentPreemption (c : CtxId) (s : State) : Result := .next (urgentOn c s)

/-! ## Calibration and spares (14 R395, R396; 01 R33) -/

/-- A calibration slot (10 R292). -/
def State.calibrationSlot (s : State) : Bool := decide (4092 ≤ s.clock % 4096)

/-- CALIBRATION_RUN (14 R395): firmware calibrates the bank of a core. -/
def execCalibrationRun (die core : Nat) (s : State) : Result :=
  .next (if s.calibrationSlot then
    { s with calibrated := s.calibrated.filter (fun e => e.1 != (die, core)) ++ [((die, core), s.clock)]
             drifted := s.drifted.filter (· != (die, core)), skewed := s.skewed.filter (· != (die, core)) }
  else s)

/-- CALIBRATION_STALE (14 R395): the bank's temperature leaves its band; `skew` says whether its skew leaves tolerance (10 R309,
log 28). That 1 ms has passed needs no event. -/
def execCalibrationStale (die core : Nat) (skew : Bool) (s : State) : Result :=
  .next { s with drifted := if s.drifted.contains (die, core) then s.drifted else s.drifted ++ [(die, core)]
                 skewed := if skew && !s.skewed.contains (die, core) then s.skewed ++ [(die, core)] else s.skewed }

/-- SPARE_LINE_OR_COLUMN (14 R396): at a calibration slot a spare line, or the spare column of a core, goes into use. -/
def execSpareLineOrColumn (core : Option (Nat × Nat)) (s : State) : Result :=
  .next (if !s.calibrationSlot then s
    else
      match core with
      | none => { s with spareLines := s.spareLines - 1 }
      | some c => if s.columnsUsed.contains c then s else { s with columnsUsed := s.columnsUsed ++ [c] })

/-- 2 ms in steps (14 R396). -/
def laserSwitchSteps : Nat := 32000000

/-- COMB_LASER_SWITCH (14 R396): the spare module replaces the failing one within 2 ms. A second failure ends the broadcast
(R392). -/
def execCombLaserSwitch (steps : Nat) (s : State) : Result :=
  if s.spareLaser then .next { s with spareLaser := false, laser := s.clock + min steps laserSwitchSteps }
  else execDeviceFatalError .light s

/-- SPARE_CORE_MOVE (14 R396): the contexts of a degrading core move to the spare core of its die, outside a plan and once
their windows and started copies are over. -/
def execSpareCoreMove (die core : Nat) (s : State) : Result :=
  .next (match s.spareCores.find? (fun c => c.1 == die) with
  | none => s
  | some sp =>
    let here := s.ctxs.filter (fun c => c.onCore (die, core))
    if !s.inUse (die, core) || here.any (fun c => s.inPlan c || !c.wins.isEmpty || c.copying || c.draining) then s
    else
      let move (c : Ctx) : Ctx :=
        match c.place with
        | .bank d i b => if (d, i) = (die, core) then { c with place := .bank d sp.2 b } else c
        | _ => c
      let s := { s with cx := move s.cx, others := s.others.map move, tiles := s.tiles.filter (fun e => e.core != (die, core)) }
      let s := s.activate sp (s.activeBank (die, core))
      s.replaceCore (die, core) true)

/-- SPARE_HBM_PSEUDO_CHANNEL (01 R33): a program sees only time. -/
def execSpareHbmPseudoChannel (stack : Nat) (s : State) : Result :=
  .next { s with spareChannels := modAt s.spareChannels stack (· - 1) }

end Sys2Proof.Machine
end

