-- ==== Sys2Proof/Machine/Sha.lean ====
section
/-! DEFINITION. SHA-256 and the LMS signature check that 17 R438 names. PRESUMED (log 14): the spec does not restate them; they are those of
FIPS 180-4 and of RFC 8554 with LMS_SHA256_M32_H15 and LMOTS_SHA256_N32_W4. -/
namespace Sys2Proof.Machine

/-- A number in `n` bytes, the highest first. -/
def bigBytes (n v : Nat) : List Byte := (natBytes n v).reverse
/-- The number of bytes, the highest first. -/
def bigNat (bs : List Byte) : Nat := bs.foldl (fun n b => 256 * n + b.toNat) 0
/-- The first `k` pieces of `n` bytes each. -/
def pieces (n : Nat) : Nat → List Byte → List (List Byte)
  | 0, _ => []
  | k + 1, bs => bs.take n :: pieces n k (bs.drop n)

/-! ## SHA-256 -/

/-- The round constants. -/
def shaRounds : List Word :=
  [0x428A2F98, 0x71374491, 0xB5C0FBCF, 0xE9B5DBA5, 0x3956C25B, 0x59F111F1, 0x923F82A4, 0xAB1C5ED5,
   0xD807AA98, 0x12835B01, 0x243185BE, 0x550C7DC3, 0x72BE5D74, 0x80DEB1FE, 0x9BDC06A7, 0xC19BF174] ++
  [0xE49B69C1, 0xEFBE4786, 0x0FC19DC6, 0x240CA1CC, 0x2DE92C6F, 0x4A7484AA, 0x5CB0A9DC, 0x76F988DA,
   0x983E5152, 0xA831C66D, 0xB00327C8, 0xBF597FC7, 0xC6E00BF3, 0xD5A79147, 0x06CA6351, 0x14292967] ++
  [0x27B70A85, 0x2E1B2138, 0x4D2C6DFC, 0x53380D13, 0x650A7354, 0x766A0ABB, 0x81C2C92E, 0x92722C85,
   0xA2BFE8A1, 0xA81A664B, 0xC24B8B70, 0xC76C51A3, 0xD192E819, 0xD6990624, 0xF40E3585, 0x106AA070] ++
  [0x19A4C116, 0x1E376C08, 0x2748774C, 0x34B0BCB5, 0x391C0CB3, 0x4ED8AA4A, 0x5B9CCA4F, 0x682E6FF3,
   0x748F82EE, 0x78A5636F, 0x84C87814, 0x8CC70208, 0x90BEFFFA, 0xA4506CEB, 0xBEF9A3F7, 0xC67178F2]

/-- The hash before the first block. -/
def shaStart : List Word :=
  [0x6A09E667, 0xBB67AE85, 0x3C6EF372, 0xA54FF53A, 0x510E527F, 0x9B05688C, 0x1F83D9AB, 0x5BE0CD19]

/-- Word `i` of a list; 0 past its end. -/
def wordAt (ws : List Word) (i : Nat) : Word := (ws[i]?).getD 0

/-- The message schedule, its last word first: `n` words more. -/
def shaExpand : Nat → List Word → List Word
  | 0, r => r
  | n + 1, r =>
    let a := wordAt r 14
    let b := wordAt r 1
    let s0 := a.rotateRight 7 ^^^ a.rotateRight 18 ^^^ a >>> 3
    let s1 := b.rotateRight 17 ^^^ b.rotateRight 19 ^^^ b >>> 10
    shaExpand n ((wordAt r 15 + s0 + wordAt r 6 + s1) :: r)

/-- One round, with the sum of its constant and its word of the schedule. -/
def shaRound (h : List Word) (kw : Word) : List Word :=
  match h with
  | [a, b, c, d, e, f, g, x] =>
    let s1 := e.rotateRight 6 ^^^ e.rotateRight 11 ^^^ e.rotateRight 25
    let s0 := a.rotateRight 2 ^^^ a.rotateRight 13 ^^^ a.rotateRight 22
    let t1 := x + s1 + (e &&& f ^^^ ~~~e &&& g) + kw
    let t2 := s0 + (a &&& b ^^^ a &&& c ^^^ b &&& c)
    [t1 + t2, a, b, c, d + t1, e, f, g]
  | _ => h

/-- One block of 64 bytes. -/
def shaBlock (h : List Word) (block : List Byte) : List Word :=
  let first := (pieces 4 16 block).map (fun p => (BitVec.ofNat 32 (bigNat p) : Word))
  let ws := (shaExpand 48 first.reverse).reverse
  List.zipWith (· + ·) h ((List.zipWith (· + ·) shaRounds ws).foldl shaRound h)

/-- The message with a 1, zeros, and its length in bits, in whole blocks. -/
def shaPadded (m : List Byte) : List Byte :=
  m ++ 0x80 :: List.replicate ((119 - m.length % 64) % 64) 0 ++ bigBytes 8 (8 * m.length)

/-- SHA-256: 32 bytes. -/
def shaBytes (m : List Byte) : List Byte :=
  let p := shaPadded m
  ((pieces 64 (p.length / 64) p).foldl shaBlock shaStart).flatMap (fun w => bigBytes 4 w.toNat)

/-- SHA-256 as a number whose lowest byte is the first. -/
def sha256 (m : List Byte) : BitVec 256 := BitVec.ofNat 256 (leNat (shaBytes m))

/-! ## LMS (RFC 8554) -/

/-- Types of LMS and LM-OTS: LMS_SHA256_M32_H15 and LMOTS_SHA256_N32_W4. -/
def lmsType : Nat := 7
def lmotsType : Nat := 3
/-- Height of the tree; chains of a one-time signature, and steps of a chain. -/
def lmsHeight : Nat := 15
def otsChains : Nat := 67
def otsSteps : Nat := 15
/-- Bytes of an LMS public key, of a one-time signature and of an LMS signature. -/
def lmsKeyBytes : Nat := 56
def otsBytes : Nat := 36 + 32 * otsChains
def lmsSigBytes : Nat := 8 + otsBytes + 32 * lmsHeight

/-- Steps `j` to the last of chain `i`, `left` of them. -/
def otsChain (pre : List Byte) (i : Nat) : Nat → Nat → List Byte → List Byte
  | 0, _, x => x
  | left + 1, j, x => otsChain pre i left (j + 1) (shaBytes (pre ++ bigBytes 2 i ++ bigBytes 1 j ++ x))

/-- The digits of 4 bits of a hash, and those of their checksum. -/
def otsDigits (q : List Byte) : List Nat :=
  let split (bs : List Byte) : List Nat := bs.flatMap (fun b => [b.toNat / 16, b.toNat % 16])
  let ds := split q
  ds ++ (split (bigBytes 2 (ds.foldl (fun n d => n + (otsSteps - d)) 0 * 16))).take 3

/-- The one-time public key that a one-time signature of a message leads to. -/
def otsKey (pre : List Byte) (sig m : List Byte) : List Byte :=
  let c := (sig.drop 4).take 32
  let ys := pieces 32 otsChains (sig.drop 36)
  let ds := otsDigits (shaBytes (pre ++ bigBytes 2 0x8181 ++ c ++ m))
  let zs := (List.zip ds ys).zipIdx.map (fun p => otsChain pre p.2 (otsSteps - p.1.1) p.1.1 p.1.2)
  shaBytes (pre ++ bigBytes 2 0x8080 ++ zs.flatten)

/-- The root that a node leads to by a path. -/
def lmsClimb (id : List Byte) : List (List Byte) → Nat → List Byte → List Byte
  | [], _, x => x
  | y :: path, node, x =>
    let pre := id ++ bigBytes 4 (node / 2) ++ bigBytes 2 0x8383
    lmsClimb id path (node / 2) (shaBytes (pre ++ (if node % 2 = 1 then y ++ x else x ++ y)))

/-- An LMS signature of a message verifies under a public key, both of the types of 17 R438. -/
def lmsVerifies (key m sig : List Byte) : Bool :=
  let id := (key.drop 8).take 16
  let q := bigNat (sig.take 4)
  let ots := (sig.drop 4).take otsBytes
  let path := pieces 32 lmsHeight (sig.drop (8 + otsBytes))
  let leaf := 2 ^ lmsHeight + q
  key.length == lmsKeyBytes && bigNat (key.take 4) == lmsType && bigNat ((key.drop 4).take 4) == lmotsType &&
    sig.length == lmsSigBytes && bigNat (ots.take 4) == lmotsType && bigNat ((sig.drop (4 + otsBytes)).take 4) == lmsType &&
    decide (q < 2 ^ lmsHeight) &&
    lmsClimb id path leaf (shaBytes (id ++ bigBytes 4 leaf ++ bigBytes 2 0x8282 ++ otsKey (id ++ bigBytes 4 q) ots m)) ==
      key.drop 24

end Sys2Proof.Machine
end

