-- ==== Sys2Proof/Machine/Host.lean ====
section
/-! DEFINITION. Host link, boot and trust (17): the register window, submissions, the management mailbox, boot, attestation. -/
namespace Sys2Proof.Machine

/-! ## The identity record (17 R436) -/

/-- The 128 bits of the identity record. -/
def State.identity (s : State) : Nat :=
  s.dev % 2 ^ 14 * 2 ^ 114 + s.boot.toNat * 2 ^ 96 + 0x3C0 * 2 ^ 64 + 0xB0 * 2 ^ 56 + s.fail.toNat * 2 ^ 32 + 0x53485059

/-- The part runs: boot is over (17 R437). -/
def State.up (s : State) : Bool := !s.held && s.boot == 1

/-! ## Submissions (17 R433, R434) -/

/-- SUBMISSION_QUEUE_BASE_WRITE (17 R433): the expected number is 1 again. The base is aligned to 64 KiB, so its low bits are
not kept (log 33). -/
def execSubmissionQueueBaseWrite (v : DWord) (s : State) : Result :=
  .next (if s.up then { s with subBase := v - BitVec.ofNat 64 (v.toNat % 65536), subNext := 1 } else s)

/-- The physical address of the slot of the expected number. -/
def State.slotPa (s : State) : Nat := s.subBase.toNat + 256 * ((s.subNext - 1) % 256)

/-- Its key. -/
def State.slotAt (s : State) : Nat := key s.dev s.slotPa

/-- The machine reads the slot: it lies in host memory (log 33), which is region 1 of 04 R103, fewer than 256 launches are held, and its
SEQ is the expected number. -/
def State.slotReady (s : State) : Bool :=
  s.up && s.slotPa / 2 ^ 39 == 1 && decide (s.launches.length < launchLimit) && leNat (s.mem.readN (s.slotAt + 128) 4) == s.subNext % 2 ^ 32

/-- The status word (17 R434). -/
def statusWord (seq cause state : Nat) : Nat := seq % 2 ^ 32 * 2 ^ 32 + cause % 2 ^ 10 * 2 ^ 16 + state

/-- HOST_SUBMISSION (17 R434): the slot of the expected number is read, its packet checked, and its status written. -/
def execHostSubmission (s : State) : Result :=
  .next (
    if !s.slotReady then s
    else
      let a := s.slotAt
      let n := s.subNext
      match acceptPacket (leNat (s.mem.readN a 128)) none s with
      | .ok l s' =>
        { s' with mem := (s'.mem.writeN (a + 144) (natBytes 8 l)).writeN (a + 136) (natBytes 8 (statusWord n 0 1)), subNext := n + 1 }
      | .error e s' =>
        { s' with mem := s'.mem.writeN (a + 136) (natBytes 8 (statusWord n (causeOf e) 2)), subNext := n + 1 })

/-- HOST_MEMORY_ACCESS (17 R432): the host writes memory at its home, or reads it. No bitmap counts its writes. -/
def execHostMemoryAccess (a : HostAccess) (s : State) : Result :=
  .next (match a with
  | .read _ _ => s
  | .write pa data =>
    if (List.range data.length).all (fun i => paOk (pa + i)) then { s with mem := s.mem.writeN (key s.dev pa) data } else s)

/-! ## The management mailbox (17 R435) -/

/-- Word `j` of a slot. -/
def MboxSlot.word (m : MboxSlot) (j : Nat) : DWord := (m.w[j]?).getD 0
/-- A slot of the mailbox. -/
def State.mboxAt (s : State) (i : Nat) : MboxSlot := (s.mbox[i]?).getD {}
/-- Change it. -/
def State.updMbox (s : State) (i : Nat) (f : MboxSlot → MboxSlot) : State := { s with mbox := modAt s.mbox i f }
/-- A command is in the slot. -/
def MboxSlot.busy (m : MboxSlot) : Bool := m.word 0 != 0
/-- OP of a slot. -/
def MboxSlot.op (m : MboxSlot) : Nat := bits (m.word 0).toNat 7 0

/-- REGISTER_WINDOW_WRITE (17 R435): the argument words and word 0 of a slot that is not busy; a write to another place of the
window, or to a busy slot, is ignored. -/
def execRegisterWindowWrite (off : Nat) (v : DWord) (s : State) : Result :=
  .next (
    let i := (off - 0x1000) / 64
    let j := off % 64 / 8
    if s.up && decide (0x1000 ≤ off) && decide (i < 16) && off % 8 == 0 && decide (j < 7) && !(s.mboxAt i).busy then
      s.updMbox i (fun m => { m with w := modAt m.w j (fun _ => v) })
    else s)

/-- The management core takes the command of a slot: it polls the slots in index order, and one that it has begun goes on. -/
def State.polls (s : State) (i : Nat) : Bool :=
  s.up && decide (i < 16) && (s.mboxAt i).busy && (List.range i).all (fun j => !(s.mboxAt j).busy || (s.mboxAt j).begun)

/-- The results, the status in word 7, and then word 0 cleared. -/
def answerSlot (i : Nat) (results : List (Nat × DWord)) (cause state : Nat) (s : State) : State :=
  s.updMbox i (fun m =>
    let tag := bits (m.word 0).toNat 63 32
    let w := results.foldl (fun w r => modAt w r.1 (fun _ => r.2)) m.w
    let w := modAt w 7 (fun _ => BitVec.ofNat 64 (statusWord tag cause state))
    { w := modAt w 0 (fun _ => 0), begun := false, count := 0 })

/-- A command that may wait: it answers when its operation completes, is refused with the cause of a check that fails, and goes
on later where it waits. -/
def command (i : Nat) (op : M (List (Nat × DWord))) (s : State) : State :=
  match op s with
  | .ok r s' => answerSlot i r 0 1 s'
  | .error (.trap t) s' => answerSlot i [] t.cause 2 s'
  | .error (.wait _) s' => s'.updMbox i (fun m => { m with begun := true })

/-- IDENT (17 R435, R436). -/
def execIdent (slot : Nat) (s : State) : Result :=
  .next (if s.polls slot && (s.mboxAt slot).op == 1 then
    answerSlot slot [(1, BitVec.ofNat 64 s.identity), (2, BitVec.ofNat 64 (s.identity / 2 ^ 64))] 0 1 s
  else s)

/-- MGMT_FREEZE (15 R419): any launch of the device; its image is written under the launch's own ASID (log 33). -/
def execMgmtFreeze (slot : Nat) (s : State) : Result :=
  .next (
    let m := s.mboxAt slot
    if s.polls slot && m.op == 2 then
      command slot (do
        let n := m.word 2
        match (m.word 1).toNat with
        | 0 => do freezeMarkM n; pure []
        | 1 => do
          let size ← freezeM (some slot) n (m.word 3) (fun l => l.asid.toNat)
          pure [(1, BitVec.ofNat 64 size)]
        | 2 => do freezeDropM n; pure []
        | 3 => do freezeContM n; pure []
        | _ => fault 0x013) s
    else s)

/-- MGMT_THAW (15 R419). -/
def execMgmtThaw (slot : Nat) (s : State) : Result :=
  .next (
    let m := s.mboxAt slot
    if s.polls slot && m.op == 3 then
      command slot (do
        let s ← get
        if launchLimit ≤ s.launches.length then waitFor .reply
        else do
          require ((m.word 1).toNat % 256 == 0) 0x321
          require (decide ((m.word 2).toNat < 128)) 0x321
          require (decide ((m.word 3).toNat < 2 ^ 13)) 0x301
          let n ← thawM (m.word 1) (m.word 2).toNat (m.word 3).toNat
          pure [(1, BitVec.ofNat 64 n)]) s
    else s)

/-- Signatures that two levels of height 15 give (17 R438, R439). -/
def attestLimit : Nat := 2 ^ 30

/-- Bytes of a two-level HSS signature of those parameter sets (RFC 8554; log 14). -/
def signatureBytes : Nat := 5396

/-- The report but for its signature: nonce, identity record, the images that step 2 started, the count (17 R439; log 33). -/
def reportBody (m : MboxSlot) (s : State) : List Byte :=
  ([1, 2, 3, 4].flatMap (fun j => natBytes 8 (m.word j).toNat)) ++ natBytes 16 s.identity ++
    (s.images.drop 1).flatMap (fun h => natBytes 32 h.toNat) ++ natBytes 8 m.count

/-- ATTEST (17 R439): first the counter in one-time storage advances; then the report is signed and written. An exhausted
counter refuses it. -/
def execAttest (slot : Nat) (s : State) : Result :=
  .next (
    let m := s.mboxAt slot
    if !(s.polls slot && m.op == 4) then s
    else if !m.begun then
      if attestLimit ≤ s.attested then answerSlot slot [] 0x3FF 2 s
      else ({ s with attested := s.attested + 1 } : State).updMbox slot (fun m => { m with begun := true, count := s.attested + 1 })
    else
      let body := reportBody m s
      let report := body ++ natBytes signatureBytes (Config.hssSignature (leNat body))
      let s := { s with mem := s.mem.writeN (key s.dev ((m.word 5).toNat % 2 ^ 48)) report }
      answerSlot slot [(1, BitVec.ofNat 64 report.length)] 0 1 s)

/-- URGENT (17 R435): an urgent pre-emption of every context of a launch, each inside a plan or outside one as it stands when the command
is taken. -/
def execUrgent (slot : Nat) (s : State) : Result :=
  .next (
    let m := s.mboxAt slot
    if s.polls slot && m.op == 5 then
      let cs := (s.ctxs.filter (fun c => c.id.launch == (m.word 1).toNat)).map Ctx.id
      answerSlot slot [] 0 1 (cs.foldl (fun t c => urgentWith ((s.ctx? c).any s.inPlan) c t) s)
    else s)

/-- MBOX_OTHER_OP (17 R435). -/
def execMboxOtherOp (slot : Nat) (s : State) : Result :=
  .next (
    let op := (s.mboxAt slot).op
    if s.polls slot && !(decide (1 ≤ op) && decide (op ≤ 5)) then answerSlot slot [] 0x300 2 s else s)

/-! ## Reset and boot (17 R437, R438) -/

/-- What outlives a reset: one-time storage, the device's number, the turns to come, and memory (log 33). -/
def State.afterReset (s : State) : State :=
  { State.reset with
    dev := s.dev, agenda := s.agenda, ticks := s.ticks, mem := s.mem, tags := s.tags, rollback := s.rollback, attested := s.attested }

/-- RESET_RELEASE (17 R437, 01 R17): the plan clock starts at 0 and boot begins. -/
def execResetRelease (s : State) : Result := .next s.afterReset

/-- A key of this device's HBM. -/
def State.ownHbm (s : State) (k : Nat) : Bool := k / 2 ^ 48 == s.dev && bits k 47 39 == 0

/-- POWER_LOSS (17 R439): everything but one-time storage goes, and the part is held in reset; its HBM is as though never
written (log 33). -/
def execPowerLoss (s : State) : Result :=
  .next { s.afterReset with held := true, mem := s.mem.filter (fun e => !s.ownHbm e.1), tags := s.tags.filter (fun e => !s.ownHbm (32 * e.1)) }

/-- An image verifies (17 R438): the signature is that of its SHA-256. -/
def imageGood (i : FirmwareImage) (rollback : Nat) : Bool :=
  sha256 i.pubKey == Config.keyHash && lmsVerifies i.pubKey (shaBytes i.body) i.signature && decide (rollback ≤ i.version)

/-- Images verified one after another, up to one that is refused: whether all verify, and the counter, which each that verifies raises to
its version. -/
def verifyImages : List FirmwareImage → Nat → Bool × Nat
  | [], c => (true, c)
  | i :: is, c => if imageGood i c then verifyImages is (max c i.version) else (false, c)

/-- What steps 1 and 2 come to: the counter that the images raise, and, where all verify, their hashes after those of the steps before. -/
def State.takeImages (s : State) (is : List FirmwareImage) : Bool × State :=
  let (ok, c) := verifyImages is s.rollback
  (ok, { s with rollback := c, images := if ok then s.images ++ is.map (fun i => sha256 i.body) else s.images })

/-- A boot step that fails: BOOT is 2 until the next reset, and FAIL says which step it was. -/
def State.bootFails (s : State) (step : Nat) : State := { s with boot := 2, fail := BitVec.ofNat 10 step }

/-- Every bank is calibrated at this step. -/
def State.calibrateAll (s : State) : List ((Nat × Nat) × Nat) :=
  (List.range 16).flatMap (fun d => (List.range 5).map (fun i => ((d, i), s.clock)))

/-- Ports with light from a list. -/
def portMask (ps : List (Nat × Nat)) : Nat := sumOf (((ps.map (·.1)).dedup.filter (· < 4)).map (fun p => 2 ^ p))

/-- The part is a module joined to an exporter (11 R333): every die takes the exporter's plan clock (01 R17; log 26). -/
def State.join (s : State) (exporter clock : Nat) : State :=
  { s with
    exporter := some exporter, clock := clock, intervals := clock / intervalSteps
    calibrated := s.calibrated.map (fun e => (e.1, clock - (s.clock - e.2))), laser := if s.laser = 0 then 0 else clock + (s.laser - s.clock) }

/-- BOOT_STEP (17 R437): the next step completes or fails. -/
def execBootStep (b : BootInput) (s : State) : Result :=
  .next (
    if s.held || s.boot != 0 then s
    else
      let step := s.bootSteps + 1
      let done (s : State) : State := { s with bootSteps := step }
      if !b.ok then s.bootFails step
      else
        match step with
        | 1 =>
          if b.images.length = 1 then
            match ({ s with images := [] } : State).takeImages b.images with
            | (true, s) => done s
            | (false, s) => s.bootFails step
          else s
        | 2 =>
          if b.images.length = 19 then
            match s.takeImages b.images with
            | (true, s) => done s
            | (false, s) => s.bootFails step
          else s
        | 3 =>
          if b.spares.length = 16 ∧ b.spares.all (· < 5) then
            done { s with spareCores := b.spares.zipIdx.map (fun p => (p.2, p.1)), calibrated := s.calibrateAll, drifted := [], skewed := [] }
          else s
        | 4 =>
          if b.peers.all (fun p => p.1 < 4) ∧ b.peers.length ≤ 3 then
            let s := { s with present := b.present, peers := b.peers, fibreUp := BitVec.ofNat 4 (portMask b.peers) }
            match b.exporter with
            | none => done s
            | some (d, c) => if b.peers.any (fun p => p.2 == d) then done (s.join d c) else s
          else s
        | _ => done { s with boot := 1 })

end Sys2Proof.Machine
end

