-- ==== Sys2Proof/Machine/Issue.lean ====
section
/-! DEFINITION. What a sequencer executes next: code lines (02 R36 to R43), transfers (R40), the checks of R42, and bundles
(R50, R51); and a chunk of an LDZ in progress (07 R225). -/
namespace Sys2Proof.Machine

/-! ## Code lines -/

/-- The sequencer enters a line: rows 1 to 3 of 02 R42. -/
def enterLine (va : DWord) : M Line := do
  let l ← fetchLine va
  let s ← get
  if !linkOk (l.word 0) then throw (.trap { cause := 0x020, noInstr := true })
  else if linkOwner (l.word 0) ≠ seqNum s.cur then throw (.trap { cause := 0x021, noInstr := true })
  else do
    modSeq (fun st => { st with fetched := if st.fetched.any (fun e => e.va == va) then st.fetched else l :: st.fetched })
    pure l

/-- The map of C, of a compute core or of the broadcast core. -/
def isC (q : SeqSel) : Bool := q == .c || q == .b

/-- Word `i` of a line begins an instruction, and on C a bundle: the words of the line are read from word `k` on, `starts`
saying that a bundle begins there. -/
def beginsAt (q : SeqSel) (l : Line) (i : Nat) : Nat → Nat → Bool → Bool
  | 0, _, _ => false
  | fuel + 1, k, starts =>
    if k = i then starts
    else if i < k then false
    else beginsAt q l i fuel (k + if isLong q (l.word k / 2 ^ 26 % 64) then 2 else 1) (!isC q || bit (l.word k) 3)

/-- A taken transfer takes place (02 R40). A target that fails row 1 or 3 leaves the program counter after the delay and the
transfer pending; one whose line fails leaves the program counter at it. -/
def takeTransfer (p : Pend) : M Unit := do
  let s ← get
  let old := s.cx.seq s.cur
  if p.target.toNat % 4 ≠ 0 ∨ wordIx p.target = 0 then throw (.trap { cause := 0x024, noInstr := true })
  else do
    modSeq (fun st => { st with pc := p.target, pend := none, line := none })
    let l ← enterLine (lineVa p.target)
    if beginsAt (selOf s.cx s.cur) l (wordIx p.target) 15 1 true then modSeq (fun st => { st with line := some l })
    else do
      modSeq (fun st => { st with pc := old.pc, pend := old.pend, line := old.line })
      throw (.trap { cause := 0x024, noInstr := true })

/-- The line of the next instruction, after a transfer that is to be made (02 R39, R40). -/
def nextLine : M Line := do
  let s ← get
  match (s.cx.seq s.cur).pend with
  | some p => if p.taken ∧ p.left = 0 then takeTransfer p else pure ()
  | none => pure ()
  let s ← get
  let st := s.cx.seq s.cur
  if wordIx st.pc = 0 then throw (.trap { cause := 0x022, noInstr := true })
  else
    match (match st.line with | some l => if l.va = lineVa st.pc then some l else none | none => none) with
    | some l => pure l
    | none => do
      let l ← enterLine (lineVa st.pc)
      modSeq (fun st => { st with line := some l })
      pure l

/-! ## Bundles (02 R50, R51) -/

/-- A register that a C instruction writes: its kind and number. A write to a0, p0 or q0 is none. -/
inductive Dest where
  | a (i : Nat) | v (i : Nat) | p (i : Nat) | q (i : Nat) | t (i : Nat) | j (i : Nat) | m (i : Nat)
  | acc (i : Nat) | lvt (i : Nat) | act (i : Nat) | bank (i : Nat) | queue (i : Nat)
  deriving DecidableEq, Repr

/-- A destination whose write is ignored. -/
def Dest.ignored (d : Dest) : Bool := d == .a 0 || d == .p 0 || d == .q 0

/-- The registers and queues that an instruction of C writes; every other instruction writes none. -/
def destsOf (i : Instr) : List Dest :=
  match i with
  | .pbt _ j _ _ _ => [.j j.toNat]
  | .brxd _ _ b => [.a (b.toNat % 16)]
  | .vadd _ d _ _ _ _ => [.v d.toNat]
  | .vsub _ d _ _ _ _ => [.v d.toNat]
  | .vmul _ d _ _ _ _ => [.v d.toNat]
  | .vfma _ d _ _ _ _ => [.v d.toNat]
  | .vfms _ d _ _ _ _ => [.v d.toNat]
  | .vmin _ d _ _ _ _ => [.v d.toNat]
  | .vmax _ d _ _ _ _ => [.v d.toNat]
  | .vabs _ d _ _ _ => [.v d.toNat]
  | .vneg _ d _ _ _ => [.v d.toNat]
  | .vand _ d _ _ _ _ => [.v d.toNat]
  | .vor _ d _ _ _ _ => [.v d.toNat]
  | .vxor _ d _ _ _ _ => [.v d.toNat]
  | .vnot _ d _ _ _ => [.v d.toNat]
  | .vshl _ d _ _ _ _ => [.v d.toNat]
  | .vshr _ d _ _ _ _ => [.v d.toNat]
  | .vsra _ d _ _ _ _ => [.v d.toNat]
  | .vmad _ d _ _ _ _ => [.v d.toNat]
  | .vcmp _ _ _ _ p _ => [.p p.toNat]
  | .vsel _ d _ _ _ _ => [.v d.toNat]
  | .vmov _ d _ _ _ => [.v d.toNat]
  | .vmovi _ d _ _ _ => [.v d.toNat]
  | .vcvt _ d _ _ _ => [.v d.toNat]
  | .vrotr _ d _ _ _ _ => [.v d.toNat]
  | .vrotc _ d _ _ _ _ => [.v d.toNat]
  | .vbcr _ d _ _ _ _ => [.v d.toNat]
  | .vbcc _ d _ _ _ _ => [.v d.toNat]
  | .vredr _ d _ _ _ _ => [.v d.toNat]
  | .vredc _ d _ _ _ _ => [.v d.toNat]
  | .vscanr _ d _ _ _ _ => [.v d.toNat]
  | .vscanc _ d _ _ _ _ => [.v d.toNat]
  | .vexp2 _ d _ _ _ => [.v d.toNat]
  | .vlog2 _ d _ _ _ => [.v d.toNat]
  | .vrcp _ d _ _ _ => [.v d.toNat]
  | .vrsq _ d _ _ _ => [.v d.toNat]
  | .vtanh _ d _ _ _ => [.v d.toNat]
  | .pand _ d _ _ => [.p d.toNat]
  | .por _ d _ _ => [.p d.toNat]
  | .pxor _ d _ _ => [.p d.toNat]
  | .pnot _ d _ => [.p d.toNat]
  | .pmov _ d _ => [.p d.toNat]
  | .pany _ d _ _ => [.q d.toNat]
  | .pall _ d _ _ => [.q d.toNat]
  | .pcnt _ d _ _ => [.a d.toNat]
  | .twr _ t _ _ _ => [.t t.toNat]
  | .trr _ _ v _ _ => [.v v.toNat]
  | .trc _ _ v _ _ => [.v v.toNat]
  | .tclr _ t => [.t t.toNat]
  | .aadd _ d _ _ => [.a d.toNat]
  | .amov _ d _ => [.a d.toNat]
  | .apost _ d a _ => [.a d.toNat, .a a.toNat]
  | .amodset _ _ m => [.m m.toNat]
  | .aidx _ d _ _ => [.a d.toNat]
  | .aaddi _ d _ _ => [.a d.toNat]
  | .qpush _ n _ _ => [.queue n.toNat]
  | .aMfs _ d _ => [.a d.toNat]
  | .wcfg _ n _ => [.bank n.toNat]
  | .wcfgRd _ _ a => [.a a.toNat]
  | .waccRd _ _ v => [.v v.toNat]
  | .waccWr _ c _ => [.acc c.toNat]
  | .waccClr _ c => [.acc c.toNat]
  | .wstat _ d p _ => [.a d.toNat, .p p.toNat]
  | .lvtset _ t n _ => if t = 0 then [.lvt n.toNat] else [.act (n.toNat % 4)]
  | .planb _ d => [.a d.toNat]
  | .fibexRd _ d => [.a d.toNat]
  | _ => []

/-- No register or queue is written by two of the instructions. -/
def noClash : List Instr → Bool
  | [] => true
  | i :: is => (destsOf i).all (fun d => d.ignored || is.all (fun j => !(destsOf j).contains d)) && noClash is

/-- How many instructions of a list are of a slot class. -/
def countClass (k : SlotClass) (is : List Instr) : Nat := (is.filter (fun i => i.slotClass == k)).length

/-- Row 6 of 02 R42: the limits of R51. Two transfers are two of class F. -/
def bundleOk (is : List Instr) : Bool :=
  decide (is.length ≤ 4) && decide (countClass .addr is ≤ 1) && decide (countClass .vec is ≤ 2) &&
    decide (countClass .func is ≤ 1) && decide (countClass .opt is ≤ 1) && noClash is

/-! ## The checks of 02 R42 -/

/-- The word at an index of a line, with its second word where it is a long form. Past word 15 that reads as 0: the checks
of the first word come before "line straddle". -/
def Line.full (l : Line) (q : SeqSel) (i : Nat) : Nat :=
  if isLong q (l.word i / 2 ^ 26 % 64) && decide (i < 15) then l.word i + l.word (i + 1) * 2 ^ 32 else l.word i

/-- Rows 4 and 5 of 02 R42 from word `i` on: the instruction, or the instructions of a bundle; or the cause, and the index
of the word that INSTR names (14 R440). `first` is the index of the bundle's first word. -/
def readUnit (q : SeqSel) (illegal : Nat) (l : Line) (first : Nat) : Nat → Nat → Except (Nat × Nat) (List Instr)
  | 0, _ => .error (0x023, first)
  | fuel + 1, i =>
    if 15 < i then .error (0x023, first)
    else
      match decode q (l.full q i) with
      | .error _ => .error (illegal, i)
      | .ok ins =>
        if !isC q || ins.stopBit = 1 then (if i + ins.words ≤ 16 then .ok [ins] else .error (0x023, first))
        else
          match readUnit q illegal l first fuel (i + ins.words) with
          | .ok rest => .ok (ins :: rest)
          | .error e => .error e

/-- What the sequencer in focus is about to execute: the instructions, or a fault of rows 4 to 6 with the index of the word
that INSTR names. -/
def nextUnit : M (Except (Nat × Nat) (List Instr)) := do
  let l ← nextLine
  let s ← get
  let q := selOf s.cx s.cur
  let i := wordIx (s.cx.seq s.cur).pc
  match readUnit q (illegalCause s.cur) l i 15 i with
  | .error e => pure (.error e)
  | .ok is => if isC q && !bundleOk is then pure (.error (0x025, i)) else pure (.ok is)

/-- The sequencer in focus faults at a word of its line. -/
def State.faultAtWord (s : State) (cause i : Nat) : State :=
  s.takeFault { cause := cause } (seqNum s.cur) (instrAt s.cx s.cur i)

/-! ## Which sequencers issue -/

/-- The context is that of its launch's handler (14 R387, 15 R421). -/
def Ctx.onHandler (c : Ctx) : Bool := c.id.lcore == Config.handlerLcore

/-- The sequencer in focus may issue: its context runs in the active bank (05 R157, R160), it has not halted (06 R175), no
debugger or PLANB holds it (11 R323), and its launch runs. What it has issued before a swap goes on in the shadow bank, and what L
and S have issued while it is parked (05 R158). While the launch is brought to rest, an open plan goes on to its PLANE, and what
has been issued completes (15 R402). -/
def State.mayIssue (s : State) : Bool :=
  let c := s.cx
  (c.status == .running || (c.status == .parked && (s.cur == .l || s.cur == .s) && c.goesOn s.cur)) && !c.debugStop &&
  !(c.seq s.cur).halted && !s.planStops c s.cur &&
  (match s.launch? c.id.launch with
   | none => false
   | some l =>
     match l.run with
     | .running => s.isActive c || (c.placed && c.goesOn s.cur)
     | .freezing => (c.onHandler && s.isActive c) || (s.planStands l.num && s.isActive c) || (c.placed && c.goesOn s.cur)
     | .frozen => c.onHandler && s.isActive c)

/-- DECODER_CHUNK_DONE (07 R225): the next chunk of the LDZ that a context's L has issued is delivered before the LDZ
retires; a failing chunk is met when L goes on. -/
def execDecoderChunkDone (c : CtxId) (s : State) : Result :=
  .next (
    let s1 := { s.focus c with cur := .l }
    if s1.cx.id ≠ c ∨ s1.mayIssue = false then s
    else
      match ldzAt s1.cx with
      | none => s
      | some (b, st, n) =>
        let f := chunksDone s1
        if s1.cx.ry n = 0 then s
        else
          match (do if f = 0 then ldzStart b st n else pure (); ldzDeliver b st n f : M Unit) s1 with
          | .ok _ s2 => ({ s2 with cur := s.cur } : State).focus s.cx.id
          | .error _ _ => s)

/-- ILLEGAL_INSTRUCTION (02 R42 row 4, R53, R59): the sequencer in focus is about to execute a word that is no instruction of
its map, or a bundle that holds one. -/
def execIllegalInstruction (s : State) : Result :=
  .next (if s.mayIssue then
      match nextUnit s with
      | .ok (.error (cause, i)) s' => if cause = illegalCause s.cur then s'.faultAtWord cause i else s
      | _ => s
    else s)

end Sys2Proof.Machine
end

