-- ==== Sys2Proof/Machine/Dispatch.lean ====
section
/-! DEFINITION. The meaning of every instruction and event: one direct call each. -/
namespace Sys2Proof.Machine

/-- What an instruction does: one arm per constructor of Instr. -/
def exec (i : Instr) (s : State) : Host.Outcome State Fault Refusal :=
  match i with
  | .nop h => Sys2Proof.Machine.execNop h s
  | .halt h => Sys2Proof.Machine.execHalt h s
  | .fence h c o => Sys2Proof.Machine.execFence h c o s
  | .tkpost h f n => Sys2Proof.Machine.execTkpost h f n s
  | .tkwait h f n => Sys2Proof.Machine.execTkwait h f n s
  | .pbt h j m b imm => Sys2Proof.Machine.execPbt h j m b imm s
  | .brx h j => Sys2Proof.Machine.execBrx h j s
  | .brxd h j b => Sys2Proof.Machine.execBrxd h j b s
  | .add h d a b => Sys2Proof.Machine.execAdd h d a b s
  | .sub h d a b => Sys2Proof.Machine.execSub h d a b s
  | .and h d a b => Sys2Proof.Machine.execAnd h d a b s
  | .or h d a b => Sys2Proof.Machine.execOr h d a b s
  | .xor h d a b => Sys2Proof.Machine.execXor h d a b s
  | .shl h d a b => Sys2Proof.Machine.execShl h d a b s
  | .shr h d a b => Sys2Proof.Machine.execShr h d a b s
  | .sra h d a b => Sys2Proof.Machine.execSra h d a b s
  | .mul h d a b => Sys2Proof.Machine.execMul h d a b s
  | .mulh h d a b => Sys2Proof.Machine.execMulh h d a b s
  | .mulhu h d a b => Sys2Proof.Machine.execMulhu h d a b s
  | .div h d a b => Sys2Proof.Machine.execDiv h d a b s
  | .divu h d a b => Sys2Proof.Machine.execDivu h d a b s
  | .rem h d a b => Sys2Proof.Machine.execRem h d a b s
  | .min h d a b => Sys2Proof.Machine.execMin h d a b s
  | .max h d a b => Sys2Proof.Machine.execMax h d a b s
  | .addi h d a n => Sys2Proof.Machine.execAddi h d a n s
  | .andi h d a n => Sys2Proof.Machine.execAndi h d a n s
  | .ori h d a n => Sys2Proof.Machine.execOri h d a n s
  | .xori h d a n => Sys2Proof.Machine.execXori h d a n s
  | .shli h d a n => Sys2Proof.Machine.execShli h d a n s
  | .shri h d a n => Sys2Proof.Machine.execShri h d a n s
  | .srai h d a n => Sys2Proof.Machine.execSrai h d a n s
  | .movi h d imm => Sys2Proof.Machine.execMovi h d imm s
  | .movhi h d a imm => Sys2Proof.Machine.execMovhi h d a imm s
  | .cmp h d a b c => Sys2Proof.Machine.execCmp h d a b c s
  | .cmpi h d a c imm => Sys2Proof.Machine.execCmpi h d a c imm s
  | .qand h d a b => Sys2Proof.Machine.execQand h d a b s
  | .qor h d a b => Sys2Proof.Machine.execQor h d a b s
  | .qnot h d a => Sys2Proof.Machine.execQnot h d a s
  | .ldx h d a pol so sz imm => Sys2Proof.Machine.execLdx h d a pol so sz imm s
  | .stx h d a pol so sz imm => Sys2Proof.Machine.execStx h d a pol so sz imm s
  | .stxTag h d a so imm => Sys2Proof.Machine.execStxTag h d a so imm s
  | .ldxp h d a pol so sz imm => Sys2Proof.Machine.execLdxp h d a pol so sz imm s
  | .amo h d a so sz op => Sys2Proof.Machine.execAmo h d a so sz op s
  | .cinv h a b c => Sys2Proof.Machine.execCinv h a b c s
  | .cwb h a b c => Sys2Proof.Machine.execCwb h a b c s
  | .pin h a b => Sys2Proof.Machine.execPin h a b s
  | .unpin h a b => Sys2Proof.Machine.execUnpin h a b s
  | .mfs h d n => Sys2Proof.Machine.execMfs h d n s
  | .mts h a n => Sys2Proof.Machine.execMts h a n s
  | .rdplan h d f => Sys2Proof.Machine.execRdplan h d f s
  | .trap h n => Sys2Proof.Machine.execTrap h n s
  | .brk h n => Sys2Proof.Machine.execBrk h n s
  | .garr h d c g => Sys2Proof.Machine.execGarr h d c g s
  | .gwait h a c g => Sys2Proof.Machine.execGwait h a c g s
  | .gsync h d c g => Sys2Proof.Machine.execGsync h d c g s
  | .launch h d a => Sys2Proof.Machine.execLaunch h d a s
  | .spawn h => Sys2Proof.Machine.execSpawn h s
  | .cpy h d a b p c st => Sys2Proof.Machine.execCpy h d a b p c st s
  | .cpyc h d a b first last c imm => Sys2Proof.Machine.execCpyc h d a b first last c imm s
  | .cpywait h d a => Sys2Proof.Machine.execCpywait h d a s
  | .cpywaitAll h d => Sys2Proof.Machine.execCpywaitAll h d s
  | .cpywaitChain h d => Sys2Proof.Machine.execCpywaitChain h d s
  | .ctreadyArm h a b => Sys2Proof.Machine.execCtreadyArm h a b s
  | .ctreadyFire h b => Sys2Proof.Machine.execCtreadyFire h b s
  | .ctreadyGo h a b => Sys2Proof.Machine.execCtreadyGo h a b s
  | .ctwait h d a => Sys2Proof.Machine.execCtwait h d a s
  | .ctwaitTest h d a => Sys2Proof.Machine.execCtwaitTest h d a s
  | .boostRel h d => Sys2Proof.Machine.execBoostRel h d s
  | .boostMid h d => Sys2Proof.Machine.execBoostMid h d s
  | .boostMax h d => Sys2Proof.Machine.execBoostMax h d s
  | .freezeMark h a => Sys2Proof.Machine.execFreezeMark h a s
  | .freeze h d a b => Sys2Proof.Machine.execFreeze h d a b s
  | .freezeDrop h a => Sys2Proof.Machine.execFreezeDrop h a s
  | .freezeCont h a => Sys2Proof.Machine.execFreezeCont h a s
  | .thaw h d a b => Sys2Proof.Machine.execThaw h d a b s
  | .resume h a => Sys2Proof.Machine.execResume h a s
  | .resumeTerm h a => Sys2Proof.Machine.execResumeTerm h a s
  | .yAdd h d a b => Sys2Proof.Machine.execYAdd h d a b s
  | .ySub h d a b => Sys2Proof.Machine.execYSub h d a b s
  | .yAnd h d a b => Sys2Proof.Machine.execYAnd h d a b s
  | .yOr h d a b => Sys2Proof.Machine.execYOr h d a b s
  | .yXor h d a b => Sys2Proof.Machine.execYXor h d a b s
  | .yShl h d a b => Sys2Proof.Machine.execYShl h d a b s
  | .yShr h d a b => Sys2Proof.Machine.execYShr h d a b s
  | .ySra h d a b => Sys2Proof.Machine.execYSra h d a b s
  | .yMin h d a b => Sys2Proof.Machine.execYMin h d a b s
  | .yMax h d a b => Sys2Proof.Machine.execYMax h d a b s
  | .yAddi h d a n => Sys2Proof.Machine.execYAddi h d a n s
  | .yMovi h d imm => Sys2Proof.Machine.execYMovi h d imm s
  | .yCmp h d a b c => Sys2Proof.Machine.execYCmp h d a b c s
  | .yMfs h d n => Sys2Proof.Machine.execYMfs h d n s
  | .sbind h b st epi bk imm => Sys2Proof.Machine.execSbind h b st epi bk imm s
  | .sset h st n f imm => Sys2Proof.Machine.execSset h st n f imm s
  | .lds h st n l => Sys2Proof.Machine.execLds h st n l s
  | .ldso h st n c l => Sys2Proof.Machine.execLdso h st n c l s
  | .ldg h st n l => Sys2Proof.Machine.execLdg h st n l s
  | .ldz h b st n l => Sys2Proof.Machine.execLdz h b st n l s
  | .ldb h b st n l => Sys2Proof.Machine.execLdb h b st n l s
  | .pref h st n => Sys2Proof.Machine.execPref h st n s
  | .bdecl h b cons prod len off => Sys2Proof.Machine.execBdecl h b cons prod len off s
  | .bwait h b t => Sys2Proof.Machine.execBwait h b t s
  | .bstateRead h b n => Sys2Proof.Machine.execBstateRead h b n s
  | .bstatePdone h b => Sys2Proof.Machine.execBstatePdone h b s
  | .bstateCdone h b => Sys2Proof.Machine.execBstateCdone h b s
  | .bstateFree h b => Sys2Proof.Machine.execBstateFree h b s
  | .ldtf h => Sys2Proof.Machine.execLdtf h s
  | .sts h st n l => Sys2Proof.Machine.execSts h st n l s
  | .qst h st n o l => Sys2Proof.Machine.execQst h st n o l s
  | .stb h b st n l => Sys2Proof.Machine.execStb h b st n l s
  | .shopen h a b => Sys2Proof.Machine.execShopen h a b s
  | .publish h a b c => Sys2Proof.Machine.execPublish h a b c s
  | .atomv h c st n f => Sys2Proof.Machine.execAtomv h c st n f s
  | .amos h d a b z so op => Sys2Proof.Machine.execAmos h d a b z so op s
  | .bdrain h st => Sys2Proof.Machine.execBdrain h st s
  | .vadd h d a b g y => Sys2Proof.Machine.execVadd h d a b g y s
  | .vsub h d a b g y => Sys2Proof.Machine.execVsub h d a b g y s
  | .vmul h d a b g y => Sys2Proof.Machine.execVmul h d a b g y s
  | .vfma h d a b g y => Sys2Proof.Machine.execVfma h d a b g y s
  | .vfms h d a b g y => Sys2Proof.Machine.execVfms h d a b g y s
  | .vmin h d a b g y => Sys2Proof.Machine.execVmin h d a b g y s
  | .vmax h d a b g y => Sys2Proof.Machine.execVmax h d a b g y s
  | .vabs h d a g y => Sys2Proof.Machine.execVabs h d a g y s
  | .vneg h d a g y => Sys2Proof.Machine.execVneg h d a g y s
  | .vand h d a b g y => Sys2Proof.Machine.execVand h d a b g y s
  | .vor h d a b g y => Sys2Proof.Machine.execVor h d a b g y s
  | .vxor h d a b g y => Sys2Proof.Machine.execVxor h d a b g y s
  | .vnot h d a g y => Sys2Proof.Machine.execVnot h d a g y s
  | .vshl h d a b g y => Sys2Proof.Machine.execVshl h d a b g y s
  | .vshr h d a b g y => Sys2Proof.Machine.execVshr h d a b g y s
  | .vsra h d a b g y => Sys2Proof.Machine.execVsra h d a b g y s
  | .vmad h d a b g y => Sys2Proof.Machine.execVmad h d a b g y s
  | .vcmp h c a b p y => Sys2Proof.Machine.execVcmp h c a b p y s
  | .vsel h d a b p y => Sys2Proof.Machine.execVsel h d a b p y s
  | .vmov h d a g y => Sys2Proof.Machine.execVmov h d a g y s
  | .vmovi h d g y imm => Sys2Proof.Machine.execVmovi h d g y imm s
  | .vcvt h d a c g => Sys2Proof.Machine.execVcvt h d a c g s
  | .vrotr h d a n g y => Sys2Proof.Machine.execVrotr h d a n g y s
  | .vrotc h d a n g y => Sys2Proof.Machine.execVrotc h d a n g y s
  | .vbcr h d a n g y => Sys2Proof.Machine.execVbcr h d a n g y s
  | .vbcc h d a n g y => Sys2Proof.Machine.execVbcc h d a n g y s
  | .vredr h d a o g y => Sys2Proof.Machine.execVredr h d a o g y s
  | .vredc h d a o g y => Sys2Proof.Machine.execVredc h d a o g y s
  | .vscanr h d a o g y => Sys2Proof.Machine.execVscanr h d a o g y s
  | .vscanc h d a o g y => Sys2Proof.Machine.execVscanc h d a o g y s
  | .vexp2 h d a g y => Sys2Proof.Machine.execVexp2 h d a g y s
  | .vlog2 h d a g y => Sys2Proof.Machine.execVlog2 h d a g y s
  | .vrcp h d a g y => Sys2Proof.Machine.execVrcp h d a g y s
  | .vrsq h d a g y => Sys2Proof.Machine.execVrsq h d a g y s
  | .vtanh h d a g y => Sys2Proof.Machine.execVtanh h d a g y s
  | .pand h d a b => Sys2Proof.Machine.execPand h d a b s
  | .por h d a b => Sys2Proof.Machine.execPor h d a b s
  | .pxor h d a b => Sys2Proof.Machine.execPxor h d a b s
  | .pnot h d a => Sys2Proof.Machine.execPnot h d a s
  | .pmov h d a => Sys2Proof.Machine.execPmov h d a s
  | .pany h d a b => Sys2Proof.Machine.execPany h d a b s
  | .pall h d a b => Sys2Proof.Machine.execPall h d a b s
  | .pcnt h d a b => Sys2Proof.Machine.execPcnt h d a b s
  | .twr h t v c w => Sys2Proof.Machine.execTwr h t v c w s
  | .trr h t v c w => Sys2Proof.Machine.execTrr h t v c w s
  | .trc h t v c w => Sys2Proof.Machine.execTrc h t v c w s
  | .tclr h t => Sys2Proof.Machine.execTclr h t s
  | .aadd h d a m => Sys2Proof.Machine.execAadd h d a m s
  | .amov h d a => Sys2Proof.Machine.execAmov h d a s
  | .apost h d a m => Sys2Proof.Machine.execApost h d a m s
  | .amodset h a m => Sys2Proof.Machine.execAmodset h a m s
  | .aidx h d a m => Sys2Proof.Machine.execAidx h d a m s
  | .aaddi h d a n => Sys2Proof.Machine.execAaddi h d a n s
  | .qpush h n a g => Sys2Proof.Machine.execQpush h n a g s
  | .aMfs h d n => Sys2Proof.Machine.execAMfs h d n s
  | .win h ws c ak h0 e first last rel b0 => Sys2Proof.Machine.execWin h ws c ak h0 e first last rel b0 s
  | .wcfg h n a => Sys2Proof.Machine.execWcfg h n a s
  | .wcfgRd h n a => Sys2Proof.Machine.execWcfgRd h n a s
  | .waccRd h c v => Sys2Proof.Machine.execWaccRd h c v s
  | .waccWr h c a => Sys2Proof.Machine.execWaccWr h c a s
  | .waccClr h c => Sys2Proof.Machine.execWaccClr h c s
  | .waccEpi h c e => Sys2Proof.Machine.execWaccEpi h c e s
  | .wstat h d p e => Sys2Proof.Machine.execWstat h d p e s
  | .lvtset h t n a => Sys2Proof.Machine.execLvtset h t n a s
  | .bcast h s0 ak nm1 tm1 wp b0 => Sys2Proof.Machine.execBcast h s0 ak nm1 tm1 wp b0 s
  | .planb h d => Sys2Proof.Machine.execPlanb h d s
  | .plane h => Sys2Proof.Machine.execPlane h s
  | .fibexRd h d => Sys2Proof.Machine.execFibexRd h d s
  | .fibexSet h a => Sys2Proof.Machine.execFibexSet h a s
  | .ldxpReply c => Sys2Proof.Machine.execLdxpReply c s
  | .decoderChunkDone c => Sys2Proof.Machine.execDecoderChunkDone c s
  | .shadowCopyOnFirstWrite => Sys2Proof.Machine.execShadowCopyOnFirstWrite s
  | .windowStaging c n => Sys2Proof.Machine.execWindowStaging c n s
  | .windowPass c n => Sys2Proof.Machine.execWindowPass c n s
  | .windowRescale c n => Sys2Proof.Machine.execWindowRescale c n s
  | .windowAccumulate c n => Sys2Proof.Machine.execWindowAccumulate c n s
  | .epilogueTile c => Sys2Proof.Machine.execEpilogueTile c s
  | .epilogueOutput c => Sys2Proof.Machine.execEpilogueOutput c s
  | .epilogueTimeout c => Sys2Proof.Machine.execEpilogueTimeout c s
  | .bcastSideband b => Sys2Proof.Machine.execBcastSideband b s
  | .bcastLight b => Sys2Proof.Machine.execBcastLight b s
  | .planPublish => Sys2Proof.Machine.execPlanPublish s
  | .planClose => Sys2Proof.Machine.execPlanClose s
  | .planOverrun => Sys2Proof.Machine.execPlanOverrun s
  | .planAbort => Sys2Proof.Machine.execPlanAbort s
  | .fibreLightLoss port => Sys2Proof.Machine.execFibreLightLoss port s
  | .copyCommandStart c t => Sys2Proof.Machine.execCopyCommandStart c t s
  | .copyCommandFinish c t => Sys2Proof.Machine.execCopyCommandFinish c t s
  | .copyBoundOverrun c n => Sys2Proof.Machine.execCopyBoundOverrun c n s
  | .tileFlagWrite t => Sys2Proof.Machine.execTileFlagWrite t s
  | .collectiveComplete t peers order => Sys2Proof.Machine.execCollectiveComplete t peers order s
  | .collectiveBoundOverrun t => Sys2Proof.Machine.execCollectiveBoundOverrun t s
  | .collectivePeerFailed t dev mismatch => Sys2Proof.Machine.execCollectivePeerFailed t dev mismatch s
  | .remoteRequest r => Sys2Proof.Machine.execRemoteRequest r s
  | .remoteReply c => Sys2Proof.Machine.execRemoteReply c s
  | .linkLaneFailure link lost => Sys2Proof.Machine.execLinkLaneFailure link lost s
  | .nodeDispatch => Sys2Proof.Machine.execNodeDispatch s
  | .nodeComplete c => Sys2Proof.Machine.execNodeComplete c s
  | .nodeLate => Sys2Proof.Machine.execNodeLate s
  | .preemption die core => Sys2Proof.Machine.execPreemption die core s
  | .bankSwap die core => Sys2Proof.Machine.execBankSwap die core s
  | .spill c => Sys2Proof.Machine.execSpill c s
  | .contextRestore c die core bank => Sys2Proof.Machine.execContextRestore c die core bank s
  | .contextYield c => Sys2Proof.Machine.execContextYield c s
  | .pageMigration asid va ppn => Sys2Proof.Machine.execPageMigration asid va ppn s
  | .pageUnmap asid va => Sys2Proof.Machine.execPageUnmap asid va s
  | .l2LeaseExpiry die line => Sys2Proof.Machine.execL2LeaseExpiry die line s
  | .watchHitByOtherAgent => Sys2Proof.Machine.execWatchHitByOtherAgent s
  | .faultFrameWrite c => Sys2Proof.Machine.execFaultFrameWrite c s
  | .frameRouting c choice => Sys2Proof.Machine.execFrameRouting c choice s
  | .parityReplay c q => Sys2Proof.Machine.execParityReplay c q s
  | .watchdogExpiry c q => Sys2Proof.Machine.execWatchdogExpiry c q s
  | .deviceFatalError f => Sys2Proof.Machine.execDeviceFatalError f s
  | .urgentPreemption c => Sys2Proof.Machine.execUrgentPreemption c s
  | .calibrationRun die core => Sys2Proof.Machine.execCalibrationRun die core s
  | .calibrationStale die core skew => Sys2Proof.Machine.execCalibrationStale die core skew s
  | .spareLineOrColumn core => Sys2Proof.Machine.execSpareLineOrColumn core s
  | .combLaserSwitch steps => Sys2Proof.Machine.execCombLaserSwitch steps s
  | .spareCoreMove die core => Sys2Proof.Machine.execSpareCoreMove die core s
  | .coreWithdrawal die core => Sys2Proof.Machine.execCoreWithdrawal die core s
  | .intervalBoundary => Sys2Proof.Machine.execIntervalBoundary s
  | .thermalCapChange die freq => Sys2Proof.Machine.execThermalCapChange die freq s
  | .hostSubmission => Sys2Proof.Machine.execHostSubmission s
  | .submissionQueueBaseWrite v => Sys2Proof.Machine.execSubmissionQueueBaseWrite v s
  | .ident slot => Sys2Proof.Machine.execIdent slot s
  | .mgmtFreeze slot => Sys2Proof.Machine.execMgmtFreeze slot s
  | .mgmtThaw slot => Sys2Proof.Machine.execMgmtThaw slot s
  | .attest slot => Sys2Proof.Machine.execAttest slot s
  | .urgent slot => Sys2Proof.Machine.execUrgent slot s
  | .mboxOtherOp slot => Sys2Proof.Machine.execMboxOtherOp slot s
  | .registerWindowWrite off v => Sys2Proof.Machine.execRegisterWindowWrite off v s
  | .hostMemoryAccess a => Sys2Proof.Machine.execHostMemoryAccess a s
  | .resetRelease => Sys2Proof.Machine.execResetRelease s
  | .bootStep b => Sys2Proof.Machine.execBootStep b s
  | .illegalInstruction => Sys2Proof.Machine.execIllegalInstruction s
  | .debuggerStop c stop => Sys2Proof.Machine.execDebuggerStop c stop s
  | .spareHbmPseudoChannel stack => Sys2Proof.Machine.execSpareHbmPseudoChannel stack s
  | .fibreLightReturn port => Sys2Proof.Machine.execFibreLightReturn port s
  | .powerLoss => Sys2Proof.Machine.execPowerLoss s

end Sys2Proof.Machine
end

