-- ==== Sys2Proof/Machine/Step.lean ====
section
/-! DEFINITION. One step of the machine: an event that is due now, or a turn of the agenda (log 2), or a turn drawn where the
agenda is empty; and where a program's next instruction is fetched from. -/
namespace Sys2Proof.Machine

/-- The step takes an event by its meaning. -/
def State.act (s : State) (i : Instr) : Result := exec i s

/-- A meaning's next state, for the words of a bundle. -/
def after (i : Instr) (s : State) : State :=
  match exec i s with
  | .next t => t
  | _ => s

/-- The sequencer in focus runs what it is about to execute: one instruction by its meaning, or a bundle of several. -/
def runUnit (s : State) : Result :=
  match nextUnit s with
  | .error (.trap t) s' => .next (s'.faultHere t)
  | .error (.wait _) _ => .next s
  | .ok (.error (cause, i)) s' => if cause = illegalCause s.cur then exec .illegalInstruction s else .next (s'.faultAtWord cause i)
  | .ok (.ok [i]) s' => exec i s'
  | .ok (.ok is) s' => .next (runBundle after is s')

/-- A transfer whose delay is over takes place at once (06 R179): a stop then finds the sequencer at its target. One that follows a
TRAP or BRK, or that has faulted, stays recorded. What a bad target comes to is `bad` of its fault and the state it leaves. -/
def settleWith (bad : Trap → State → State) (c : CtxId) (s : State) : State :=
  match (s.cx.seq s.cur).pend with
  | some p =>
    if s.cx.id = c ∧ s.cx.status = .running ∧ p.taken ∧ p.left = 0 then
      match takeTransfer p s with
      | .ok _ t => t
      | .error (.trap x) t => bad x t
      | .error (.wait _) _ => s
    else s
  | none => s

/-- A bad target faults. -/
def settle (c : CtxId) (s : State) : State := settleWith (fun x t => t.faultHere x) c s

/-- In a context that has stopped for another fault, a transfer with a bad target stays recorded. -/
def settleStopped (c : CtxId) (s : State) : State := settleWith (fun _ _ => s) c s

/-- The sequencer in focus, one of a context that may not go on to another instruction, completes what it has issued: its frame, if it
has one, shows what that leaves (14 R381). Where it finds a fault of its own it leaves the instruction unretired (R382). -/
def drain (q : SeqId) (s : State) : Result :=
  let s1 : State := { s with cx := { s.cx with status := .running, frameOut := none } }
  match runUnit s1 with
  | .next t =>
    if t.cx.status = .running then
      let t := settleStopped s.cx.id t
      .next { t with cx := { t.cx with
        status := .stopped
        frameOut := s.cx.frameOut.map (fun f => f.refresh t)
        fpc := if (t.cx.seq q).flight.isSome then s.cx.fpc else t.cx.fpc.set (seqNum q) (t.cx.seq q).pc } }
    else .next { s with cx := (s.cx.updSeq q SeqState.again).dropReply q }
  | r => r

/-- The acquire at .dev of a context's first issue after RESUME (14 R388). -/
def State.acquireDue (s : State) : State :=
  if s.cx.acquires then ({ s with cx := { s.cx with acquires := false } } : State).acquired 3 else s

/-- The sequencer of a context issues, where it may. A fault that a transfer takes in the shadow bank, or in a parked context, is raised
when the context next issues (07 R227); while its launch is brought to rest, at once (15 R402, R421). -/
def issue (c : CtxId) (q : SeqId) (s : State) : Result :=
  match s.ctx? c with
  | none => .next s
  | some _ =>
    let s1 := { s.focus c with cur := q }
    if s1.mayIssue then
      let s1 := s1.acquireDue
      match runUnit s1 with
      | .next t =>
        if t.cx.status == s1.cx.status || (s1.cx.status != .parked && (s1.isActive s1.cx || s1.freezing c)) then .next (settle c t)
        else .next s
      | r => r
    else if s1.cx.status = .stopped ∧ s1.cx.drains q then drain q s1
    else .next s

/-- One step of the plan clock (01 R17): the windows that have light or the weight port, at the clock in force (10 R295), the cycles of
the dies that end with it and the waits that they count (14 R391), the bounds that stand still in a frozen launch, and the light that is over. -/
def tick (s : State) : State :=
  let s := s.stepWindows.cycles.stepTiles
  ({ s with clock := s.clock + 1 } : State).dropLight

/-- An event of the machine: a row of the opcode table that has no encoding. -/
def isEvent (i : Instr) : Bool := i.maps.isEmpty

/-- Take a turn. -/
def takeTurn (t : Turn) (s : State) : Result :=
  match t with
  | .elapse 0 => .next s
  | .elapse (n + 1) => let s := tick s; .next { s with agenda := .elapse n :: s.agenda }
  | .issue c q => issue c q s
  | .tables es roots => .next { s with mem := writeEntries s.mem es, asids := roots.foldl (fun t r => upd t r.1 r.2) s.asids }
  | .domain e => .next (domainEvent e s)
  | .act i => if isEvent i then exec i s else .next s

/-- How much of a copy its command has written when its bound runs out: the spec leaves it open (log 10). -/
def overrunPrefix (s : State) (c : Ctx) : Nat :=
  match c.copy.queue with
  | [] => 0
  | k :: _ => if k.len = 0 then 0 else Config.freePrefix s.clock % k.len

/-- A count that has passed its bound (14 R391): of a sequencer's wait, of the oldest copy command, of the head tile of the epilogue. -/
def boundEvent (s : State) : Option Instr :=
  match s.ctxs.findSome? (fun c => (allSeqs.find? (fun q => (s.watchdogDue c q).isSome)).map (fun q => (c.id, q))) with
  | some (c, q) => some (.watchdogExpiry c q)
  | none =>
    match s.ctxs.find? (fun c => c.copy.overrun && s.copyCounts c), s.ctxs.find? (fun c => (s.tileOverdue c).isSome) with
    | some c, _ => some (.copyBoundOverrun c.id (overrunPrefix s c))
    | none, some c => some (.epilogueTimeout c.id)
    | none, none => none

/-- The event of the machine that is due at this step, first come first (log 2). -/
def dueEvent (s : State) : Option Instr :=
  if !s.firstWrites.isEmpty then some .shadowCopyOnFirstWrite
  else if s.hits.any s.hitDue then some .watchHitByOtherAgent
  else if s.plan.any (fun p => match p.phase with | .aborting _ => true | _ => false) then some .planAbort
  else if s.overrunDue then some .planOverrun
  else if s.closeDue then some .planClose
  else if s.boundaryDue then some .intervalBoundary
  else
    match s.ctxs.findSome? (fun c => c.wins.findSome? (fun w => w.dueEvent c.id s.clock)) with
    | some i => some i
    | none =>
      match s.light.find? (fun b => b.sideDue s.clock), s.light.find? (fun b => b.lightDue s.clock) with
      | some b, _ => some (.bcastSideband b.stamp)
      | none, some b => some (.bcastLight b.stamp)
      | none, none =>
        match s.flagDue, s.table.find? (fun e => e.overrun s.clock), s.l2.find? s.leaseOver with
        | some t, _, _ => some (.tileFlagWrite t)
        | none, some e, _ => some (.collectiveBoundOverrun e.index)
        | none, none, some e => some (.l2LeaseExpiry e.die e.line)
        | none, none, none => (boundEvent s).or <| (s.ctxs.findSome? s.tileStepDue).or
            (if (lateNode s).isSome then some .nodeLate else (s.ctxs.find? s.yieldDue).map (fun c => .contextYield c.id))

/-- What else is due: a deferred fault of a halted sequencer, in the order of the sources (14 R382), a yielded context whose item
has come (15 R416), and an urgent pre-emption that has waited (14 R397). -/
def dueChange (s : State) : Option State :=
  match s.ctxs.find? s.bankDue, s.ctxs.find? s.copyDue, s.ctxs.find? s.tileDue, s.ctxs.find? s.wakeDue, s.urgentDue with
  | some c, _, _, _, _ => some (raiseBankAt c.id s)
  | none, some c, _, _, _ => some (raiseCopyAt c.id s)
  | none, none, some c, _, _ => some (raiseTileAt c.id s)
  | none, none, none, some c, _ => some (s.updCtx c.id (fun c => { c with status := .running }))
  | none, none, none, none, some c => some (urgentOn c s)
  | none, none, none, none, none => none

/-- The next turn and the state that takes it. -/
def nextTurn (s : State) : Turn × State :=
  match s.agenda with
  | t :: rest => (t, { s with agenda := rest })
  | [] => (Config.freeTurn s.ticks, { s with ticks := s.ticks + 1 })

/-- Held in reset, the machine does nothing but leave it (17 R437). -/
def heldTurn (t : Turn) (s : State) : Result :=
  match t with
  | .act .resetRelease => exec .resetRelease s
  | _ => .next s

/-- One step. -/
def step (s : State) : Result :=
  if s.held then heldTurn (nextTurn s).1 (nextTurn s).2
  else
    match dueEvent s with
    | some i => exec i s
    | none =>
      match dueChange s with
      | some t => .next t
      | none => takeTurn (nextTurn s).1 (nextTurn s).2

/-! ## Where a program's next instruction stands (log 13) -/

/-- The sequencer of a map. -/
def seqOfSel (q : SeqSel) : SeqId :=
  match q with
  | .k => .k
  | .l => .l
  | .s => .s
  | .c => .c
  | .b => .c

/-- The table pages of the address space that the program stands in: a root table, one table below it, and one leaf of 1 GiB
that maps address 0 up to physical address 0, with EX, WR and RD (04 R99 to R101). -/
def programTables (m : Memory) : Memory :=
  let m := m.writeN 0x40000000 (natBytes 16 (0x40002 * 2 ^ 28 + 1))
  let m := m.writeN 0x40002000 (natBytes 16 (0x40004 * 2 ^ 28 + 1))
  m.writeN 0x40004000 (natBytes 16 (0x1C00 + 3))

/-- The line at 0x10000: a link word of the sequencer with LAST, the instruction in words 1 and 2, and where its bundle does
not end with it, NOP in the word after. -/
def programLine (q : SeqSel) (i : Instr) (w : Nat) : List Byte :=
  let line := (seqNum (seqOfSel q) * 2 ^ 30 + 2 ^ 29 + 0xA * 2 ^ 24) + w % 2 ^ 64 * 2 ^ 32
  let line := if isC q && i.stopBit == 0 then line + 0x04000008 * 2 ^ (32 + 32 * i.words) else line
  natBytes 20 line

/-- The context that runs the program. -/
def programCtx (q : SeqSel) : Ctx :=
  let run : SeqState := { pc := 0x10004, halted := false }
  ({ id := ⟨1, if q = .b then Config.bcastLcore else 0⟩, asid := 1, status := .running
     place := .bank (if q = .b then Config.broadcastDie else 0) 0 0 } : Ctx).updSeq (seqOfSel q) (fun _ => run)

/-- The launch that it belongs to. -/
def programLaunch (q : SeqSel) : Launch :=
  { num := 1, asid := 1, deadline := 2 ^ 63, bc := q == .b
    nodes := [{ record := 0, deadline := 2 ^ 63, st := .running, lcore := if q = .b then Config.bcastLcore else 0 }] }

/-- The machine with an instruction's words where the next step fetches: a launch with one running node stands in bank 0 of
its core, and its sequencer issues next. -/
def State.withFetchWord (s : State) (nbits w : Nat) : State :=
  let w := w % 2 ^ nbits
  let (q, i) := (firstMap nbits w).getD (.k, .illegalInstruction)
  let c := programCtx q
  { s with
    cur := seqOfSel q, cx := c, others := [], bun := none, held := false, boot := 1
    agenda := [.issue c.id (seqOfSel q)]
    mem := (programTables s.mem).writeN 0x10000 (programLine q i w)
    asids := [(1, 0x40000000)], launches := [programLaunch q], nextLaunch := 2
    bank1 := [], hits := [], slots := [], plan := none, snapshots := [], light := [], table := [], firstWrites := [] }

end Sys2Proof.Machine
end

