-- ==== Sys2Proof/Safety.lean ====
section
/-! DEFINITION. What the claims say of a machine: when an instruction issues and completes, what its completion does to the
program counter and the tokens, plain accesses to memory, and the invariant of memory. -/
namespace Sys2Proof.Machine

/-! ## The invariant -/

/-- Memory and the tags keep their canonical form. -/
def State.memoryOk (s : State) : Prop := s.mem.wf = true ∧ s.tags.wf = true

/-! ## A word of L, S or K -/

/-- A word with a predicate and a token field can complete on a sequencer: it is in focus, no bundle is open, the predicate
reads true (02 R46), the queue of a wait holds a token and the queue of a post has room (01 R21, R22). -/
structure State.Issues (s : State) (q : SeqId) (qp tk : BitVec 3) : Prop where
  focus : s.cur = q
  alone : s.bun = none
  holds : (s.cx.seq q).rq qp = true
  token : ∀ i, s.cx.openField q tk = some i → 0 < s.cx.tokens i
  room : ∀ i, fieldPost q tk = some i → s.cx.tokens i < 15

/-- The context with the token of a wait removed. -/
def Ctx.takenBy (c : Ctx) (q : SeqId) (tk : BitVec 3) : Ctx :=
  match c.openField q tk with
  | some i => c.setTokens i (c.tokens i - 1)
  | none => c

/-- The context with the token of a post added. -/
def Ctx.postedBy (c : Ctx) (q : SeqId) (tk : BitVec 3) : Ctx :=
  match fieldPost q tk with
  | some i => c.setTokens i (c.tokens i + 1)
  | none => c

/-- The machine that an instruction's effect finds: its token is taken. -/
def State.started (s : State) (q : SeqId) (tk : BitVec 3) : State := { s with cx := s.cx.takenBy q tk }

/-- The machine after the effect: the token is posted and the sequencer moves past the words. -/
def State.retired (s : State) (q : SeqId) (tk : BitVec 3) (words : Nat) : State :=
  { s with cx := (s.cx.postedBy q tk).updSeq q (fun st => st.retire words false) }

/-- A word whose effect is `f` completes. -/
def State.does (s : State) (q : SeqId) (tk : BitVec 3) (words : Nat) (f : State → State) : State :=
  (f (s.started q tk)).retired q tk words

/-- The sequencer in focus is not one of the broadcast core inside an open plan (11 R326). -/
def State.unplanned (s : State) : Prop := (s.cx.onBcast && s.planOpen s.cx.id.launch) = false

/-! ## A word of C that is a bundle of its own -/

/-- The image that a source code names (02 R48): a vector register, the head of an image queue, or the head of oq. None where
the queue is empty. -/
def Ctx.image (c : Ctx) (code : BitVec 5) : Option Image :=
  if code.toNat < 16 then some (c.v.get (code.setWidth 4))
  else if code.toNat < 24 then (c.lqAt (code.toNat % 4)).head?
  else c.oq.head?

/-- The queue that a source code takes from: lq 0 to 3, and 4 for oq (02 R48). -/
def takesOf (code : BitVec 5) : List Nat :=
  if code.toNat < 16 then []
  else if code.toNat < 20 then [code.toNat % 4]
  else if code.toNat < 24 then []
  else if code.toNat = 25 then [] else [4]

/-- A word of C can complete as a bundle of its own. -/
structure State.IssuesC (s : State) (truth : Ctx → Bool) (tk : BitVec 3) (srcs : List (BitVec 5)) : Prop where
  focus : s.cur = .c
  alone : s.bun = none
  holds : truth s.cx = true
  token : ∀ i, s.cx.openField .c tk = some i → 0 < s.cx.tokens i
  room : ∀ i, fieldPost .c tk = some i → s.cx.tokens i < 15
  sources : ∀ c ∈ srcs, (s.cx.image c).isSome = true

/-- Such a bundle completes: its effect, the queue heads that it takes, the special functions that land (08 R235), the count
of bundles, and the sequencer past its words (08 R231). -/
def State.bundled (s : State) (tk : BitVec 3) (words : Nat) (srcs : List (BitVec 5)) (f : Ctx → Ctx) : State :=
  let c := (f (s.cx.takenBy .c tk)).postedBy .c tk
  let c := (srcs.flatMap takesOf).dedup.foldl Ctx.take c
  let c := landSfu s.cx.sfu.length false { c with bundles := c.bundles + 1 }
  { s with cx := c.updSeq .c (fun st => ({ st with off := 0 } : SeqState).retire words false) }

/-- The image of a source code, where there is one. -/
def Ctx.imageD (c : Ctx) (code : BitVec 5) : Image := (c.image code).getD 0

/-! ## The instructions that every sequencer has -/

/-- A shared word completes on a sequencer (06 R172 to R182): `t` is the machine after its effect, `halts` says that it halts the
sequencer, and `opens` is the transfer that it opens. On C it is a bundle of its own, which is counted, and special functions land (08
R231, R235, R236). -/
def State.shared (s : State) (q : SeqId) (tk : BitVec 3) (words : Nat) (halts : Bool) (opens : Option Pend) (t : State) : State :=
  let c := t.cx.postedBy q tk
  let c := if q = .c then landSfu s.cx.sfu.length halts { c with bundles := c.bundles + 1 } else c
  { t with cx := c.updSeq q (fun st => ({ st with
      halted := st.halted || halts
      off := if q = .c then 0 else st.off
      pend := opens.or st.pend } : SeqState).retire words opens.isSome) }

/-- A shared word can complete on the sequencer in focus, alone in its bundle on C. -/
structure State.IssuesShared (s : State) (q : SeqId) (h : Hd) : Prop where
  focus : s.cur = q
  alone : s.bun = none
  holds : (s.cx.seq q).rq h.qp = true
  token : ∀ i, s.cx.openField q h.tk = some i → 0 < s.cx.tokens i
  room : ∀ i, fieldPost q h.tk = some i → s.cx.tokens i < 15

/-- The machine in which a word of C that is a bundle of its own takes effect: its token is taken, and operands are those of
the context before. -/
def State.opened (s : State) (tk : BitVec 3) (words : Nat) : State :=
  { s.started .c tk with bun := some { old := s.cx, pbase := s.baseBefore, words := words, taken := (s.cx.openField .c tk).toList } }

/-- Such a word completes after its effect has left the state `u`. -/
def State.closed (s : State) (tk : BitVec 3) (words : Nat) (u : State) : State :=
  let c := u.cx.postedBy .c tk
  { u with
    cx := (landSfu s.cx.sfu.length false { c with bundles := c.bundles + 1 }).updSeq .c
      (fun st => ({ st with off := 0 } : SeqState).retire words false)
    bun := none }

/-! ## Checked accesses -/

/-- An access of the sequencer in focus that lies in one page of this device's memory which translates, whose tags match, and
which no watchpoint watches (04 R105, R131, R134). `tr` is its translation. -/
structure State.PlainAccess (s : State) (k : Acc) (va : DWord) (n : Nat) (tr : Tr) : Prop where
  onePage : va.toNat % 4096 + n ≤ 4096
  here : tr.home = s.dev
  memory : tr.spad = false
  found : translate s s.cx.asid.toNat k va = .ok tr
  tags : tr.tce = true → ∀ r ∈ granules (Seg.tagKey ⟨va, n, tr⟩ k) n, s.tags.read r = BitVec.ofNat 4 (bits va.toNat 59 56)
  unwatched : ∀ c ∈ s.ctxs, watchHit c s.agent k va.toNat n = false

/-- The machine with A set in a leaf (04 R106). -/
def State.withA (s : State) (tr : Tr) : State := { s with mem := setEntryBits s.mem tr.entry 0x20 }

/-- An access by the sequencer in focus that lies in one page fails a check, with what its fault names, and leaves `u`: the first row of
04 R105 that fails has its cause; a scratchpad page is not K's to reach (01 R30); of memory of this device, a granule has another tag (04
R131), or a watchpoint of the sequencer's own core covers it (04 R134). A page that passes R105 has A set (R106). -/
def State.AccessFails (s : State) (k : Acc) (va : DWord) (n : Nat) (t : Trap) (u : State) : Prop :=
  va.toNat % 4096 + n ≤ 4096 ∧
  ((∃ c, translate s s.cx.asid.toNat k va = .error c ∧ t = { cause := c, va := va } ∧ u = s) ∨
   (∃ tr, translate s s.cx.asid.toNat k va = .ok tr ∧ tr.spad = true ∧ t = { cause := 0x091, va := va } ∧ u = s.withA tr) ∨
   (∃ tr, translate s s.cx.asid.toNat k va = .ok tr ∧ tr.spad = false ∧ tr.home = s.dev ∧ u = s.withA tr ∧
    let tag := BitVec.ofNat 4 (bits va.toNat 59 56)
    let other := if tr.tce then (granules (Seg.tagKey ⟨va, n, tr⟩ k) n).find? (fun r => s.tags.read r != tag) else none
    match other with
    | some r => t = { cause := 0x089, va := va, aux0 := tag.toNat + 16 * (s.tags.read r).toNat }
    | none => (∃ c ∈ s.ctxs, c.core = s.cx.core ∧ watchHit c s.agent k va.toNat n = true) ∧ t = { cause := 0x08A, va := va }))

/-- The tokens as they stood before an instruction that has taken one and is not to complete. -/
def State.tokensOf (u s : State) : State := { u with cx := { u.cx with tok := s.cx.tok } }

/-- The checks of 04 R112 have passed for an access of the sequencer in focus, whose parts lie in this device's memory. -/
structure State.Checked (s : State) (k : Acc) (va : DWord) (n : Nat) (segs : List Seg) (t : State) : Prop where
  checks : checkAccess s.agent k va n s = .ok segs t
  memory : ∀ g ∈ segs, g.tr.spad = false
  here : ∀ g ∈ segs, g.tr.home = s.dev

/-- The machine after the release, and after the acquire, of an so field (06 R187). -/
def State.rel (so : BitVec 4) (s : State) : State := if soRel so then s.released (soScope so) else s
def State.acq (so : BitVec 4) (s : State) : State := if soAcq so then s.acquired (soScope so) else s

/-- The bytes that parts of an access hold in memory. -/
def bytesOf (m : Memory) (segs : List Seg) : List Byte := segs.flatMap (fun g => m.readN (g.key .read) g.len)

/-- The parts of an access lie in memory, where no die keeps a copy that its home does not know of (04 R121), or on S
pages. -/
def State.near (s : State) (k : Acc) (segs : List Seg) : Prop :=
  ∃ strong, ∀ g ∈ segs, g.tr.spad = false ∧ g.tr.strong = strong ∧ (strong = true ∨ cachesAway s s.agent g.tr (g.key k) = false)

/-- The machine in which an access is performed: before one to an S page, the die writes back and drops its lines (04 R110,
log 3). -/
def State.ordered (s : State) (segs : List Seg) : State :=
  if segs.any (fun g => g.tr.strong) then dropLines (fun e => e.die == s.agent.die) s else s

/-- A part of an access written: D, the launch's dirty bitmap, and the bytes (04 R106, R137). -/
def State.stored (s : State) (g : Seg) (data : List Byte) : State :=
  let s1 := State.ordered { s with mem := setEntryBits s.mem g.tr.entry 0x40 } [g]
  let s2 := markDirty (markDirty s1 s.cx.id.launch (g.key .write)) s.cx.id.launch (g.key .write + data.length - 1)
  { s2 with mem := s2.mem.writeN (g.key .write) data }

/-- The sequencer in focus stands as it stood, in its context. -/
structure State.Stands (s : State) (q : SeqId) (t : State) : Prop where
  id : t.cx.id = s.cx.id
  tok : t.cx.tok = s.cx.tok
  seq : t.cx.seq q = s.cx.seq q
  cur : t.cur = s.cur

/-! ## Streams -/

/-- A stream register is bound for reading or for writing (07 R212, 09 R261). -/
structure State.Bound (s : State) (st : BitVec 4) (write : Bool) (t : Stream) (b : Binding) : Prop where
  reg : s.cx.stream st = t
  bind : t.bind = some b
  dir : b.write = write

/-- The buffer that a read stream is bound to, where it is bound to one, allows a read of L (01 R27). -/
def State.sideOpen (s : State) (b : Binding) : Prop :=
  b.bk = true → (s.cx.buf b.buf).declared = true ∧ (s.cx.buf b.buf).legal 0 1 = true

/-- A store on a stream can begin (09 R262 rows 1 to 4), with the elements it moves. -/
structure State.Storing (s : State) (st : BitVec 4) (t : Stream) (b : Binding) : Prop where
  bound : s.Bound st true t b
  epi : b.epi = false
  more : t.pos < t.total
  blocks : t.fmt = 8 → t.pos % 256 = 0
  groups : t.fmt = 9 → t.pos % 64 = 0

/-- The checks of a transfer's items have passed, and its writes, in the order `ps`, have been performed, and its LAST, of the writes
`codes` of its elements, from `s` to `u` (09 R262 to R264). -/
def State.Writes (s : State) (st : BitVec 4) (t : Stream) (b : Binding) (items : List Item) (l : Bool) (ws ps codes : List (Item × List Seg))
    (u : State) : Prop :=
  ∃ s1, itemsCheck s.agent 1 st t b t.acc items s = .ok ws s1 ∧ performItems s.agent 1 t b t.acc l ps codes s1 = .ok () u

/-- POS of a stream set, and the head of sq n taken. -/
def State.atPos (s : State) (st : BitVec 4) (v : Nat) : State :=
  { s with cx := s.cx.setStream st ((s.cx.stream st).setField 12 (BitVec.ofNat 64 v)) }
def State.sqTaken (s : State) (n : BitVec 4) : State := { s with cx := s.cx.setSq n.toNat (s.cx.sqAt n.toNat).tail }

/-- A tile put into a slot of L, an image given to lq n. -/
def State.withSlot (s : State) (i : BitVec 2) (tile : Tile) : State := { s with cx := s.cx.setSlot i (some tile) }
def State.gives (s : State) (n : BitVec 4) (img : Image) : State := { s with cx := s.cx.setLq n.toNat (s.cx.lqAt n.toNat ++ [img]) }

/-! ## Launches and tiles -/

/-- A FREEZE by the handler has begun on a launch (15 R402 step 1): one that runs is on its way to rest. -/
def State.restBegun (s : State) (l : Launch) : State :=
  if l.run = .running then
    s.updLaunch l.num (fun l => { l with run := .freezing, freezeStep := s.clock, freezer := none })
  else s

/-- The launch as it stands in the machine. -/
def State.nowOf (s : State) (l : Launch) : Launch := (s.launch? l.num).getD l

/-- The launch frozen, where it has come to rest, and the machine that holds it so. -/
def State.frozenBy (s : State) (l : Launch) : State :=
  let t := s.restBegun l
  if (t.nowOf l).run = .freezing then freezeNow l.num t else t

/-- The tile entries of a frozen launch can be put back: their indices are FREE (13 R363). -/
def State.tilesFit (s : State) (l : Launch) : Bool :=
  let es := s.frozenTiles.filter (fun e => e.launch == l.num)
  es.all (fun e => (s.tile? e.index).isNone) && (es.map (·.index)).dedup.length == es.length

/-- A frozen launch goes on where it stands (15 R418), as a THAW of the image that it would write. -/
def State.continued (s : State) (l : Launch) : State :=
  let es := s.frozenTiles.filter (fun e => e.launch == l.num)
  let l' := ({ l with
    run := .running, freezer := none
    nodes := l.nodes.zipIdx.map (fun p => if p.2 = l.handler then p.1 else p.1.thawed) } : Launch).moveDeadline (l.deadline + (s.clock - l.freezeStep))
  let s : State := { s with
    table := es.foldl putTile s.table, frozenTiles := s.frozenTiles.filter (fun e => e.launch != l.num) }
  let s := (s.updLaunch l.num (fun _ => l')).updCtxsOf l.num (fun c =>
    if c.id.lcore = Config.handlerLcore then c else (ctxFrom (recordOf c.id.lcore (some c)).2 c.id l.asid).keepUnsaved c)
  restart l' (clearBitmap l' s)

/-- Nothing of the machine has the number that the next launch takes. -/
def State.freshNumber (s : State) : Prop := s.launch? s.nextLaunch = none ∧ ∀ c ∈ s.ctxs, c.id.launch ≠ s.nextLaunch

/-- An image is restored as launch `n` (15 R415), from `s` to `t`: under the next number, RUNNING, its deadline the plan clock plus DLREM.
It is held still where it carries no frame and a node but the handler runs in its record. -/
def State.Restores (s : State) (img n : Nat) (t : State) : Prop :=
  n = s.nextLaunch ∧
  (∀ l, t.launch? n = some l → l.run = .running ∧ l.deadline = ((s.clock : Int) + signExt (hdr img 1215 1152) 64).toNat) ∧
  (imgFrqn img = 0 → (∀ r ∈ imgRecords img, ∀ e ∈ recDir r.2, e.1 ≠ 14) →
    (∃ i, i < packetNodes (imgPacket img) ∧ i ≠ bits (imgPacket img) 287 272 ∧ bits (imgNode img i) 18 16 = 2) → ∃ l, t.launch? n = some l)

/-- A context at the start of a node, from what its logical core had (05 R148). -/
structure Ctx.StartsFrom (x c : Ctx) : Prop where
  scalars : x.x = Regs.zero ∧ x.y = Regs.zero ∧ x.z = Regs.zero ∧ x.a = Regs.zero ∧ x.m = Regs.zero
  images : x.v = Regs.zero ∧ x.t = Regs.zero ∧ x.p = Regs.zero ∧ x.sfu = []
  seqs : ∀ q, (x.seq q).j = Regs.zero ∧ ∀ i, (x.seq q).rq i = (i == 0)
  streams : ∀ st, (x.stream st).bind = none
  queues : x.lq = Vector.replicate 4 [] ∧ x.sq = Vector.replicate 4 [] ∧ x.oq = [] ∧ x.iq = [] ∧ ∀ i, x.tokens i = 0
  kept : x.spad = c.spad ∧ x.bufs = c.bufs ∧ x.acc = c.acc ∧ x.pacc = c.pacc ∧ x.lvt = c.lvt ∧ x.act = c.act ∧ x.wsh = c.wsh ∧
    x.wep = c.wep ∧ x.wpol = c.wpol ∧ x.wpa = c.wpa ∧ x.wpc = c.wpc

/-- A tile entry can be armed from the descriptor at `va` (13 R371), and what its accesses leave is `t`. -/
structure State.Arms (s : State) (va : DWord) (i : Nat) (go : Bool) (d : BitVec 512) (ring : List Nat) (t : State) : Prop where
  free : mayArm s i s.cx.id.launch = true
  aligned : va.toNat % 64 = 0
  form : tileFormOk d = true
  list : ringOk s.dev d ring = true
  order : tMode d = true → tOp d ≠ 4 → ∀ l, s.launch? s.cx.id.launch = some l → l.det = false
  reads : ∃ b s1 rb s2, kRead va 64 s = .ok b s1 ∧ d = BitVec.ofNat 512 (leNat b) ∧
    collectM (List.range (tM d)) (fun j => kRead (tRing d + BitVec.ofNat 64 (2 * j)) 2) s1 = .ok rb s2 ∧ ring = rb.map leNat ∧
    kWrite (tCrec d + 8) (natBytes 8 0) (if go then s2.released 3 else s2) = .ok () t

/-- The armed entry. -/
def armedTile (c : Ctx) (i : Nat) (d : BitVec 512) (ring : List Nat) : TileEntry :=
  { index := i, launch := c.id.launch, asid := c.asid.toNat, desc := d, ring := ring, bound := if tBound d = 0 then c.bound else tBound d }

/-- A node reaches another through successor lists, by some path (05 R156). -/
def Launch.reaches (l : Launch) (i j : Nat) : Prop := Relation.ReflTransGen (fun a b => ∃ n, l.nodes[a]? = some n ∧ b ∈ n.succ) i j

/-! ## What an access to memory may change -/

/-- A sequencer but for whether its awaited buffer state has been entered. -/
def SeqState.unmet (st : SeqState) : SeqState := { st with met := false }

/-- A context but for its scratchpad frame, its buffers, and the pages that its streams hold. -/
def Ctx.still (c : Ctx) : Ctx :=
  { c.updSeqs SeqState.unmet with
    spad := [], bufs := Vector.replicate (2 ^ 6) {}, streams := c.streams.map (fun t => { t with pages := [] }) }

/-- The machine but for memory, tags, the lines of the caches, the frames, the buffers, the pages that streams hold, the hits
of watchpoints not yet reported, and the shadow writes that wait. -/
def State.still (s : State) : State :=
  { s with mem := [], tags := [], l2 := [], hits := [], firstWrites := [], cx := s.cx.still, others := s.others.map Ctx.still }

/-- The cell of the dirty bitmap that a write at a key sets (04 R137): none for other memory, or without the launch. -/
def State.dirtyCell (s : State) (launch k : Nat) : Option Nat :=
  let pa := k % 2 ^ 48
  if k / 2 ^ 48 = s.dev ∧ bits pa 47 39 = 0 then
    (s.launch? launch).map (fun l => key s.dev (l.bitmap + (bits pa 38 36 * 786432 + bits pa 35 0 / 2 ^ 16) / 8))
  else none

/-- A byte of memory that a write of parts of an access leaves alone: it is none of theirs, not the byte of a leaf that A and D
stand in, and no cell of the dirty bitmap that they set (04 R106, R137). -/
def State.Untouched (s : State) (k : Acc) (segs : List Seg) (a : Nat) : Prop :=
  ∀ g ∈ segs, (a < g.key k ∨ g.key k + g.len ≤ a) ∧ a ≠ g.tr.entry + 1 ∧
    ∀ b, g.key k ≤ b → b < g.key k + g.len → s.dirtyCell s.cx.id.launch b ≠ some a

/-- No cache line holds a byte of memory. -/
def State.uncached (s : State) (a : Nat) : Prop := ∀ e ∈ s.l2, e.line ≠ a / 64

/-! ## Results of scalar instructions -/

/-- What a scalar instruction writes: its header, its length in words, its destination and the value. -/
structure ScalarRow (n : Nat) (α : Type) where
  h : Hq
  words : Nat
  dest : BitVec n
  value : α

/-- The arithmetic of K (06 R183, R184): the value from the registers of the context. None for every other instruction. -/
def arithmeticOfK (i : Instr) (c : Ctx) : Option (ScalarRow 5 DWord) :=
  match i with
  | .add h d a b => some ⟨h, 1, d, c.rx a + c.rx b⟩
  | .sub h d a b => some ⟨h, 1, d, c.rx a - c.rx b⟩
  | .and h d a b => some ⟨h, 1, d, c.rx a &&& c.rx b⟩
  | .or h d a b => some ⟨h, 1, d, c.rx a ||| c.rx b⟩
  | .xor h d a b => some ⟨h, 1, d, c.rx a ^^^ c.rx b⟩
  | .shl h d a b => some ⟨h, 1, d, BitVec.ofNat 64 ((c.rx a).toNat * 2 ^ ((c.rx b).toNat % 64))⟩
  | .shr h d a b => some ⟨h, 1, d, BitVec.ofNat 64 ((c.rx a).toNat / 2 ^ ((c.rx b).toNat % 64))⟩
  | .sra h d a b => some ⟨h, 1, d, BitVec.ofInt 64 ((c.rx a).toInt / 2 ^ ((c.rx b).toNat % 64))⟩
  | .mul h d a b => some ⟨h, 1, d, BitVec.ofInt 64 ((c.rx a).toInt * (c.rx b).toInt)⟩
  | .mulh h d a b => some ⟨h, 1, d, BitVec.ofInt 64 ((c.rx a).toInt * (c.rx b).toInt / 2 ^ 64)⟩
  | .mulhu h d a b => some ⟨h, 1, d, BitVec.ofNat 64 ((c.rx a).toNat * (c.rx b).toNat / 2 ^ 64)⟩
  | .div h d a b => some ⟨h, 1, d, if c.rx b = 0 then 0 else BitVec.ofInt 64 ((c.rx a).toInt.tdiv (c.rx b).toInt)⟩
  | .divu h d a b => some ⟨h, 1, d, if c.rx b = 0 then 0 else BitVec.ofNat 64 ((c.rx a).toNat / (c.rx b).toNat)⟩
  | .rem h d a b => some ⟨h, 1, d, if c.rx b = 0 then c.rx a else BitVec.ofInt 64 ((c.rx a).toInt.tmod (c.rx b).toInt)⟩
  | .min h d a b => some ⟨h, 1, d, if (c.rx b).slt (c.rx a) then c.rx b else c.rx a⟩
  | .max h d a b => some ⟨h, 1, d, if (c.rx a).slt (c.rx b) then c.rx b else c.rx a⟩
  | .addi h d a i => some ⟨h, 1, d, c.rx a + i.signExtend 64⟩
  | .andi h d a i => some ⟨h, 1, d, c.rx a &&& i.signExtend 64⟩
  | .ori h d a i => some ⟨h, 1, d, c.rx a ||| i.signExtend 64⟩
  | .xori h d a i => some ⟨h, 1, d, c.rx a ^^^ i.signExtend 64⟩
  | .shli h d a i => some ⟨h, 1, d, BitVec.ofNat 64 ((c.rx a).toNat * 2 ^ (i.toNat % 64))⟩
  | .shri h d a i => some ⟨h, 1, d, BitVec.ofNat 64 ((c.rx a).toNat / 2 ^ (i.toNat % 64))⟩
  | .srai h d a i => some ⟨h, 1, d, BitVec.ofInt 64 ((c.rx a).toInt / 2 ^ (i.toNat % 64))⟩
  | .movi h d imm => some ⟨h, 2, d, imm.signExtend 64⟩
  | .movhi h d a imm => some ⟨h, 2, d, BitVec.ofNat 64 (imm.toNat * 2 ^ 32 + (c.rx a).toNat % 2 ^ 32)⟩
  | _ => none

/-- The condition of code `c` on signed and unsigned operands (06 R185). -/
def holdsOf (c : Nat) (a b : DWord) : Prop :=
  match c with
  | 0 => a = b
  | 1 => a ≠ b
  | 2 => a.toInt < b.toInt
  | 3 => a.toInt ≥ b.toInt
  | 4 => a.toNat < b.toNat
  | 5 => a.toNat ≥ b.toNat
  | 6 => a &&& b ≠ 0
  | _ => a &&& b = 0

/-- The predicates that K writes (06 R185, R186): the truth of the value written. -/
def predicateOfK (i : Instr) (c : Ctx) : Option (ScalarRow 3 Prop) :=
  match i with
  | .cmp h d a b k => some ⟨h, 1, d, holdsOf k.toNat (c.rx a) (c.rx b)⟩
  | .cmpi h d a k imm => some ⟨h, 2, d, holdsOf k.toNat (c.rx a) (imm.signExtend 64)⟩
  | .qand h d a b => some ⟨h, 1, d, c.seqK.rq a = true ∧ c.seqK.rq b = true⟩
  | .qor h d a b => some ⟨h, 1, d, c.seqK.rq a = true ∨ c.seqK.rq b = true⟩
  | .qnot h d a => some ⟨h, 1, d, c.seqK.rq a = false⟩
  | _ => none

/-- The y registers of L or the z registers of S (07 R202, 09 R257). -/
def Ctx.rLS (c : Ctx) (q : SeqId) (i : BitVec 4) : DWord := if q = .l then c.ry i else c.rz i
/-- One of them written. -/
def Ctx.wLS (c : Ctx) (q : SeqId) (i : BitVec 4) (v : DWord) : Ctx := if q = .l then c.wy i v else c.wz i v

/-- The arithmetic of L and S (07 R204, R205; 09 R260). -/
def arithmeticOfLS (i : Instr) (r : BitVec 4 → DWord) : Option (ScalarRow 4 DWord) :=
  match i with
  | .yAdd h d a b => some ⟨h, 1, d, r a + r b⟩
  | .ySub h d a b => some ⟨h, 1, d, r a - r b⟩
  | .yAnd h d a b => some ⟨h, 1, d, r a &&& r b⟩
  | .yOr h d a b => some ⟨h, 1, d, r a ||| r b⟩
  | .yXor h d a b => some ⟨h, 1, d, r a ^^^ r b⟩
  | .yShl h d a b => some ⟨h, 1, d, BitVec.ofNat 64 ((r a).toNat * 2 ^ ((r b).toNat % 64))⟩
  | .yShr h d a b => some ⟨h, 1, d, BitVec.ofNat 64 ((r a).toNat / 2 ^ ((r b).toNat % 64))⟩
  | .ySra h d a b => some ⟨h, 1, d, BitVec.ofInt 64 ((r a).toInt / 2 ^ ((r b).toNat % 64))⟩
  | .yMin h d a b => some ⟨h, 1, d, if (r b).slt (r a) then r b else r a⟩
  | .yMax h d a b => some ⟨h, 1, d, if (r a).slt (r b) then r b else r a⟩
  | .yAddi h d a i => some ⟨h, 1, d, r a + i.signExtend 64⟩
  | .yMovi h d imm => some ⟨h, 2, d, imm.signExtend 64⟩
  | _ => none

/-! ## Headers -/

/-- The header of a word of the L, S and K formats. -/
def hqOf (i : Instr) : Option Hq :=
  match i with
  | .add h _ _ _ => some h
  | .sub h _ _ _ => some h
  | .and h _ _ _ => some h
  | .or h _ _ _ => some h
  | .xor h _ _ _ => some h
  | .shl h _ _ _ => some h
  | .shr h _ _ _ => some h
  | .sra h _ _ _ => some h
  | .mul h _ _ _ => some h
  | .mulh h _ _ _ => some h
  | .mulhu h _ _ _ => some h
  | .div h _ _ _ => some h
  | .divu h _ _ _ => some h
  | .rem h _ _ _ => some h
  | .min h _ _ _ => some h
  | .max h _ _ _ => some h
  | .addi h _ _ _ => some h
  | .andi h _ _ _ => some h
  | .ori h _ _ _ => some h
  | .xori h _ _ _ => some h
  | .shli h _ _ _ => some h
  | .shri h _ _ _ => some h
  | .srai h _ _ _ => some h
  | .movi h _ _ => some h
  | .movhi h _ _ _ => some h
  | .cmp h _ _ _ _ => some h
  | .cmpi h _ _ _ _ => some h
  | .qand h _ _ _ => some h
  | .qor h _ _ _ => some h
  | .qnot h _ _ => some h
  | .ldx h _ _ _ _ _ _ => some h
  | .stx h _ _ _ _ _ _ => some h
  | .stxTag h _ _ _ _ => some h
  | .ldxp h _ _ _ _ _ _ => some h
  | .amo h _ _ _ _ _ => some h
  | .cinv h _ _ _ => some h
  | .cwb h _ _ _ => some h
  | .pin h _ _ => some h
  | .unpin h _ _ => some h
  | .mfs h _ _ => some h
  | .mts h _ _ => some h
  | .rdplan h _ _ => some h
  | .trap h _ => some h
  | .brk h _ => some h
  | .garr h _ _ _ => some h
  | .gwait h _ _ _ => some h
  | .gsync h _ _ _ => some h
  | .launch h _ _ => some h
  | .spawn h => some h
  | .cpy h _ _ _ _ _ _ => some h
  | .cpyc h _ _ _ _ _ _ _ => some h
  | .cpywait h _ _ => some h
  | .cpywaitAll h _ => some h
  | .cpywaitChain h _ => some h
  | .ctreadyArm h _ _ => some h
  | .ctreadyFire h _ => some h
  | .ctreadyGo h _ _ => some h
  | .ctwait h _ _ => some h
  | .ctwaitTest h _ _ => some h
  | .boostRel h _ => some h
  | .boostMid h _ => some h
  | .boostMax h _ => some h
  | .freezeMark h _ => some h
  | .freeze h _ _ _ => some h
  | .freezeDrop h _ => some h
  | .freezeCont h _ => some h
  | .thaw h _ _ _ => some h
  | .resume h _ => some h
  | .resumeTerm h _ => some h
  | .yAdd h _ _ _ => some h
  | .ySub h _ _ _ => some h
  | .yAnd h _ _ _ => some h
  | .yOr h _ _ _ => some h
  | .yXor h _ _ _ => some h
  | .yShl h _ _ _ => some h
  | .yShr h _ _ _ => some h
  | .ySra h _ _ _ => some h
  | .yMin h _ _ _ => some h
  | .yMax h _ _ _ => some h
  | .yAddi h _ _ _ => some h
  | .yMovi h _ _ => some h
  | .yCmp h _ _ _ _ => some h
  | .yMfs h _ _ => some h
  | .sbind h _ _ _ _ _ => some h
  | .sset h _ _ _ _ => some h
  | .lds h _ _ _ => some h
  | .ldso h _ _ _ _ => some h
  | .ldg h _ _ _ => some h
  | .ldz h _ _ _ _ => some h
  | .ldb h _ _ _ _ => some h
  | .pref h _ _ => some h
  | .bdecl h _ _ _ _ _ => some h
  | .bwait h _ _ => some h
  | .bstateRead h _ _ => some h
  | .bstatePdone h _ => some h
  | .bstateCdone h _ => some h
  | .bstateFree h _ => some h
  | .ldtf h => some h
  | .sts h _ _ _ => some h
  | .qst h _ _ _ _ => some h
  | .stb h _ _ _ _ => some h
  | .shopen h _ _ => some h
  | .publish h _ _ _ => some h
  | .atomv h _ _ _ _ => some h
  | .amos h _ _ _ _ _ _ => some h
  | .bdrain h _ => some h
  | _ => none

/-- The header of a word that every sequencer has (06 R172 to R182). -/
def sharedHd (i : Instr) : Option Hd :=
  match i with
  | .nop h | .halt h | .fence h _ _ | .tkpost h _ _ | .tkwait h _ _ | .pbt h _ _ _ _ | .brx h _ | .brxd h _ _ => some h
  | _ => none

/-- The header of a word of C whose predicate qp decides whether it executes (02 R47, 08 R233). -/
def hdOf (i : Instr) : Option Hd :=
  match i with
  | .twr h _ _ _ _ | .trr h _ _ _ _ | .trc h _ _ _ _ | .tclr h _ => some h
  | .aadd h _ _ _ | .amov h _ _ | .apost h _ _ _ | .amodset h _ _ | .aidx h _ _ _ => some h
  | .win h _ _ _ _ _ _ _ _ _ | .wcfg h _ _ | .wcfgRd h _ _ | .wstat h _ _ _ | .lvtset h _ _ _ => some h
  | .waccRd h _ _ | .waccWr h _ _ | .waccClr h _ | .waccEpi h _ _ => some h
  | .bcast h _ _ _ _ _ _ | .planb h _ | .plane h | .fibexRd h _ | .fibexSet h _ => some h
  | i => sharedHd i

/-- The header and the lane predicate of a word of C that executes where some lane of the predicate is true (08 R233). -/
def laneHdOf (i : Instr) : Option (Tl × BitVec 6) :=
  match i with
  | .vadd h _ _ _ g _ | .vsub h _ _ _ g _ | .vmul h _ _ _ g _ | .vfma h _ _ _ g _ | .vfms h _ _ _ g _ => some (h, g)
  | .vmin h _ _ _ g _ | .vmax h _ _ _ g _ | .vmad h _ _ _ g _ | .vabs h _ _ g _ | .vneg h _ _ g _ => some (h, g)
  | .vand h _ _ _ g _ | .vor h _ _ _ g _ | .vxor h _ _ _ g _ | .vnot h _ _ g _ => some (h, g)
  | .vshl h _ _ _ g _ | .vshr h _ _ _ g _ | .vsra h _ _ _ g _ => some (h, g)
  | .vmov h _ _ g _ | .vmovi h _ g _ _ | .vcvt h _ _ _ g => some (h, g)
  | .vrotr h _ _ _ g _ | .vrotc h _ _ _ g _ | .vbcr h _ _ _ g _ | .vbcc h _ _ _ g _ => some (h, g)
  | .vredr h _ _ _ g _ | .vredc h _ _ _ g _ | .vscanr h _ _ _ g _ | .vscanc h _ _ _ g _ => some (h, g)
  | .vexp2 h _ _ g _ | .vlog2 h _ _ g _ | .vrcp h _ _ g _ | .vrsq h _ _ g _ | .vtanh h _ _ g _ | .qpush h _ _ g => some (h, g)
  | _ => none

/-- The token field of a word of C that has a predicate, and whether it executes on a context. -/
def truthOf (i : Instr) (c : Ctx) : Option (BitVec 3 × Bool) :=
  match hdOf i, laneHdOf i with
  | some h, _ => some (h.tk, c.seqC.rq h.qp)
  | none, some (h, g) => some (h.tk, c.rp g != 0)
  | none, none => none

/-! ## Results of C -/

/-- What a word of C does: whether it executes, its token field, its length, its source codes, and its effect on the context. -/
structure BundleRow where
  truth : Ctx → Bool
  tk : BitVec 3
  words : Nat
  srcs : List (BitVec 5)
  effect : Ctx → Ctx

/-- A word that writes the true lanes of v[d] (08 R237). -/
def laneRow (o : Ctx) (h : Tl) (words : Nat) (g : BitVec 6) (d : BitVec 4) (srcs : List (BitVec 5)) (new : Image) : BundleRow :=
  ⟨fun c => c.rp g != 0, h.tk, words, srcs, fun c => c.wv d (mergeLanes (o.rp g) new (c.v.get d))⟩

/-- Arithmetic of the vector family (08 R238) on the operands of a context. -/
def vectorArithmetic (i : Instr) (o : Ctx) : Option BundleRow :=
  let two (h : Tl) (d : BitVec 4) (a b : BitVec 5) (g : BitVec 6) (f : Nat → Nat → Nat → Nat) : Option BundleRow :=
    some (laneRow o h 1 g d [a, b] (lanes3 f (o.imageD a) (o.imageD b) (o.v.get d)))
  let one (h : Tl) (d : BitVec 4) (a : BitVec 5) (g : BitVec 6) (f : Nat → Nat) : Option BundleRow :=
    some (laneRow o h 1 g d [a] (lanes1 f (o.imageD a)))
  match i with
  | .vadd h d a b g y => two h d a b g (perElem y (fun f a b _ => f.add a b) (fun a b _ => a + b))
  | .vsub h d a b g y => two h d a b g (perElem y (fun f a b _ => f.sub a b) (fun a b _ => uI (sI a - sI b)))
  | .vmul h d a b g y => two h d a b g (perElem y (fun f a b _ => f.mul a b) (fun a b _ => a * b))
  | .vfma h d a b g y => two h d a b g (perElem y (fun f a b d => f.fma a b d) (fun a b d => a * b + d))
  | .vfms h d a b g y => two h d a b g (perElem y fmsF (fun a b d => uI (sI d - sI a * sI b)))
  | .vmin h d a b g y => two h d a b g (perElem y (fun f a b _ => f.min a b) (fun a b _ => uI (min (sI a) (sI b))))
  | .vmax h d a b g y => two h d a b g (perElem y (fun f a b _ => f.max a b) (fun a b _ => uI (max (sI a) (sI b))))
  | .vabs h d a g y => one h d a g (fun x => perElem y (fun f a _ _ => absF f a) (fun a _ _ => uI |sI a|) x 0 0)
  | .vneg h d a g y => one h d a g (fun x => perElem y (fun f a _ _ => negF f a) (fun a _ _ => uI (-sI a)) x 0 0)
  | .vmad h d a b g y => two h d a b g (madLane y)
  | _ => none

/-- Logic and shifts of the vector family (08 R238). -/
def vectorLogic (i : Instr) (o : Ctx) : Option BundleRow :=
  let two (h : Tl) (d : BitVec 4) (a b : BitVec 5) (g : BitVec 6) (f : Nat → Nat → Nat) : Option BundleRow :=
    some (laneRow o h 1 g d [a, b] (lanes3 (fun x z _ => f x z) (o.imageD a) (o.imageD b) (o.v.get d)))
  match i with
  | .vand h d a b g _ => two h d a b g (fun x z => x &&& z)
  | .vor h d a b g _ => two h d a b g (fun x z => x ||| z)
  | .vxor h d a b g _ => two h d a b g (fun x z => x ^^^ z)
  | .vnot h d a g _ => some (laneRow o h 1 g d [a] (lanes1 (fun x => 2 ^ 32 - 1 - x % 2 ^ 32) (o.imageD a)))
  | .vshl h d a b g _ => two h d a b g (fun x z => x * 2 ^ (z % 32))
  | .vshr h d a b g _ => two h d a b g (fun x z => x / 2 ^ (z % 32))
  | .vsra h d a b g _ => two h d a b g (fun x z => uI (sI x / 2 ^ (z % 32)))
  | _ => none

/-- Moves, conversions, comparison and selection of the vector family (08 R239 to R241). -/
def vectorMove (i : Instr) (o : Ctx) : Option BundleRow :=
  match i with
  | .vmov h d a g _ => some (laneRow o h 1 g d [a] (o.imageD a))
  | .vmovi h d g _ imm => some (laneRow o h 2 g d [] (imageOf (List.replicate 1024 imm.toNat)))
  | .vcvt h d a c g => some (laneRow o h 1 g d [a] (lanes3 (fun x _ z => cvtLane c.toNat x z) (o.imageD a) 0 (o.v.get d)))
  | .vcmp h c a b p y => some ⟨fun _ => true, h.tk, 1, [a, b], fun x => x.wp p
      (maskOf (List.zipWith (laneCond c.toNat y) (lanesOf (o.imageD a)) (lanesOf (o.imageD b))))⟩
  | .vsel h d a b p _ => some ⟨fun _ => true, h.tk, 1, [a, b], fun x => x.wv d (mergeLanes (o.rp p) (o.imageD a) (o.imageD b))⟩
  | _ => none

/-- Axis moves, reductions and prefixes (08 R242, R243). -/
def vectorAxis (i : Instr) (o : Ctx) : Option BundleRow :=
  let move (h : Tl) (d : BitVec 4) (a : BitVec 5) (g : BitVec 6) (from0 : Nat → Nat → Nat × Nat) : Option BundleRow :=
    some (laneRow o h 1 g d [a] (imageBy (fun r c => laneAt (o.imageD a) (from0 r c).1 (from0 r c).2)))
  let rows (g : BitVec 6) (a op : BitVec 5) (y : BitVec 2) : List (List Nat) :=
    rowsOf (masked (o.rp g) (redId op.toNat y) (o.imageD a))
  let all (h : Tl) (d : BitVec 4) (a : BitVec 5) (g : BitVec 6) (lanes : List Nat) : Option BundleRow :=
    some ⟨fun c => c.rp g != 0, h.tk, 1, [a], fun c => c.wv d (imageOf lanes)⟩
  let byCol (cs : List (List Nat)) : List Nat := (List.range 16).flatMap (fun r => cs.map (fun l => (l[r]?).getD 0))
  match i with
  | .vrotr h d a n g _ => move h d a g (fun r c => (r, (c + 64 - (o.ra n).toNat % 64) % 64))
  | .vrotc h d a n g _ => move h d a g (fun r c => ((r + 16 - (o.ra n).toNat % 16) % 16, c))
  | .vbcr h d a n g _ => move h d a g (fun r _ => (r, (o.ra n).toNat % 64))
  | .vbcc h d a n g _ => move h d a g (fun _ c => ((o.ra n).toNat % 16, c))
  | .vredr h d a op g y => all h d a g ((rows g a op y).map (spread (redOp op.toNat y))).flatten
  | .vredc h d a op g y => all h d a g (byCol ((colsOf (rows g a op y)).map (spread (redOp op.toNat y))))
  | .vscanr h d a op g y => all h d a g ((rows g a op y).map (scanOf (redOp op.toNat y))).flatten
  | .vscanc h d a op g y => all h d a g (byCol ((colsOf (rows g a op y)).map (scanOf (redOp op.toNat y))))
  | _ => none

/-- The special functions (08 R245): a write that is pending for six bundles more; and QPUSH (R246) where its queue has
room. -/
def vectorQueued (i : Instr) (o : Ctx) : Option BundleRow :=
  let sfu (h : Tl) (d : BitVec 4) (a : BitVec 5) (g : BitVec 6) (y : BitVec 2) (f : Fmt → Nat → Nat) : Option BundleRow :=
    some ⟨fun c => c.rp g != 0, h.tk, 1, [a], fun c => { c with sfu := c.sfu ++
      [⟨d, o.rp g, lanes1 (fun l => perElem y (fun fm x _ _ => f fm x) (fun x _ _ => x) l 0 0) (o.imageD a), 6⟩] }⟩
  match i with
  | .vexp2 h d a g y => sfu h d a g y Fmt.exp2
  | .vlog2 h d a g y => sfu h d a g y Fmt.log2
  | .vrcp h d a g y => sfu h d a g y Fmt.rcp
  | .vrsq h d a g y => sfu h d a g y Fmt.rsq
  | .vtanh h d a g y => sfu h d a g y Fmt.tanh
  | .qpush h n a g =>
    let img := masked (o.rp g) 0 (o.imageD a)
    if n.toNat < 4 then
      if (o.sqAt n.toNat).length < 2 then
        some ⟨fun c => c.rp g != 0, h.tk, 1, [a], fun c => c.setSq n.toNat (c.sqAt n.toNat ++ [img])⟩
      else none
    else if o.iq.length < 4 then
      some ⟨fun c => c.rp g != 0, h.tk, 1, [a], fun c => { c with iq := c.iq ++ [img.setWidth 2048] }⟩
    else none
  | _ => none

/-- Predicate registers (08 R247, R248). -/
def lanePredicates (i : Instr) (o : Ctx) : Option BundleRow :=
  let row (h : Tl) (f : Ctx → Ctx) : Option BundleRow := some ⟨fun _ => true, h.tk, 1, [], f⟩
  match i with
  | .pand h d a b => row h (fun c => c.wp d (o.rp a &&& o.rp b))
  | .por h d a b => row h (fun c => c.wp d (o.rp a ||| o.rp b))
  | .pxor h d a b => row h (fun c => c.wp d (o.rp a ^^^ o.rp b))
  | .pnot h d a => row h (fun c => c.wp d (~~~(o.rp a)))
  | .pmov h d a => row h (fun c => c.wp d (o.rp a))
  | .pany h d a b => row h (fun c => c.updSeq .c (fun st => st.wq d
      ((List.range 1024).any (fun j => (o.rp a).getLsbD j && (o.rp b).getLsbD j))))
  | .pall h d a b => row h (fun c => c.updSeq .c (fun st => st.wq d
      ((List.range 1024).all (fun j => !(o.rp b).getLsbD j || (o.rp a).getLsbD j))))
  | .pcnt h d a b => row h (fun c => c.wa d
      (BitVec.ofNat 64 ((List.range 1024).filter (fun j => (o.rp a).getLsbD j && (o.rp b).getLsbD j)).length))
  | _ => none

/-- Transpose tiles and address registers (08 R249 to R252). -/
def tilesAndAddresses (i : Instr) (o : Ctx) : Option BundleRow :=
  let row (h : Hd) (f : Ctx → Ctx) : Option BundleRow := some ⟨fun c => c.seqC.rq h.qp, h.tk, 1, [], f⟩
  match i with
  | .twr h t v c w => row h (fun x => { x with t := x.t.set t (BitVec.ofNat 131072 (packBits 2048 ((List.range 64).map (fun i =>
      if (i + 64 - c.toNat) % 64 < 16 then
        packBits 32 ((List.range 64).map (fun k => tileConv w (laneAt (o.v.get v) ((i + 64 - c.toNat) % 64) k)))
      else (o.t.get t).toNat / 2 ^ (2048 * i) % 2 ^ 2048)))) })
  | .trr h t v c w => row h (fun x => x.wv v (imageBy (fun i k => tileConv w (tileAt (o.t.get t) ((c.toNat + i) % 64) k))))
  | .trc h t v c w => row h (fun x => x.wv v (imageBy (fun i k => tileConv w (tileAt (o.t.get t) k ((c.toNat + i) % 64)))))
  | .tclr h t => row h (fun x => { x with t := x.t.set t 0 })
  | .aadd h d a m => row h (fun x => x.wa d (o.ra a + o.ra m))
  | .amov h d a => row h (fun x => x.wa d (o.ra a))
  | .apost h d a m => row h (fun x => (x.wa d (o.ra a)).wa a (stepIndex (o.ra a) (o.m.get m)))
  | .amodset h a m => if modOk (o.ra a) then row h (fun x => { x with m := x.m.set m (o.ra a) }) else none
  | .aidx h d a m => row h (fun x => x.wa d (indexOf (o.ra a) (o.m.get m)))
  | .aaddi h d a i => some ⟨fun _ => true, h.tk, 1, [], fun x => x.wa d (o.ra a + i.signExtend 64)⟩
  | _ => none

/-- No window of the context that names an accumulator is still to come. -/
def Ctx.accFree (c : Ctx) (a : BitVec 4) : Bool := !c.wins.any (fun w => w.acc == a && !(w.flags.invalid || w.flags.abort))

/-- The optical bank's registers (10 R299, R308, R312, R313) on a compute core that has recorded no deferred fault. -/
def bankRegisters (i : Instr) (o : Ctx) : Option BundleRow :=
  let row (h : Hd) (srcs : List (BitVec 5)) (ok : Bool) (f : Ctx → Ctx) : Option BundleRow :=
    if o.deferred.isEmpty && (!o.onBcast || i.maps.contains .b) && ok then some ⟨fun c => c.seqC.rq h.qp, h.tk, 1, srcs, f⟩ else none
  match i with
  | .wcfg h n a => row h [] (decide (n.toNat ≤ 8) && bankRegOk n.toNat (o.ra a)) (fun c => c.setBankReg n.toNat (o.ra a))
  | .wcfgRd h n a => row h [] true (fun c => c.wa a (o.bankReg n.toNat))
  | .waccRd h c v => row h [] (o.accFree c) (fun x => x.wv v ((x.acc.get c).setWidth 32768))
  | .waccWr h c a => row h [a] (o.accFree c) (fun x => { x with acc := x.acc.set c ((o.imageD a).setWidth 8192) })
  | .waccClr h c => row h [] (o.accFree c) (fun x => { x with acc := x.acc.set c 0 })
  | .wstat h d p e => row h [] true (fun c =>
      match o.wstat with
      | [] => (c.wa d 0).wp p 0
      | w :: rest => { (c.wa d w.summary).wp p (w.mask.setWidth 1024) with wstat := if e = 1 then o.wstat else rest })
  | .lvtset h t n a =>
    let img := o.imageD a
    let quiet := !o.wins.any (fun w => !w.flags.abort) && !o.epi.any (fun e => e.win.isSome)
    if t = 0 then
      row h [a] (quiet && (lvtEntries img).all (fun e => decide (-15 ≤ e) && decide (e ≤ 15))) (fun c => { c with
        lvt := c.lvt.set n (BitVec.ofNat 128 (packBits 8 ((lvtEntries img).map (fun e => (BitVec.ofInt 8 e).toNat)))) })
    else
      let w := signExt (laneNum img 129) 32
      row h [a] (quiet && isFinite (laneNum img 128) && decide (-126 ≤ w) && decide (w ≤ 127)) (fun c => { c with
        act := Vector.set c.act (n.toNat % 4)
          ({ slope := BitVec.ofNat 2048 img.toNat, icpt := BitVec.ofNat 2048 (img.toNat / 2 ^ 2048),
             lo := BitVec.ofNat 32 (laneNum img 128), w := w } : ActTable) (Nat.mod_lt _ (by decide)) })
  | _ => none

/-- What a word of C does that computes on its context alone: NOP, the vector family, predicate registers, transpose tiles, address
registers and the registers of the bank. -/
def rowOf (i : Instr) (o : Ctx) : Option BundleRow :=
  match i with
  | .nop h => some ⟨fun c => c.seqC.rq h.qp, h.tk, 1, [], id⟩
  | i =>
    (vectorArithmetic i o).or <| (vectorLogic i o).or <| (vectorMove i o).or <| (vectorAxis i o).or <| (vectorQueued i o).or <|
      (lanePredicates i o).or <| (tilesAndAddresses i o).or (bankRegisters i o)

/-- A bundle of such words can complete: its waits find their tokens and its posts their room (01 R22), and the heads that its true
words name are there. -/
structure State.IssuesBundle (s : State) (rs : List BundleRow) : Prop where
  focus : s.cur = .c
  alone : s.bun = none
  tokens : ∀ i, rs.countP (fun r => s.cx.openField .c r.tk == some i) ≤ s.cx.tokens i
  room : ∀ i, i < 12 → s.cx.tokens i + rs.countP (fun r => fieldPost .c r.tk == some i) ≤ 15
  sources : ∀ r ∈ rs, r.truth s.cx = true → ∀ c ∈ r.srcs, (s.cx.image c).isSome = true

/-- The bundle completes: each word takes its token and, where it executes, has its effect; then the tokens are posted, each queue head
that true words name is taken once (02 R52), special functions land (08 R235), and C moves past the words. -/
def State.bundledAll (s : State) (rs : List BundleRow) : State :=
  let on := rs.filter (fun r => r.truth s.cx)
  let c := rs.foldl (fun c r => (if r.truth s.cx then r.effect else id) (c.takenBy .c r.tk)) s.cx
  let c := rs.foldl (fun c r => c.postedBy .c r.tk) c
  let c := ((on.flatMap (·.srcs)).flatMap takesOf).dedup.foldl Ctx.take c
  let c := landSfu s.cx.sfu.length false { c with bundles := c.bundles + 1 }
  { s with cx := c.updSeq .c (fun st => ({ st with off := 0 } : SeqState).retire (rs.map (·.words)).sum false) }

/-! ## Words that are no instruction -/

/-- What a sequencer executes from word `k` of a line on holds word `j`: its first word, or in a bundle of C the word after instructions
`is` none of which ends it (02 R50). -/
def Line.Leads (l : Line) (m : SeqSel) (j : Nat) : List Instr → Nat → Prop
  | [], k => k = j
  | i :: is, k => isC m = true ∧ k ≤ 15 ∧ decode m (l.full m k) = .ok i ∧ i.stopBit = 0 ∧ l.Leads m j is (k + i.words)

/-- A sequencer that is about to execute a word of this kind, C also as a later word of a bundle, takes its illegal instruction fault,
0x010 to 0x013, with that word in INSTR (02 R42 row 4; 14 R440). -/
def FaultsOn (m : SeqSel) (bad : Nat → Prop) : Prop :=
  ∀ (s s1 : State) (l : Line) (is : List Instr) (j : Nat), s.mayIssue = true → nextLine s = .ok l s1 → s1.cur = s.cur →
    selOf s1.cx s1.cur = m → l.Leads m j is (wordIx (s1.cx.seq s1.cur).pc) → j ≤ 15 → bad (l.full m j) →
      exec .illegalInstruction s = .next (s1.takeFault { cause := 0x010 + seqNum s.cur } (seqNum s.cur) (instrAt s1.cx s.cur j))

/-- What the fields of a word of K must not hold, by opcode: an immediate shift past 63, and reserved fields of MOVI and MOVHI. -/
def illegalArithmeticOfK (w : Nat) : Prop :=
  (bits w 31 26 ∈ [0x15, 0x16, 0x17] ∧ 64 ≤ bits w 15 7) ∨
  (bits w 31 26 = 0x18 ∧ (bits w 15 7 ≠ 0 ∨ bits w 20 16 ≠ 0)) ∨ (bits w 31 26 = 0x19 ∧ bits w 15 7 ≠ 0)

/-- CMP, CMPI, QAND, QOR and QNOT: predicate fields past q7, conditions and functions that are not assigned, QNOT's xb. -/
def illegalPredicateOfK (w : Nat) : Prop :=
  (bits w 31 26 = 0x1A ∧ (bits w 25 24 ≠ 0 ∨ 8 ≤ bits w 10 7)) ∨ (bits w 31 26 = 0x1B ∧ (bits w 25 24 ≠ 0 ∨ 8 ≤ bits w 15 7)) ∨
  (bits w 31 26 = 0x1C ∧ (bits w 25 24 ≠ 0 ∨ bits w 20 19 ≠ 0 ∨ bits w 15 14 ≠ 0 ∨ 3 ≤ bits w 10 7 ∨
    (bits w 10 7 = 2 ∧ bits w 15 11 ≠ 0)))

/-- The y ALU subset past fn7 9, and the reserved fields of MOVI. -/
def illegalArithmeticOfLS (w : Nat) : Prop :=
  (bits w 31 26 = 0x10 ∧ 10 ≤ bits w 13 7) ∨
  (bits w 31 26 = 0x12 ∧ (bits w 21 18 ≠ 0 ∨ bits w 17 14 ≠ 0 ∨ bits w 13 7 ≠ 0))

/-- Types that the arithmetic of the vector family does not accept, and vb of its unary instructions. -/
def illegalVectorArithmetic (w : Nat) : Prop :=
  (bits w 31 26 ∈ [0x19, 0x1A, 0x1B, 0x1C, 0x1D, 0x1E, 0x1F] ∧ bits w 5 4 ≠ 3) ∨ (bits w 31 26 = 0x20 ∧ bits w 5 4 = 0) ∨
  (bits w 31 26 ∈ [0x17, 0x18, 0x1C] ∧ bits w 16 12 ≠ 0)

/-- VCMP, VMOV, VMOVI, VCVT, the axis moves and the reductions: reserved fields, and conditions, conversions and operators that
are not assigned. -/
def illegalVectorMove (w : Nat) : Prop :=
  (bits w 31 26 = 0x21 ∧ (8 ≤ bits w 25 22 ∨ (6 ≤ bits w 25 22 ∧ bits w 5 4 ≠ 3))) ∨
  (bits w 31 26 = 0x23 ∧ bits w 16 12 ≠ 0) ∨ (bits w 31 26 = 0x24 ∧ bits w 21 12 ≠ 0) ∨
  (bits w 31 26 = 0x25 ∧ (bits w 5 4 ≠ 0 ∨ 15 ≤ bits w 16 12)) ∨ (bits w 31 26 ∈ [0x26, 0x27, 0x28, 0x29] ∧ bits w 16 16 = 1) ∨
  (bits w 31 26 ∈ [0x2A, 0x2B, 0x2C, 0x2D] ∧ 3 ≤ bits w 16 12)

/-- RDPLAN: functions past 1 and reserved fields. -/
def illegalRdplan (w : Nat) : Prop :=
  bits w 31 26 = 0x2A ∧ (2 ≤ bits w 10 7 ∨ bits w 20 16 ≠ 0 ∨ bits w 15 11 ≠ 0)

/-- The numbers of the system registers, and of those that every sequencer reads (06 R169). -/
def systemNumber (n : Nat) : Prop := n ≤ 4 ∨ (8 ≤ n ∧ n ≤ 0xE) ∨ (0x10 ≤ n ∧ n ≤ 0x1F) ∨ (0x20 ≤ n ∧ n ≤ 0x22) ∨ (0x30 ≤ n ∧ n ≤ 0x3F)
def systemNumberOfAll (n : Nat) : Prop := (8 ≤ n ∧ n ≤ 0xA) ∨ (0x10 ≤ n ∧ n ≤ 0x1F) ∨ (0x20 ≤ n ∧ n ≤ 0x22)

/-- MFS and MTS of K, and MFS of L and S and of C: numbers that the sequencer has no register under, and reserved fields of K's. -/
def illegalSystemOfK (w : Nat) : Prop :=
  (bits w 31 26 ∈ [0x28, 0x29] ∧ ¬systemNumber (bits w 15 7)) ∨ (bits w 31 26 = 0x28 ∧ bits w 20 16 ≠ 0) ∨
  (bits w 31 26 = 0x29 ∧ bits w 25 21 ≠ 0)
def illegalSystemOfLS (w : Nat) : Prop := bits w 31 26 = 0x20 ∧ ¬systemNumberOfAll (bits w 15 7)
def illegalSystemOfC (w : Nat) : Prop := bits w 31 26 = 0x35 ∧ ¬systemNumberOfAll (bits w 12 4)

end Sys2Proof.Machine
end

