-- ==== Sys2Proof/Certificates/Slice0/Obligations.lean ====
section
/-! DEFINITION. The statements for the provers. -/
open Sys2Proof Sys2Proof.Machine

/-! ## Encodings -/

/-- 02 R44 to R58: words written out bit by bit from the encodings of the spec decode to the instructions they stand for. -/
def Obligations.WordsDecodeAsTheSpecEncodesThem : Prop :=
  decode .l 0b000001_0000000000000000000_001_0_000 = .ok (.nop ⟨1, 0, 0⟩) ∧
  decode .k 0b010000_01101_00111_00000_0000_010_0_011 = .ok (.add ⟨2, 3⟩ 13 7 0) ∧
  decode .k (0x78DDE6C4 * 2 ^ 32 + 0b011000_10011_00000_000000000_100_0_010) = .ok (.movi ⟨4, 2⟩ 19 0x78DDE6C4) ∧
  decode .l 0b010110_000000_0111_0011_0000_1_011_0_110 = .ok (.lds ⟨3, 6⟩ 7 3 1) ∧
  decode .s 0b010110_000000_0111_0010_0000_1_010_0_011 = .ok (.sts ⟨2, 3⟩ 7 2 1) ∧
  decode .c 0b010000_1100_10000_00100_111000_00_1_110 = .ok (.vadd ⟨1, 6⟩ 12 16 4 56 0) ∧
  decode .k 0b000000_00000000000000000000000000 = .error .unassignedOpcode ∧
  decode .k 0b000001_0000000000000000000_000_0_111 = .error .fieldValue

/-- 02 R42 row 4, R44, R53; 01 R21: what decodes is well formed on its sequencer; opcode 0 is no instruction, nor is a word of L,
S or K whose bit 3 is set, nor any whose token field is 7. -/
def Obligations.ReservedWordsAreRefused : Prop :=
  ∀ (q : SeqSel) (w : Nat), (w / 2 ^ 26 % 64 = 0 → decode q w = .error .unassignedOpcode) ∧
    (∀ i, decode q w = .ok i → i.wellFormed q = true ∧ w % 8 ≠ 7 ∧ (q = .l ∨ q = .s ∨ q = .k → w / 8 % 2 = 0))

/-- 02 R44 to R58: decoding the words of an instruction that is well formed on a sequencer gives it back. -/
def Obligations.DecodingGivesBackWhatWasEncoded : Prop :=
  ∀ (q : SeqSel) (i : Instr), i.wellFormed q = true → decode q (encode i) = .ok i

/-! ## A step -/

/-- 02 R41, R50: where no event is due, a turn that issues a sequencer which may issue runs the instruction that its line
holds at its program counter, a bundle of C being one instruction with the stop bit, or the instructions up to it. Before it
comes the acquire of a context that has been resumed (14 R388); after it, a transfer whose delay is over takes place (06
R179). A fault in the shadow bank waits for the context's next issue (07 R227). The model's own readings in it: log entries 2,
21, 46. -/
def Obligations.StepRunsTheDecodedInstruction : Prop :=
  ∀ (s s0 s1 s2 : State) (c : CtxId) (q : SeqId) (rest : List Turn) (l : Line), s.held = false → dueEvent s = none → dueChange s = none →
    s.agenda = .issue c q :: rest → (s.ctx? c).isSome = true → s0 = { State.focus { s with agenda := rest } c with cur := q } →
    s0.mayIssue = true → s1 = s0.acquireDue → nextLine s1 = .ok l s2 →
    let m := selOf s2.cx s2.cur
    let k := wordIx (s2.cx.seq s2.cur).pc
    let ends (t : State) : State :=
      if t.cx.status == s1.cx.status || (s1.cx.status != .parked && (s1.isActive s1.cx || s1.freezing c)) then settle c t
      else { s with agenda := rest }
    (∀ i t, decode m (l.full m k) = .ok i → (isC m = true → i.stopBit = 1) → k + i.words ≤ 16 → exec i s2 = .next t →
      step s = .next (ends t)) ∧
    (∀ is, readUnit m (illegalCause s2.cur) l k 15 k = .ok is →
      (2 ≤ is.length → bundleOk is = true → step s = .next (ends (runBundle after is s2))) ∧
      (isC m = true → bundleOk is = false → step s = .next (ends (s2.faultAtWord 0x025 k))))

/-- 02 R51, R52; 08 R231: a bundle within the limits of R51 runs all its words on the registers and predicates as they stood before
it, so that no word sees what another writes; a queue head that several words name is taken once; words whose predicate is false
only take and post their tokens. The words are those that change their context alone, and NOP. -/
def Obligations.BundlesReadBeforeTheyWrite : Prop :=
  ∀ (s : State) (is : List Instr) (rs : List BundleRow), is.mapM (fun i => rowOf i s.cx) = some rs → is ≠ [] → bundleOk is = true →
    s.IssuesBundle rs → runBundle after is s = s.bundledAll rs

/-- 02 R41, R43: the line of the program counter is the one that the sequencer executes; another is the one that it has fetched since its
last FENCE; one that it has not is the 64 bytes at its address, which translate for fetching, with a link word of the sequencer's own; A
is set in the leaf. The model's own readings in it: log entry 8. -/
def Obligations.TheNextLineIsFetchedFromMemory : Prop :=
  ∀ (s : State) (st : SeqState), st = s.cx.seq s.cur → (∀ p, st.pend = some p → ¬(p.taken = true ∧ p.left = 0)) → wordIx st.pc ≠ 0 →
    (∀ l, st.line = some l → l.va = lineVa st.pc → nextLine s = .ok l s) ∧
    (∀ l, (∀ e, st.line = some e → e.va ≠ lineVa st.pc) → st.fetched.find? (fun e => e.va == lineVa st.pc) = some l →
      linkOk (l.word 0) = true → linkOwner (l.word 0) = seqNum s.cur →
      nextLine s = .ok l { s with cx := s.cx.updSeq s.cur (fun st => { st with line := some l }) }) ∧
    (∀ tr bs w, (∀ e, st.line = some e → e.va ≠ lineVa st.pc) → (∀ e ∈ st.fetched, e.va ≠ lineVa st.pc) → translate s s.cx.asid.toNat .fetch (lineVa st.pc) = .ok tr → tr.spad = false →
      tr.home = s.dev → cachesAway (s.withA tr) s.agent tr (Seg.key ⟨lineVa st.pc, 64, tr⟩ .read) = false →
      bs = bytesOf (s.withA tr).mem [⟨lineVa st.pc, 64, tr⟩] →
      w = leNat (bs.take 4) → linkOk w = true → linkOwner w = seqNum s.cur →
      let l : Line := ⟨lineVa st.pc, BitVec.ofNat 512 (leNat bs)⟩
      nextLine s = .ok l { s.withA tr with cx := s.cx.updSeq s.cur (fun st => { st with fetched := l :: st.fetched, line := some l }) })

/-- 02 R37 to R39: the program counter moves within its line; past word 15 it goes on in the line that NEXT names, or, past the
last line of a chain, to the address after the line. -/
def Obligations.TheProgramCounterFollowsTheChain : Prop :=
  ∀ (st : SeqState) (n : Nat) (opened : Bool), st.halted = false → 1 ≤ n → wordIx st.pc + n ≤ 16 →
    (wordIx st.pc + n ≤ 15 → (st.retire n opened).pc = st.pc + BitVec.ofNat 64 (4 * n)) ∧
    (wordIx st.pc + n = 16 → linkLast st.link = false →
      (st.retire n opened).pc = lineVa st.pc + dw (64 * linkNext st.link) + 4) ∧
    (wordIx st.pc + n = 16 → linkLast st.link = true → (st.retire n opened).pc = lineVa st.pc + 64)

/-- 06 R172 to R182: on every sequencer, C as a bundle of its own, NOP completes; HALT halts, where C and K have no deferred fault
to raise and no plan of the broadcast core is open; FENCE takes the cache actions of its scope; TKPOST adds tokens that fit, TKWAIT
removes tokens that are there; PBT loads a target; outside a delay BRX opens one, and BRXD counts its register and opens one. The
model's own readings in it: log entry 3. -/
def Obligations.SharedInstructionsComplete : Prop :=
  ∀ (s : State) (q : SeqId) (h : Hd), s.IssuesShared q h →
    let u := s.started q h.tk
    exec (.nop h) s = .next (s.shared q h.tk 1 false none u) ∧
    ((q = .c → s.cx.deferred = [] ∧ s.unplanned) → (q = .k → s.cx.copy.faults = [] ∧ s.cx.tileFaults = []) →
      exec (.halt h) s = .next (s.shared q h.tk 1 true none u)) ∧
    (∀ (c : BitVec 3) (o : BitVec 2),
      let v := if o = 1 ∨ (q = .c ∧ s.cx.onBcast = false) then u else u.released c.toNat
      let w := v.acquired c.toNat
      exec (.fence h c o) s =
        .next (s.shared q h.tk 1 false none { w with cx := w.cx.updSeq q (fun st => { st with fetched := [] }) })) ∧
    (∀ (f : BitVec 2) (n : BitVec 4),
      let p := postQueue q f.toNat
      let posted := u.cx.setTokens p (u.cx.tokens p + n.toNat)
      u.cx.tokens p + n.toNat ≤ 15 → (∀ i, fieldPost q h.tk = some i → posted.tokens i < 15) →
      exec (.tkpost h f n) s = .next (s.shared q h.tk 1 false none { u with cx := posted })) ∧
    (∀ (f : BitVec 2) (n : BitVec 4),
      let p := waitQueue q f.toNat
      n.toNat ≤ u.cx.tokens p →
      exec (.tkwait h f n) s = .next (s.shared q h.tk 1 false none { u with cx := u.cx.setTokens p (u.cx.tokens p - n.toNat) })) ∧
    (∀ (j : BitVec 2) (m : BitVec 1) (b : BitVec 5) (imm : BitVec 32),
      let target := (if m = 0 then (s.cx.seq q).pc else s.cx.rReg q b) + imm.signExtend 64
      exec (.pbt h j m b imm) s =
        .next (s.shared q h.tk 2 false none { u with cx := u.cx.updSeq q (fun st => { st with j := st.j.set j target }) })) ∧
    (∀ (j : BitVec 2) (b : BitVec 5), (s.cx.seq q).pend = none →
      let delay (taken : Bool) : Pend := ⟨(s.cx.seq q).j.get j, taken, if q = .c then 1 else 2⟩
      let v := u.cx.wReg q b (s.cx.rReg q b - 1)
      exec (.brx h j) s = .next (s.shared q h.tk 1 false (some (delay true)) u) ∧
      exec (.brxd h j b) s = .next (s.shared q h.tk 1 false (some (delay (v.rReg q b != 0))) { u with cx := v }))

/-- 02 R46; 01 R21; 08 R233: a word of L, S or K whose predicate reads false takes its token, posts its token and moves on, with
no other effect: HALT does not halt, BRX and BRXD, outside a delay, open none and BRXD does not count (06 R175, R177, R178). So does
a word of C, as a bundle of its own, whose predicate is false or whose lane predicate has no true lane. LDSO of the broadcast core is
no instruction (07 R217). -/
def Obligations.FalsePredicatesOnlyMoveOn : Prop :=
  ∀ (s : State) (i : Instr), s.bun = none → (∀ h j b, i = .brx h j ∨ i = .brxd h j b → (s.cx.seq s.cur).pend = none) →
    (∀ (q : SeqId) (tk qp : BitVec 3), s.cur = q → q ≠ .c → (∀ j, s.cx.openField q tk = some j → 0 < s.cx.tokens j) →
      (∀ j, fieldPost q tk = some j → s.cx.tokens j < 15) → (s.cx.seq q).rq qp = false →
      (∀ h, hqOf i = some h → tk = h.tk → qp = h.qp → i.maps.contains (selOf s.cx q) = true →
        (∀ a st n c l, i = .ldso a st n c l → s.cx.onBcast = false) → exec i s = .next (s.does q tk i.words id)) ∧
      (∀ h, sharedHd i = some h → tk = h.tk → qp = h.qp → exec i s = .next (s.does q tk i.words id))) ∧
    (∀ tk, s.cur = .c → truthOf i s.cx = some (tk, false) → (∀ j, s.cx.openField .c tk = some j → 0 < s.cx.tokens j) →
      (∀ j, fieldPost .c tk = some j → s.cx.tokens j < 15) → exec i s = .next (s.bundled tk i.words [] id))

/-! ## Faults -/

/-- 06 R170; 14 R381, R383: a context that takes a fault stops; ss.cause, the recorded program counters and the frame take the
cause, the trap code, the source, the address, the program counters, the launch, the node and the logical core; the serial
number of the launch goes up by one. The model's own readings in it: log entries 21, 35. -/
def Obligations.TakingAFaultStopsAndRecords : Prop :=
  ∀ (s : State) (t : Trap) (srce instr : Nat),
    let u := s.takeFault t srce instr
    u.cx.status = .stopped ∧ u.cx.cause = BitVec.ofNat 64 (t.tcode.toNat * 2 ^ 16 + t.cause % 2 ^ 10) ∧
    (∀ q, u.cx.fpc.get (BitVec.ofNat 2 (seqNum q)) = (s.cx.seq q).pc) ∧
    (∃ f, u.cx.frameOut = some f ∧ f.cause = t.cause ∧ f.tcode = t.tcode ∧ f.srce = t.srce.getD srce ∧ f.va = t.va ∧
      f.deferred = t.deferred ∧ f.pcs = [s.cx.seqL.pc, s.cx.seqC.pc, s.cx.seqS.pc, s.cx.seqK.pc] ∧ f.launchNo = s.cx.id.launch ∧
      f.node = s.cx.node ∧ f.lcore = s.cx.id.lcore ∧ f.tok = s.cx.giveBack.tok.toList ∧ f.instr = (if t.noInstr then 0 else instr) ∧
      (∀ l, s.launch? s.cx.id.launch = some l → f.serial = l.serial ∧
        u.launch? s.cx.id.launch = some { l with serial := l.serial + 1 })) ∧
    u.mem = s.mem ∧ u.cx.x = s.cx.x ∧ u.cx.y = s.cx.y ∧ u.cx.z = s.cx.z ∧ u.cx.a = s.cx.a ∧ u.cx.v = s.cx.v ∧ u.cx.p = s.cx.p

/-- 06 R197: TRAP and BRK retire, and then fault "software trap" and "breakpoint" with their trap code. -/
def Obligations.TrapAndBreakRetireAndFault : Prop :=
  ∀ (s : State) (h : Hq) (n : BitVec 9), s.Issues .k h.qp h.tk →
    let fault (cause : Nat) : State := (s.does .k h.tk 1 id).takeFault { cause := cause, tcode := n, retires := true } 3
      (instrAt s.cx .k (wordIx s.cx.seqK.pc))
    exec (.trap h n) s = .next (fault 0x030) ∧ exec (.brk h n) s = .next (fault 0x031)

/-- 02 R42 row 4, R59; 06 R180; 14 R440: a sequencer about to execute a word that is no instruction of its map, C also as a later word of
a bundle, takes the illegal instruction fault of L, C, S or K, 0x010 to 0x013, with that word in INSTR. BRX and BRXD in the delay of another transfer fault "delay
slot transfer", whatever their predicate. The model's own readings in it: log entries 35, 45, 49. -/
def Obligations.IllegalWordsAndDelayedTransfersFault : Prop :=
  (∀ (m : SeqSel), FaultsOn m (fun w => ∃ e, decode m w = .error e)) ∧
  (∀ (s : State) (h : Hd) (j : BitVec 2) (b : BitVec 5), s.bun = none → (s.cx.seq s.cur).pend.isSome = true →
    exec (.brx h j) s = .next (s.faultHere { cause := 0x026 }) ∧ exec (.brxd h j b) s = .next (s.faultHere { cause := 0x026 }))

/-! ## The control sequencer -/

/-- 06 R183, R184: every arithmetic instruction of K completes, with the value of its row in its destination and nothing else
changed but the token, and the sequencer moved past the words. A destination x0 keeps reading 0, since `wx` ignores it. Words
with an immediate shift past 63, or with a reserved field set, fault illegal instruction K. -/
def Obligations.ArithmeticOfKWritesItsValue : Prop :=
  (∀ (s : State) (i : Instr) (r : ScalarRow 5 DWord), arithmeticOfK i s.cx = some r → s.Issues .k r.h.qp r.h.tk →
    exec i s = .next (s.does .k r.h.tk r.words (fun t => { t with cx := t.cx.wx r.dest r.value }))) ∧
  (∀ (c : Ctx) (d : BitVec 5) (v : DWord), (c.wx d v).rx d = if d = 0 then 0 else v) ∧ FaultsOn .k illegalArithmeticOfK

/-- 06 R185, R186: CMP, CMPI, QAND, QOR and QNOT complete, and write q[qd] with the truth of their condition; a write to q0 is
ignored. Words whose fields R185 and R186 do not assign fault illegal instruction K. -/
def Obligations.PredicatesOfKAreWritten : Prop :=
  (∀ (s : State) (i : Instr) (r : ScalarRow 3 Prop) (v : Bool), predicateOfK i s.cx = some r → (v = true ↔ r.value) →
    s.Issues .k r.h.qp r.h.tk →
    exec i s = .next (s.does .k r.h.tk r.words (fun t => { t with cx := t.cx.updSeq .k (fun st => st.wq r.dest v) }))) ∧
  (∀ (st : SeqState) (d : BitVec 3) (v : Bool), (st.wq d v).rq d = (d == 0 || v)) ∧ FaultsOn .k illegalPredicateOfK

/-- 07 R204 to R206; 09 R260: every arithmetic instruction of L and S, and their CMP, complete on the registers of their
sequencer; words that R204 and R205 do not assign fault illegal instruction L or S. -/
def Obligations.ArithmeticOfLAndSWritesItsValue : Prop :=
  FaultsOn .l illegalArithmeticOfLS ∧ FaultsOn .s illegalArithmeticOfLS ∧
  ∀ (s : State) (q : SeqId), q = .l ∨ q = .s →
    (∀ (i : Instr) (r : ScalarRow 4 DWord), arithmeticOfLS i (s.cx.rLS q) = some r → s.Issues q r.h.qp r.h.tk →
      exec i s = .next (s.does q r.h.tk r.words (fun t => { t with cx := t.cx.wLS q r.dest r.value }))) ∧
    (∀ (h : Hq) (d : BitVec 3) (a b : BitVec 4) (c : BitVec 3) (v : Bool),
      (v = true ↔ holdsOf c.toNat (s.cx.rLS q a) (s.cx.rLS q b)) → s.Issues q h.qp h.tk →
      exec (.yCmp h d a b c) s = .next (s.does q h.tk 1 (fun t => { t with cx := t.cx.updSeq q (fun st => st.wq d v) })))

/-! ## Scalar memory -/

/-- 04 R105, R106, R110, R112, R121, R131, R134, R137: the checks of a plain access pass, and set A in the leaf; where its
home knows of every copy, or its page is of kind S and the die has given up its lines, what is read is what memory holds, and
what is written is stored, D and the dirty bitmap first. The model's own readings in it: log entries 3, 50. -/
def Obligations.PlainAccessesReadAndWriteMemory : Prop :=
  ∀ (s : State) (pol : Nat) (segs : List Seg) (g : Seg) (k : Acc) (data : List Byte),
    (s.PlainAccess k g.va g.len g.tr → checkAccess s.agent k g.va g.len s = .ok [g] (s.withA g.tr)) ∧
    (s.near .read segs → readSegs s.agent pol segs s = .ok (bytesOf (s.ordered segs).mem segs) (s.ordered segs)) ∧
    (s.near .write [g] → data.length = g.len → 0 < g.len → writeSegs s.agent pol .write [g] data s = .ok () (s.stored g data))

/-- 06 R188, R189, R191: LDX and LDXP write x[xd] with the bytes read, extended by their size, and then acquire. 04 R105, R131, R134: one
that fails a check takes its fault and changes nothing but A of a page that passed. The model's own readings in it: log entries 3, 20. -/
def Obligations.ScalarLoadsComplete : Prop :=
  ∀ (s : State) (i : Instr) (h : Hq) (d a : BitVec 5) (pol : BitVec 2) (so : BitVec 4) (sz : BitVec 3) (imm : BitVec 32)
    (segs : List Seg) (b : List Byte) (s1 s2 : State), i = .ldx h d a pol so sz imm ∨ i = .ldxp h d a pol so sz imm →
    s.Issues .k h.qp h.tk → s.unplanned → s.cx.remote = none →
    ((s.started .k h.tk).Checked .read (kAddr s.cx a imm) (sizeBytes sz) segs s1 → readSegs s.agent pol.toNat segs s1 = .ok b s2 →
      exec i s = .next ((State.acq so { s2 with cx := s2.cx.wx d (extendLoad sz (leNat b)) }).retired .k h.tk 2)) ∧
    (∀ t u, (s.started .k h.tk).AccessFails .read (kAddr s.cx a imm) (sizeBytes sz) t u →
      exec i s = .next ((u.tokensOf s).faultHere t))

/-- 06 R188 to R190: STX releases, and writes the low bytes of x[xd]; STX.tag sets the tag of the granule that holds the
address. 04 R105, R131, R134: one that fails a check takes its fault and writes nothing; STX.tag checks no tag. The model's own readings
in it: log entries 3, 20, 22. -/
def Obligations.ScalarStoresComplete : Prop :=
  ∀ (s s1 s2 : State) (h : Hq) (d a : BitVec 5) (pol : BitVec 2) (so : BitVec 4) (sz : BitVec 3) (imm : BitVec 32) (segs : List Seg)
    (va : DWord) (g : Seg), s.Issues .k h.qp h.tk → s.unplanned →
    (s.cx.remote = none → ((s.started .k h.tk).rel so).Checked .write (kAddr s.cx a imm) (sizeBytes sz) segs s1 →
      writeSegs s.agent pol.toNat .write segs (natBytes (sizeBytes sz) (s.cx.rx d).toNat) s1 = .ok () s2 →
      exec (.stx h d a pol so sz imm) s = .next (s2.retired .k h.tk 2)) ∧
    (∀ t u, s.cx.remote = none → ((s.started .k h.tk).rel so).AccessFails .write (kAddr s.cx a imm) (sizeBytes sz) t u →
      exec (.stx h d a pol so sz imm) s = .next ((u.tokensOf s).faultHere t)) ∧
    (∀ t u, va = kAddr s.cx a imm - BitVec.ofNat 64 ((kAddr s.cx a imm).toNat % 32) →
      ((s.started .k h.tk).rel so).AccessFails .write va 32 t u → t.cause ≠ 0x089 →
      exec (.stxTag h d a so imm) s = .next ((u.tokensOf s).faultHere t)) ∧
    (va = kAddr s.cx a imm - BitVec.ofNat 64 ((kAddr s.cx a imm).toNat % 32) →
      pages s.agent .write va 32 ((s.started .k h.tk).rel so) = .ok [g] s1 → g.tr.spad = false → g.tr.home = s.dev →
      watchCheck s.agent .write va 32 s1 = .ok () s2 →
      exec (.stxTag h d a so imm) s =
        .next (State.retired { s2.ordered [g] with tags := s2.tags.write (g.key .write / 32) ((s.cx.rx d).setWidth 4) } .k h.tk 2))

/-- 06 R188, R192: AMO reads, computes and writes in one step, and x[xd] takes the old value. 04 R105, R112, R131, R134: a misaligned one
faults "atomic alignment", and one that fails a check takes its fault; neither writes anything. The model's own readings in it: log
entries 3, 20. -/
def Obligations.AtomicsComplete : Prop :=
  ∀ (s : State) (h : Hq) (d a : BitVec 5) (so : BitVec 4) (sz : BitVec 3) (op : BitVec 4) (g : Seg) (old : Nat) (s1 s2 : State),
    s.Issues .k h.qp h.tk → s.unplanned → s.cx.remote = none →
    ((s.cx.rx a).toNat % sizeBytes sz ≠ 0 → exec (.amo h d a so sz op) s = .next (s.faultHere { cause := 0x085, va := s.cx.rx a })) ∧
    ((s.cx.rx a).toNat % sizeBytes sz = 0 →
    (∀ t u, ((s.started .k h.tk).rel so).AccessFails .atomic (s.cx.rx a) (sizeBytes sz) t u →
      exec (.amo h d a so sz op) s = .next ((u.tokensOf s).faultHere t)) ∧
    (((s.started .k h.tk).rel so).Checked .atomic (s.cx.rx a) (sizeBytes sz) [g] s1 →
    amoAt s.agent g op.toNat g.len ((s.cx.rx d).toNat % 2 ^ (8 * sizeBytes sz)) ((s.cx.rx (d + 1)).toNat % 2 ^ (8 * sizeBytes sz)) s1
      = .ok old s2 →
    exec (.amo h d a so sz op) s = .next ((State.acq so { s2 with cx := s2.cx.wx d (BitVec.ofNat 64 old) }).retired .k h.tk 2)))

/-- 06 R188, R191; 13 R358, R359: K's access to another device completes with the reply that its home has given. The model's
own readings in it: log entry 17. -/
def Obligations.RemoteAccessesCompleteWithTheirReply : Prop :=
  ∀ (s : State) (h : Hq) (d a : BitVec 5) (pol : BitVec 2) (so : BitVec 4) (sz : BitVec 3) (op : BitVec 4) (imm : BitVec 32)
    (r : Remote) (v : Nat), s.Issues .k h.qp h.tk → s.unplanned → s.cx.remote = some r → r.replied = true →
    r.performed = some (v, none) →
    let answered (t : State) : State := { t with cx := { t.cx with remote := none } }
    let t := answered (s.started .k h.tk)
    let u := answered ((s.started .k h.tk).rel so)
    exec (.ldx h d a pol so sz imm) s = .next ((State.acq so { t with cx := t.cx.wx d (extendLoad sz v) }).retired .k h.tk 2) ∧
    exec (.ldxp h d a pol so sz imm) s = .next ((State.acq so { t with cx := t.cx.wx d (extendLoad sz v) }).retired .k h.tk 2) ∧
    exec (.stx h d a pol so sz imm) s = .next (u.retired .k h.tk 2) ∧
    ((s.cx.rx a).toNat % sizeBytes sz = 0 →
      exec (.amo h d a so sz op) s = .next ((State.acq so { u with cx := u.cx.wx d (BitVec.ofNat 64 v) }).retired .k h.tk 2))

/-- 06 R193, R194: CINV, CWB, PIN and UNPIN complete over a range that passes their checks, and drop, clean, pin and unpin its
lines; a length of 0 does nothing. The model's own readings in it: log entry 3. -/
def Obligations.CacheAndPinControlComplete : Prop :=
  ∀ (s : State) (h : Hq) (a b : BitVec 5) (c : BitVec 1) (ps : List (DWord × Tr)) (s1 : State) (va : DWord) (n : Nat) (ls : List Nat),
    s.Issues .k h.qp h.tk → s.unplanned → va = s.cx.rx a → n = (s.cx.rx b).toNat → ls = rangeLines va n ps →
    (n = 0 → exec (.cinv h a b c) s = .next (s.does .k h.tk 1 id) ∧ exec (.cwb h a b c) s = .next (s.does .k h.tk 1 id) ∧
      exec (.pin h a b) s = .next (s.does .k h.tk 1 id) ∧ exec (.unpin h a b) s = .next (s.does .k h.tk 1 id)) ∧
    (n ≠ 0 → cacheRange false va n (s.started .k h.tk) = .ok ps s1 →
      let mine (e : L2Line) : Bool := e.die == s.cx.core.1 && ls.contains e.line
      exec (.cinv h a b c) s = .next ((if c = 1 then dropLines mine s1 else cleanHeld s.cx.core.1 s.cx.core.2 ls true s1).retired .k h.tk 1) ∧
      exec (.cwb h a b c) s = .next ((if c = 1 then cleanLines mine s1 else cleanHeld s.cx.core.1 s.cx.core.2 ls false s1).retired .k h.tk 1) ∧
      exec (.unpin h a b) s = .next (State.retired { s1 with pins := s1.pins.filter (fun p =>
        !(p.die == s.cx.core.1 && p.launch == s.cx.id.launch && ls.contains p.line)) } .k h.tk 1)) ∧
    (n ≠ 0 → cacheRange true va n (s.started .k h.tk) = .ok ps s1 →
      let here := (rangeLines va n (ps.filter (fun p => !p.2.h))).filter (fun l =>
        l * 64 / 2 ^ 48 == s.dev && homeDie (l * 64 % 2 ^ 48) == s.cx.core.1)
      let old := ((s.pins.filter (fun p => p.die == s.cx.core.1)).map (·.line)).dedup
      old.length + (here.filter (fun l => !old.contains l)).dedup.length ≤ pinLimit →
      let pin (l : Nat) : PinnedLine := ⟨s.cx.core.1, l, s.cx.id.launch⟩
      exec (.pin h a b) s = .next
        (State.retired { s1 with pins := s1.pins ++ (here.filter (fun l => !s1.pins.contains (pin l))).dedup.map pin } .k h.tk 1))

/-! ## System registers, groups, launches -/

/-- 06 R169, R171, R196: MFS of K, L and S and RDPLAN write what the register reads; MTS writes a writable register, is
ignored on a read-only one, and faults 0x013 on a value that may not be written. Words of RDPLAN that R196 does not assign, and
of MFS and MTS that name no register, or one that the sequencer does not read, fault illegal instruction of that sequencer. -/
def Obligations.SystemRegistersAreReadAndWritten : Prop :=
  FaultsOn .k illegalRdplan ∧ FaultsOn .k illegalSystemOfK ∧ (∀ m, m = .l ∨ m = .s → FaultsOn m illegalSystemOfLS) ∧
  (∀ m, m = .c ∨ m = .b → FaultsOn m illegalSystemOfC) ∧ ∀ (s : State) (h : Hq) (d a : BitVec 5) (e : BitVec 4) (n : BitVec 9) (f : BitVec 1),
    (s.Issues .k h.qp h.tk →
      exec (.mfs h d n) s = .next (s.does .k h.tk 1 (fun t => { t with cx := t.cx.wx d (sysRead s n.toNat) })) ∧
      exec (.rdplan h d f) s = .next (s.does .k h.tk 1 (fun t =>
        { t with cx := t.cx.wx d (BitVec.ofNat 64 s.clock - if f = 0 then 0 else s.cx.pbase) })) ∧
      (sysWritable n.toNat = false → exec (.mts h a n) s = .next (s.does .k h.tk 1 id)) ∧
      (sysWritable n.toNat = true → sysWriteOk n.toNat (s.cx.rx a) = false → exec (.mts h a n) s = .next (s.faultHere { cause := 0x013 })) ∧
      (sysWritable n.toNat = true → sysWriteOk n.toNat (s.cx.rx a) = true → exec (.mts h a n) s = .next (s.does .k h.tk 1 (fun t =>
        { t with cx :=
          if n = 0x00E then { t.cx with wdb := s.cx.rx a }
          else if n.toNat < 0x038 then { t.cx with wpa := t.cx.wpa.set (n.setWidth 3) (s.cx.rx a) }
          else { t.cx with wpc := t.cx.wpc.set (n.setWidth 3) (s.cx.rx a) } })))) ∧
    (∀ q, q = .l ∨ q = .s → s.Issues q h.qp h.tk →
      exec (.yMfs h e n) s = .next (s.does q h.tk 1 (fun t => { t with cx := t.cx.wLS q e (sysRead s n.toNat) })))

/-- 06 R198; 05 R150: GARR arrives; GWAIT goes on once its phase is complete; GSYNC of the last member arrives and goes on, as
does one whose arrival's phase has completed. -/
def Obligations.GroupsComplete : Prop :=
  ∀ (s : State) (h : Hq) (d a : BitVec 5) (c : BitVec 1) (g : BitVec 8) (l : Launch), s.Issues .k h.qp h.tk → s.unplanned →
    s.launch? s.cx.id.launch = some l → l.member g.toNat s.cx.id.lcore = true →
    let b := l.barrier g.toNat
    let arrive (t : State) : State := (t.released (groupScope c)).updLaunch l.num (fun l => l.arrive g.toNat s.cx.id.lcore)
    (b.arrived.contains s.cx.id.lcore = false → exec (.garr h d c g) s = .next (s.does .k h.tk 1 (fun t =>
      { arrive t with cx := (arrive t).cx.wx d (b.phase.setWidth 64) }))) ∧
    (phaseDone b.phase ((s.cx.rx a).setWidth 32) = true →
      exec (.gwait h a c g) s = .next (s.does .k h.tk 1 (fun t => t.acquired (groupScope c)))) ∧
    (s.cx.arrived = none → b.arrived.contains s.cx.id.lcore = false →
      allArrived ((look l.groups g.toNat).getD 0) (b.arrived ++ [s.cx.id.lcore]) = true →
      exec (.gsync h d c g) s = .next (s.does .k h.tk 1 (fun t =>
        let u := State.acquired (groupScope c) { arrive t with cx := { (arrive t).cx with arrived := none } }
        { u with cx := u.cx.wx d (b.phase.setWidth 64) }))) ∧
    (∀ n, s.cx.arrived = some (g.toNat, n) → phaseDone b.phase n = true → exec (.gsync h d c g) s = .next (s.does .k h.tk 1 (fun t =>
        let u := State.acquired (groupScope c) { t with cx := { t.cx with arrived := none } }
        { u with cx := u.cx.wx d (n.setWidth 64) })))

/-- 05 R142, R164, R165: LAUNCH of a packet that passes every row answers the launch's number; SPAWN releases the successors
of the running node once. The model's own readings in it: log entries 36, 51. -/
def Obligations.LaunchAndSpawnComplete : Prop :=
  ∀ (s : State) (h : Hq) (d a : BitVec 5), s.Issues .k h.qp h.tk → s.unplanned →
    (∀ b s1 l s2, s.launches.length < 256 → s.cx.id.launch ≠ s.nextLaunch → (s.cx.rx a).toNat % 128 = 0 →
      readMem (machineAgent s.cx.id.launch s.cx.asid.toNat) 0 (s.cx.rx a) 128 ((s.started .k h.tk).released 3) = .ok b s1 →
      checkPacket (leNat b) (some s.cx.asid.toNat) s1 = .ok l s2 →
      let t := (crecInit l (s2.hold l)).settle l.num
      exec (.launch h d a) s = .next (State.retired { t with cx := t.cx.wx d (BitVec.ofNat 64 s.nextLaunch) } .k h.tk 1)) ∧
    (∀ l n, s.launch? s.cx.id.launch = some l → l.nodes[s.cx.node]? = some n → n.st = .running → s.cx.node ≠ l.handler →
      exec (.spawn h) s = .next (s.does .k h.tk 1 (fun t =>
        if n.spawned ∨ s.cx.id.lcore = Config.handlerLcore then t.released 3
        else ((t.released 3).updLaunch l.num (fun l =>
          { l with nodes := releaseSuccs (modAt l.nodes s.cx.node (fun n => { n with spawned := true })) n.succ })).settle l.num)))

/-! ## The copy engine, tiles, power -/

/-- 12 R343, R345, R347: CPY and CPYC of a command that passes the checks of R348 queue it; CPYWAIT goes on once its commands
have completed. -/
def Obligations.CopyInstructionsComplete : Prop :=
  ∀ (s : State) (h : Hq) (d a b : BitVec 5) (p c st first last : BitVec 1) (sc : BitVec 2) (imm : BitVec 32), s.Issues .k h.qp h.tk →
    s.unplanned → s.cx.copy.faults = [] →
    let q := s.cx.copy
    let n := lenOf (s.cx.rx b)
    let sides := copySides (st == 1) (c == 1) (s.cx.rx d) (s.cx.rx a)
    ((p = 0 ∨ c = 1 ∨ st = 1) → copyFormOk false (st == 1) (c == 1) (s.cx.rx d) (s.cx.rx a) n = true →
      (∀ e ∈ sides, (s.cx.buf (specBuf e.1)).declared = true ∧ specOff e.1 + n ≤ (s.cx.buf (specBuf e.1)).len ∧
        (if e.2 = 1 then (s.cx.buf (specBuf e.1)).cons else (s.cx.buf (specBuf e.1)).prod) = 2) → q.queue.length < 32 →
      exec (.cpy h d a b p c st) s = .next (s.does .k h.tk 1 (fun t => { t with cx := { t.cx with copy := { q with
        iseq := q.iseq + 1
        queue := q.queue ++ [{ ticket := q.iseq + 1, words := encode (.cpy h d a b p c st), chained := false, first := false, last := false
                               scope := 0, expect := 0, sbuf := st == 1, dbuf := c == 1, done := p == 1, dst := s.cx.rx d
                               src := s.cx.rx a, len := n, bound := boundField (s.cx.rx b) }] } } }))) ∧
    ((last = 1 ∨ imm = 0 ∧ sc = 0) → copyFormOk true false false (s.cx.rx d) (s.cx.rx a) n = true → q.isOpen = (first != 1) →
      q.queue.length < 32 →
      exec (.cpyc h d a b first last sc imm) s = .next (s.does .k h.tk 2 (fun t => { t with cx := { t.cx with copy := { q with
        isOpen := last != 1, iseq := q.iseq + 1
        queue := q.queue ++ [{ ticket := q.iseq + 1, words := encode (.cpyc h d a b first last sc imm), chained := true, first := first == 1
                               last := last == 1, scope := sc.toNat, expect := imm, sbuf := false, dbuf := false, done := false
                               dst := s.cx.rx d, src := s.cx.rx a, len := n, bound := boundField (s.cx.rx b) }] } } }))) ∧
    ((q.cseq - s.cx.rx a).toNat < 2 ^ 63 →
      exec (.cpywait h d a) s = .next (s.does .k h.tk 1 (fun t => { t with cx := t.cx.wx d q.cseq }))) ∧
    (q.cseq = q.iseq →
      exec (.cpywaitAll h d) s = .next (s.does .k h.tk 1 (fun t => { t with cx := t.cx.wx d q.cseq })) ∧
      exec (.cpywaitChain h d) s = .next (s.does .k h.tk 1 (fun t => { t with cx := t.cx.wx d (q.chain.setWidth 64) })))

/-- 13 R371, R372: CTREADY arms and fires an entry; CTWAIT of a DONE one answers SIG, and CTWAIT.test whether it is DONE or
FAILED. The model's own readings in it: log entry 30. -/
def Obligations.TileInstructionsComplete : Prop :=
  ∀ (s : State) (h : Hq) (d a b : BitVec 5), s.Issues .k h.qp h.tk → s.unplanned → s.cx.tileFaults = [] →
    ((s.cx.rx b).toNat < 4096 →
      let i := (s.cx.rx b).toNat
      (∀ ds ring t, (s.started .k h.tk).Arms (s.cx.rx a) i false ds ring t →
        exec (.ctreadyArm h a b) s = .next
          ((takeFlag i none { t with table := putTile t.table (armedTile s.cx i ds ring) }).retired .k h.tk 1)) ∧
      (∀ ds ring t, (s.started .k h.tk).Arms (s.cx.rx a) i true ds ring t →
        let u := takeFlag i (some s.cx.id) { t with table := putTile t.table (armedTile s.cx i ds ring) }
        exec (.ctreadyGo h a b) s = .next
          ((if (u.tile? i).any (fun e => e.st == .armed) then fireTile i (some s.cx.id) u else u).retired .k h.tk 1)) ∧
      (∀ e, s.tile? i = some e → e.launch = s.cx.id.launch → e.st = .armed →
        exec (.ctreadyFire h b) s = .next (s.does .k h.tk 1 (fun t => fireTile i (some s.cx.id) (t.released 3))))) ∧
    (∀ e, (s.cx.rx a).toNat < 4096 → s.tile? (s.cx.rx a).toNat = some e → e.launch = s.cx.id.launch →
      (e.st = .done → exec (.ctwait h d a) s = .next (s.does .k h.tk 1 (fun t =>
        { t.acquired 3 with cx := (t.acquired 3).cx.wx d e.sig }))) ∧
      exec (.ctwaitTest h d a) s = .next (s.does .k h.tk 1 (fun t =>
        { t with cx := t.cx.wx d (if e.st = .done ∨ e.st = .failed then 1 else 0) })))

/-- 16 R428, R429: BOOST records its claim, 2.0, 2.2 or 2.4 GHz, and answers ss.permits; the broadcast core records none. -/
def Obligations.BoostRecordsItsClaim : Prop :=
  ∀ (s : State) (h : Hq) (d : BitVec 5), s.Issues .k h.qp h.tk → s.unplanned →
    let claims (n : Nat) : State := s.does .k h.tk 1 (fun t =>
      { t with cx := ({ t.cx with claim := if s.cx.onBcast then s.cx.claim else n } : Ctx).wx d (s.permitsOf s.cx) })
    exec (.boostRel h d) s = .next (claims 20) ∧ exec (.boostMid h d) s = .next (claims 22) ∧ exec (.boostMax h d) s = .next (claims 24)

/-! ## Freezing and resuming -/

/-- 15 R400 to R402, R404, R418: FREEZE.mark of a running launch clears its bitmap; FREEZE of one at rest, or frozen, answers the
size of its image, with a release at .sys, and writes the image where an address is given; FREEZE.drop ends the launch with its
handler; FREEZE.cont lets it run again. R413 to R415: THAW of an image that passes every row answers the number that the launch takes, which is the
next; the launch runs, its deadline moved to the plan clock plus DLREM. The model's own readings in it: log entry 32. -/
def Obligations.FreezeAndThawComplete : Prop :=
  ∀ (s : State) (h : Hq) (d a b : BitVec 5), s.Issues .k h.qp h.tk → s.unplanned → s.cx.id.lcore = Config.handlerLcore →
   let u := s.started .k h.tk
   (∀ n t, s.launches.length < 256 → (s.cx.rx a).toNat % 256 = 0 → (s.cx.rx b).toNat < 128 →
      thawM (s.cx.rx a) (s.cx.rx b).toNat s.cx.asid.toNat (u.released 3) = .ok n t → u.Stands .k t →
      exec (.thaw h d a b) s = .next (State.retired { t with cx := t.cx.wx d (BitVec.ofNat 64 n) } .k h.tk 1) ∧
      ∀ head u1 img u2, readImage s.cx.asid.toNat (s.cx.rx a) 256 (u.released 3) = .ok head u1 →
        readImage s.cx.asid.toNat (s.cx.rx a) (max 256 (imgTotal head)) u1 = .ok img u2 → s.freshNumber → s.Restores img n t) ∧
   ∀ l, (s.cx.rx a).toNat = s.cx.id.launch → s.launch? s.cx.id.launch = some l →
    (l.run = .running → exec (.freezeMark h a) s = .next (s.does .k h.tk 1 (fun t => clearBitmap l t))) ∧
    ((l.run = .freezing → l.freezer = none) →
      ((u.restBegun l |>.nowOf l).run = .freezing → (u.restBegun l).atRest (u.restBegun l |>.nowOf l) = true) →
      let t := u.frozenBy l
      let img := t.image (t.nowOf l)
      let answer (v : State) : State := State.retired { v with cx := v.cx.wx d (BitVec.ofNat 64 img.1) } .k h.tk 1
      (s.cx.rx b = 0 → exec (.freeze h d a b) s = .next (answer (t.released 4))) ∧
      (∀ v, s.cx.rx b ≠ 0 → (s.cx.rx b).toNat % 256 = 0 → (s.cx.rx b).toNat < 2 ^ 60 →
        writeImage s.cx.asid.toNat (some s.cx.core) (s.cx.rx b) img.1 img.2 t = .ok () v →
        exec (.freeze h d a b) s = .next (answer (State.released 4 (clearBitmap (t.nowOf l) v))))) ∧
    (l.run = .frozen → exec (.freezeDrop h a) s = .next (u.forget l.num)) ∧
    (l.run = .frozen → s.tilesFit l = true → u.Stands .k (u.continued l) →
      exec (.freezeCont h a) s = .next ((u.continued l).retired .k h.tk 1))

/-- 14 R388, R389: RESUME of the frame that the handler holds lets its context run from the frame's program counters, its plan
restored (11 R330) and its operands read again (05 R147); RESUME.term ends the launch with STATUS 3 and the frame's cause. -/
def Obligations.ResumeCompletes : Prop :=
  ∀ (s s1 : State) (h : Hq) (a : BitVec 5) (l : Launch) (held : Frame) (f : Nat), s.Issues .k h.qp h.tk →
    heldFrame a (s.started .k h.tk) = .ok (l, held, f) s1 →
    let c : CtxId := ⟨l.num, held.lcore⟩
    let u := ((s1.released 3).updLaunch l.num (fun l => { l with held := none })).updCtx c (fun x =>
      let x := allSeqs.foldl (fun x q => x.updSeq q (fun st => resumeSeq st (heldPc held q) (framePc f q))) x
      if framePc f .k = heldPc held .k then x else { x with arrived := none, remote := none })
    let v := if held.lcore = Config.bcastLcore ∧ framePc f .c ≠ heldPc held .c then u.leavePlanb l.num else u
    let w := resumeFrame c held v
    (pcsOk f held = true → (s.started .k h.tk).Stands .k w → exec (.resume h a) s = .next (w.retired .k h.tk 1)) ∧
    exec (.resumeTerm h a) s = .next ((s1.released 3).endLaunch l.num 3 (bits f 9 0))

/-! ## Streams and buffers -/

/-- 07 R211, R212; 09 R261: SSET writes a field, and one other than POS unbinds; SBIND of a register that meets the rows binds
it at POS 0. The model's own readings in it: log entry 52. -/
def Obligations.StreamRegistersAreSetAndBound : Prop :=
  ∀ (s : State) (q : SeqId) (h : Hq) (st n : BitVec 4) (f : BitVec 5) (b : BitVec 6) (epi bk : BitVec 1) (imm : BitVec 32),
    q = .l ∨ q = .s → s.Issues q h.qp h.tk → s.cx.streamBusy st = false →
    let t := s.cx.stream st
    let v := s.cx.rLS q n + imm.signExtend 64
    let put (t' : Stream) : State := s.does q h.tk 2 (fun u => { u with cx := u.cx.setStream st t' })
    (f ≠ 12 → exec (.sset h st n f imm) s = .next (put { t.setField f.toNat v with bind := none, pages := [] })) ∧
    ((t.bind = none ∨ v.toNat ≤ t.total) → exec (.sset h st n 12 imm) s = .next (put (t.setField 12 v))) ∧
    ((bk = 1 → (s.cx.buf b).declared = true) → bindCause t (q == .s) (bk == 1) (epi == 1) (s.cx.buf b).len = none →
      exec (.sbind h b st epi bk imm) s = .next (put { t.setField 12 0 with
        bind := some ⟨q == .s, bk == 1, b, epi == 1⟩, bound := imm, pages := [] }))

/-- 01 R27; 07 R220 to R222: BDECL declares a buffer; BWAIT goes on in the state it names; BSTATE answers the record, completes
a side, and frees. -/
def Obligations.BufferInstructionsComplete : Prop :=
  ∀ (s : State) (q : SeqId) (h : Hq) (b : BitVec 6) (n : BitVec 4) (st cons prod : BitVec 2) (len off : BitVec 16), s.Issues q h.qp h.tk →
    let bf := s.cx.buf b
    let put (b' : Buffer) : State := s.does q h.tk 1 (fun u => { u with cx := u.cx.setBuf b b' })
    (q = .l → s.unplanned → (bf.declared = true → bf.st = 0) → off.toNat + (len.toNat + 1) ≤ 65536 →
      (∀ i, i ≠ b → (s.cx.buf i).declared = true → off.toNat + (len.toNat + 1) ≤ (s.cx.buf i).off64 ∨
        (s.cx.buf i).off64 + (s.cx.buf i).len64 ≤ off.toNat) →
      let new : Buffer := { declared := true, prod := prod, cons := cons, st := 0, off64 := off.toNat, len64 := len.toNat + 1, fp := 0 }
      exec (.bdecl h b cons prod len off) s = .next (s.does .l h.tk 2 (fun u => { u with cx := u.cx.setBuf b new }))) ∧
    (q = .l ∨ q = .s →
      exec (.bstateRead h b n) s = .next (s.does q h.tk 1 (fun u => { u with cx := u.cx.wLS q n bf.record })) ∧
      (bf.declared = true → bf.st = st ∨ (s.cx.seq q).met = true → exec (.bwait h b st) s = .next (s.does q h.tk 1 id)) ∧
      (s.unplanned → bf.declared = true →
        (bf.legal (agentNum q) 2 = true → exec (.bstatePdone h b) s = .next (put { bf with st := 2 })) ∧
        (bf.legal (agentNum q) 3 = true → exec (.bstateCdone h b) s = .next (put { bf with st := 0 })) ∧
        (bf.st = 0 → exec (.bstateFree h b) s = .next (put {}))))

/-- 07 R213 to R216: LDS and LDG give lq n the image of the elements read; LDS advances POS, LDG takes the head of iq; LAST
completes the bound buffer. The model's own readings in it: log entries 3, 17, 25. -/
def Obligations.ImageLoadsComplete : Prop :=
  ∀ (s s1 s2 : State) (h : Hq) (st n : BitVec 4) (l : BitVec 1) (t : Stream) (b : Binding) (xs : List Element), s.Issues .l h.qp h.tk →
    s.Bound st false t b → s.sideOpen b → (s1.cx.lqAt n.toNat).length < 2 →
    (let cnt := min t.perImage (t.total - t.pos)
     t.fmt ≤ 7 ∨ t.fmt ≤ 9 ∧ t.raw = false → t.pos < t.total →
      readElems s.agent 0 st t b (t.run t.pos cnt) (s.started .l h.tk) = .ok xs s1 →
      lastRead l b ((s1.gives n (elemImage s.cx t xs)).atPos st (t.pos + cnt)) = .ok () s2 →
      exec (.lds h st n l) s = .next (s2.retired .l h.tk 1)) ∧
    (∀ ix rest, t.fmt ≤ 7 → t.raw = false → s.cx.iq = ix :: rest → (∀ c, c < 64 → indexAt ix c < t.n1) →
      let run := gatherRun t ix
      readElems s.agent 0 st t b (run.map (·.2)) (s.started .l h.tk) = .ok xs s1 →
      let lanes := List.zip (run.map (·.1)) (xs.map (widen s.cx t))
      let u := s1.gives n (imageOf ((List.range 1024).map (fun j => (look lanes j).getD 0)))
      lastRead l b { u with cx := { u.cx with iq := rest } } = .ok () s2 → exec (.ldg h st n l) s = .next (s2.retired .l h.tk 1))

/-- 07 R217 to R219, R226: LDSO stages the tile of a slice in a free slot, read or found in the tile cache; LDTF empties the cache;
PREF changes nothing. The model's own readings in it: log entries 3, 52. -/
def Obligations.WeightLoadsComplete : Prop :=
  ∀ (s s2 : State) (h : Hq) (st n : BitVec 4) (c l : BitVec 1) (t : Stream) (b : Binding), s.Issues .l h.qp h.tk →
    (s.Bound st false t b → s.cx.onBcast = false →
      (t.fmt = 6 ∨ t.fmt = 7 ∨ (t.fmt = 8 ∨ t.fmt = 9) ∧ t.raw = false) → t.n0 ≤ 1024 → t.n1 ≤ 8 → t.pos < t.total →
      t.pos % (t.n0 * t.n1) = 0 → s.cx.slot (n.setWidth 2) = none →
      let z := t.n0 * t.n1
      let found := s.tiles.find? (fun e => e.core == s.cx.core && e.key == tileKey s.cx t b)
      let u := s.started .l h.tk
      (∀ e, c = 1 → found = some e →
        lastRead l b (({ u with tiles := useTile e u.tiles }).withSlot (n.setWidth 2) e.tile |>.atPos st (t.pos + z)) = .ok () s2 →
        exec (.ldso h st n c l) s = .next (s2.retired .l h.tk 1)) ∧
      (∀ xs s1, c = 0 ∨ found = none → s.sideOpen b → readElems s.agent 0 st t b (t.run t.pos z) u = .ok xs s1 →
        let tile := buildTile s.cx t xs
        let v := if c = 1 then { s1 with tiles := useTile ⟨s.cx.core, tileKey s.cx t b, tile⟩ s1.tiles } else s1
        lastRead l b ((v.withSlot (n.setWidth 2) tile).atPos st (t.pos + z)) = .ok () s2 →
        exec (.ldso h st n c l) s = .next (s2.retired .l h.tk 1))) ∧
    exec (.ldtf h) s = .next (s.does .l h.tk 1 (fun u => { u with tiles := u.tiles.filter (fun e => e.core != s.cx.core) })) ∧
    (s.Bound st false t b → exec (.pref h st n) s = .next (s.does .l h.tk 1 id))

/-- 07 R223 to R225: LDB stores y[n] elements of a stream at FP of a buffer; LDZ runs until y[n] is 0, and each of its chunks
stores its output there. The model's own readings in it: log entry 3. -/
def Obligations.BufferLoadsComplete : Prop :=
  ∀ (s s1 s2 s3 : State) (h : Hq) (b : BitVec 6) (st n : BitVec 4) (l : BitVec 1) (t : Stream) (bd : Binding),
    (s.Issues .l h.qp h.tk → s.unplanned → s.Bound st false t bd →
      let cnt := (s.cx.ry n).toNat
      let bf := s.cx.buf b
      let last (u v : State) : Prop := (if l = 1 then bufAccess s.cx.id b 0 2 else pure ()) u = .ok () v
      cnt * t.width % 8 = 0 → (t.fmt = 8 → cnt % 256 = 0 ∧ t.pos % 256 = 0) → (t.fmt = 9 → cnt % 64 = 0 ∧ t.pos % 64 = 0) →
      t.pos < t.total → cnt ≤ t.total - t.pos → bf.declared = true →
      (cnt = 0 → bf.prod = 0 → s.sideOpen bd → last ((s.started .l h.tk).atPos st t.pos) s2 →
        exec (.ldb h b st n l) s = .next (s2.retired .l h.tk 1)) ∧
      (∀ data, cnt ≠ 0 → bf.legal 0 0 = true → bf.writeFp + cnt * t.width / 8 ≤ bf.len → s.sideOpen bd →
        storedBytes s.agent st t bd cnt (s.started .l h.tk) = .ok data s1 → fillBuffer b data s1 = .ok () s2 →
        last (s2.atPos st (t.pos + cnt)) s3 → exec (.ldb h b st n l) s = .next (s3.retired .l h.tk 1))) ∧
    (s.Issues .l h.qp h.tk → (if chunksDone s = 0 then ldzStart b st n else pure ()) (s.started .l h.tk) = .ok () s1 →
      ldzLoop b st n ((s.cx.ry n).toNat / 4) (chunksDone s) s1 = .ok () s2 →
      (∀ i, fieldPost .l h.tk = some i → s2.cx.tokens i < 15) → (if l = 1 then lastChunk b st else pure ()) s2 = .ok () s3 →
      exec (.ldz h b st n l) s = .next (s3.retired .l h.tk 1)) ∧
    (∀ f out inLen sum, s.unplanned → s.Bound st false t bd → t.pos < t.total → s.sideOpen bd →
      decodeChunk s.agent st t bd f t.pos s = .ok (out, inLen, sum) s1 → out.length ≤ (s.cx.ry n).toNat → fillBuffer b out s1 = .ok () s2 →
      let u := s2.atPos st (min t.total ((t.pos + 16 + inLen + 15) / 16 * 16))
      let v := beginFlight st none { u with cx := u.cx.wy n (u.cx.ry n - BitVec.ofNat 64 out.length) }
      ldzDeliver b st n f s = .ok () { v with cx := v.cx.updSeq v.cur (·.delivered f) })

/-- 09 R262 to R268: STS, QST and STB write their elements, advance POS, and complete the buffer at LAST. The model's own
readings in it: log entries 3, 17, 25, 52. -/
def Obligations.StreamStoresComplete : Prop :=
  ∀ (s s2 s3 : State) (h : Hq) (st n : BitVec 4) (b : BitVec 6) (o : BitVec 3) (l : BitVec 1) (t : Stream) (bd : Binding) (img : Image)
    (items : List Item) (ws : List (Item × List Seg)), s.Issues .s h.qp h.tk → s.unplanned → s.Storing st t bd →
    let u := s.started .s h.tk
    (∀ cnt, cnt = min t.perImage (t.total - t.pos) → t.fmt ≠ 8 → t.fmt ≠ 10 → (s.cx.sqAt n.toNat).head? = some img →
      items = elemItems t bd (narrowImage t img cnt) ((chunksOf 64 (cnt / 64) (narrowImage t img cnt)).map ni8Group) →
      u.Writes st t bd items (l == 1) ws ws ws s2 →
      exec (.sts h st n l) s = .next (((s2.sqTaken n).atPos st (t.pos + cnt)).retired .s h.tk 1)) ∧
    (∀ cnt qs, cnt = min 1024 (t.total - t.pos) → t.fmt = 8 → (s.cx.sqAt n.toNat).head? = some img →
      quantiseBlocks t.taben (quantTable s t) (cnt / 256) 0 (lanesOf img) u = .ok qs u → items = t.byLane (blockItems t bd qs) →
      u.Writes st t bd items (l == 1) ws (headersLast ws) (ws.filter (fun p => !p.1.isHeader)) s2 →
      let v := State.sqTaken { s2 with cx := s2.cx.updSeq .s (fun q => q.wq o (qs.any (·.ovf))) } n
      exec (.qst h st n o l) s = .next ((v.atPos st (t.pos + cnt)).retired .s h.tk 1)) ∧
    (∀ u1, t.fmt ≠ 8 → bufAccess s.cx.id b 1 1 u = .ok () u1 →
      let bf := s.cx.buf b
      let data := s.cx.spad.readN bf.base bf.fp
      let cnt := bf.fp * 8 / t.width
      bf.fp * 8 % t.width = 0 → (t.fmt = 9 → bf.fp % 64 = 0) → cnt ≤ t.total - t.pos →
      items = elemItems t bd (unpackBits t.width cnt (leNat data)) (chunksOf 64 (bf.fp / 64) data) →
      u1.Writes st t bd items false ws ws ws s2 →
      let v := s2.atPos st (t.pos + cnt)
      (if l = 1 then bufAccess s.cx.id b 1 3 else pure ()) { v with cx := v.cx.wz n (BitVec.ofNat 64 cnt) } = .ok () s3 →
      exec (.stb h b st n l) s = .next (s3.retired .s h.tk 1))

/-- 09 R271, R272: ATOMV makes one atomic for each lane of the head of sq n, in order; AMOS one on two registers. The model's
own readings in it: log entries 3, 17, 25. -/
def Obligations.StoreAtomicsComplete : Prop :=
  ∀ (s s1 s2 s3 : State) (h : Hq) (c st n d a b : BitVec 4) (f : BitVec 5) (z : BitVec 1) (so op : BitVec 4), s.Issues .s h.qp h.tk →
    s.unplanned →
    (∀ t bd img items ws cnt, s.Storing st t bd → t.raw = false → t.shd = false → cnt = min 1024 (t.total - t.pos) →
      (if f = 0 then t.fmt = 3 ∨ t.fmt = 0 else if f = 10 then t.fmt = 0 else t.fmt = 3) → (s.cx.sqAt n.toNat).head? = some img →
      items = t.byLane (elemItems t bd ((lanesOf img).take cnt) []) → itemsCheck s.agent 1 st t bd .atomic items (s.started .s h.tk) = .ok ws s2 →
      (do eachM (List.zip ws ((lanesOf img).take cnt)) (fun p => atomItem s.agent bd f.toNat p.2 p.1); closeBuffers s.agent ws : M Unit)
        (s2.rel c) = .ok () s3 →
      exec (.atomv h c st n f) s = .next ((((s3.acq c).sqTaken n).atPos st (t.pos + cnt)).retired .s h.tk 1)) ∧
    (∀ g old, let m := if z = 1 then 4 else 8
      (s.cx.rz a).toNat % m = 0 → checkAccess s.agent .atomic (s.cx.rz a) m (s.started .s h.tk) = .ok [g] s1 → g.tr.spad = false →
      g.tr.home = s.dev ∨ s.cx.seqS.acked = true →
      amoAt s.agent g op.toNat m ((s.cx.rz d).toNat % 2 ^ (8 * m)) ((s.cx.rz b).toNat % 2 ^ (8 * m)) (s1.rel so) = .ok old s2 →
      exec (.amos h d a b z so op) s =
        .next ((State.acq so { s2 with cx := s2.cx.wz d (BitVec.ofNat 64 old) }).retired .s h.tk 2))

/-- 09 R273 to R276; 04 R127 to R129: SHOPEN opens the pages of a range, PUBLISH releases and publishes them, after what LDZs that
have begun to deliver are to read of them; BDRAIN goes on once no output of the bank is to come on its stream. The model's own readings
in it: log entry 3. -/
def Obligations.ShadowInstructionsComplete : Prop :=
  ∀ (s : State) (h : Hq) (a b st : BitVec 4) (c : BitVec 3) (ps : List (DWord × Tr)), s.Issues .s h.qp h.tk →
    (s.unplanned → s.cx.rz b = 0 → exec (.shopen h a b) s = .next (s.does .s h.tk 1 id) ∧
      exec (.publish h a b c) s = .next (s.does .s h.tk 1 id)) ∧
    (s.unplanned → s.cx.rz b ≠ 0 → shadowRange (s.cx.rz a) (s.cx.rz b).toNat (s.started .s h.tk) = .ok ps (s.started .s h.tk) →
      exec (.shopen h a b) s = .next (s.does .s h.tk 1 (fun u => ps.foldl (fun u p =>
        losePage p.2.entry { u with mem := setShadowState u.mem p.2.entry 1 false }) u)) ∧
      (let u := (s.started .s h.tk).finishChunks
       (s.started .s h.tk).Stands .s u →
         exec (.publish h a b c) s =
           .next ((ps.foldl (fun u p => publishPage p.2.entry u) (u.released c.toNat)).retired .s h.tk 1))) ∧
    (∀ t bd, s.Bound st true t bd → drainPending s.cx st (drainUpTo s) = false → exec (.bdrain h st) s = .next (s.does .s h.tk 1 id))

/-! ## The compute sequencer -/

/-- 08 R238: the arithmetic, logic and shifts of the vector family, as a bundle of their own, write the true lanes of v[vd]. Words
with a type that the instruction does not accept fault illegal instruction C. -/
def Obligations.VectorArithmeticWritesTrueLanes : Prop :=
  FaultsOn .c illegalVectorArithmetic ∧ FaultsOn .b illegalVectorArithmetic ∧
  ∀ (s : State) (i : Instr) (r : BundleRow), vectorArithmetic i s.cx = some r ∨ vectorLogic i s.cx = some r →
    s.IssuesC r.truth r.tk r.srcs → exec i s = .next (s.bundled r.tk r.words r.srcs r.effect)

/-- 08 R239 to R243: moves, conversions, VCMP, VSEL, rotations and broadcasts along an axis, reductions and prefixes complete
as bundles of their own and write what their rules give. Words that these rules do not assign fault illegal instruction C. -/
def Obligations.VectorMovesAndReductionsComplete : Prop :=
  FaultsOn .c illegalVectorMove ∧ FaultsOn .b illegalVectorMove ∧
  ∀ (s : State) (i : Instr) (r : BundleRow), vectorMove i s.cx = some r ∨ vectorAxis i s.cx = some r → s.IssuesC r.truth r.tk r.srcs →
    exec i s = .next (s.bundled r.tk r.words r.srcs r.effect)

/-- 08 R235, R245 to R252: a special function leaves its write pending; QPUSH gives an image to a queue that has room; the
instructions of predicate registers, transpose tiles and address registers write what their rules give, AMODSET with a
modifier that R252 accepts. The model's own readings in it: log entries 16, 42. -/
def Obligations.PredicatesTilesAndAddressesComplete : Prop :=
  ∀ (s : State) (i : Instr) (r : BundleRow),
    vectorQueued i s.cx = some r ∨ lanePredicates i s.cx = some r ∨ tilesAndAddresses i s.cx = some r →
    s.IssuesC r.truth r.tk r.srcs → exec i s = .next (s.bundled r.tk r.words r.srcs r.effect)

/-- 10 R299, R308, R312, R313: WCFG, WSTAT, WACC and LVTSET of a compute core complete as bundles of their own, and write and
read the settings, the status queue, the accumulators and the tables. The model's own readings in it: log entries 47, 52. -/
def Obligations.BankRegistersComplete : Prop :=
  ∀ (s : State) (i : Instr) (r : BundleRow), bankRegisters i s.cx = some r → s.IssuesC r.truth r.tk r.srcs →
    exec i s = .next (s.bundled r.tk r.words r.srcs r.effect)

/-- 10 R300 to R302, R312; 06 R171: WIN that meets the rows of R301 is accepted; WACC.epi puts its accumulator into the
epilogue queue; MFS of C writes what the register reads. The model's own readings in it: log entries 28, 47, 55. -/
def Obligations.WindowsAndEpiloguesAreAccepted : Prop :=
  (∀ (s : State) (h : Hd) (ws : BitVec 2) (c ak : BitVec 4) (sh e : BitVec 2) (first last rel : BitVec 1) (b0 : BitVec 20),
    s.IssuesC (fun c => c.seqC.rq h.qp) h.tk [] → s.cx.onBcast = false → s.cx.deferred = [] →
    (s.cx.wins.filter (fun w => !w.flags.abort)).length < windowLimit → (s.cx.ra ak).toNat < 1024 →
    (last = 1 → epiStreams (s.cx.wep.get e) s = .ok () s) → s.cx.pbase ≠ 0 →
    let span := shapeSpan (s.cx.wsh.get sh)
    let b := s.cx.pbase.toNat + b0.toNat
    pastPlan b0.toNat span = false → s.clock + s.lead ≤ b → touchesCalibration b span = false →
    (∀ w ∈ s.windowsOn s.cx.core, meets b span w.stamp (shapeSpan w.shape) = false) →
    let w : Window := { serial := s.cx.nextWin, addr := s.cx.seqC.pc, base := s.cx.pbase.toNat, b0 := b0.toNat, ws := ws, acc := c,
                        kofs := (s.cx.ra ak).toNat, shape := s.cx.wsh.get sh, epi := s.cx.wep.get e, pol := s.cx.wpol
                        first := first == 1, last := last == 1, rel := rel == 1 }
    exec (.win h ws c ak sh e first last rel b0) s =
      .next (s.bundled h.tk 2 [] (fun c => { c with wins := c.wins ++ [w], nextWin := c.nextWin + 1 }))) ∧
  (∀ (s : State) (h : Hd) (c : BitVec 4) (e : BitVec 2), s.IssuesC (fun c => c.seqC.rq h.qp) h.tk [] → s.cx.onBcast = false →
    s.cx.deferred = [] → s.cx.accFree c = true → epiStreams (s.cx.wep.get e) s = .ok () s → s.cx.epi.length < 4 →
    let tile : EpiTile := { win := none, entry := s.cx.nextTile, step := s.clock, addr := s.cx.seqC.pc, b0 := 0, acc := c, ws := 0, epi := s.cx.wep.get e
                            bound := polBound s.cx.wpol, x := s.cx.accAt c
                            base := s.cx.pbase.toNat }
    exec (.waccEpi h c e) s = .next (s.bundled h.tk 1 [] (fun x => { x with epi := x.epi ++ [tile], nextTile := x.nextTile + 1 }))) ∧
  (∀ (s : State) (h : Tl) (d : BitVec 4) (n : BitVec 9), s.IssuesC (fun _ => true) h.tk [] →
    exec (.aMfs h d n) s = .next (s.bundled h.tk 1 [] (fun c => c.wa d (sysRead { s with cx := { s.cx with pbase := s.baseBefore } } n.toNat))))

/-! ## The broadcast core -/

/-- 11 R318 to R320: BCAST of a row whose elements pass the checks of R318 is accepted with the levels of its elements. The
model's own readings in it: log entry 38. -/
def Obligations.BroadcastsAreAccepted : Prop :=
  ∀ (s u : State) (h : Hd) (s0 ak : BitVec 4) (nm1 : BitVec 6) (tm1 : BitVec 4) (wp : BitVec 1) (b0 : BitVec 20) (t : Stream) (bd : Binding)
    (rows : List (List Element)), s.IssuesC (fun c => c.seqC.rq h.qp) h.tk [] → s.cx.onBcast = true → s.Bound s0 false t bd →
    let n := nm1.toNat + 1
    let k := n * (tm1.toNat + 1)
    let kofs := (s.cx.ra ak).toNat
    let b : Bcast := { base := s.baseBefore.toNat, b0 := b0.toNat, n := n, t := tm1.toNat + 1, wp := wp == 1, rows := [], ea := []
                       pa := if t.fmt = 9 ∧ 4 < t.prec then t.prec else 0 }
    s.bcastRoom s.cx = true → s.planOpen s.cx.id.launch = true →
    s.baseBefore ≠ 0 → pastPlan b0.toNat b.span = false → 6 ≤ t.fmt ∧ t.fmt ≤ 9 → t.raw = false → t.n1 ≤ 32 →
    (∀ row ∈ bcastRun t kofs k, ∀ p ∈ row, elemOwn s t bd.bk p.2 = true) → kofs + k ≤ t.n0 → t.pos + t.n1 * t.n0 ≤ t.total →
    s.sideOpen bd → collectM (bcastRun t kofs k) (fun row => readElems s.agent 0 s0 t bd row) (s.opened h.tk 2) = .ok rows u →
    (t.fmt = 8 → rows.any straddles = false) → s.clock + s.bcastLead ≤ b.stamp → touchesCalibration b.stamp b.span = false →
    (∀ l ∈ s.light, l.occupies b.stamp b.span = false) →
    let ea := rows.map (fun row => match row with | x :: _ => blockEw t x | [] => 0)
    let lit := { b with rows := rows.map (fun row => row.map (elemLevel s.cx t)), ea := ea ++ List.replicate (32 - ea.length) 0 }
    exec (.bcast h s0 ak nm1 tm1 wp b0) s = .next (s.closed h.tk 2 { u with
      light := u.light ++ [lit], plan := u.plan.map (fun p => { p with lastStep := max p.lastStep (b.stamp + b.span) }) })

/-- 11 R323 to R325, R330, R334: PLANB stops L, S and K, takes the snapshot, forms the participants and their waves, and waits; of a
published plan it answers the base. PLANE of a running plan closes it and waits; of one that is closed it ends it. FIBEX reads the
ports, and sets what is exported on those that have a peer. The model's own readings in it: log entry 26. -/
def Obligations.PlansAndPortsComplete : Prop :=
  ∀ (s : State) (h : Hd) (d : BitVec 4), s.IssuesC (fun c => c.seqC.rq h.qp) h.tk [] → s.cx.onBcast = true →
    let snap : Ctx := { s.cx with seqC := { s.cx.seqC with waited := 0, awaiting := none } }
    let begun (s : State) : State := if s.cx.stoppedForPlan then beginPlan snap s
      else { s with plan := some { launch := s.cx.id.launch, snapshot := snap, waves := [], phase := .stopping } }
    (s.plan = none → exec (.planb h d) s = .next ((begun s).waitAt 0 .plan)) ∧
    (∀ p, s.plan = some p → p.launch ≠ s.cx.id.launch → exec (.planb h d) s = .next (
      if p.phase = .stopping then (begun { s with plan := none }).waitAt 0 .plan
      else if p.phase = .opening then (begun { s with plan := none, snapshots := s.snapshots ++ [p] }).waitAt 0 .plan
      else s.waitAt 0 .plan)) ∧
    (∀ l, s.launch? s.cx.id.launch = some l →
      let g := min l.grant s.cores.toNat
      let opens (p : Plan) : State := { s with
        plan := some { p with peersReady := s.exportMask == 0 }, snapshots := s.snapshots.filter (fun q => q.launch != l.num) }
      match s.snapshots.find? (fun p => p.launch == s.cx.id.launch && p.phase == .opening) with
      | none => beginPlan snap s = opens { launch := l.num, snapshot := snap, waves := wavesOf g (participants l) }
      | some p => beginPlan snap s = opens (if p.wave = 0 then { p with waves := wavesOf g p.waves.flatten } else p)) ∧
    (∀ p, s.plan = some p → p.launch = s.cx.id.launch →
      (p.phase = .stopping → s.cx.stoppedForPlan = true → exec (.planb h d) s = .next ((beginPlan snap s).waitAt 0 .plan)) ∧
      (p.phase = .published → exec (.planb h d) s = .next
        { s.bundled h.tk 1 [] (fun c => c.wa d (BitVec.ofNat 64 p.base)) with plan := some { p with phase := .running } }) ∧
      (p.phase = .running → s.cx.planeDone = false →
        exec (.plane h) s = .next (State.waitAt { s with plan := some { p with phase := .closing } } 0 .plan))) ∧
    (s.cx.planeDone = true → exec (.plane h) s = .next (s.bundled h.tk 1 [] (fun c => { c with planeDone := false }))) ∧
    exec (.fibexRd h d) s = .next (s.bundled h.tk 1 [] (fun c => c.wa d (fibreWord s))) ∧
    (s.unplanned → (s.cx.ra d).toNat < 16 → exec (.fibexSet h d) s = .next { s.bundled h.tk 1 [] id with
      exportMask := (s.cx.ra d).setWidth 4 &&& BitVec.ofNat 4 (joinedPorts s) })

/-! ## Events: other agents and engines -/

/-- 06 R191; 13 R358, R359: the home performs a request once, or answers with the fault of its tag check; a reply reaches K,
and that of LDXP makes its parked context ready. A request from another device is performed where it meets the home's checks.
The model's own readings in it: log entries 7, 17. -/
def Obligations.RemoteRequestsArePerformedAndAnswered : Prop :=
  ∀ (s : State) (c : CtxId) (x : Ctx) (r : Remote), s.ctx? c = some x → x.remote = some r →
    let put (r' : Remote) (s : State) : State := s.updCtx c (fun x => { x with remote := some r' })
    (∀ t, r.performed = none → partsTrap s r.parts = some t →
      exec (.remoteRequest (.own c)) s = .next (put { r with performed := some (0, some t) } s)) ∧
    (r.performed = none → partsTrap s r.parts = none →
      let vs := performRemote c.launch x.core.1 r s
      exec (.remoteRequest (.own c)) s = .next (put { r with performed := some (vs.1, none) } vs.2)) ∧
    (r.performed.isSome = true → r.parks = false →
      let answered : State := s.updCtx c (fun x =>
        match x.remote with
        | some r => if r.performed.isSome && !r.parks then { x with remote := some { r with replied := true } } else x
        | none => x)
      exec (.remoteReply c) s = .next ((acceptTile c (acceptStore c answered)).updCtx c Ctx.ackAll)) ∧
    (r.performed.isSome = true → r.parks = true → x.status = .parked →
      let ready (x : Ctx) : Ctx := { x with remote := some { r with replied := true }, status := .running }
      ∃ t, exec (.ldxpReply c) s = .next t ∧ t.ctx? c = some (ready x) ∧ (∀ i, i ≠ c → t.ctx? i = s.ctx? i) ∧
        { t with cx := s.cx, others := s.others } = s) ∧
    (∀ src pa n op v w tce tag, arrivalOk s pa n tce tag = true →
      exec (.remoteRequest (.read src pa n tce tag)) s = .next { s with hits := s.hits ++ arrivalHits s .read src pa n } ∧
      (∀ data mask, data.length = n → exec (.remoteRequest (.write src pa data mask tce tag)) s = .next
        { s with mem := s.mem.writeN (key s.dev pa) (List.zipWith (fun old b => mergeByte old b mask) (s.mem.readN (key s.dev pa) n) data)
                 hits := s.hits ++ arrivalHits s .write src pa n }) ∧
      (∀ new, amoNew op n (leNat (s.mem.readN (key s.dev pa) n)) v w = some new →
        exec (.remoteRequest (.atomic src pa n op v w tce tag)) s = .next
          { s with mem := s.mem.writeN (key s.dev pa) (natBytes n new), hits := s.hits ++ arrivalHits s .atomic src pa n })) ∧
    (∀ src pa new, arrivalOk s (pa / 32 * 32) 32 false 0 = true → exec (.remoteRequest (.tag src pa new)) s = .next { s with
      tags := s.tags.write (key s.dev (pa / 32 * 32) / 32) new, hits := s.hits ++ arrivalHits s .write src (pa / 32 * 32) 32 })

/-- 12 R339 to R341, R346, R349; 07 R225: a copy command that may start makes its checks, and starts; a started one finishes
with its bytes moved; one that has counted past its bound has moved a prefix, and fails. A chunk of an LDZ that L has issued
is delivered. The model's own readings in it: log entries 6, 7, 10. -/
def Obligations.CopyCommandsAndChunksProceed : Prop :=
  ∀ (s : State) (c : CtxId) (x : Ctx), s.ctx? c = some x →
    (∀ t k, x.copy.cmd? t = some k →
      (x.placed = true → copyMayStart x k = true →
        (k.chained = true → k.first = false → x.copy.failed = true →
          exec (.copyCommandStart c t) s = .next (s.updCtx c (fun x => { x with copy := x.copy.discard k }))) ∧
        (∀ u1 u2, (k.chained && !k.first && x.copy.failed) = false →
          (let q := { (s.focus c).cx.copy with chain := 0xFFFFFFFF, failed := false, pages := [], thawed := false }
           u1 = if k.first then { s.focus c with cx := { (s.focus c).cx with copy := q } } else s.focus c) →
          (if k.len = 0 then pure () else do copyChecks k; copyOpens k : M Unit) u1 = .ok () u2 →
          let q := u2.cx.copy.upd t (fun k => { k with started := some s.clock })
          exec (.copyCommandStart c t) s = .next (State.focus { u2 with cx := { u2.cx with copy := q } } s.cx.id))) ∧
      (∀ data u1 u2 u3, k.started.isSome = true → k.finished = false →
        (if k.len = 0 then data = [] ∧ copyEmpty k (s.focus c) = .ok () u2
          else copyRead k k.len (s.focus c) = .ok data u1 ∧ copyWrite k data u1 = .ok () u2) →
        let w := settleWrites u2
        (k.chained = false → copyDone k w = .ok () u3) →
        (k.chained = true → chainEnd k { w with cx := { w.cx with copy := { w.cx.copy with chain := rwsOf w.cx.copy.chain data } } }
          = .ok () u3) →
        exec (.copyCommandFinish c t) s = .next (State.focus { u3 with cx := { u3.cx with copy := u3.cx.copy.finish t } } s.cx.id))) ∧
    (∀ k rest pre, x.copy.queue = k :: rest → x.copy.overrun = true → (0 < k.len → pre < k.len) →
      let wrote := if k.started.isSome then pre else 0
      let f : Trap := { cause := 0x310, va := if k.dbuf then 0 else k.dst + BitVec.ofNat 64 wrote, lval := wrote }
      let fails (u : State) : State := State.focus { u with cx := { u.cx with copy := u.cx.copy.fail k f } } s.cx.id
      let moves := k.started.isSome = true ∧ 0 < k.len ∧ (k.dbuf = true ∨ 0 < pre)
      (k.chained = true → k.first = false → x.copy.failed = true →
        exec (.copyBoundOverrun c pre) s = .next (s.updCtx c (fun x => { x with copy := x.copy.discard k }))) ∧
      ((k.chained && !k.first && x.copy.failed) = false →
        (¬moves → exec (.copyBoundOverrun c pre) s = .next (fails (s.focus c))) ∧
        (∀ data u1 u2, moves → copyRead k pre (s.focus c) = .ok data u1 → copyWrite k data u1 = .ok () u2 →
          exec (.copyBoundOverrun c pre) s = .next (fails (settleWrites u2))))) ∧
    (∀ b st n u, let l := { s.focus c with cur := .l }
      l.cx.id = c → l.mayIssue = true → ldzAt l.cx = some (b, st, n) → l.cx.ry n ≠ 0 →
      (do if chunksDone l = 0 then ldzStart b st n else pure (); ldzDeliver b st n (chunksDone l) : M Unit) l = .ok () u →
      exec (.decoderChunkDone c) s = .next (State.focus { u with cur := s.cur } s.cx.id))

/-- 04 R122, R127, R135; 17 R432: the oldest waiting shadow write is performed, with the copy of its page where it is the
first; a line's lease ends; firmware moves and unmaps pages that no engine uses; the host writes memory. The model's own
readings in it: log entries 5, 7, 39. -/
def Obligations.MemoryEventsComplete : Prop :=
  ∀ (s : State),
    (∀ f rest, s.firstWrites = f :: rest →
      let t : Tr := ⟨f.entry, readEntry s.mem f.entry, 4⟩
      let r : State := { s with firstWrites := rest }
      let perform (s : State) : State :=
        let z := markDirty s f.launch (t.shadow 0 + f.off)
        let merged := List.zipWith (fun o b => mergeByte o b f.mask) (z.mem.readN (t.shadow 0 + f.off) f.data.length) f.data
        { z with mem := z.mem.writeN (t.shadow 0 + f.off) merged }
      (t.shst ≠ 1 → exec .shadowCopyOnFirstWrite s = .next (perform (dropPage (t.shadow 0) r))) ∧
      (t.shst = 1 →
        let v := copyPage (markDirty r f.launch (t.shadow 0)) (t.visible 0) (t.shadow 0)
        exec .shadowCopyOnFirstWrite s = .next (perform { v with mem := setShadowState v.mem f.entry 2 false }))) ∧
    (∀ die line, exec (.l2LeaseExpiry die line) s = .next (dropLines (fun e => e.die == die && e.line == line) s)) ∧
    (∀ asid va p, pageAt s asid va = some p → pageInUse s asid p = false →
      let v := clearPage p (settleWrites s)
      (∀ ppn, mayMigrate s p ppn = true →
        let dst := key v.dev (ppn * 2 ^ 12)
        let u := copyPages (p.tr.visible p.va) dst (p.size / 4096) (markMoved asid dst p.size v)
        exec (.pageMigration asid va ppn) s = .next (revokePage asid p .migration { u with mem := moveLeaves p ppn u.mem })) ∧
      exec (.pageUnmap asid va) s = .next (revokePage asid p .unmapping { v with mem := clearLeaves p v.mem })) ∧
    (∀ pa n, exec (.hostMemoryAccess (.read pa n)) s = .next s) ∧
    (∀ pa data, (∀ i, i < data.length → paOk (pa + i) = true) →
      exec (.hostMemoryAccess (.write pa data)) s = .next { s with mem := s.mem.writeN (key s.dev pa) data })

/-! ## Events: the optical bank and the broadcast core -/

/-- 10 R282 to R289, R294, R302 to R307: a window is staged, its passes deliver their codes, it is rescaled and accumulated,
each at its step; a tile takes its bias and activation, goes to oq or its stream, and is dropped when its wait is over. The
model's own readings in it: log entries 9, 28, 52. -/
def Obligations.WindowsAndTilesProceed : Prop :=
  ∀ (s : State) (c : CtxId) (x : Ctx), s.ctx? c = some x →
    (∀ n w, x.win? n = some w → w.flags.abort = false →
      (w.stagingDone = false → w.stamp ≤ s.clock + 32 →
        let stage (x : Ctx) (g : Staged) : Ctx := x.updWin n (fun w => { w with staged := some g })
        exec (.windowStaging c n) s = .next (s.updCtx c (fun x => match staging x w with
          | .error cause => x.invalidate w cause
          | .ok g => if w.rel then (stage x g).setSlot w.ws none else stage x g))) ∧
      (w.passes < w.p → w.stamp + w.passes * w.u + w.t + 8 ≤ s.clock →
        (s.light.find? (fun b => b.lights w w.passes) = none → exec (.windowPass c n) s = .next
          { s.updCtx c (fun x => x.updWin n (fun _ => { w with flags := { w.flags with absent := true }, passes := w.passes + 1 })) with
            ticks := s.ticks + 256 }) ∧
        (∀ b g, s.light.find? (fun b => b.lights w w.passes) = some b → w.staged = some g → w.weighted w.passes = true →
          exec (.windowPass c n) s = .next
            { s.updCtx c (fun x => x.updWin n (fun _ => { passCodes w g b w.passes s.ticks with passes := w.passes + 1 })) with
              ticks := s.ticks + 256 })) ∧
      (∀ g, w.staged = some g → w.d = none → w.lightEnd + 16 ≤ s.clock →
        let d := w.c.zipIdx.map (fun v =>
          rescale v.1 (shapeSh w.shape) ((w.ea[v.2 / 8]?).getD 0) ((g.ew[v.2 % 8]?).getD 0))
        exec (.windowRescale c n) s = .next (s.updCtx c (fun x => x.updWin n (fun w => { w with d := some d })))) ∧
      (w.lightEnd + 24 ≤ s.clock → exec (.windowAccumulate c n) s = .next (s.updCtx c (fun x => x.accumulate w)))) ∧
    (∀ e rest, s.isActive x = true → x.epi = e :: rest →
      (∀ bias u, s.cx.id = c → s.freezing c = false → e.shaped = false →
        (if epiBen e.epi then readBias e (epiBs e.epi) s = .ok bias u else bias = [] ∧ u = s) →
        let biased := if epiBen e.epi then e.x.zipIdx.map (fun v => fp32.add v.1 ((bias[v.2 % 8]?).getD 0)) else e.x
        let shaped := if epiAen e.epi then biased.map (activate (u.cx.actTable (epiAct e.epi))) else biased
        let y : Ctx := { u.cx with epi := modAt u.cx.epi 0 (fun e => { e with x := shaped, shaped := true, sent := false, acked := false }) }
        exec (.epilogueTile c) s = .next (State.focus { u with cx := y } c)) ∧
      (e.shaped = true → epiOut e.epi = false → x.oq.length < 4 → exec (.epilogueOutput c) s = .next
        (s.updCtx c (fun x => ({ x with oq := x.oq ++ [imageOf e.x] } : Ctx).popTile false))) ∧
      (s.tileOverdue x = some e →
        ((e.shaped && epiOut e.epi) = false → exec (.epilogueTimeout c) s = .next (s.updCtx c (fun x =>
          (x.deferTile e { cause := 0x310 }).popTile false))) ∧
        (∀ u, e.shaped = true → epiOut e.epi = true → s.cx.id = c →
          writeTile { e with acked := true } { s with cx := s.cx.deferTile e { cause := 0x310 } } = .ok () u → u.cx.id = c →
          exec (.epilogueTimeout c) s = .next u)) ∧
      (∀ u, s.cx.id = c → e.shaped = true → epiOut e.epi = true → writeTile e s = .ok () u → u.cx.id = c →
        exec (.epilogueOutput c) s = .next u))

/-- 11 R319, R320, R323, R325, R327 to R330, R335: side-band and light of a BCAST are sent at their steps; a plan is
published, closed, overrun and aborted; a fibre port loses its light and gains it. The model's own readings in it: log entries
7, 26, 56. -/
def Obligations.BroadcastEventsComplete : Prop :=
  ∀ (s : State),
    (∀ b, exec (.bcastSideband b) s = .next (s.updLight b (fun l =>
        if l.side = false ∧ l.stamp ≤ s.clock + 32 ∧ l.sends (l.stamp - 32) = true then { l with side := true } else l)) ∧
      exec (.bcastLight b) s = .next (s.updLight b (fun l =>
        if l.side = true ∧ l.lit < l.passes ∧ l.stamp + l.lit * l.u ≤ s.clock ∧ l.sends (l.stamp + l.lit * l.u) = true
        then { l with lit := l.lit + 1 } else l))) ∧
    (∀ p, s.plan = some p →
      let bc : CtxId := ⟨p.launch, Config.bcastLcore⟩
      (p.phase = .opening → (∃ l, s.launch? p.launch = some l ∧ l.run = .running) →
        (∀ c ∈ p.members, s.activeMember p.launch c = true) → p.peersReady = true → s.planbWaits p.launch = true →
        exec .planPublish s =
          .next (s.publishWave { p with base := (s.clock + 8192 + 4095) / 4096 * 4096, phase := .publishing, lastStep := 0 })) ∧
      (p.phase = .publishing → exec .planPublish s = .next (s.publishWave p)) ∧
      (∀ q : Plan, q.launch = p.launch →
        let base : DWord := BitVec.ofNat 64 q.base
        let u := q.members.foldl (fun s c => s.updCtx ⟨q.launch, c⟩ (fun x =>
          if x.pbase ≠ base ∧ (∀ w ∈ x.wins, w.flags.invalid = true ∨ w.flags.abort = true) then { x with pacc := x.acc, pbase := base } else x)) s
        let all := ∀ c ∈ q.members, ∃ x, u.ctx? ⟨q.launch, c⟩ = some x ∧ x.pbase = base
        (¬all → s.publishWave q = { u with plan := some { q with phase := .publishing } }) ∧
        (all → s.exporter.isSome = true → s.publishWave q = { u with plan := some { q with phase := .running } }) ∧
        (all → s.exporter = none → s.publishWave q =
          { u.updCtx bc (fun x => { x with pbase := base }) with plan := some { q with phase := .published } })) ∧
      (p.phase = .closing → p.lastStep ≤ s.clock →
        let u := p.members.foldl (fun s c => s.updCtx ⟨p.launch, c⟩ (fun x => { x with pbase := 0 })) s
        (p.wave + 1 < max p.waves.length s.peerWaves → exec .planClose s = .next { u.updCtx bc (fun x => x.fromSnapshot p.snapshot) with
          plan := some { p with
            phase := .opening, wave := p.wave + 1, base := 0, lastStep := 0, peersReady := s.exportMask == 0 } }) ∧
        (max p.waves.length s.peerWaves ≤ p.wave + 1 → exec .planClose s = .next
          { u.updCtx bc (fun x => { x with closed := x.pbase, pbase := 0, planeDone := true }) with plan := none, peerWaves := 0 })) ∧
      (p.phase.isOpen = true → s.exporter = none → p.base + 2 ^ 20 + 4096 ≤ s.clock →
        let u := s.focus bc
        exec .planOverrun s = .next ((u.takeFault { cause := 0x201 } 1 (instrAt u.cx .c (wordIx u.cx.seqC.pc))).focus s.cx.id)) ∧
      (∀ n, p.phase = .aborting n →
        let u := p.members.foldl (abortMember p n) s
        exec .planAbort s = .next { u.updCtx bc (fun x => { x with pbase := 0 }) with
          plan := none, peerWaves := 0
          snapshots := if u.exporter.isSome then u.snapshots else u.snapshots ++ [{ p with phase := .aborted }] })) ∧
    (∀ port, exec (.fibreLightLoss port) s = .next { s with
        fibreUp := s.fibreUp &&& ~~~(BitVec.ofNat 4 (2 ^ port))
        plan := if s.fromExporter port then s.plan.map (fun p => { p with dark := p.dark || p.phase.isOpen }) else s.plan
        light := if s.fromExporter port then s.light.map (·.cutAt s.clock) else s.light } ∧
      (∀ d, look s.peers port = some d →
        exec (.fibreLightReturn port) s = .next { s with fibreUp := s.fibreUp ||| BitVec.ofNat 4 (2 ^ port) }))

/-! ## Events: collectives, nodes, banks -/

/-- 13 R363 to R370, R373: a flag word fires or fails an armed entry; a fired one completes once every member has fired and
agrees, and fails past its bound, or with a peer. The model's own readings in it: log entries 7, 31. -/
def Obligations.CollectivesComplete : Prop :=
  ∀ (s : State) (t : Nat) (e : TileEntry), s.tile? t = some e →
    (e.st = .armed → flagValue s e ≠ 0 → flagValue s e % 256 ≠ 2 → exec (.tileFlagWrite t) s = .next (fireTile t none s)) ∧
    (e.st = .armed → flagValue s e ≠ 0 → flagValue s e % 256 = 2 →
      exec (.tileFlagWrite t) s = .next (failTile (e.firedBy s none) s.dev { cause := 0x294 } s)) ∧
    (∀ peers order own u l, e.st = .fired → peersComplete e s.dev peers = true → readTile e s = .ok own u →
      let ms := membersOf e s.dev own peers
      peersAgree e ms peers = true → inOrder e ms order = some l →
      exec (.collectiveComplete t peers order) s = .next (completeTile e (tileResult e.desc l) (signature (l.map (·.dev))) u)) ∧
    (e.st = .fired → e.fired + 8 * (e.bound + 1) ≤ s.clock →
      exec (.collectiveBoundOverrun t) s = .next (failTile e s.dev { cause := 0x310 } s)) ∧
    (∀ d mismatch, e.st = .fired → e.ring.contains d = true → d ≠ s.dev →
      exec (.collectivePeerFailed t d mismatch) s = .next (failTile e d { cause := if mismatch then 0x293 else 0x294 } s))

/-- 05 R148, R152 to R161; 14 R387, R391; 15 R416: nodes are dispatched, complete and are found late; contexts are pre-empted,
swapped, spilled, restored, yield, and are held by a debugger. A dispatched node starts as R148 says, with k0 to k15 from its
argument block; a completed one is done, and lowers the count of each successor by its entries, once; a swap exchanges the
active bank alone; a spill and a restore move one context. The model's own readings in it: log entries 6, 7, 23, 37, 40.
-/
def Obligations.NodesAndBanksProceed : Prop :=
  ∀ (s : State),
    (∀ l, handlerReady s = some l → exec .nodeDispatch s = .next (dispatchHandler l s)) ∧
    (∀ d l n, handlerReady s = none → nextDispatch s = some d → s.launch? d.launch = some l → l.nodes[d.node]? = some n →
      let id : CtxId := ⟨d.launch, d.lcore⟩
      let place : Place := .bank d.bank.1 d.bank.2.1 d.bank.2.2
      exec .nodeDispatch s = .next (s.dispatch d l n) ∧
      (∀ x, s.recorded l d.node n = some x → x.id = id → ∃ y, (s.dispatch d l n).ctx? x.id = some y ∧ y.place = place ∧ y.status = x.status ∧
        y.node = x.node ∧ (∀ q, y.seq q = x.seq q) ∧ y.x = x.x ∧ y.v = x.v ∧ y.acc = x.acc) ∧
      (s.recorded l d.node n = none → let w := (s.dispatched d).startAt d l n
        w.cx.id = id ∧ w.cx.node = d.node ∧ w.cx.place = place ∧ w.cx.status = .running ∧ w.cx.asid = l.asid ∧
        w.cx.StartsFrom ((s.ctx? id).getD { id := id }) ∧
        (∀ q, (w.cx.seq q).pc = entryPc n q ∧ ((w.cx.seq q).halted = true ↔ n.entry q = 0)) ∧
        (w.launch? d.launch).any (fun l => (l.nodes[d.node]?).any (fun m => m.st == .running && m.lcore == d.lcore)) = true ∧
        ∀ ks u, readNodeArgs l n w = .ok ks u →
          (s.dispatch d l n).cx = { w.cx with k := Vector.ofFn (fun i => BitVec.ofNat 64 ((ks[i.val]?).getD 0)) })) ∧
    (∀ (core : Nat × Nat) (c : CtxId) (x : Ctx) (bank : Nat × Nat × Nat), s.ctx? c = some x →
      (let t := s.swap core
       t.activeBank core = 1 - s.activeBank core ∧ (∀ o, o ≠ core → t.activeBank o = s.activeBank o) ∧ { t with bank1 := s.bank1 } = s) ∧
      (let t := spillCtx c s
       t.ctx? c = some { x with place := .spilled x.core.1, streams := x.streams.map Stream.unheld } ∧
         (∀ o, o ≠ c → t.ctx? o = s.ctx? o) ∧ { t with cx := s.cx, others := s.others, mem := s.mem, l2 := s.l2, tiles := s.tiles } = s) ∧
      (let t := s.restoreInto c bank
       t.ctx? c = some { x with place := .bank bank.1 bank.2.1 bank.2.2 } ∧ (∀ o, o ≠ c → t.ctx? o = s.ctx? o) ∧
         { t with cx := s.cx, others := s.others, l2 := s.l2 } = s)) ∧
    (∀ c x l n, s.ctx? c = some x → s.launch? c.launch = some l → x.status = .running → x.nodeOver = true → s.firstWrites = [] →
      (c.lcore ≠ Config.handlerLcore → l.run = .running → l.nodes[x.node]? = some n →
        ∃ w : State, exec (.nodeComplete c) s = .next (w.settle l.num) ∧
          w.launch? l.num = some { l with nodes := l.nodes.zipIdx.map (fun p => { p.1 with
            st := if p.2 = x.node then .done else p.1.st
            remaining := p.1.remaining - if n.spawned then 0 else n.succ.count p.2 }) } ∧
          w.ctx? c = some { x with status := .idle, lastDone := s.clock } ∧ (∀ o, o ≠ c → w.ctx? o = s.ctx? o) ∧
          (∀ e ∈ w.l2, e.line * 64 / 2 ^ 48 = s.dev → e.dirty = 0)) ∧
      (c.lcore = Config.handlerLcore → l.held = none → exec (.nodeComplete c) s = .next (State.updLaunch
        (s.updCtx c (fun x => { x with status := .idle, place := .unplaced, lastDone := s.clock })) l.num
        (fun l => { l with nodes := modAt l.nodes l.handler (fun n => { n with st := .blocked }) })))) ∧
    (∀ k l i, lateNode s = some (k, l, i) → l.abl = false →
      let l' := { l with late := l.late + 1, firstLate := if l.firstLate = 0xFFFF then i else l.firstLate
                         nodes := modAt l.nodes i (fun n => { n with late := true }) }
      exec .nodeLate s = .next ((crecLate l' (s.updLaunch l.num (fun _ => l'))).settle l.num)) ∧
    (∀ k l i, lateNode s = some (k, l, i) → l.abl = true → ∃ gone : List Nat, gone.Nodup ∧
      (∀ j, j ∈ gone ↔ l.reaches i j ∧ ∃ n, l.nodes[j]? = some n ∧ n.st ≠ .discarded) ∧
      let l' := { l with
        late := l.late + 1, firstLate := if l.firstLate = 0xFFFF then i else l.firstLate, discard := l.discard + gone.length
        nodes := (modAt l.nodes i (fun n => { n with late := true })).zipIdx.map (fun p =>
          if gone.contains p.2 then { p.1 with st := .discarded } else p.1) }
      let u := (s.updLaunch l.num (fun _ => l')).updCtxsOf l.num (fun c =>
        if gone.contains c.node && c.status != .idle && l.poolHolds c.node then { c with status := .idle } else c)
      exec .nodeLate s = .next ((crecLate l' u).settle l.num)) ∧
    (∀ d i c a, s.shadowOf (d, i) = some c → s.inBank (d, i) (s.activeBank (d, i)) = some a →
      (s.awaited a.id = false → s.awaited c.id = true → s.makesWay a.id = true → exec (.bankSwap d i) s = .next (s.swap (d, i))) ∧
      (s.awaited a.id = false → s.claims c = true → a.allHalted = true ∨ (s.inPlan a = false ∧
          (a.status = .idle ∨ a.status = .parked ∨ a.status = .yielded ∨ a.onReply = true ∨ a.status = .stopped)) →
        exec (.bankSwap d i) s = .next (s.swap (d, i))) ∧
      (s.claims c = true → (s.awaited a.id && s.makesWay c.id) = false → s.inPlan a = false → Key.lt (s.keyOf c) (s.keyOf a) = true →
        exec (.preemption d i) s = .next (s.swap (d, i)))) ∧
    (∀ c x, s.ctx? c = some x →
      (∀ w ∈ s.wanting, ∀ d i b, s.spillable x = true → placeFor s w.1 w.2.1 w.2.2.1 w.2.2.2 = some (d, i, b, some c) →
        exec (.spill c) s = .next (spillCtx c s)) ∧
      (s.yieldDue x = true → exec (.contextYield c) s = .next (s.updCtx c (fun x => { x with status := .yielded }))) ∧
      (∀ l n from' d i b v, s.launch? c.launch = some l → l.run = .running → x.place = .spilled from' → l.nodes[x.node]? = some n →
        s.wantsBank x = true → placeFor.other s l n c.lcore (s.keyOf x) = some (d, i, b, v) →
        exec (.contextRestore c d i b) s = .next ((s.makeRoom (d, i, b) v).restoreInto c (d, i, b)))) ∧
    (∀ c stop, exec (.debuggerStop c stop) s = .next (s.updCtx c (fun x => { x with debugStop := stop })))

/-! ## Events: errors, power, host -/

/-- 04 R134; 14 R385, R386, R390, R391, R397: a frame is written to its slot and takes its route; another agent's watch hit
stops its setter; a wait past its bound faults; an urgent pre-emption aborts a plan or takes the bank; a parity replay changes
nothing. The model's own readings in it: log entries 6, 7, 34, 40, 48, 54. -/
def Obligations.FramesAndWatchesProceed : Prop :=
  ∀ (s : State),
    (∀ c x f, s.ctx? c = some x → x.frameOut = some f → s.frozen c = false → x.draining = false → s.slotTaken x.place = false →
      exec (.faultFrameWrite c) s = .next { s.updCtx c (fun x => { x with frameOut := none }) with slots := s.slots ++ [mailSlot x f] }) ∧
    (∀ c e choice, s.slots.find? (fun e => e.ctx == c && !e.routed) = some e → (∀ die, choice ≠ .report die) →
      let f := e.frame
      let pass := toHandler c e.stop f { s with slots := s.slots.map (fun x => if x = e then { x with routed := true } else x) }
      let gone : State := { s with slots := s.slots.filter (fun x => x != e) }
      (routeOf f.cause = .handler → exec (.frameRouting c choice) s = .next pass) ∧
      (routeOf f.cause = .firmwareFirst →
        (s.revocationOf c f ≠ some .migration → exec (.frameRouting c .pass) s = .next pass) ∧
        (s.revocationOf c f = some .migration → exec (.frameRouting c .pass) s = .next (resumeFrame c f s)) ∧
        (∀ es, s.revocationOf c f ≠ some .unmapping →
          exec (.frameRouting c (.resolve es)) s = .next (resumeFrame c f { s with mem := writeEntries s.mem es })) ∧
        (∀ es, s.revocationOf c f = some .unmapping → exec (.frameRouting c (.resolve es)) s = .next pass)) ∧
      (routeOf f.cause = .firmware → exec (.frameRouting c choice) s = .next (resumeCtx c (gone.restorePlan c.launch))) ∧
      (routeOf f.cause = .deviceFatal → exec (.frameRouting c choice) s = .next (gone.endLaunch c.launch 4 f.cause))) ∧
    (∀ c die, exec (.frameRouting c (.report die)) s = .next { s with reports := s.reports.eraseP (fun r => r.1 == die) }) ∧
    (∀ h x, s.hits.find? s.hitDue = some h → s.ctx? h.ctx = some x → x.status ≠ .idle →
      let u := State.focus { s with hits := s.hits.erase h } h.ctx
      exec .watchHitByOtherAgent s = .next ((u.takeFault
        { cause := 0x08B, va := h.va, aux0 := h.aux0, aux1 := h.aux1, srce := some 8, noInstr := true } 8 0).focus s.cx.id)) ∧
    (∀ c q x a, s.ctx? c = some x → (x.seq q).awaiting = some a → (x.seq q).halted = false → x.status = .running ∨ x.status = .yielded →
      s.counts x = true → a.bounded q = true → (x.seq q).boundOf a < (x.seq q).waited → s.arrived x q a = false →
      exec (.watchdogExpiry c q) s = .next (((s.focus c).takeFault (watchdogTrap a x (x.seq q)) (seqNum q)
        (instrAt x q (wordIx (x.seq q).pc + (x.seq q).off))).focus s.cx.id)) ∧
    (∀ c x, s.ctx? c = some x →
      let waits : State := { s with urgent := if s.urgent.contains c then s.urgent else s.urgent ++ [c] }
      let rid : State := { s with urgent := s.urgent.filter (· != c) }
      (s.inPlan x = true → s.exporter.isSome = true → exec (.urgentPreemption c) s =
        .next { rid with plan := s.plan.map (·.aborts s.clock), light := s.light.map (·.cutAt s.clock) }) ∧
      (s.inPlan x = true → s.exporter = none → exec (.urgentPreemption c) s = .next (((rid.focus ⟨c.launch, Config.bcastLcore⟩).takeFault
        { cause := 0x318, srce := some 8, noInstr := true } 8 0).focus s.cx.id)) ∧
      (s.inPlan x = false → s.isActive x = true → x.status ≠ .idle →
        (∀ y, s.shadowOf x.core = some y → y.status = .running → exec (.urgentPreemption c) s = .next (rid.swap x.core)) ∧
        ((∀ y, s.shadowOf x.core = some y → y.status ≠ .running) → exec (.urgentPreemption c) s = .next
          (if s.imageReady x = true then spillCtx c rid else waits)))) ∧
    (∀ c q, exec (.parityReplay c q) s = .next s)

/-- 01 R33, R34; 13 R356; 14 R390 to R396: a device-fatal error loses the launches it affects; a core is withdrawn; lanes
fail; banks are calibrated and go stale; spares go into use. The model's own readings in it: log entries 7, 12, 48, 53. -/
def Obligations.ErrorsAndSparesProceed : Prop :=
  ∀ (s : State),
    (∀ f, s.canFail f = true →
      let a := fatalAffects s f
      let u := fatalDisables f (a.1.foldl (fun s n => s.endLaunch n 4 a.2) s)
      exec (.deviceFatalError f) s = .next { u with reports := u.reports ++ ((reportDie s f).toList.map (fun d => (d, a.2))) }) ∧
    (∀ d i, s.inUse (d, i) = true → (∀ c ∈ s.spareCores, c.1 ≠ d) → exec (.coreWithdrawal d i) s =
      .next ((s.loseLaunches (s.launchesWith (fun c => c.onCore (d, i))) 0x384).replaceCore (d, i) false)) ∧
    (∀ link lost n, n = (look s.lanesFailed link).getD 0 → n ≠ 1 →
      exec (.linkLaneFailure link lost) s = .next { s with lanesFailed := upd s.lanesFailed link (n + 1) }) ∧
    (∀ link lost, look s.lanesFailed link = some 1 →
      exec (.linkLaneFailure link lost) s = .next ((lost.filter (· != s.dev)).foldl (fun u d =>
          let v := u.loseLaunches (u.toward d) 0x382
          { v with present := v.present.filter (· != d), reports := v.reports ++ [(Config.fabricDie0, 0x382)] })
        { s with lanesFailed := upd s.lanesFailed link 2 })) ∧
    (∀ d i, 4092 ≤ s.clock % 4096 → exec (.calibrationRun d i) s = .next { s with
      calibrated := s.calibrated.filter (fun e => e.1 != (d, i)) ++ [((d, i), s.clock)]
      drifted := s.drifted.filter (· != (d, i)), skewed := s.skewed.filter (· != (d, i)) }) ∧
    (∀ d i, s.drifted.contains (d, i) = false →
      exec (.calibrationStale d i false) s = .next { s with drifted := s.drifted ++ [(d, i)] } ∧
      (s.skewed.contains (d, i) = false → exec (.calibrationStale d i true) s =
        .next { s with drifted := s.drifted ++ [(d, i)], skewed := s.skewed ++ [(d, i)] })) ∧
    (4092 ≤ s.clock % 4096 → exec (.spareLineOrColumn none) s = .next { s with spareLines := s.spareLines - 1 } ∧
      ∀ c, s.columnsUsed.contains c = false →
        exec (.spareLineOrColumn (some c)) s = .next { s with columnsUsed := s.columnsUsed ++ [c] }) ∧
    (∀ n, s.spareLaser = true →
      exec (.combLaserSwitch n) s = .next { s with spareLaser := false, laser := s.clock + min n 32000000 }) ∧
    (∀ d i sp, s.inUse (d, i) = true → s.spareCores.find? (fun c => c.1 == d) = some sp →
      (∀ c ∈ s.ctxs, c.onCore (d, i) = true → s.inPlan c = false ∧ c.wins = [] ∧ c.copying = false ∧ c.draining = false) →
      let move (c : Ctx) : Ctx :=
        match c.place with
        | .bank d' i' b => if (d', i') = (d, i) then { c with place := .bank d' sp.2 b } else c
        | _ => c
      let u : State := { s with cx := move s.cx, others := s.others.map move, tiles := s.tiles.filter (fun e => e.core != (d, i)) }
      exec (.spareCoreMove d i) s = .next ((u.activate sp (u.activeBank (d, i))).replaceCore (d, i) true)) ∧
    (∀ n, exec (.spareHbmPseudoChannel n) s = .next { s with spareChannels := modAt s.spareChannels n (· - 1) })

/-- 16 R423 to R428; 01 R18: at an interval boundary the eight pools act once, each on its two dies: idle dies count, the fourth
idle interval gives a permit back to a pool that holds at most 64; dies that want more than 2.0 GHz take a permit each, where one is
left for two of them the die of NEXT takes it, and a die that is denied has its grace interval at 2.2 GHz. A thermal cap acts where it
lowers the frequency. A frequency is taken at a cycle boundary. The model's own readings in it: log entry 7. -/
def Obligations.PowerEventsComplete : Prop :=
  (∀ (s : State),
    (64000 * (s.intervals + 1) ≤ s.clock → exec .intervalBoundary s = .next ([0, 1, 2, 3, 4, 5, 6, 7].foldl (fun u p =>
      let r := poolBoundary (u.poolOf (2 * p)) (u.die (2 * p)) (u.die (2 * p + 1)) (u.dieClaim (2 * p)) (u.dieClaim (2 * p + 1))
      { u with pools := modAt u.pools p (fun _ => r.1)
               dies := modAt (modAt u.dies (2 * p) (fun _ => r.2.1)) (2 * p + 1) (fun _ => r.2.2) })
      { s with intervals := s.intervals + 1 })) ∧
    (s.clock < 64000 * (s.intervals + 1) → exec .intervalBoundary s = .next s) ∧
    (∀ d f, f ∈ [12, 14, 16, 18, 20, 22, 24] → exec (.thermalCapChange d f) s = .next { s with dies := modAt s.dies d (fun p =>
      { p with limit := f, target := min p.target f, freq := if p.phase = 0 then min p.target f else p.freq }) })) ∧
  (∀ (pool : Nat) (p0 p1 : DiePower) (c0 c1 : Nat),
    let idle (p : DiePower) : Bool := !p.took && !p.grace
    let back (p : DiePower) : Nat := if idle p = true ∧ p.idle = 3 then 1 else 0
    let full := min (min (pool + back p0) 64 + back p1) 64
    let wants (p : DiePower) (c : Nat) : Bool := decide (20 < min c p.limit)
    let one := wants p0 c0 && wants p1 c1 && full == 1
    let denied := one || decide (full < (if wants p0 c0 then 1 else 0) + (if wants p1 c1 then 1 else 0))
    let take0 := if denied then one && p0.next else wants p0 c0
    let take1 := if denied then one && !p0.next else wants p1 c1
    let after (p : DiePower) (c : Nat) (take : Bool) : DiePower :=
      let grace := wants p c && !take && p.took
      let f := if take then min c p.limit else if grace then 22 else min 20 p.limit
      { p with
        claim := c, took := take, grace := grace, idle := if idle p = true ∧ p.idle ≠ 3 then p.idle + 1 else 0
        target := f, freq := if p.phase = 0 then f else p.freq }
    poolBoundary pool p0 p1 c0 c1 = (full - (if take0 then 1 else 0) - (if take1 then 1 else 0),
      { after p0 c0 take0 with next := if one then !p0.next else p0.next }, { after p1 c1 take1 with next := if one then p0.next else p1.next })) ∧
  (∀ (p : DiePower) (f : Nat), 160 ≤ p.phase + p.freq → (p.setTo f).target = f ∧ (p.step).freq = p.target)

/-- 17 R433 to R435, R439: submissions are accepted or refused with the cause of their check; the mailbox takes a command from
an idle slot and answers in it. The model's own readings in it: log entries 14, 33. -/
def Obligations.HostCommandsComplete : Prop :=
  ∀ (s : State), s.held = false → s.boot = 1 →
    (∀ v : DWord, exec (.submissionQueueBaseWrite v) s =
      .next { s with subBase := v - BitVec.ofNat 64 (v.toNat % 65536), subNext := 1 }) ∧
    (∀ a, a = s.slotAt → s.slotPa / 2 ^ 39 = 1 → s.launches.length < 256 →
      leNat (s.mem.readN (a + 128) 4) = s.subNext % 2 ^ 32 →
      (∀ n u, acceptPacket (leNat (s.mem.readN a 128)) none s = .ok n u → exec .hostSubmission s = .next { u with
        mem := (u.mem.writeN (a + 144) (natBytes 8 n)).writeN (a + 136) (natBytes 8 (s.subNext % 2 ^ 32 * 2 ^ 32 + 1))
        subNext := s.subNext + 1 }) ∧
      (∀ t u, acceptPacket (leNat (s.mem.readN a 128)) none s = .error (.trap t) u → exec .hostSubmission s = .next { u with
        mem := u.mem.writeN (a + 136) (natBytes 8 (s.subNext % 2 ^ 32 * 2 ^ 32 + t.cause % 2 ^ 10 * 2 ^ 16 + 2))
        subNext := s.subNext + 1 })) ∧
    (∀ i j v, i < 16 → j < 7 → (s.mboxAt i).word 0 = 0 →
      exec (.registerWindowWrite (0x1000 + 64 * i + 8 * j) v) s = .next (s.updMbox i (fun m => { m with w := modAt m.w j (fun _ => v) }))) ∧
    (∀ i m, s.polls i = true → m = s.mboxAt i →
      (m.op = 1 → exec (.ident i) s = .next (answerSlot i
        [(1, BitVec.ofNat 64 s.identity), (2, BitVec.ofNat 64 (s.identity / 2 ^ 64))] 0 1 s)) ∧
      (m.op = 2 →
        (∀ u, m.word 1 = 0 → freezeMarkM (m.word 2) s = .ok () u → exec (.mgmtFreeze i) s = .next (answerSlot i [] 0 1 u)) ∧
        (∀ n u, m.word 1 = 1 → freezeM (some i) (m.word 2) (m.word 3) (fun l => l.asid.toNat) s = .ok n u →
          exec (.mgmtFreeze i) s = .next (answerSlot i [(1, BitVec.ofNat 64 n)] 0 1 u)) ∧
        (∀ u, m.word 1 = 2 → freezeDropM (m.word 2) s = .ok () u → exec (.mgmtFreeze i) s = .next (answerSlot i [] 0 1 u)) ∧
        (∀ u, m.word 1 = 3 → freezeContM (m.word 2) s = .ok () u → exec (.mgmtFreeze i) s = .next (answerSlot i [] 0 1 u))) ∧
      (∀ n u, m.op = 3 → s.launches.length < 256 → (m.word 1).toNat % 256 = 0 → (m.word 2).toNat < 128 → (m.word 3).toNat < 2 ^ 13 →
        thawM (m.word 1) (m.word 2).toNat (m.word 3).toNat s = .ok n u →
        exec (.mgmtThaw i) s = .next (answerSlot i [(1, BitVec.ofNat 64 n)] 0 1 u) ∧
        ∀ head u1 img u2, readImage (m.word 3).toNat (m.word 1) 256 s = .ok head u1 →
          readImage (m.word 3).toNat (m.word 1) (max 256 (imgTotal head)) u1 = .ok img u2 → s.freshNumber → s.Restores img n u) ∧
      (m.op = 4 →
        (m.begun = false → s.attested < 2 ^ 30 → exec (.attest i) s = .next
          (State.updMbox { s with attested := s.attested + 1 } i (fun m => { m with begun := true, count := s.attested + 1 }))) ∧
        (m.begun = false → 2 ^ 30 ≤ s.attested → exec (.attest i) s = .next (answerSlot i [] 0x3FF 2 s)) ∧
        (m.begun = true →
          let body := reportBody m s
          let report := body ++ natBytes signatureBytes (Config.hssSignature (leNat body))
          exec (.attest i) s = .next (answerSlot i [(1, BitVec.ofNat 64 report.length)] 0 1
            { s with mem := s.mem.writeN (key s.dev ((m.word 5).toNat % 2 ^ 48)) report }))) ∧
      (m.op = 5 → exec (.urgent i) s = .next (answerSlot i [] 0 1 (((s.ctxs.filter (fun c =>
        c.id.launch == (m.word 1).toNat)).map Ctx.id).foldl (fun t c => urgentWith ((s.ctx? c).any s.inPlan) c t) s))) ∧
      (5 < m.op ∨ m.op = 0 → exec (.mboxOtherOp i) s = .next (answerSlot i [] 0x300 2 s)))

/-- 17 R437 to R439: a release from reset starts the plan clock at 0 with boot to begin; the five steps of boot complete in
order, or one fails and boot ends; a power loss holds the part in reset, and only one-time storage stays. The model's own
readings in it: log entries 7, 12, 14, 26, 33; how the module joins its exporter, State.join, is the model's choice (log entry
26). -/
def Obligations.ResetAndBootProceed : Prop :=
  ∀ (s : State),
    (∃ t, exec .resetRelease s = .next t ∧ t.held = false ∧ t.clock = 0 ∧ t.boot = 0 ∧ t.fail = 0 ∧ t.bootSteps = 0 ∧
      t.launches = [] ∧ t.nextLaunch = State.reset.nextLaunch ∧ t.rollback = s.rollback ∧ t.attested = s.attested ∧ t.dev = s.dev) ∧
    (∃ t, exec .powerLoss s = .next t ∧ t.held = true ∧ t.launches = [] ∧ t.rollback = s.rollback ∧ t.attested = s.attested ∧
      t.dev = s.dev ∧ ∀ k, s.ownHbm k = true → t.mem.read k = 0) ∧
    (s.held = false → s.boot = 0 → ∀ b,
      (b.ok = false → exec (.bootStep b) s = .next { s with boot := 2, fail := BitVec.ofNat 10 (s.bootSteps + 1) }) ∧
      (b.ok = true →
        (∀ n, (s.bootSteps = 0 ∧ n = 1) ∨ (s.bootSteps = 1 ∧ n = 19) → b.images.length = n →
          let v := verifyImages b.images s.rollback
          let before := if s.bootSteps = 0 then [] else s.images
          exec (.bootStep b) s = .next (if v.1 then { s with
              bootSteps := s.bootSteps + 1, rollback := v.2, images := before ++ b.images.map (fun i => sha256 i.body) }
            else { s with rollback := v.2, images := before, boot := 2, fail := BitVec.ofNat 10 (s.bootSteps + 1) })) ∧
        (s.bootSteps = 2 → b.spares.length = 16 → (∀ i ∈ b.spares, i < 5) → exec (.bootStep b) s = .next { s with
          bootSteps := 3, spareCores := b.spares.zipIdx.map (fun p => (p.2, p.1)), calibrated := s.calibrateAll, drifted := [], skewed := [] }) ∧
        (s.bootSteps = 3 → b.peers.length ≤ 3 → (∀ p ∈ b.peers, p.1 < 4) →
          let u : State := { s with present := b.present, peers := b.peers, fibreUp := BitVec.ofNat 4 (portMask b.peers) }
          (b.exporter = none → exec (.bootStep b) s = .next { u with bootSteps := 4 }) ∧
          (∀ d k, b.exporter = some (d, k) → (∃ p ∈ b.peers, p.2 = d) → exec (.bootStep b) s = .next { u.join d k with bootSteps := 4 })) ∧
        (s.bootSteps = 4 → exec (.bootStep b) s = .next { s with bootSteps := 5, boot := 1 }))) ∧
    (∀ (is : List FirmwareImage) (c : Nat), let v := verifyImages is c
      c ≤ v.2 ∧ (v.1 = true → ∀ i ∈ is, sha256 i.pubKey = Config.keyHash ∧ lmsVerifies i.pubKey (shaBytes i.body) i.signature = true ∧
        c ≤ i.version ∧ i.version ≤ v.2))

/-! ## Frames, reset and the invariant -/

/-- 04 R106, R137; 06 R189, R190: a load changes nothing but x[xd], and A of its leaf; a store but its own bytes, A and D of
the leaf and the launch's dirty bitmap. So do the writes, plain or to shadow pages, to memory, to lines that
the die alone holds, or to frames, and the atomics that every other instruction makes of parts of an access; and the items of a
stream's transfer change neither registers nor other contexts, but note that the transfer is in flight. The model's own readings in
it: log entries 3, 36. -/
def Obligations.AccessesChangeOnlyTheirBytes : Prop :=
  ∀ (s : State),
    (∀ (i : Instr) (h : Hq) (d a : BitVec 5) (pol : BitVec 2) (so : BitVec 4) (sz : BitVec 3) (imm : BitVec 32) (g : Seg),
      s.Issues .k h.qp h.tk → s.unplanned → s.cx.remote = none → g.va = kAddr s.cx a imm → g.len = sizeBytes sz →
      ((i = .ldx h d a pol so sz imm ∨ i = .ldxp h d a pol so sz imm) → (s.started .k h.tk).PlainAccess .read g.va g.len g.tr →
        s.near .read [g] → g.tr.home = s.dev →
        ∃ v t, exec i s = .next t ∧ t.still = (s.does .k h.tk 2 (fun u => { u with cx := u.cx.wx d v })).still ∧ t.tags = s.tags ∧
          t.cx.spad = s.cx.spad ∧ ∀ k, k ≠ g.tr.entry + 1 → s.uncached k → t.mem.read k = s.mem.read k) ∧
      (i = .stx h d a pol so sz imm → (soRel so = true → s.firstWrites = []) →
        ((s.started .k h.tk).rel so).PlainAccess .write g.va g.len g.tr → s.near .write [g] → g.tr.home = s.dev →
        ∃ t, exec i s = .next t ∧ t.still = (s.does .k h.tk 2 id).still ∧ t.tags = s.tags ∧ t.cx.spad = s.cx.spad ∧
          (∀ k, s.Untouched .write [g] k → s.uncached k → t.mem.read k = s.mem.read k) ∧
          (s.mem.wf = true → ∀ j, j < g.len →
            (natBytes g.len (s.cx.rx d).toNat)[j]? = some (t.mem.read (g.key .write + j))))) ∧
    (∀ pol segs data t, s.near .write segs → (∀ g ∈ segs, 0 < g.len) → writeSegs s.agent pol .write segs data s = .ok () t →
      t.still = s.still ∧ t.tags = s.tags ∧ ∀ k, s.Untouched .write segs k → (segs.any (fun g => g.tr.strong) = true → s.uncached k) →
        t.mem.read k = s.mem.read k) ∧
    (∀ g op v w old t, 0 < g.len → amoAt s.agent g op g.len v w s = .ok old t →
      t.still = s.still ∧ t.tags = s.tags ∧ ∀ k, s.Untouched .atomic [g] k → s.uncached k → t.mem.read k = s.mem.read k) ∧
    (∀ k pol segs data t, (∀ g ∈ segs, 0 < g.len) → writeSegs s.agent pol k segs data s = .ok () t →
      t.still = s.still ∧ t.tags = s.tags ∧ t.hits = s.hits ∧ (k ≠ .shadow → t.firstWrites = s.firstWrites) ∧
      (∀ a, s.Untouched k segs a → s.uncached a → t.mem.read a = s.mem.read a) ∧
      (∀ e ∈ t.l2, e ∈ s.l2 ∨ (e.die = s.cx.core.1 ∧ ∃ g ∈ segs, e.line ∈ linesOf (g.key k) g.len)) ∧
      (∀ e ∈ s.l2, e.die ≠ s.cx.core.1 → e ∈ t.l2) ∧
      (∀ c x y, s.ctx? c = some x → t.ctx? c = some y → ∀ i,
        (∀ g ∈ segs, g.tr.spad = true → c = ⟨s.cx.id.launch, g.tr.lcore⟩ → i < g.frameOff ∨ g.frameOff + g.len ≤ i) →
          y.spad.read i = x.spad.read i)) ∧
    (∀ st t bd items l ws ps codes u, s.Writes st t bd items l ws ps codes u →
      ∃ f w, u.still = State.still { s with cx := s.cx.updSeq s.cur (fun q => { q with flight := f, waited := w }) }) ∧
    (∀ bd op (l : List ((Item × List Seg) × Nat)) u, eachM l (fun p => atomItem s.agent bd op p.2 p.1) s = .ok () u → u.still = s.still)

/-- What the rules give at reset: 01 R17, the plan clock at 0; 17 R437, boot to begin; 16 R424, R427, 64 permits in each pool,
NEXT on even dies, idle counts of 0 and no claim; 05 R148 and 06 R170, a context in which no node has started holds zeros, no
buffer is declared and no watchpoint enabled; nothing of a launch, a plan, a tile or a frame is held. The model's own readings
in it: log entry 12. -/
def Obligations.ResetLeaves : Prop :=
  let s := State.reset
  s.clock = 0 ∧ s.boot = 0 ∧ s.fail = 0 ∧ s.bootSteps = 0 ∧ s.launches = [] ∧ s.table = [] ∧ s.plan = none ∧ s.slots = [] ∧
  s.exportMask = 0 ∧ s.subNext = 1 ∧ s.pools = List.replicate 8 64 ∧
  (∀ d, d < 16 → (s.die d).idle = 0 ∧ ((s.die d).next = true ↔ d % 2 = 0) ∧ s.dieClaim d = 20) ∧
  (∀ r, s.cx.rx r = 0) ∧ (∀ r, s.cx.ry r = 0) ∧ (∀ r, s.cx.rz r = 0) ∧ (∀ r, s.cx.ra r = 0) ∧
  (∀ r, s.cx.v.get r = 0) ∧ (∀ r, s.cx.t.get r = 0) ∧ (∀ r, s.cx.acc.get r = 0) ∧ (∀ r, s.cx.k.get r = 0) ∧
  (∀ r, s.cx.fpc.get r = 0) ∧ s.cx.cause = 0 ∧ s.cx.pbase = 0 ∧ s.cx.wdb = 0x01000000 ∧
  (∀ i, s.cx.tokens i = 0) ∧ (∀ b, (s.cx.buf b).declared = false) ∧ (∀ r, s.cx.wpa.get r = 0) ∧ (∀ i, s.cx.slot i = none) ∧
  s.cx.oq = [] ∧ s.cx.iq = [] ∧ s.cx.wins = [] ∧ s.cx.epi = [] ∧ s.cx.spad = []

/-- Reset memory and reset tags are in canonical form. The model's own readings in it: log entry 1. -/
def Obligations.ResetMemoryIsCanonical : Prop := State.reset.memoryOk

/-- Memory and tags keep their canonical form in every step. The model's own readings in it: log entry 1. -/
def Obligations.StepsKeepMemoryCanonical : Prop :=
  ∀ s t : State, s.memoryOk → step s = .next t → t.memoryOk
end

