-- ==== Sys2Proof/Laws/Memory.lean ====
section
/-! SUPPORT. Sparse maps: what a read gives after a write, and that every operation over memory and tags keeps the canonical
form. -/
set_option Elab.async false
namespace Sys2Proof.Machine

/-! ## Sparse maps -/

section
variable {α : Type} [DecidableEq α] (d : α)

theorem sparseWf_mono {lo lo' : Nat} (h : lo' ≤ lo) {m : List (Nat × α)} (w : sparseWf d lo m = true) : sparseWf d lo' m = true := by
  cases m with
  | nil => rfl
  | cons e m =>
    obtain ⟨k, v⟩ := e
    simp only [sparseWf, Bool.and_eq_true, decide_eq_true_eq] at w ⊢
    exact ⟨⟨by omega, w.1.2⟩, w.2⟩

theorem sparseGet_below {lo : Nat} {m : List (Nat × α)} (w : sparseWf d lo m = true) {k : Nat} (h : k < lo) : sparseGet d m k = d := by
  induction m generalizing lo with
  | nil => rfl
  | cons e m ih =>
    obtain ⟨k', v⟩ := e
    simp only [sparseWf, Bool.and_eq_true, decide_eq_true_eq] at w
    have : k' ≠ k := by omega
    simp only [sparseGet, this, if_false]
    exact ih w.2 (by omega)

theorem sparsePut_wf_from {lo : Nat} {m : List (Nat × α)} (w : sparseWf d lo m = true) (k : Nat) (v : α) :
    sparseWf d (min lo k) (sparsePut d k v m) = true := by
  induction m generalizing lo with
  | nil =>
    unfold sparsePut
    split <;> simp_all [sparseWf]
  | cons e m ih =>
    obtain ⟨k', v'⟩ := e
    have w0 := w
    simp only [sparseWf, Bool.and_eq_true, decide_eq_true_eq] at w
    unfold sparsePut
    split
    · split
      · exact sparseWf_mono d (by omega) w.2
      · simp only [sparseWf, Bool.and_eq_true, decide_eq_true_eq]
        exact ⟨⟨by omega, by assumption⟩, by simp_all⟩
    · split
      · split
        · exact sparseWf_mono d (by omega) w0
        · simp only [sparseWf, Bool.and_eq_true, decide_eq_true_eq]
          exact ⟨⟨by omega, by assumption⟩, ⟨by omega, w.1.2⟩, w.2⟩
      · simp only [sparseWf, Bool.and_eq_true, decide_eq_true_eq]
        exact ⟨⟨by omega, w.1.2⟩, sparseWf_mono d (by omega) (ih w.2)⟩

/-- A write keeps the canonical form. -/
theorem sparsePut_wf {m : List (Nat × α)} (w : sparseWf d 0 m = true) (k : Nat) (v : α) : sparseWf d 0 (sparsePut d k v m) = true := by
  simpa using sparsePut_wf_from d w k v

/-- A read at the written address gives the value written. -/
theorem sparseGet_put_same {lo : Nat} {m : List (Nat × α)} (w : sparseWf d lo m = true) (k : Nat) (v : α) :
    sparseGet d (sparsePut d k v m) k = v := by
  induction m generalizing lo with
  | nil => unfold sparsePut; split <;> simp_all [sparseGet]
  | cons e m ih =>
    obtain ⟨k', v'⟩ := e
    have w0 := w
    simp only [sparseWf, Bool.and_eq_true, decide_eq_true_eq] at w
    unfold sparsePut
    split
    · split
      · rename_i h1 h2
        rw [h2]
        exact sparseGet_below d w.2 (by omega)
      · simp [sparseGet]
    · split
      · split
        · rename_i h1 h2 h3
          rw [h3]
          exact sparseGet_below d (lo := k') (by simpa [sparseWf] using ⟨w.1.2, w.2⟩) h2
        · simp [sparseGet]
      · rename_i h1 h2
        simp only [sparseGet, h1, if_false]
        exact ih w.2

/-- A read at another address gives what it gave. -/
theorem sparseGet_put_ne {m : List (Nat × α)} {k k' : Nat} (h : k' ≠ k) (v : α) : sparseGet d (sparsePut d k v m) k' = sparseGet d m k' := by
  induction m with
  | nil => unfold sparsePut; split <;> simp [sparseGet, h.symm]
  | cons e m ih =>
    obtain ⟨j, u⟩ := e
    unfold sparsePut
    split
    · rename_i h1
      split <;> simp [sparseGet, h1, h.symm]
    · split
      · split <;> simp [sparseGet, h.symm]
      · simp only [sparseGet, ih]

/-- Removing entries keeps the canonical form. -/
theorem sparseWf_filter (p : Nat × α → Bool) {lo : Nat} {m : List (Nat × α)} (w : sparseWf d lo m = true) : sparseWf d lo (m.filter p) = true := by
  induction m generalizing lo with
  | nil => rfl
  | cons e m ih =>
    obtain ⟨k, v⟩ := e
    simp only [sparseWf, Bool.and_eq_true, decide_eq_true_eq] at w
    by_cases hp : p (k, v) = true
    · rw [List.filter_cons_of_pos hp]
      simp only [sparseWf, Bool.and_eq_true, decide_eq_true_eq]
      exact ⟨w.1, ih w.2⟩
    · rw [List.filter_cons_of_neg hp]
      exact sparseWf_mono d (by omega) (ih w.2)

end

/-! ## Memory and tags -/

@[simp] theorem Memory.wf_nil : Memory.wf [] = true := rfl
@[simp] theorem Tags.wf_nil : Tags.wf [] = true := rfl

/-- Writing a byte keeps the canonical form. -/
theorem Memory.write_wf {m : Memory} (w : m.wf = true) (a : Nat) (b : Byte) : (m.write a b).wf = true := sparsePut_wf _ w a b

/-- The byte written is read back. -/
theorem Memory.read_write_same {m : Memory} (w : m.wf = true) (a : Nat) (b : Byte) : (m.write a b).read a = b :=
  sparseGet_put_same _ w a b

/-- Every other byte stays. -/
theorem Memory.read_write_ne (m : Memory) {a a' : Nat} (h : a' ≠ a) (b : Byte) : (m.write a b).read a' = m.read a' :=
  sparseGet_put_ne _ h b

/-- Writing bytes keeps the canonical form. -/
theorem Memory.writeN_wf {m : Memory} (w : m.wf = true) (a : Nat) (bs : List Byte) : (m.writeN a bs).wf = true := by
  induction bs generalizing m a with
  | nil => exact w
  | cons b bs ih => exact ih (Memory.write_wf w a b) (a + 1)

/-- A byte outside the run written stays. -/
theorem Memory.read_writeN_outside (m : Memory) {a a' : Nat} {bs : List Byte} (h : a' < a ∨ a + bs.length ≤ a') :
    (m.writeN a bs).read a' = m.read a' := by
  induction bs generalizing m a with
  | nil => rfl
  | cons b bs ih =>
    simp only [List.length_cons] at h
    rw [Memory.writeN, ih _ (by omega), Memory.read_write_ne _ (by omega)]

/-- A byte of the run written is read back. -/
theorem Memory.read_writeN_inside {m : Memory} (w : m.wf = true) (a : Nat) {bs : List Byte} {i : Nat} (h : i < bs.length) :
    (m.writeN a bs).read (a + i) = bs[i] := by
  induction bs generalizing m a i with
  | nil => simp at h
  | cons b bs ih =>
    cases i with
    | zero =>
      rw [Memory.writeN, Memory.read_writeN_outside _ (by omega), Nat.add_zero, Memory.read_write_same w]
      rfl
    | succ i =>
      simp only [List.length_cons] at h
      have := ih (Memory.write_wf w a b) (a + 1) (i := i) (by omega)
      rw [Memory.writeN, show a + (i + 1) = a + 1 + i by omega, this]
      rfl

theorem Memory.filter_wf {m : Memory} (w : m.wf = true) (p : Host.Cell → Bool) : Memory.wf (m.filter p) = true := sparseWf_filter _ p w
theorem Tags.filter_wf {m : Tags} (w : m.wf = true) (p : Nat × BitVec 4 → Bool) : Tags.wf (m.filter p) = true := sparseWf_filter _ p w
theorem Tags.write_wf {t : Tags} (w : t.wf = true) (g : Nat) (v : BitVec 4) : (t.write g v).wf = true := sparsePut_wf _ w g v
theorem Tags.read_write_same {t : Tags} (w : t.wf = true) (g : Nat) (v : BitVec 4) : (t.write g v).read g = v := sparseGet_put_same _ w g v
theorem Tags.read_write_ne (t : Tags) {g g' : Nat} (h : g' ≠ g) (v : BitVec 4) : (t.write g v).read g' = t.read g' := sparseGet_put_ne _ h v

/-- `n` bytes read from an address. -/
@[simp] theorem Memory.readN_length (m : Memory) (a n : Nat) : (m.readN a n).length = n := by simp [Memory.readN]

/-! ## The operations over them -/

theorem setEntryBits_wf {m : Memory} (w : m.wf = true) (ea : Nat) (b : Byte) : (setEntryBits m ea b).wf = true := Memory.write_wf w _ _
theorem setShadowState_wf {m : Memory} (w : m.wf = true) (ea st : Nat) (swap : Bool) : (setShadowState m ea st swap).wf = true :=
  Memory.write_wf w _ _

/-- A fold of operations that keep a property keeps it. -/
theorem foldl_keeps {σ β : Type} (P : σ → Prop) (f : σ → β → σ) (h : ∀ s b, P s → P (f s b)) (l : List β) {s : σ} (w : P s) : P (l.foldl f s) := by
  induction l generalizing s with
  | nil => exact w
  | cons b l ih => exact ih (h s b w)

theorem writeNibbles_wf {m : Memory} (w : m.wf = true) (e : L2Line) (sel : BitVec 128) : (writeNibbles e sel m).wf = true := by
  unfold writeNibbles
  refine foldl_keeps (fun m : Memory => m.wf = true) _ (fun m i w => ?_) _ w
  dsimp only
  split
  · exact w
  · exact Memory.write_wf w _ _

theorem writeBack_wf {m : Memory} (w : m.wf = true) (e : L2Line) : (writeBack m e).wf = true := writeNibbles_wf w e e.dirty

/-- Memory and tags of a state are in canonical form. -/
theorem dropLines_mem_wf (p : L2Line → Bool) {s : State} (w : s.mem.wf = true) : (dropLines p s).mem.wf = true :=
  foldl_keeps (fun m : Memory => m.wf = true) writeBack (fun _ e w => writeBack_wf w e) _ w
theorem cleanLines_mem_wf (p : L2Line → Bool) {s : State} (w : s.mem.wf = true) : (cleanLines p s).mem.wf = true :=
  foldl_keeps (fun m : Memory => m.wf = true) writeBack (fun _ e w => writeBack_wf w e) _ w
@[simp] theorem dropLines_tags (p : L2Line → Bool) (s : State) : (dropLines p s).tags = s.tags := rfl
@[simp] theorem cleanLines_tags (p : L2Line → Bool) (s : State) : (cleanLines p s).tags = s.tags := rfl

end Sys2Proof.Machine
end

