-- ==== Sys2Proof/Laws/State.lean ====
section
/-! SUPPORT. What each update of a context and of the state leaves as it was, field by field. -/
set_option Elab.async false
namespace Sys2Proof.Machine

/-! ## Registers of a context -/

@[simp] theorem Ctx.wx_id (c : Ctx) (i : BitVec 5) (v : DWord) : (c.wx i v).id = c.id := by unfold Ctx.wx; split <;> rfl
@[simp] theorem Ctx.wx_asid (c : Ctx) (i : BitVec 5) (v : DWord) : (c.wx i v).asid = c.asid := by unfold Ctx.wx; split <;> rfl
@[simp] theorem Ctx.wx_node (c : Ctx) (i : BitVec 5) (v : DWord) : (c.wx i v).node = c.node := by unfold Ctx.wx; split <;> rfl
@[simp] theorem Ctx.wx_place (c : Ctx) (i : BitVec 5) (v : DWord) : (c.wx i v).place = c.place := by unfold Ctx.wx; split <;> rfl
@[simp] theorem Ctx.wx_status (c : Ctx) (i : BitVec 5) (v : DWord) : (c.wx i v).status = c.status := by unfold Ctx.wx; split <;> rfl
@[simp] theorem Ctx.wx_debugStop (c : Ctx) (i : BitVec 5) (v : DWord) : (c.wx i v).debugStop = c.debugStop := by unfold Ctx.wx; split <;> rfl
@[simp] theorem Ctx.wx_stopAt (c : Ctx) (i : BitVec 5) (v : DWord) : (c.wx i v).stopAt = c.stopAt := by unfold Ctx.wx; split <;> rfl
@[simp] theorem Ctx.wx_acquires (c : Ctx) (i : BitVec 5) (v : DWord) : (c.wx i v).acquires = c.acquires := by unfold Ctx.wx; split <;> rfl
@[simp] theorem Ctx.wx_lastDone (c : Ctx) (i : BitVec 5) (v : DWord) : (c.wx i v).lastDone = c.lastDone := by unfold Ctx.wx; split <;> rfl
@[simp] theorem Ctx.wx_seqL (c : Ctx) (i : BitVec 5) (v : DWord) : (c.wx i v).seqL = c.seqL := by unfold Ctx.wx; split <;> rfl
@[simp] theorem Ctx.wx_seqC (c : Ctx) (i : BitVec 5) (v : DWord) : (c.wx i v).seqC = c.seqC := by unfold Ctx.wx; split <;> rfl
@[simp] theorem Ctx.wx_seqS (c : Ctx) (i : BitVec 5) (v : DWord) : (c.wx i v).seqS = c.seqS := by unfold Ctx.wx; split <;> rfl
@[simp] theorem Ctx.wx_seqK (c : Ctx) (i : BitVec 5) (v : DWord) : (c.wx i v).seqK = c.seqK := by unfold Ctx.wx; split <;> rfl
@[simp] theorem Ctx.wx_y (c : Ctx) (i : BitVec 5) (v : DWord) : (c.wx i v).y = c.y := by unfold Ctx.wx; split <;> rfl
@[simp] theorem Ctx.wx_z (c : Ctx) (i : BitVec 5) (v : DWord) : (c.wx i v).z = c.z := by unfold Ctx.wx; split <;> rfl
@[simp] theorem Ctx.wx_a (c : Ctx) (i : BitVec 5) (v : DWord) : (c.wx i v).a = c.a := by unfold Ctx.wx; split <;> rfl
@[simp] theorem Ctx.wx_m (c : Ctx) (i : BitVec 5) (v : DWord) : (c.wx i v).m = c.m := by unfold Ctx.wx; split <;> rfl
@[simp] theorem Ctx.wx_k (c : Ctx) (i : BitVec 5) (v : DWord) : (c.wx i v).k = c.k := by unfold Ctx.wx; split <;> rfl
@[simp] theorem Ctx.wx_tok (c : Ctx) (i : BitVec 5) (v : DWord) : (c.wx i v).tok = c.tok := by unfold Ctx.wx; split <;> rfl
@[simp] theorem Ctx.wx_cause (c : Ctx) (i : BitVec 5) (v : DWord) : (c.wx i v).cause = c.cause := by unfold Ctx.wx; split <;> rfl
@[simp] theorem Ctx.wx_fpc (c : Ctx) (i : BitVec 5) (v : DWord) : (c.wx i v).fpc = c.fpc := by unfold Ctx.wx; split <;> rfl
@[simp] theorem Ctx.wx_wdb (c : Ctx) (i : BitVec 5) (v : DWord) : (c.wx i v).wdb = c.wdb := by unfold Ctx.wx; split <;> rfl
@[simp] theorem Ctx.wx_wpa (c : Ctx) (i : BitVec 5) (v : DWord) : (c.wx i v).wpa = c.wpa := by unfold Ctx.wx; split <;> rfl
@[simp] theorem Ctx.wx_wpc (c : Ctx) (i : BitVec 5) (v : DWord) : (c.wx i v).wpc = c.wpc := by unfold Ctx.wx; split <;> rfl
@[simp] theorem Ctx.wx_pbase (c : Ctx) (i : BitVec 5) (v : DWord) : (c.wx i v).pbase = c.pbase := by unfold Ctx.wx; split <;> rfl
@[simp] theorem Ctx.wx_claim (c : Ctx) (i : BitVec 5) (v : DWord) : (c.wx i v).claim = c.claim := by unfold Ctx.wx; split <;> rfl
@[simp] theorem Ctx.wx_planeDone (c : Ctx) (i : BitVec 5) (v : DWord) : (c.wx i v).planeDone = c.planeDone := by unfold Ctx.wx; split <;> rfl
@[simp] theorem Ctx.wx_closed (c : Ctx) (i : BitVec 5) (v : DWord) : (c.wx i v).closed = c.closed := by unfold Ctx.wx; split <;> rfl
@[simp] theorem Ctx.wx_arrived (c : Ctx) (i : BitVec 5) (v : DWord) : (c.wx i v).arrived = c.arrived := by unfold Ctx.wx; split <;> rfl
@[simp] theorem Ctx.wx_remote (c : Ctx) (i : BitVec 5) (v : DWord) : (c.wx i v).remote = c.remote := by unfold Ctx.wx; split <;> rfl
@[simp] theorem Ctx.wx_frameOut (c : Ctx) (i : BitVec 5) (v : DWord) : (c.wx i v).frameOut = c.frameOut := by unfold Ctx.wx; split <;> rfl
@[simp] theorem Ctx.wx_lq (c : Ctx) (i : BitVec 5) (v : DWord) : (c.wx i v).lq = c.lq := by unfold Ctx.wx; split <;> rfl
@[simp] theorem Ctx.wx_sq (c : Ctx) (i : BitVec 5) (v : DWord) : (c.wx i v).sq = c.sq := by unfold Ctx.wx; split <;> rfl
@[simp] theorem Ctx.wx_oq (c : Ctx) (i : BitVec 5) (v : DWord) : (c.wx i v).oq = c.oq := by unfold Ctx.wx; split <;> rfl
@[simp] theorem Ctx.wx_iq (c : Ctx) (i : BitVec 5) (v : DWord) : (c.wx i v).iq = c.iq := by unfold Ctx.wx; split <;> rfl
@[simp] theorem Ctx.wx_v (c : Ctx) (i : BitVec 5) (v : DWord) : (c.wx i v).v = c.v := by unfold Ctx.wx; split <;> rfl
@[simp] theorem Ctx.wx_p (c : Ctx) (i : BitVec 5) (v : DWord) : (c.wx i v).p = c.p := by unfold Ctx.wx; split <;> rfl
@[simp] theorem Ctx.wx_t (c : Ctx) (i : BitVec 5) (v : DWord) : (c.wx i v).t = c.t := by unfold Ctx.wx; split <;> rfl
@[simp] theorem Ctx.wx_bundles (c : Ctx) (i : BitVec 5) (v : DWord) : (c.wx i v).bundles = c.bundles := by unfold Ctx.wx; split <;> rfl
@[simp] theorem Ctx.wx_sfu (c : Ctx) (i : BitVec 5) (v : DWord) : (c.wx i v).sfu = c.sfu := by unfold Ctx.wx; split <;> rfl
@[simp] theorem Ctx.wx_streams (c : Ctx) (i : BitVec 5) (v : DWord) : (c.wx i v).streams = c.streams := by unfold Ctx.wx; split <;> rfl
@[simp] theorem Ctx.wx_slots (c : Ctx) (i : BitVec 5) (v : DWord) : (c.wx i v).slots = c.slots := by unfold Ctx.wx; split <;> rfl
@[simp] theorem Ctx.wx_bufs (c : Ctx) (i : BitVec 5) (v : DWord) : (c.wx i v).bufs = c.bufs := by unfold Ctx.wx; split <;> rfl
@[simp] theorem Ctx.wx_acc (c : Ctx) (i : BitVec 5) (v : DWord) : (c.wx i v).acc = c.acc := by unfold Ctx.wx; split <;> rfl
@[simp] theorem Ctx.wx_pacc (c : Ctx) (i : BitVec 5) (v : DWord) : (c.wx i v).pacc = c.pacc := by unfold Ctx.wx; split <;> rfl
@[simp] theorem Ctx.wx_lvt (c : Ctx) (i : BitVec 5) (v : DWord) : (c.wx i v).lvt = c.lvt := by unfold Ctx.wx; split <;> rfl
@[simp] theorem Ctx.wx_act (c : Ctx) (i : BitVec 5) (v : DWord) : (c.wx i v).act = c.act := by unfold Ctx.wx; split <;> rfl
@[simp] theorem Ctx.wx_wsh (c : Ctx) (i : BitVec 5) (v : DWord) : (c.wx i v).wsh = c.wsh := by unfold Ctx.wx; split <;> rfl
@[simp] theorem Ctx.wx_wep (c : Ctx) (i : BitVec 5) (v : DWord) : (c.wx i v).wep = c.wep := by unfold Ctx.wx; split <;> rfl
@[simp] theorem Ctx.wx_wpol (c : Ctx) (i : BitVec 5) (v : DWord) : (c.wx i v).wpol = c.wpol := by unfold Ctx.wx; split <;> rfl
@[simp] theorem Ctx.wx_wins (c : Ctx) (i : BitVec 5) (v : DWord) : (c.wx i v).wins = c.wins := by unfold Ctx.wx; split <;> rfl
@[simp] theorem Ctx.wx_nextWin (c : Ctx) (i : BitVec 5) (v : DWord) : (c.wx i v).nextWin = c.nextWin := by unfold Ctx.wx; split <;> rfl
@[simp] theorem Ctx.wx_held (c : Ctx) (i : BitVec 5) (v : DWord) : (c.wx i v).held = c.held := by unfold Ctx.wx; split <;> rfl
@[simp] theorem Ctx.wx_wstat (c : Ctx) (i : BitVec 5) (v : DWord) : (c.wx i v).wstat = c.wstat := by unfold Ctx.wx; split <;> rfl
@[simp] theorem Ctx.wx_epi (c : Ctx) (i : BitVec 5) (v : DWord) : (c.wx i v).epi = c.epi := by unfold Ctx.wx; split <;> rfl
@[simp] theorem Ctx.wx_nextTile (c : Ctx) (i : BitVec 5) (v : DWord) : (c.wx i v).nextTile = c.nextTile := by unfold Ctx.wx; split <;> rfl
@[simp] theorem Ctx.wx_deferred (c : Ctx) (i : BitVec 5) (v : DWord) : (c.wx i v).deferred = c.deferred := by unfold Ctx.wx; split <;> rfl
@[simp] theorem Ctx.wx_copy (c : Ctx) (i : BitVec 5) (v : DWord) : (c.wx i v).copy = c.copy := by unfold Ctx.wx; split <;> rfl
@[simp] theorem Ctx.wx_tilesFired (c : Ctx) (i : BitVec 5) (v : DWord) : (c.wx i v).tilesFired = c.tilesFired := by unfold Ctx.wx; split <;> rfl
@[simp] theorem Ctx.wx_tileFaults (c : Ctx) (i : BitVec 5) (v : DWord) : (c.wx i v).tileFaults = c.tileFaults := by unfold Ctx.wx; split <;> rfl
@[simp] theorem Ctx.wx_spad (c : Ctx) (i : BitVec 5) (v : DWord) : (c.wx i v).spad = c.spad := by unfold Ctx.wx; split <;> rfl

@[simp] theorem Ctx.wy_id (c : Ctx) (i : BitVec 4) (v : DWord) : (c.wy i v).id = c.id := by unfold Ctx.wy; split <;> rfl
@[simp] theorem Ctx.wy_asid (c : Ctx) (i : BitVec 4) (v : DWord) : (c.wy i v).asid = c.asid := by unfold Ctx.wy; split <;> rfl
@[simp] theorem Ctx.wy_node (c : Ctx) (i : BitVec 4) (v : DWord) : (c.wy i v).node = c.node := by unfold Ctx.wy; split <;> rfl
@[simp] theorem Ctx.wy_place (c : Ctx) (i : BitVec 4) (v : DWord) : (c.wy i v).place = c.place := by unfold Ctx.wy; split <;> rfl
@[simp] theorem Ctx.wy_status (c : Ctx) (i : BitVec 4) (v : DWord) : (c.wy i v).status = c.status := by unfold Ctx.wy; split <;> rfl
@[simp] theorem Ctx.wy_debugStop (c : Ctx) (i : BitVec 4) (v : DWord) : (c.wy i v).debugStop = c.debugStop := by unfold Ctx.wy; split <;> rfl
@[simp] theorem Ctx.wy_stopAt (c : Ctx) (i : BitVec 4) (v : DWord) : (c.wy i v).stopAt = c.stopAt := by unfold Ctx.wy; split <;> rfl
@[simp] theorem Ctx.wy_acquires (c : Ctx) (i : BitVec 4) (v : DWord) : (c.wy i v).acquires = c.acquires := by unfold Ctx.wy; split <;> rfl
@[simp] theorem Ctx.wy_lastDone (c : Ctx) (i : BitVec 4) (v : DWord) : (c.wy i v).lastDone = c.lastDone := by unfold Ctx.wy; split <;> rfl
@[simp] theorem Ctx.wy_seqL (c : Ctx) (i : BitVec 4) (v : DWord) : (c.wy i v).seqL = c.seqL := by unfold Ctx.wy; split <;> rfl
@[simp] theorem Ctx.wy_seqC (c : Ctx) (i : BitVec 4) (v : DWord) : (c.wy i v).seqC = c.seqC := by unfold Ctx.wy; split <;> rfl
@[simp] theorem Ctx.wy_seqS (c : Ctx) (i : BitVec 4) (v : DWord) : (c.wy i v).seqS = c.seqS := by unfold Ctx.wy; split <;> rfl
@[simp] theorem Ctx.wy_seqK (c : Ctx) (i : BitVec 4) (v : DWord) : (c.wy i v).seqK = c.seqK := by unfold Ctx.wy; split <;> rfl
@[simp] theorem Ctx.wy_x (c : Ctx) (i : BitVec 4) (v : DWord) : (c.wy i v).x = c.x := by unfold Ctx.wy; split <;> rfl
@[simp] theorem Ctx.wy_z (c : Ctx) (i : BitVec 4) (v : DWord) : (c.wy i v).z = c.z := by unfold Ctx.wy; split <;> rfl
@[simp] theorem Ctx.wy_a (c : Ctx) (i : BitVec 4) (v : DWord) : (c.wy i v).a = c.a := by unfold Ctx.wy; split <;> rfl
@[simp] theorem Ctx.wy_m (c : Ctx) (i : BitVec 4) (v : DWord) : (c.wy i v).m = c.m := by unfold Ctx.wy; split <;> rfl
@[simp] theorem Ctx.wy_k (c : Ctx) (i : BitVec 4) (v : DWord) : (c.wy i v).k = c.k := by unfold Ctx.wy; split <;> rfl
@[simp] theorem Ctx.wy_tok (c : Ctx) (i : BitVec 4) (v : DWord) : (c.wy i v).tok = c.tok := by unfold Ctx.wy; split <;> rfl
@[simp] theorem Ctx.wy_cause (c : Ctx) (i : BitVec 4) (v : DWord) : (c.wy i v).cause = c.cause := by unfold Ctx.wy; split <;> rfl
@[simp] theorem Ctx.wy_fpc (c : Ctx) (i : BitVec 4) (v : DWord) : (c.wy i v).fpc = c.fpc := by unfold Ctx.wy; split <;> rfl
@[simp] theorem Ctx.wy_wdb (c : Ctx) (i : BitVec 4) (v : DWord) : (c.wy i v).wdb = c.wdb := by unfold Ctx.wy; split <;> rfl
@[simp] theorem Ctx.wy_wpa (c : Ctx) (i : BitVec 4) (v : DWord) : (c.wy i v).wpa = c.wpa := by unfold Ctx.wy; split <;> rfl
@[simp] theorem Ctx.wy_wpc (c : Ctx) (i : BitVec 4) (v : DWord) : (c.wy i v).wpc = c.wpc := by unfold Ctx.wy; split <;> rfl
@[simp] theorem Ctx.wy_pbase (c : Ctx) (i : BitVec 4) (v : DWord) : (c.wy i v).pbase = c.pbase := by unfold Ctx.wy; split <;> rfl
@[simp] theorem Ctx.wy_claim (c : Ctx) (i : BitVec 4) (v : DWord) : (c.wy i v).claim = c.claim := by unfold Ctx.wy; split <;> rfl
@[simp] theorem Ctx.wy_planeDone (c : Ctx) (i : BitVec 4) (v : DWord) : (c.wy i v).planeDone = c.planeDone := by unfold Ctx.wy; split <;> rfl
@[simp] theorem Ctx.wy_closed (c : Ctx) (i : BitVec 4) (v : DWord) : (c.wy i v).closed = c.closed := by unfold Ctx.wy; split <;> rfl
@[simp] theorem Ctx.wy_arrived (c : Ctx) (i : BitVec 4) (v : DWord) : (c.wy i v).arrived = c.arrived := by unfold Ctx.wy; split <;> rfl
@[simp] theorem Ctx.wy_remote (c : Ctx) (i : BitVec 4) (v : DWord) : (c.wy i v).remote = c.remote := by unfold Ctx.wy; split <;> rfl
@[simp] theorem Ctx.wy_frameOut (c : Ctx) (i : BitVec 4) (v : DWord) : (c.wy i v).frameOut = c.frameOut := by unfold Ctx.wy; split <;> rfl
@[simp] theorem Ctx.wy_lq (c : Ctx) (i : BitVec 4) (v : DWord) : (c.wy i v).lq = c.lq := by unfold Ctx.wy; split <;> rfl
@[simp] theorem Ctx.wy_sq (c : Ctx) (i : BitVec 4) (v : DWord) : (c.wy i v).sq = c.sq := by unfold Ctx.wy; split <;> rfl
@[simp] theorem Ctx.wy_oq (c : Ctx) (i : BitVec 4) (v : DWord) : (c.wy i v).oq = c.oq := by unfold Ctx.wy; split <;> rfl
@[simp] theorem Ctx.wy_iq (c : Ctx) (i : BitVec 4) (v : DWord) : (c.wy i v).iq = c.iq := by unfold Ctx.wy; split <;> rfl
@[simp] theorem Ctx.wy_v (c : Ctx) (i : BitVec 4) (v : DWord) : (c.wy i v).v = c.v := by unfold Ctx.wy; split <;> rfl
@[simp] theorem Ctx.wy_p (c : Ctx) (i : BitVec 4) (v : DWord) : (c.wy i v).p = c.p := by unfold Ctx.wy; split <;> rfl
@[simp] theorem Ctx.wy_t (c : Ctx) (i : BitVec 4) (v : DWord) : (c.wy i v).t = c.t := by unfold Ctx.wy; split <;> rfl
@[simp] theorem Ctx.wy_bundles (c : Ctx) (i : BitVec 4) (v : DWord) : (c.wy i v).bundles = c.bundles := by unfold Ctx.wy; split <;> rfl
@[simp] theorem Ctx.wy_sfu (c : Ctx) (i : BitVec 4) (v : DWord) : (c.wy i v).sfu = c.sfu := by unfold Ctx.wy; split <;> rfl
@[simp] theorem Ctx.wy_streams (c : Ctx) (i : BitVec 4) (v : DWord) : (c.wy i v).streams = c.streams := by unfold Ctx.wy; split <;> rfl
@[simp] theorem Ctx.wy_slots (c : Ctx) (i : BitVec 4) (v : DWord) : (c.wy i v).slots = c.slots := by unfold Ctx.wy; split <;> rfl
@[simp] theorem Ctx.wy_bufs (c : Ctx) (i : BitVec 4) (v : DWord) : (c.wy i v).bufs = c.bufs := by unfold Ctx.wy; split <;> rfl
@[simp] theorem Ctx.wy_acc (c : Ctx) (i : BitVec 4) (v : DWord) : (c.wy i v).acc = c.acc := by unfold Ctx.wy; split <;> rfl
@[simp] theorem Ctx.wy_pacc (c : Ctx) (i : BitVec 4) (v : DWord) : (c.wy i v).pacc = c.pacc := by unfold Ctx.wy; split <;> rfl
@[simp] theorem Ctx.wy_lvt (c : Ctx) (i : BitVec 4) (v : DWord) : (c.wy i v).lvt = c.lvt := by unfold Ctx.wy; split <;> rfl
@[simp] theorem Ctx.wy_act (c : Ctx) (i : BitVec 4) (v : DWord) : (c.wy i v).act = c.act := by unfold Ctx.wy; split <;> rfl
@[simp] theorem Ctx.wy_wsh (c : Ctx) (i : BitVec 4) (v : DWord) : (c.wy i v).wsh = c.wsh := by unfold Ctx.wy; split <;> rfl
@[simp] theorem Ctx.wy_wep (c : Ctx) (i : BitVec 4) (v : DWord) : (c.wy i v).wep = c.wep := by unfold Ctx.wy; split <;> rfl
@[simp] theorem Ctx.wy_wpol (c : Ctx) (i : BitVec 4) (v : DWord) : (c.wy i v).wpol = c.wpol := by unfold Ctx.wy; split <;> rfl
@[simp] theorem Ctx.wy_wins (c : Ctx) (i : BitVec 4) (v : DWord) : (c.wy i v).wins = c.wins := by unfold Ctx.wy; split <;> rfl
@[simp] theorem Ctx.wy_nextWin (c : Ctx) (i : BitVec 4) (v : DWord) : (c.wy i v).nextWin = c.nextWin := by unfold Ctx.wy; split <;> rfl
@[simp] theorem Ctx.wy_held (c : Ctx) (i : BitVec 4) (v : DWord) : (c.wy i v).held = c.held := by unfold Ctx.wy; split <;> rfl
@[simp] theorem Ctx.wy_wstat (c : Ctx) (i : BitVec 4) (v : DWord) : (c.wy i v).wstat = c.wstat := by unfold Ctx.wy; split <;> rfl
@[simp] theorem Ctx.wy_epi (c : Ctx) (i : BitVec 4) (v : DWord) : (c.wy i v).epi = c.epi := by unfold Ctx.wy; split <;> rfl
@[simp] theorem Ctx.wy_nextTile (c : Ctx) (i : BitVec 4) (v : DWord) : (c.wy i v).nextTile = c.nextTile := by unfold Ctx.wy; split <;> rfl
@[simp] theorem Ctx.wy_deferred (c : Ctx) (i : BitVec 4) (v : DWord) : (c.wy i v).deferred = c.deferred := by unfold Ctx.wy; split <;> rfl
@[simp] theorem Ctx.wy_copy (c : Ctx) (i : BitVec 4) (v : DWord) : (c.wy i v).copy = c.copy := by unfold Ctx.wy; split <;> rfl
@[simp] theorem Ctx.wy_tilesFired (c : Ctx) (i : BitVec 4) (v : DWord) : (c.wy i v).tilesFired = c.tilesFired := by unfold Ctx.wy; split <;> rfl
@[simp] theorem Ctx.wy_tileFaults (c : Ctx) (i : BitVec 4) (v : DWord) : (c.wy i v).tileFaults = c.tileFaults := by unfold Ctx.wy; split <;> rfl
@[simp] theorem Ctx.wy_spad (c : Ctx) (i : BitVec 4) (v : DWord) : (c.wy i v).spad = c.spad := by unfold Ctx.wy; split <;> rfl

@[simp] theorem Ctx.wz_id (c : Ctx) (i : BitVec 4) (v : DWord) : (c.wz i v).id = c.id := by unfold Ctx.wz; split <;> rfl
@[simp] theorem Ctx.wz_asid (c : Ctx) (i : BitVec 4) (v : DWord) : (c.wz i v).asid = c.asid := by unfold Ctx.wz; split <;> rfl
@[simp] theorem Ctx.wz_node (c : Ctx) (i : BitVec 4) (v : DWord) : (c.wz i v).node = c.node := by unfold Ctx.wz; split <;> rfl
@[simp] theorem Ctx.wz_place (c : Ctx) (i : BitVec 4) (v : DWord) : (c.wz i v).place = c.place := by unfold Ctx.wz; split <;> rfl
@[simp] theorem Ctx.wz_status (c : Ctx) (i : BitVec 4) (v : DWord) : (c.wz i v).status = c.status := by unfold Ctx.wz; split <;> rfl
@[simp] theorem Ctx.wz_debugStop (c : Ctx) (i : BitVec 4) (v : DWord) : (c.wz i v).debugStop = c.debugStop := by unfold Ctx.wz; split <;> rfl
@[simp] theorem Ctx.wz_stopAt (c : Ctx) (i : BitVec 4) (v : DWord) : (c.wz i v).stopAt = c.stopAt := by unfold Ctx.wz; split <;> rfl
@[simp] theorem Ctx.wz_acquires (c : Ctx) (i : BitVec 4) (v : DWord) : (c.wz i v).acquires = c.acquires := by unfold Ctx.wz; split <;> rfl
@[simp] theorem Ctx.wz_lastDone (c : Ctx) (i : BitVec 4) (v : DWord) : (c.wz i v).lastDone = c.lastDone := by unfold Ctx.wz; split <;> rfl
@[simp] theorem Ctx.wz_seqL (c : Ctx) (i : BitVec 4) (v : DWord) : (c.wz i v).seqL = c.seqL := by unfold Ctx.wz; split <;> rfl
@[simp] theorem Ctx.wz_seqC (c : Ctx) (i : BitVec 4) (v : DWord) : (c.wz i v).seqC = c.seqC := by unfold Ctx.wz; split <;> rfl
@[simp] theorem Ctx.wz_seqS (c : Ctx) (i : BitVec 4) (v : DWord) : (c.wz i v).seqS = c.seqS := by unfold Ctx.wz; split <;> rfl
@[simp] theorem Ctx.wz_seqK (c : Ctx) (i : BitVec 4) (v : DWord) : (c.wz i v).seqK = c.seqK := by unfold Ctx.wz; split <;> rfl
@[simp] theorem Ctx.wz_x (c : Ctx) (i : BitVec 4) (v : DWord) : (c.wz i v).x = c.x := by unfold Ctx.wz; split <;> rfl
@[simp] theorem Ctx.wz_y (c : Ctx) (i : BitVec 4) (v : DWord) : (c.wz i v).y = c.y := by unfold Ctx.wz; split <;> rfl
@[simp] theorem Ctx.wz_a (c : Ctx) (i : BitVec 4) (v : DWord) : (c.wz i v).a = c.a := by unfold Ctx.wz; split <;> rfl
@[simp] theorem Ctx.wz_m (c : Ctx) (i : BitVec 4) (v : DWord) : (c.wz i v).m = c.m := by unfold Ctx.wz; split <;> rfl
@[simp] theorem Ctx.wz_k (c : Ctx) (i : BitVec 4) (v : DWord) : (c.wz i v).k = c.k := by unfold Ctx.wz; split <;> rfl
@[simp] theorem Ctx.wz_tok (c : Ctx) (i : BitVec 4) (v : DWord) : (c.wz i v).tok = c.tok := by unfold Ctx.wz; split <;> rfl
@[simp] theorem Ctx.wz_cause (c : Ctx) (i : BitVec 4) (v : DWord) : (c.wz i v).cause = c.cause := by unfold Ctx.wz; split <;> rfl
@[simp] theorem Ctx.wz_fpc (c : Ctx) (i : BitVec 4) (v : DWord) : (c.wz i v).fpc = c.fpc := by unfold Ctx.wz; split <;> rfl
@[simp] theorem Ctx.wz_wdb (c : Ctx) (i : BitVec 4) (v : DWord) : (c.wz i v).wdb = c.wdb := by unfold Ctx.wz; split <;> rfl
@[simp] theorem Ctx.wz_wpa (c : Ctx) (i : BitVec 4) (v : DWord) : (c.wz i v).wpa = c.wpa := by unfold Ctx.wz; split <;> rfl
@[simp] theorem Ctx.wz_wpc (c : Ctx) (i : BitVec 4) (v : DWord) : (c.wz i v).wpc = c.wpc := by unfold Ctx.wz; split <;> rfl
@[simp] theorem Ctx.wz_pbase (c : Ctx) (i : BitVec 4) (v : DWord) : (c.wz i v).pbase = c.pbase := by unfold Ctx.wz; split <;> rfl
@[simp] theorem Ctx.wz_claim (c : Ctx) (i : BitVec 4) (v : DWord) : (c.wz i v).claim = c.claim := by unfold Ctx.wz; split <;> rfl
@[simp] theorem Ctx.wz_planeDone (c : Ctx) (i : BitVec 4) (v : DWord) : (c.wz i v).planeDone = c.planeDone := by unfold Ctx.wz; split <;> rfl
@[simp] theorem Ctx.wz_closed (c : Ctx) (i : BitVec 4) (v : DWord) : (c.wz i v).closed = c.closed := by unfold Ctx.wz; split <;> rfl
@[simp] theorem Ctx.wz_arrived (c : Ctx) (i : BitVec 4) (v : DWord) : (c.wz i v).arrived = c.arrived := by unfold Ctx.wz; split <;> rfl
@[simp] theorem Ctx.wz_remote (c : Ctx) (i : BitVec 4) (v : DWord) : (c.wz i v).remote = c.remote := by unfold Ctx.wz; split <;> rfl
@[simp] theorem Ctx.wz_frameOut (c : Ctx) (i : BitVec 4) (v : DWord) : (c.wz i v).frameOut = c.frameOut := by unfold Ctx.wz; split <;> rfl
@[simp] theorem Ctx.wz_lq (c : Ctx) (i : BitVec 4) (v : DWord) : (c.wz i v).lq = c.lq := by unfold Ctx.wz; split <;> rfl
@[simp] theorem Ctx.wz_sq (c : Ctx) (i : BitVec 4) (v : DWord) : (c.wz i v).sq = c.sq := by unfold Ctx.wz; split <;> rfl
@[simp] theorem Ctx.wz_oq (c : Ctx) (i : BitVec 4) (v : DWord) : (c.wz i v).oq = c.oq := by unfold Ctx.wz; split <;> rfl
@[simp] theorem Ctx.wz_iq (c : Ctx) (i : BitVec 4) (v : DWord) : (c.wz i v).iq = c.iq := by unfold Ctx.wz; split <;> rfl
@[simp] theorem Ctx.wz_v (c : Ctx) (i : BitVec 4) (v : DWord) : (c.wz i v).v = c.v := by unfold Ctx.wz; split <;> rfl
@[simp] theorem Ctx.wz_p (c : Ctx) (i : BitVec 4) (v : DWord) : (c.wz i v).p = c.p := by unfold Ctx.wz; split <;> rfl
@[simp] theorem Ctx.wz_t (c : Ctx) (i : BitVec 4) (v : DWord) : (c.wz i v).t = c.t := by unfold Ctx.wz; split <;> rfl
@[simp] theorem Ctx.wz_bundles (c : Ctx) (i : BitVec 4) (v : DWord) : (c.wz i v).bundles = c.bundles := by unfold Ctx.wz; split <;> rfl
@[simp] theorem Ctx.wz_sfu (c : Ctx) (i : BitVec 4) (v : DWord) : (c.wz i v).sfu = c.sfu := by unfold Ctx.wz; split <;> rfl
@[simp] theorem Ctx.wz_streams (c : Ctx) (i : BitVec 4) (v : DWord) : (c.wz i v).streams = c.streams := by unfold Ctx.wz; split <;> rfl
@[simp] theorem Ctx.wz_slots (c : Ctx) (i : BitVec 4) (v : DWord) : (c.wz i v).slots = c.slots := by unfold Ctx.wz; split <;> rfl
@[simp] theorem Ctx.wz_bufs (c : Ctx) (i : BitVec 4) (v : DWord) : (c.wz i v).bufs = c.bufs := by unfold Ctx.wz; split <;> rfl
@[simp] theorem Ctx.wz_acc (c : Ctx) (i : BitVec 4) (v : DWord) : (c.wz i v).acc = c.acc := by unfold Ctx.wz; split <;> rfl
@[simp] theorem Ctx.wz_pacc (c : Ctx) (i : BitVec 4) (v : DWord) : (c.wz i v).pacc = c.pacc := by unfold Ctx.wz; split <;> rfl
@[simp] theorem Ctx.wz_lvt (c : Ctx) (i : BitVec 4) (v : DWord) : (c.wz i v).lvt = c.lvt := by unfold Ctx.wz; split <;> rfl
@[simp] theorem Ctx.wz_act (c : Ctx) (i : BitVec 4) (v : DWord) : (c.wz i v).act = c.act := by unfold Ctx.wz; split <;> rfl
@[simp] theorem Ctx.wz_wsh (c : Ctx) (i : BitVec 4) (v : DWord) : (c.wz i v).wsh = c.wsh := by unfold Ctx.wz; split <;> rfl
@[simp] theorem Ctx.wz_wep (c : Ctx) (i : BitVec 4) (v : DWord) : (c.wz i v).wep = c.wep := by unfold Ctx.wz; split <;> rfl
@[simp] theorem Ctx.wz_wpol (c : Ctx) (i : BitVec 4) (v : DWord) : (c.wz i v).wpol = c.wpol := by unfold Ctx.wz; split <;> rfl
@[simp] theorem Ctx.wz_wins (c : Ctx) (i : BitVec 4) (v : DWord) : (c.wz i v).wins = c.wins := by unfold Ctx.wz; split <;> rfl
@[simp] theorem Ctx.wz_nextWin (c : Ctx) (i : BitVec 4) (v : DWord) : (c.wz i v).nextWin = c.nextWin := by unfold Ctx.wz; split <;> rfl
@[simp] theorem Ctx.wz_held (c : Ctx) (i : BitVec 4) (v : DWord) : (c.wz i v).held = c.held := by unfold Ctx.wz; split <;> rfl
@[simp] theorem Ctx.wz_wstat (c : Ctx) (i : BitVec 4) (v : DWord) : (c.wz i v).wstat = c.wstat := by unfold Ctx.wz; split <;> rfl
@[simp] theorem Ctx.wz_epi (c : Ctx) (i : BitVec 4) (v : DWord) : (c.wz i v).epi = c.epi := by unfold Ctx.wz; split <;> rfl
@[simp] theorem Ctx.wz_nextTile (c : Ctx) (i : BitVec 4) (v : DWord) : (c.wz i v).nextTile = c.nextTile := by unfold Ctx.wz; split <;> rfl
@[simp] theorem Ctx.wz_deferred (c : Ctx) (i : BitVec 4) (v : DWord) : (c.wz i v).deferred = c.deferred := by unfold Ctx.wz; split <;> rfl
@[simp] theorem Ctx.wz_copy (c : Ctx) (i : BitVec 4) (v : DWord) : (c.wz i v).copy = c.copy := by unfold Ctx.wz; split <;> rfl
@[simp] theorem Ctx.wz_tilesFired (c : Ctx) (i : BitVec 4) (v : DWord) : (c.wz i v).tilesFired = c.tilesFired := by unfold Ctx.wz; split <;> rfl
@[simp] theorem Ctx.wz_tileFaults (c : Ctx) (i : BitVec 4) (v : DWord) : (c.wz i v).tileFaults = c.tileFaults := by unfold Ctx.wz; split <;> rfl
@[simp] theorem Ctx.wz_spad (c : Ctx) (i : BitVec 4) (v : DWord) : (c.wz i v).spad = c.spad := by unfold Ctx.wz; split <;> rfl

@[simp] theorem Ctx.wa_id (c : Ctx) (i : BitVec 4) (v : DWord) : (c.wa i v).id = c.id := by unfold Ctx.wa; split <;> rfl
@[simp] theorem Ctx.wa_asid (c : Ctx) (i : BitVec 4) (v : DWord) : (c.wa i v).asid = c.asid := by unfold Ctx.wa; split <;> rfl
@[simp] theorem Ctx.wa_node (c : Ctx) (i : BitVec 4) (v : DWord) : (c.wa i v).node = c.node := by unfold Ctx.wa; split <;> rfl
@[simp] theorem Ctx.wa_place (c : Ctx) (i : BitVec 4) (v : DWord) : (c.wa i v).place = c.place := by unfold Ctx.wa; split <;> rfl
@[simp] theorem Ctx.wa_status (c : Ctx) (i : BitVec 4) (v : DWord) : (c.wa i v).status = c.status := by unfold Ctx.wa; split <;> rfl
@[simp] theorem Ctx.wa_debugStop (c : Ctx) (i : BitVec 4) (v : DWord) : (c.wa i v).debugStop = c.debugStop := by unfold Ctx.wa; split <;> rfl
@[simp] theorem Ctx.wa_stopAt (c : Ctx) (i : BitVec 4) (v : DWord) : (c.wa i v).stopAt = c.stopAt := by unfold Ctx.wa; split <;> rfl
@[simp] theorem Ctx.wa_acquires (c : Ctx) (i : BitVec 4) (v : DWord) : (c.wa i v).acquires = c.acquires := by unfold Ctx.wa; split <;> rfl
@[simp] theorem Ctx.wa_lastDone (c : Ctx) (i : BitVec 4) (v : DWord) : (c.wa i v).lastDone = c.lastDone := by unfold Ctx.wa; split <;> rfl
@[simp] theorem Ctx.wa_seqL (c : Ctx) (i : BitVec 4) (v : DWord) : (c.wa i v).seqL = c.seqL := by unfold Ctx.wa; split <;> rfl
@[simp] theorem Ctx.wa_seqC (c : Ctx) (i : BitVec 4) (v : DWord) : (c.wa i v).seqC = c.seqC := by unfold Ctx.wa; split <;> rfl
@[simp] theorem Ctx.wa_seqS (c : Ctx) (i : BitVec 4) (v : DWord) : (c.wa i v).seqS = c.seqS := by unfold Ctx.wa; split <;> rfl
@[simp] theorem Ctx.wa_seqK (c : Ctx) (i : BitVec 4) (v : DWord) : (c.wa i v).seqK = c.seqK := by unfold Ctx.wa; split <;> rfl
@[simp] theorem Ctx.wa_x (c : Ctx) (i : BitVec 4) (v : DWord) : (c.wa i v).x = c.x := by unfold Ctx.wa; split <;> rfl
@[simp] theorem Ctx.wa_y (c : Ctx) (i : BitVec 4) (v : DWord) : (c.wa i v).y = c.y := by unfold Ctx.wa; split <;> rfl
@[simp] theorem Ctx.wa_z (c : Ctx) (i : BitVec 4) (v : DWord) : (c.wa i v).z = c.z := by unfold Ctx.wa; split <;> rfl
@[simp] theorem Ctx.wa_m (c : Ctx) (i : BitVec 4) (v : DWord) : (c.wa i v).m = c.m := by unfold Ctx.wa; split <;> rfl
@[simp] theorem Ctx.wa_k (c : Ctx) (i : BitVec 4) (v : DWord) : (c.wa i v).k = c.k := by unfold Ctx.wa; split <;> rfl
@[simp] theorem Ctx.wa_tok (c : Ctx) (i : BitVec 4) (v : DWord) : (c.wa i v).tok = c.tok := by unfold Ctx.wa; split <;> rfl
@[simp] theorem Ctx.wa_cause (c : Ctx) (i : BitVec 4) (v : DWord) : (c.wa i v).cause = c.cause := by unfold Ctx.wa; split <;> rfl
@[simp] theorem Ctx.wa_fpc (c : Ctx) (i : BitVec 4) (v : DWord) : (c.wa i v).fpc = c.fpc := by unfold Ctx.wa; split <;> rfl
@[simp] theorem Ctx.wa_wdb (c : Ctx) (i : BitVec 4) (v : DWord) : (c.wa i v).wdb = c.wdb := by unfold Ctx.wa; split <;> rfl
@[simp] theorem Ctx.wa_wpa (c : Ctx) (i : BitVec 4) (v : DWord) : (c.wa i v).wpa = c.wpa := by unfold Ctx.wa; split <;> rfl
@[simp] theorem Ctx.wa_wpc (c : Ctx) (i : BitVec 4) (v : DWord) : (c.wa i v).wpc = c.wpc := by unfold Ctx.wa; split <;> rfl
@[simp] theorem Ctx.wa_pbase (c : Ctx) (i : BitVec 4) (v : DWord) : (c.wa i v).pbase = c.pbase := by unfold Ctx.wa; split <;> rfl
@[simp] theorem Ctx.wa_claim (c : Ctx) (i : BitVec 4) (v : DWord) : (c.wa i v).claim = c.claim := by unfold Ctx.wa; split <;> rfl
@[simp] theorem Ctx.wa_planeDone (c : Ctx) (i : BitVec 4) (v : DWord) : (c.wa i v).planeDone = c.planeDone := by unfold Ctx.wa; split <;> rfl
@[simp] theorem Ctx.wa_closed (c : Ctx) (i : BitVec 4) (v : DWord) : (c.wa i v).closed = c.closed := by unfold Ctx.wa; split <;> rfl
@[simp] theorem Ctx.wa_arrived (c : Ctx) (i : BitVec 4) (v : DWord) : (c.wa i v).arrived = c.arrived := by unfold Ctx.wa; split <;> rfl
@[simp] theorem Ctx.wa_remote (c : Ctx) (i : BitVec 4) (v : DWord) : (c.wa i v).remote = c.remote := by unfold Ctx.wa; split <;> rfl
@[simp] theorem Ctx.wa_frameOut (c : Ctx) (i : BitVec 4) (v : DWord) : (c.wa i v).frameOut = c.frameOut := by unfold Ctx.wa; split <;> rfl
@[simp] theorem Ctx.wa_lq (c : Ctx) (i : BitVec 4) (v : DWord) : (c.wa i v).lq = c.lq := by unfold Ctx.wa; split <;> rfl
@[simp] theorem Ctx.wa_sq (c : Ctx) (i : BitVec 4) (v : DWord) : (c.wa i v).sq = c.sq := by unfold Ctx.wa; split <;> rfl
@[simp] theorem Ctx.wa_oq (c : Ctx) (i : BitVec 4) (v : DWord) : (c.wa i v).oq = c.oq := by unfold Ctx.wa; split <;> rfl
@[simp] theorem Ctx.wa_iq (c : Ctx) (i : BitVec 4) (v : DWord) : (c.wa i v).iq = c.iq := by unfold Ctx.wa; split <;> rfl
@[simp] theorem Ctx.wa_v (c : Ctx) (i : BitVec 4) (v : DWord) : (c.wa i v).v = c.v := by unfold Ctx.wa; split <;> rfl
@[simp] theorem Ctx.wa_p (c : Ctx) (i : BitVec 4) (v : DWord) : (c.wa i v).p = c.p := by unfold Ctx.wa; split <;> rfl
@[simp] theorem Ctx.wa_t (c : Ctx) (i : BitVec 4) (v : DWord) : (c.wa i v).t = c.t := by unfold Ctx.wa; split <;> rfl
@[simp] theorem Ctx.wa_bundles (c : Ctx) (i : BitVec 4) (v : DWord) : (c.wa i v).bundles = c.bundles := by unfold Ctx.wa; split <;> rfl
@[simp] theorem Ctx.wa_sfu (c : Ctx) (i : BitVec 4) (v : DWord) : (c.wa i v).sfu = c.sfu := by unfold Ctx.wa; split <;> rfl
@[simp] theorem Ctx.wa_streams (c : Ctx) (i : BitVec 4) (v : DWord) : (c.wa i v).streams = c.streams := by unfold Ctx.wa; split <;> rfl
@[simp] theorem Ctx.wa_slots (c : Ctx) (i : BitVec 4) (v : DWord) : (c.wa i v).slots = c.slots := by unfold Ctx.wa; split <;> rfl
@[simp] theorem Ctx.wa_bufs (c : Ctx) (i : BitVec 4) (v : DWord) : (c.wa i v).bufs = c.bufs := by unfold Ctx.wa; split <;> rfl
@[simp] theorem Ctx.wa_acc (c : Ctx) (i : BitVec 4) (v : DWord) : (c.wa i v).acc = c.acc := by unfold Ctx.wa; split <;> rfl
@[simp] theorem Ctx.wa_pacc (c : Ctx) (i : BitVec 4) (v : DWord) : (c.wa i v).pacc = c.pacc := by unfold Ctx.wa; split <;> rfl
@[simp] theorem Ctx.wa_lvt (c : Ctx) (i : BitVec 4) (v : DWord) : (c.wa i v).lvt = c.lvt := by unfold Ctx.wa; split <;> rfl
@[simp] theorem Ctx.wa_act (c : Ctx) (i : BitVec 4) (v : DWord) : (c.wa i v).act = c.act := by unfold Ctx.wa; split <;> rfl
@[simp] theorem Ctx.wa_wsh (c : Ctx) (i : BitVec 4) (v : DWord) : (c.wa i v).wsh = c.wsh := by unfold Ctx.wa; split <;> rfl
@[simp] theorem Ctx.wa_wep (c : Ctx) (i : BitVec 4) (v : DWord) : (c.wa i v).wep = c.wep := by unfold Ctx.wa; split <;> rfl
@[simp] theorem Ctx.wa_wpol (c : Ctx) (i : BitVec 4) (v : DWord) : (c.wa i v).wpol = c.wpol := by unfold Ctx.wa; split <;> rfl
@[simp] theorem Ctx.wa_wins (c : Ctx) (i : BitVec 4) (v : DWord) : (c.wa i v).wins = c.wins := by unfold Ctx.wa; split <;> rfl
@[simp] theorem Ctx.wa_nextWin (c : Ctx) (i : BitVec 4) (v : DWord) : (c.wa i v).nextWin = c.nextWin := by unfold Ctx.wa; split <;> rfl
@[simp] theorem Ctx.wa_held (c : Ctx) (i : BitVec 4) (v : DWord) : (c.wa i v).held = c.held := by unfold Ctx.wa; split <;> rfl
@[simp] theorem Ctx.wa_wstat (c : Ctx) (i : BitVec 4) (v : DWord) : (c.wa i v).wstat = c.wstat := by unfold Ctx.wa; split <;> rfl
@[simp] theorem Ctx.wa_epi (c : Ctx) (i : BitVec 4) (v : DWord) : (c.wa i v).epi = c.epi := by unfold Ctx.wa; split <;> rfl
@[simp] theorem Ctx.wa_nextTile (c : Ctx) (i : BitVec 4) (v : DWord) : (c.wa i v).nextTile = c.nextTile := by unfold Ctx.wa; split <;> rfl
@[simp] theorem Ctx.wa_deferred (c : Ctx) (i : BitVec 4) (v : DWord) : (c.wa i v).deferred = c.deferred := by unfold Ctx.wa; split <;> rfl
@[simp] theorem Ctx.wa_copy (c : Ctx) (i : BitVec 4) (v : DWord) : (c.wa i v).copy = c.copy := by unfold Ctx.wa; split <;> rfl
@[simp] theorem Ctx.wa_tilesFired (c : Ctx) (i : BitVec 4) (v : DWord) : (c.wa i v).tilesFired = c.tilesFired := by unfold Ctx.wa; split <;> rfl
@[simp] theorem Ctx.wa_tileFaults (c : Ctx) (i : BitVec 4) (v : DWord) : (c.wa i v).tileFaults = c.tileFaults := by unfold Ctx.wa; split <;> rfl
@[simp] theorem Ctx.wa_spad (c : Ctx) (i : BitVec 4) (v : DWord) : (c.wa i v).spad = c.spad := by unfold Ctx.wa; split <;> rfl

@[simp] theorem Ctx.wp_id (c : Ctx) (i : BitVec 6) (v : BitVec 1024) : (c.wp i v).id = c.id := by unfold Ctx.wp; split <;> rfl
@[simp] theorem Ctx.wp_asid (c : Ctx) (i : BitVec 6) (v : BitVec 1024) : (c.wp i v).asid = c.asid := by unfold Ctx.wp; split <;> rfl
@[simp] theorem Ctx.wp_node (c : Ctx) (i : BitVec 6) (v : BitVec 1024) : (c.wp i v).node = c.node := by unfold Ctx.wp; split <;> rfl
@[simp] theorem Ctx.wp_place (c : Ctx) (i : BitVec 6) (v : BitVec 1024) : (c.wp i v).place = c.place := by unfold Ctx.wp; split <;> rfl
@[simp] theorem Ctx.wp_status (c : Ctx) (i : BitVec 6) (v : BitVec 1024) : (c.wp i v).status = c.status := by unfold Ctx.wp; split <;> rfl
@[simp] theorem Ctx.wp_debugStop (c : Ctx) (i : BitVec 6) (v : BitVec 1024) : (c.wp i v).debugStop = c.debugStop := by unfold Ctx.wp; split <;> rfl
@[simp] theorem Ctx.wp_stopAt (c : Ctx) (i : BitVec 6) (v : BitVec 1024) : (c.wp i v).stopAt = c.stopAt := by unfold Ctx.wp; split <;> rfl
@[simp] theorem Ctx.wp_acquires (c : Ctx) (i : BitVec 6) (v : BitVec 1024) : (c.wp i v).acquires = c.acquires := by unfold Ctx.wp; split <;> rfl
@[simp] theorem Ctx.wp_lastDone (c : Ctx) (i : BitVec 6) (v : BitVec 1024) : (c.wp i v).lastDone = c.lastDone := by unfold Ctx.wp; split <;> rfl
@[simp] theorem Ctx.wp_seqL (c : Ctx) (i : BitVec 6) (v : BitVec 1024) : (c.wp i v).seqL = c.seqL := by unfold Ctx.wp; split <;> rfl
@[simp] theorem Ctx.wp_seqC (c : Ctx) (i : BitVec 6) (v : BitVec 1024) : (c.wp i v).seqC = c.seqC := by unfold Ctx.wp; split <;> rfl
@[simp] theorem Ctx.wp_seqS (c : Ctx) (i : BitVec 6) (v : BitVec 1024) : (c.wp i v).seqS = c.seqS := by unfold Ctx.wp; split <;> rfl
@[simp] theorem Ctx.wp_seqK (c : Ctx) (i : BitVec 6) (v : BitVec 1024) : (c.wp i v).seqK = c.seqK := by unfold Ctx.wp; split <;> rfl
@[simp] theorem Ctx.wp_x (c : Ctx) (i : BitVec 6) (v : BitVec 1024) : (c.wp i v).x = c.x := by unfold Ctx.wp; split <;> rfl
@[simp] theorem Ctx.wp_y (c : Ctx) (i : BitVec 6) (v : BitVec 1024) : (c.wp i v).y = c.y := by unfold Ctx.wp; split <;> rfl
@[simp] theorem Ctx.wp_z (c : Ctx) (i : BitVec 6) (v : BitVec 1024) : (c.wp i v).z = c.z := by unfold Ctx.wp; split <;> rfl
@[simp] theorem Ctx.wp_a (c : Ctx) (i : BitVec 6) (v : BitVec 1024) : (c.wp i v).a = c.a := by unfold Ctx.wp; split <;> rfl
@[simp] theorem Ctx.wp_m (c : Ctx) (i : BitVec 6) (v : BitVec 1024) : (c.wp i v).m = c.m := by unfold Ctx.wp; split <;> rfl
@[simp] theorem Ctx.wp_k (c : Ctx) (i : BitVec 6) (v : BitVec 1024) : (c.wp i v).k = c.k := by unfold Ctx.wp; split <;> rfl
@[simp] theorem Ctx.wp_tok (c : Ctx) (i : BitVec 6) (v : BitVec 1024) : (c.wp i v).tok = c.tok := by unfold Ctx.wp; split <;> rfl
@[simp] theorem Ctx.wp_cause (c : Ctx) (i : BitVec 6) (v : BitVec 1024) : (c.wp i v).cause = c.cause := by unfold Ctx.wp; split <;> rfl
@[simp] theorem Ctx.wp_fpc (c : Ctx) (i : BitVec 6) (v : BitVec 1024) : (c.wp i v).fpc = c.fpc := by unfold Ctx.wp; split <;> rfl
@[simp] theorem Ctx.wp_wdb (c : Ctx) (i : BitVec 6) (v : BitVec 1024) : (c.wp i v).wdb = c.wdb := by unfold Ctx.wp; split <;> rfl
@[simp] theorem Ctx.wp_wpa (c : Ctx) (i : BitVec 6) (v : BitVec 1024) : (c.wp i v).wpa = c.wpa := by unfold Ctx.wp; split <;> rfl
@[simp] theorem Ctx.wp_wpc (c : Ctx) (i : BitVec 6) (v : BitVec 1024) : (c.wp i v).wpc = c.wpc := by unfold Ctx.wp; split <;> rfl
@[simp] theorem Ctx.wp_pbase (c : Ctx) (i : BitVec 6) (v : BitVec 1024) : (c.wp i v).pbase = c.pbase := by unfold Ctx.wp; split <;> rfl
@[simp] theorem Ctx.wp_claim (c : Ctx) (i : BitVec 6) (v : BitVec 1024) : (c.wp i v).claim = c.claim := by unfold Ctx.wp; split <;> rfl
@[simp] theorem Ctx.wp_planeDone (c : Ctx) (i : BitVec 6) (v : BitVec 1024) : (c.wp i v).planeDone = c.planeDone := by unfold Ctx.wp; split <;> rfl
@[simp] theorem Ctx.wp_closed (c : Ctx) (i : BitVec 6) (v : BitVec 1024) : (c.wp i v).closed = c.closed := by unfold Ctx.wp; split <;> rfl
@[simp] theorem Ctx.wp_arrived (c : Ctx) (i : BitVec 6) (v : BitVec 1024) : (c.wp i v).arrived = c.arrived := by unfold Ctx.wp; split <;> rfl
@[simp] theorem Ctx.wp_remote (c : Ctx) (i : BitVec 6) (v : BitVec 1024) : (c.wp i v).remote = c.remote := by unfold Ctx.wp; split <;> rfl
@[simp] theorem Ctx.wp_frameOut (c : Ctx) (i : BitVec 6) (v : BitVec 1024) : (c.wp i v).frameOut = c.frameOut := by unfold Ctx.wp; split <;> rfl
@[simp] theorem Ctx.wp_lq (c : Ctx) (i : BitVec 6) (v : BitVec 1024) : (c.wp i v).lq = c.lq := by unfold Ctx.wp; split <;> rfl
@[simp] theorem Ctx.wp_sq (c : Ctx) (i : BitVec 6) (v : BitVec 1024) : (c.wp i v).sq = c.sq := by unfold Ctx.wp; split <;> rfl
@[simp] theorem Ctx.wp_oq (c : Ctx) (i : BitVec 6) (v : BitVec 1024) : (c.wp i v).oq = c.oq := by unfold Ctx.wp; split <;> rfl
@[simp] theorem Ctx.wp_iq (c : Ctx) (i : BitVec 6) (v : BitVec 1024) : (c.wp i v).iq = c.iq := by unfold Ctx.wp; split <;> rfl
@[simp] theorem Ctx.wp_v (c : Ctx) (i : BitVec 6) (v : BitVec 1024) : (c.wp i v).v = c.v := by unfold Ctx.wp; split <;> rfl
@[simp] theorem Ctx.wp_t (c : Ctx) (i : BitVec 6) (v : BitVec 1024) : (c.wp i v).t = c.t := by unfold Ctx.wp; split <;> rfl
@[simp] theorem Ctx.wp_bundles (c : Ctx) (i : BitVec 6) (v : BitVec 1024) : (c.wp i v).bundles = c.bundles := by unfold Ctx.wp; split <;> rfl
@[simp] theorem Ctx.wp_sfu (c : Ctx) (i : BitVec 6) (v : BitVec 1024) : (c.wp i v).sfu = c.sfu := by unfold Ctx.wp; split <;> rfl
@[simp] theorem Ctx.wp_streams (c : Ctx) (i : BitVec 6) (v : BitVec 1024) : (c.wp i v).streams = c.streams := by unfold Ctx.wp; split <;> rfl
@[simp] theorem Ctx.wp_slots (c : Ctx) (i : BitVec 6) (v : BitVec 1024) : (c.wp i v).slots = c.slots := by unfold Ctx.wp; split <;> rfl
@[simp] theorem Ctx.wp_bufs (c : Ctx) (i : BitVec 6) (v : BitVec 1024) : (c.wp i v).bufs = c.bufs := by unfold Ctx.wp; split <;> rfl
@[simp] theorem Ctx.wp_acc (c : Ctx) (i : BitVec 6) (v : BitVec 1024) : (c.wp i v).acc = c.acc := by unfold Ctx.wp; split <;> rfl
@[simp] theorem Ctx.wp_pacc (c : Ctx) (i : BitVec 6) (v : BitVec 1024) : (c.wp i v).pacc = c.pacc := by unfold Ctx.wp; split <;> rfl
@[simp] theorem Ctx.wp_lvt (c : Ctx) (i : BitVec 6) (v : BitVec 1024) : (c.wp i v).lvt = c.lvt := by unfold Ctx.wp; split <;> rfl
@[simp] theorem Ctx.wp_act (c : Ctx) (i : BitVec 6) (v : BitVec 1024) : (c.wp i v).act = c.act := by unfold Ctx.wp; split <;> rfl
@[simp] theorem Ctx.wp_wsh (c : Ctx) (i : BitVec 6) (v : BitVec 1024) : (c.wp i v).wsh = c.wsh := by unfold Ctx.wp; split <;> rfl
@[simp] theorem Ctx.wp_wep (c : Ctx) (i : BitVec 6) (v : BitVec 1024) : (c.wp i v).wep = c.wep := by unfold Ctx.wp; split <;> rfl
@[simp] theorem Ctx.wp_wpol (c : Ctx) (i : BitVec 6) (v : BitVec 1024) : (c.wp i v).wpol = c.wpol := by unfold Ctx.wp; split <;> rfl
@[simp] theorem Ctx.wp_wins (c : Ctx) (i : BitVec 6) (v : BitVec 1024) : (c.wp i v).wins = c.wins := by unfold Ctx.wp; split <;> rfl
@[simp] theorem Ctx.wp_nextWin (c : Ctx) (i : BitVec 6) (v : BitVec 1024) : (c.wp i v).nextWin = c.nextWin := by unfold Ctx.wp; split <;> rfl
@[simp] theorem Ctx.wp_held (c : Ctx) (i : BitVec 6) (v : BitVec 1024) : (c.wp i v).held = c.held := by unfold Ctx.wp; split <;> rfl
@[simp] theorem Ctx.wp_wstat (c : Ctx) (i : BitVec 6) (v : BitVec 1024) : (c.wp i v).wstat = c.wstat := by unfold Ctx.wp; split <;> rfl
@[simp] theorem Ctx.wp_epi (c : Ctx) (i : BitVec 6) (v : BitVec 1024) : (c.wp i v).epi = c.epi := by unfold Ctx.wp; split <;> rfl
@[simp] theorem Ctx.wp_nextTile (c : Ctx) (i : BitVec 6) (v : BitVec 1024) : (c.wp i v).nextTile = c.nextTile := by unfold Ctx.wp; split <;> rfl
@[simp] theorem Ctx.wp_deferred (c : Ctx) (i : BitVec 6) (v : BitVec 1024) : (c.wp i v).deferred = c.deferred := by unfold Ctx.wp; split <;> rfl
@[simp] theorem Ctx.wp_copy (c : Ctx) (i : BitVec 6) (v : BitVec 1024) : (c.wp i v).copy = c.copy := by unfold Ctx.wp; split <;> rfl
@[simp] theorem Ctx.wp_tilesFired (c : Ctx) (i : BitVec 6) (v : BitVec 1024) : (c.wp i v).tilesFired = c.tilesFired := by unfold Ctx.wp; split <;> rfl
@[simp] theorem Ctx.wp_tileFaults (c : Ctx) (i : BitVec 6) (v : BitVec 1024) : (c.wp i v).tileFaults = c.tileFaults := by unfold Ctx.wp; split <;> rfl
@[simp] theorem Ctx.wp_spad (c : Ctx) (i : BitVec 6) (v : BitVec 1024) : (c.wp i v).spad = c.spad := by unfold Ctx.wp; split <;> rfl

@[simp] theorem Ctx.wv_id (c : Ctx) (i : BitVec 4) (v : Image) : (c.wv i v).id = c.id := rfl
@[simp] theorem Ctx.wv_asid (c : Ctx) (i : BitVec 4) (v : Image) : (c.wv i v).asid = c.asid := rfl
@[simp] theorem Ctx.wv_node (c : Ctx) (i : BitVec 4) (v : Image) : (c.wv i v).node = c.node := rfl
@[simp] theorem Ctx.wv_place (c : Ctx) (i : BitVec 4) (v : Image) : (c.wv i v).place = c.place := rfl
@[simp] theorem Ctx.wv_status (c : Ctx) (i : BitVec 4) (v : Image) : (c.wv i v).status = c.status := rfl
@[simp] theorem Ctx.wv_debugStop (c : Ctx) (i : BitVec 4) (v : Image) : (c.wv i v).debugStop = c.debugStop := rfl
@[simp] theorem Ctx.wv_stopAt (c : Ctx) (i : BitVec 4) (v : Image) : (c.wv i v).stopAt = c.stopAt := rfl
@[simp] theorem Ctx.wv_acquires (c : Ctx) (i : BitVec 4) (v : Image) : (c.wv i v).acquires = c.acquires := rfl
@[simp] theorem Ctx.wv_lastDone (c : Ctx) (i : BitVec 4) (v : Image) : (c.wv i v).lastDone = c.lastDone := rfl
@[simp] theorem Ctx.wv_seqL (c : Ctx) (i : BitVec 4) (v : Image) : (c.wv i v).seqL = c.seqL := rfl
@[simp] theorem Ctx.wv_seqC (c : Ctx) (i : BitVec 4) (v : Image) : (c.wv i v).seqC = c.seqC := rfl
@[simp] theorem Ctx.wv_seqS (c : Ctx) (i : BitVec 4) (v : Image) : (c.wv i v).seqS = c.seqS := rfl
@[simp] theorem Ctx.wv_seqK (c : Ctx) (i : BitVec 4) (v : Image) : (c.wv i v).seqK = c.seqK := rfl
@[simp] theorem Ctx.wv_x (c : Ctx) (i : BitVec 4) (v : Image) : (c.wv i v).x = c.x := rfl
@[simp] theorem Ctx.wv_y (c : Ctx) (i : BitVec 4) (v : Image) : (c.wv i v).y = c.y := rfl
@[simp] theorem Ctx.wv_z (c : Ctx) (i : BitVec 4) (v : Image) : (c.wv i v).z = c.z := rfl
@[simp] theorem Ctx.wv_a (c : Ctx) (i : BitVec 4) (v : Image) : (c.wv i v).a = c.a := rfl
@[simp] theorem Ctx.wv_m (c : Ctx) (i : BitVec 4) (v : Image) : (c.wv i v).m = c.m := rfl
@[simp] theorem Ctx.wv_k (c : Ctx) (i : BitVec 4) (v : Image) : (c.wv i v).k = c.k := rfl
@[simp] theorem Ctx.wv_tok (c : Ctx) (i : BitVec 4) (v : Image) : (c.wv i v).tok = c.tok := rfl
@[simp] theorem Ctx.wv_cause (c : Ctx) (i : BitVec 4) (v : Image) : (c.wv i v).cause = c.cause := rfl
@[simp] theorem Ctx.wv_fpc (c : Ctx) (i : BitVec 4) (v : Image) : (c.wv i v).fpc = c.fpc := rfl
@[simp] theorem Ctx.wv_wdb (c : Ctx) (i : BitVec 4) (v : Image) : (c.wv i v).wdb = c.wdb := rfl
@[simp] theorem Ctx.wv_wpa (c : Ctx) (i : BitVec 4) (v : Image) : (c.wv i v).wpa = c.wpa := rfl
@[simp] theorem Ctx.wv_wpc (c : Ctx) (i : BitVec 4) (v : Image) : (c.wv i v).wpc = c.wpc := rfl
@[simp] theorem Ctx.wv_pbase (c : Ctx) (i : BitVec 4) (v : Image) : (c.wv i v).pbase = c.pbase := rfl
@[simp] theorem Ctx.wv_claim (c : Ctx) (i : BitVec 4) (v : Image) : (c.wv i v).claim = c.claim := rfl
@[simp] theorem Ctx.wv_planeDone (c : Ctx) (i : BitVec 4) (v : Image) : (c.wv i v).planeDone = c.planeDone := rfl
@[simp] theorem Ctx.wv_closed (c : Ctx) (i : BitVec 4) (v : Image) : (c.wv i v).closed = c.closed := rfl
@[simp] theorem Ctx.wv_arrived (c : Ctx) (i : BitVec 4) (v : Image) : (c.wv i v).arrived = c.arrived := rfl
@[simp] theorem Ctx.wv_remote (c : Ctx) (i : BitVec 4) (v : Image) : (c.wv i v).remote = c.remote := rfl
@[simp] theorem Ctx.wv_frameOut (c : Ctx) (i : BitVec 4) (v : Image) : (c.wv i v).frameOut = c.frameOut := rfl
@[simp] theorem Ctx.wv_lq (c : Ctx) (i : BitVec 4) (v : Image) : (c.wv i v).lq = c.lq := rfl
@[simp] theorem Ctx.wv_sq (c : Ctx) (i : BitVec 4) (v : Image) : (c.wv i v).sq = c.sq := rfl
@[simp] theorem Ctx.wv_oq (c : Ctx) (i : BitVec 4) (v : Image) : (c.wv i v).oq = c.oq := rfl
@[simp] theorem Ctx.wv_iq (c : Ctx) (i : BitVec 4) (v : Image) : (c.wv i v).iq = c.iq := rfl
@[simp] theorem Ctx.wv_p (c : Ctx) (i : BitVec 4) (v : Image) : (c.wv i v).p = c.p := rfl
@[simp] theorem Ctx.wv_t (c : Ctx) (i : BitVec 4) (v : Image) : (c.wv i v).t = c.t := rfl
@[simp] theorem Ctx.wv_bundles (c : Ctx) (i : BitVec 4) (v : Image) : (c.wv i v).bundles = c.bundles := rfl
@[simp] theorem Ctx.wv_sfu (c : Ctx) (i : BitVec 4) (v : Image) : (c.wv i v).sfu = c.sfu := rfl
@[simp] theorem Ctx.wv_streams (c : Ctx) (i : BitVec 4) (v : Image) : (c.wv i v).streams = c.streams := rfl
@[simp] theorem Ctx.wv_slots (c : Ctx) (i : BitVec 4) (v : Image) : (c.wv i v).slots = c.slots := rfl
@[simp] theorem Ctx.wv_bufs (c : Ctx) (i : BitVec 4) (v : Image) : (c.wv i v).bufs = c.bufs := rfl
@[simp] theorem Ctx.wv_acc (c : Ctx) (i : BitVec 4) (v : Image) : (c.wv i v).acc = c.acc := rfl
@[simp] theorem Ctx.wv_pacc (c : Ctx) (i : BitVec 4) (v : Image) : (c.wv i v).pacc = c.pacc := rfl
@[simp] theorem Ctx.wv_lvt (c : Ctx) (i : BitVec 4) (v : Image) : (c.wv i v).lvt = c.lvt := rfl
@[simp] theorem Ctx.wv_act (c : Ctx) (i : BitVec 4) (v : Image) : (c.wv i v).act = c.act := rfl
@[simp] theorem Ctx.wv_wsh (c : Ctx) (i : BitVec 4) (v : Image) : (c.wv i v).wsh = c.wsh := rfl
@[simp] theorem Ctx.wv_wep (c : Ctx) (i : BitVec 4) (v : Image) : (c.wv i v).wep = c.wep := rfl
@[simp] theorem Ctx.wv_wpol (c : Ctx) (i : BitVec 4) (v : Image) : (c.wv i v).wpol = c.wpol := rfl
@[simp] theorem Ctx.wv_wins (c : Ctx) (i : BitVec 4) (v : Image) : (c.wv i v).wins = c.wins := rfl
@[simp] theorem Ctx.wv_nextWin (c : Ctx) (i : BitVec 4) (v : Image) : (c.wv i v).nextWin = c.nextWin := rfl
@[simp] theorem Ctx.wv_held (c : Ctx) (i : BitVec 4) (v : Image) : (c.wv i v).held = c.held := rfl
@[simp] theorem Ctx.wv_wstat (c : Ctx) (i : BitVec 4) (v : Image) : (c.wv i v).wstat = c.wstat := rfl
@[simp] theorem Ctx.wv_epi (c : Ctx) (i : BitVec 4) (v : Image) : (c.wv i v).epi = c.epi := rfl
@[simp] theorem Ctx.wv_nextTile (c : Ctx) (i : BitVec 4) (v : Image) : (c.wv i v).nextTile = c.nextTile := rfl
@[simp] theorem Ctx.wv_deferred (c : Ctx) (i : BitVec 4) (v : Image) : (c.wv i v).deferred = c.deferred := rfl
@[simp] theorem Ctx.wv_copy (c : Ctx) (i : BitVec 4) (v : Image) : (c.wv i v).copy = c.copy := rfl
@[simp] theorem Ctx.wv_tilesFired (c : Ctx) (i : BitVec 4) (v : Image) : (c.wv i v).tilesFired = c.tilesFired := rfl
@[simp] theorem Ctx.wv_tileFaults (c : Ctx) (i : BitVec 4) (v : Image) : (c.wv i v).tileFaults = c.tileFaults := rfl
@[simp] theorem Ctx.wv_spad (c : Ctx) (i : BitVec 4) (v : Image) : (c.wv i v).spad = c.spad := rfl

@[simp] theorem Ctx.setTokens_id (c : Ctx) (i n : Nat) : (c.setTokens i n).id = c.id := by unfold Ctx.setTokens; split <;> rfl
@[simp] theorem Ctx.setTokens_asid (c : Ctx) (i n : Nat) : (c.setTokens i n).asid = c.asid := by unfold Ctx.setTokens; split <;> rfl
@[simp] theorem Ctx.setTokens_node (c : Ctx) (i n : Nat) : (c.setTokens i n).node = c.node := by unfold Ctx.setTokens; split <;> rfl
@[simp] theorem Ctx.setTokens_place (c : Ctx) (i n : Nat) : (c.setTokens i n).place = c.place := by unfold Ctx.setTokens; split <;> rfl
@[simp] theorem Ctx.setTokens_status (c : Ctx) (i n : Nat) : (c.setTokens i n).status = c.status := by unfold Ctx.setTokens; split <;> rfl
@[simp] theorem Ctx.setTokens_debugStop (c : Ctx) (i n : Nat) : (c.setTokens i n).debugStop = c.debugStop := by unfold Ctx.setTokens; split <;> rfl
@[simp] theorem Ctx.setTokens_stopAt (c : Ctx) (i n : Nat) : (c.setTokens i n).stopAt = c.stopAt := by unfold Ctx.setTokens; split <;> rfl
@[simp] theorem Ctx.setTokens_acquires (c : Ctx) (i n : Nat) : (c.setTokens i n).acquires = c.acquires := by unfold Ctx.setTokens; split <;> rfl
@[simp] theorem Ctx.setTokens_lastDone (c : Ctx) (i n : Nat) : (c.setTokens i n).lastDone = c.lastDone := by unfold Ctx.setTokens; split <;> rfl
@[simp] theorem Ctx.setTokens_seqL (c : Ctx) (i n : Nat) : (c.setTokens i n).seqL = c.seqL := by unfold Ctx.setTokens; split <;> rfl
@[simp] theorem Ctx.setTokens_seqC (c : Ctx) (i n : Nat) : (c.setTokens i n).seqC = c.seqC := by unfold Ctx.setTokens; split <;> rfl
@[simp] theorem Ctx.setTokens_seqS (c : Ctx) (i n : Nat) : (c.setTokens i n).seqS = c.seqS := by unfold Ctx.setTokens; split <;> rfl
@[simp] theorem Ctx.setTokens_seqK (c : Ctx) (i n : Nat) : (c.setTokens i n).seqK = c.seqK := by unfold Ctx.setTokens; split <;> rfl
@[simp] theorem Ctx.setTokens_x (c : Ctx) (i n : Nat) : (c.setTokens i n).x = c.x := by unfold Ctx.setTokens; split <;> rfl
@[simp] theorem Ctx.setTokens_y (c : Ctx) (i n : Nat) : (c.setTokens i n).y = c.y := by unfold Ctx.setTokens; split <;> rfl
@[simp] theorem Ctx.setTokens_z (c : Ctx) (i n : Nat) : (c.setTokens i n).z = c.z := by unfold Ctx.setTokens; split <;> rfl
@[simp] theorem Ctx.setTokens_a (c : Ctx) (i n : Nat) : (c.setTokens i n).a = c.a := by unfold Ctx.setTokens; split <;> rfl
@[simp] theorem Ctx.setTokens_m (c : Ctx) (i n : Nat) : (c.setTokens i n).m = c.m := by unfold Ctx.setTokens; split <;> rfl
@[simp] theorem Ctx.setTokens_k (c : Ctx) (i n : Nat) : (c.setTokens i n).k = c.k := by unfold Ctx.setTokens; split <;> rfl
@[simp] theorem Ctx.setTokens_cause (c : Ctx) (i n : Nat) : (c.setTokens i n).cause = c.cause := by unfold Ctx.setTokens; split <;> rfl
@[simp] theorem Ctx.setTokens_fpc (c : Ctx) (i n : Nat) : (c.setTokens i n).fpc = c.fpc := by unfold Ctx.setTokens; split <;> rfl
@[simp] theorem Ctx.setTokens_wdb (c : Ctx) (i n : Nat) : (c.setTokens i n).wdb = c.wdb := by unfold Ctx.setTokens; split <;> rfl
@[simp] theorem Ctx.setTokens_wpa (c : Ctx) (i n : Nat) : (c.setTokens i n).wpa = c.wpa := by unfold Ctx.setTokens; split <;> rfl
@[simp] theorem Ctx.setTokens_wpc (c : Ctx) (i n : Nat) : (c.setTokens i n).wpc = c.wpc := by unfold Ctx.setTokens; split <;> rfl
@[simp] theorem Ctx.setTokens_pbase (c : Ctx) (i n : Nat) : (c.setTokens i n).pbase = c.pbase := by unfold Ctx.setTokens; split <;> rfl
@[simp] theorem Ctx.setTokens_claim (c : Ctx) (i n : Nat) : (c.setTokens i n).claim = c.claim := by unfold Ctx.setTokens; split <;> rfl
@[simp] theorem Ctx.setTokens_planeDone (c : Ctx) (i n : Nat) : (c.setTokens i n).planeDone = c.planeDone := by unfold Ctx.setTokens; split <;> rfl
@[simp] theorem Ctx.setTokens_closed (c : Ctx) (i n : Nat) : (c.setTokens i n).closed = c.closed := by unfold Ctx.setTokens; split <;> rfl
@[simp] theorem Ctx.setTokens_arrived (c : Ctx) (i n : Nat) : (c.setTokens i n).arrived = c.arrived := by unfold Ctx.setTokens; split <;> rfl
@[simp] theorem Ctx.setTokens_remote (c : Ctx) (i n : Nat) : (c.setTokens i n).remote = c.remote := by unfold Ctx.setTokens; split <;> rfl
@[simp] theorem Ctx.setTokens_frameOut (c : Ctx) (i n : Nat) : (c.setTokens i n).frameOut = c.frameOut := by unfold Ctx.setTokens; split <;> rfl
@[simp] theorem Ctx.setTokens_lq (c : Ctx) (i n : Nat) : (c.setTokens i n).lq = c.lq := by unfold Ctx.setTokens; split <;> rfl
@[simp] theorem Ctx.setTokens_sq (c : Ctx) (i n : Nat) : (c.setTokens i n).sq = c.sq := by unfold Ctx.setTokens; split <;> rfl
@[simp] theorem Ctx.setTokens_oq (c : Ctx) (i n : Nat) : (c.setTokens i n).oq = c.oq := by unfold Ctx.setTokens; split <;> rfl
@[simp] theorem Ctx.setTokens_iq (c : Ctx) (i n : Nat) : (c.setTokens i n).iq = c.iq := by unfold Ctx.setTokens; split <;> rfl
@[simp] theorem Ctx.setTokens_v (c : Ctx) (i n : Nat) : (c.setTokens i n).v = c.v := by unfold Ctx.setTokens; split <;> rfl
@[simp] theorem Ctx.setTokens_p (c : Ctx) (i n : Nat) : (c.setTokens i n).p = c.p := by unfold Ctx.setTokens; split <;> rfl
@[simp] theorem Ctx.setTokens_t (c : Ctx) (i n : Nat) : (c.setTokens i n).t = c.t := by unfold Ctx.setTokens; split <;> rfl
@[simp] theorem Ctx.setTokens_bundles (c : Ctx) (i n : Nat) : (c.setTokens i n).bundles = c.bundles := by unfold Ctx.setTokens; split <;> rfl
@[simp] theorem Ctx.setTokens_sfu (c : Ctx) (i n : Nat) : (c.setTokens i n).sfu = c.sfu := by unfold Ctx.setTokens; split <;> rfl
@[simp] theorem Ctx.setTokens_streams (c : Ctx) (i n : Nat) : (c.setTokens i n).streams = c.streams := by unfold Ctx.setTokens; split <;> rfl
@[simp] theorem Ctx.setTokens_slots (c : Ctx) (i n : Nat) : (c.setTokens i n).slots = c.slots := by unfold Ctx.setTokens; split <;> rfl
@[simp] theorem Ctx.setTokens_bufs (c : Ctx) (i n : Nat) : (c.setTokens i n).bufs = c.bufs := by unfold Ctx.setTokens; split <;> rfl
@[simp] theorem Ctx.setTokens_acc (c : Ctx) (i n : Nat) : (c.setTokens i n).acc = c.acc := by unfold Ctx.setTokens; split <;> rfl
@[simp] theorem Ctx.setTokens_pacc (c : Ctx) (i n : Nat) : (c.setTokens i n).pacc = c.pacc := by unfold Ctx.setTokens; split <;> rfl
@[simp] theorem Ctx.setTokens_lvt (c : Ctx) (i n : Nat) : (c.setTokens i n).lvt = c.lvt := by unfold Ctx.setTokens; split <;> rfl
@[simp] theorem Ctx.setTokens_act (c : Ctx) (i n : Nat) : (c.setTokens i n).act = c.act := by unfold Ctx.setTokens; split <;> rfl
@[simp] theorem Ctx.setTokens_wsh (c : Ctx) (i n : Nat) : (c.setTokens i n).wsh = c.wsh := by unfold Ctx.setTokens; split <;> rfl
@[simp] theorem Ctx.setTokens_wep (c : Ctx) (i n : Nat) : (c.setTokens i n).wep = c.wep := by unfold Ctx.setTokens; split <;> rfl
@[simp] theorem Ctx.setTokens_wpol (c : Ctx) (i n : Nat) : (c.setTokens i n).wpol = c.wpol := by unfold Ctx.setTokens; split <;> rfl
@[simp] theorem Ctx.setTokens_wins (c : Ctx) (i n : Nat) : (c.setTokens i n).wins = c.wins := by unfold Ctx.setTokens; split <;> rfl
@[simp] theorem Ctx.setTokens_nextWin (c : Ctx) (i n : Nat) : (c.setTokens i n).nextWin = c.nextWin := by unfold Ctx.setTokens; split <;> rfl
@[simp] theorem Ctx.setTokens_held (c : Ctx) (i n : Nat) : (c.setTokens i n).held = c.held := by unfold Ctx.setTokens; split <;> rfl
@[simp] theorem Ctx.setTokens_wstat (c : Ctx) (i n : Nat) : (c.setTokens i n).wstat = c.wstat := by unfold Ctx.setTokens; split <;> rfl
@[simp] theorem Ctx.setTokens_epi (c : Ctx) (i n : Nat) : (c.setTokens i n).epi = c.epi := by unfold Ctx.setTokens; split <;> rfl
@[simp] theorem Ctx.setTokens_nextTile (c : Ctx) (i n : Nat) : (c.setTokens i n).nextTile = c.nextTile := by unfold Ctx.setTokens; split <;> rfl
@[simp] theorem Ctx.setTokens_deferred (c : Ctx) (i n : Nat) : (c.setTokens i n).deferred = c.deferred := by unfold Ctx.setTokens; split <;> rfl
@[simp] theorem Ctx.setTokens_copy (c : Ctx) (i n : Nat) : (c.setTokens i n).copy = c.copy := by unfold Ctx.setTokens; split <;> rfl
@[simp] theorem Ctx.setTokens_tilesFired (c : Ctx) (i n : Nat) : (c.setTokens i n).tilesFired = c.tilesFired := by unfold Ctx.setTokens; split <;> rfl
@[simp] theorem Ctx.setTokens_tileFaults (c : Ctx) (i n : Nat) : (c.setTokens i n).tileFaults = c.tileFaults := by unfold Ctx.setTokens; split <;> rfl
@[simp] theorem Ctx.setTokens_spad (c : Ctx) (i n : Nat) : (c.setTokens i n).spad = c.spad := by unfold Ctx.setTokens; split <;> rfl

/-! ## A sequencer of a context -/

@[simp] theorem Ctx.updSeq_id (c : Ctx) (q : SeqId) (g : SeqState → SeqState) : (c.updSeq q g).id = c.id := by cases q <;> rfl
@[simp] theorem Ctx.updSeq_asid (c : Ctx) (q : SeqId) (g : SeqState → SeqState) : (c.updSeq q g).asid = c.asid := by cases q <;> rfl
@[simp] theorem Ctx.updSeq_node (c : Ctx) (q : SeqId) (g : SeqState → SeqState) : (c.updSeq q g).node = c.node := by cases q <;> rfl
@[simp] theorem Ctx.updSeq_place (c : Ctx) (q : SeqId) (g : SeqState → SeqState) : (c.updSeq q g).place = c.place := by cases q <;> rfl
@[simp] theorem Ctx.updSeq_status (c : Ctx) (q : SeqId) (g : SeqState → SeqState) : (c.updSeq q g).status = c.status := by cases q <;> rfl
@[simp] theorem Ctx.updSeq_debugStop (c : Ctx) (q : SeqId) (g : SeqState → SeqState) : (c.updSeq q g).debugStop = c.debugStop := by cases q <;> rfl
@[simp] theorem Ctx.updSeq_stopAt (c : Ctx) (q : SeqId) (g : SeqState → SeqState) : (c.updSeq q g).stopAt = c.stopAt := by cases q <;> rfl
@[simp] theorem Ctx.updSeq_acquires (c : Ctx) (q : SeqId) (g : SeqState → SeqState) : (c.updSeq q g).acquires = c.acquires := by cases q <;> rfl
@[simp] theorem Ctx.updSeq_lastDone (c : Ctx) (q : SeqId) (g : SeqState → SeqState) : (c.updSeq q g).lastDone = c.lastDone := by cases q <;> rfl
@[simp] theorem Ctx.updSeq_x (c : Ctx) (q : SeqId) (g : SeqState → SeqState) : (c.updSeq q g).x = c.x := by cases q <;> rfl
@[simp] theorem Ctx.updSeq_y (c : Ctx) (q : SeqId) (g : SeqState → SeqState) : (c.updSeq q g).y = c.y := by cases q <;> rfl
@[simp] theorem Ctx.updSeq_z (c : Ctx) (q : SeqId) (g : SeqState → SeqState) : (c.updSeq q g).z = c.z := by cases q <;> rfl
@[simp] theorem Ctx.updSeq_a (c : Ctx) (q : SeqId) (g : SeqState → SeqState) : (c.updSeq q g).a = c.a := by cases q <;> rfl
@[simp] theorem Ctx.updSeq_m (c : Ctx) (q : SeqId) (g : SeqState → SeqState) : (c.updSeq q g).m = c.m := by cases q <;> rfl
@[simp] theorem Ctx.updSeq_k (c : Ctx) (q : SeqId) (g : SeqState → SeqState) : (c.updSeq q g).k = c.k := by cases q <;> rfl
@[simp] theorem Ctx.updSeq_tok (c : Ctx) (q : SeqId) (g : SeqState → SeqState) : (c.updSeq q g).tok = c.tok := by cases q <;> rfl
@[simp] theorem Ctx.updSeq_cause (c : Ctx) (q : SeqId) (g : SeqState → SeqState) : (c.updSeq q g).cause = c.cause := by cases q <;> rfl
@[simp] theorem Ctx.updSeq_fpc (c : Ctx) (q : SeqId) (g : SeqState → SeqState) : (c.updSeq q g).fpc = c.fpc := by cases q <;> rfl
@[simp] theorem Ctx.updSeq_wdb (c : Ctx) (q : SeqId) (g : SeqState → SeqState) : (c.updSeq q g).wdb = c.wdb := by cases q <;> rfl
@[simp] theorem Ctx.updSeq_wpa (c : Ctx) (q : SeqId) (g : SeqState → SeqState) : (c.updSeq q g).wpa = c.wpa := by cases q <;> rfl
@[simp] theorem Ctx.updSeq_wpc (c : Ctx) (q : SeqId) (g : SeqState → SeqState) : (c.updSeq q g).wpc = c.wpc := by cases q <;> rfl
@[simp] theorem Ctx.updSeq_pbase (c : Ctx) (q : SeqId) (g : SeqState → SeqState) : (c.updSeq q g).pbase = c.pbase := by cases q <;> rfl
@[simp] theorem Ctx.updSeq_claim (c : Ctx) (q : SeqId) (g : SeqState → SeqState) : (c.updSeq q g).claim = c.claim := by cases q <;> rfl
@[simp] theorem Ctx.updSeq_planeDone (c : Ctx) (q : SeqId) (g : SeqState → SeqState) : (c.updSeq q g).planeDone = c.planeDone := by cases q <;> rfl
@[simp] theorem Ctx.updSeq_closed (c : Ctx) (q : SeqId) (g : SeqState → SeqState) : (c.updSeq q g).closed = c.closed := by cases q <;> rfl
@[simp] theorem Ctx.updSeq_arrived (c : Ctx) (q : SeqId) (g : SeqState → SeqState) : (c.updSeq q g).arrived = c.arrived := by cases q <;> rfl
@[simp] theorem Ctx.updSeq_remote (c : Ctx) (q : SeqId) (g : SeqState → SeqState) : (c.updSeq q g).remote = c.remote := by cases q <;> rfl
@[simp] theorem Ctx.updSeq_frameOut (c : Ctx) (q : SeqId) (g : SeqState → SeqState) : (c.updSeq q g).frameOut = c.frameOut := by cases q <;> rfl
@[simp] theorem Ctx.updSeq_lq (c : Ctx) (q : SeqId) (g : SeqState → SeqState) : (c.updSeq q g).lq = c.lq := by cases q <;> rfl
@[simp] theorem Ctx.updSeq_sq (c : Ctx) (q : SeqId) (g : SeqState → SeqState) : (c.updSeq q g).sq = c.sq := by cases q <;> rfl
@[simp] theorem Ctx.updSeq_oq (c : Ctx) (q : SeqId) (g : SeqState → SeqState) : (c.updSeq q g).oq = c.oq := by cases q <;> rfl
@[simp] theorem Ctx.updSeq_iq (c : Ctx) (q : SeqId) (g : SeqState → SeqState) : (c.updSeq q g).iq = c.iq := by cases q <;> rfl
@[simp] theorem Ctx.updSeq_v (c : Ctx) (q : SeqId) (g : SeqState → SeqState) : (c.updSeq q g).v = c.v := by cases q <;> rfl
@[simp] theorem Ctx.updSeq_p (c : Ctx) (q : SeqId) (g : SeqState → SeqState) : (c.updSeq q g).p = c.p := by cases q <;> rfl
@[simp] theorem Ctx.updSeq_t (c : Ctx) (q : SeqId) (g : SeqState → SeqState) : (c.updSeq q g).t = c.t := by cases q <;> rfl
@[simp] theorem Ctx.updSeq_bundles (c : Ctx) (q : SeqId) (g : SeqState → SeqState) : (c.updSeq q g).bundles = c.bundles := by cases q <;> rfl
@[simp] theorem Ctx.updSeq_sfu (c : Ctx) (q : SeqId) (g : SeqState → SeqState) : (c.updSeq q g).sfu = c.sfu := by cases q <;> rfl
@[simp] theorem Ctx.updSeq_streams (c : Ctx) (q : SeqId) (g : SeqState → SeqState) : (c.updSeq q g).streams = c.streams := by cases q <;> rfl
@[simp] theorem Ctx.updSeq_slots (c : Ctx) (q : SeqId) (g : SeqState → SeqState) : (c.updSeq q g).slots = c.slots := by cases q <;> rfl
@[simp] theorem Ctx.updSeq_bufs (c : Ctx) (q : SeqId) (g : SeqState → SeqState) : (c.updSeq q g).bufs = c.bufs := by cases q <;> rfl
@[simp] theorem Ctx.updSeq_acc (c : Ctx) (q : SeqId) (g : SeqState → SeqState) : (c.updSeq q g).acc = c.acc := by cases q <;> rfl
@[simp] theorem Ctx.updSeq_pacc (c : Ctx) (q : SeqId) (g : SeqState → SeqState) : (c.updSeq q g).pacc = c.pacc := by cases q <;> rfl
@[simp] theorem Ctx.updSeq_lvt (c : Ctx) (q : SeqId) (g : SeqState → SeqState) : (c.updSeq q g).lvt = c.lvt := by cases q <;> rfl
@[simp] theorem Ctx.updSeq_act (c : Ctx) (q : SeqId) (g : SeqState → SeqState) : (c.updSeq q g).act = c.act := by cases q <;> rfl
@[simp] theorem Ctx.updSeq_wsh (c : Ctx) (q : SeqId) (g : SeqState → SeqState) : (c.updSeq q g).wsh = c.wsh := by cases q <;> rfl
@[simp] theorem Ctx.updSeq_wep (c : Ctx) (q : SeqId) (g : SeqState → SeqState) : (c.updSeq q g).wep = c.wep := by cases q <;> rfl
@[simp] theorem Ctx.updSeq_wpol (c : Ctx) (q : SeqId) (g : SeqState → SeqState) : (c.updSeq q g).wpol = c.wpol := by cases q <;> rfl
@[simp] theorem Ctx.updSeq_wins (c : Ctx) (q : SeqId) (g : SeqState → SeqState) : (c.updSeq q g).wins = c.wins := by cases q <;> rfl
@[simp] theorem Ctx.updSeq_nextWin (c : Ctx) (q : SeqId) (g : SeqState → SeqState) : (c.updSeq q g).nextWin = c.nextWin := by cases q <;> rfl
@[simp] theorem Ctx.updSeq_held (c : Ctx) (q : SeqId) (g : SeqState → SeqState) : (c.updSeq q g).held = c.held := by cases q <;> rfl
@[simp] theorem Ctx.updSeq_wstat (c : Ctx) (q : SeqId) (g : SeqState → SeqState) : (c.updSeq q g).wstat = c.wstat := by cases q <;> rfl
@[simp] theorem Ctx.updSeq_epi (c : Ctx) (q : SeqId) (g : SeqState → SeqState) : (c.updSeq q g).epi = c.epi := by cases q <;> rfl
@[simp] theorem Ctx.updSeq_nextTile (c : Ctx) (q : SeqId) (g : SeqState → SeqState) : (c.updSeq q g).nextTile = c.nextTile := by cases q <;> rfl
@[simp] theorem Ctx.updSeq_deferred (c : Ctx) (q : SeqId) (g : SeqState → SeqState) : (c.updSeq q g).deferred = c.deferred := by cases q <;> rfl
@[simp] theorem Ctx.updSeq_copy (c : Ctx) (q : SeqId) (g : SeqState → SeqState) : (c.updSeq q g).copy = c.copy := by cases q <;> rfl
@[simp] theorem Ctx.updSeq_tilesFired (c : Ctx) (q : SeqId) (g : SeqState → SeqState) : (c.updSeq q g).tilesFired = c.tilesFired := by cases q <;> rfl
@[simp] theorem Ctx.updSeq_tileFaults (c : Ctx) (q : SeqId) (g : SeqState → SeqState) : (c.updSeq q g).tileFaults = c.tileFaults := by cases q <;> rfl
@[simp] theorem Ctx.updSeq_spad (c : Ctx) (q : SeqId) (g : SeqState → SeqState) : (c.updSeq q g).spad = c.spad := by cases q <;> rfl

@[simp] theorem Ctx.updSeq_seq (c : Ctx) (q : SeqId) (g : SeqState → SeqState) : (c.updSeq q g).seq q = g (c.seq q) := by cases q <;> rfl
@[simp] theorem Ctx.updSeq_seq_ne (c : Ctx) {q r : SeqId} (h : r ≠ q) (g : SeqState → SeqState) : (c.updSeq q g).seq r = c.seq r := by
  cases q <;> cases r <;> first | rfl | exact absurd rfl h
@[simp] theorem Ctx.wx_seq (c : Ctx) (i : BitVec 5) (v : DWord) (q : SeqId) : (c.wx i v).seq q = c.seq q := by cases q <;> simp [Ctx.seq]
@[simp] theorem Ctx.wy_seq (c : Ctx) (i : BitVec 4) (v : DWord) (q : SeqId) : (c.wy i v).seq q = c.seq q := by cases q <;> simp [Ctx.seq]
@[simp] theorem Ctx.wz_seq (c : Ctx) (i : BitVec 4) (v : DWord) (q : SeqId) : (c.wz i v).seq q = c.seq q := by cases q <;> simp [Ctx.seq]
@[simp] theorem Ctx.wa_seq (c : Ctx) (i : BitVec 4) (v : DWord) (q : SeqId) : (c.wa i v).seq q = c.seq q := by cases q <;> simp [Ctx.seq]
@[simp] theorem Ctx.wp_seq (c : Ctx) (i : BitVec 6) (v : BitVec 1024) (q : SeqId) : (c.wp i v).seq q = c.seq q := by cases q <;> simp [Ctx.seq]
@[simp] theorem Ctx.wv_seq (c : Ctx) (i : BitVec 4) (v : Image) (q : SeqId) : (c.wv i v).seq q = c.seq q := by cases q <;> rfl
@[simp] theorem Ctx.setTokens_seq (c : Ctx) (i n : Nat) (q : SeqId) : (c.setTokens i n).seq q = c.seq q := by cases q <;> simp [Ctx.seq]

/-! ## Reading what was written -/

theorem Regs.get_set_same {k w : Nat} (r : Regs k w) (i : BitVec k) (v : BitVec w) : (r.set i v).get i = v :=
  Vector.getElem_set_self i.isLt
theorem Regs.get_set_ne {k w : Nat} (r : Regs k w) {i j : BitVec k} (h : j ≠ i) (v : BitVec w) : (r.set i v).get j = r.get j := by
  exact Vector.getElem_set_ne i.isLt j.isLt (fun e => h (BitVec.eq_of_toNat_eq e.symm))

/-- Register 0 reads zero, whatever is written. -/
@[simp] theorem Ctx.rx_zero (c : Ctx) : c.rx 0 = 0 := rfl
/-- A write to register 0 is ignored. -/
@[simp] theorem Ctx.wx_zero (c : Ctx) (v : DWord) : c.wx 0 v = c := rfl
theorem Ctx.rx_wx (c : Ctx) (i j : BitVec 5) (v : DWord) : (c.wx i v).rx j = if j = i ∧ i ≠ 0 then v else c.rx j := by
  unfold Ctx.rx Ctx.wx
  by_cases hi : i = 0
  · rw [if_pos hi]; simp only [hi, ne_eq, not_true_eq_false, and_false, if_false]
  · rw [if_neg hi]
    by_cases hj : j = i
    · rw [hj, if_neg hi, if_pos ⟨rfl, hi⟩]; exact Regs.get_set_same _ _ _
    · dsimp only; rw [Regs.get_set_ne _ hj, if_neg (fun h : j = i ∧ i ≠ 0 => hj h.1)]
/-- Register 0 reads zero, whatever is written. -/
@[simp] theorem Ctx.ry_zero (c : Ctx) : c.ry 0 = 0 := rfl
/-- A write to register 0 is ignored. -/
@[simp] theorem Ctx.wy_zero (c : Ctx) (v : DWord) : c.wy 0 v = c := rfl
theorem Ctx.ry_wy (c : Ctx) (i j : BitVec 4) (v : DWord) : (c.wy i v).ry j = if j = i ∧ i ≠ 0 then v else c.ry j := by
  unfold Ctx.ry Ctx.wy
  by_cases hi : i = 0
  · rw [if_pos hi]; simp only [hi, ne_eq, not_true_eq_false, and_false, if_false]
  · rw [if_neg hi]
    by_cases hj : j = i
    · rw [hj, if_neg hi, if_pos ⟨rfl, hi⟩]; exact Regs.get_set_same _ _ _
    · dsimp only; rw [Regs.get_set_ne _ hj, if_neg (fun h : j = i ∧ i ≠ 0 => hj h.1)]
/-- Register 0 reads zero, whatever is written. -/
@[simp] theorem Ctx.rz_zero (c : Ctx) : c.rz 0 = 0 := rfl
/-- A write to register 0 is ignored. -/
@[simp] theorem Ctx.wz_zero (c : Ctx) (v : DWord) : c.wz 0 v = c := rfl
theorem Ctx.rz_wz (c : Ctx) (i j : BitVec 4) (v : DWord) : (c.wz i v).rz j = if j = i ∧ i ≠ 0 then v else c.rz j := by
  unfold Ctx.rz Ctx.wz
  by_cases hi : i = 0
  · rw [if_pos hi]; simp only [hi, ne_eq, not_true_eq_false, and_false, if_false]
  · rw [if_neg hi]
    by_cases hj : j = i
    · rw [hj, if_neg hi, if_pos ⟨rfl, hi⟩]; exact Regs.get_set_same _ _ _
    · dsimp only; rw [Regs.get_set_ne _ hj, if_neg (fun h : j = i ∧ i ≠ 0 => hj h.1)]
/-- Register 0 reads zero, whatever is written. -/
@[simp] theorem Ctx.ra_zero (c : Ctx) : c.ra 0 = 0 := rfl
/-- A write to register 0 is ignored. -/
@[simp] theorem Ctx.wa_zero (c : Ctx) (v : DWord) : c.wa 0 v = c := rfl
theorem Ctx.ra_wa (c : Ctx) (i j : BitVec 4) (v : DWord) : (c.wa i v).ra j = if j = i ∧ i ≠ 0 then v else c.ra j := by
  unfold Ctx.ra Ctx.wa
  by_cases hi : i = 0
  · rw [if_pos hi]; simp only [hi, ne_eq, not_true_eq_false, and_false, if_false]
  · rw [if_neg hi]
    by_cases hj : j = i
    · rw [hj, if_neg hi, if_pos ⟨rfl, hi⟩]; exact Regs.get_set_same _ _ _
    · dsimp only; rw [Regs.get_set_ne _ hj, if_neg (fun h : j = i ∧ i ≠ 0 => hj h.1)]

/-! ## The state -/

@[simp] theorem State.updCtx_cur (s : State) (c : CtxId) (g : Ctx → Ctx) : (s.updCtx c g).cur = s.cur := by unfold State.updCtx; split <;> rfl
@[simp] theorem State.updCtx_agenda (s : State) (c : CtxId) (g : Ctx → Ctx) : (s.updCtx c g).agenda = s.agenda := by unfold State.updCtx; split <;> rfl
@[simp] theorem State.updCtx_ticks (s : State) (c : CtxId) (g : Ctx → Ctx) : (s.updCtx c g).ticks = s.ticks := by unfold State.updCtx; split <;> rfl
@[simp] theorem State.updCtx_bun (s : State) (c : CtxId) (g : Ctx → Ctx) : (s.updCtx c g).bun = s.bun := by unfold State.updCtx; split <;> rfl
@[simp] theorem State.updCtx_dev (s : State) (c : CtxId) (g : Ctx → Ctx) : (s.updCtx c g).dev = s.dev := by unfold State.updCtx; split <;> rfl
@[simp] theorem State.updCtx_clock (s : State) (c : CtxId) (g : Ctx → Ctx) : (s.updCtx c g).clock = s.clock := by unfold State.updCtx; split <;> rfl
@[simp] theorem State.updCtx_spares (s : State) (c : CtxId) (g : Ctx → Ctx) : (s.updCtx c g).spares = s.spares := by unfold State.updCtx; split <;> rfl
@[simp] theorem State.updCtx_bcw (s : State) (c : CtxId) (g : Ctx → Ctx) : (s.updCtx c g).bcw = s.bcw := by unfold State.updCtx; split <;> rfl
@[simp] theorem State.updCtx_cores (s : State) (c : CtxId) (g : Ctx → Ctx) : (s.updCtx c g).cores = s.cores := by unfold State.updCtx; split <;> rfl
@[simp] theorem State.updCtx_mem (s : State) (c : CtxId) (g : Ctx → Ctx) : (s.updCtx c g).mem = s.mem := by unfold State.updCtx; split <;> rfl
@[simp] theorem State.updCtx_tags (s : State) (c : CtxId) (g : Ctx → Ctx) : (s.updCtx c g).tags = s.tags := by unfold State.updCtx; split <;> rfl
@[simp] theorem State.updCtx_asids (s : State) (c : CtxId) (g : Ctx → Ctx) : (s.updCtx c g).asids = s.asids := by unfold State.updCtx; split <;> rfl
@[simp] theorem State.updCtx_l2 (s : State) (c : CtxId) (g : Ctx → Ctx) : (s.updCtx c g).l2 = s.l2 := by unfold State.updCtx; split <;> rfl
@[simp] theorem State.updCtx_tiles (s : State) (c : CtxId) (g : Ctx → Ctx) : (s.updCtx c g).tiles = s.tiles := by unfold State.updCtx; split <;> rfl
@[simp] theorem State.updCtx_pins (s : State) (c : CtxId) (g : Ctx → Ctx) : (s.updCtx c g).pins = s.pins := by unfold State.updCtx; split <;> rfl
@[simp] theorem State.updCtx_spareCores (s : State) (c : CtxId) (g : Ctx → Ctx) : (s.updCtx c g).spareCores = s.spareCores := by unfold State.updCtx; split <;> rfl
@[simp] theorem State.updCtx_withdrawn (s : State) (c : CtxId) (g : Ctx → Ctx) : (s.updCtx c g).withdrawn = s.withdrawn := by unfold State.updCtx; split <;> rfl
@[simp] theorem State.updCtx_bank1 (s : State) (c : CtxId) (g : Ctx → Ctx) : (s.updCtx c g).bank1 = s.bank1 := by unfold State.updCtx; split <;> rfl
@[simp] theorem State.updCtx_launches (s : State) (c : CtxId) (g : Ctx → Ctx) : (s.updCtx c g).launches = s.launches := by unfold State.updCtx; split <;> rfl
@[simp] theorem State.updCtx_nextLaunch (s : State) (c : CtxId) (g : Ctx → Ctx) : (s.updCtx c g).nextLaunch = s.nextLaunch := by unfold State.updCtx; split <;> rfl
@[simp] theorem State.updCtx_hits (s : State) (c : CtxId) (g : Ctx → Ctx) : (s.updCtx c g).hits = s.hits := by unfold State.updCtx; split <;> rfl
@[simp] theorem State.updCtx_slots (s : State) (c : CtxId) (g : Ctx → Ctx) : (s.updCtx c g).slots = s.slots := by unfold State.updCtx; split <;> rfl
@[simp] theorem State.updCtx_reports (s : State) (c : CtxId) (g : Ctx → Ctx) : (s.updCtx c g).reports = s.reports := by unfold State.updCtx; split <;> rfl
@[simp] theorem State.updCtx_urgent (s : State) (c : CtxId) (g : Ctx → Ctx) : (s.updCtx c g).urgent = s.urgent := by unfold State.updCtx; split <;> rfl
@[simp] theorem State.updCtx_dies (s : State) (c : CtxId) (g : Ctx → Ctx) : (s.updCtx c g).dies = s.dies := by unfold State.updCtx; split <;> rfl
@[simp] theorem State.updCtx_pools (s : State) (c : CtxId) (g : Ctx → Ctx) : (s.updCtx c g).pools = s.pools := by unfold State.updCtx; split <;> rfl
@[simp] theorem State.updCtx_intervals (s : State) (c : CtxId) (g : Ctx → Ctx) : (s.updCtx c g).intervals = s.intervals := by unfold State.updCtx; split <;> rfl
@[simp] theorem State.updCtx_present (s : State) (c : CtxId) (g : Ctx → Ctx) : (s.updCtx c g).present = s.present := by unfold State.updCtx; split <;> rfl
@[simp] theorem State.updCtx_table (s : State) (c : CtxId) (g : Ctx → Ctx) : (s.updCtx c g).table = s.table := by unfold State.updCtx; split <;> rfl
@[simp] theorem State.updCtx_frozenTiles (s : State) (c : CtxId) (g : Ctx → Ctx) : (s.updCtx c g).frozenTiles = s.frozenTiles := by unfold State.updCtx; split <;> rfl
@[simp] theorem State.updCtx_plan (s : State) (c : CtxId) (g : Ctx → Ctx) : (s.updCtx c g).plan = s.plan := by unfold State.updCtx; split <;> rfl
@[simp] theorem State.updCtx_snapshots (s : State) (c : CtxId) (g : Ctx → Ctx) : (s.updCtx c g).snapshots = s.snapshots := by unfold State.updCtx; split <;> rfl
@[simp] theorem State.updCtx_light (s : State) (c : CtxId) (g : Ctx → Ctx) : (s.updCtx c g).light = s.light := by unfold State.updCtx; split <;> rfl
@[simp] theorem State.updCtx_exportMask (s : State) (c : CtxId) (g : Ctx → Ctx) : (s.updCtx c g).exportMask = s.exportMask := by unfold State.updCtx; split <;> rfl
@[simp] theorem State.updCtx_fibreUp (s : State) (c : CtxId) (g : Ctx → Ctx) : (s.updCtx c g).fibreUp = s.fibreUp := by unfold State.updCtx; split <;> rfl
@[simp] theorem State.updCtx_peers (s : State) (c : CtxId) (g : Ctx → Ctx) : (s.updCtx c g).peers = s.peers := by unfold State.updCtx; split <;> rfl
@[simp] theorem State.updCtx_exporter (s : State) (c : CtxId) (g : Ctx → Ctx) : (s.updCtx c g).exporter = s.exporter := by unfold State.updCtx; split <;> rfl
@[simp] theorem State.updCtx_peerWaves (s : State) (c : CtxId) (g : Ctx → Ctx) : (s.updCtx c g).peerWaves = s.peerWaves := by unfold State.updCtx; split <;> rfl
@[simp] theorem State.updCtx_laser (s : State) (c : CtxId) (g : Ctx → Ctx) : (s.updCtx c g).laser = s.laser := by unfold State.updCtx; split <;> rfl
@[simp] theorem State.updCtx_calibrated (s : State) (c : CtxId) (g : Ctx → Ctx) : (s.updCtx c g).calibrated = s.calibrated := by unfold State.updCtx; split <;> rfl
@[simp] theorem State.updCtx_drifted (s : State) (c : CtxId) (g : Ctx → Ctx) : (s.updCtx c g).drifted = s.drifted := by unfold State.updCtx; split <;> rfl
@[simp] theorem State.updCtx_skewed (s : State) (c : CtxId) (g : Ctx → Ctx) : (s.updCtx c g).skewed = s.skewed := by unfold State.updCtx; split <;> rfl
@[simp] theorem State.updCtx_spareLaser (s : State) (c : CtxId) (g : Ctx → Ctx) : (s.updCtx c g).spareLaser = s.spareLaser := by unfold State.updCtx; split <;> rfl
@[simp] theorem State.updCtx_spareLines (s : State) (c : CtxId) (g : Ctx → Ctx) : (s.updCtx c g).spareLines = s.spareLines := by unfold State.updCtx; split <;> rfl
@[simp] theorem State.updCtx_columnsUsed (s : State) (c : CtxId) (g : Ctx → Ctx) : (s.updCtx c g).columnsUsed = s.columnsUsed := by unfold State.updCtx; split <;> rfl
@[simp] theorem State.updCtx_spareChannels (s : State) (c : CtxId) (g : Ctx → Ctx) : (s.updCtx c g).spareChannels = s.spareChannels := by unfold State.updCtx; split <;> rfl
@[simp] theorem State.updCtx_lanesFailed (s : State) (c : CtxId) (g : Ctx → Ctx) : (s.updCtx c g).lanesFailed = s.lanesFailed := by unfold State.updCtx; split <;> rfl
@[simp] theorem State.updCtx_firstWrites (s : State) (c : CtxId) (g : Ctx → Ctx) : (s.updCtx c g).firstWrites = s.firstWrites := by unfold State.updCtx; split <;> rfl
@[simp] theorem State.updCtx_held (s : State) (c : CtxId) (g : Ctx → Ctx) : (s.updCtx c g).held = s.held := by unfold State.updCtx; split <;> rfl
@[simp] theorem State.updCtx_boot (s : State) (c : CtxId) (g : Ctx → Ctx) : (s.updCtx c g).boot = s.boot := by unfold State.updCtx; split <;> rfl
@[simp] theorem State.updCtx_fail (s : State) (c : CtxId) (g : Ctx → Ctx) : (s.updCtx c g).fail = s.fail := by unfold State.updCtx; split <;> rfl
@[simp] theorem State.updCtx_bootSteps (s : State) (c : CtxId) (g : Ctx → Ctx) : (s.updCtx c g).bootSteps = s.bootSteps := by unfold State.updCtx; split <;> rfl
@[simp] theorem State.updCtx_images (s : State) (c : CtxId) (g : Ctx → Ctx) : (s.updCtx c g).images = s.images := by unfold State.updCtx; split <;> rfl
@[simp] theorem State.updCtx_rollback (s : State) (c : CtxId) (g : Ctx → Ctx) : (s.updCtx c g).rollback = s.rollback := by unfold State.updCtx; split <;> rfl
@[simp] theorem State.updCtx_attested (s : State) (c : CtxId) (g : Ctx → Ctx) : (s.updCtx c g).attested = s.attested := by unfold State.updCtx; split <;> rfl
@[simp] theorem State.updCtx_subBase (s : State) (c : CtxId) (g : Ctx → Ctx) : (s.updCtx c g).subBase = s.subBase := by unfold State.updCtx; split <;> rfl
@[simp] theorem State.updCtx_subNext (s : State) (c : CtxId) (g : Ctx → Ctx) : (s.updCtx c g).subNext = s.subNext := by unfold State.updCtx; split <;> rfl
@[simp] theorem State.updCtx_mbox (s : State) (c : CtxId) (g : Ctx → Ctx) : (s.updCtx c g).mbox = s.mbox := by unfold State.updCtx; split <;> rfl

@[simp] theorem State.focus_cur (s : State) (c : CtxId) : (s.focus c).cur = s.cur := by unfold State.focus; split <;> first | rfl | (split <;> rfl)
@[simp] theorem State.focus_agenda (s : State) (c : CtxId) : (s.focus c).agenda = s.agenda := by unfold State.focus; split <;> first | rfl | (split <;> rfl)
@[simp] theorem State.focus_ticks (s : State) (c : CtxId) : (s.focus c).ticks = s.ticks := by unfold State.focus; split <;> first | rfl | (split <;> rfl)
@[simp] theorem State.focus_bun (s : State) (c : CtxId) : (s.focus c).bun = s.bun := by unfold State.focus; split <;> first | rfl | (split <;> rfl)
@[simp] theorem State.focus_dev (s : State) (c : CtxId) : (s.focus c).dev = s.dev := by unfold State.focus; split <;> first | rfl | (split <;> rfl)
@[simp] theorem State.focus_clock (s : State) (c : CtxId) : (s.focus c).clock = s.clock := by unfold State.focus; split <;> first | rfl | (split <;> rfl)
@[simp] theorem State.focus_spares (s : State) (c : CtxId) : (s.focus c).spares = s.spares := by unfold State.focus; split <;> first | rfl | (split <;> rfl)
@[simp] theorem State.focus_bcw (s : State) (c : CtxId) : (s.focus c).bcw = s.bcw := by unfold State.focus; split <;> first | rfl | (split <;> rfl)
@[simp] theorem State.focus_cores (s : State) (c : CtxId) : (s.focus c).cores = s.cores := by unfold State.focus; split <;> first | rfl | (split <;> rfl)
@[simp] theorem State.focus_mem (s : State) (c : CtxId) : (s.focus c).mem = s.mem := by unfold State.focus; split <;> first | rfl | (split <;> rfl)
@[simp] theorem State.focus_tags (s : State) (c : CtxId) : (s.focus c).tags = s.tags := by unfold State.focus; split <;> first | rfl | (split <;> rfl)
@[simp] theorem State.focus_asids (s : State) (c : CtxId) : (s.focus c).asids = s.asids := by unfold State.focus; split <;> first | rfl | (split <;> rfl)
@[simp] theorem State.focus_l2 (s : State) (c : CtxId) : (s.focus c).l2 = s.l2 := by unfold State.focus; split <;> first | rfl | (split <;> rfl)
@[simp] theorem State.focus_tiles (s : State) (c : CtxId) : (s.focus c).tiles = s.tiles := by unfold State.focus; split <;> first | rfl | (split <;> rfl)
@[simp] theorem State.focus_pins (s : State) (c : CtxId) : (s.focus c).pins = s.pins := by unfold State.focus; split <;> first | rfl | (split <;> rfl)
@[simp] theorem State.focus_spareCores (s : State) (c : CtxId) : (s.focus c).spareCores = s.spareCores := by unfold State.focus; split <;> first | rfl | (split <;> rfl)
@[simp] theorem State.focus_withdrawn (s : State) (c : CtxId) : (s.focus c).withdrawn = s.withdrawn := by unfold State.focus; split <;> first | rfl | (split <;> rfl)
@[simp] theorem State.focus_bank1 (s : State) (c : CtxId) : (s.focus c).bank1 = s.bank1 := by unfold State.focus; split <;> first | rfl | (split <;> rfl)
@[simp] theorem State.focus_launches (s : State) (c : CtxId) : (s.focus c).launches = s.launches := by unfold State.focus; split <;> first | rfl | (split <;> rfl)
@[simp] theorem State.focus_nextLaunch (s : State) (c : CtxId) : (s.focus c).nextLaunch = s.nextLaunch := by unfold State.focus; split <;> first | rfl | (split <;> rfl)
@[simp] theorem State.focus_hits (s : State) (c : CtxId) : (s.focus c).hits = s.hits := by unfold State.focus; split <;> first | rfl | (split <;> rfl)
@[simp] theorem State.focus_slots (s : State) (c : CtxId) : (s.focus c).slots = s.slots := by unfold State.focus; split <;> first | rfl | (split <;> rfl)
@[simp] theorem State.focus_reports (s : State) (c : CtxId) : (s.focus c).reports = s.reports := by unfold State.focus; split <;> first | rfl | (split <;> rfl)
@[simp] theorem State.focus_urgent (s : State) (c : CtxId) : (s.focus c).urgent = s.urgent := by unfold State.focus; split <;> first | rfl | (split <;> rfl)
@[simp] theorem State.focus_dies (s : State) (c : CtxId) : (s.focus c).dies = s.dies := by unfold State.focus; split <;> first | rfl | (split <;> rfl)
@[simp] theorem State.focus_pools (s : State) (c : CtxId) : (s.focus c).pools = s.pools := by unfold State.focus; split <;> first | rfl | (split <;> rfl)
@[simp] theorem State.focus_intervals (s : State) (c : CtxId) : (s.focus c).intervals = s.intervals := by unfold State.focus; split <;> first | rfl | (split <;> rfl)
@[simp] theorem State.focus_present (s : State) (c : CtxId) : (s.focus c).present = s.present := by unfold State.focus; split <;> first | rfl | (split <;> rfl)
@[simp] theorem State.focus_table (s : State) (c : CtxId) : (s.focus c).table = s.table := by unfold State.focus; split <;> first | rfl | (split <;> rfl)
@[simp] theorem State.focus_frozenTiles (s : State) (c : CtxId) : (s.focus c).frozenTiles = s.frozenTiles := by unfold State.focus; split <;> first | rfl | (split <;> rfl)
@[simp] theorem State.focus_plan (s : State) (c : CtxId) : (s.focus c).plan = s.plan := by unfold State.focus; split <;> first | rfl | (split <;> rfl)
@[simp] theorem State.focus_snapshots (s : State) (c : CtxId) : (s.focus c).snapshots = s.snapshots := by unfold State.focus; split <;> first | rfl | (split <;> rfl)
@[simp] theorem State.focus_light (s : State) (c : CtxId) : (s.focus c).light = s.light := by unfold State.focus; split <;> first | rfl | (split <;> rfl)
@[simp] theorem State.focus_exportMask (s : State) (c : CtxId) : (s.focus c).exportMask = s.exportMask := by unfold State.focus; split <;> first | rfl | (split <;> rfl)
@[simp] theorem State.focus_fibreUp (s : State) (c : CtxId) : (s.focus c).fibreUp = s.fibreUp := by unfold State.focus; split <;> first | rfl | (split <;> rfl)
@[simp] theorem State.focus_peers (s : State) (c : CtxId) : (s.focus c).peers = s.peers := by unfold State.focus; split <;> first | rfl | (split <;> rfl)
@[simp] theorem State.focus_exporter (s : State) (c : CtxId) : (s.focus c).exporter = s.exporter := by unfold State.focus; split <;> first | rfl | (split <;> rfl)
@[simp] theorem State.focus_peerWaves (s : State) (c : CtxId) : (s.focus c).peerWaves = s.peerWaves := by unfold State.focus; split <;> first | rfl | (split <;> rfl)
@[simp] theorem State.focus_laser (s : State) (c : CtxId) : (s.focus c).laser = s.laser := by unfold State.focus; split <;> first | rfl | (split <;> rfl)
@[simp] theorem State.focus_calibrated (s : State) (c : CtxId) : (s.focus c).calibrated = s.calibrated := by unfold State.focus; split <;> first | rfl | (split <;> rfl)
@[simp] theorem State.focus_drifted (s : State) (c : CtxId) : (s.focus c).drifted = s.drifted := by unfold State.focus; split <;> first | rfl | (split <;> rfl)
@[simp] theorem State.focus_skewed (s : State) (c : CtxId) : (s.focus c).skewed = s.skewed := by unfold State.focus; split <;> first | rfl | (split <;> rfl)
@[simp] theorem State.focus_spareLaser (s : State) (c : CtxId) : (s.focus c).spareLaser = s.spareLaser := by unfold State.focus; split <;> first | rfl | (split <;> rfl)
@[simp] theorem State.focus_spareLines (s : State) (c : CtxId) : (s.focus c).spareLines = s.spareLines := by unfold State.focus; split <;> first | rfl | (split <;> rfl)
@[simp] theorem State.focus_columnsUsed (s : State) (c : CtxId) : (s.focus c).columnsUsed = s.columnsUsed := by unfold State.focus; split <;> first | rfl | (split <;> rfl)
@[simp] theorem State.focus_spareChannels (s : State) (c : CtxId) : (s.focus c).spareChannels = s.spareChannels := by unfold State.focus; split <;> first | rfl | (split <;> rfl)
@[simp] theorem State.focus_lanesFailed (s : State) (c : CtxId) : (s.focus c).lanesFailed = s.lanesFailed := by unfold State.focus; split <;> first | rfl | (split <;> rfl)
@[simp] theorem State.focus_firstWrites (s : State) (c : CtxId) : (s.focus c).firstWrites = s.firstWrites := by unfold State.focus; split <;> first | rfl | (split <;> rfl)
@[simp] theorem State.focus_held (s : State) (c : CtxId) : (s.focus c).held = s.held := by unfold State.focus; split <;> first | rfl | (split <;> rfl)
@[simp] theorem State.focus_boot (s : State) (c : CtxId) : (s.focus c).boot = s.boot := by unfold State.focus; split <;> first | rfl | (split <;> rfl)
@[simp] theorem State.focus_fail (s : State) (c : CtxId) : (s.focus c).fail = s.fail := by unfold State.focus; split <;> first | rfl | (split <;> rfl)
@[simp] theorem State.focus_bootSteps (s : State) (c : CtxId) : (s.focus c).bootSteps = s.bootSteps := by unfold State.focus; split <;> first | rfl | (split <;> rfl)
@[simp] theorem State.focus_images (s : State) (c : CtxId) : (s.focus c).images = s.images := by unfold State.focus; split <;> first | rfl | (split <;> rfl)
@[simp] theorem State.focus_rollback (s : State) (c : CtxId) : (s.focus c).rollback = s.rollback := by unfold State.focus; split <;> first | rfl | (split <;> rfl)
@[simp] theorem State.focus_attested (s : State) (c : CtxId) : (s.focus c).attested = s.attested := by unfold State.focus; split <;> first | rfl | (split <;> rfl)
@[simp] theorem State.focus_subBase (s : State) (c : CtxId) : (s.focus c).subBase = s.subBase := by unfold State.focus; split <;> first | rfl | (split <;> rfl)
@[simp] theorem State.focus_subNext (s : State) (c : CtxId) : (s.focus c).subNext = s.subNext := by unfold State.focus; split <;> first | rfl | (split <;> rfl)
@[simp] theorem State.focus_mbox (s : State) (c : CtxId) : (s.focus c).mbox = s.mbox := by unfold State.focus; split <;> first | rfl | (split <;> rfl)

@[simp] theorem State.updCtxsOf_cur (s : State) (l : Nat) (g : Ctx → Ctx) : (s.updCtxsOf l g).cur = s.cur := rfl
@[simp] theorem State.updCtxsOf_agenda (s : State) (l : Nat) (g : Ctx → Ctx) : (s.updCtxsOf l g).agenda = s.agenda := rfl
@[simp] theorem State.updCtxsOf_ticks (s : State) (l : Nat) (g : Ctx → Ctx) : (s.updCtxsOf l g).ticks = s.ticks := rfl
@[simp] theorem State.updCtxsOf_bun (s : State) (l : Nat) (g : Ctx → Ctx) : (s.updCtxsOf l g).bun = s.bun := rfl
@[simp] theorem State.updCtxsOf_dev (s : State) (l : Nat) (g : Ctx → Ctx) : (s.updCtxsOf l g).dev = s.dev := rfl
@[simp] theorem State.updCtxsOf_clock (s : State) (l : Nat) (g : Ctx → Ctx) : (s.updCtxsOf l g).clock = s.clock := rfl
@[simp] theorem State.updCtxsOf_spares (s : State) (l : Nat) (g : Ctx → Ctx) : (s.updCtxsOf l g).spares = s.spares := rfl
@[simp] theorem State.updCtxsOf_bcw (s : State) (l : Nat) (g : Ctx → Ctx) : (s.updCtxsOf l g).bcw = s.bcw := rfl
@[simp] theorem State.updCtxsOf_cores (s : State) (l : Nat) (g : Ctx → Ctx) : (s.updCtxsOf l g).cores = s.cores := rfl
@[simp] theorem State.updCtxsOf_mem (s : State) (l : Nat) (g : Ctx → Ctx) : (s.updCtxsOf l g).mem = s.mem := rfl
@[simp] theorem State.updCtxsOf_tags (s : State) (l : Nat) (g : Ctx → Ctx) : (s.updCtxsOf l g).tags = s.tags := rfl
@[simp] theorem State.updCtxsOf_asids (s : State) (l : Nat) (g : Ctx → Ctx) : (s.updCtxsOf l g).asids = s.asids := rfl
@[simp] theorem State.updCtxsOf_l2 (s : State) (l : Nat) (g : Ctx → Ctx) : (s.updCtxsOf l g).l2 = s.l2 := rfl
@[simp] theorem State.updCtxsOf_tiles (s : State) (l : Nat) (g : Ctx → Ctx) : (s.updCtxsOf l g).tiles = s.tiles := rfl
@[simp] theorem State.updCtxsOf_pins (s : State) (l : Nat) (g : Ctx → Ctx) : (s.updCtxsOf l g).pins = s.pins := rfl
@[simp] theorem State.updCtxsOf_spareCores (s : State) (l : Nat) (g : Ctx → Ctx) : (s.updCtxsOf l g).spareCores = s.spareCores := rfl
@[simp] theorem State.updCtxsOf_withdrawn (s : State) (l : Nat) (g : Ctx → Ctx) : (s.updCtxsOf l g).withdrawn = s.withdrawn := rfl
@[simp] theorem State.updCtxsOf_bank1 (s : State) (l : Nat) (g : Ctx → Ctx) : (s.updCtxsOf l g).bank1 = s.bank1 := rfl
@[simp] theorem State.updCtxsOf_launches (s : State) (l : Nat) (g : Ctx → Ctx) : (s.updCtxsOf l g).launches = s.launches := rfl
@[simp] theorem State.updCtxsOf_nextLaunch (s : State) (l : Nat) (g : Ctx → Ctx) : (s.updCtxsOf l g).nextLaunch = s.nextLaunch := rfl
@[simp] theorem State.updCtxsOf_hits (s : State) (l : Nat) (g : Ctx → Ctx) : (s.updCtxsOf l g).hits = s.hits := rfl
@[simp] theorem State.updCtxsOf_slots (s : State) (l : Nat) (g : Ctx → Ctx) : (s.updCtxsOf l g).slots = s.slots := rfl
@[simp] theorem State.updCtxsOf_reports (s : State) (l : Nat) (g : Ctx → Ctx) : (s.updCtxsOf l g).reports = s.reports := rfl
@[simp] theorem State.updCtxsOf_urgent (s : State) (l : Nat) (g : Ctx → Ctx) : (s.updCtxsOf l g).urgent = s.urgent := rfl
@[simp] theorem State.updCtxsOf_dies (s : State) (l : Nat) (g : Ctx → Ctx) : (s.updCtxsOf l g).dies = s.dies := rfl
@[simp] theorem State.updCtxsOf_pools (s : State) (l : Nat) (g : Ctx → Ctx) : (s.updCtxsOf l g).pools = s.pools := rfl
@[simp] theorem State.updCtxsOf_intervals (s : State) (l : Nat) (g : Ctx → Ctx) : (s.updCtxsOf l g).intervals = s.intervals := rfl
@[simp] theorem State.updCtxsOf_present (s : State) (l : Nat) (g : Ctx → Ctx) : (s.updCtxsOf l g).present = s.present := rfl
@[simp] theorem State.updCtxsOf_table (s : State) (l : Nat) (g : Ctx → Ctx) : (s.updCtxsOf l g).table = s.table := rfl
@[simp] theorem State.updCtxsOf_frozenTiles (s : State) (l : Nat) (g : Ctx → Ctx) : (s.updCtxsOf l g).frozenTiles = s.frozenTiles := rfl
@[simp] theorem State.updCtxsOf_plan (s : State) (l : Nat) (g : Ctx → Ctx) : (s.updCtxsOf l g).plan = s.plan := rfl
@[simp] theorem State.updCtxsOf_snapshots (s : State) (l : Nat) (g : Ctx → Ctx) : (s.updCtxsOf l g).snapshots = s.snapshots := rfl
@[simp] theorem State.updCtxsOf_light (s : State) (l : Nat) (g : Ctx → Ctx) : (s.updCtxsOf l g).light = s.light := rfl
@[simp] theorem State.updCtxsOf_exportMask (s : State) (l : Nat) (g : Ctx → Ctx) : (s.updCtxsOf l g).exportMask = s.exportMask := rfl
@[simp] theorem State.updCtxsOf_fibreUp (s : State) (l : Nat) (g : Ctx → Ctx) : (s.updCtxsOf l g).fibreUp = s.fibreUp := rfl
@[simp] theorem State.updCtxsOf_peers (s : State) (l : Nat) (g : Ctx → Ctx) : (s.updCtxsOf l g).peers = s.peers := rfl
@[simp] theorem State.updCtxsOf_exporter (s : State) (l : Nat) (g : Ctx → Ctx) : (s.updCtxsOf l g).exporter = s.exporter := rfl
@[simp] theorem State.updCtxsOf_peerWaves (s : State) (l : Nat) (g : Ctx → Ctx) : (s.updCtxsOf l g).peerWaves = s.peerWaves := rfl
@[simp] theorem State.updCtxsOf_laser (s : State) (l : Nat) (g : Ctx → Ctx) : (s.updCtxsOf l g).laser = s.laser := rfl
@[simp] theorem State.updCtxsOf_calibrated (s : State) (l : Nat) (g : Ctx → Ctx) : (s.updCtxsOf l g).calibrated = s.calibrated := rfl
@[simp] theorem State.updCtxsOf_drifted (s : State) (l : Nat) (g : Ctx → Ctx) : (s.updCtxsOf l g).drifted = s.drifted := rfl
@[simp] theorem State.updCtxsOf_skewed (s : State) (l : Nat) (g : Ctx → Ctx) : (s.updCtxsOf l g).skewed = s.skewed := rfl
@[simp] theorem State.updCtxsOf_spareLaser (s : State) (l : Nat) (g : Ctx → Ctx) : (s.updCtxsOf l g).spareLaser = s.spareLaser := rfl
@[simp] theorem State.updCtxsOf_spareLines (s : State) (l : Nat) (g : Ctx → Ctx) : (s.updCtxsOf l g).spareLines = s.spareLines := rfl
@[simp] theorem State.updCtxsOf_columnsUsed (s : State) (l : Nat) (g : Ctx → Ctx) : (s.updCtxsOf l g).columnsUsed = s.columnsUsed := rfl
@[simp] theorem State.updCtxsOf_spareChannels (s : State) (l : Nat) (g : Ctx → Ctx) : (s.updCtxsOf l g).spareChannels = s.spareChannels := rfl
@[simp] theorem State.updCtxsOf_lanesFailed (s : State) (l : Nat) (g : Ctx → Ctx) : (s.updCtxsOf l g).lanesFailed = s.lanesFailed := rfl
@[simp] theorem State.updCtxsOf_firstWrites (s : State) (l : Nat) (g : Ctx → Ctx) : (s.updCtxsOf l g).firstWrites = s.firstWrites := rfl
@[simp] theorem State.updCtxsOf_held (s : State) (l : Nat) (g : Ctx → Ctx) : (s.updCtxsOf l g).held = s.held := rfl
@[simp] theorem State.updCtxsOf_boot (s : State) (l : Nat) (g : Ctx → Ctx) : (s.updCtxsOf l g).boot = s.boot := rfl
@[simp] theorem State.updCtxsOf_fail (s : State) (l : Nat) (g : Ctx → Ctx) : (s.updCtxsOf l g).fail = s.fail := rfl
@[simp] theorem State.updCtxsOf_bootSteps (s : State) (l : Nat) (g : Ctx → Ctx) : (s.updCtxsOf l g).bootSteps = s.bootSteps := rfl
@[simp] theorem State.updCtxsOf_images (s : State) (l : Nat) (g : Ctx → Ctx) : (s.updCtxsOf l g).images = s.images := rfl
@[simp] theorem State.updCtxsOf_rollback (s : State) (l : Nat) (g : Ctx → Ctx) : (s.updCtxsOf l g).rollback = s.rollback := rfl
@[simp] theorem State.updCtxsOf_attested (s : State) (l : Nat) (g : Ctx → Ctx) : (s.updCtxsOf l g).attested = s.attested := rfl
@[simp] theorem State.updCtxsOf_subBase (s : State) (l : Nat) (g : Ctx → Ctx) : (s.updCtxsOf l g).subBase = s.subBase := rfl
@[simp] theorem State.updCtxsOf_subNext (s : State) (l : Nat) (g : Ctx → Ctx) : (s.updCtxsOf l g).subNext = s.subNext := rfl
@[simp] theorem State.updCtxsOf_mbox (s : State) (l : Nat) (g : Ctx → Ctx) : (s.updCtxsOf l g).mbox = s.mbox := rfl

@[simp] theorem State.updLaunch_cur (s : State) (n : Nat) (g : Launch → Launch) : (s.updLaunch n g).cur = s.cur := rfl
@[simp] theorem State.updLaunch_cx (s : State) (n : Nat) (g : Launch → Launch) : (s.updLaunch n g).cx = s.cx := rfl
@[simp] theorem State.updLaunch_others (s : State) (n : Nat) (g : Launch → Launch) : (s.updLaunch n g).others = s.others := rfl
@[simp] theorem State.updLaunch_agenda (s : State) (n : Nat) (g : Launch → Launch) : (s.updLaunch n g).agenda = s.agenda := rfl
@[simp] theorem State.updLaunch_ticks (s : State) (n : Nat) (g : Launch → Launch) : (s.updLaunch n g).ticks = s.ticks := rfl
@[simp] theorem State.updLaunch_bun (s : State) (n : Nat) (g : Launch → Launch) : (s.updLaunch n g).bun = s.bun := rfl
@[simp] theorem State.updLaunch_dev (s : State) (n : Nat) (g : Launch → Launch) : (s.updLaunch n g).dev = s.dev := rfl
@[simp] theorem State.updLaunch_clock (s : State) (n : Nat) (g : Launch → Launch) : (s.updLaunch n g).clock = s.clock := rfl
@[simp] theorem State.updLaunch_spares (s : State) (n : Nat) (g : Launch → Launch) : (s.updLaunch n g).spares = s.spares := rfl
@[simp] theorem State.updLaunch_bcw (s : State) (n : Nat) (g : Launch → Launch) : (s.updLaunch n g).bcw = s.bcw := rfl
@[simp] theorem State.updLaunch_cores (s : State) (n : Nat) (g : Launch → Launch) : (s.updLaunch n g).cores = s.cores := rfl
@[simp] theorem State.updLaunch_mem (s : State) (n : Nat) (g : Launch → Launch) : (s.updLaunch n g).mem = s.mem := rfl
@[simp] theorem State.updLaunch_tags (s : State) (n : Nat) (g : Launch → Launch) : (s.updLaunch n g).tags = s.tags := rfl
@[simp] theorem State.updLaunch_asids (s : State) (n : Nat) (g : Launch → Launch) : (s.updLaunch n g).asids = s.asids := rfl
@[simp] theorem State.updLaunch_l2 (s : State) (n : Nat) (g : Launch → Launch) : (s.updLaunch n g).l2 = s.l2 := rfl
@[simp] theorem State.updLaunch_tiles (s : State) (n : Nat) (g : Launch → Launch) : (s.updLaunch n g).tiles = s.tiles := rfl
@[simp] theorem State.updLaunch_pins (s : State) (n : Nat) (g : Launch → Launch) : (s.updLaunch n g).pins = s.pins := rfl
@[simp] theorem State.updLaunch_spareCores (s : State) (n : Nat) (g : Launch → Launch) : (s.updLaunch n g).spareCores = s.spareCores := rfl
@[simp] theorem State.updLaunch_withdrawn (s : State) (n : Nat) (g : Launch → Launch) : (s.updLaunch n g).withdrawn = s.withdrawn := rfl
@[simp] theorem State.updLaunch_bank1 (s : State) (n : Nat) (g : Launch → Launch) : (s.updLaunch n g).bank1 = s.bank1 := rfl
@[simp] theorem State.updLaunch_nextLaunch (s : State) (n : Nat) (g : Launch → Launch) : (s.updLaunch n g).nextLaunch = s.nextLaunch := rfl
@[simp] theorem State.updLaunch_hits (s : State) (n : Nat) (g : Launch → Launch) : (s.updLaunch n g).hits = s.hits := rfl
@[simp] theorem State.updLaunch_slots (s : State) (n : Nat) (g : Launch → Launch) : (s.updLaunch n g).slots = s.slots := rfl
@[simp] theorem State.updLaunch_reports (s : State) (n : Nat) (g : Launch → Launch) : (s.updLaunch n g).reports = s.reports := rfl
@[simp] theorem State.updLaunch_urgent (s : State) (n : Nat) (g : Launch → Launch) : (s.updLaunch n g).urgent = s.urgent := rfl
@[simp] theorem State.updLaunch_dies (s : State) (n : Nat) (g : Launch → Launch) : (s.updLaunch n g).dies = s.dies := rfl
@[simp] theorem State.updLaunch_pools (s : State) (n : Nat) (g : Launch → Launch) : (s.updLaunch n g).pools = s.pools := rfl
@[simp] theorem State.updLaunch_intervals (s : State) (n : Nat) (g : Launch → Launch) : (s.updLaunch n g).intervals = s.intervals := rfl
@[simp] theorem State.updLaunch_present (s : State) (n : Nat) (g : Launch → Launch) : (s.updLaunch n g).present = s.present := rfl
@[simp] theorem State.updLaunch_table (s : State) (n : Nat) (g : Launch → Launch) : (s.updLaunch n g).table = s.table := rfl
@[simp] theorem State.updLaunch_frozenTiles (s : State) (n : Nat) (g : Launch → Launch) : (s.updLaunch n g).frozenTiles = s.frozenTiles := rfl
@[simp] theorem State.updLaunch_plan (s : State) (n : Nat) (g : Launch → Launch) : (s.updLaunch n g).plan = s.plan := rfl
@[simp] theorem State.updLaunch_snapshots (s : State) (n : Nat) (g : Launch → Launch) : (s.updLaunch n g).snapshots = s.snapshots := rfl
@[simp] theorem State.updLaunch_light (s : State) (n : Nat) (g : Launch → Launch) : (s.updLaunch n g).light = s.light := rfl
@[simp] theorem State.updLaunch_exportMask (s : State) (n : Nat) (g : Launch → Launch) : (s.updLaunch n g).exportMask = s.exportMask := rfl
@[simp] theorem State.updLaunch_fibreUp (s : State) (n : Nat) (g : Launch → Launch) : (s.updLaunch n g).fibreUp = s.fibreUp := rfl
@[simp] theorem State.updLaunch_peers (s : State) (n : Nat) (g : Launch → Launch) : (s.updLaunch n g).peers = s.peers := rfl
@[simp] theorem State.updLaunch_exporter (s : State) (n : Nat) (g : Launch → Launch) : (s.updLaunch n g).exporter = s.exporter := rfl
@[simp] theorem State.updLaunch_peerWaves (s : State) (n : Nat) (g : Launch → Launch) : (s.updLaunch n g).peerWaves = s.peerWaves := rfl
@[simp] theorem State.updLaunch_laser (s : State) (n : Nat) (g : Launch → Launch) : (s.updLaunch n g).laser = s.laser := rfl
@[simp] theorem State.updLaunch_calibrated (s : State) (n : Nat) (g : Launch → Launch) : (s.updLaunch n g).calibrated = s.calibrated := rfl
@[simp] theorem State.updLaunch_drifted (s : State) (n : Nat) (g : Launch → Launch) : (s.updLaunch n g).drifted = s.drifted := rfl
@[simp] theorem State.updLaunch_skewed (s : State) (n : Nat) (g : Launch → Launch) : (s.updLaunch n g).skewed = s.skewed := rfl
@[simp] theorem State.updLaunch_spareLaser (s : State) (n : Nat) (g : Launch → Launch) : (s.updLaunch n g).spareLaser = s.spareLaser := rfl
@[simp] theorem State.updLaunch_spareLines (s : State) (n : Nat) (g : Launch → Launch) : (s.updLaunch n g).spareLines = s.spareLines := rfl
@[simp] theorem State.updLaunch_columnsUsed (s : State) (n : Nat) (g : Launch → Launch) : (s.updLaunch n g).columnsUsed = s.columnsUsed := rfl
@[simp] theorem State.updLaunch_spareChannels (s : State) (n : Nat) (g : Launch → Launch) : (s.updLaunch n g).spareChannels = s.spareChannels := rfl
@[simp] theorem State.updLaunch_lanesFailed (s : State) (n : Nat) (g : Launch → Launch) : (s.updLaunch n g).lanesFailed = s.lanesFailed := rfl
@[simp] theorem State.updLaunch_firstWrites (s : State) (n : Nat) (g : Launch → Launch) : (s.updLaunch n g).firstWrites = s.firstWrites := rfl
@[simp] theorem State.updLaunch_held (s : State) (n : Nat) (g : Launch → Launch) : (s.updLaunch n g).held = s.held := rfl
@[simp] theorem State.updLaunch_boot (s : State) (n : Nat) (g : Launch → Launch) : (s.updLaunch n g).boot = s.boot := rfl
@[simp] theorem State.updLaunch_fail (s : State) (n : Nat) (g : Launch → Launch) : (s.updLaunch n g).fail = s.fail := rfl
@[simp] theorem State.updLaunch_bootSteps (s : State) (n : Nat) (g : Launch → Launch) : (s.updLaunch n g).bootSteps = s.bootSteps := rfl
@[simp] theorem State.updLaunch_images (s : State) (n : Nat) (g : Launch → Launch) : (s.updLaunch n g).images = s.images := rfl
@[simp] theorem State.updLaunch_rollback (s : State) (n : Nat) (g : Launch → Launch) : (s.updLaunch n g).rollback = s.rollback := rfl
@[simp] theorem State.updLaunch_attested (s : State) (n : Nat) (g : Launch → Launch) : (s.updLaunch n g).attested = s.attested := rfl
@[simp] theorem State.updLaunch_subBase (s : State) (n : Nat) (g : Launch → Launch) : (s.updLaunch n g).subBase = s.subBase := rfl
@[simp] theorem State.updLaunch_subNext (s : State) (n : Nat) (g : Launch → Launch) : (s.updLaunch n g).subNext = s.subNext := rfl
@[simp] theorem State.updLaunch_mbox (s : State) (n : Nat) (g : Launch → Launch) : (s.updLaunch n g).mbox = s.mbox := rfl

/-- A context in focus is changed in place. -/
@[simp] theorem State.updCtx_focus (s : State) (g : Ctx → Ctx) : s.updCtx s.cx.id g = { s with cx := g s.cx } := by simp [State.updCtx]
/-- The context in focus stays in focus. -/
@[simp] theorem State.focus_self (s : State) : s.focus s.cx.id = s := by simp [State.focus]

end Sys2Proof.Machine
end

