-- ==== Sys2Proof/Laws/Ops.lean ====
section
/-! SUPPORT. What each shared operation can do, said once: a word of L, S or K, a word of C that is a bundle of its own, and
the small operations that every meaning is made of. -/
set_option Elab.async false
namespace Sys2Proof.Machine

/-! ## Tokens -/

@[simp] theorem Ctx.takenBy_id (c : Ctx) (q : SeqId) (tk : BitVec 3) : (c.takenBy q tk).id = c.id := by
  unfold Ctx.takenBy; split <;> simp
@[simp] theorem Ctx.takenBy_asid (c : Ctx) (q : SeqId) (tk : BitVec 3) : (c.takenBy q tk).asid = c.asid := by
  unfold Ctx.takenBy; split <;> simp
@[simp] theorem Ctx.takenBy_node (c : Ctx) (q : SeqId) (tk : BitVec 3) : (c.takenBy q tk).node = c.node := by
  unfold Ctx.takenBy; split <;> simp
@[simp] theorem Ctx.takenBy_place (c : Ctx) (q : SeqId) (tk : BitVec 3) : (c.takenBy q tk).place = c.place := by
  unfold Ctx.takenBy; split <;> simp
@[simp] theorem Ctx.takenBy_status (c : Ctx) (q : SeqId) (tk : BitVec 3) : (c.takenBy q tk).status = c.status := by
  unfold Ctx.takenBy; split <;> simp
@[simp] theorem Ctx.takenBy_debugStop (c : Ctx) (q : SeqId) (tk : BitVec 3) : (c.takenBy q tk).debugStop = c.debugStop := by
  unfold Ctx.takenBy; split <;> simp
@[simp] theorem Ctx.takenBy_lastDone (c : Ctx) (q : SeqId) (tk : BitVec 3) : (c.takenBy q tk).lastDone = c.lastDone := by
  unfold Ctx.takenBy; split <;> simp
@[simp] theorem Ctx.takenBy_seqL (c : Ctx) (q : SeqId) (tk : BitVec 3) : (c.takenBy q tk).seqL = c.seqL := by
  unfold Ctx.takenBy; split <;> simp
@[simp] theorem Ctx.takenBy_seqC (c : Ctx) (q : SeqId) (tk : BitVec 3) : (c.takenBy q tk).seqC = c.seqC := by
  unfold Ctx.takenBy; split <;> simp
@[simp] theorem Ctx.takenBy_seqS (c : Ctx) (q : SeqId) (tk : BitVec 3) : (c.takenBy q tk).seqS = c.seqS := by
  unfold Ctx.takenBy; split <;> simp
@[simp] theorem Ctx.takenBy_seqK (c : Ctx) (q : SeqId) (tk : BitVec 3) : (c.takenBy q tk).seqK = c.seqK := by
  unfold Ctx.takenBy; split <;> simp
@[simp] theorem Ctx.takenBy_x (c : Ctx) (q : SeqId) (tk : BitVec 3) : (c.takenBy q tk).x = c.x := by
  unfold Ctx.takenBy; split <;> simp
@[simp] theorem Ctx.takenBy_y (c : Ctx) (q : SeqId) (tk : BitVec 3) : (c.takenBy q tk).y = c.y := by
  unfold Ctx.takenBy; split <;> simp
@[simp] theorem Ctx.takenBy_z (c : Ctx) (q : SeqId) (tk : BitVec 3) : (c.takenBy q tk).z = c.z := by
  unfold Ctx.takenBy; split <;> simp
@[simp] theorem Ctx.takenBy_a (c : Ctx) (q : SeqId) (tk : BitVec 3) : (c.takenBy q tk).a = c.a := by
  unfold Ctx.takenBy; split <;> simp
@[simp] theorem Ctx.takenBy_m (c : Ctx) (q : SeqId) (tk : BitVec 3) : (c.takenBy q tk).m = c.m := by
  unfold Ctx.takenBy; split <;> simp
@[simp] theorem Ctx.takenBy_k (c : Ctx) (q : SeqId) (tk : BitVec 3) : (c.takenBy q tk).k = c.k := by
  unfold Ctx.takenBy; split <;> simp
@[simp] theorem Ctx.takenBy_cause (c : Ctx) (q : SeqId) (tk : BitVec 3) : (c.takenBy q tk).cause = c.cause := by
  unfold Ctx.takenBy; split <;> simp
@[simp] theorem Ctx.takenBy_fpc (c : Ctx) (q : SeqId) (tk : BitVec 3) : (c.takenBy q tk).fpc = c.fpc := by
  unfold Ctx.takenBy; split <;> simp
@[simp] theorem Ctx.takenBy_wdb (c : Ctx) (q : SeqId) (tk : BitVec 3) : (c.takenBy q tk).wdb = c.wdb := by
  unfold Ctx.takenBy; split <;> simp
@[simp] theorem Ctx.takenBy_wpa (c : Ctx) (q : SeqId) (tk : BitVec 3) : (c.takenBy q tk).wpa = c.wpa := by
  unfold Ctx.takenBy; split <;> simp
@[simp] theorem Ctx.takenBy_wpc (c : Ctx) (q : SeqId) (tk : BitVec 3) : (c.takenBy q tk).wpc = c.wpc := by
  unfold Ctx.takenBy; split <;> simp
@[simp] theorem Ctx.takenBy_pbase (c : Ctx) (q : SeqId) (tk : BitVec 3) : (c.takenBy q tk).pbase = c.pbase := by
  unfold Ctx.takenBy; split <;> simp
@[simp] theorem Ctx.takenBy_claim (c : Ctx) (q : SeqId) (tk : BitVec 3) : (c.takenBy q tk).claim = c.claim := by
  unfold Ctx.takenBy; split <;> simp
@[simp] theorem Ctx.takenBy_arrived (c : Ctx) (q : SeqId) (tk : BitVec 3) : (c.takenBy q tk).arrived = c.arrived := by
  unfold Ctx.takenBy; split <;> simp
@[simp] theorem Ctx.takenBy_remote (c : Ctx) (q : SeqId) (tk : BitVec 3) : (c.takenBy q tk).remote = c.remote := by
  unfold Ctx.takenBy; split <;> simp
@[simp] theorem Ctx.takenBy_frameOut (c : Ctx) (q : SeqId) (tk : BitVec 3) : (c.takenBy q tk).frameOut = c.frameOut := by
  unfold Ctx.takenBy; split <;> simp
@[simp] theorem Ctx.takenBy_lq (c : Ctx) (q : SeqId) (tk : BitVec 3) : (c.takenBy q tk).lq = c.lq := by
  unfold Ctx.takenBy; split <;> simp
@[simp] theorem Ctx.takenBy_sq (c : Ctx) (q : SeqId) (tk : BitVec 3) : (c.takenBy q tk).sq = c.sq := by
  unfold Ctx.takenBy; split <;> simp
@[simp] theorem Ctx.takenBy_oq (c : Ctx) (q : SeqId) (tk : BitVec 3) : (c.takenBy q tk).oq = c.oq := by
  unfold Ctx.takenBy; split <;> simp
@[simp] theorem Ctx.takenBy_iq (c : Ctx) (q : SeqId) (tk : BitVec 3) : (c.takenBy q tk).iq = c.iq := by
  unfold Ctx.takenBy; split <;> simp
@[simp] theorem Ctx.takenBy_v (c : Ctx) (q : SeqId) (tk : BitVec 3) : (c.takenBy q tk).v = c.v := by
  unfold Ctx.takenBy; split <;> simp
@[simp] theorem Ctx.takenBy_p (c : Ctx) (q : SeqId) (tk : BitVec 3) : (c.takenBy q tk).p = c.p := by
  unfold Ctx.takenBy; split <;> simp
@[simp] theorem Ctx.takenBy_t (c : Ctx) (q : SeqId) (tk : BitVec 3) : (c.takenBy q tk).t = c.t := by
  unfold Ctx.takenBy; split <;> simp
@[simp] theorem Ctx.takenBy_bundles (c : Ctx) (q : SeqId) (tk : BitVec 3) : (c.takenBy q tk).bundles = c.bundles := by
  unfold Ctx.takenBy; split <;> simp
@[simp] theorem Ctx.takenBy_sfu (c : Ctx) (q : SeqId) (tk : BitVec 3) : (c.takenBy q tk).sfu = c.sfu := by
  unfold Ctx.takenBy; split <;> simp
@[simp] theorem Ctx.takenBy_streams (c : Ctx) (q : SeqId) (tk : BitVec 3) : (c.takenBy q tk).streams = c.streams := by
  unfold Ctx.takenBy; split <;> simp
@[simp] theorem Ctx.takenBy_slots (c : Ctx) (q : SeqId) (tk : BitVec 3) : (c.takenBy q tk).slots = c.slots := by
  unfold Ctx.takenBy; split <;> simp
@[simp] theorem Ctx.takenBy_bufs (c : Ctx) (q : SeqId) (tk : BitVec 3) : (c.takenBy q tk).bufs = c.bufs := by
  unfold Ctx.takenBy; split <;> simp
@[simp] theorem Ctx.takenBy_acc (c : Ctx) (q : SeqId) (tk : BitVec 3) : (c.takenBy q tk).acc = c.acc := by
  unfold Ctx.takenBy; split <;> simp
@[simp] theorem Ctx.takenBy_pacc (c : Ctx) (q : SeqId) (tk : BitVec 3) : (c.takenBy q tk).pacc = c.pacc := by
  unfold Ctx.takenBy; split <;> simp
@[simp] theorem Ctx.takenBy_lvt (c : Ctx) (q : SeqId) (tk : BitVec 3) : (c.takenBy q tk).lvt = c.lvt := by
  unfold Ctx.takenBy; split <;> simp
@[simp] theorem Ctx.takenBy_act (c : Ctx) (q : SeqId) (tk : BitVec 3) : (c.takenBy q tk).act = c.act := by
  unfold Ctx.takenBy; split <;> simp
@[simp] theorem Ctx.takenBy_wsh (c : Ctx) (q : SeqId) (tk : BitVec 3) : (c.takenBy q tk).wsh = c.wsh := by
  unfold Ctx.takenBy; split <;> simp
@[simp] theorem Ctx.takenBy_wep (c : Ctx) (q : SeqId) (tk : BitVec 3) : (c.takenBy q tk).wep = c.wep := by
  unfold Ctx.takenBy; split <;> simp
@[simp] theorem Ctx.takenBy_wpol (c : Ctx) (q : SeqId) (tk : BitVec 3) : (c.takenBy q tk).wpol = c.wpol := by
  unfold Ctx.takenBy; split <;> simp
@[simp] theorem Ctx.takenBy_wins (c : Ctx) (q : SeqId) (tk : BitVec 3) : (c.takenBy q tk).wins = c.wins := by
  unfold Ctx.takenBy; split <;> simp
@[simp] theorem Ctx.takenBy_nextWin (c : Ctx) (q : SeqId) (tk : BitVec 3) : (c.takenBy q tk).nextWin = c.nextWin := by
  unfold Ctx.takenBy; split <;> simp
@[simp] theorem Ctx.takenBy_held (c : Ctx) (q : SeqId) (tk : BitVec 3) : (c.takenBy q tk).held = c.held := by
  unfold Ctx.takenBy; split <;> simp
@[simp] theorem Ctx.takenBy_wstat (c : Ctx) (q : SeqId) (tk : BitVec 3) : (c.takenBy q tk).wstat = c.wstat := by
  unfold Ctx.takenBy; split <;> simp
@[simp] theorem Ctx.takenBy_epi (c : Ctx) (q : SeqId) (tk : BitVec 3) : (c.takenBy q tk).epi = c.epi := by
  unfold Ctx.takenBy; split <;> simp
@[simp] theorem Ctx.takenBy_deferred (c : Ctx) (q : SeqId) (tk : BitVec 3) : (c.takenBy q tk).deferred = c.deferred := by
  unfold Ctx.takenBy; split <;> simp
@[simp] theorem Ctx.takenBy_copy (c : Ctx) (q : SeqId) (tk : BitVec 3) : (c.takenBy q tk).copy = c.copy := by
  unfold Ctx.takenBy; split <;> simp
@[simp] theorem Ctx.takenBy_tilesFired (c : Ctx) (q : SeqId) (tk : BitVec 3) : (c.takenBy q tk).tilesFired = c.tilesFired := by
  unfold Ctx.takenBy; split <;> simp
@[simp] theorem Ctx.takenBy_tileFaults (c : Ctx) (q : SeqId) (tk : BitVec 3) : (c.takenBy q tk).tileFaults = c.tileFaults := by
  unfold Ctx.takenBy; split <;> simp
@[simp] theorem Ctx.takenBy_spad (c : Ctx) (q : SeqId) (tk : BitVec 3) : (c.takenBy q tk).spad = c.spad := by
  unfold Ctx.takenBy; split <;> simp
@[simp] theorem Ctx.takenBy_seq (c : Ctx) (q r : SeqId) (tk : BitVec 3) : (c.takenBy q tk).seq r = c.seq r := by
  cases r <;> simp [Ctx.seq]
@[simp] theorem Ctx.postedBy_id (c : Ctx) (q : SeqId) (tk : BitVec 3) : (c.postedBy q tk).id = c.id := by
  unfold Ctx.postedBy; split <;> simp
@[simp] theorem Ctx.postedBy_asid (c : Ctx) (q : SeqId) (tk : BitVec 3) : (c.postedBy q tk).asid = c.asid := by
  unfold Ctx.postedBy; split <;> simp
@[simp] theorem Ctx.postedBy_node (c : Ctx) (q : SeqId) (tk : BitVec 3) : (c.postedBy q tk).node = c.node := by
  unfold Ctx.postedBy; split <;> simp
@[simp] theorem Ctx.postedBy_place (c : Ctx) (q : SeqId) (tk : BitVec 3) : (c.postedBy q tk).place = c.place := by
  unfold Ctx.postedBy; split <;> simp
@[simp] theorem Ctx.postedBy_status (c : Ctx) (q : SeqId) (tk : BitVec 3) : (c.postedBy q tk).status = c.status := by
  unfold Ctx.postedBy; split <;> simp
@[simp] theorem Ctx.postedBy_debugStop (c : Ctx) (q : SeqId) (tk : BitVec 3) : (c.postedBy q tk).debugStop = c.debugStop := by
  unfold Ctx.postedBy; split <;> simp
@[simp] theorem Ctx.postedBy_lastDone (c : Ctx) (q : SeqId) (tk : BitVec 3) : (c.postedBy q tk).lastDone = c.lastDone := by
  unfold Ctx.postedBy; split <;> simp
@[simp] theorem Ctx.postedBy_seqL (c : Ctx) (q : SeqId) (tk : BitVec 3) : (c.postedBy q tk).seqL = c.seqL := by
  unfold Ctx.postedBy; split <;> simp
@[simp] theorem Ctx.postedBy_seqC (c : Ctx) (q : SeqId) (tk : BitVec 3) : (c.postedBy q tk).seqC = c.seqC := by
  unfold Ctx.postedBy; split <;> simp
@[simp] theorem Ctx.postedBy_seqS (c : Ctx) (q : SeqId) (tk : BitVec 3) : (c.postedBy q tk).seqS = c.seqS := by
  unfold Ctx.postedBy; split <;> simp
@[simp] theorem Ctx.postedBy_seqK (c : Ctx) (q : SeqId) (tk : BitVec 3) : (c.postedBy q tk).seqK = c.seqK := by
  unfold Ctx.postedBy; split <;> simp
@[simp] theorem Ctx.postedBy_x (c : Ctx) (q : SeqId) (tk : BitVec 3) : (c.postedBy q tk).x = c.x := by
  unfold Ctx.postedBy; split <;> simp
@[simp] theorem Ctx.postedBy_y (c : Ctx) (q : SeqId) (tk : BitVec 3) : (c.postedBy q tk).y = c.y := by
  unfold Ctx.postedBy; split <;> simp
@[simp] theorem Ctx.postedBy_z (c : Ctx) (q : SeqId) (tk : BitVec 3) : (c.postedBy q tk).z = c.z := by
  unfold Ctx.postedBy; split <;> simp
@[simp] theorem Ctx.postedBy_a (c : Ctx) (q : SeqId) (tk : BitVec 3) : (c.postedBy q tk).a = c.a := by
  unfold Ctx.postedBy; split <;> simp
@[simp] theorem Ctx.postedBy_m (c : Ctx) (q : SeqId) (tk : BitVec 3) : (c.postedBy q tk).m = c.m := by
  unfold Ctx.postedBy; split <;> simp
@[simp] theorem Ctx.postedBy_k (c : Ctx) (q : SeqId) (tk : BitVec 3) : (c.postedBy q tk).k = c.k := by
  unfold Ctx.postedBy; split <;> simp
@[simp] theorem Ctx.postedBy_cause (c : Ctx) (q : SeqId) (tk : BitVec 3) : (c.postedBy q tk).cause = c.cause := by
  unfold Ctx.postedBy; split <;> simp
@[simp] theorem Ctx.postedBy_fpc (c : Ctx) (q : SeqId) (tk : BitVec 3) : (c.postedBy q tk).fpc = c.fpc := by
  unfold Ctx.postedBy; split <;> simp
@[simp] theorem Ctx.postedBy_wdb (c : Ctx) (q : SeqId) (tk : BitVec 3) : (c.postedBy q tk).wdb = c.wdb := by
  unfold Ctx.postedBy; split <;> simp
@[simp] theorem Ctx.postedBy_wpa (c : Ctx) (q : SeqId) (tk : BitVec 3) : (c.postedBy q tk).wpa = c.wpa := by
  unfold Ctx.postedBy; split <;> simp
@[simp] theorem Ctx.postedBy_wpc (c : Ctx) (q : SeqId) (tk : BitVec 3) : (c.postedBy q tk).wpc = c.wpc := by
  unfold Ctx.postedBy; split <;> simp
@[simp] theorem Ctx.postedBy_pbase (c : Ctx) (q : SeqId) (tk : BitVec 3) : (c.postedBy q tk).pbase = c.pbase := by
  unfold Ctx.postedBy; split <;> simp
@[simp] theorem Ctx.postedBy_claim (c : Ctx) (q : SeqId) (tk : BitVec 3) : (c.postedBy q tk).claim = c.claim := by
  unfold Ctx.postedBy; split <;> simp
@[simp] theorem Ctx.postedBy_arrived (c : Ctx) (q : SeqId) (tk : BitVec 3) : (c.postedBy q tk).arrived = c.arrived := by
  unfold Ctx.postedBy; split <;> simp
@[simp] theorem Ctx.postedBy_remote (c : Ctx) (q : SeqId) (tk : BitVec 3) : (c.postedBy q tk).remote = c.remote := by
  unfold Ctx.postedBy; split <;> simp
@[simp] theorem Ctx.postedBy_frameOut (c : Ctx) (q : SeqId) (tk : BitVec 3) : (c.postedBy q tk).frameOut = c.frameOut := by
  unfold Ctx.postedBy; split <;> simp
@[simp] theorem Ctx.postedBy_lq (c : Ctx) (q : SeqId) (tk : BitVec 3) : (c.postedBy q tk).lq = c.lq := by
  unfold Ctx.postedBy; split <;> simp
@[simp] theorem Ctx.postedBy_sq (c : Ctx) (q : SeqId) (tk : BitVec 3) : (c.postedBy q tk).sq = c.sq := by
  unfold Ctx.postedBy; split <;> simp
@[simp] theorem Ctx.postedBy_oq (c : Ctx) (q : SeqId) (tk : BitVec 3) : (c.postedBy q tk).oq = c.oq := by
  unfold Ctx.postedBy; split <;> simp
@[simp] theorem Ctx.postedBy_iq (c : Ctx) (q : SeqId) (tk : BitVec 3) : (c.postedBy q tk).iq = c.iq := by
  unfold Ctx.postedBy; split <;> simp
@[simp] theorem Ctx.postedBy_v (c : Ctx) (q : SeqId) (tk : BitVec 3) : (c.postedBy q tk).v = c.v := by
  unfold Ctx.postedBy; split <;> simp
@[simp] theorem Ctx.postedBy_p (c : Ctx) (q : SeqId) (tk : BitVec 3) : (c.postedBy q tk).p = c.p := by
  unfold Ctx.postedBy; split <;> simp
@[simp] theorem Ctx.postedBy_t (c : Ctx) (q : SeqId) (tk : BitVec 3) : (c.postedBy q tk).t = c.t := by
  unfold Ctx.postedBy; split <;> simp
@[simp] theorem Ctx.postedBy_bundles (c : Ctx) (q : SeqId) (tk : BitVec 3) : (c.postedBy q tk).bundles = c.bundles := by
  unfold Ctx.postedBy; split <;> simp
@[simp] theorem Ctx.postedBy_sfu (c : Ctx) (q : SeqId) (tk : BitVec 3) : (c.postedBy q tk).sfu = c.sfu := by
  unfold Ctx.postedBy; split <;> simp
@[simp] theorem Ctx.postedBy_streams (c : Ctx) (q : SeqId) (tk : BitVec 3) : (c.postedBy q tk).streams = c.streams := by
  unfold Ctx.postedBy; split <;> simp
@[simp] theorem Ctx.postedBy_slots (c : Ctx) (q : SeqId) (tk : BitVec 3) : (c.postedBy q tk).slots = c.slots := by
  unfold Ctx.postedBy; split <;> simp
@[simp] theorem Ctx.postedBy_bufs (c : Ctx) (q : SeqId) (tk : BitVec 3) : (c.postedBy q tk).bufs = c.bufs := by
  unfold Ctx.postedBy; split <;> simp
@[simp] theorem Ctx.postedBy_acc (c : Ctx) (q : SeqId) (tk : BitVec 3) : (c.postedBy q tk).acc = c.acc := by
  unfold Ctx.postedBy; split <;> simp
@[simp] theorem Ctx.postedBy_pacc (c : Ctx) (q : SeqId) (tk : BitVec 3) : (c.postedBy q tk).pacc = c.pacc := by
  unfold Ctx.postedBy; split <;> simp
@[simp] theorem Ctx.postedBy_lvt (c : Ctx) (q : SeqId) (tk : BitVec 3) : (c.postedBy q tk).lvt = c.lvt := by
  unfold Ctx.postedBy; split <;> simp
@[simp] theorem Ctx.postedBy_act (c : Ctx) (q : SeqId) (tk : BitVec 3) : (c.postedBy q tk).act = c.act := by
  unfold Ctx.postedBy; split <;> simp
@[simp] theorem Ctx.postedBy_wsh (c : Ctx) (q : SeqId) (tk : BitVec 3) : (c.postedBy q tk).wsh = c.wsh := by
  unfold Ctx.postedBy; split <;> simp
@[simp] theorem Ctx.postedBy_wep (c : Ctx) (q : SeqId) (tk : BitVec 3) : (c.postedBy q tk).wep = c.wep := by
  unfold Ctx.postedBy; split <;> simp
@[simp] theorem Ctx.postedBy_wpol (c : Ctx) (q : SeqId) (tk : BitVec 3) : (c.postedBy q tk).wpol = c.wpol := by
  unfold Ctx.postedBy; split <;> simp
@[simp] theorem Ctx.postedBy_wins (c : Ctx) (q : SeqId) (tk : BitVec 3) : (c.postedBy q tk).wins = c.wins := by
  unfold Ctx.postedBy; split <;> simp
@[simp] theorem Ctx.postedBy_nextWin (c : Ctx) (q : SeqId) (tk : BitVec 3) : (c.postedBy q tk).nextWin = c.nextWin := by
  unfold Ctx.postedBy; split <;> simp
@[simp] theorem Ctx.postedBy_held (c : Ctx) (q : SeqId) (tk : BitVec 3) : (c.postedBy q tk).held = c.held := by
  unfold Ctx.postedBy; split <;> simp
@[simp] theorem Ctx.postedBy_wstat (c : Ctx) (q : SeqId) (tk : BitVec 3) : (c.postedBy q tk).wstat = c.wstat := by
  unfold Ctx.postedBy; split <;> simp
@[simp] theorem Ctx.postedBy_epi (c : Ctx) (q : SeqId) (tk : BitVec 3) : (c.postedBy q tk).epi = c.epi := by
  unfold Ctx.postedBy; split <;> simp
@[simp] theorem Ctx.postedBy_deferred (c : Ctx) (q : SeqId) (tk : BitVec 3) : (c.postedBy q tk).deferred = c.deferred := by
  unfold Ctx.postedBy; split <;> simp
@[simp] theorem Ctx.postedBy_copy (c : Ctx) (q : SeqId) (tk : BitVec 3) : (c.postedBy q tk).copy = c.copy := by
  unfold Ctx.postedBy; split <;> simp
@[simp] theorem Ctx.postedBy_tilesFired (c : Ctx) (q : SeqId) (tk : BitVec 3) : (c.postedBy q tk).tilesFired = c.tilesFired := by
  unfold Ctx.postedBy; split <;> simp
@[simp] theorem Ctx.postedBy_tileFaults (c : Ctx) (q : SeqId) (tk : BitVec 3) : (c.postedBy q tk).tileFaults = c.tileFaults := by
  unfold Ctx.postedBy; split <;> simp
@[simp] theorem Ctx.postedBy_spad (c : Ctx) (q : SeqId) (tk : BitVec 3) : (c.postedBy q tk).spad = c.spad := by
  unfold Ctx.postedBy; split <;> simp
@[simp] theorem Ctx.postedBy_seq (c : Ctx) (q r : SeqId) (tk : BitVec 3) : (c.postedBy q tk).seq r = c.seq r := by
  cases r <;> simp [Ctx.seq]
@[simp] theorem Ctx.takenBy_rx (c : Ctx) (q : SeqId) (tk : BitVec 3) (i : BitVec 5) : (c.takenBy q tk).rx i = c.rx i := by
  simp [Ctx.rx]
@[simp] theorem Ctx.takenBy_ry (c : Ctx) (q : SeqId) (tk : BitVec 3) (i : BitVec 4) : (c.takenBy q tk).ry i = c.ry i := by
  simp [Ctx.ry]
@[simp] theorem Ctx.takenBy_rz (c : Ctx) (q : SeqId) (tk : BitVec 3) (i : BitVec 4) : (c.takenBy q tk).rz i = c.rz i := by
  simp [Ctx.rz]

/-- A wait and a post are never of one field. -/
theorem fieldPost_of_wait {q : SeqId} {tk : BitVec 3} {i : Nat} (h : fieldWait q tk = some i) : fieldPost q tk = none := by
  unfold fieldWait at h; unfold fieldPost
  split at h
  · rw [if_neg (by omega)]
  · cases h

/-- A field that still waits for a token posts none. -/
theorem fieldPost_of_open {c : Ctx} {q : SeqId} {tk : BitVec 3} {i : Nat} (h : c.openField q tk = some i) : fieldPost q tk = none := by
  unfold Ctx.openField at h
  split at h
  · exact fieldPost_of_wait h
  · cases h
theorem openField_of_post {c : Ctx} {q : SeqId} {tk : BitVec 3} {i : Nat} (h : fieldPost q tk = some i) : c.openField q tk = none := by
  cases hw : c.openField q tk with
  | none => rfl
  | some j => rw [fieldPost_of_open hw] at h; cases h

/-- The room of a post is there when the token of a wait is gone. -/
theorem State.Issues.room_taken {s : State} {q : SeqId} {qp tk : BitVec 3} (h : s.Issues q qp tk) {i : Nat} (hp : fieldPost q tk = some i) :
    (s.cx.takenBy q tk).tokens i < 15 := by
  simpa [Ctx.takenBy, openField_of_post (c := s.cx) hp] using h.room i hp

@[simp] theorem Ctx.seq_updSeq (c : Ctx) (q : SeqId) (f : SeqState → SeqState) : (c.updSeq q f).seq q = f (c.seq q) := by
  cases q <;> rfl

/-! ## Running an operation -/

/-- An operation that goes on hands its answer and its state to the next. -/
theorem bind_ok {α β : Type} {m : M α} {f : α → M β} {s t : State} {a : α} (h : m s = .ok a t) : (m >>= f) s = f a t := by
  show EStateM.bind m f s = _
  unfold EStateM.bind; rw [h]
/-- One that does not ends the whole. -/
theorem bind_error {α β : Type} {m : M α} {f : α → M β} {s t : State} {e : Stop} (h : m s = .error e t) : (m >>= f) s = .error e t := by
  show EStateM.bind m f s = _
  unfold EStateM.bind; rw [h]
@[simp] theorem pure_run {α : Type} (a : α) (s : State) : (pure a : M α) s = .ok a s := rfl
@[simp] theorem get_run {β : Type} (f : State → M β) (s : State) : (get >>= f : M β) s = f s s := rfl
@[simp] theorem modify_run (f : State → State) (s : State) : (modify f : M Unit) s = .ok () (f s) := rfl
@[simp] theorem modify_bind {β : Type} (f : State → State) (g : Unit → M β) (s : State) : ((modify f : M Unit) >>= g) s = g () (f s) := rfl
@[simp] theorem set_run (t s : State) : (set t : M Unit) s = .ok () t := rfl
@[simp] theorem modCx_run (f : Ctx → Ctx) (s : State) : modCx f s = .ok () { s with cx := f s.cx } := rfl
@[simp] theorem modCx_bind {β : Type} (f : Ctx → Ctx) (g : Unit → M β) (s : State) : (modCx f >>= g) s = g () { s with cx := f s.cx } := rfl
@[simp] theorem modSeq_run (f : SeqState → SeqState) (s : State) : modSeq f s = .ok () { s with cx := s.cx.updSeq s.cur f } := rfl
@[simp] theorem modBun_run (f : Bundle → Bundle) (s : State) : modBun f s = .ok () { s with bun := s.bun.map f } := rfl
@[simp] theorem modBun_bind {β : Type} (f : Bundle → Bundle) (g : Unit → M β) (s : State) :
    (modBun f >>= g) s = g () { s with bun := s.bun.map f } := rfl
@[simp] theorem opsCx_bind {β : Type} (f : Ctx → M β) (s : State) : (opsCx >>= f) s = f s.operands s := rfl
@[simp] theorem require_true (c : Nat) (s : State) : require true c s = .ok () s := rfl
@[simp] theorem waitUnless_true (a : Await) (s : State) : waitUnless true a s = .ok () s := rfl
theorem require_bind {β : Type} {b : Bool} {c : Nat} {g : Unit → M β} {s : State} (h : b = true) : (require b c >>= g) s = g () s := by
  subst h; rfl
theorem waitUnless_bind {β : Type} {b : Bool} {a : Await} {g : Unit → M β} {s : State} (h : b = true) : (waitUnless b a >>= g) s = g () s := by
  subst h; rfl
/-- Outside an open plan of the broadcast core every instruction may run. -/
theorem replayable_bind {β : Type} {g : Unit → M β} {s : State} (h : s.unplanned) : (replayable >>= g) s = g () s :=
  bind_ok (a := ()) (by unfold replayable; rw [get_run, if_neg (by rw [h]; decide)]; rfl)

/-! ## A word of L, S or K -/

/-- A word whose effect goes on completes. -/
theorem runWord_ok {s s2 : State} {q : SeqId} {qp tk : BitVec 3} {words : Nat} {op : M Unit} (h : s.Issues q qp tk)
    (hop : op (s.started q tk) = .ok () s2) (hid : s2.cx.id = s.cx.id) (hcur : s2.cur = q)
    (hroom : ∀ i, fieldPost q tk = some i → s2.cx.tokens i < 15)
    (hpend : (s.cx.seq q).pend.isSome = true ∨ (s2.cx.seq q).pend = none) :
    runWord qp tk words op s = s2.retired q tk words := by
  obtain ⟨hf, _, hq, ht, _⟩ := h
  subst hf
  have hop' : ((s.cx.seq s.cur).pend.isNone && (s2.cx.seq s2.cur).pend.isSome) = false := by
    rw [hcur]; rcases hpend with h | h <;> revert h <;> cases (s.cx.seq s.cur).pend <;> simp +contextual
  have fin : (finish s tk words false s2).1 = s2.retired s.cur tk words := by
    unfold finish State.retired Ctx.postedBy
    rw [hcur]
    cases hp : fieldPost s.cur tk with
    | none => simp
    | some i => have := hroom i hp; simp [Nat.not_le.2 this]
  unfold runWord
  cases hw : s.cx.openField s.cur tk with
  | none =>
    have : s.started s.cur tk = s := by unfold State.started Ctx.takenBy; rw [hw]
    rw [this] at hop
    simp [hq, hop, hop', hid, fin]
  | some i =>
    have h0 : s.cx.tokens i ≠ 0 := by have := ht i hw; omega
    have : s.started s.cur tk = { s with cx := s.cx.setTokens i (s.cx.tokens i - 1) } := by
      unfold State.started Ctx.takenBy; rw [hw]
    rw [this] at hop
    simp [hq, hop, hop', hid, fin, h0]

/-- A K word whose effect goes on completes. -/
theorem runK_ok {s s2 : State} {h : Hq} {words : Nat} {op : M Unit} (hi : s.Issues .k h.qp h.tk)
    (hop : op (s.started .k h.tk) = .ok () s2) (hid : s2.cx.id = s.cx.id) (hcur : s2.cur = .k)
    (hroom : ∀ i, fieldPost .k h.tk = some i → s2.cx.tokens i < 15)
    (hpend : (s.cx.seq .k).pend.isSome = true ∨ (s2.cx.seq .k).pend = none) :
    runK h words op s = .next (s2.retired .k h.tk words) := by
  unfold runK; rw [if_pos hi.focus, runWord_ok hi hop hid hcur hroom hpend]

/-- An L or S word whose effect goes on completes. -/
theorem runLS_ok {s s2 : State} {q : SeqId} {h : Hq} {words : Nat} {op : M Unit} (hq : q = .l ∨ q = .s) (hi : s.Issues q h.qp h.tk)
    (hop : op (s.started q h.tk) = .ok () s2) (hid : s2.cx.id = s.cx.id) (hcur : s2.cur = q)
    (hroom : ∀ i, fieldPost q h.tk = some i → s2.cx.tokens i < 15)
    (hpend : (s.cx.seq q).pend.isSome = true ∨ (s2.cx.seq q).pend = none) :
    runLS h words op s = .next (s2.retired q h.tk words) := by
  unfold runLS; rw [if_pos (by rw [hi.focus]; exact hq), runWord_ok hi hop hid hcur hroom hpend]

/-- An L word whose effect goes on completes. -/
theorem runL_ok {s s2 : State} {h : Hq} {words : Nat} {op : M Unit} (hi : s.Issues .l h.qp h.tk)
    (hop : op (s.started .l h.tk) = .ok () s2) (hid : s2.cx.id = s.cx.id) (hcur : s2.cur = .l)
    (hroom : ∀ i, fieldPost .l h.tk = some i → s2.cx.tokens i < 15)
    (hpend : (s.cx.seq .l).pend.isSome = true ∨ (s2.cx.seq .l).pend = none) :
    runL h words op s = .next (s2.retired .l h.tk words) := by
  unfold runL; rw [if_pos hi.focus, runWord_ok hi hop hid hcur hroom hpend]

/-- An S word whose effect goes on completes. -/
theorem runS_ok {s s2 : State} {h : Hq} {words : Nat} {op : M Unit} (hi : s.Issues .s h.qp h.tk)
    (hop : op (s.started .s h.tk) = .ok () s2) (hid : s2.cx.id = s.cx.id) (hcur : s2.cur = .s)
    (hroom : ∀ i, fieldPost .s h.tk = some i → s2.cx.tokens i < 15)
    (hpend : (s.cx.seq .s).pend.isSome = true ∨ (s2.cx.seq .s).pend = none) :
    runS h words op s = .next (s2.retired .s h.tk words) := by
  unfold runS; rw [if_pos hi.focus, runWord_ok hi hop hid hcur hroom hpend]

/-- A word of L, S or K whose predicate reads false takes and posts its token, and the sequencer moves on (02 R46). -/
theorem runWord_false {s : State} {q : SeqId} {qp tk : BitVec 3} {words : Nat} {op : M Unit} {keeps : Bool} (hf : s.cur = q)
    (hq : (s.cx.seq q).rq qp = false) (hw : ∀ j, s.cx.openField q tk = some j → 0 < s.cx.tokens j)
    (hr : ∀ i, fieldPost q tk = some i → s.cx.tokens i < 15) :
    runWord qp tk words op s keeps = s.does q tk words id := by
  subst hf
  unfold runWord finish State.does State.retired State.started Ctx.postedBy Ctx.takenBy
  cases ho : s.cx.openField s.cur tk with
  | none =>
    cases hp : fieldPost s.cur tk with
    | none => simp [hq, hp]
    | some i => have := hr i hp; simp [hq, hp, Nat.not_le.2 this]
  | some j =>
    have h0 : s.cx.tokens j ≠ 0 := by have := hw j ho; omega
    have hp := fieldPost_of_open ho
    simp [hq, hp, h0]

/-! ## A word of C that is a bundle of its own -/

/-- The bundle that a lone word opens. -/
def loneBundle (s : State) (tk : BitVec 3) (words : Nat) (takes : List Nat) : Bundle :=
  { old := s.cx, pbase := s.baseBefore, words := words, takes := takes, taken := (s.cx.openField .c tk).toList }

/-- A bundle without a TKWAIT takes no token of one. -/
@[simp] theorem takeGets_none (s : State) (b : Bundle) (h : b.gets = []) : takeGets s b = (s, b) := by
  unfold takeGets; rw [h]; simp

/-- A lone word of C whose effect goes on completes. `u` is what it changes besides the context. -/
theorem runC_ok {s u : State} {c2 : Ctx} {truth : Ctx → Bool} {tk : BitVec 3} {words : Nat} {op : M Unit} {srcs : List (BitVec 5)}
    (h : s.IssuesC truth tk srcs)
    (hop : op { s with cx := s.cx.takenBy .c tk, bun := some (loneBundle s tk words []) } =
      .ok () { u with cx := c2, bun := some (loneBundle s tk words (srcs.flatMap takesOf)) })
    (hroom : ∀ i, fieldPost .c tk = some i → c2.tokens i < 15) :
    runC words truth tk op s = { u with
      cx := (landSfu s.cx.sfu.length false
          { (srcs.flatMap takesOf).dedup.foldl Ctx.take (c2.postedBy .c tk) with
            bundles := ((srcs.flatMap takesOf).dedup.foldl Ctx.take (c2.postedBy .c tk)).bundles + 1 }).updSeq .c
        (fun st => ({ st with off := 0 } : SeqState).retire words false)
      bun := none } := by
  obtain ⟨hf, hb, ht, htok, _, _⟩ := h
  have key : slot (truth s.cx) tk op { s with bun := some { old := s.cx, pbase := s.baseBefore, words := words } } =
      { u with cx := c2
               bun := some { loneBundle s tk words (srcs.flatMap takesOf) with
                 posts := match fieldPost .c tk with | some i => [(i, 1, 0)] | none => [] } } := by
    unfold slot
    simp only
    cases hw : s.cx.openField .c tk with
    | none =>
      have : s.cx.takenBy .c tk = s.cx := by simp [Ctx.takenBy, hw]
      rw [this] at hop
      simp only [slot.effect, ht, if_true]
      have hb : loneBundle s tk words [] = { old := s.cx, pbase := s.baseBefore, words := words } := by simp only [loneBundle, hw, Option.toList_none]
      rw [show ({ s with bun := some { old := s.cx, pbase := s.baseBefore, words := words } } : State) = { s with cx := s.cx, bun := some (loneBundle s tk words []) } by rw [hb], hop]
      simp only
      cases fieldPost .c tk <;> rfl
    | some i =>
      have h0 : s.cx.tokens i ≠ 0 := by have := htok i hw; omega
      have : s.cx.takenBy .c tk = s.cx.setTokens i (s.cx.tokens i - 1) := by simp [Ctx.takenBy, hw]
      rw [this] at hop
      have hp := fieldPost_of_open hw
      simp only [slot.effect, ht, if_true, h0, if_false, hp] at hop ⊢
      have hb : loneBundle s tk words [] = { old := s.cx, pbase := s.baseBefore, words := words, taken := [] ++ [i] } := by
        simp only [loneBundle, hw, Option.toList_some, List.nil_append]
      rw [show ({ s with cx := s.cx.setTokens i (s.cx.tokens i - 1), bun := some { old := s.cx, pbase := s.baseBefore, words := words, taken := [] ++ [i] } } : State) =
        { s with cx := s.cx.setTokens i (s.cx.tokens i - 1), bun := some (loneBundle s tk words []) } by rw [hb], hop]
      rfl
  unfold runC State.openBundle
  rw [if_neg (by simp [hf]), hb]
  simp only [key]
  unfold endBundle
  cases hp : fieldPost .c tk with
  | none =>
    simp only [takeGets_none, loneBundle, List.find?_nil, List.isEmpty_nil, if_true, postAll, retireBundle, Ctx.postedBy, hp, Option.isSome_none, Bool.or_false,
      Option.getD_none]
  | some i =>
    have := hroom i hp
    simp only [takeGets_none, loneBundle, List.find?_nil, List.isEmpty_nil, if_true, postAll, retireBundle, Ctx.postedBy, hp, Option.isSome_none, Bool.or_false,
      Option.getD_none]
    rw [if_neg (by omega)]

/-- A lone word of C whose effect changes the context alone completes. -/
theorem runC_bundled {s : State} {f : Ctx → Ctx} {truth : Ctx → Bool} {tk : BitVec 3} {words : Nat} {op : M Unit} {srcs : List (BitVec 5)}
    (h : s.IssuesC truth tk srcs)
    (hop : op { s with cx := s.cx.takenBy .c tk, bun := some (loneBundle s tk words []) } =
      .ok () { s with cx := f (s.cx.takenBy .c tk), bun := some (loneBundle s tk words (srcs.flatMap takesOf)) })
    (hf : ∀ i, (f (s.cx.takenBy .c tk)).tokens i = (s.cx.takenBy .c tk).tokens i) :
    runC words truth tk op s = s.bundled tk words srcs f := by
  rw [runC_ok (u := s) h hop]
  · unfold State.bundled
    have := h.alone
    cases s; simp only at this; subst this; rfl
  · intro i hi
    rw [hf]
    simpa [Ctx.takenBy, openField_of_post (c := s.cx) hi] using h.room i hi

/-- A word of a bundle whose truth is false has no effect. -/
theorem slot_false (tk : BitVec 3) (op : M Unit) (s : State) : slot false tk op s = slot true tk (pure ()) s := by
  unfold slot
  cases s.bun with
  | none => rfl
  | some b =>
    simp only
    cases b.old.openField .c tk with
    | none => rfl
    | some j => simp only; split <;> rfl

/-- A lone word of C whose truth is false takes and posts its token, and C moves on (08 R233). -/
theorem runC_false {s : State} {truth : Ctx → Bool} {tk : BitVec 3} {words : Nat} {op : M Unit} (hf : s.cur = .c) (hb : s.bun = none)
    (ht : truth s.cx = false) (hw : ∀ j, s.cx.openField .c tk = some j → 0 < s.cx.tokens j)
    (hr : ∀ i, fieldPost .c tk = some i → s.cx.tokens i < 15) :
    runC words truth tk op s = s.bundled tk words [] id := by
  rw [← runC_bundled (s := s) (f := id) (truth := fun _ => true) (tk := tk) (words := words) (op := pure ()) (srcs := [])
    ⟨hf, hb, rfl, hw, hr, by simp⟩ rfl (fun _ => rfl)]
  unfold runC
  rw [hb]
  simp only [ht, slot_false]

/-- A source code that names an image gives it, and notes what it takes. -/
theorem src_ok {s : State} {b : Bundle} {c : BitVec 5} (hb : s.bun = some b) (h : (b.old.image c).isSome = true) :
    src c s = .ok (b.old.imageD c) { s with bun := some { b with takes := b.takes ++ takesOf c } } := by
  have hs : ({ s with bun := some b } : State) = s := by cases s; simp only at hb; subst hb; rfl
  have ho : s.operands = b.old := by simp only [State.operands, hb]
  unfold src
  rw [opsCx_bind, ho]
  unfold Ctx.imageD Ctx.image at *
  by_cases h16 : c.toNat < 16
  · simp only [h16, if_true, Option.getD_some, takesOf, List.append_nil, hs, pure_run]
  · simp only [h16, if_false] at h ⊢
    by_cases h24 : c.toNat < 24
    · simp only [h24, if_true] at h ⊢
      unfold headOf
      cases hq : b.old.lqAt (c.toNat % 4) with
      | nil => rw [hq] at h; cases h
      | cons img rest =>
        by_cases h20 : c.toNat < 20
        · have : ¬ 20 ≤ c.toNat := by omega
          simp only [this, decide_false, List.head?_cons, Option.getD_some, takesOf, h16, h20, if_false, if_true, Bool.false_eq_true,
            modBun_bind, pure_run, hb, Option.map_some]
        · have : 20 ≤ c.toNat := by omega
          simp only [this, decide_true, List.head?_cons, Option.getD_some, takesOf, h16, h20, h24, if_false, if_true, List.append_nil, hs]; rfl
    · simp only [h24, if_false] at h ⊢
      unfold headOf
      cases hq : b.old.oq with
      | nil => rw [hq] at h; cases h
      | cons img rest =>
        have h20 : ¬ c.toNat < 20 := by omega
        by_cases h25 : c.toNat = 25
        · have ht : takesOf c = [] := by unfold takesOf; rw [if_neg h16, if_neg h20, if_neg h24, if_pos h25]
          have : (c.toNat == 25) = true := by simpa using h25
          simp only [this, ht, List.head?_cons, Option.getD_some, List.append_nil, hs]; rfl
        · have : (c.toNat == 25) = false := by simpa using h25
          simp only [this, h25, List.head?_cons, Option.getD_some, takesOf, h16, h20, h24, if_false, Bool.false_eq_true,
            modBun_bind, pure_run, hb, Option.map_some]

end Sys2Proof.Machine
end

