-- ==== Sys2Proof/Laws/Images.lean ====
section
/-! SUPPORT. Long runs of bytes, as images are read and written (15 R404 to R406): numbers and checksums of runs that end in zeros, and
the accesses of the spill engines in an address space that is mapped flat. -/
set_option Elab.async false
namespace Sys2Proof.Machine

/-! ## Runs of bytes -/

@[simp] theorem natBytes_length (n v : Nat) : (natBytes n v).length = n := by
  induction n generalizing v with
  | zero => rfl
  | succ n ih => simp [natBytes, ih]

theorem natBytes_zero (n : Nat) : natBytes n 0 = List.replicate n 0 := by
  induction n with
  | zero => rfl
  | succ n ih => rw [natBytes, Nat.zero_div, ih]; rfl

/-- The bytes of a number that fits its first `n` are zero after them. -/
theorem natBytes_add {n v : Nat} (m : Nat) (h : v < 256 ^ n) : natBytes (n + m) v = natBytes n v ++ List.replicate m 0 := by
  induction n generalizing v with
  | zero => have : v = 0 := by simpa using h
            subst this; rw [Nat.zero_add]; exact natBytes_zero m
  | succ n ih =>
    rw [Nat.add_right_comm, natBytes, natBytes, ih (by rw [Nat.pow_succ] at h; omega)]; rfl

theorem leNat_append_zeros (bs : List Byte) (m : Nat) : leNat (bs ++ List.replicate m 0) = leNat bs := by
  unfold leNat
  rw [List.foldr_append]
  congr 1
  induction m with
  | zero => rfl
  | succ m ih => rw [List.replicate_succ, List.foldr_cons, ih]; rfl

theorem Memory.readN_add (m : Memory) (a n k : Nat) : m.readN a (n + k) = m.readN a n ++ m.readN (a + n) k := by
  unfold Memory.readN
  rw [List.range_add, List.map_append, List.map_map]
  simp [Function.comp_def, Nat.add_assoc]

/-- Where a canonical memory lists nothing, it reads zeros. -/
theorem Memory.readN_unlisted {m : Memory} {a n : Nat} (h : ∀ e ∈ m, e.1 < a ∨ a + n ≤ e.1) : m.readN a n = List.replicate n 0 := by
  unfold Memory.readN
  rw [List.eq_replicate_iff]
  refine ⟨by simp, fun b hb => ?_⟩
  obtain ⟨i, hi, rfl⟩ := List.mem_map.1 hb
  have hi := List.mem_range.1 hi
  unfold Memory.read
  induction m with
  | nil => rfl
  | cons e m ih =>
    obtain ⟨k, v⟩ := e
    have := h (k, v) (by simp)
    simp only at this
    rw [sparseGet, if_neg (by omega)]
    exact ih (fun e he => h e (by simp [he])) (List.mem_map.2 ⟨i, List.mem_range.2 hi, rfl⟩)

/-! ## RWS-32 -/

theorem rws32_append (c : BitVec 32) (n m : Nat) (xs ys : List Byte) (h : xs.length = 4 * n) :
    rws32 c (n + m) (xs ++ ys) = rws32 (rws32 c n xs) m ys := by
  induction n generalizing c xs with
  | zero => have : xs = [] := by simpa using h
            subst this; simp [rws32]
  | succ n ih =>
    rw [Nat.add_right_comm, rws32, rws32, List.take_append_of_le_length (by omega), List.drop_append_of_le_length (by omega)]
    exact ih _ _ (by simp; omega)

/-- Zeros only rotate the sum. -/
theorem rws32_zeros (c : BitVec 32) (n : Nat) : rws32 c n (List.replicate (4 * n) 0) = (fun c : BitVec 32 => c.rotateLeft 1)^[n] c := by
  induction n generalizing c with
  | zero => rfl
  | succ n ih =>
    have e : List.replicate (4 * (n + 1)) (0 : Byte) = [0, 0, 0, 0] ++ List.replicate (4 * n) 0 := by
      rw [show 4 * (n + 1) = 4 + 4 * n by omega, List.replicate_add]; rfl
    rw [e, rws32, Function.iterate_succ_apply, ← ih]
    simp [leNat]

/-- Bit `i` of a word that has been rotated `k` times by one place. -/
theorem getLsbD_rotations (c : BitVec 32) (k i : Nat) (hi : i < 32) :
    ((fun c : BitVec 32 => c.rotateLeft 1)^[k] c).getLsbD i = c.getLsbD ((i + 31 * k) % 32) := by
  induction k generalizing i with
  | zero => rw [Nat.mul_zero, Nat.add_zero, Nat.mod_eq_of_lt hi]; rfl
  | succ k ih =>
    rw [Function.iterate_succ_apply', BitVec.getLsbD_rotateLeft]
    by_cases h0 : i = 0
    · subst h0; simp only [Nat.one_mod, Nat.zero_lt_one, decide_true, cond_true]
      rw [ih _ (by omega)]; congr 1; omega
    · have : ¬ i < 1 := by omega
      simp only [Nat.reduceMod, this, decide_false, cond_false, hi, decide_true, Bool.true_and]
      rw [ih _ (by omega)]; congr 1; omega

/-- Thirty-two rotations are none. -/
theorem rotations_32 (c : BitVec 32) (n : Nat) : (fun c : BitVec 32 => c.rotateLeft 1)^[32 * n] c = c := by
  apply BitVec.eq_of_getLsbD_eq
  intro i hi
  rw [getLsbD_rotations _ _ _ hi]; congr 1; omega

/-- CHECK of an image of whole words whose bytes after word `n` are zero, a whole number of rotations of them. -/
theorem imageSum_of {img : Nat} (n m : Nat) (ht : imgTotal img = 4 * n + 4 * (32 * m)) (hs : img - hdr img 159 128 * 2 ^ 128 < 256 ^ (4 * n))
    (hc : (rws32 0xFFFFFFFF n (natBytes (4 * n) (img - hdr img 159 128 * 2 ^ 128))).toNat = hdr img 159 128) : imageSum img = true := by
  have e : rwsOf 0xFFFFFFFF (natBytes (imgTotal img) (img - hdr img 159 128 * 2 ^ 128)) =
      rws32 0xFFFFFFFF n (natBytes (4 * n) (img - hdr img 159 128 * 2 ^ 128)) := by
    unfold rwsOf
    rw [natBytes_length, ht, natBytes_add _ hs, show (4 * n + 4 * (32 * m)) / 4 = n + 32 * m by omega,
      rws32_append _ _ _ _ _ (natBytes_length _ _), rws32_zeros, rotations_32]
  unfold imageSum
  rw [e, hc]; simp

/-! ## Plain accesses -/

/-- The first GiB of an address space is one page of this device, whose leaf allows all and has A and D set; and no watchpoint is
enabled. -/
structure State.Flat (s : State) (asid : Nat) : Prop where
  dev : s.dev = 0
  root : look s.asids asid = some 0x40000000
  table0 : readEntry s.mem 0x40000000 = 0x40002 * 2 ^ 28 + 1
  table1 : readEntry s.mem 0x40002000 = 0x40004 * 2 ^ 28 + 1
  leaf : readEntry s.mem 0x40004000 = 0x7C03
  marked : s.mem.read 0x40004001 = 0x7C
  wf : s.mem.wf = true
  unwatched : ∀ c ∈ s.ctxs, ∀ i ∈ eight, bit (c.wpc.get i).toNat 0 = false

/-- Its leaf. -/
def flatTr : Tr := ⟨0x40004000, 0x7C03, 2⟩

/-- The walk through entry 0 of a table. -/
theorem walk_first {s : State} {va level table e : Nat} {rest : List Nat} (hd : s.dev = 0) (hv : va < 2 ^ 30) (hl : level ≤ 2)
    (he : readEntry s.mem table = e) : walk s va (level :: rest) table =
      if !bit e 0 then .error 0x081
      else if bit e 1 then (if leafOk s level e table 0 then .ok ⟨table, e, level⟩ else .error 0x083)
      else if tableOk level e then walk s va rest (bits e 63 28 * 2 ^ 12) else .error 0x083 := by
  have hi : (if level = 0 then bits va 55 48 else va / 2 ^ (48 - 9 * level) % 512) = 0 := by
    split
    · unfold bits; rw [Nat.div_eq_of_lt (by omega)]; rfl
    · rw [Nat.div_eq_of_lt (lt_of_lt_of_le hv (Nat.pow_le_pow_right (by omega) (by omega)))]
  rw [walk]
  simp only [hi, Nat.mul_zero, Nat.add_zero, he, key, hd, Nat.zero_mul, Nat.zero_add]

theorem State.Flat.translate {s : State} {asid : Nat} (f : s.Flat asid) {k : Acc} (hk : k ≠ .shadow) {va : DWord} (h : va.toNat < 2 ^ 30) :
    translate s asid k va = .ok flatTr := by
  have hw : walkRoot s asid va.toNat = .ok flatTr := by
    unfold walkRoot
    rw [f.root]
    simp only [key, f.dev, Nat.zero_mul, Nat.zero_add]
    rw [if_pos (by decide), walk_first f.dev h (by decide) f.table0]
    rw [show bits (0x40002 * 2 ^ 28 + 1) 63 28 * 2 ^ 12 = 0x40002000 from rfl, walk_first f.dev h (by decide) f.table1]
    rw [show bits (0x40004 * 2 ^ 28 + 1) 63 28 * 2 ^ 12 = 0x40004000 from rfl, walk_first f.dev h (by decide) f.leaf]
    rfl
  have hm : inMap flatTr k va.toNat = true := by
    unfold inMap Tr.paOf
    have e : (if k = .shadow then flatTr.shadowPpn else flatTr.visiblePpn) = 0 := by rw [if_neg hk]; rfl
    rw [e]
    have l : levelShift flatTr.level = 30 := rfl
    rw [l, Nat.mod_eq_of_lt h, Nat.zero_mul, Nat.zero_add]
    unfold paOk
    have b : bits va.toNat 47 39 = 0 := by unfold bits; rw [Nat.div_eq_of_lt (by omega)]; rfl
    have c : bits va.toNat 35 0 = va.toNat := by unfold bits; rw [Nat.pow_zero, Nat.div_one]; exact Nat.mod_eq_of_lt (by omega)
    rw [if_pos b, c]
    simp only [Bool.or_eq_true, decide_eq_true_eq]
    right; unfold Config.hbmStackBytes; omega
  unfold Machine.translate
  rw [if_neg (by omega), hw]
  simp only [hm]
  have : permitted flatTr k = true := by cases k <;> rfl
  rw [this]; simp

/-- A byte written as it reads changes nothing. -/
theorem Memory.write_read {m : Memory} {lo : Nat} (w : sparseWf Memory.unlisted lo m = true) (a : Nat) : Memory.write m a (Memory.read m a) = m := by
  induction m generalizing lo with
  | nil => rfl
  | cons e m ih =>
    obtain ⟨k, v⟩ := e
    simp only [sparseWf, Bool.and_eq_true, decide_eq_true_eq] at w
    unfold Memory.write Memory.read sparsePut sparseGet
    by_cases h : k = a
    · subst h; rw [if_pos rfl, if_pos rfl, if_neg w.1.2]
    · rw [if_neg h, if_neg h]
      by_cases hl : a < k
      · have z := sparseGet_below _ w.2 (show a < k + 1 by omega)
        rw [if_pos hl, z, if_pos rfl]
      · rw [if_neg hl]; congr 1; exact ih w.2

theorem State.Flat.unhit {s : State} {asid : Nat} (f : s.Flat asid) (c : Ctx) (hc : c ∈ s.ctxs) (ag : Agent) (k : Acc) (va n : Nat) :
    watchHit c ag k va n = false := by
  unfold watchHit
  have : eight.any (fun i => watches c i k va n && inWatchScope c i ag) = false := by
    simp only [List.any_eq_false]
    intro i hi
    unfold watches; simp [f.unwatched c hc i hi]
  simp [this]

/-- The checks of an access of a spill engine pass, and change nothing. -/
theorem State.Flat.checkAccess {s : State} {ag : Agent} (f : s.Flat ag.asid) {k : Acc} (hk : k ≠ .shadow ∧ k ≠ .atomic) {va : DWord} {n : Nat}
    (h : va.toNat < 2 ^ 30) (hn : va.toNat % 4096 + n ≤ 4096) : checkAccess ag k va n s = .ok [⟨va, n, flatTr⟩] s := by
  have hA : (setEntryBits s.mem flatTr.entry 0x20) = s.mem := by
    unfold setEntryBits
    have e : s.mem.read (flatTr.entry + 1) ||| 0x20 = s.mem.read (flatTr.entry + 1) := by
      show s.mem.read 0x40004001 ||| 0x20 = s.mem.read 0x40004001
      rw [f.marked]; rfl
    rw [e]; exact Memory.write_read f.wf _
  have hp : pages ag k va n s = .ok [⟨va, n, flatTr⟩] s := by
    unfold pages
    have c : cut va n = [(va, n)] := by unfold cut; rw [if_pos (by omega)]
    have fate : partFate s ag.asid k false va = .ok flatTr := by unfold partFate; rw [f.translate hk.1 h]; rfl
    have pass : passA k va flatTr s = .ok () s := by
      unfold passA; split
      · show EStateM.Result.ok () ({ s with mem := setEntryBits s.mem flatTr.entry 0x20 } : State) = _
        rw [hA]
      · rfl
    have all : translateAll ag k false [(va, n)] s = .ok [⟨va, n, flatTr⟩] s := by
      unfold translateAll
      rw [get_run, fate]
      show EStateM.bind (passA k va flatTr) _ s = _
      unfold EStateM.bind
      rw [pass]; rfl
    rw [c]
    rw [if_neg (by simp)]
    show EStateM.bind _ _ s = _
    unfold EStateM.bind
    rw [show decide (1 < [(va, n)].length) = false from rfl, all]; rfl
  have hh : homeCheck k [⟨va, n, flatTr⟩] s = .ok () s := by
    unfold homeCheck
    rw [get_run]
    have e : (flatTr.home != s.dev) = false := by rw [f.dev]; decide
    simp only [List.filter_cons, e, Bool.and_false, Bool.false_eq_true, if_false, List.filter_nil, List.find?_nil]; rfl
  have ht : eachM [⟨va, n, flatTr⟩] (tagCheck k) s = .ok () s := by
    have e : flatTr.tce = false := by decide
    unfold eachM tagCheck; simp only [e]; rfl
  have hw : watchCheck ag k va n s = .ok () s := by
    unfold watchCheck
    rw [get_run]
    have a : s.ctxs.any (fun c => ownSequencer c ag && watchHit c ag k va.toNat n) = false := by
      simp only [List.any_eq_false]; intro c hc; rw [f.unhit c hc]; simp
    have b : s.ctxs.filter (fun c => !ownSequencer c ag && watchHit c ag k va.toNat n) = [] := by
      simp only [List.filter_eq_nil_iff]; intro c hc; rw [f.unhit c hc]; simp
    rw [a]
    show EStateM.Result.ok () (noteHits ag k va n s) = _
    unfold noteHits; rw [b]; simp
  have hr : reachCheck ag [⟨va, n, flatTr⟩] s = .ok () s := by
    have e : flatTr.spad = false := by decide
    unfold reachCheck; simp only [List.find?_cons, e]; rfl
  unfold Machine.checkAccess
  rw [bind_ok hp, bind_ok hr, bind_ok hh, bind_ok ht, bind_ok hw]; rfl

/-- A read of a spill engine reads memory, and changes nothing. -/
theorem State.Flat.readMem {s : State} {ag : Agent} (f : s.Flat ag.asid) (ha : 6 ≤ ag.srce) {va : DWord} {n pol : Nat}
    (h : va.toNat < 2 ^ 30) (hn : va.toNat % 4096 + n ≤ 4096) : readMem ag pol va n s = .ok (s.mem.readN va.toNat n) s := by
  have hk : flatTr.visible va.toNat = va.toNat := by
    have e : flatTr.visible va.toNat = 0 * 2 ^ 48 + (0 * 2 ^ 12 + va.toNat % 2 ^ 30) := rfl
    rw [e, Nat.mod_eq_of_lt h]; omega
  have hr : readSeg ag pol ⟨va, n, flatTr⟩ s = .ok (s.mem.readN va.toNat n) s := by
    have o : inOrderOf ag flatTr s = s := by unfold inOrderOf; rw [if_neg (by simp; omega)]
    have away : cachesAway s ag flatTr va.toNat = false := by
      unfold cachesAway; have : ¬ ag.srce < 6 := by omega
      simp [this]
    have sp : flatTr.spad = false := by decide
    unfold readSeg
    rw [modify_bind]; simp only [o]
    unfold fetchSeg
    rw [get_run]
    have key : (⟨va, n, flatTr⟩ : Seg).key .read = va.toNat := hk
    simp only [sp, key, away, Bool.false_and, Bool.false_eq_true, if_false]
    rfl
  unfold Machine.readMem
  rw [bind_ok (f.checkAccess ⟨by simp, by simp⟩ h hn)]
  unfold readSegs
  rw [bind_ok hr]
  unfold readSegs
  rw [bind_ok (pure_run _ _)]
  simp

/-- A write of a spill engine for no launch that is held changes its bytes alone. -/
theorem State.Flat.writeMem {s : State} {ag : Agent} (f : s.Flat ag.asid) (ha : 6 ≤ ag.srce) (hl : s.launch? ag.ctx.launch = none) {va : DWord}
    {data : List Byte} {pol : Nat} (h : va.toNat < 2 ^ 30) (hn : va.toNat % 4096 + data.length ≤ 4096) :
    writeMem ag pol va data s = .ok () { s with mem := s.mem.writeN va.toNat data } := by
  have hk : flatTr.visible va.toNat = va.toNat := by
    have e : flatTr.visible va.toNat = 0 * 2 ^ 48 + (0 * 2 ^ 12 + va.toNat % 2 ^ 30) := rfl
    rw [e, Nat.mod_eq_of_lt h]; omega
  have hD : (setEntryBits s.mem flatTr.entry 0x40) = s.mem := by
    unfold setEntryBits
    have e : s.mem.read (flatTr.entry + 1) ||| 0x40 = s.mem.read (flatTr.entry + 1) := by
      show s.mem.read 0x40004001 ||| 0x40 = s.mem.read 0x40004001
      rw [f.marked]; rfl
    rw [e]; exact Memory.write_read f.wf _
  have o : inOrderOf ag flatTr s = s := by unfold inOrderOf; rw [if_neg (by simp; omega)]
  have away : cachesAway s ag flatTr va.toNat = false := by
    unfold cachesAway; have : ¬ ag.srce < 6 := by omega
    simp [this]
  have sp : flatTr.spad = false := by decide
  have dirty : ∀ a, markDirty s ag.ctx.launch a = s := by
    intro a; unfold markDirty; simp only [hl]; split <;> rfl
  have put : ∀ (bs : List Byte) (a p : Nat) (s : State), putBytes false p ag 0xFF a bs s = { s with mem := s.mem.writeN a bs } := by
    intro bs
    induction bs with
    | nil => intro a p s; rfl
    | cons b bs ih =>
      intro a p s
      have one : putByte false p ag 0xFF a b s = { s with mem := s.mem.write a b } := by
        unfold putByte
        have e : mergeByte (s.mem.read a) b 0xFF = b := by
          unfold mergeByte
          rw [show (0xFF : Byte) = BitVec.allOnes 8 from rfl, BitVec.not_allOnes, BitVec.and_zero, BitVec.zero_or, BitVec.and_allOnes]
        simp only [Bool.false_and, Bool.false_eq_true, if_false, e]
      rw [putBytes, one, ih]; rfl
  have hs : writeSegBits ag pol .write 0xFF ⟨va, data.length, flatTr⟩ data s = .ok () { s with mem := s.mem.writeN va.toNat data } := by
    unfold writeSegBits
    rw [get_run]
    simp only [sp, Bool.false_eq_true, if_false]
    have m : markD flatTr s = .ok () s := by
      show EStateM.Result.ok () ({ s with mem := setEntryBits s.mem flatTr.entry 0x40 } : State) = _
      rw [hD]
    rw [bind_ok m, modify_bind]; simp only [o]
    rw [get_run]
    have key : (⟨va, data.length, flatTr⟩ : Seg).key .write = va.toNat := hk
    have w : (Acc.write == Acc.shadow) = false := by decide
    simp only [w, Bool.false_and, Bool.false_eq_true, if_false, key, dirty, ite_self, away]
    rw [set_run, put]
  unfold Machine.writeMem
  rw [bind_ok (f.checkAccess ⟨by simp, by simp⟩ h hn)]
  unfold writeSegs writeSegsBits
  simp only [List.take_length]
  rw [bind_ok hs]; rfl

/-- The address space stays flat where its tables are not written. -/
theorem State.Flat.written {s : State} {asid : Nat} (f : s.Flat asid) (a : Nat) (data : List Byte) (h : a + data.length ≤ 0x40000000) :
    ({ s with mem := s.mem.writeN a data } : State).Flat asid := by
  have e : ∀ b, 0x40000000 ≤ b → readEntry (s.mem.writeN a data) b = readEntry s.mem b := by
    intro b hb
    unfold readEntry Memory.readN
    congr 1
    refine List.map_congr_left (fun i _ => ?_)
    exact Memory.read_writeN_outside _ (by omega)
  exact ⟨f.dev, f.root, (e _ (by omega)).trans f.table0, (e _ (by omega)).trans f.table1, (e _ (by omega)).trans f.leaf,
    (Memory.read_writeN_outside _ (by omega)).trans f.marked, Memory.writeN_wf f.wf _ _, f.unwatched⟩

/-! ## Whole images -/

/-- The pieces of an image are bytes of memory. -/
theorem State.Flat.collect {s : State} {ag : Agent} (f : s.Flat ag.asid) (ha : 6 ≤ ag.srce) {va : DWord} {total : Nat} (k n : Nat)
    (hv : va.toNat % 64 = 0) (hn : 64 * (k + n) ≤ total) (h : va.toNat + total ≤ 2 ^ 30) :
    collectM ((List.range n).map (k + ·)) (fun i => Machine.readMem ag 0 (va + BitVec.ofNat 64 (64 * i)) (min 64 (total - 64 * i))) s =
      .ok ((List.range n).map (fun i => s.mem.readN (va.toNat + 64 * (k + i)) 64)) s := by
  induction n generalizing k with
  | zero => rfl
  | succ n ih =>
    have hv2 : (va + BitVec.ofNat 64 (64 * k)).toNat = va.toNat + 64 * k := by
      rw [BitVec.toNat_add, BitVec.toNat_ofNat]; omega
    have one := f.readMem (va := va + BitVec.ofNat 64 (64 * k)) (n := 64) (pol := 0) ha (by omega) (by omega)
    rw [hv2] at one
    rw [List.range_succ_eq_map, List.map_cons, List.map_map]
    unfold collectM
    have m : min 64 (total - 64 * k) = 64 := by omega
    simp only [Nat.add_zero, m]
    rw [bind_ok one]
    have rest := ih (k + 1) (by omega)
    have e : (fun x => k + x) ∘ Nat.succ = fun x => k + 1 + x := by funext x; simp only [Function.comp_apply]; omega
    rw [e, bind_ok rest]
    simp only [pure_run, List.map_cons, List.map_map, Nat.add_zero, Function.comp_def]
    congr 3
    funext i; congr 1; omega

/-- An image that memory holds is read as it stands. -/
theorem State.Flat.readImage {s : State} {asid : Nat} (f : s.Flat asid) {va : DWord} {n : Nat} (hv : va.toNat % 64 = 0)
    (h : va.toNat + 64 * n ≤ 2 ^ 30) : readImage asid va (64 * n) s = .ok (leNat (s.mem.readN va.toNat (64 * n))) s := by
  unfold Machine.readImage
  rw [get_run]
  have c := State.Flat.collect (ag := imageAgent s asid none) f (show 6 ≤ 7 by decide) (va := va) (total := 64 * n) 0 n hv (by omega) h
  rw [show (64 * n + 63) / 64 = n by omega]
  simp only [Nat.zero_add, List.map_id'] at c
  rw [bind_ok c, pure_run]
  congr 2
  have flat : ∀ k, ((List.range k).map (fun i => s.mem.readN (va.toNat + 64 * i) 64)).flatten = s.mem.readN va.toNat (64 * k) := by
    intro k
    induction k with
    | zero => rfl
    | succ k ih => rw [List.range_succ, List.map_append, List.flatten_append, ih, Nat.mul_succ, Memory.readN_add]; simp
  rw [flat]

/-- Pieces of 64 bytes are written where their places are mapped, whatever they hold. -/
theorem State.Flat.pieces {ag : Agent} (ha : 6 ≤ ag.srce) {va : DWord} (hv : va.toNat % 64 = 0) {total : Nat} (h : va.toNat + total ≤ 2 ^ 30)
    (data : Nat → List Byte) (hd : ∀ i, (data i).length = 64) (l : List Nat) (hi : ∀ i ∈ l, 64 * i + 64 ≤ total) {s : State}
    (f : s.Flat ag.asid) (hl : s.launch? ag.ctx.launch = none) :
    ∃ u, eachM l (fun i => Machine.writeMem ag 0 (va + BitVec.ofNat 64 (64 * i)) (data i)) s = .ok () u := by
  induction l generalizing s with
  | nil => exact ⟨s, rfl⟩
  | cons i l ih =>
    have := hi i (by simp)
    have hv2 : (va + BitVec.ofNat 64 (64 * i)).toNat = va.toNat + 64 * i := by
      rw [BitVec.toNat_add, BitVec.toNat_ofNat]; omega
    have one := f.writeMem (pol := 0) ha hl (va := va + BitVec.ofNat 64 (64 * i)) (data := data i) (by omega) (by rw [hd]; omega)
    unfold eachM
    rw [bind_ok one]
    exact ih (fun j hj => hi j (by simp [hj])) (f.written _ _ (by rw [hd]; omega)) hl

/-- An image is written where its place is mapped, whatever it holds. -/
theorem State.Flat.writeImage {s : State} {asid : Nat} (f : s.Flat asid) (hl : s.launch? s.nextLaunch = none) {va : DWord}
    (hv : va.toNat % 64 = 0) {total : Nat} (img : Nat) (h : va.toNat + total ≤ 2 ^ 30) (o : Option (Nat × Nat)) :
    ∃ t, writeImage asid o va total img s = .ok () t := by
  unfold Machine.writeImage
  rw [get_run]
  exact State.Flat.pieces (ag := imageAgent s asid o) (show 6 ≤ 7 by decide) hv h _ (fun i => natBytes_length _ _) _
    (fun i hi => by have := List.mem_range.1 hi; omega) f hl

/-- The header of an image and the image are read where they stand; its bytes after the first `k` pieces are zero. -/
theorem State.Flat.reads {s : State} {asid : Nat} (f : s.Flat asid) {va : DWord} {img : Nat} (k n : Nat) (hk : 4 ≤ k) (hn : k ≤ n)
    (hv : va.toNat % 64 = 0) (hb : va.toNat + 64 * n ≤ 2 ^ 30) (hz : ∀ e ∈ s.mem, e.1 < va.toNat + 64 * k ∨ va.toNat + 64 * n ≤ e.1)
    (hh : imgTotal (leNat (s.mem.readN va.toNat 256)) = 64 * n) (hi : leNat (s.mem.readN va.toNat (64 * k)) = img) :
    Machine.readImage asid va 256 s = .ok (leNat (s.mem.readN va.toNat 256)) s ∧
    Machine.readImage asid va (max 256 (imgTotal (leNat (s.mem.readN va.toNat 256)))) s = .ok img s := by
  refine ⟨f.readImage (n := 4) hv (by omega), ?_⟩
  rw [hh, show max 256 (64 * n) = 64 * n by omega, f.readImage hv hb]
  congr 1
  have e : 64 * n = 64 * k + (64 * n - 64 * k) := by omega
  have z : s.mem.readN (va.toNat + 64 * k) (64 * n - 64 * k) = List.replicate _ 0 :=
    Memory.readN_unlisted (fun e he => by have := hz e he; omega)
  rw [e, Memory.readN_add, z, leNat_append_zeros, hi]

/-- A THAW of an image in memory, whose bytes after the first `k` pieces are zero, is the rest of its meaning. -/
theorem State.Flat.thaw {s t : State} {asid : Nat} (f : s.Flat asid) {va : DWord} {grant r img : Nat} (k n : Nat) (hk : 4 ≤ k) (hn : k ≤ n)
    (hv : va.toNat % 64 = 0) (hb : va.toNat + 64 * n ≤ 2 ^ 30) (hz : ∀ e ∈ s.mem, e.1 < va.toNat + 64 * k ∨ va.toNat + 64 * n ≤ e.1)
    (hh : imgTotal (leNat (s.mem.readN va.toNat 256)) = 64 * n) (hi : leNat (s.mem.readN va.toNat (64 * k)) = img)
    (hok : imageOk img = true) (ht : thawImage img grant asid s = .ok r t) : thawM va grant asid s = .ok r t := by
  obtain ⟨h1, h2⟩ := f.reads k n hk hn hv hb hz hh hi
  unfold thawM wholly
  have body : (do
      let head ← Machine.readImage asid va 256
      let img ← Machine.readImage asid va (max 256 (imgTotal head))
      require (imageOk img) 0x321
      thawImage img grant asid : M Nat) s = .ok r t := by
    rw [bind_ok h1, bind_ok h2, require_bind hok, ht]
  rw [body]

/-- A mailbox FREEZE of a launch that is frozen already writes its image. -/
theorem State.Flat.freeze {s : State} {l : Launch} {n va : DWord} (m : Nat) (hl : s.launch? n.toNat = some l) (hn : l.num = n.toNat)
    (hr : l.run = .frozen) (f : s.Flat l.asid.toNat) (hf : s.launch? s.nextLaunch = none) (h0 : va ≠ 0) (hv : va.toNat % 256 = 0)
    (h : va.toNat + (s.image l).1 ≤ 2 ^ 30) : ∃ u, freezeM (some m) n va (fun l => l.asid.toNat) s = .ok (s.image l).1 u := by
  obtain ⟨t, ht⟩ := f.writeImage hf (va := va) (by omega) (s.image l).2 h none
  have hreq : (va == 0 || (va.toNat % 256 == 0 && va.toNat / 2 ^ 60 == 0)) = true := by
    rw [show va.toNat / 2 ^ 60 = 0 by omega, hv]; simp
  have htgt : freezeTarget n (fun l => l.run != .freezing || l.freezer == some m) s = .ok l s := by
    unfold freezeTarget; rw [get_run, hl]; simp [hr]
  have hg : (s.launch? l.num).getD l = l := by rw [hn, hl]; rfl
  unfold freezeM
  rw [bind_ok htgt, require_bind hreq, if_neg (by rw [hr]; decide)]
  dsimp only
  rw [get_run, hg, if_neg (by rw [hr]; decide), get_run, hg, if_neg h0]
  exact ⟨_, (bind_ok ht).trans rfl⟩

end Sys2Proof.Machine
end

