-- ==== Sys2Proof/Laws/Keep.lean ====
section
/-! SUPPORT. What an operation keeps, whether it goes on, waits or traps; and that every access to memory keeps the machine
but for what an access may change. -/
set_option Elab.async false
namespace Sys2Proof.Machine

/-! ## Operations that keep a property of the state -/

/-- The state that an operation ends in. -/
def endOf {α : Type} (m : M α) (s : State) : State :=
  match m s with
  | .ok _ t => t
  | .error _ t => t

/-- An operation keeps a property of the state, however it ends. -/
def Holds {α : Type} (P : State → Prop) (m : M α) : Prop := ∀ s, P s → P (endOf m s)

variable {α β : Type} {P : State → Prop}

theorem Holds.ok {m : M α} (h : Holds P m) {s t : State} {a : α} (hs : P s) (hm : m s = .ok a t) : P t := by
  have := h s hs; simpa [endOf, hm] using this
theorem Holds.error {m : M α} (h : Holds P m) {s t : State} {e : Stop} (hs : P s) (hm : m s = .error e t) : P t := by
  have := h s hs; simpa [endOf, hm] using this

theorem Holds.pure (a : α) : Holds P (pure a : M α) := fun _ h => h
theorem Holds.throw (e : Stop) : Holds P (throw e : M α) := fun _ h => h
theorem Holds.fault (c : Nat) : Holds P (fault c : M α) := fun _ h => h
theorem Holds.faultAt (c : Nat) (va : DWord) : Holds P (faultAt c va : M α) := fun _ h => h
theorem Holds.waitFor (a : Await) : Holds P (waitFor a : M α) := fun _ h => h
theorem Holds.require (b : Bool) (c : Nat) : Holds P (require b c) := by
  unfold Machine.require; split
  · exact Holds.pure _
  · exact Holds.fault _
theorem Holds.waitUnless (b : Bool) (a : Await) : Holds P (waitUnless b a) := by
  unfold Machine.waitUnless; split
  · exact Holds.pure _
  · exact Holds.waitFor _

theorem Holds.bind {m : M α} {f : α → M β} (hm : Holds P m) (hf : ∀ a, Holds P (f a)) : Holds P (m >>= f) := by
  intro s hs
  have h := hm s hs
  show P (endOf (fun s => EStateM.bind m f s) s)
  unfold endOf at *
  unfold EStateM.bind
  cases hms : m s with
  | ok a t => rw [hms] at h; simp only [hms]; exact hf a t h
  | error e t => rw [hms] at h; simp only [hms]; exact h

/-- After `get`, the state read has the property. -/
theorem Holds.get {f : State → M α} (hf : ∀ s, P s → Holds P (f s)) : Holds P (get >>= f) := fun s hs => hf s hs s hs

theorem Holds.set {t : State} (h : P t) : Holds P (set t : M Unit) := fun _ _ => h
theorem Holds.modify {f : State → State} (h : ∀ s, P s → P (f s)) : Holds P (modify f : M Unit) := fun s hs => h s hs
theorem Holds.modCx {f : Ctx → Ctx} (h : ∀ s : State, P s → P { s with cx := f s.cx }) : Holds P (modCx f) := fun s hs => h s hs

theorem Holds.ite {c : Prop} [Decidable c] {a b : M α} (ha : c → Holds P a) (hb : ¬c → Holds P b) : Holds P (if c then a else b) := by
  split
  · exact ha ‹_›
  · exact hb ‹_›

theorem Holds.withTrap {f : Trap → Trap} {m : M α} (hm : Holds P m) : Holds P (withTrap f m) := by
  intro s hs
  have h := hm s hs
  unfold endOf at *
  unfold Machine.withTrap
  cases hms : m s with
  | ok a t => rw [hms] at h; exact h
  | error e t => rw [hms] at h; cases e <;> exact h

theorem Holds.eachM {l : List α} {f : α → M Unit} (hf : ∀ a, Holds P (f a)) : Holds P (eachM l f) := by
  induction l with
  | nil => exact Holds.pure _
  | cons a l ih => exact Holds.bind (hf a) (fun _ => ih)

theorem Holds.collectM {l : List α} {f : α → M β} (hf : ∀ a, Holds P (f a)) : Holds P (collectM l f) := by
  induction l with
  | nil => exact Holds.pure _
  | cons a l ih => exact Holds.bind (hf a) (fun _ => Holds.bind ih (fun _ => Holds.pure _))

/-! ## Accesses keep the rest of the machine -/

/-- A context but for its scratchpad frame. -/
def Ctx.kept (c : Ctx) : Ctx := { c with spad := [] }
/-- The machine but for memory, tags, the lines of the caches, the frames, the hits of watchpoints not yet reported, and the
shadow writes that wait. -/
def State.kept (s : State) : State :=
  { s with mem := [], tags := [], l2 := [], hits := [], firstWrites := [], cx := s.cx.kept, others := s.others.map Ctx.kept }
theorem Ctx.still_kept (c : Ctx) : c.kept.still = c.still := rfl
theorem State.still_kept (s : State) : s.kept.still = s.still := by
  unfold State.still State.kept; simp only [List.map_map]; rfl
theorem State.still_of_kept {s t : State} (h : s.kept = t.kept) : s.still = t.still := by
  rw [← State.still_kept s, h, State.still_kept]
/-- Accesses leave what says where the context in focus stands. -/
theorem State.stands_of_kept {s t : State} (h : t.kept = s.kept) (q : SeqId) : s.Stands q t where
  id := by have := congrArg (fun u : State => u.cx.id) h; exact this
  tok := by have := congrArg (fun u : State => u.cx.tok) h; exact this
  seq := by have := congrArg (fun u : State => u.cx.seq q) h; cases q <;> exact this
  cur := by have := congrArg (fun u : State => u.cur) h; exact this

/-- The machine but for what accesses change is `k`. -/
abbrev KeptAs (k : State) (s : State) : Prop := s.kept = k

/-- An operation changes nothing but what accesses change. -/
def Keeps (m : M α) : Prop := ∀ k, Holds (KeptAs k) m

theorem Keeps.ok {m : M α} (h : Keeps m) {s t : State} {a : α} (hm : m s = .ok a t) : t.kept = s.kept := (h s.kept).ok rfl hm

theorem kept_mem (s : State) (m : Memory) : ({ s with mem := m } : State).kept = s.kept := rfl

theorem kept_mem_tags (s : State) (m : Memory) (t : Tags) : ({ s with mem := m, tags := t } : State).kept = s.kept := rfl

theorem Ctx.kept_spad (c : Ctx) (m : Memory) : ({ c with spad := m } : Ctx).kept = c.kept := rfl

theorem kept_updCtx (s : State) (c : CtxId) (f : Ctx → Ctx) (h : ∀ x : Ctx, (f x).kept = x.kept) : (s.updCtx c f).kept = s.kept := by
  unfold State.updCtx State.kept
  split
  · simp [h]
  · simp only [List.map_map]
    congr 1
    apply List.map_congr_left
    intro x _
    simp only [Function.comp]
    split
    · exact h x
    · rfl

theorem kept_dropLines (p : L2Line → Bool) (s : State) : (dropLines p s).kept = s.kept := rfl
theorem kept_cleanLines (p : L2Line → Bool) (s : State) : (cleanLines p s).kept = s.kept := rfl
theorem kept_freshLines (p : L2Line → Bool) (s : State) : (freshLines p s).kept = s.kept := rfl
theorem kept_inOrderOf (ag : Agent) (t : Tr) (s : State) : (inOrderOf ag t s).kept = s.kept := by
  unfold inOrderOf; split
  · exact kept_dropLines _ s
  · rfl
theorem kept_fillLine (d l : Nat) (s : State) : (fillLine d l s).kept = s.kept := by unfold fillLine; split <;> rfl
theorem kept_markDirty (s : State) (l k : Nat) : (markDirty s l k).kept = s.kept := by
  unfold markDirty; simp only; split
  · split <;> rfl
  · rfl
theorem kept_updLine (d l : Nat) (f : L2Line → L2Line) (s : State) : (updLine d l f s).kept = s.kept := rfl
theorem kept_bringLine (ag : Agent) (l : Nat) (m : BitVec 128) (s : State) : (bringLine ag l m s).kept = s.kept := by
  unfold bringLine; dsimp only; split
  · rw [kept_updLine, kept_fillLine]
  · exact kept_fillLine ..
theorem kept_putByte (w : Bool) (p : Nat) (ag : Agent) (k : Byte) (a : Nat) (b : Byte) (s : State) : (putByte w p ag k a b s).kept = s.kept := by
  unfold putByte; split
  · rw [kept_updLine, kept_bringLine]
  · dsimp only; split
    · rw [kept_updLine, kept_mem]
    · exact kept_mem ..
theorem kept_putBytes (w : Bool) (p : Nat) (ag : Agent) (k : Byte) (a : Nat) (bs : List Byte) (s : State) :
    (putBytes w p ag k a bs s).kept = s.kept := by
  induction bs generalizing a s with
  | nil => rfl
  | cons b bs ih => exact (ih _ _).trans (kept_putByte ..)
theorem kept_copyPage (s : State) (a b : Nat) : (copyPage s a b).kept = s.kept := by
  unfold copyPage dropPage; dsimp only; rw [kept_mem_tags, kept_dropLines, kept_dropLines]
theorem kept_firstWrite (s : State) : (firstWrite s).kept = s.kept := by
  unfold firstWrite; split
  · rfl
  · simp only; rw [kept_mem, kept_markDirty]
    split
    · rw [kept_mem, kept_copyPage, kept_markDirty]; rfl
    · exact kept_dropLines ..
theorem kept_ite {c : Prop} [Decidable c] {a b k : State} (ha : a.kept = k) (hb : b.kept = k) : (if c then a else b).kept = k := by
  split
  · exact ha
  · exact hb
theorem kept_foldl {γ : Type} (f : State → γ → State) (h : ∀ s x, (f s x).kept = s.kept) (l : List γ) (s : State) :
    (l.foldl f s).kept = s.kept := by
  induction l generalizing s with
  | nil => rfl
  | cons x l ih => exact (ih _).trans (h s x)
theorem kept_settleWrites (s : State) : (settleWrites s).kept = s.kept := kept_foldl _ (fun s _ => kept_firstWrite s) _ _
theorem kept_released (n : Nat) (s : State) : (s.released n).kept = s.kept := by
  unfold State.released; simp only; split
  · exact kept_settleWrites s
  · rw [kept_cleanLines]; exact kept_settleWrites s
theorem kept_acquired (n : Nat) (s : State) : (s.acquired n).kept = s.kept := by
  unfold State.acquired; simp only; split
  · rfl
  · rw [kept_freshLines]; split
    · exact kept_dropLines _ s
    · rfl

theorem Keeps.modify {f : State → State} (h : ∀ s, (f s).kept = s.kept) : Keeps (modify f : M Unit) :=
  fun _ => Holds.modify (fun s hs => (h s).trans hs)
theorem Keeps.modCx {f : Ctx → Ctx} (h : ∀ c : Ctx, (f c).kept = c.kept) : Keeps (modCx f) :=
  Keeps.modify (fun s => by unfold State.kept; simp only [h])

theorem release_keeps (n : Nat) : Keeps (release n) := Keeps.modify (kept_released n)
theorem acquire_keeps (n : Nat) : Keeps (acquire n) := Keeps.modify (kept_acquired n)
theorem markA_keeps (t : Tr) : Keeps (markA t) := Keeps.modify (fun s => kept_mem s _)
theorem markD_keeps (t : Tr) : Keeps (markD t) := Keeps.modify (fun s => kept_mem s _)

theorem passA_keeps (k : Acc) (va : DWord) (t : Tr) : Keeps (passA k va t) := by
  intro P; unfold passA
  exact Holds.ite (fun _ => markA_keeps t P) (fun _ => Holds.pure _)

theorem translateAll_keeps (ag : Agent) (k : Acc) (x : Bool) (l : List (DWord × Nat)) : Keeps (translateAll ag k x l) := by
  intro P
  induction l with
  | nil => exact Holds.pure _
  | cons x rest ih =>
    unfold translateAll
    refine Holds.get (fun s _ => ?_)
    split
    · exact Holds.bind (passA_keeps _ _ _ P) (fun _ => Holds.bind ih (fun _ => Holds.pure _))
    · refine Holds.get (fun s _ => ?_)
      split
      · exact Holds.faultAt _ _
      · split
        · exact Holds.bind (passA_keeps _ _ _ P) (fun _ => Holds.faultAt _ _)
        · exact Holds.faultAt _ _

theorem pages_keeps (ag : Agent) (k : Acc) (va : DWord) (n : Nat) : Keeps (pages ag k va n) := by
  intro P
  unfold pages
  refine Holds.ite (fun _ => Holds.faultAt _ _) (fun _ => Holds.bind (translateAll_keeps ag k _ _ P) (fun _ => ?_))
  split
  · exact Holds.ite (fun _ => Holds.faultAt _ _) (fun _ => Holds.pure _)
  · exact Holds.pure _

theorem tagCheck_keeps (k : Acc) (g : Seg) : Keeps (tagCheck k g) := by
  intro P
  unfold tagCheck
  refine Holds.get (fun s _ => Holds.ite (fun _ => ?_) (fun _ => Holds.pure _))
  dsimp only
  split
  · exact Holds.throw _
  · exact Holds.pure _

theorem watchCheck_keeps (ag : Agent) (k : Acc) (va : DWord) (n : Nat) : Keeps (watchCheck ag k va n) := by
  intro P
  unfold watchCheck
  exact Holds.get (fun s hs => Holds.ite (fun _ => Holds.faultAt _ _) (fun _ => Holds.set (by exact hs)))

theorem homeCheck_keeps (k : Acc) (segs : List Seg) : Keeps (homeCheck k segs) := by
  intro P
  unfold homeCheck
  refine Holds.get (fun s _ => ?_)
  dsimp only
  split
  · exact Holds.faultAt _ _
  · exact Holds.faultAt _ _
  · exact Holds.pure _

theorem reachCheck_keeps (ag : Agent) (segs : List Seg) : Keeps (reachCheck ag segs) := by
  intro P
  unfold reachCheck
  split
  · exact Holds.ite (fun _ => Holds.pure _) (fun _ => Holds.faultAt _ _)
  · exact Holds.pure _

theorem checkAccess_keeps (ag : Agent) (k : Acc) (va : DWord) (n : Nat) : Keeps (checkAccess ag k va n) := fun P =>
  Holds.bind (pages_keeps ag k va n P) (fun segs => Holds.bind (reachCheck_keeps ag segs P) (fun _ => Holds.bind (homeCheck_keeps k segs P)
    (fun _ => Holds.bind (Holds.eachM (fun g => tagCheck_keeps k g P)) (fun _ => Holds.bind (watchCheck_keeps ag k va n P) (fun _ => Holds.pure _)))))

theorem fetchSeg_keeps (ag : Agent) (pol : Nat) (g : Seg) : Keeps (fetchSeg ag pol g) := by
  intro P
  unfold fetchSeg
  refine Holds.get (fun s hs => Holds.ite (fun _ => ?_) (fun _ => Holds.ite (fun _ => ?_) (fun _ => ?_)))
  · split
    · exact Holds.faultAt _ _
    · exact Holds.pure _
  · exact Holds.bind (Holds.set ((kept_dropLines _ s).trans hs)) (fun _ => Holds.pure _)
  · refine Holds.bind (Holds.set ?_) (fun _ => Holds.pure _)
    show KeptAs P _
    split
    · exact (kept_foldl _ (fun s x => kept_bringLine ag x 0 s) _ _).trans hs
    · exact hs

theorem readSeg_keeps (ag : Agent) (pol : Nat) (g : Seg) : Keeps (readSeg ag pol g) := fun P =>
  Holds.bind (Keeps.modify (kept_inOrderOf ag g.tr) P) (fun _ => fetchSeg_keeps ag pol g P)

theorem readSegs_keeps (ag : Agent) (pol : Nat) (l : List Seg) : Keeps (readSegs ag pol l) := by
  intro P
  induction l with
  | nil => exact Holds.pure _
  | cons g gs ih => exact Holds.bind (readSeg_keeps ag pol g P) (fun _ => Holds.bind ih (fun _ => Holds.pure _))

theorem writeSegBits_keeps (ag : Agent) (pol : Nat) (k : Acc) (mask : Byte) (g : Seg) (data : List Byte) :
    Keeps (writeSegBits ag pol k mask g data) := by
  intro P
  unfold writeSegBits
  refine Holds.get (fun s hs => Holds.ite (fun _ => ?_) (fun _ => ?_))
  · split
    · exact Holds.faultAt _ _
    · exact Holds.bind (markD_keeps g.tr P) (fun _ => Holds.bind (Keeps.modify (kept_inOrderOf ag g.tr) P)
        (fun _ => Holds.modify (fun s hs => (kept_updCtx s _ _ (fun _ => Ctx.kept_spad _ _)).trans hs)))
  · refine Holds.bind (markD_keeps g.tr P) (fun _ => Holds.bind (Keeps.modify (kept_inOrderOf ag g.tr) P)
      (fun _ => Holds.get (fun s hs => Holds.ite (fun _ => ?_) (fun _ => ?_))))
    · exact Holds.set hs
    · refine Holds.set ?_
      show KeptAs P _
      have h1 : (if data.isEmpty = true then markDirty s ag.ctx.launch (g.key k)
        else markDirty (markDirty s ag.ctx.launch (g.key k)) ag.ctx.launch (g.key k + data.length - 1)).kept = P :=
        kept_ite ((kept_markDirty ..).trans hs) (((kept_markDirty ..).trans (kept_markDirty ..)).trans hs)
      exact (kept_putBytes ..).trans (kept_ite ((kept_dropLines _ _).trans h1) h1)

theorem writeSeg_keeps (ag : Agent) (pol : Nat) (k : Acc) (g : Seg) (data : List Byte) : Keeps (writeSeg ag pol k g data) :=
  writeSegBits_keeps ag pol k 0xFF g data

theorem writeSegsBits_keeps (ag : Agent) (pol : Nat) (k : Acc) (mask : Byte) (l : List Seg) (data : List Byte) :
    Keeps (writeSegsBits ag pol k mask l data) := by
  intro P
  induction l generalizing data with
  | nil => exact Holds.pure _
  | cons g gs ih => exact Holds.bind (writeSegBits_keeps ag pol k mask g _ P) (fun _ => ih _)

theorem writeSegs_keeps (ag : Agent) (pol : Nat) (k : Acc) (l : List Seg) (data : List Byte) : Keeps (writeSegs ag pol k l data) :=
  writeSegsBits_keeps ag pol k 0xFF l data

theorem readMem_keeps (ag : Agent) (pol : Nat) (va : DWord) (n : Nat) : Keeps (readMem ag pol va n) := fun P =>
  Holds.bind (checkAccess_keeps ag .read va n P) (fun _ => readSegs_keeps ag pol _ P)
theorem writeMem_keeps (ag : Agent) (pol : Nat) (va : DWord) (data : List Byte) : Keeps (writeMem ag pol va data) := fun P =>
  Holds.bind (checkAccess_keeps ag .write va _ P) (fun _ => writeSegs_keeps ag pol .write _ data P)

end Sys2Proof.Machine
end

