-- ==== Sys2Proof/Laws/Launches.lean ====
section
/-! SUPPORT. What happens to a launch leaves the context in focus, one of another launch, where it stands. -/
set_option Elab.async false
namespace Sys2Proof.Machine

/-- The completion record is written, or the write fails: nothing else changes. -/
theorem crecWrite_kept (l : Launch) (off : Nat) (data : List Byte) (s : State) : (crecWrite l off data s).kept = s.kept := by
  have h := writeMem_keeps (machineAgent l.num l.asid.toNat) 0 (l.crec + BitVec.ofNat 64 off) data s.kept s rfl
  unfold endOf at h
  unfold crecWrite
  cases hw : writeMem (machineAgent l.num l.asid.toNat) 0 (l.crec + BitVec.ofNat 64 off) data s <;> simpa [hw] using h

theorem crecFinal_kept (l : Launch) (a b : Nat) (s : State) : (crecFinal l a b s).kept = s.kept := by
  unfold crecFinal; rw [crecWrite_kept, crecWrite_kept, crecWrite_kept, kept_cleanLines]

/-- The context in focus but for its scratchpad frame, and the sequencer that has its turn. -/
def State.focal (s : State) : Ctx × SeqId := (s.cx.kept, s.cur)
theorem State.focal_of_kept {s t : State} (h : s.kept = t.kept) : s.focal = t.focal := by
  have := congrArg (fun u : State => (u.cx, u.cur)) h; exact this
theorem State.stands_of_focal {s t : State} (h : t.focal = s.focal) (q : SeqId) : s.Stands q t where
  id := by have := congrArg (fun u => u.1.id) h; exact this
  tok := by have := congrArg (fun u => u.1.tok) h; exact this
  seq := by have := congrArg (fun u => u.1.seq q) h; cases q <;> exact this
  cur := by have := congrArg (fun u => u.2) h; exact this
theorem State.launch_of_focal {s t : State} (h : t.focal = s.focal) : t.cx.id = s.cx.id := (State.stands_of_focal h .k).id

theorem updCtx_focal {s : State} {c : CtxId} (h : s.cx.id ≠ c) (f : Ctx → Ctx) : (s.updCtx c f).focal = s.focal := by
  unfold State.updCtx; rw [if_neg h]; rfl

theorem endLaunch_focal {s : State} {n : Nat} (h : s.cx.id.launch ≠ n) (a b : Nat) : (s.endLaunch n a b).focal = s.focal := by
  unfold State.endLaunch
  cases s.launch? n with
  | none => rfl
  | some l =>
    refine (State.focal_of_kept (crecFinal_kept _ a b _)).trans ?_
    simp [State.focal, State.forget, State.freeEngines, h]

theorem settle_focal {s : State} {n : Nat} (h : s.cx.id.launch ≠ n) : (s.settle n).focal = s.focal := by
  unfold State.settle
  dsimp only
  split
  · rfl
  · split
    · exact endLaunch_focal (s := s.updLaunch n _) h _ _
    · rfl

theorem toHandler_focal {s : State} {c : CtxId} (h : s.cx.id.launch ≠ c.launch) (n : Nat) (f : Frame) :
    (toHandler c n f s).focal = s.focal := by
  have hc : s.cx.id ≠ c := fun e => h (congrArg CtxId.launch e)
  unfold toHandler
  cases hl : s.launch? c.launch with
  | none => rfl
  | some l =>
    have hn : l.num = c.launch := by simpa using List.find?_some hl
    dsimp only
    split
    · exact updCtx_focal hc _
    · split
      · exact endLaunch_focal (by rwa [hn]) _ _
      · rfl

theorem reloadK_focal {s : State} {c : Ctx} (l : Launch) (h : s.cx.id ≠ c.id) : (reloadK l c s).focal = s.focal := by
  unfold reloadK
  split
  · exact updCtx_focal h _
  · rfl

theorem foldl_focal {α : Type} (f : State → α → State) (n : Nat) (P : α → Prop)
    (h : ∀ s x, P x → s.cx.id.launch ≠ n → (f s x).focal = s.focal) (l : List α) (hl : ∀ x ∈ l, P x) (s : State) (hs : s.cx.id.launch ≠ n) :
    (l.foldl f s).focal = s.focal := by
  induction l generalizing s with
  | nil => rfl
  | cons x l ih =>
    have hx := h s x (hl x (by simp)) hs
    exact (ih (fun y hy => hl y (by simp [hy])) _ (by rwa [State.launch_of_focal hx])).trans hx

theorem routeCarried_focal {s : State} (l : Launch) (h : s.cx.id.launch ≠ l.num) : (routeCarried l s).focal = s.focal := by
  unfold routeCarried
  refine foldl_focal _ l.num (fun _ => True) (fun s n _ hs => ?_) _ (fun _ _ => trivial) s h
  cases hc : s.ctx? ⟨l.num, n⟩ with
  | none => rfl
  | some c =>
    have hid : c.id = ⟨l.num, n⟩ := by simpa using List.find?_some hc
    dsimp only
    cases c.frameOut with
    | none => rfl
    | some f =>
      have h1 : s.cx.id ≠ c.id := fun e => hs (by rw [e, hid])
      have h2 := updCtx_focal h1 (fun c => { c with frameOut := none })
      refine (toHandler_focal ?_ _ f).trans h2
      rw [State.launch_of_focal h2, hid]; exact hs

/-- A launch runs again: the context in focus, one of another launch, stands where it stood. -/
theorem restart_focal {s : State} (l : Launch) (h : s.cx.id.launch ≠ l.num) : (restart l s).focal = s.focal := by
  unfold restart
  dsimp only
  have h1 := State.focal_of_kept (crecWrite_kept l 8 (natBytes 8 (l.num % 2 ^ 64)) s)
  generalize crecWrite l 8 (natBytes 8 (l.num % 2 ^ 64)) s = s1 at h1 ⊢
  have e1 : s1.cx.id.launch ≠ l.num := by rwa [State.launch_of_focal h1]
  have h2 : ((s1.ctxs.filter (fun c => c.id.launch == l.num && c.id.lcore != Config.handlerLcore)).foldl (fun s c => reloadK l c s) s1).focal
      = s1.focal := by
    refine foldl_focal _ l.num (fun c => c.id.launch = l.num) (fun s c hc hs => reloadK_focal l (fun e => hs (by rw [e, hc]))) _ ?_ s1 e1
    intro c hc
    have h := (List.mem_filter.1 hc).2
    simp only [Bool.and_eq_true, beq_iff_eq] at h
    exact h.1
  generalize (s1.ctxs.filter (fun c => c.id.launch == l.num && c.id.lcore != Config.handlerLcore)).foldl (fun s c => reloadK l c s) s1 = s2 at h2 ⊢
  have e2 : s2.cx.id.launch ≠ l.num := by rwa [State.launch_of_focal h2]
  have h3 := routeCarried_focal l e2
  exact (settle_focal (by rwa [State.launch_of_focal h3])).trans (h3.trans (h2.trans h1))

theorem readGraph_keeps (ag : Agent) (l : Launch) (n : Nat) : Keeps (readGraph ag l n) := by
  intro P
  unfold readGraph
  refine Holds.bind (Holds.collectM fun i => Holds.bind (readMem_keeps _ _ _ _ P) fun _ => Holds.pure _) fun recs =>
    Holds.bind (Holds.collectM fun n => Holds.ite (fun _ => Holds.pure _) fun _ =>
      Holds.bind (Holds.collectM fun i => readMem_keeps _ _ _ _ P) fun _ => Holds.pure _) fun nodes => ?_
  exact Holds.ite (fun _ => Holds.bind (Holds.pure _) fun _ => Holds.pure _) fun _ =>
    Holds.bind (Holds.collectM fun g => Holds.bind (readMem_keeps _ _ _ _ P) fun _ => Holds.pure _) fun _ => Holds.pure _

theorem crecCheck_keeps (ag : Agent) (l : Launch) : Keeps (crecCheck ag l) := by
  intro P s hs
  unfold crecCheck endOf
  dsimp only
  split <;> rename_i h <;> split at h <;> cases h <;> exact hs

/-- Where a composed operation goes on, both parts do. -/
theorem of_bind_ok {α β : Type} {m : M α} {f : α → M β} {s t : State} {b : β} (h : (m >>= f) s = .ok b t) :
    ∃ a u, m s = .ok a u ∧ f a u = .ok b t := by
  cases hm : m s with
  | ok a u => exact ⟨a, u, rfl, by rw [← h, bind_ok hm]⟩
  | error e u =>
    have : (m >>= f) s = .error e u := by show EStateM.bind m f s = _; unfold EStateM.bind; rw [hm]
    rw [this] at h; cases h

/-- Where a checked operation goes on, the check has passed. -/
theorem of_check_ok {α : Type} {c : Prop} [Decidable c] {k : Nat} {m : M α} {s t : State} {a : α}
    (h : (if c then fault k else m) s = .ok a t) : m s = .ok a t := by
  split at h
  · cases h
  · exact h

/-- A packet is checked: nothing but what accesses change, and the launch is under the next number. -/
theorem checkPacket_keeps (p : Nat) (issuer : Option Nat) : Keeps (checkPacket p issuer) := by
  intro P
  unfold checkPacket
  refine Holds.get fun s _ => Holds.ite (fun _ => Holds.fault _) fun _ => Holds.ite (fun _ => Holds.fault _) fun _ =>
    Holds.bind (readGraph_keeps _ _ _ P) fun r => Holds.ite (fun _ => Holds.fault _) fun _ =>
      Holds.bind (crecCheck_keeps _ _ P) fun _ => Holds.pure _
theorem checkPacket_num {p : Nat} {issuer : Option Nat} {s t : State} {l : Launch} (h : checkPacket p issuer s = .ok l t) :
    l.num = s.nextLaunch := by
  unfold checkPacket at h
  obtain ⟨a, u, h1, h⟩ := of_bind_ok h
  cases h1
  obtain ⟨a, u, h1, h⟩ := of_bind_ok (of_check_ok (of_check_ok h))
  obtain ⟨b, v, h2, h⟩ := of_bind_ok (of_check_ok h)
  cases h
  rfl

theorem Holds.focal_of_keeps {α : Type} {m : M α} (h : Keeps m) (k : Ctx × SeqId) : Holds (fun s => s.focal = k) m := by
  intro s hs
  exact (State.focal_of_kept (h s.kept s rfl)).trans hs

theorem thawCounts_num (l : Launch) (s : State) : (thawCounts l s).num = l.num := by
  unfold thawCounts; split <;> rfl

/-- A thawed launch leaves the context in focus where it stands. -/
theorem thawImage_stands {img grant asid n : Nat} {s t : State} (h : thawImage img grant asid s = .ok n t)
    (hs : s.cx.id.launch ≠ s.nextLaunch) (q : SeqId) : s.Stands q t := by
  refine State.stands_of_focal ?_ q
  unfold thawImage at h
  obtain ⟨l, u, h1, h⟩ := of_bind_ok h
  have f1 : u.focal = s.focal := (Holds.focal_of_keeps (checkPacket_keeps _ _) s.focal).ok rfl h1
  have hl : l.num = s.nextLaunch := checkPacket_num h1
  have hend : ∀ (l' : Launch), l'.num = l.num → Holds (fun v : State => v.focal = s.focal) (modify (restart l')) := fun l' e =>
    Holds.modify fun v hv => (restart_focal l' (by rw [State.launch_of_focal hv, e, hl]; exact hs)).trans hv
  refine Holds.ok (P := fun v : State => v.focal = s.focal) ?_ f1 h
  refine Holds.bind (Holds.require _ _) fun _ => Holds.get fun v _ => Holds.bind (Holds.modify fun _ h => h) fun _ =>
    Holds.bind ?_ fun _ => Holds.bind (Holds.modify fun _ h => h) fun _ => Holds.bind (Holds.modify fun _ h => h) fun _ => ?_
  · unfold restoreTiles
    exact Holds.get fun v _ => Holds.bind (Holds.require _ _) fun _ => Holds.modify fun _ h => h
  · split
    · exact Holds.bind (Holds.modify fun _ h => h) fun _ => Holds.bind (hend _ (thawCounts_num _ _)) fun _ => Holds.pure _
    · exact Holds.bind (hend _ (thawCounts_num _ _)) fun _ => Holds.pure _

end Sys2Proof.Machine
end

