-- ==== Sys2Proof/Laws/Nodes.lean ====
section
/-! SUPPORT. Which nodes a node reaches: those found pass by pass are those at the end of a path of successors (05 R156). -/
set_option Elab.async false
namespace Sys2Proof.Machine

/-- The nodes that a list of nodes reaches in one step. -/
theorem mem_reach_step {nodes : List Node} {seen : List Nat} {j : Nat} :
    j ∈ reach nodes 1 seen ↔ j ∈ seen ∨ ∃ a ∈ seen, ∃ n, nodes[a]? = some n ∧ j ∈ n.succ := by
  simp only [reach, List.mem_dedup, List.mem_append, List.mem_flatMap]
  refine or_congr_right ⟨?_, ?_⟩
  · rintro ⟨a, ha, h⟩
    cases hn : nodes[a]? with
    | none => rw [hn] at h; simp at h
    | some n => rw [hn] at h; exact ⟨a, ha, n, hn, h⟩
  · rintro ⟨a, ha, n, hn, h⟩; exact ⟨a, ha, by rw [hn]; exact h⟩

/-- The last pass. -/
theorem reach_succ (nodes : List Node) (k : Nat) (seen : List Nat) : reach nodes (k + 1) seen = reach nodes 1 (reach nodes k seen) := by
  induction k generalizing seen with
  | zero => rfl
  | succ k ih => rw [reach, ih]; rfl

/-- More passes find no less. -/
theorem reach_mono {nodes : List Node} {seen : List Nat} {j k m : Nat} (h : k ≤ m) (hj : j ∈ reach nodes k seen) : j ∈ reach nodes m seen := by
  induction h with
  | refl => exact hj
  | step _ ih => rw [reach_succ]; exact mem_reach_step.2 (.inl ih)

/-- What has nothing new inside the list stays as it is. -/
theorem reach_closed {nodes : List Node} {seen : List Nat} {k : Nat}
    (h : ∀ j, j < nodes.length → j ∈ reach nodes (k + 1) seen → j ∈ reach nodes k seen) :
    ∀ j, j ∈ reach nodes (k + 2) seen → j ∈ reach nodes (k + 1) seen := by
  intro j hj
  rw [reach_succ] at hj
  rcases mem_reach_step.1 hj with hj | ⟨a, ha, n, hn, hj⟩
  · exact hj
  · have hl : a < nodes.length := (List.getElem?_eq_some_iff.1 hn).1
    rw [reach_succ]; exact mem_reach_step.2 (.inr ⟨a, h a hl ha, n, hn, hj⟩)

/-- Some pass up to the number of nodes finds nothing new inside the list. -/
theorem reach_stops (nodes : List Node) (seen : List Nat) (h0 : ∃ i ∈ seen, i < nodes.length) :
    ∃ k, k < nodes.length ∧ ∀ j, j < nodes.length → j ∈ reach nodes (k + 1) seen → j ∈ reach nodes k seen := by
  by_contra hc
  push Not at hc
  let D (k : Nat) : Finset Nat := (Finset.range nodes.length).filter (· ∈ reach nodes k seen)
  have grow : ∀ k, k ≤ nodes.length → k + 1 ≤ (D k).card := by
    intro k
    induction k with
    | zero =>
      intro _
      obtain ⟨i, hi, hl⟩ := h0
      exact Finset.card_pos.2 ⟨i, Finset.mem_filter.2 ⟨Finset.mem_range.2 hl, hi⟩⟩
    | succ k ih =>
      intro hk
      obtain ⟨j, hl, hj, hn⟩ := hc k (by omega)
      have : D k ⊂ D (k + 1) := by
        refine Finset.ssubset_iff_of_subset (fun x hx => ?_) |>.2 ⟨j, Finset.mem_filter.2 ⟨Finset.mem_range.2 hl, hj⟩, fun hd => hn (Finset.mem_filter.1 hd).2⟩
        have := Finset.mem_filter.1 hx
        exact Finset.mem_filter.2 ⟨this.1, reach_mono (Nat.le_succ k) this.2⟩
      have := Finset.card_lt_card this
      have := ih (by omega)
      omega
  have h1 := grow nodes.length le_rfl
  have h2 : (D nodes.length).card ≤ nodes.length := by
    calc _ ≤ (Finset.range nodes.length).card := Finset.card_filter_le _ _
      _ = _ := Finset.card_range _
  omega

/-- 05 R156: the nodes found are those that a path of successors reaches. -/
theorem mem_reach {l : Launch} {i j : Nat} (hi : i < l.nodes.length) : j ∈ reach l.nodes l.nodes.length [i] ↔ l.reaches i j := by
  constructor
  · have : ∀ k j, j ∈ reach l.nodes k [i] → l.reaches i j := by
      intro k
      induction k with
      | zero => intro j hj; have : j = i := by simpa [reach] using hj
                subst this; exact .refl
      | succ k ih =>
        intro j hj
        rw [reach_succ] at hj
        rcases mem_reach_step.1 hj with hj | ⟨a, ha, h⟩
        · exact ih j hj
        · exact (ih a ha).tail h
    exact this _ j
  · intro h
    obtain ⟨k, hk, hs⟩ := reach_stops l.nodes [i] ⟨i, by simp, hi⟩
    have closed : ∀ m j, j ∈ reach l.nodes (k + 1 + m) [i] → j ∈ reach l.nodes (k + 1) [i] := by
      intro m
      induction m with
      | zero => intro j hj; exact hj
      | succ m ih =>
        intro j hj
        rw [← Nat.add_assoc, reach_succ] at hj
        have hj : j ∈ reach l.nodes (k + 2) [i] := by
          rw [reach_succ]
          rcases mem_reach_step.1 hj with hj | ⟨a, ha, h⟩
          · exact mem_reach_step.2 (.inl (ih j hj))
          · exact mem_reach_step.2 (.inr ⟨a, ih a ha, h⟩)
        exact reach_closed hs j hj
    have : j ∈ reach l.nodes (k + 1) [i] := by
      induction h with
      | refl => exact reach_mono (Nat.zero_le _) (by simp [reach])
      | tail _ h ih =>
        apply closed 1
        rw [reach_succ]; exact mem_reach_step.2 (.inr ⟨_, ih, h⟩)
    exact reach_mono hk this

/-- No node is found twice. -/
theorem nodup_reach (nodes : List Node) (k : Nat) (seen : List Nat) (h : seen.Nodup) : (reach nodes k seen).Nodup := by
  induction k generalizing seen with
  | zero => exact h
  | succ k ih => exact ih _ (List.nodup_dedup _)

end Sys2Proof.Machine
end

