-- ==== Sys2Proof/Laws/PerInstr.lean ====
section
/-! SUPPORT. Families of lemmas about every instruction as syntax. `Fits`: the words of an instruction fill no more bits than
it has words (02 R44, R45); an event of the machine has none. -/
set_option Elab.async false
namespace Sys2Proof.Laws.Fits

/-- The encoding of an instruction fits its words. -/
def Statement (i : Instr) : Prop := encode i < 2 ^ (32 * i.words)

theorem nop (h : Hd) : Statement (.nop h) := by
  have h0q := h.qp.isLt
  have h1q := h.stop.isLt
  have h2q := h.tk.isLt
  simp only [Statement, encode, put, Hd.bits, Instr.words]
  omega
theorem halt (h : Hd) : Statement (.halt h) := by
  have h0q := h.qp.isLt
  have h1q := h.stop.isLt
  have h2q := h.tk.isLt
  simp only [Statement, encode, put, Hd.bits, Instr.words]
  omega
theorem fence (h : Hd) (c : BitVec 3) (o : BitVec 2) : Statement (.fence h c o) := by
  have h0q := h.qp.isLt
  have h1q := h.stop.isLt
  have h2q := h.tk.isLt
  have h3q := c.isLt
  have h4q := o.isLt
  simp only [Statement, encode, put, Hd.bits, Instr.words]
  omega
theorem tkpost (h : Hd) (f : BitVec 2) (n : BitVec 4) : Statement (.tkpost h f n) := by
  have h0q := h.qp.isLt
  have h1q := h.stop.isLt
  have h2q := h.tk.isLt
  have h3q := f.isLt
  have h4q := n.isLt
  simp only [Statement, encode, put, Hd.bits, Instr.words]
  omega
theorem tkwait (h : Hd) (f : BitVec 2) (n : BitVec 4) : Statement (.tkwait h f n) := by
  have h0q := h.qp.isLt
  have h1q := h.stop.isLt
  have h2q := h.tk.isLt
  have h3q := f.isLt
  have h4q := n.isLt
  simp only [Statement, encode, put, Hd.bits, Instr.words]
  omega
theorem pbt (h : Hd) (j : BitVec 2) (m : BitVec 1) (b : BitVec 5) (imm : BitVec 32) : Statement (.pbt h j m b imm) := by
  have h0q := h.qp.isLt
  have h1q := h.stop.isLt
  have h2q := h.tk.isLt
  have h3q := j.isLt
  have h4q := m.isLt
  have h5q := b.isLt
  have h6q := imm.isLt
  simp only [Statement, encode, put, Hd.bits, Instr.words]
  omega
theorem brx (h : Hd) (j : BitVec 2) : Statement (.brx h j) := by
  have h0q := h.qp.isLt
  have h1q := h.stop.isLt
  have h2q := h.tk.isLt
  have h3q := j.isLt
  simp only [Statement, encode, put, Hd.bits, Instr.words]
  omega
theorem brxd (h : Hd) (j : BitVec 2) (b : BitVec 5) : Statement (.brxd h j b) := by
  have h0q := h.qp.isLt
  have h1q := h.stop.isLt
  have h2q := h.tk.isLt
  have h3q := j.isLt
  have h4q := b.isLt
  simp only [Statement, encode, put, Hd.bits, Instr.words]
  omega
theorem add (h : Hq) (d : BitVec 5) (a : BitVec 5) (b : BitVec 5) : Statement (.add h d a b) := by
  have h0q := h.qp.isLt
  have h1q := h.tk.isLt
  have h2q := d.isLt
  have h3q := a.isLt
  have h4q := b.isLt
  simp only [Statement, encode, put, Hq.bits, Instr.words]
  omega
theorem sub (h : Hq) (d : BitVec 5) (a : BitVec 5) (b : BitVec 5) : Statement (.sub h d a b) := by
  have h0q := h.qp.isLt
  have h1q := h.tk.isLt
  have h2q := d.isLt
  have h3q := a.isLt
  have h4q := b.isLt
  simp only [Statement, encode, put, Hq.bits, Instr.words]
  omega
theorem and (h : Hq) (d : BitVec 5) (a : BitVec 5) (b : BitVec 5) : Statement (.and h d a b) := by
  have h0q := h.qp.isLt
  have h1q := h.tk.isLt
  have h2q := d.isLt
  have h3q := a.isLt
  have h4q := b.isLt
  simp only [Statement, encode, put, Hq.bits, Instr.words]
  omega
theorem or (h : Hq) (d : BitVec 5) (a : BitVec 5) (b : BitVec 5) : Statement (.or h d a b) := by
  have h0q := h.qp.isLt
  have h1q := h.tk.isLt
  have h2q := d.isLt
  have h3q := a.isLt
  have h4q := b.isLt
  simp only [Statement, encode, put, Hq.bits, Instr.words]
  omega
theorem xor (h : Hq) (d : BitVec 5) (a : BitVec 5) (b : BitVec 5) : Statement (.xor h d a b) := by
  have h0q := h.qp.isLt
  have h1q := h.tk.isLt
  have h2q := d.isLt
  have h3q := a.isLt
  have h4q := b.isLt
  simp only [Statement, encode, put, Hq.bits, Instr.words]
  omega
theorem shl (h : Hq) (d : BitVec 5) (a : BitVec 5) (b : BitVec 5) : Statement (.shl h d a b) := by
  have h0q := h.qp.isLt
  have h1q := h.tk.isLt
  have h2q := d.isLt
  have h3q := a.isLt
  have h4q := b.isLt
  simp only [Statement, encode, put, Hq.bits, Instr.words]
  omega
theorem shr (h : Hq) (d : BitVec 5) (a : BitVec 5) (b : BitVec 5) : Statement (.shr h d a b) := by
  have h0q := h.qp.isLt
  have h1q := h.tk.isLt
  have h2q := d.isLt
  have h3q := a.isLt
  have h4q := b.isLt
  simp only [Statement, encode, put, Hq.bits, Instr.words]
  omega
theorem sra (h : Hq) (d : BitVec 5) (a : BitVec 5) (b : BitVec 5) : Statement (.sra h d a b) := by
  have h0q := h.qp.isLt
  have h1q := h.tk.isLt
  have h2q := d.isLt
  have h3q := a.isLt
  have h4q := b.isLt
  simp only [Statement, encode, put, Hq.bits, Instr.words]
  omega
theorem mul (h : Hq) (d : BitVec 5) (a : BitVec 5) (b : BitVec 5) : Statement (.mul h d a b) := by
  have h0q := h.qp.isLt
  have h1q := h.tk.isLt
  have h2q := d.isLt
  have h3q := a.isLt
  have h4q := b.isLt
  simp only [Statement, encode, put, Hq.bits, Instr.words]
  omega
theorem mulh (h : Hq) (d : BitVec 5) (a : BitVec 5) (b : BitVec 5) : Statement (.mulh h d a b) := by
  have h0q := h.qp.isLt
  have h1q := h.tk.isLt
  have h2q := d.isLt
  have h3q := a.isLt
  have h4q := b.isLt
  simp only [Statement, encode, put, Hq.bits, Instr.words]
  omega
theorem mulhu (h : Hq) (d : BitVec 5) (a : BitVec 5) (b : BitVec 5) : Statement (.mulhu h d a b) := by
  have h0q := h.qp.isLt
  have h1q := h.tk.isLt
  have h2q := d.isLt
  have h3q := a.isLt
  have h4q := b.isLt
  simp only [Statement, encode, put, Hq.bits, Instr.words]
  omega
theorem div (h : Hq) (d : BitVec 5) (a : BitVec 5) (b : BitVec 5) : Statement (.div h d a b) := by
  have h0q := h.qp.isLt
  have h1q := h.tk.isLt
  have h2q := d.isLt
  have h3q := a.isLt
  have h4q := b.isLt
  simp only [Statement, encode, put, Hq.bits, Instr.words]
  omega
theorem divu (h : Hq) (d : BitVec 5) (a : BitVec 5) (b : BitVec 5) : Statement (.divu h d a b) := by
  have h0q := h.qp.isLt
  have h1q := h.tk.isLt
  have h2q := d.isLt
  have h3q := a.isLt
  have h4q := b.isLt
  simp only [Statement, encode, put, Hq.bits, Instr.words]
  omega
theorem rem (h : Hq) (d : BitVec 5) (a : BitVec 5) (b : BitVec 5) : Statement (.rem h d a b) := by
  have h0q := h.qp.isLt
  have h1q := h.tk.isLt
  have h2q := d.isLt
  have h3q := a.isLt
  have h4q := b.isLt
  simp only [Statement, encode, put, Hq.bits, Instr.words]
  omega
theorem min (h : Hq) (d : BitVec 5) (a : BitVec 5) (b : BitVec 5) : Statement (.min h d a b) := by
  have h0q := h.qp.isLt
  have h1q := h.tk.isLt
  have h2q := d.isLt
  have h3q := a.isLt
  have h4q := b.isLt
  simp only [Statement, encode, put, Hq.bits, Instr.words]
  omega
theorem max (h : Hq) (d : BitVec 5) (a : BitVec 5) (b : BitVec 5) : Statement (.max h d a b) := by
  have h0q := h.qp.isLt
  have h1q := h.tk.isLt
  have h2q := d.isLt
  have h3q := a.isLt
  have h4q := b.isLt
  simp only [Statement, encode, put, Hq.bits, Instr.words]
  omega
theorem addi (h : Hq) (d : BitVec 5) (a : BitVec 5) (i : BitVec 9) : Statement (.addi h d a i) := by
  have h0q := h.qp.isLt
  have h1q := h.tk.isLt
  have h2q := d.isLt
  have h3q := a.isLt
  have h4q := i.isLt
  simp only [Statement, encode, put, Hq.bits, Instr.words]
  omega
theorem andi (h : Hq) (d : BitVec 5) (a : BitVec 5) (i : BitVec 9) : Statement (.andi h d a i) := by
  have h0q := h.qp.isLt
  have h1q := h.tk.isLt
  have h2q := d.isLt
  have h3q := a.isLt
  have h4q := i.isLt
  simp only [Statement, encode, put, Hq.bits, Instr.words]
  omega
theorem ori (h : Hq) (d : BitVec 5) (a : BitVec 5) (i : BitVec 9) : Statement (.ori h d a i) := by
  have h0q := h.qp.isLt
  have h1q := h.tk.isLt
  have h2q := d.isLt
  have h3q := a.isLt
  have h4q := i.isLt
  simp only [Statement, encode, put, Hq.bits, Instr.words]
  omega
theorem xori (h : Hq) (d : BitVec 5) (a : BitVec 5) (i : BitVec 9) : Statement (.xori h d a i) := by
  have h0q := h.qp.isLt
  have h1q := h.tk.isLt
  have h2q := d.isLt
  have h3q := a.isLt
  have h4q := i.isLt
  simp only [Statement, encode, put, Hq.bits, Instr.words]
  omega
theorem shli (h : Hq) (d : BitVec 5) (a : BitVec 5) (i : BitVec 9) : Statement (.shli h d a i) := by
  have h0q := h.qp.isLt
  have h1q := h.tk.isLt
  have h2q := d.isLt
  have h3q := a.isLt
  have h4q := i.isLt
  simp only [Statement, encode, put, Hq.bits, Instr.words]
  omega
theorem shri (h : Hq) (d : BitVec 5) (a : BitVec 5) (i : BitVec 9) : Statement (.shri h d a i) := by
  have h0q := h.qp.isLt
  have h1q := h.tk.isLt
  have h2q := d.isLt
  have h3q := a.isLt
  have h4q := i.isLt
  simp only [Statement, encode, put, Hq.bits, Instr.words]
  omega
theorem srai (h : Hq) (d : BitVec 5) (a : BitVec 5) (i : BitVec 9) : Statement (.srai h d a i) := by
  have h0q := h.qp.isLt
  have h1q := h.tk.isLt
  have h2q := d.isLt
  have h3q := a.isLt
  have h4q := i.isLt
  simp only [Statement, encode, put, Hq.bits, Instr.words]
  omega
theorem movi (h : Hq) (d : BitVec 5) (imm : BitVec 32) : Statement (.movi h d imm) := by
  have h0q := h.qp.isLt
  have h1q := h.tk.isLt
  have h2q := d.isLt
  have h3q := imm.isLt
  simp only [Statement, encode, put, Hq.bits, Instr.words]
  omega
theorem movhi (h : Hq) (d : BitVec 5) (a : BitVec 5) (imm : BitVec 32) : Statement (.movhi h d a imm) := by
  have h0q := h.qp.isLt
  have h1q := h.tk.isLt
  have h2q := d.isLt
  have h3q := a.isLt
  have h4q := imm.isLt
  simp only [Statement, encode, put, Hq.bits, Instr.words]
  omega
theorem cmp (h : Hq) (d : BitVec 3) (a : BitVec 5) (b : BitVec 5) (c : BitVec 4) : Statement (.cmp h d a b c) := by
  have h0q := h.qp.isLt
  have h1q := h.tk.isLt
  have h2q := d.isLt
  have h3q := a.isLt
  have h4q := b.isLt
  have h5q := c.isLt
  simp only [Statement, encode, put, Hq.bits, Instr.words]
  omega
theorem cmpi (h : Hq) (d : BitVec 3) (a : BitVec 5) (c : BitVec 9) (imm : BitVec 32) : Statement (.cmpi h d a c imm) := by
  have h0q := h.qp.isLt
  have h1q := h.tk.isLt
  have h2q := d.isLt
  have h3q := a.isLt
  have h4q := c.isLt
  have h5q := imm.isLt
  simp only [Statement, encode, put, Hq.bits, Instr.words]
  omega
theorem qand (h : Hq) (d : BitVec 3) (a : BitVec 3) (b : BitVec 3) : Statement (.qand h d a b) := by
  have h0q := h.qp.isLt
  have h1q := h.tk.isLt
  have h2q := d.isLt
  have h3q := a.isLt
  have h4q := b.isLt
  simp only [Statement, encode, put, Hq.bits, Instr.words]
  omega
theorem qor (h : Hq) (d : BitVec 3) (a : BitVec 3) (b : BitVec 3) : Statement (.qor h d a b) := by
  have h0q := h.qp.isLt
  have h1q := h.tk.isLt
  have h2q := d.isLt
  have h3q := a.isLt
  have h4q := b.isLt
  simp only [Statement, encode, put, Hq.bits, Instr.words]
  omega
theorem qnot (h : Hq) (d : BitVec 3) (a : BitVec 3) : Statement (.qnot h d a) := by
  have h0q := h.qp.isLt
  have h1q := h.tk.isLt
  have h2q := d.isLt
  have h3q := a.isLt
  simp only [Statement, encode, put, Hq.bits, Instr.words]
  omega
theorem ldx (h : Hq) (d : BitVec 5) (a : BitVec 5) (pol : BitVec 2) (so : BitVec 4) (sz : BitVec 3) (imm : BitVec 32) : Statement (.ldx h d a pol so sz imm) := by
  have h0q := h.qp.isLt
  have h1q := h.tk.isLt
  have h2q := d.isLt
  have h3q := a.isLt
  have h4q := pol.isLt
  have h5q := so.isLt
  have h6q := sz.isLt
  have h7q := imm.isLt
  simp only [Statement, encode, put, Hq.bits, Instr.words]
  omega
theorem stx (h : Hq) (d : BitVec 5) (a : BitVec 5) (pol : BitVec 2) (so : BitVec 4) (sz : BitVec 3) (imm : BitVec 32) : Statement (.stx h d a pol so sz imm) := by
  have h0q := h.qp.isLt
  have h1q := h.tk.isLt
  have h2q := d.isLt
  have h3q := a.isLt
  have h4q := pol.isLt
  have h5q := so.isLt
  have h6q := sz.isLt
  have h7q := imm.isLt
  simp only [Statement, encode, put, Hq.bits, Instr.words]
  omega
theorem stxTag (h : Hq) (d : BitVec 5) (a : BitVec 5) (so : BitVec 4) (imm : BitVec 32) : Statement (.stxTag h d a so imm) := by
  have h0q := h.qp.isLt
  have h1q := h.tk.isLt
  have h2q := d.isLt
  have h3q := a.isLt
  have h4q := so.isLt
  have h5q := imm.isLt
  simp only [Statement, encode, put, Hq.bits, Instr.words]
  omega
theorem ldxp (h : Hq) (d : BitVec 5) (a : BitVec 5) (pol : BitVec 2) (so : BitVec 4) (sz : BitVec 3) (imm : BitVec 32) : Statement (.ldxp h d a pol so sz imm) := by
  have h0q := h.qp.isLt
  have h1q := h.tk.isLt
  have h2q := d.isLt
  have h3q := a.isLt
  have h4q := pol.isLt
  have h5q := so.isLt
  have h6q := sz.isLt
  have h7q := imm.isLt
  simp only [Statement, encode, put, Hq.bits, Instr.words]
  omega
theorem amo (h : Hq) (d : BitVec 5) (a : BitVec 5) (so : BitVec 4) (sz : BitVec 3) (op : BitVec 4) : Statement (.amo h d a so sz op) := by
  have h0q := h.qp.isLt
  have h1q := h.tk.isLt
  have h2q := d.isLt
  have h3q := a.isLt
  have h4q := so.isLt
  have h5q := sz.isLt
  have h6q := op.isLt
  simp only [Statement, encode, put, Hq.bits, Instr.words]
  omega
theorem cinv (h : Hq) (a : BitVec 5) (b : BitVec 5) (c : BitVec 1) : Statement (.cinv h a b c) := by
  have h0q := h.qp.isLt
  have h1q := h.tk.isLt
  have h2q := a.isLt
  have h3q := b.isLt
  have h4q := c.isLt
  simp only [Statement, encode, put, Hq.bits, Instr.words]
  omega
theorem cwb (h : Hq) (a : BitVec 5) (b : BitVec 5) (c : BitVec 1) : Statement (.cwb h a b c) := by
  have h0q := h.qp.isLt
  have h1q := h.tk.isLt
  have h2q := a.isLt
  have h3q := b.isLt
  have h4q := c.isLt
  simp only [Statement, encode, put, Hq.bits, Instr.words]
  omega
theorem pin (h : Hq) (a : BitVec 5) (b : BitVec 5) : Statement (.pin h a b) := by
  have h0q := h.qp.isLt
  have h1q := h.tk.isLt
  have h2q := a.isLt
  have h3q := b.isLt
  simp only [Statement, encode, put, Hq.bits, Instr.words]
  omega
theorem unpin (h : Hq) (a : BitVec 5) (b : BitVec 5) : Statement (.unpin h a b) := by
  have h0q := h.qp.isLt
  have h1q := h.tk.isLt
  have h2q := a.isLt
  have h3q := b.isLt
  simp only [Statement, encode, put, Hq.bits, Instr.words]
  omega
theorem mfs (h : Hq) (d : BitVec 5) (i : BitVec 9) : Statement (.mfs h d i) := by
  have h0q := h.qp.isLt
  have h1q := h.tk.isLt
  have h2q := d.isLt
  have h3q := i.isLt
  simp only [Statement, encode, put, Hq.bits, Instr.words]
  omega
theorem mts (h : Hq) (a : BitVec 5) (i : BitVec 9) : Statement (.mts h a i) := by
  have h0q := h.qp.isLt
  have h1q := h.tk.isLt
  have h2q := a.isLt
  have h3q := i.isLt
  simp only [Statement, encode, put, Hq.bits, Instr.words]
  omega
theorem rdplan (h : Hq) (d : BitVec 5) (f : BitVec 1) : Statement (.rdplan h d f) := by
  have h0q := h.qp.isLt
  have h1q := h.tk.isLt
  have h2q := d.isLt
  have h3q := f.isLt
  simp only [Statement, encode, put, Hq.bits, Instr.words]
  omega
theorem trap (h : Hq) (i : BitVec 9) : Statement (.trap h i) := by
  have h0q := h.qp.isLt
  have h1q := h.tk.isLt
  have h2q := i.isLt
  simp only [Statement, encode, put, Hq.bits, Instr.words]
  omega
theorem brk (h : Hq) (i : BitVec 9) : Statement (.brk h i) := by
  have h0q := h.qp.isLt
  have h1q := h.tk.isLt
  have h2q := i.isLt
  simp only [Statement, encode, put, Hq.bits, Instr.words]
  omega
theorem garr (h : Hq) (d : BitVec 5) (c : BitVec 1) (g : BitVec 8) : Statement (.garr h d c g) := by
  have h0q := h.qp.isLt
  have h1q := h.tk.isLt
  have h2q := d.isLt
  have h3q := c.isLt
  have h4q := g.isLt
  simp only [Statement, encode, put, Hq.bits, Instr.words]
  omega
theorem gwait (h : Hq) (a : BitVec 5) (c : BitVec 1) (g : BitVec 8) : Statement (.gwait h a c g) := by
  have h0q := h.qp.isLt
  have h1q := h.tk.isLt
  have h2q := a.isLt
  have h3q := c.isLt
  have h4q := g.isLt
  simp only [Statement, encode, put, Hq.bits, Instr.words]
  omega
theorem gsync (h : Hq) (d : BitVec 5) (c : BitVec 1) (g : BitVec 8) : Statement (.gsync h d c g) := by
  have h0q := h.qp.isLt
  have h1q := h.tk.isLt
  have h2q := d.isLt
  have h3q := c.isLt
  have h4q := g.isLt
  simp only [Statement, encode, put, Hq.bits, Instr.words]
  omega
theorem launch (h : Hq) (d : BitVec 5) (a : BitVec 5) : Statement (.launch h d a) := by
  have h0q := h.qp.isLt
  have h1q := h.tk.isLt
  have h2q := d.isLt
  have h3q := a.isLt
  simp only [Statement, encode, put, Hq.bits, Instr.words]
  omega
theorem spawn (h : Hq) : Statement (.spawn h) := by
  have h0q := h.qp.isLt
  have h1q := h.tk.isLt
  simp only [Statement, encode, put, Hq.bits, Instr.words]
  omega
theorem cpy (h : Hq) (d : BitVec 5) (a : BitVec 5) (b : BitVec 5) (p : BitVec 1) (c : BitVec 1) (st : BitVec 1) : Statement (.cpy h d a b p c st) := by
  have h0q := h.qp.isLt
  have h1q := h.tk.isLt
  have h2q := d.isLt
  have h3q := a.isLt
  have h4q := b.isLt
  have h5q := p.isLt
  have h6q := c.isLt
  have h7q := st.isLt
  simp only [Statement, encode, put, Hq.bits, Instr.words]
  omega
theorem cpyc (h : Hq) (d : BitVec 5) (a : BitVec 5) (b : BitVec 5) (first : BitVec 1) (last : BitVec 1) (c : BitVec 2) (imm : BitVec 32) : Statement (.cpyc h d a b first last c imm) := by
  have h0q := h.qp.isLt
  have h1q := h.tk.isLt
  have h2q := d.isLt
  have h3q := a.isLt
  have h4q := b.isLt
  have h5q := first.isLt
  have h6q := last.isLt
  have h7q := c.isLt
  have h8q := imm.isLt
  simp only [Statement, encode, put, Hq.bits, Instr.words]
  omega
theorem cpywait (h : Hq) (d : BitVec 5) (a : BitVec 5) : Statement (.cpywait h d a) := by
  have h0q := h.qp.isLt
  have h1q := h.tk.isLt
  have h2q := d.isLt
  have h3q := a.isLt
  simp only [Statement, encode, put, Hq.bits, Instr.words]
  omega
theorem cpywaitAll (h : Hq) (d : BitVec 5) : Statement (.cpywaitAll h d) := by
  have h0q := h.qp.isLt
  have h1q := h.tk.isLt
  have h2q := d.isLt
  simp only [Statement, encode, put, Hq.bits, Instr.words]
  omega
theorem cpywaitChain (h : Hq) (d : BitVec 5) : Statement (.cpywaitChain h d) := by
  have h0q := h.qp.isLt
  have h1q := h.tk.isLt
  have h2q := d.isLt
  simp only [Statement, encode, put, Hq.bits, Instr.words]
  omega
theorem ctreadyArm (h : Hq) (a : BitVec 5) (b : BitVec 5) : Statement (.ctreadyArm h a b) := by
  have h0q := h.qp.isLt
  have h1q := h.tk.isLt
  have h2q := a.isLt
  have h3q := b.isLt
  simp only [Statement, encode, put, Hq.bits, Instr.words]
  omega
theorem ctreadyFire (h : Hq) (b : BitVec 5) : Statement (.ctreadyFire h b) := by
  have h0q := h.qp.isLt
  have h1q := h.tk.isLt
  have h2q := b.isLt
  simp only [Statement, encode, put, Hq.bits, Instr.words]
  omega
theorem ctreadyGo (h : Hq) (a : BitVec 5) (b : BitVec 5) : Statement (.ctreadyGo h a b) := by
  have h0q := h.qp.isLt
  have h1q := h.tk.isLt
  have h2q := a.isLt
  have h3q := b.isLt
  simp only [Statement, encode, put, Hq.bits, Instr.words]
  omega
theorem ctwait (h : Hq) (d : BitVec 5) (a : BitVec 5) : Statement (.ctwait h d a) := by
  have h0q := h.qp.isLt
  have h1q := h.tk.isLt
  have h2q := d.isLt
  have h3q := a.isLt
  simp only [Statement, encode, put, Hq.bits, Instr.words]
  omega
theorem ctwaitTest (h : Hq) (d : BitVec 5) (a : BitVec 5) : Statement (.ctwaitTest h d a) := by
  have h0q := h.qp.isLt
  have h1q := h.tk.isLt
  have h2q := d.isLt
  have h3q := a.isLt
  simp only [Statement, encode, put, Hq.bits, Instr.words]
  omega
theorem boostRel (h : Hq) (d : BitVec 5) : Statement (.boostRel h d) := by
  have h0q := h.qp.isLt
  have h1q := h.tk.isLt
  have h2q := d.isLt
  simp only [Statement, encode, put, Hq.bits, Instr.words]
  omega
theorem boostMid (h : Hq) (d : BitVec 5) : Statement (.boostMid h d) := by
  have h0q := h.qp.isLt
  have h1q := h.tk.isLt
  have h2q := d.isLt
  simp only [Statement, encode, put, Hq.bits, Instr.words]
  omega
theorem boostMax (h : Hq) (d : BitVec 5) : Statement (.boostMax h d) := by
  have h0q := h.qp.isLt
  have h1q := h.tk.isLt
  have h2q := d.isLt
  simp only [Statement, encode, put, Hq.bits, Instr.words]
  omega
theorem freezeMark (h : Hq) (a : BitVec 5) : Statement (.freezeMark h a) := by
  have h0q := h.qp.isLt
  have h1q := h.tk.isLt
  have h2q := a.isLt
  simp only [Statement, encode, put, Hq.bits, Instr.words]
  omega
theorem freeze (h : Hq) (d : BitVec 5) (a : BitVec 5) (b : BitVec 5) : Statement (.freeze h d a b) := by
  have h0q := h.qp.isLt
  have h1q := h.tk.isLt
  have h2q := d.isLt
  have h3q := a.isLt
  have h4q := b.isLt
  simp only [Statement, encode, put, Hq.bits, Instr.words]
  omega
theorem freezeDrop (h : Hq) (a : BitVec 5) : Statement (.freezeDrop h a) := by
  have h0q := h.qp.isLt
  have h1q := h.tk.isLt
  have h2q := a.isLt
  simp only [Statement, encode, put, Hq.bits, Instr.words]
  omega
theorem freezeCont (h : Hq) (a : BitVec 5) : Statement (.freezeCont h a) := by
  have h0q := h.qp.isLt
  have h1q := h.tk.isLt
  have h2q := a.isLt
  simp only [Statement, encode, put, Hq.bits, Instr.words]
  omega
theorem thaw (h : Hq) (d : BitVec 5) (a : BitVec 5) (b : BitVec 5) : Statement (.thaw h d a b) := by
  have h0q := h.qp.isLt
  have h1q := h.tk.isLt
  have h2q := d.isLt
  have h3q := a.isLt
  have h4q := b.isLt
  simp only [Statement, encode, put, Hq.bits, Instr.words]
  omega
theorem resume (h : Hq) (a : BitVec 5) : Statement (.resume h a) := by
  have h0q := h.qp.isLt
  have h1q := h.tk.isLt
  have h2q := a.isLt
  simp only [Statement, encode, put, Hq.bits, Instr.words]
  omega
theorem resumeTerm (h : Hq) (a : BitVec 5) : Statement (.resumeTerm h a) := by
  have h0q := h.qp.isLt
  have h1q := h.tk.isLt
  have h2q := a.isLt
  simp only [Statement, encode, put, Hq.bits, Instr.words]
  omega
theorem yAdd (h : Hq) (d : BitVec 4) (a : BitVec 4) (b : BitVec 4) : Statement (.yAdd h d a b) := by
  have h0q := h.qp.isLt
  have h1q := h.tk.isLt
  have h2q := d.isLt
  have h3q := a.isLt
  have h4q := b.isLt
  simp only [Statement, encode, put, Hq.bits, Instr.words]
  omega
theorem ySub (h : Hq) (d : BitVec 4) (a : BitVec 4) (b : BitVec 4) : Statement (.ySub h d a b) := by
  have h0q := h.qp.isLt
  have h1q := h.tk.isLt
  have h2q := d.isLt
  have h3q := a.isLt
  have h4q := b.isLt
  simp only [Statement, encode, put, Hq.bits, Instr.words]
  omega
theorem yAnd (h : Hq) (d : BitVec 4) (a : BitVec 4) (b : BitVec 4) : Statement (.yAnd h d a b) := by
  have h0q := h.qp.isLt
  have h1q := h.tk.isLt
  have h2q := d.isLt
  have h3q := a.isLt
  have h4q := b.isLt
  simp only [Statement, encode, put, Hq.bits, Instr.words]
  omega
theorem yOr (h : Hq) (d : BitVec 4) (a : BitVec 4) (b : BitVec 4) : Statement (.yOr h d a b) := by
  have h0q := h.qp.isLt
  have h1q := h.tk.isLt
  have h2q := d.isLt
  have h3q := a.isLt
  have h4q := b.isLt
  simp only [Statement, encode, put, Hq.bits, Instr.words]
  omega
theorem yXor (h : Hq) (d : BitVec 4) (a : BitVec 4) (b : BitVec 4) : Statement (.yXor h d a b) := by
  have h0q := h.qp.isLt
  have h1q := h.tk.isLt
  have h2q := d.isLt
  have h3q := a.isLt
  have h4q := b.isLt
  simp only [Statement, encode, put, Hq.bits, Instr.words]
  omega
theorem yShl (h : Hq) (d : BitVec 4) (a : BitVec 4) (b : BitVec 4) : Statement (.yShl h d a b) := by
  have h0q := h.qp.isLt
  have h1q := h.tk.isLt
  have h2q := d.isLt
  have h3q := a.isLt
  have h4q := b.isLt
  simp only [Statement, encode, put, Hq.bits, Instr.words]
  omega
theorem yShr (h : Hq) (d : BitVec 4) (a : BitVec 4) (b : BitVec 4) : Statement (.yShr h d a b) := by
  have h0q := h.qp.isLt
  have h1q := h.tk.isLt
  have h2q := d.isLt
  have h3q := a.isLt
  have h4q := b.isLt
  simp only [Statement, encode, put, Hq.bits, Instr.words]
  omega
theorem ySra (h : Hq) (d : BitVec 4) (a : BitVec 4) (b : BitVec 4) : Statement (.ySra h d a b) := by
  have h0q := h.qp.isLt
  have h1q := h.tk.isLt
  have h2q := d.isLt
  have h3q := a.isLt
  have h4q := b.isLt
  simp only [Statement, encode, put, Hq.bits, Instr.words]
  omega
theorem yMin (h : Hq) (d : BitVec 4) (a : BitVec 4) (b : BitVec 4) : Statement (.yMin h d a b) := by
  have h0q := h.qp.isLt
  have h1q := h.tk.isLt
  have h2q := d.isLt
  have h3q := a.isLt
  have h4q := b.isLt
  simp only [Statement, encode, put, Hq.bits, Instr.words]
  omega
theorem yMax (h : Hq) (d : BitVec 4) (a : BitVec 4) (b : BitVec 4) : Statement (.yMax h d a b) := by
  have h0q := h.qp.isLt
  have h1q := h.tk.isLt
  have h2q := d.isLt
  have h3q := a.isLt
  have h4q := b.isLt
  simp only [Statement, encode, put, Hq.bits, Instr.words]
  omega
theorem yAddi (h : Hq) (d : BitVec 4) (a : BitVec 4) (i : BitVec 11) : Statement (.yAddi h d a i) := by
  have h0q := h.qp.isLt
  have h1q := h.tk.isLt
  have h2q := d.isLt
  have h3q := a.isLt
  have h4q := i.isLt
  simp only [Statement, encode, put, Hq.bits, Instr.words]
  omega
theorem yMovi (h : Hq) (d : BitVec 4) (imm : BitVec 32) : Statement (.yMovi h d imm) := by
  have h0q := h.qp.isLt
  have h1q := h.tk.isLt
  have h2q := d.isLt
  have h3q := imm.isLt
  simp only [Statement, encode, put, Hq.bits, Instr.words]
  omega
theorem yCmp (h : Hq) (d : BitVec 3) (a : BitVec 4) (b : BitVec 4) (c : BitVec 3) : Statement (.yCmp h d a b c) := by
  have h0q := h.qp.isLt
  have h1q := h.tk.isLt
  have h2q := d.isLt
  have h3q := a.isLt
  have h4q := b.isLt
  have h5q := c.isLt
  simp only [Statement, encode, put, Hq.bits, Instr.words]
  omega
theorem yMfs (h : Hq) (d : BitVec 4) (i : BitVec 9) : Statement (.yMfs h d i) := by
  have h0q := h.qp.isLt
  have h1q := h.tk.isLt
  have h2q := d.isLt
  have h3q := i.isLt
  simp only [Statement, encode, put, Hq.bits, Instr.words]
  omega
theorem sbind (h : Hq) (b : BitVec 6) (st : BitVec 4) (epi : BitVec 1) (bk : BitVec 1) (imm : BitVec 32) : Statement (.sbind h b st epi bk imm) := by
  have h0q := h.qp.isLt
  have h1q := h.tk.isLt
  have h2q := b.isLt
  have h3q := st.isLt
  have h4q := epi.isLt
  have h5q := bk.isLt
  have h6q := imm.isLt
  simp only [Statement, encode, put, Hq.bits, Instr.words]
  omega
theorem sset (h : Hq) (st : BitVec 4) (n : BitVec 4) (f : BitVec 5) (imm : BitVec 32) : Statement (.sset h st n f imm) := by
  have h0q := h.qp.isLt
  have h1q := h.tk.isLt
  have h2q := st.isLt
  have h3q := n.isLt
  have h4q := f.isLt
  have h5q := imm.isLt
  simp only [Statement, encode, put, Hq.bits, Instr.words]
  omega
theorem lds (h : Hq) (st : BitVec 4) (n : BitVec 4) (l : BitVec 1) : Statement (.lds h st n l) := by
  have h0q := h.qp.isLt
  have h1q := h.tk.isLt
  have h2q := st.isLt
  have h3q := n.isLt
  have h4q := l.isLt
  simp only [Statement, encode, put, Hq.bits, Instr.words]
  omega
theorem ldso (h : Hq) (st : BitVec 4) (n : BitVec 4) (c : BitVec 1) (l : BitVec 1) : Statement (.ldso h st n c l) := by
  have h0q := h.qp.isLt
  have h1q := h.tk.isLt
  have h2q := st.isLt
  have h3q := n.isLt
  have h4q := c.isLt
  have h5q := l.isLt
  simp only [Statement, encode, put, Hq.bits, Instr.words]
  omega
theorem ldg (h : Hq) (st : BitVec 4) (n : BitVec 4) (l : BitVec 1) : Statement (.ldg h st n l) := by
  have h0q := h.qp.isLt
  have h1q := h.tk.isLt
  have h2q := st.isLt
  have h3q := n.isLt
  have h4q := l.isLt
  simp only [Statement, encode, put, Hq.bits, Instr.words]
  omega
theorem ldz (h : Hq) (b : BitVec 6) (st : BitVec 4) (n : BitVec 4) (l : BitVec 1) : Statement (.ldz h b st n l) := by
  have h0q := h.qp.isLt
  have h1q := h.tk.isLt
  have h2q := b.isLt
  have h3q := st.isLt
  have h4q := n.isLt
  have h5q := l.isLt
  simp only [Statement, encode, put, Hq.bits, Instr.words]
  omega
theorem ldb (h : Hq) (b : BitVec 6) (st : BitVec 4) (n : BitVec 4) (l : BitVec 1) : Statement (.ldb h b st n l) := by
  have h0q := h.qp.isLt
  have h1q := h.tk.isLt
  have h2q := b.isLt
  have h3q := st.isLt
  have h4q := n.isLt
  have h5q := l.isLt
  simp only [Statement, encode, put, Hq.bits, Instr.words]
  omega
theorem pref (h : Hq) (st : BitVec 4) (n : BitVec 4) : Statement (.pref h st n) := by
  have h0q := h.qp.isLt
  have h1q := h.tk.isLt
  have h2q := st.isLt
  have h3q := n.isLt
  simp only [Statement, encode, put, Hq.bits, Instr.words]
  omega
theorem bdecl (h : Hq) (b : BitVec 6) (cons : BitVec 2) (prod : BitVec 2) (len : BitVec 16) (off : BitVec 16) : Statement (.bdecl h b cons prod len off) := by
  have h0q := h.qp.isLt
  have h1q := h.tk.isLt
  have h2q := b.isLt
  have h3q := cons.isLt
  have h4q := prod.isLt
  have h5q := len.isLt
  have h6q := off.isLt
  simp only [Statement, encode, put, Hq.bits, Instr.words]
  omega
theorem bwait (h : Hq) (b : BitVec 6) (t : BitVec 2) : Statement (.bwait h b t) := by
  have h0q := h.qp.isLt
  have h1q := h.tk.isLt
  have h2q := b.isLt
  have h3q := t.isLt
  simp only [Statement, encode, put, Hq.bits, Instr.words]
  omega
theorem bstateRead (h : Hq) (b : BitVec 6) (n : BitVec 4) : Statement (.bstateRead h b n) := by
  have h0q := h.qp.isLt
  have h1q := h.tk.isLt
  have h2q := b.isLt
  have h3q := n.isLt
  simp only [Statement, encode, put, Hq.bits, Instr.words]
  omega
theorem bstatePdone (h : Hq) (b : BitVec 6) : Statement (.bstatePdone h b) := by
  have h0q := h.qp.isLt
  have h1q := h.tk.isLt
  have h2q := b.isLt
  simp only [Statement, encode, put, Hq.bits, Instr.words]
  omega
theorem bstateCdone (h : Hq) (b : BitVec 6) : Statement (.bstateCdone h b) := by
  have h0q := h.qp.isLt
  have h1q := h.tk.isLt
  have h2q := b.isLt
  simp only [Statement, encode, put, Hq.bits, Instr.words]
  omega
theorem bstateFree (h : Hq) (b : BitVec 6) : Statement (.bstateFree h b) := by
  have h0q := h.qp.isLt
  have h1q := h.tk.isLt
  have h2q := b.isLt
  simp only [Statement, encode, put, Hq.bits, Instr.words]
  omega
theorem ldtf (h : Hq) : Statement (.ldtf h) := by
  have h0q := h.qp.isLt
  have h1q := h.tk.isLt
  simp only [Statement, encode, put, Hq.bits, Instr.words]
  omega
theorem sts (h : Hq) (st : BitVec 4) (n : BitVec 4) (l : BitVec 1) : Statement (.sts h st n l) := by
  have h0q := h.qp.isLt
  have h1q := h.tk.isLt
  have h2q := st.isLt
  have h3q := n.isLt
  have h4q := l.isLt
  simp only [Statement, encode, put, Hq.bits, Instr.words]
  omega
theorem qst (h : Hq) (st : BitVec 4) (n : BitVec 4) (o : BitVec 3) (l : BitVec 1) : Statement (.qst h st n o l) := by
  have h0q := h.qp.isLt
  have h1q := h.tk.isLt
  have h2q := st.isLt
  have h3q := n.isLt
  have h4q := o.isLt
  have h5q := l.isLt
  simp only [Statement, encode, put, Hq.bits, Instr.words]
  omega
theorem stb (h : Hq) (b : BitVec 6) (st : BitVec 4) (n : BitVec 4) (l : BitVec 1) : Statement (.stb h b st n l) := by
  have h0q := h.qp.isLt
  have h1q := h.tk.isLt
  have h2q := b.isLt
  have h3q := st.isLt
  have h4q := n.isLt
  have h5q := l.isLt
  simp only [Statement, encode, put, Hq.bits, Instr.words]
  omega
theorem shopen (h : Hq) (a : BitVec 4) (b : BitVec 4) : Statement (.shopen h a b) := by
  have h0q := h.qp.isLt
  have h1q := h.tk.isLt
  have h2q := a.isLt
  have h3q := b.isLt
  simp only [Statement, encode, put, Hq.bits, Instr.words]
  omega
theorem publish (h : Hq) (a : BitVec 4) (b : BitVec 4) (c : BitVec 3) : Statement (.publish h a b c) := by
  have h0q := h.qp.isLt
  have h1q := h.tk.isLt
  have h2q := a.isLt
  have h3q := b.isLt
  have h4q := c.isLt
  simp only [Statement, encode, put, Hq.bits, Instr.words]
  omega
theorem atomv (h : Hq) (c : BitVec 4) (st : BitVec 4) (n : BitVec 4) (f : BitVec 5) : Statement (.atomv h c st n f) := by
  have h0q := h.qp.isLt
  have h1q := h.tk.isLt
  have h2q := c.isLt
  have h3q := st.isLt
  have h4q := n.isLt
  have h5q := f.isLt
  simp only [Statement, encode, put, Hq.bits, Instr.words]
  omega
theorem amos (h : Hq) (d : BitVec 4) (a : BitVec 4) (b : BitVec 4) (z : BitVec 1) (so : BitVec 4) (op : BitVec 4) : Statement (.amos h d a b z so op) := by
  have h0q := h.qp.isLt
  have h1q := h.tk.isLt
  have h2q := d.isLt
  have h3q := a.isLt
  have h4q := b.isLt
  have h5q := z.isLt
  have h6q := so.isLt
  have h7q := op.isLt
  simp only [Statement, encode, put, Hq.bits, Instr.words]
  omega
theorem bdrain (h : Hq) (st : BitVec 4) : Statement (.bdrain h st) := by
  have h0q := h.qp.isLt
  have h1q := h.tk.isLt
  have h2q := st.isLt
  simp only [Statement, encode, put, Hq.bits, Instr.words]
  omega
theorem vadd (h : Tl) (d : BitVec 4) (a : BitVec 5) (b : BitVec 5) (g : BitVec 6) (y : BitVec 2) : Statement (.vadd h d a b g y) := by
  have h0q := h.stop.isLt
  have h1q := h.tk.isLt
  have h2q := d.isLt
  have h3q := a.isLt
  have h4q := b.isLt
  have h5q := g.isLt
  have h6q := y.isLt
  simp only [Statement, encode, put, Tl.bits, Instr.words]
  omega
theorem vsub (h : Tl) (d : BitVec 4) (a : BitVec 5) (b : BitVec 5) (g : BitVec 6) (y : BitVec 2) : Statement (.vsub h d a b g y) := by
  have h0q := h.stop.isLt
  have h1q := h.tk.isLt
  have h2q := d.isLt
  have h3q := a.isLt
  have h4q := b.isLt
  have h5q := g.isLt
  have h6q := y.isLt
  simp only [Statement, encode, put, Tl.bits, Instr.words]
  omega
theorem vmul (h : Tl) (d : BitVec 4) (a : BitVec 5) (b : BitVec 5) (g : BitVec 6) (y : BitVec 2) : Statement (.vmul h d a b g y) := by
  have h0q := h.stop.isLt
  have h1q := h.tk.isLt
  have h2q := d.isLt
  have h3q := a.isLt
  have h4q := b.isLt
  have h5q := g.isLt
  have h6q := y.isLt
  simp only [Statement, encode, put, Tl.bits, Instr.words]
  omega
theorem vfma (h : Tl) (d : BitVec 4) (a : BitVec 5) (b : BitVec 5) (g : BitVec 6) (y : BitVec 2) : Statement (.vfma h d a b g y) := by
  have h0q := h.stop.isLt
  have h1q := h.tk.isLt
  have h2q := d.isLt
  have h3q := a.isLt
  have h4q := b.isLt
  have h5q := g.isLt
  have h6q := y.isLt
  simp only [Statement, encode, put, Tl.bits, Instr.words]
  omega
theorem vfms (h : Tl) (d : BitVec 4) (a : BitVec 5) (b : BitVec 5) (g : BitVec 6) (y : BitVec 2) : Statement (.vfms h d a b g y) := by
  have h0q := h.stop.isLt
  have h1q := h.tk.isLt
  have h2q := d.isLt
  have h3q := a.isLt
  have h4q := b.isLt
  have h5q := g.isLt
  have h6q := y.isLt
  simp only [Statement, encode, put, Tl.bits, Instr.words]
  omega
theorem vmin (h : Tl) (d : BitVec 4) (a : BitVec 5) (b : BitVec 5) (g : BitVec 6) (y : BitVec 2) : Statement (.vmin h d a b g y) := by
  have h0q := h.stop.isLt
  have h1q := h.tk.isLt
  have h2q := d.isLt
  have h3q := a.isLt
  have h4q := b.isLt
  have h5q := g.isLt
  have h6q := y.isLt
  simp only [Statement, encode, put, Tl.bits, Instr.words]
  omega
theorem vmax (h : Tl) (d : BitVec 4) (a : BitVec 5) (b : BitVec 5) (g : BitVec 6) (y : BitVec 2) : Statement (.vmax h d a b g y) := by
  have h0q := h.stop.isLt
  have h1q := h.tk.isLt
  have h2q := d.isLt
  have h3q := a.isLt
  have h4q := b.isLt
  have h5q := g.isLt
  have h6q := y.isLt
  simp only [Statement, encode, put, Tl.bits, Instr.words]
  omega
theorem vabs (h : Tl) (d : BitVec 4) (a : BitVec 5) (g : BitVec 6) (y : BitVec 2) : Statement (.vabs h d a g y) := by
  have h0q := h.stop.isLt
  have h1q := h.tk.isLt
  have h2q := d.isLt
  have h3q := a.isLt
  have h4q := g.isLt
  have h5q := y.isLt
  simp only [Statement, encode, put, Tl.bits, Instr.words]
  omega
theorem vneg (h : Tl) (d : BitVec 4) (a : BitVec 5) (g : BitVec 6) (y : BitVec 2) : Statement (.vneg h d a g y) := by
  have h0q := h.stop.isLt
  have h1q := h.tk.isLt
  have h2q := d.isLt
  have h3q := a.isLt
  have h4q := g.isLt
  have h5q := y.isLt
  simp only [Statement, encode, put, Tl.bits, Instr.words]
  omega
theorem vand (h : Tl) (d : BitVec 4) (a : BitVec 5) (b : BitVec 5) (g : BitVec 6) (y : BitVec 2) : Statement (.vand h d a b g y) := by
  have h0q := h.stop.isLt
  have h1q := h.tk.isLt
  have h2q := d.isLt
  have h3q := a.isLt
  have h4q := b.isLt
  have h5q := g.isLt
  have h6q := y.isLt
  simp only [Statement, encode, put, Tl.bits, Instr.words]
  omega
theorem vor (h : Tl) (d : BitVec 4) (a : BitVec 5) (b : BitVec 5) (g : BitVec 6) (y : BitVec 2) : Statement (.vor h d a b g y) := by
  have h0q := h.stop.isLt
  have h1q := h.tk.isLt
  have h2q := d.isLt
  have h3q := a.isLt
  have h4q := b.isLt
  have h5q := g.isLt
  have h6q := y.isLt
  simp only [Statement, encode, put, Tl.bits, Instr.words]
  omega
theorem vxor (h : Tl) (d : BitVec 4) (a : BitVec 5) (b : BitVec 5) (g : BitVec 6) (y : BitVec 2) : Statement (.vxor h d a b g y) := by
  have h0q := h.stop.isLt
  have h1q := h.tk.isLt
  have h2q := d.isLt
  have h3q := a.isLt
  have h4q := b.isLt
  have h5q := g.isLt
  have h6q := y.isLt
  simp only [Statement, encode, put, Tl.bits, Instr.words]
  omega
theorem vnot (h : Tl) (d : BitVec 4) (a : BitVec 5) (g : BitVec 6) (y : BitVec 2) : Statement (.vnot h d a g y) := by
  have h0q := h.stop.isLt
  have h1q := h.tk.isLt
  have h2q := d.isLt
  have h3q := a.isLt
  have h4q := g.isLt
  have h5q := y.isLt
  simp only [Statement, encode, put, Tl.bits, Instr.words]
  omega
theorem vshl (h : Tl) (d : BitVec 4) (a : BitVec 5) (b : BitVec 5) (g : BitVec 6) (y : BitVec 2) : Statement (.vshl h d a b g y) := by
  have h0q := h.stop.isLt
  have h1q := h.tk.isLt
  have h2q := d.isLt
  have h3q := a.isLt
  have h4q := b.isLt
  have h5q := g.isLt
  have h6q := y.isLt
  simp only [Statement, encode, put, Tl.bits, Instr.words]
  omega
theorem vshr (h : Tl) (d : BitVec 4) (a : BitVec 5) (b : BitVec 5) (g : BitVec 6) (y : BitVec 2) : Statement (.vshr h d a b g y) := by
  have h0q := h.stop.isLt
  have h1q := h.tk.isLt
  have h2q := d.isLt
  have h3q := a.isLt
  have h4q := b.isLt
  have h5q := g.isLt
  have h6q := y.isLt
  simp only [Statement, encode, put, Tl.bits, Instr.words]
  omega
theorem vsra (h : Tl) (d : BitVec 4) (a : BitVec 5) (b : BitVec 5) (g : BitVec 6) (y : BitVec 2) : Statement (.vsra h d a b g y) := by
  have h0q := h.stop.isLt
  have h1q := h.tk.isLt
  have h2q := d.isLt
  have h3q := a.isLt
  have h4q := b.isLt
  have h5q := g.isLt
  have h6q := y.isLt
  simp only [Statement, encode, put, Tl.bits, Instr.words]
  omega
theorem vmad (h : Tl) (d : BitVec 4) (a : BitVec 5) (b : BitVec 5) (g : BitVec 6) (y : BitVec 2) : Statement (.vmad h d a b g y) := by
  have h0q := h.stop.isLt
  have h1q := h.tk.isLt
  have h2q := d.isLt
  have h3q := a.isLt
  have h4q := b.isLt
  have h5q := g.isLt
  have h6q := y.isLt
  simp only [Statement, encode, put, Tl.bits, Instr.words]
  omega
theorem vcmp (h : Tl) (c : BitVec 4) (a : BitVec 5) (b : BitVec 5) (p : BitVec 6) (y : BitVec 2) : Statement (.vcmp h c a b p y) := by
  have h0q := h.stop.isLt
  have h1q := h.tk.isLt
  have h2q := c.isLt
  have h3q := a.isLt
  have h4q := b.isLt
  have h5q := p.isLt
  have h6q := y.isLt
  simp only [Statement, encode, put, Tl.bits, Instr.words]
  omega
theorem vsel (h : Tl) (d : BitVec 4) (a : BitVec 5) (b : BitVec 5) (p : BitVec 6) (y : BitVec 2) : Statement (.vsel h d a b p y) := by
  have h0q := h.stop.isLt
  have h1q := h.tk.isLt
  have h2q := d.isLt
  have h3q := a.isLt
  have h4q := b.isLt
  have h5q := p.isLt
  have h6q := y.isLt
  simp only [Statement, encode, put, Tl.bits, Instr.words]
  omega
theorem vmov (h : Tl) (d : BitVec 4) (a : BitVec 5) (g : BitVec 6) (y : BitVec 2) : Statement (.vmov h d a g y) := by
  have h0q := h.stop.isLt
  have h1q := h.tk.isLt
  have h2q := d.isLt
  have h3q := a.isLt
  have h4q := g.isLt
  have h5q := y.isLt
  simp only [Statement, encode, put, Tl.bits, Instr.words]
  omega
theorem vmovi (h : Tl) (d : BitVec 4) (g : BitVec 6) (y : BitVec 2) (imm : BitVec 32) : Statement (.vmovi h d g y imm) := by
  have h0q := h.stop.isLt
  have h1q := h.tk.isLt
  have h2q := d.isLt
  have h3q := g.isLt
  have h4q := y.isLt
  have h5q := imm.isLt
  simp only [Statement, encode, put, Tl.bits, Instr.words]
  omega
theorem vcvt (h : Tl) (d : BitVec 4) (a : BitVec 5) (c : BitVec 5) (g : BitVec 6) : Statement (.vcvt h d a c g) := by
  have h0q := h.stop.isLt
  have h1q := h.tk.isLt
  have h2q := d.isLt
  have h3q := a.isLt
  have h4q := c.isLt
  have h5q := g.isLt
  simp only [Statement, encode, put, Tl.bits, Instr.words]
  omega
theorem vrotr (h : Tl) (d : BitVec 4) (a : BitVec 5) (n : BitVec 4) (g : BitVec 6) (y : BitVec 2) : Statement (.vrotr h d a n g y) := by
  have h0q := h.stop.isLt
  have h1q := h.tk.isLt
  have h2q := d.isLt
  have h3q := a.isLt
  have h4q := n.isLt
  have h5q := g.isLt
  have h6q := y.isLt
  simp only [Statement, encode, put, Tl.bits, Instr.words]
  omega
theorem vrotc (h : Tl) (d : BitVec 4) (a : BitVec 5) (n : BitVec 4) (g : BitVec 6) (y : BitVec 2) : Statement (.vrotc h d a n g y) := by
  have h0q := h.stop.isLt
  have h1q := h.tk.isLt
  have h2q := d.isLt
  have h3q := a.isLt
  have h4q := n.isLt
  have h5q := g.isLt
  have h6q := y.isLt
  simp only [Statement, encode, put, Tl.bits, Instr.words]
  omega
theorem vbcr (h : Tl) (d : BitVec 4) (a : BitVec 5) (n : BitVec 4) (g : BitVec 6) (y : BitVec 2) : Statement (.vbcr h d a n g y) := by
  have h0q := h.stop.isLt
  have h1q := h.tk.isLt
  have h2q := d.isLt
  have h3q := a.isLt
  have h4q := n.isLt
  have h5q := g.isLt
  have h6q := y.isLt
  simp only [Statement, encode, put, Tl.bits, Instr.words]
  omega
theorem vbcc (h : Tl) (d : BitVec 4) (a : BitVec 5) (n : BitVec 4) (g : BitVec 6) (y : BitVec 2) : Statement (.vbcc h d a n g y) := by
  have h0q := h.stop.isLt
  have h1q := h.tk.isLt
  have h2q := d.isLt
  have h3q := a.isLt
  have h4q := n.isLt
  have h5q := g.isLt
  have h6q := y.isLt
  simp only [Statement, encode, put, Tl.bits, Instr.words]
  omega
theorem vredr (h : Tl) (d : BitVec 4) (a : BitVec 5) (o : BitVec 5) (g : BitVec 6) (y : BitVec 2) : Statement (.vredr h d a o g y) := by
  have h0q := h.stop.isLt
  have h1q := h.tk.isLt
  have h2q := d.isLt
  have h3q := a.isLt
  have h4q := o.isLt
  have h5q := g.isLt
  have h6q := y.isLt
  simp only [Statement, encode, put, Tl.bits, Instr.words]
  omega
theorem vredc (h : Tl) (d : BitVec 4) (a : BitVec 5) (o : BitVec 5) (g : BitVec 6) (y : BitVec 2) : Statement (.vredc h d a o g y) := by
  have h0q := h.stop.isLt
  have h1q := h.tk.isLt
  have h2q := d.isLt
  have h3q := a.isLt
  have h4q := o.isLt
  have h5q := g.isLt
  have h6q := y.isLt
  simp only [Statement, encode, put, Tl.bits, Instr.words]
  omega
theorem vscanr (h : Tl) (d : BitVec 4) (a : BitVec 5) (o : BitVec 5) (g : BitVec 6) (y : BitVec 2) : Statement (.vscanr h d a o g y) := by
  have h0q := h.stop.isLt
  have h1q := h.tk.isLt
  have h2q := d.isLt
  have h3q := a.isLt
  have h4q := o.isLt
  have h5q := g.isLt
  have h6q := y.isLt
  simp only [Statement, encode, put, Tl.bits, Instr.words]
  omega
theorem vscanc (h : Tl) (d : BitVec 4) (a : BitVec 5) (o : BitVec 5) (g : BitVec 6) (y : BitVec 2) : Statement (.vscanc h d a o g y) := by
  have h0q := h.stop.isLt
  have h1q := h.tk.isLt
  have h2q := d.isLt
  have h3q := a.isLt
  have h4q := o.isLt
  have h5q := g.isLt
  have h6q := y.isLt
  simp only [Statement, encode, put, Tl.bits, Instr.words]
  omega
theorem vexp2 (h : Tl) (d : BitVec 4) (a : BitVec 5) (g : BitVec 6) (y : BitVec 2) : Statement (.vexp2 h d a g y) := by
  have h0q := h.stop.isLt
  have h1q := h.tk.isLt
  have h2q := d.isLt
  have h3q := a.isLt
  have h4q := g.isLt
  have h5q := y.isLt
  simp only [Statement, encode, put, Tl.bits, Instr.words]
  omega
theorem vlog2 (h : Tl) (d : BitVec 4) (a : BitVec 5) (g : BitVec 6) (y : BitVec 2) : Statement (.vlog2 h d a g y) := by
  have h0q := h.stop.isLt
  have h1q := h.tk.isLt
  have h2q := d.isLt
  have h3q := a.isLt
  have h4q := g.isLt
  have h5q := y.isLt
  simp only [Statement, encode, put, Tl.bits, Instr.words]
  omega
theorem vrcp (h : Tl) (d : BitVec 4) (a : BitVec 5) (g : BitVec 6) (y : BitVec 2) : Statement (.vrcp h d a g y) := by
  have h0q := h.stop.isLt
  have h1q := h.tk.isLt
  have h2q := d.isLt
  have h3q := a.isLt
  have h4q := g.isLt
  have h5q := y.isLt
  simp only [Statement, encode, put, Tl.bits, Instr.words]
  omega
theorem vrsq (h : Tl) (d : BitVec 4) (a : BitVec 5) (g : BitVec 6) (y : BitVec 2) : Statement (.vrsq h d a g y) := by
  have h0q := h.stop.isLt
  have h1q := h.tk.isLt
  have h2q := d.isLt
  have h3q := a.isLt
  have h4q := g.isLt
  have h5q := y.isLt
  simp only [Statement, encode, put, Tl.bits, Instr.words]
  omega
theorem vtanh (h : Tl) (d : BitVec 4) (a : BitVec 5) (g : BitVec 6) (y : BitVec 2) : Statement (.vtanh h d a g y) := by
  have h0q := h.stop.isLt
  have h1q := h.tk.isLt
  have h2q := d.isLt
  have h3q := a.isLt
  have h4q := g.isLt
  have h5q := y.isLt
  simp only [Statement, encode, put, Tl.bits, Instr.words]
  omega
theorem pand (h : Tl) (d : BitVec 6) (a : BitVec 6) (b : BitVec 6) : Statement (.pand h d a b) := by
  have h0q := h.stop.isLt
  have h1q := h.tk.isLt
  have h2q := d.isLt
  have h3q := a.isLt
  have h4q := b.isLt
  simp only [Statement, encode, put, Tl.bits, Instr.words]
  omega
theorem por (h : Tl) (d : BitVec 6) (a : BitVec 6) (b : BitVec 6) : Statement (.por h d a b) := by
  have h0q := h.stop.isLt
  have h1q := h.tk.isLt
  have h2q := d.isLt
  have h3q := a.isLt
  have h4q := b.isLt
  simp only [Statement, encode, put, Tl.bits, Instr.words]
  omega
theorem pxor (h : Tl) (d : BitVec 6) (a : BitVec 6) (b : BitVec 6) : Statement (.pxor h d a b) := by
  have h0q := h.stop.isLt
  have h1q := h.tk.isLt
  have h2q := d.isLt
  have h3q := a.isLt
  have h4q := b.isLt
  simp only [Statement, encode, put, Tl.bits, Instr.words]
  omega
theorem pnot (h : Tl) (d : BitVec 6) (a : BitVec 6) : Statement (.pnot h d a) := by
  have h0q := h.stop.isLt
  have h1q := h.tk.isLt
  have h2q := d.isLt
  have h3q := a.isLt
  simp only [Statement, encode, put, Tl.bits, Instr.words]
  omega
theorem pmov (h : Tl) (d : BitVec 6) (a : BitVec 6) : Statement (.pmov h d a) := by
  have h0q := h.stop.isLt
  have h1q := h.tk.isLt
  have h2q := d.isLt
  have h3q := a.isLt
  simp only [Statement, encode, put, Tl.bits, Instr.words]
  omega
theorem pany (h : Tl) (d : BitVec 3) (a : BitVec 6) (b : BitVec 6) : Statement (.pany h d a b) := by
  have h0q := h.stop.isLt
  have h1q := h.tk.isLt
  have h2q := d.isLt
  have h3q := a.isLt
  have h4q := b.isLt
  simp only [Statement, encode, put, Tl.bits, Instr.words]
  omega
theorem pall (h : Tl) (d : BitVec 3) (a : BitVec 6) (b : BitVec 6) : Statement (.pall h d a b) := by
  have h0q := h.stop.isLt
  have h1q := h.tk.isLt
  have h2q := d.isLt
  have h3q := a.isLt
  have h4q := b.isLt
  simp only [Statement, encode, put, Tl.bits, Instr.words]
  omega
theorem pcnt (h : Tl) (d : BitVec 4) (a : BitVec 6) (b : BitVec 6) : Statement (.pcnt h d a b) := by
  have h0q := h.stop.isLt
  have h1q := h.tk.isLt
  have h2q := d.isLt
  have h3q := a.isLt
  have h4q := b.isLt
  simp only [Statement, encode, put, Tl.bits, Instr.words]
  omega
theorem twr (h : Hd) (t : BitVec 2) (v : BitVec 4) (c : BitVec 6) (w : BitVec 2) : Statement (.twr h t v c w) := by
  have h0q := h.qp.isLt
  have h1q := h.stop.isLt
  have h2q := h.tk.isLt
  have h3q := t.isLt
  have h4q := v.isLt
  have h5q := c.isLt
  have h6q := w.isLt
  simp only [Statement, encode, put, Hd.bits, Instr.words]
  omega
theorem trr (h : Hd) (t : BitVec 2) (v : BitVec 4) (c : BitVec 6) (w : BitVec 2) : Statement (.trr h t v c w) := by
  have h0q := h.qp.isLt
  have h1q := h.stop.isLt
  have h2q := h.tk.isLt
  have h3q := t.isLt
  have h4q := v.isLt
  have h5q := c.isLt
  have h6q := w.isLt
  simp only [Statement, encode, put, Hd.bits, Instr.words]
  omega
theorem trc (h : Hd) (t : BitVec 2) (v : BitVec 4) (c : BitVec 6) (w : BitVec 2) : Statement (.trc h t v c w) := by
  have h0q := h.qp.isLt
  have h1q := h.stop.isLt
  have h2q := h.tk.isLt
  have h3q := t.isLt
  have h4q := v.isLt
  have h5q := c.isLt
  have h6q := w.isLt
  simp only [Statement, encode, put, Hd.bits, Instr.words]
  omega
theorem tclr (h : Hd) (t : BitVec 2) : Statement (.tclr h t) := by
  have h0q := h.qp.isLt
  have h1q := h.stop.isLt
  have h2q := h.tk.isLt
  have h3q := t.isLt
  simp only [Statement, encode, put, Hd.bits, Instr.words]
  omega
theorem aadd (h : Hd) (d : BitVec 4) (a : BitVec 4) (m : BitVec 4) : Statement (.aadd h d a m) := by
  have h0q := h.qp.isLt
  have h1q := h.stop.isLt
  have h2q := h.tk.isLt
  have h3q := d.isLt
  have h4q := a.isLt
  have h5q := m.isLt
  simp only [Statement, encode, put, Hd.bits, Instr.words]
  omega
theorem amov (h : Hd) (d : BitVec 4) (a : BitVec 4) : Statement (.amov h d a) := by
  have h0q := h.qp.isLt
  have h1q := h.stop.isLt
  have h2q := h.tk.isLt
  have h3q := d.isLt
  have h4q := a.isLt
  simp only [Statement, encode, put, Hd.bits, Instr.words]
  omega
theorem apost (h : Hd) (d : BitVec 4) (a : BitVec 4) (m : BitVec 4) : Statement (.apost h d a m) := by
  have h0q := h.qp.isLt
  have h1q := h.stop.isLt
  have h2q := h.tk.isLt
  have h3q := d.isLt
  have h4q := a.isLt
  have h5q := m.isLt
  simp only [Statement, encode, put, Hd.bits, Instr.words]
  omega
theorem amodset (h : Hd) (a : BitVec 4) (m : BitVec 4) : Statement (.amodset h a m) := by
  have h0q := h.qp.isLt
  have h1q := h.stop.isLt
  have h2q := h.tk.isLt
  have h3q := a.isLt
  have h4q := m.isLt
  simp only [Statement, encode, put, Hd.bits, Instr.words]
  omega
theorem aidx (h : Hd) (d : BitVec 4) (a : BitVec 4) (m : BitVec 4) : Statement (.aidx h d a m) := by
  have h0q := h.qp.isLt
  have h1q := h.stop.isLt
  have h2q := h.tk.isLt
  have h3q := d.isLt
  have h4q := a.isLt
  have h5q := m.isLt
  simp only [Statement, encode, put, Hd.bits, Instr.words]
  omega
theorem aaddi (h : Tl) (d : BitVec 4) (a : BitVec 4) (i : BitVec 14) : Statement (.aaddi h d a i) := by
  have h0q := h.stop.isLt
  have h1q := h.tk.isLt
  have h2q := d.isLt
  have h3q := a.isLt
  have h4q := i.isLt
  simp only [Statement, encode, put, Tl.bits, Instr.words]
  omega
theorem qpush (h : Tl) (n : BitVec 4) (a : BitVec 5) (g : BitVec 6) : Statement (.qpush h n a g) := by
  have h0q := h.stop.isLt
  have h1q := h.tk.isLt
  have h2q := n.isLt
  have h3q := a.isLt
  have h4q := g.isLt
  simp only [Statement, encode, put, Tl.bits, Instr.words]
  omega
theorem aMfs (h : Tl) (d : BitVec 4) (i : BitVec 9) : Statement (.aMfs h d i) := by
  have h0q := h.stop.isLt
  have h1q := h.tk.isLt
  have h2q := d.isLt
  have h3q := i.isLt
  simp only [Statement, encode, put, Tl.bits, Instr.words]
  omega
theorem win (h : Hd) (ws : BitVec 2) (c : BitVec 4) (ak : BitVec 4) (h0 : BitVec 2) (e : BitVec 2) (first : BitVec 1) (last : BitVec 1) (rel : BitVec 1) (b0 : BitVec 20) : Statement (.win h ws c ak h0 e first last rel b0) := by
  have h0q := h.qp.isLt
  have h1q := h.stop.isLt
  have h2q := h.tk.isLt
  have h3q := ws.isLt
  have h4q := c.isLt
  have h5q := ak.isLt
  have h6q := h0.isLt
  have h7q := e.isLt
  have h8q := first.isLt
  have h9q := last.isLt
  have h10q := rel.isLt
  have h11q := b0.isLt
  simp only [Statement, encode, put, Hd.bits, Instr.words]
  omega
theorem wcfg (h : Hd) (n : BitVec 5) (a : BitVec 4) : Statement (.wcfg h n a) := by
  have h0q := h.qp.isLt
  have h1q := h.stop.isLt
  have h2q := h.tk.isLt
  have h3q := n.isLt
  have h4q := a.isLt
  simp only [Statement, encode, put, Hd.bits, Instr.words]
  omega
theorem wcfgRd (h : Hd) (n : BitVec 5) (a : BitVec 4) : Statement (.wcfgRd h n a) := by
  have h0q := h.qp.isLt
  have h1q := h.stop.isLt
  have h2q := h.tk.isLt
  have h3q := n.isLt
  have h4q := a.isLt
  simp only [Statement, encode, put, Hd.bits, Instr.words]
  omega
theorem waccRd (h : Hd) (c : BitVec 4) (v : BitVec 4) : Statement (.waccRd h c v) := by
  have h0q := h.qp.isLt
  have h1q := h.stop.isLt
  have h2q := h.tk.isLt
  have h3q := c.isLt
  have h4q := v.isLt
  simp only [Statement, encode, put, Hd.bits, Instr.words]
  omega
theorem waccWr (h : Hd) (c : BitVec 4) (a : BitVec 5) : Statement (.waccWr h c a) := by
  have h0q := h.qp.isLt
  have h1q := h.stop.isLt
  have h2q := h.tk.isLt
  have h3q := c.isLt
  have h4q := a.isLt
  simp only [Statement, encode, put, Hd.bits, Instr.words]
  omega
theorem waccClr (h : Hd) (c : BitVec 4) : Statement (.waccClr h c) := by
  have h0q := h.qp.isLt
  have h1q := h.stop.isLt
  have h2q := h.tk.isLt
  have h3q := c.isLt
  simp only [Statement, encode, put, Hd.bits, Instr.words]
  omega
theorem waccEpi (h : Hd) (c : BitVec 4) (e : BitVec 2) : Statement (.waccEpi h c e) := by
  have h0q := h.qp.isLt
  have h1q := h.stop.isLt
  have h2q := h.tk.isLt
  have h3q := c.isLt
  have h4q := e.isLt
  simp only [Statement, encode, put, Hd.bits, Instr.words]
  omega
theorem wstat (h : Hd) (d : BitVec 4) (p : BitVec 6) (e : BitVec 1) : Statement (.wstat h d p e) := by
  have h0q := h.qp.isLt
  have h1q := h.stop.isLt
  have h2q := h.tk.isLt
  have h3q := d.isLt
  have h4q := p.isLt
  have h5q := e.isLt
  simp only [Statement, encode, put, Hd.bits, Instr.words]
  omega
theorem lvtset (h : Hd) (t : BitVec 1) (n : BitVec 3) (a : BitVec 5) : Statement (.lvtset h t n a) := by
  have h0q := h.qp.isLt
  have h1q := h.stop.isLt
  have h2q := h.tk.isLt
  have h3q := t.isLt
  have h4q := n.isLt
  have h5q := a.isLt
  simp only [Statement, encode, put, Hd.bits, Instr.words]
  omega
theorem bcast (h : Hd) (s0 : BitVec 4) (ak : BitVec 4) (nm1 : BitVec 6) (tm1 : BitVec 4) (wp : BitVec 1) (b0 : BitVec 20) : Statement (.bcast h s0 ak nm1 tm1 wp b0) := by
  have h0q := h.qp.isLt
  have h1q := h.stop.isLt
  have h2q := h.tk.isLt
  have h3q := s0.isLt
  have h4q := ak.isLt
  have h5q := nm1.isLt
  have h6q := tm1.isLt
  have h7q := wp.isLt
  have h8q := b0.isLt
  simp only [Statement, encode, put, Hd.bits, Instr.words]
  omega
theorem planb (h : Hd) (d : BitVec 4) : Statement (.planb h d) := by
  have h0q := h.qp.isLt
  have h1q := h.stop.isLt
  have h2q := h.tk.isLt
  have h3q := d.isLt
  simp only [Statement, encode, put, Hd.bits, Instr.words]
  omega
theorem plane (h : Hd) : Statement (.plane h) := by
  have h0q := h.qp.isLt
  have h1q := h.stop.isLt
  have h2q := h.tk.isLt
  simp only [Statement, encode, put, Hd.bits, Instr.words]
  omega
theorem fibexRd (h : Hd) (d : BitVec 4) : Statement (.fibexRd h d) := by
  have h0q := h.qp.isLt
  have h1q := h.stop.isLt
  have h2q := h.tk.isLt
  have h3q := d.isLt
  simp only [Statement, encode, put, Hd.bits, Instr.words]
  omega
theorem fibexSet (h : Hd) (a : BitVec 4) : Statement (.fibexSet h a) := by
  have h0q := h.qp.isLt
  have h1q := h.stop.isLt
  have h2q := h.tk.isLt
  have h3q := a.isLt
  simp only [Statement, encode, put, Hd.bits, Instr.words]
  omega
theorem ldxpReply (c : CtxId) : Statement (.ldxpReply c) := by simp [Statement, encode, Instr.words]
theorem decoderChunkDone (c : CtxId) : Statement (.decoderChunkDone c) := by simp [Statement, encode, Instr.words]
theorem shadowCopyOnFirstWrite : Statement (.shadowCopyOnFirstWrite) := by simp [Statement, encode, Instr.words]
theorem windowStaging (c : CtxId) (n : Nat) : Statement (.windowStaging c n) := by simp [Statement, encode, Instr.words]
theorem windowPass (c : CtxId) (n : Nat) : Statement (.windowPass c n) := by simp [Statement, encode, Instr.words]
theorem windowRescale (c : CtxId) (n : Nat) : Statement (.windowRescale c n) := by simp [Statement, encode, Instr.words]
theorem windowAccumulate (c : CtxId) (n : Nat) : Statement (.windowAccumulate c n) := by simp [Statement, encode, Instr.words]
theorem epilogueTile (c : CtxId) : Statement (.epilogueTile c) := by simp [Statement, encode, Instr.words]
theorem epilogueOutput (c : CtxId) : Statement (.epilogueOutput c) := by simp [Statement, encode, Instr.words]
theorem epilogueTimeout (c : CtxId) : Statement (.epilogueTimeout c) := by simp [Statement, encode, Instr.words]
theorem bcastSideband (b : Nat) : Statement (.bcastSideband b) := by simp [Statement, encode, Instr.words]
theorem bcastLight (b : Nat) : Statement (.bcastLight b) := by simp [Statement, encode, Instr.words]
theorem planPublish : Statement (.planPublish) := by simp [Statement, encode, Instr.words]
theorem planClose : Statement (.planClose) := by simp [Statement, encode, Instr.words]
theorem planOverrun : Statement (.planOverrun) := by simp [Statement, encode, Instr.words]
theorem planAbort : Statement (.planAbort) := by simp [Statement, encode, Instr.words]
theorem fibreLightLoss (port : Nat) : Statement (.fibreLightLoss port) := by simp [Statement, encode, Instr.words]
theorem copyCommandStart (c : CtxId) (t : DWord) : Statement (.copyCommandStart c t) := by simp [Statement, encode, Instr.words]
theorem copyCommandFinish (c : CtxId) (t : DWord) : Statement (.copyCommandFinish c t) := by simp [Statement, encode, Instr.words]
theorem copyBoundOverrun (c : CtxId) (n : Nat) : Statement (.copyBoundOverrun c n) := by simp [Statement, encode, Instr.words]
theorem tileFlagWrite (t : Nat) : Statement (.tileFlagWrite t) := by simp [Statement, encode, Instr.words]
theorem collectiveComplete (t : Nat) (peers : List Peer) (order : List Nat) : Statement (.collectiveComplete t peers order) := by simp [Statement, encode, Instr.words]
theorem collectiveBoundOverrun (t : Nat) : Statement (.collectiveBoundOverrun t) := by simp [Statement, encode, Instr.words]
theorem collectivePeerFailed (t : Nat) (dev : Nat) (mismatch : Bool) : Statement (.collectivePeerFailed t dev mismatch) := by simp [Statement, encode, Instr.words]
theorem remoteRequest (r : FabricReq) : Statement (.remoteRequest r) := by simp [Statement, encode, Instr.words]
theorem remoteReply (c : CtxId) : Statement (.remoteReply c) := by simp [Statement, encode, Instr.words]
theorem linkLaneFailure (link : Nat) (lost : List Nat) : Statement (.linkLaneFailure link lost) := by simp [Statement, encode, Instr.words]
theorem nodeDispatch : Statement (.nodeDispatch) := by simp [Statement, encode, Instr.words]
theorem nodeComplete (c : CtxId) : Statement (.nodeComplete c) := by simp [Statement, encode, Instr.words]
theorem nodeLate : Statement (.nodeLate) := by simp [Statement, encode, Instr.words]
theorem preemption (die : Nat) (core : Nat) : Statement (.preemption die core) := by simp [Statement, encode, Instr.words]
theorem bankSwap (die : Nat) (core : Nat) : Statement (.bankSwap die core) := by simp [Statement, encode, Instr.words]
theorem spill (c : CtxId) : Statement (.spill c) := by simp [Statement, encode, Instr.words]
theorem contextRestore (c : CtxId) (die : Nat) (core : Nat) (bank : Nat) : Statement (.contextRestore c die core bank) := by simp [Statement, encode, Instr.words]
theorem contextYield (c : CtxId) : Statement (.contextYield c) := by simp [Statement, encode, Instr.words]
theorem pageMigration (asid : Nat) (va : DWord) (ppn : Nat) : Statement (.pageMigration asid va ppn) := by simp [Statement, encode, Instr.words]
theorem pageUnmap (asid : Nat) (va : DWord) : Statement (.pageUnmap asid va) := by simp [Statement, encode, Instr.words]
theorem l2LeaseExpiry (die : Nat) (line : Nat) : Statement (.l2LeaseExpiry die line) := by simp [Statement, encode, Instr.words]
theorem watchHitByOtherAgent : Statement (.watchHitByOtherAgent) := by simp [Statement, encode, Instr.words]
theorem faultFrameWrite (c : CtxId) : Statement (.faultFrameWrite c) := by simp [Statement, encode, Instr.words]
theorem frameRouting (c : CtxId) (choice : FirmwareChoice) : Statement (.frameRouting c choice) := by simp [Statement, encode, Instr.words]
theorem parityReplay (c : CtxId) (q : SeqId) : Statement (.parityReplay c q) := by simp [Statement, encode, Instr.words]
theorem watchdogExpiry (c : CtxId) (q : SeqId) : Statement (.watchdogExpiry c q) := by simp [Statement, encode, Instr.words]
theorem deviceFatalError (f : Fatal) : Statement (.deviceFatalError f) := by simp [Statement, encode, Instr.words]
theorem urgentPreemption (c : CtxId) : Statement (.urgentPreemption c) := by simp [Statement, encode, Instr.words]
theorem calibrationRun (die : Nat) (core : Nat) : Statement (.calibrationRun die core) := by simp [Statement, encode, Instr.words]
theorem calibrationStale (die : Nat) (core : Nat) (skew : Bool) : Statement (.calibrationStale die core skew) := by simp [Statement, encode, Instr.words]
theorem spareLineOrColumn (core : Option (Nat × Nat)) : Statement (.spareLineOrColumn core) := by simp [Statement, encode, Instr.words]
theorem combLaserSwitch (steps : Nat) : Statement (.combLaserSwitch steps) := by simp [Statement, encode, Instr.words]
theorem spareCoreMove (die : Nat) (core : Nat) : Statement (.spareCoreMove die core) := by simp [Statement, encode, Instr.words]
theorem coreWithdrawal (die : Nat) (core : Nat) : Statement (.coreWithdrawal die core) := by simp [Statement, encode, Instr.words]
theorem intervalBoundary : Statement (.intervalBoundary) := by simp [Statement, encode, Instr.words]
theorem thermalCapChange (die : Nat) (freq : Nat) : Statement (.thermalCapChange die freq) := by simp [Statement, encode, Instr.words]
theorem hostSubmission : Statement (.hostSubmission) := by simp [Statement, encode, Instr.words]
theorem submissionQueueBaseWrite (v : DWord) : Statement (.submissionQueueBaseWrite v) := by simp [Statement, encode, Instr.words]
theorem ident (slot : Nat) : Statement (.ident slot) := by simp [Statement, encode, Instr.words]
theorem mgmtFreeze (slot : Nat) : Statement (.mgmtFreeze slot) := by simp [Statement, encode, Instr.words]
theorem mgmtThaw (slot : Nat) : Statement (.mgmtThaw slot) := by simp [Statement, encode, Instr.words]
theorem attest (slot : Nat) : Statement (.attest slot) := by simp [Statement, encode, Instr.words]
theorem urgent (slot : Nat) : Statement (.urgent slot) := by simp [Statement, encode, Instr.words]
theorem mboxOtherOp (slot : Nat) : Statement (.mboxOtherOp slot) := by simp [Statement, encode, Instr.words]
theorem registerWindowWrite (off : Nat) (v : DWord) : Statement (.registerWindowWrite off v) := by simp [Statement, encode, Instr.words]
theorem hostMemoryAccess (a : HostAccess) : Statement (.hostMemoryAccess a) := by simp [Statement, encode, Instr.words]
theorem resetRelease : Statement (.resetRelease) := by simp [Statement, encode, Instr.words]
theorem bootStep (b : BootInput) : Statement (.bootStep b) := by simp [Statement, encode, Instr.words]
theorem illegalInstruction : Statement (.illegalInstruction) := by simp [Statement, encode, Instr.words]
theorem debuggerStop (c : CtxId) (stop : Bool) : Statement (.debuggerStop c stop) := by simp [Statement, encode, Instr.words]
theorem spareHbmPseudoChannel (stack : Nat) : Statement (.spareHbmPseudoChannel stack) := by simp [Statement, encode, Instr.words]
theorem fibreLightReturn (port : Nat) : Statement (.fibreLightReturn port) := by simp [Statement, encode, Instr.words]
theorem powerLoss : Statement (.powerLoss) := by simp [Statement, encode, Instr.words]

end Sys2Proof.Laws.Fits
end

