-- ==== Sys2Proof/Tests/Slice0.lean ====
section
/-! SUPPORT. Tests of the decoder and of single steps, with results from the spec, and for each statement of the obligations a
witness that meets its hypotheses. -/
set_option Elab.async false
open Sys2Proof Sys2Proof.Machine

/-! ## Encodings

The words are built from the match and field columns of spec/opcode_table.json and, for instructions of two words, from the
encodings of 06 to 12; each entry stands beside the instruction that the spec reads in it. -/

/-- Every word decodes on its sequencer to the instruction beside it. -/
def decodesTo (q : SeqSel) (l : List (Nat × Instr)) : Bool := l.all (fun p => decode q p.1 == .ok p.2)

theorem test_decode_l_1 : decodesTo .l [
    (0x4000010, .nop ⟨1, 0, 0⟩),
    (0xB1FE68E71B940061, .pbt ⟨6, 0, 1⟩ 3 1 5 2986240231),
    (0x43B74010, .yAdd ⟨1, 0⟩ 14 13 13),
    (0x418C00A3, .ySub ⟨2, 3⟩ 6 3 0),
    (0x43E90136, .yAnd ⟨3, 6⟩ 15 10 4),
    (0x420201C2, .yOr ⟨4, 2⟩ 8 0 8),
    (0x401AC255, .yXor ⟨5, 5⟩ 0 6 11),
    (0x4273C2E1, .yShl ⟨6, 1⟩ 9 12 15),
    (0x4048C374, .yShr ⟨7, 4⟩ 1 2 3),
    (0x42A18390, .ySra ⟨1, 0⟩ 10 8 6),
    (0x40FA8423, .yMin ⟨2, 3⟩ 3 14 10),
    (0x42D384B6, .yMax ⟨3, 6⟩ 11 4 14),
    (0x452CA0C2, .yAddi ⟨4, 2⟩ 4 11 321),
    (0xE02929D14B000055, .yMovi ⟨5, 5⟩ 12 3760794065),
    (0x4D5E4161, .yCmp ⟨6, 1⟩ 5 7 9 2),
    (0x838010F4, .yMfs ⟨7, 4⟩ 14 33)] = true := by decide +kernel

theorem test_decode_l_2 : decodesTo .l [
    (0x701C710A51630090, .sbind ⟨1, 0⟩ 22 3 0 1 1880912138),
    (0xC6E759FE540F9623, .sset ⟨2, 3⟩ 15 9 12 3337050622),
    (0x580730B6, .lds ⟨3, 6⟩ 7 3 1),
    (0x5C002142, .ldso ⟨4, 2⟩ 0 2 1 0),
    (0x600910D5, .ldg ⟨5, 5⟩ 9 1 1),
    (0x661220E1, .ldz ⟨6, 1⟩ 33 2 2 1),
    (0x68A86074, .ldb ⟨7, 4⟩ 10 8 6 0),
    (0x6C02E010, .pref ⟨1, 0⟩ 2 14),
    (0x29B685FF71B000A3, .bdecl ⟨2, 3⟩ 27 0 1 10678 34303),
    (0x74300136, .bwait ⟨3, 6⟩ 3 2),
    (0x7AC00042, .bstateRead ⟨4, 2⟩ 44 0),
    (0x795000D5, .bstatePdone ⟨5, 5⟩ 21),
    (0x7BD00161, .bstateCdone ⟨6, 1⟩ 61),
    (0x7A6001F4, .bstateFree ⟨7, 4⟩ 38),
    (0x7C000010, .ldtf ⟨1, 0⟩)] = true := by decide +kernel

theorem test_decode_s : decodesTo .s [
    (0xCC00036, .fence ⟨3, 0, 6⟩ 1 2),
    (0x200C0010, .brxd ⟨1, 0, 0⟩ 0 3),
    (0x580720A3, .sts ⟨2, 3⟩ 7 2 1),
    (0x5C003436, .qst ⟨3, 6⟩ 0 3 2 0),
    (0x608BE0C2, .stb ⟨4, 2⟩ 8 11 14 1),
    (0x64044055, .shopen ⟨5, 5⟩ 1 1),
    (0x6825C261, .publish ⟨6, 1⟩ 9 7 4),
    (0x6C2E12F4, .atomv ⟨7, 4⟩ 2 14 1 5),
    (0xC972D34010, .amos ⟨1, 0⟩ 11 4 13 0 12 9),
    (0x7C030023, .bdrain ⟨2, 3⟩ 3)] = true := by decide +kernel

theorem test_decode_k_1 : decodesTo .k [
    (0x12800042, .tkpost ⟨4, 0, 2⟩ 2 8),
    (0x41A70023, .add ⟨2, 3⟩ 13 7 0),
    (0x42BD20B6, .sub ⟨3, 6⟩ 21 29 4),
    (0x43D34142, .and ⟨4, 2⟩ 30 19 8),
    (0x40E959D5, .or ⟨5, 5⟩ 7 9 11),
    (0x41FF7A61, .xor ⟨6, 1⟩ 15 31 15),
    (0x43159AF4, .shl ⟨7, 4⟩ 24 21 19),
    (0x400BB310, .shr ⟨1, 0⟩ 0 11 22),
    (0x4122D3A3, .sra ⟨2, 3⟩ 9 2 26),
    (0x4258F436, .mul ⟨3, 6⟩ 18 24 30),
    (0x434E0CC2, .mulh ⟨4, 2⟩ 26 14 1),
    (0x40642D55, .mulhu ⟨5, 5⟩ 3 4 5),
    (0x417A4DE1, .div ⟨6, 1⟩ 11 26 9),
    (0x42906674, .divu ⟨7, 4⟩ 20 16 12),
    (0x43A68690, .rem ⟨1, 0⟩ 29 6 16),
    (0x40BCA723, .min ⟨2, 3⟩ 5 28 20)] = true := by decide +kernel

theorem test_decode_k_2 : decodesTo .k [
    (0x41D3BFB6, .max ⟨3, 6⟩ 14 19 23),
    (0x46C9ADC2, .addi ⟨4, 2⟩ 22 9 347),
    (0x4BFF2FD5, .andi ⟨5, 5⟩ 31 31 95),
    (0x4D15B161, .ori ⟨6, 1⟩ 8 21 354),
    (0x520B3374, .xori ⟨7, 4⟩ 16 11 102),
    (0x57210A90, .shli ⟨1, 0⟩ 25 1 21),
    (0x58371523, .shri ⟨2, 3⟩ 1 23 42),
    (0x5D4D1FB6, .srai ⟨3, 6⟩ 10 13 63),
    (0x78DDE6C462600042, .movi ⟨4, 2⟩ 19 2027808452),
    (0x2FCE0B78677A0055, .movhi ⟨5, 5⟩ 27 26 802032504),
    (0x6890E2E1, .cmp ⟨6, 1⟩ 4 16 28 5),
    (0xE4C0E996C860374, .cmpi ⟨7, 4⟩ 4 6 6 239865497),
    (0x70A41810, .qand ⟨1, 0⟩ 5 4 3),
    (0x70A238A3, .qor ⟨2, 3⟩ 5 2 7),
    (0x70C00136, .qnot ⟨3, 6⟩ 6 0),
    (0x69CE27D81FE9742, .ldx ⟨4, 2⟩ 15 30 2 5 6 110944893)] = true := by decide +kernel

theorem test_decode_k_3 : decodesTo .k [
    (0x2E2AC0EA86F565D5, .stx ⟨5, 5⟩ 23 21 1 9 3 774553834),
    (0xC04A7780840B1E61, .stxTag ⟨6, 1⟩ 0 11 7 3226105728),
    (0x7D467DC289014574, .ldxp ⟨7, 4⟩ 8 1 1 1 2 2101771714),
    (0x88E373590, .amo ⟨1, 0⟩ 17 23 13 3 8),
    (0x901A6823, .cinv ⟨2, 3⟩ 26 13 0),
    (0x94021836, .cwb ⟨3, 6⟩ 2 3 0),
    (0x980BC842, .pin ⟨4, 2⟩ 11 25),
    (0x9C137855, .unpin ⟨5, 5⟩ 19 15),
    (0xA3801FE1, .mfs ⟨6, 1⟩ 28 63),
    (0xA4050774, .mts ⟨7, 4⟩ 5 14),
    (0xA9A00010, .rdplan ⟨1, 0⟩ 13 0),
    (0xAC00EB23, .trap ⟨2, 3⟩ 470),
    (0xB0009F36, .brk ⟨3, 6⟩ 318),
    (0xC0E060C2, .garr ⟨4, 2⟩ 7 0 193),
    (0xC41062D5, .gwait ⟨5, 5⟩ 16 0 197),
    (0xCB0064E1, .gsync ⟨6, 1⟩ 24 0 201)] = true := by decide +kernel

theorem test_decode_k_4 : decodesTo .k [
    (0xD0370074, .launch ⟨7, 4⟩ 1 23),
    (0xD4000010, .spawn ⟨1, 0⟩),
    (0xDA43A123, .cpy ⟨2, 3⟩ 18 3 20 0 1 0),
    (0x41688B51DF79BB36, .cpyc ⟨3, 6⟩ 27 25 23 0 1 2 1097370449),
    (0xE06F0042, .cpywait ⟨4, 2⟩ 3 15),
    (0xE18000D5, .cpywaitAll ⟨5, 5⟩ 12),
    (0xE2800161, .cpywaitChain ⟨6, 1⟩ 20),
    (0xE41D8874, .ctreadyArm ⟨7, 4⟩ 29 17),
    (0xE4003090, .ctreadyFire ⟨1, 0⟩ 6),
    (0xE40EF123, .ctreadyGo ⟨2, 3⟩ 14 30),
    (0xEAF40036, .ctwait ⟨3, 6⟩ 23 20),
    (0xEBEA00C2, .ctwaitTest ⟨4, 2⟩ 31 10),
    (0xED000055, .boostRel ⟨5, 5⟩ 8),
    (0xEE0000E1, .boostMid ⟨6, 1⟩ 16),
    (0xEF200174, .boostMax ⟨7, 4⟩ 25),
    (0xF0020010, .freezeMark ⟨1, 0⟩ 2)] = true := by decide +kernel

theorem test_decode_k_5 : decodesTo .k [
    (0xF15938A3, .freeze ⟨2, 3⟩ 10 25 7),
    (0xF0130136, .freezeDrop ⟨3, 6⟩ 19),
    (0xF01B01C2, .freezeCont ⟨4, 2⟩ 27),
    (0xF49B9055, .thaw ⟨5, 5⟩ 4 27 18),
    (0xF80D0061, .resume ⟨6, 1⟩ 13),
    (0xF81500F4, .resumeTerm ⟨7, 4⟩ 21)] = true := by decide +kernel

theorem test_decode_c_1 : decodesTo .c [
    (0x800002B, .halt ⟨2, 1, 3⟩),
    (0x1C00007C, .brx ⟨7, 1, 4⟩ 0),
    (0x43204E0E, .vadd ⟨1, 6⟩ 12 16 4 56 0),
    (0x450C827A, .vsub ⟨1, 2⟩ 4 6 8 9 3),
    (0x4B72B6AD, .vmul ⟨1, 5⟩ 13 25 11 26 2),
    (0x4DA4FB09, .vfma ⟨1, 1⟩ 6 18 15 44 0),
    (0x53913F7C, .vfms ⟨1, 4⟩ 14 8 19 61 3),
    (0x55E36398, .vmin ⟨1, 0⟩ 7 17 22 14 1),
    (0x5BEB87FB, .vmax ⟨1, 3⟩ 15 21 24 31 3),
    (0x5E160F8E, .vabs ⟨1, 6⟩ 8 11 62 0),
    (0x6042006A, .vneg ⟨1, 2⟩ 1 1 1 2),
    (0x666C54FD, .vand ⟨1, 5⟩ 9 22 5 19 3),
    (0x689A9939, .vor ⟨1, 1⟩ 2 13 9 36 3),
    (0x6E86CD7C, .vxor ⟨1, 4⟩ 10 3 12 53 3),
    (0x70F20438, .vnot ⟨1, 0⟩ 3 25 16 3),
    (0x7721463B, .vshl ⟨1, 3⟩ 12 16 20 24 3)] = true := by decide +kernel

theorem test_decode_c_2 : decodesTo .c [
    (0x790D7A7E, .vshr ⟨1, 6⟩ 4 6 23 41 3),
    (0x7F690EBA, .vsra ⟨1, 2⟩ 13 20 16 58 3),
    (0x816552ED, .vmad ⟨1, 5⟩ 5 18 21 11 2),
    (0x85502719, .vcmp ⟨1, 1⟩ 5 8 2 28 1),
    (0x899C6B4C, .vsel ⟨1, 4⟩ 6 14 6 45 0),
    (0x8FE80A78, .vmov ⟨1, 0⟩ 15 20 41 3),
    (0xA4DC38509200029B, .vmovi ⟨1, 3⟩ 8 10 1 2765895760),
    (0x9402384E, .vcvt ⟨1, 6⟩ 0 1 3 33),
    (0x9A6E4C8A, .vrotr ⟨1, 2⟩ 9 23 4 50 0),
    (0x9C5A80FD, .vrotc ⟨1, 5⟩ 1 13 8 3 3),
    (0xA286C559, .vbcr ⟨1, 1⟩ 10 3 12 21 1),
    (0xA4F2F98C, .vbcc ⟨1, 4⟩ 3 25 15 38 0),
    (0xAADE2DC8, .vredr ⟨1, 0⟩ 11 15 2 55 0),
    (0xAD0A223B, .vredc ⟨1, 3⟩ 4 5 2 8 3),
    (0xB310167E, .vscanr ⟨1, 6⟩ 12 8 1 25 3),
    (0xB5640ACA, .vscanc ⟨1, 2⟩ 5 18 0 43 0)] = true := by decide +kernel

theorem test_decode_c_3 : decodesTo .c [
    (0xBB90048D, .vexp2 ⟨1, 5⟩ 14 8 18 0),
    (0xB9921549, .vlog2 ⟨1, 1⟩ 6 9 21 0),
    (0xBBE8266C, .vrcp ⟨1, 4⟩ 15 20 25 2),
    (0xB9D43748, .vrsq ⟨1, 0⟩ 7 10 29 0),
    (0xB800480B, .vtanh ⟨1, 3⟩ 0 0 32 0),
    (0xBC9DA40E, .pand ⟨1, 6⟩ 9 54 36),
    (0xBF1B281A, .por ⟨1, 2⟩ 49 44 40),
    (0xBDA8EB2D, .pxor ⟨1, 5⟩ 26 35 43),
    (0xBC264039, .pnot ⟨1, 1⟩ 2 25),
    (0xBEB3C04C, .pmov ⟨1, 4⟩ 43 15),
    (0xC0417608, .pany ⟨1, 0⟩ 4 5 54),
    (0xC04EFA1B, .pall ⟨1, 3⟩ 4 59 58),
    (0xC05C7E2E, .pcnt ⟨1, 6⟩ 5 49 62),
    (0xC570704A, .twr ⟨4, 1, 2⟩ 1 7 1 3),
    (0xC6D140DD, .trr ⟨5, 1, 5⟩ 2 13 5 0),
    (0xC7426169, .trc ⟨6, 1, 1⟩ 3 4 9 2)] = true := by decide +kernel

theorem test_decode_c_4 : decodesTo .c [
    (0xC70001FC, .tclr ⟨7, 1, 4⟩ 3),
    (0xC8000018, .aadd ⟨1, 1, 0⟩ 0 0 0),
    (0xCA1800AB, .amov ⟨2, 1, 3⟩ 8 6),
    (0xC871C13E, .apost ⟨3, 1, 6⟩ 1 12 7),
    (0xC82481CA, .amodset ⟨4, 1, 2⟩ 9 2),
    (0xC8A3825D, .aidx ⟨5, 1, 5⟩ 2 8 14),
    (0xCEF8F629, .aaddi ⟨1, 1⟩ 11 14 3938),
    (0xD0CA098C, .qpush ⟨1, 4⟩ 3 5 38),
    (0xD7000228, .aMfs ⟨1, 0⟩ 12 34),
    (0x9D757E01D622B, .win ⟨2, 1, 3⟩ 0 1 13 1 2 0 0 1 644951),
    (0xE487003E, .wcfg ⟨3, 1, 6⟩ 8 7),
    (0xE66D004A, .wcfgRd ⟨4, 1, 2⟩ 6 13),
    (0xE8E3005D, .waccRd ⟨5, 1, 5⟩ 14 3),
    (0xE9704869, .waccWr ⟨6, 1, 1⟩ 7 9),
    (0xEAF0007C, .waccClr ⟨7, 1, 4⟩ 15),
    (0xEB820018, .waccEpi ⟨1, 1, 0⟩ 8 2)] = true := by decide +kernel

theorem test_decode_c_5 : decodesTo .c [
    (0xEC6C802B, .wstat ⟨2, 1, 3⟩ 1 44 1),
    (0xF294003E, .lvtset ⟨3, 1, 6⟩ 1 2 10)] = true := by decide +kernel

theorem test_decode_b : decodesTo .b [
    (0x16E0005D, .tkwait ⟨5, 1, 5⟩ 2 14),
    (0x285B0E0A0E44A, .bcast ⟨4, 1, 2⟩ 2 8 14 4 0 165296),
    (0xE680005D, .planb ⟨5, 1, 5⟩ 10),
    (0xE8000069, .plane ⟨6, 1, 1⟩),
    (0xEF00007C, .fibexRd ⟨7, 1, 4⟩ 12),
    (0xEC110018, .fibexSet ⟨1, 1, 0⟩ 4)] = true := by decide +kernel

/-! ## Ill-formed terms: one for each check of well-formedness (02 R42 row 4, R49; 01 R21) -/

/-- Instructions that are on the map and have a token field and a stop bit of the sequencer, but no value of a field. -/
def badFields (l : List (SeqSel × Instr)) : Bool :=
  l.all (fun p => p.2.maps.contains p.1 && p.2.tokenField != 7 && p.2.stopOk p.1 && !p.2.wellFormed p.1)

theorem test_offMap_refused : Instr.wellFormed .l (.add ⟨0, 0⟩ 1 2 3) = false := by decide
theorem test_token7_refused : Instr.wellFormed .k (.add ⟨0, 7⟩ 1 2 3) = false ∧ Instr.wellFormed .k (.add ⟨0, 6⟩ 1 2 3) = true := by decide
theorem test_stopBit_refused : Instr.wellFormed .k (.nop ⟨0, 1, 0⟩) = false ∧ Instr.wellFormed .c (.nop ⟨0, 1, 0⟩) = true := by decide
theorem test_event_refused : ∀ q ∈ [SeqSel.l, .c, .s, .k, .b], Instr.wellFormed q .illegalInstruction = false := by decide

theorem test_illFormed_1 : badFields [
    (.k, .fence ⟨3, 0, 6⟩ 5 1),
    (.k, .fence ⟨3, 0, 6⟩ 4 0),
    (.k, .tkpost ⟨4, 0, 2⟩ 0 1),
    (.k, .tkpost ⟨4, 0, 2⟩ 1 0),
    (.l, .tkwait ⟨5, 0, 5⟩ 0 1),
    (.l, .tkwait ⟨5, 0, 5⟩ 1 0),
    (.k, .pbt ⟨6, 0, 1⟩ 3 0 1 2986240231),
    (.l, .pbt ⟨6, 0, 1⟩ 3 1 16 2986240231),
    (.s, .brxd ⟨1, 0, 0⟩ 0 16),
    (.k, .shli ⟨1, 0⟩ 25 1 64),
    (.k, .shri ⟨2, 3⟩ 1 23 64),
    (.k, .srai ⟨3, 6⟩ 10 13 64),
    (.k, .cmp ⟨6, 1⟩ 4 16 28 8),
    (.k, .cmpi ⟨7, 4⟩ 4 6 8 239865497),
    (.k, .ldx ⟨4, 2⟩ 15 30 3 0 0 110944893),
    (.k, .ldx ⟨4, 2⟩ 15 30 0 6 0 110944893),
    (.k, .ldx ⟨4, 2⟩ 15 30 0 5 7 110944893),
    (.k, .ldxp ⟨7, 4⟩ 8 1 3 0 0 2101771714),
    (.k, .ldxp ⟨7, 4⟩ 8 1 0 6 0 2101771714),
    (.k, .ldxp ⟨7, 4⟩ 8 1 0 5 7 2101771714)] = true := by decide +kernel

theorem test_illFormed_2 : badFields [
    (.k, .stx ⟨5, 5⟩ 23 21 3 0 0 774553834),
    (.k, .stx ⟨5, 5⟩ 23 21 0 5 0 774553834),
    (.k, .stx ⟨5, 5⟩ 23 21 0 11 0 774553834),
    (.k, .stx ⟨5, 5⟩ 23 21 0 6 4 774553834),
    (.k, .stxTag ⟨6, 1⟩ 0 11 5 3226105728),
    (.k, .stxTag ⟨6, 1⟩ 0 11 11 3226105728),
    (.k, .amo ⟨1, 0⟩ 2 23 13 1 0),
    (.k, .amo ⟨1, 0⟩ 2 23 13 3 11),
    (.k, .amo ⟨1, 0⟩ 1 23 13 3 9),
    (.k, .amo ⟨1, 0⟩ 2 23 13 3 10),
    (.k, .mfs ⟨6, 1⟩ 28 5),
    (.k, .mfs ⟨6, 1⟩ 28 64),
    (.k, .mts ⟨7, 4⟩ 5 15),
    (.k, .mts ⟨7, 4⟩ 5 35),
    (.l, .yMfs ⟨7, 4⟩ 14 11),
    (.c, .aMfs ⟨1, 0⟩ 12 35),
    (.k, .cpy ⟨2, 3⟩ 18 3 20 1 0 0),
    (.k, .cpyc ⟨3, 6⟩ 27 25 23 0 0 0 1),
    (.k, .cpyc ⟨3, 6⟩ 27 25 23 0 0 1 0),
    (.l, .sbind ⟨1, 0⟩ 1 3 1 1 1880912138),
    (.s, .sbind ⟨1, 0⟩ 1 3 1 0 1880912138)] = true := by decide +kernel

theorem test_illFormed_3 : badFields [
    (.l, .sset ⟨2, 3⟩ 15 9 13 3337050622),
    (.l, .lds ⟨3, 6⟩ 7 4 1),
    (.l, .ldso ⟨4, 2⟩ 0 4 1 0),
    (.l, .ldg ⟨5, 5⟩ 9 4 1),
    (.s, .sts ⟨2, 3⟩ 7 4 1),
    (.s, .qst ⟨3, 6⟩ 0 4 2 0),
    (.s, .publish ⟨6, 1⟩ 9 7 5),
    (.s, .atomv ⟨7, 4⟩ 2 14 4 0),
    (.s, .atomv ⟨7, 4⟩ 2 14 3 9),
    (.s, .atomv ⟨7, 4⟩ 2 14 3 11),
    (.s, .amos ⟨1, 0⟩ 11 4 0 0 12 11),
    (.s, .amos ⟨1, 0⟩ 11 4 0 0 12 10),
    (.s, .amos ⟨1, 0⟩ 11 4 1 0 12 8),
    (.c, .vadd ⟨1, 6⟩ 12 26 0 56 0),
    (.c, .vadd ⟨1, 6⟩ 12 25 31 56 0),
    (.c, .vsub ⟨1, 2⟩ 4 26 0 9 3),
    (.c, .vsub ⟨1, 2⟩ 4 25 31 9 3),
    (.c, .vmul ⟨1, 5⟩ 13 26 0 26 2),
    (.c, .vmul ⟨1, 5⟩ 13 25 31 26 2),
    (.c, .vfma ⟨1, 1⟩ 6 26 0 44 0)] = true := by decide +kernel

theorem test_illFormed_4 : badFields [
    (.c, .vfma ⟨1, 1⟩ 6 25 31 44 0),
    (.c, .vfms ⟨1, 4⟩ 14 26 0 61 3),
    (.c, .vfms ⟨1, 4⟩ 14 25 31 61 3),
    (.c, .vmin ⟨1, 0⟩ 7 26 0 14 1),
    (.c, .vmin ⟨1, 0⟩ 7 25 31 14 1),
    (.c, .vmax ⟨1, 3⟩ 15 26 0 31 3),
    (.c, .vmax ⟨1, 3⟩ 15 25 31 31 3),
    (.c, .vand ⟨1, 5⟩ 9 26 0 19 3),
    (.c, .vand ⟨1, 5⟩ 9 25 31 19 3),
    (.c, .vand ⟨1, 5⟩ 9 0 0 19 2),
    (.c, .vor ⟨1, 1⟩ 2 26 0 36 3),
    (.c, .vor ⟨1, 1⟩ 2 25 31 36 3),
    (.c, .vor ⟨1, 1⟩ 2 0 0 36 2),
    (.c, .vxor ⟨1, 4⟩ 10 26 0 53 3),
    (.c, .vxor ⟨1, 4⟩ 10 25 31 53 3),
    (.c, .vxor ⟨1, 4⟩ 10 0 0 53 2),
    (.c, .vshl ⟨1, 3⟩ 12 26 0 24 3),
    (.c, .vshl ⟨1, 3⟩ 12 25 31 24 3),
    (.c, .vshl ⟨1, 3⟩ 12 0 0 24 2),
    (.c, .vshr ⟨1, 6⟩ 4 26 0 41 3)] = true := by decide +kernel

theorem test_illFormed_5 : badFields [
    (.c, .vshr ⟨1, 6⟩ 4 25 31 41 3),
    (.c, .vshr ⟨1, 6⟩ 4 0 0 41 2),
    (.c, .vsra ⟨1, 2⟩ 13 26 0 58 3),
    (.c, .vsra ⟨1, 2⟩ 13 25 31 58 3),
    (.c, .vsra ⟨1, 2⟩ 13 0 0 58 2),
    (.c, .vmad ⟨1, 5⟩ 5 26 0 11 3),
    (.c, .vmad ⟨1, 5⟩ 5 25 31 11 3),
    (.c, .vcmp ⟨1, 1⟩ 0 26 0 28 3),
    (.c, .vcmp ⟨1, 1⟩ 0 25 31 28 3),
    (.c, .vsel ⟨1, 4⟩ 6 26 0 45 0),
    (.c, .vsel ⟨1, 4⟩ 6 25 31 45 0),
    (.c, .vmad ⟨1, 5⟩ 5 0 0 11 0),
    (.c, .vcmp ⟨1, 1⟩ 8 0 0 28 3),
    (.c, .vcmp ⟨1, 1⟩ 6 0 0 28 0),
    (.c, .vabs ⟨1, 6⟩ 8 26 62 0),
    (.c, .vneg ⟨1, 2⟩ 1 26 1 2),
    (.c, .vmov ⟨1, 0⟩ 15 26 41 3),
    (.c, .vcvt ⟨1, 6⟩ 0 26 14 33),
    (.c, .vrotr ⟨1, 2⟩ 9 26 4 50 0),
    (.c, .vrotc ⟨1, 5⟩ 1 26 8 3 3)] = true := by decide +kernel

theorem test_illFormed_6 : badFields [
    (.c, .vbcr ⟨1, 1⟩ 10 26 12 21 1),
    (.c, .vbcc ⟨1, 4⟩ 3 26 15 38 0),
    (.c, .vredr ⟨1, 0⟩ 11 26 2 55 0),
    (.c, .vredc ⟨1, 3⟩ 4 26 2 8 3),
    (.c, .vscanr ⟨1, 6⟩ 12 26 2 25 3),
    (.c, .vscanc ⟨1, 2⟩ 5 26 2 43 0),
    (.c, .qpush ⟨1, 4⟩ 4 26 38),
    (.c, .waccWr ⟨6, 1, 1⟩ 7 26),
    (.c, .lvtset ⟨3, 1, 6⟩ 0 2 26),
    (.c, .vexp2 ⟨1, 5⟩ 14 26 18 0),
    (.c, .vlog2 ⟨1, 1⟩ 6 26 21 0),
    (.c, .vrcp ⟨1, 4⟩ 15 26 25 0),
    (.c, .vrsq ⟨1, 0⟩ 7 26 29 0),
    (.c, .vtanh ⟨1, 3⟩ 0 26 32 0),
    (.c, .vnot ⟨1, 0⟩ 3 26 16 3),
    (.c, .vnot ⟨1, 0⟩ 3 0 16 0),
    (.c, .vcvt ⟨1, 6⟩ 0 25 15 33),
    (.c, .qpush ⟨1, 4⟩ 5 25 38),
    (.c, .lvtset ⟨3, 1, 6⟩ 1 4 25),
    (.c, .vredr ⟨1, 0⟩ 11 25 3 55 0)] = true := by decide +kernel

theorem test_illFormed_7 : badFields [
    (.c, .vredc ⟨1, 3⟩ 4 25 3 8 3),
    (.c, .vscanr ⟨1, 6⟩ 12 25 3 25 3),
    (.c, .vscanc ⟨1, 2⟩ 5 25 3 43 0),
    (.c, .vexp2 ⟨1, 5⟩ 14 25 18 3),
    (.c, .vlog2 ⟨1, 1⟩ 6 25 21 3),
    (.c, .vrcp ⟨1, 4⟩ 15 25 25 3),
    (.c, .vrsq ⟨1, 0⟩ 7 25 29 3),
    (.c, .vtanh ⟨1, 3⟩ 0 25 32 3),
    (.c, .wcfg ⟨3, 1, 6⟩ 9 7),
    (.c, .wcfgRd ⟨4, 1, 2⟩ 9 13)] = true := by decide +kernel

/-! ## One word of each family, bit by bit from the template of its entry -/

theorem test_word_yAdd : decode .l 0b010000_1110_0011_0101_0000000_001_0_101 = .ok (.yAdd ⟨1, 5⟩ 14 3 5) := by decide
theorem test_word_sbind : decode .s (0xFFFFFF00 * 2 ^ 32 + 0b010100_101101_0111_0000_00011_010_0_001) =
    .ok (.sbind ⟨2, 1⟩ 45 7 1 1 0xFFFFFF00) := by decide
theorem test_word_sset : decode .l (5 * 2 ^ 32 + 0b010101_000000_0011_1001_01100_000_0_000) = .ok (.sset ⟨0, 0⟩ 3 9 12 5) := by decide
theorem test_word_bdecl : decode .l ((0x1234 * 2 ^ 16 + 0x0042) * 2 ^ 32 + 0b011100_110011_0000_0000_0_10_01_111_0_110) =
    .ok (.bdecl ⟨7, 6⟩ 51 2 1 0x1234 0x42) := by decide
theorem test_word_stb : decode .s 0b011000_001000_1011_1110_0000_1_100_0_010 = .ok (.stb ⟨4, 2⟩ 8 11 14 1) := by decide
theorem test_word_amos : decode .s ((0b1_1100_1001) * 2 ^ 32 + 0b011100_1011_0100_1101_0000000_001_0_000) =
    .ok (.amos ⟨1, 0⟩ 11 4 13 1 12 9) := by decide
theorem test_word_cpy : decode .k 0b110110_10010_00011_10100_0_1_0_1_010_0_011 = .ok (.cpy ⟨2, 3⟩ 18 3 20 1 0 1) := by decide
theorem test_word_cpyc : decode .k (0xDEADBEEF * 2 ^ 32 + 0b110111_11011_11001_10111_0_1_10_011_0_110) =
    .ok (.cpyc ⟨3, 6⟩ 27 25 23 0 1 2 0xDEADBEEF) := by decide
theorem test_word_ctready : decode .k 0b111001_00000_01110_11110_0010_010_0_011 = .ok (.ctreadyGo ⟨2, 3⟩ 14 30) := by decide
theorem test_word_boost : decode .k 0b111011_10000_00000_0000000_01_110_0_001 = .ok (.boostMid ⟨6, 1⟩ 16) := by decide
theorem test_word_freeze : decode .k 0b111100_01010_11001_00111_0001_010_0_011 = .ok (.freeze ⟨2, 3⟩ 10 25 7) := by decide
theorem test_word_resume : decode .k 0b111110_00000_01101_00000_0000_110_0_001 = .ok (.resume ⟨6, 1⟩ 13) := by decide
theorem test_word_win : decode .c (0x9D757 * 2 ^ 32 + 0b111000_10_0001_1101_01_11_1_0_1_00_010_1_011) =
    .ok (.win ⟨2, 1, 3⟩ 2 1 13 1 3 1 0 1 0x9D757) := by decide
theorem test_word_lvtset : decode .c 0b111100_1_010_01010_0000000000_011_0_110 = .ok (.lvtset ⟨3, 0, 6⟩ 1 2 10) := by decide
theorem test_word_bcast : decode .b (0x285B0 * 2 ^ 32 + 0b111000_0010_1000_001110_0100_1_100_1_010) =
    .ok (.bcast ⟨4, 1, 2⟩ 2 8 14 4 1 0x285B0) := by decide
theorem test_word_fibex : decode .b 0b111011_1100_0000_00_000000000_111_1_100 = .ok (.fibexRd ⟨7, 1, 4⟩ 12) := by decide

/-! ## The worked encodings of the spec -/

/-- 05 R164, R165; 06 R169 to R198: the examples of K. -/
theorem test_examples_k : decodesTo .k [
    (0xD0A90000, .launch ⟨0, 0⟩ 5 9), (0xD4000000, .spawn ⟨0, 0⟩), (0xA0200800, .mfs ⟨0, 0⟩ 1 0x010), (0x16400000, .tkwait ⟨0, 0, 0⟩ 2 4),
    (0x0DC00000, .fence ⟨0, 0, 0⟩ 3 2), (0x40842800, .add ⟨0, 0⟩ 4 4 5), (0x44420400, .addi ⟨0, 0⟩ 2 2 8), (0x80A20180, .ldx ⟨0, 0⟩ 5 2 0 0 3 0),
    (0xA8E00000, .rdplan ⟨0, 0⟩ 7 0), (0xC0A08180, .garr ⟨0, 0⟩ 5 1 3)] = true := by decide
/-- 12 R343, R347; 13 R371, R372; 14 R388, R389; 15 R400, R413. -/
theorem test_examples_units : decodesTo .k [
    (0xD8411800, .cpy ⟨0, 0⟩ 2 1 3 0 0 0), (0xD8411B00, .cpy ⟨0, 0⟩ 2 1 3 1 1 0), (0xE0800100, .cpywaitChain ⟨0, 0⟩ 4),
    (0xE4032100, .ctreadyGo ⟨0, 0⟩ 3 4), (0xE8A40000, .ctwait ⟨0, 0⟩ 5 4), (0xF8010000, .resume ⟨0, 0⟩ 1), (0xF8010080, .resumeTerm ⟨0, 0⟩ 1),
    (0xF0A11080, .freeze ⟨0, 0⟩ 5 1 2), (0xF4A11000, .thaw ⟨0, 0⟩ 5 1 2)] = true := by decide
/-- 07 R204 to R226. -/
theorem test_examples_l : decodesTo .l [
    (0x4048C000, .yAdd ⟨0, 0⟩ 1 2 3), (0x80400800, .yMfs ⟨0, 0⟩ 1 0x010), (0xA * 2 ^ 32 + 0x54020080, .sset ⟨0, 0⟩ 2 0 1 10),
    (0x58020000, .lds ⟨0, 0⟩ 2 0 0), (0x64423080, .ldz ⟨0, 0⟩ 4 2 3 1)] = true := by decide
/-- 09 R263 to R276. -/
theorem test_examples_s : decodesTo .s [
    (0x58030080, .sts ⟨0, 0⟩ 3 0 1), (0x5C041480, .qst ⟨0, 0⟩ 4 1 2 1), (0x60724080, .stb ⟨0, 0⟩ 7 2 4 1), (0x6C952500, .atomv ⟨0, 0⟩ 9 5 2 10),
    (0x91 * 2 ^ 32 + 0x71580000, .amos ⟨0, 0⟩ 5 6 0 0 9 1), (0x6408C000, .shopen ⟨0, 0⟩ 2 3), (0x6808C180, .publish ⟨0, 0⟩ 2 3 3),
    (0x7C040000, .bdrain ⟨0, 0⟩ 4)] = true := by decide
/-- 08 R237 to R256; 10 R296 to R313. -/
theorem test_examples_c : decodesTo .c [
    (0x40450000, .vadd ⟨0, 0⟩ 1 2 16 0 0), (0xBC310508, .pand ⟨1, 0⟩ 3 4 5), (0xCC47FFF8, .aaddi ⟨1, 0⟩ 1 1 0x3FFF), (0xD4800208, .aMfs ⟨1, 0⟩ 2 0x20),
    (0xE4020008, .wcfg ⟨0, 1, 0⟩ 0 2), (2000 * 2 ^ 32 + 0xE1342E08, .win ⟨0, 1, 0⟩ 1 3 4 0 2 1 1 1 2000), (0xED470008, .wstat ⟨0, 1, 0⟩ 5 7 0),
    (0xE8360008, .waccRd ⟨0, 1, 0⟩ 3 6), (0xF0A20008, .lvtset ⟨0, 1, 0⟩ 0 2 17)] = true := by decide

/-! ## States for the tests

A launch with one running node stands in bank 0 of core 0, in an address space that maps the first GiB to itself. -/

/-- A machine that runs a program on the sequencer of a map. -/
def running (q : SeqSel) : State :=
  { State.reset with
    cur := seqOfSel q, cx := programCtx q, boot := 1, mem := programTables [], asids := [(1, 0x40000000)]
    launches := [programLaunch q], nextLaunch := 2 }

/-- It, with its context changed. -/
def runningWith (q : SeqSel) (f : Ctx → Ctx) : State := { running q with cx := f (programCtx q) }

def issuesB (s : State) (q : SeqId) (qp tk : BitVec 3) : Bool :=
  decide (s.cur = q) && s.bun.isNone && (s.cx.seq q).rq qp && (s.cx.openField q tk).all (fun i => decide (0 < s.cx.tokens i)) &&
    (fieldPost q tk).all (fun i => decide (s.cx.tokens i < 15))

theorem issues_of {s : State} {q : SeqId} {qp tk : BitVec 3} (h : issuesB s q qp tk = true) : s.Issues q qp tk := by
  simp only [issuesB, Bool.and_eq_true, decide_eq_true_eq, Option.isNone_iff_eq_none, Option.all_eq_true] at h
  exact ⟨h.1.1.1.1, h.1.1.1.2, h.1.1.2, h.1.2, h.2⟩

def issuesCB (s : State) (truth : Ctx → Bool) (tk : BitVec 3) (srcs : List (BitVec 5)) : Bool :=
  decide (s.cur = .c) && s.bun.isNone && truth s.cx && (s.cx.openField .c tk).all (fun i => decide (0 < s.cx.tokens i)) &&
    (fieldPost .c tk).all (fun i => decide (s.cx.tokens i < 15)) && srcs.all (fun c => (s.cx.image c).isSome)

theorem issuesC_of {s : State} {truth : Ctx → Bool} {tk : BitVec 3} {srcs : List (BitVec 5)} (h : issuesCB s truth tk srcs = true) :
    s.IssuesC truth tk srcs := by
  simp only [issuesCB, Bool.and_eq_true, decide_eq_true_eq, Option.isNone_iff_eq_none, Option.all_eq_true, List.all_eq_true] at h
  exact ⟨h.1.1.1.1.1, h.1.1.1.1.2, h.1.1.1.2, h.1.1.2, h.1.2, h.2⟩

/-- What an operation answers, and whether it goes on. -/
def val {α : Type} (d : α) (m : M α) (s : State) : α :=
  match m s with
  | .ok a _ => a
  | .error _ _ => d
def goes {α : Type} (m : M α) (s : State) : Bool :=
  match m s with
  | .ok _ _ => true
  | .error _ _ => false

theorem goes_ok {α : Type} (d : α) {m : M α} {s : State} (h : goes m s = true) : m s = .ok (val d m s) (endOf m s) := by
  unfold goes val endOf at *
  cases hm : m s with
  | ok a t => rfl
  | error e t => rw [hm] at h; cases h

/-! ## Witnesses: for each statement, states and operands that meet its hypotheses -/

theorem sharedIssues_of {s : State} {q : SeqId} {h : Hd} (e : issuesB s q h.qp h.tk = true) : s.IssuesShared q h :=
  ⟨(issues_of e).focus, (issues_of e).alone, (issues_of e).holds, (issues_of e).token, (issues_of e).room⟩

theorem witness_ReservedWordsAreRefused : (0 / 2 ^ 26 % 64 = 0) ∧ ∃ i, decode .k 0x04000000 = .ok i := ⟨rfl, _, rfl⟩

theorem witness_DecodingGivesBackWhatWasEncoded : Instr.wellFormed .k (.add ⟨0, 6⟩ 31 31 31) = true := by decide

/-- A machine about to run `add x4, x4, x5`, and the turn's state. -/
def addState : State := State.reset.withFetchWord 32 0x40842800
def addTurn : State := { State.focus { addState with agenda := [] } ⟨1, 0⟩ with cur := .k }

theorem witness_StepRunsTheDecodedInstruction_one :
    let l := val ⟨0, 0⟩ nextLine addTurn
    addState.held = false ∧ dueEvent addState = none ∧ dueChange addState = none ∧ addState.agenda = [.issue ⟨1, 0⟩ .k] ∧
    (addState.ctx? ⟨1, 0⟩).isSome = true ∧ addTurn.mayIssue = true ∧ addTurn.acquireDue = addTurn ∧ nextLine addTurn = .ok l (endOf nextLine addTurn) ∧
    selOf (endOf nextLine addTurn).cx .k = .k ∧ wordIx addTurn.cx.seqK.pc = 1 ∧
    decode .k (l.full .k 1) = .ok (.add ⟨0, 0⟩ 4 4 5) := by
  refine ⟨?_, ?_, ?_, ?_, ?_, ?_, ?_, goes_ok _ ?_, ?_, ?_, ?_⟩ <;> decide +kernel

/-! ## Single steps and conversions, with the results that the spec's worked examples give -/

/-- The state that an instruction leaves, where it answers one. -/
def after1 (i : Instr) (s : State) : State :=
  match exec i s with
  | .next t => t
  | _ => State.reset

/-- 06 R183: sums wrap modulo 2^64. -/
theorem test_add_wraps : ((after1 (.add ⟨0, 0⟩ 4 5 6) (runningWith .k (fun c => (c.wx 5 0xFFFFFFFFFFFFFFFF).wx 6 3))).cx.rx 4) = 2 := by
  decide +kernel
/-- 06 R183: x0 reads 0, whatever is written to it. -/
theorem test_x0_reads_zero : ((after1 (.addi ⟨0, 0⟩ 0 5 7) (running .k)).cx.rx 0) = 0 := by decide +kernel
/-- 06 R183: DIV rounds toward zero, and REM takes the dividend's sign. -/
theorem test_div_toward_zero : aluDiv (-7) 2 = -3 ∧ aluRem (-7) 2 = -1 ∧ aluDiv 5 0 = 0 ∧ aluRem 5 0 = 5 := by decide
/-- 06 R184: MOVHI puts its immediate above bits [31:0]. -/
theorem test_movhi : ((after1 (.movhi ⟨0, 0⟩ 1 2 0x12345678) (runningWith .k (fun c => c.wx 2 0xAAAAAAAA9ABCDEF0))).cx.rx 1) =
    0x123456789ABCDEF0 := by decide +kernel
/-- 06 R180, "A loop worked out", order 2: x1 goes from 3 to 2, and the transfer is pending over two delay slots. -/
theorem test_brxd_of_the_loop :
    let t := after1 (.brxd ⟨0, 0, 0⟩ 0 1) (runningWith .k (fun c => c.wx 1 3))
    t.cx.rx 1 = 2 ∧ (t.cx.seqK.pend.map (fun p => (p.taken, p.left))) = some (true, 2) := by decide +kernel
/-- 08 R252: with MODE 2, LEN 8 and STEP 1, six APOST step an index through 0, 4, 2, 6, 1 and 5; the one at 4 hands on 4 and leaves 2. -/
theorem test_apost_bit_reversed :
    let m : DWord := 0x8000000000080001
    stepIndex 0 m = 4 ∧ stepIndex 2 m = 6 ∧ stepIndex 6 m = 1 ∧ stepIndex 1 m = 5 ∧
    (let t := after1 (.apost ⟨0, 1, 0⟩ 3 1 2) (runningWith .c (fun c => { c.wa 1 4 with m := c.m.set 2 m }))
     t.cx.ra 3 = 4 ∧ t.cx.ra 1 = 2) := by decide +kernel
/-- 08 R243: of 2^24, 1.0, 1.0 and -2^24 the pairwise tree gives 1.0. -/
theorem test_pairwise_sum : pairSum fp32.add 0 ([0x4B800000, 0x3F800000, 0x3F800000, 0xCB800000] ++ List.replicate 60 0) = 0x3F800000 := by
  decide +kernel
/-- 03 R76: 2.5 gives 2, -2.5 gives -2, 3.5 gives 4, -0.7 gives 0 in N8, and 300.0 gives 127 in I8. -/
theorem test_to_int :
    toInt (fp32.value 0x40200000) (-128) 127 false = 2 ∧ toInt (fp32.value 0xC0200000) (-128) 127 false = -2 ∧
    toInt (fp32.value 0x40600000) (-128) 127 false = 4 ∧ toInt (fp32.value 0xBF333333) 0 255 false = 0 ∧
    toInt (fp32.value 0x43960000) (-128) 127 false = 127 := by decide +kernel
/-- 03 R75: 65,520 becomes FP16 infinity, and 65,519.996 does not. -/
theorem test_fp16_overflow : convFF fp32 fp16 0x477FF000 = 0x7C00 ∧ convFF fp32 fp16 0x477FEFFF = 0x7BFF := by decide +kernel
/-- 03 "One block worked": the header is 0x9D00_097F, and the code bytes are D7 02 59 06 four times, E7 04 eight times, and 0. -/
theorem test_block_worked :
    let zero4 := [0x41400000, 0xC0C00000, 0x40200000, 0x3F000000, 0xBFC00000, 0x40E00000, 0x41100000, 0]
    let one4 := [0x41700000, 0xC1200000, 0x40A00000, 0]
    let xs := (List.replicate 4 zero4).flatten ++ (List.replicate 8 one4).flatten ++ List.replicate 192 0
    (quantise xs false 0).map (fun r => (r.header, codeBytes r.codes, r.ovf)) =
      some (0x9D00097F, (List.replicate 4 [0xD7, 0x02, 0x59, 0x06]).flatten ++ (List.replicate 8 [0xE7, 0x04]).flatten ++
        List.replicate 96 0, false) := by decide +kernel
/-- 07 "A decoded buffer worked through": the CHECK of the outputs of chunks 0 and 1. -/
theorem test_zb_check :
    rwsOf 0xFFFFFFFF (natBytes 64 0x04030201) = 0x81000201 ∧ rwsOf 0xFFFFFFFF (natBytes 32 0xFF) = 0x7F00 := by decide +kernel
/-- 02 "A line worked out": the two words of the bundle and the words after it. -/
theorem test_line_worked : decodesTo .c [
    (0x40450000, .vadd ⟨0, 0⟩ 1 2 16 0 0), (0x48C85088, .vmul ⟨1, 0⟩ 3 4 5 2 0), (0x08000008, .halt ⟨0, 1, 0⟩),
    (0x04000008, .nop ⟨0, 1, 0⟩)] = true := by decide
/-- 06 R197: TRAP retires, and its frame carries the cause "software trap" and the trap code. -/
theorem test_trap :
    let t := after1 (.trap ⟨0, 0⟩ 5) (running .k)
    (t.cx.frameOut.map (fun f => (f.cause, f.tcode))) = some (0x030, 5) ∧ t.cx.status = .stopped := by decide +kernel

/-- A machine about to run a bundle of two words, `vadd v1, v2, lq0` and NOP with the stop bit. -/
def pairState : State :=
  { running .c with
    agenda := [.issue ⟨1, 0⟩ .c], mem := (programTables []).writeN 0x10000 (programLine .c (.vadd ⟨0, 0⟩ 1 2 16 0 0) 0x40450000) }
def pairTurn : State := { State.focus { pairState with agenda := [] } ⟨1, 0⟩ with cur := .c }

theorem witness_StepRunsTheDecodedInstruction_bundle :
    let l := val ⟨0, 0⟩ nextLine pairTurn
    let is := [Instr.vadd ⟨0, 0⟩ 1 2 16 0 0, .nop ⟨0, 1, 0⟩]
    pairState.held = false ∧ dueEvent pairState = none ∧ dueChange pairState = none ∧ pairState.agenda = [.issue ⟨1, 0⟩ .c] ∧
    (pairState.ctx? ⟨1, 0⟩).isSome = true ∧ pairTurn.mayIssue = true ∧ pairTurn.acquireDue = pairTurn ∧ nextLine pairTurn = .ok l (endOf nextLine pairTurn) ∧
    readUnit .c (illegalCause .c) l 1 15 1 = .ok is ∧ 2 ≤ is.length ∧ bundleOk is = true := by
  refine ⟨?_, ?_, ?_, ?_, ?_, ?_, ?_, goes_ok _ ?_, ?_, ?_, ?_⟩ <;> decide +kernel

theorem witness_TheNextLineIsFetchedFromMemory :
    let st := addTurn.cx.seqK
    let tr := match translate addTurn 1 .fetch (lineVa st.pc) with | .ok t => t | .error _ => ⟨0, 0, 0⟩
    let bs := bytesOf (addTurn.withA tr).mem [⟨lineVa st.pc, 64, tr⟩]
    st.pend = none ∧ wordIx st.pc ≠ 0 ∧ st.line = none ∧ st.fetched = [] ∧ translate addTurn 1 .fetch (lineVa st.pc) = .ok tr ∧
    tr.spad = false ∧ tr.home = addTurn.dev ∧ cachesAway (addTurn.withA tr) (addTurn.withA tr).agent tr (Seg.key ⟨lineVa st.pc, 64, tr⟩ .read) = false ∧
    linkOk (leNat (bs.take 4)) = true ∧ linkOwner (leNat (bs.take 4)) = 3 := by decide +kernel
/-- A line that is held, with the program counter at its last word. -/
theorem witness_TheNextLineIsFetchedFromMemory_held :
    let st : SeqState := { pc := 0x1003C, line := some ⟨0x10000, 0⟩ }
    st.pend = none ∧ wordIx st.pc = 15 ∧ st.line = some ⟨0x10000, 0⟩ ∧ lineVa st.pc = 0x10000 := by decide +kernel

theorem witness_TheProgramCounterFollowsTheChain :
    let at' (pc : DWord) (link : BitVec 512) : SeqState := { pc := pc, halted := false, line := some ⟨lineVa pc, link⟩ }
    (wordIx (at' 0x10038 0).pc + 1 = 15) ∧ (wordIx (at' 0x10038 0).pc + 2 = 16 ∧ linkLast (at' 0x10038 0).link = false) ∧
    (wordIx (at' 0x1003C 0).pc + 1 = 16 ∧ linkLast (at' 0x1003C 0x20000000).link = true) := by decide +kernel

/-- K with 15 tokens in a queue, and C, about to execute a shared word. -/
theorem witness_SharedInstructionsComplete :
    let s := runningWith .k (fun c => c.setTokens (waitQueue .k 2) 15)
    s.IssuesShared .k ⟨0, 0, 0⟩ ∧ (s.cx.copy.faults = [] ∧ s.cx.tileFaults = []) ∧
    (s.started .k 0).cx.tokens (postQueue .k 3) + 15 ≤ 15 ∧ 15 ≤ (s.started .k 0).cx.tokens (waitQueue .k 2) ∧ s.cx.seqK.pend = none :=
  ⟨sharedIssues_of (by decide +kernel), by decide +kernel⟩
theorem witness_SharedInstructionsComplete_onC :
    (running .c).IssuesShared .c ⟨0, 1, 0⟩ ∧ (running .c).unplanned ∧ (running .c).cx.deferred = [] ∧
    0 < ((running .c).started .c 0).cx.tokens (waitQueue .c 0) + 1 ∧ (running .c).cx.onBcast = false ∧ (running .c).cx.seqC.pend = none :=
  ⟨sharedIssues_of (by decide +kernel), by unfold State.unplanned; decide +kernel, by decide +kernel⟩

theorem witness_IllegalWordsAndDelayedTransfersFault_delay :
    let s := runningWith .k (fun c => c.updSeq .k (fun st => { st with pend := some ⟨0x20000, true, 1⟩ }))
    s.bun = none ∧ (s.cx.seq s.cur).pend.isSome = true := by decide +kernel

theorem witness_FalsePredicatesOnlyMoveOn :
    let s := running .l
    hqOf (.yAdd ⟨7, 0⟩ 1 2 3) = some ⟨7, 0⟩ ∧ (Instr.yAdd ⟨7, 0⟩ 1 2 3).maps.contains (selOf s.cx .l) = true ∧ s.cx.onBcast = false ∧
    s.cur = .l ∧ s.bun = none ∧ (s.cx.seq .l).rq 7 = false ∧ s.cx.openField .l 0 = none ∧ fieldPost .l 0 = none := by decide +kernel

theorem witness_TakingAFaultStopsAndRecords :
    ((running .k).launch? (running .k).cx.id.launch).map (·.serial) = some 0 := by decide +kernel

/-- Words that wait for a token, and that post one, with the queue at its bound. -/
theorem witness_issues :
    (running .k).Issues .k 0 0 ∧ (runningWith .k (fun c => (fieldWait .k 3).elim c (fun i => c.setTokens i 1))).Issues .k 0 3 ∧
    (runningWith .k (fun c => (fieldPost .k 6).elim c (fun i => c.setTokens i 14))).Issues .k 0 6 ∧
    (running .l).Issues .l 0 0 ∧ (running .s).Issues .s 0 0 :=
  by refine ⟨?_, ?_, ?_, ?_, ?_⟩ <;> exact issues_of (by decide +kernel)

theorem witness_TrapAndBreakRetireAndFault : (running .k).Issues .k 0 0 := witness_issues.1

/-- A machine whose next word is 0, of opcode 0. -/
def illegalState : State := { addTurn with mem := (programTables []).writeN 0x10000 (programLine .k (.add ⟨0, 0⟩ 0 0 0) 0) }

theorem witness_IllegalWordsAndDelayedTransfersFault :
    let l := val ⟨0, 0⟩ nextLine illegalState
    illegalState.mayIssue = true ∧ nextLine illegalState = .ok l (endOf nextLine illegalState) ∧
    (endOf nextLine illegalState).cur = illegalState.cur ∧ wordIx illegalState.cx.seqK.pc ≤ 15 ∧
    decode .k (l.full .k 1) = .error .unassignedOpcode := by
  refine ⟨?_, goes_ok _ ?_, ?_, ?_, ?_⟩ <;> decide +kernel

/-- A machine about to execute a word of a sequencer. -/
def wordState (m : SeqSel) (w : Nat) : State :=
  { running m with mem := (programTables []).writeN 0x10000 (programLine m (.nop ⟨0, 1, 0⟩) (w + 0x04000008 * 2 ^ 32)) }

/-- The machine of a word meets what `FaultsOn` asks, and the word is one of those it names. -/
def Stands (m : SeqSel) (bad : Nat → Prop) (w : Nat) : Prop :=
  let s := wordState m w
  let l := val ⟨0, 0⟩ nextLine s
  s.mayIssue = true ∧ nextLine s = .ok l (endOf nextLine s) ∧ (endOf nextLine s).cur = s.cur ∧
    selOf (endOf nextLine s).cx (endOf nextLine s).cur = m ∧ wordIx ((endOf nextLine s).cx.seq (endOf nextLine s).cur).pc = 1 ∧
    bad (l.full m 1)

def standsB (m : SeqSel) (w : Nat) : Bool :=
  let s := wordState m w
  s.mayIssue && goes nextLine s && decide ((endOf nextLine s).cur = s.cur) &&
    decide (selOf (endOf nextLine s).cx (endOf nextLine s).cur = m) &&
    wordIx ((endOf nextLine s).cx.seq (endOf nextLine s).cur).pc == 1 &&
    ((val ⟨0, 0⟩ nextLine s).full m 1 == w || (val ⟨0, 0⟩ nextLine s).full m 1 == w + 0x04000008 * 2 ^ 32)

theorem stands_of {m : SeqSel} {bad : Nat → Prop} {w : Nat} (hb : bad w ∧ bad (w + 0x04000008 * 2 ^ 32)) (h : standsB m w = true) :
    Stands m bad w := by
  simp only [standsB, Bool.and_eq_true, Bool.or_eq_true, decide_eq_true_eq, beq_iff_eq] at h
  have hw : bad ((val ⟨0, 0⟩ nextLine (wordState m w)).full m 1) := by
    rcases h.2 with e | e
    · rw [e]; exact hb.1
    · rw [e]; exact hb.2
  exact ⟨h.1.1.1.1.1, goes_ok _ h.1.1.1.1.2, h.1.1.1.2, h.1.1.2, h.1.2, hw⟩

/-- SHLI by 64, MOVI with a field set, CMP on a field past q7, QNOT with an xb, and RDPLAN with a function of 2. -/
theorem witness_FaultsOn_k :
    Stands .k illegalArithmeticOfK (0x15 * 2 ^ 26 + 64 * 2 ^ 7) ∧ Stands .k illegalArithmeticOfK (0x18 * 2 ^ 26 + 31 * 2 ^ 16) ∧
    Stands .k illegalPredicateOfK (0x1A * 2 ^ 26 + 2 ^ 24) ∧ Stands .k illegalPredicateOfK (0x1C * 2 ^ 26 + 2 ^ 11 + 2 * 2 ^ 7) ∧
    Stands .k illegalRdplan (0x2A * 2 ^ 26 + 2 * 2 ^ 7) := by
  refine ⟨stands_of ?_ ?_, stands_of ?_ ?_, stands_of ?_ ?_, stands_of ?_ ?_, stands_of ?_ ?_⟩
  all_goals first
    | decide +kernel
    | simp [illegalArithmeticOfK, illegalPredicateOfK, illegalRdplan, bits]
/-- fn7 10 of the y ALU subset on L, MOVI of S with a field set; VAND.f32, VMAD.f32 and VCVT 15. -/
theorem witness_FaultsOn_others :
    Stands .l illegalArithmeticOfLS (0x10 * 2 ^ 26 + 10 * 2 ^ 7) ∧ Stands .s illegalArithmeticOfLS (0x12 * 2 ^ 26 + 2 ^ 7) ∧
    Stands .c illegalVectorArithmetic (0x19 * 2 ^ 26) ∧ Stands .c illegalVectorArithmetic (0x20 * 2 ^ 26) ∧
    Stands .c illegalVectorMove (0x25 * 2 ^ 26 + 15 * 2 ^ 12) := by
  refine ⟨stands_of ?_ ?_, stands_of ?_ ?_, stands_of ?_ ?_, stands_of ?_ ?_, stands_of ?_ ?_⟩
  all_goals first
    | decide +kernel
    | simp [illegalArithmeticOfLS, illegalVectorArithmetic, illegalVectorMove, bits]

theorem witness_ArithmeticOfKWritesItsValue :
    ∃ r, arithmeticOfK (.add ⟨0, 0⟩ 0 31 31) (running .k).cx = some r ∧ (running .k).Issues .k r.h.qp r.h.tk :=
  ⟨_, rfl, witness_issues.1⟩
theorem witness_PredicatesOfKAreWritten :
    ∃ r, predicateOfK (.cmp ⟨0, 0⟩ 7 31 0 7) (running .k).cx = some r ∧ (∃ v : Bool, v = true ↔ r.value) ∧
    (running .k).Issues .k r.h.qp r.h.tk := by
  refine ⟨_, rfl, ?_, witness_issues.1⟩
  classical exact ⟨decide _, decide_eq_true_iff⟩
theorem witness_ArithmeticOfLAndSWritesItsValue :
    (∃ r, arithmeticOfLS (.yAdd ⟨0, 0⟩ 0 15 15) ((running .l).cx.rLS .l) = some r ∧ (running .l).Issues .l r.h.qp r.h.tk) ∧
    (∃ r, arithmeticOfLS (.yAdd ⟨0, 0⟩ 0 15 15) ((running .s).cx.rLS .s) = some r ∧ (running .s).Issues .s r.h.qp r.h.tk) ∧
    (true = true ↔ holdsOf 0 ((running .l).cx.rLS .l 1) ((running .l).cx.rLS .l 2)) :=
  ⟨⟨_, rfl, witness_issues.2.2.2.1⟩, ⟨_, rfl, witness_issues.2.2.2.2⟩, ⟨fun _ => rfl, fun _ => rfl⟩⟩

/-- The checks of an access pass, and its parts lie in this device's memory. -/
def checkedB (s : State) (k : Acc) (va : DWord) (n : Nat) : Bool :=
  goes (checkAccess s.agent k va n) s && (val [] (checkAccess s.agent k va n) s).all (fun g => !g.tr.spad && decide (g.tr.home = s.dev))

theorem checked_of {s : State} {k : Acc} {va : DWord} {n : Nat} (h : checkedB s k va n = true) :
    s.Checked k va n (val [] (checkAccess s.agent k va n) s) (endOf (checkAccess s.agent k va n) s) := by
  simp only [checkedB, Bool.and_eq_true, List.all_eq_true, Bool.not_eq_true', decide_eq_true_eq] at h
  exact ⟨goes_ok _ h.1, fun g hg => (h.2 g hg).1, fun g hg => (h.2 g hg).2⟩

/-- K with x1 = 0x20FF8, x2 = 8, x3 = 0x40, x4 = 128, the last granules of a page. -/
def kState : State :=
  runningWith .k (fun c => (((c.wx 1 0x20FF8).wx 2 8).wx 3 0x40).wx 4 128)
/-- The part of its accesses at x1: 8 bytes that end with the page. -/
def kSeg : Seg := ⟨0x20FF8, 8, match translate kState 1 .read 0x20FF8 with | .ok t => t | .error _ => ⟨0, 0, 0⟩⟩

theorem kState_issues : kState.Issues .k 0 0 := issues_of (by decide +kernel)
theorem kState_unplanned : kState.unplanned := by unfold State.unplanned; decide +kernel

theorem kSeg_plain (k : Acc) (h : translate kState 1 k 0x20FF8 = .ok kSeg.tr) (hw : (kState.ctxs.all (fun c => !watchHit c kState.agent k 0x20FF8 8)) = true) :
    kState.PlainAccess k kSeg.va kSeg.len kSeg.tr :=
  ⟨by decide +kernel, by decide +kernel, by decide +kernel, h, fun ht => absurd ht (by decide +kernel), fun c hc => by
    have := List.all_eq_true.mp hw c hc; rw [Bool.not_eq_true'] at this; exact this⟩

theorem kSeg_near (k : Acc) (h : cachesAway kState kState.agent kSeg.tr (kSeg.key k) = false) : kState.near k [kSeg] := by
  refine ⟨kSeg.tr.strong, fun g hg => ?_⟩
  rw [List.mem_singleton.mp hg]; exact ⟨by decide +kernel, rfl, .inr h⟩

/-- The same part on a page of kind R, and on an S page that the die could keep lines of. -/
theorem witness_near_kinds :
    let r : Seg := { kSeg with tr := { kSeg.tr with leaf := kSeg.tr.leaf ||| 0x8000000 } }
    let f : Seg := { kSeg with tr := { kSeg.tr with leaf := kSeg.tr.leaf + 2 ^ 52 } }
    r.tr.spad = false ∧ r.tr.strong = false ∧ cachesAway kState kState.agent r.tr (r.key .read) = false ∧
    f.tr.spad = false ∧ f.tr.strong = true ∧ cachesAway kState kState.agent f.tr (f.key .read) = true := by decide +kernel

theorem witness_PlainAccessesReadAndWriteMemory :
    kState.PlainAccess .read kSeg.va kSeg.len kSeg.tr ∧ kState.near .read [kSeg] ∧ kState.near .write [kSeg] ∧
    (natBytes 8 0xFFFFFFFFFFFFFFFF).length = kSeg.len ∧ 0 < kSeg.len :=
  ⟨kSeg_plain _ (by decide +kernel) (by decide +kernel), kSeg_near _ (by decide +kernel), kSeg_near _ (by decide +kernel),
    by decide +kernel, by decide +kernel⟩

theorem witness_ScalarLoadsComplete :
    ∃ segs b s1 s2, kState.Issues .k 0 0 ∧ kState.unplanned ∧ kState.cx.remote = none ∧
    (kState.started .k 0).Checked .read (kAddr kState.cx 1 0) (sizeBytes 3) segs s1 ∧ readSegs kState.agent 0 segs s1 = .ok b s2 :=
  ⟨_, _, _, _, kState_issues, kState_unplanned, by decide +kernel, checked_of (by decide +kernel), goes_ok [] (by decide +kernel)⟩

theorem witness_ScalarStoresComplete :
    ∃ segs s1 s2, kState.cx.remote = none ∧
    ((kState.started .k 0).rel 6).Checked .write (kAddr kState.cx 1 0) (sizeBytes 3) segs s1 ∧
    writeSegs kState.agent 2 .write segs (natBytes (sizeBytes 3) (kState.cx.rx 2).toNat) s1 = .ok () s2 :=
  ⟨_, _, _, by decide +kernel, checked_of (by decide +kernel), goes_ok () (by decide +kernel)⟩
theorem witness_ScalarStoresComplete_tag :
    let g : Seg := { kSeg with va := 0x20FE0, len := 32 }
    let m := pages kState.agent .write 0x20FE0 32
    m ((kState.started .k 0).rel 0) = .ok [g] (endOf m ((kState.started .k 0).rel 0)) ∧ g.tr.spad = false ∧ g.tr.home = kState.dev ∧
    0x20FE0 = kAddr kState.cx 1 7 - BitVec.ofNat 64 ((kAddr kState.cx 1 7).toNat % 32) ∧
    goes (watchCheck kState.agent .write 0x20FE0 32) (endOf m ((kState.started .k 0).rel 0)) = true :=
  ⟨goes_ok [] (by decide +kernel), by decide +kernel⟩

theorem witness_AtomicsComplete :
    let c := checkAccess kState.agent .atomic 0x20FF8 8
    (kState.cx.rx 1).toNat % sizeBytes 3 = 0 ∧ checkedB ((kState.started .k 0).rel 10) .atomic 0x20FF8 8 = true ∧
    (val [] c ((kState.started .k 0).rel 10)).length = 1 ∧
    goes (amoAt kState.agent kSeg 9 8 8 64) (endOf c ((kState.started .k 0).rel 10)) = true := by decide +kernel

theorem witness_RemoteAccessesCompleteWithTheirReply :
    let s := runningWith .k (fun c => { c with remote := some ⟨.load, [], false, true, some (0xFF, none), true⟩ })
    s.Issues .k 0 0 ∧ s.unplanned ∧ (∃ r v, s.cx.remote = some r ∧ r.replied = true ∧ r.performed = some (v, none)) ∧
    (s.cx.rx 1).toNat % sizeBytes 3 = 0 := by
  refine ⟨issues_of (by decide +kernel), by unfold State.unplanned; decide +kernel, ⟨_, _, rfl, ?_, rfl⟩, by decide +kernel⟩
  decide +kernel

theorem witness_CacheAndPinControlComplete :
    (kState.cx.rx 0).toNat = 0 ∧
    (kState.cx.rx 4).toNat ≠ 0 ∧ goes (cacheRange false (kState.cx.rx 1) 128) (kState.started .k 0) = true ∧
    (let c := cacheRange true (kState.cx.rx 1) 128
     let ps := val [] c (kState.started .k 0)
     let here := (rangeLines (kState.cx.rx 1) 128 (ps.filter (fun p => !p.2.h))).filter (fun l =>
       l * 64 / 2 ^ 48 == kState.dev && homeDie (l * 64 % 2 ^ 48) == kState.cx.core.1)
     goes c (kState.started .k 0) = true ∧ here ≠ [] ∧ here.dedup.length ≤ pinLimit) := by decide +kernel

theorem witness_SystemRegistersAreReadAndWritten :
    kState.Issues .k 0 0 ∧ (running .l).Issues .l 0 0 ∧ (running .s).Issues .s 0 0 ∧ sysWritable 0x00D = false ∧
    (sysWritable 0x00E = true ∧ sysWriteOk 0x00E 0x100000000 = false ∧ sysWriteOk 0x00E 0xFFFFFFFF = true) ∧
    (sysWritable 0x03F = true ∧ sysWriteOk 0x03F 0x0500 = true) :=
  ⟨kState_issues, witness_issues.2.2.2.1, witness_issues.2.2.2.2, by decide +kernel⟩

/-- K of logical core 0 in group 255 of cores 0 and 1. -/
def groupState (arrived : List Nat) (mine : Option (Nat × BitVec 32)) : State :=
  { kState with
    cx := { kState.cx with arrived := mine }
    launches := [{ programLaunch .k with groups := [(255, 3)], barriers := [(255, ⟨1, arrived⟩)] }] }
theorem witness_GroupsComplete :
    (groupState [] none).Issues .k 0 0 ∧ (groupState [] none).unplanned ∧
    ((groupState [] none).launch? 1).map (fun l => (l.member 255 0, (l.barrier 255).arrived.contains 0)) = some (true, false) ∧
    phaseDone 1 (((groupState [] none).cx.rx 0).setWidth 32) = true ∧
    ((groupState [1] none).launch? 1).map (fun l => (l.member 255 0, (l.barrier 255).arrived.contains 0,
      allArrived ((look l.groups 255).getD 0) ((l.barrier 255).arrived ++ [0]))) = some (true, false, true) ∧
    ((groupState [] (some (255, 0))).cx.arrived = some (255, 0) ∧ phaseDone 1 0 = true) :=
  ⟨issues_of (by decide +kernel), by unfold State.unplanned; decide +kernel, by decide +kernel⟩

/-- A packet of one free node with a K entry line, at 0x30080; its record at 0x30040; x5 holds the packet's address. -/
def packetBits : Nat :=
  0x30040 + 0x30000 * 2 ^ 128 + (2 ^ 40) * 2 ^ 192 + 1 * 2 ^ 256 + 0xFFFF * 2 ^ 272 + 1 * 2 ^ 288 + 1 * 2 ^ 296 + 1 * 2 ^ 304
def nodeBits : Nat := 0x400 * 2 ^ 150 + 127 * 2 ^ 393
def launchState : State :=
  { kState with
    cx := kState.cx.wx 5 0x30080
    mem := ((programTables []).writeN 0x30040 (natBytes 64 nodeBits)).writeN 0x30080 (natBytes 128 packetBits) }

theorem witness_LaunchAndSpawnComplete :
    let m := readMem (machineAgent 1 1) 0 0x30080 128
    let s0 := (launchState.started .k 0).released 3
    issuesB launchState .k 0 0 = true ∧ (launchState.cx.onBcast && launchState.planOpen 1) = false ∧ launchState.launches.length < 256 ∧
    launchState.cx.id.launch ≠ launchState.nextLaunch ∧ (launchState.cx.rx 5).toNat = 0x30080 ∧ 0x30080 % 128 = 0 ∧ goes m s0 = true ∧
    goes (checkPacket (leNat (val [] m s0)) (some 1)) (endOf m s0) = true := by decide +kernel
theorem witness_LaunchAndSpawnComplete_spawn :
    ∃ l n, kState.launch? kState.cx.id.launch = some l ∧ l.nodes[kState.cx.node]? = some n ∧ n.st = .running ∧ kState.cx.node ≠ l.handler :=
  ⟨_, _, rfl, rfl, by decide +kernel, by decide +kernel⟩

/-- Buffer 5 for the copy engine to read, buffer 63 for it to fill; x6 and x7 name their last 64 bytes; x8 is 64. -/
def copyState : State :=
  { kState with cx := ((((kState.cx.setBuf 5 { declared := true, cons := 2, off64 := 0, len64 := 2 }).setBuf 63
      { declared := true, prod := 2, off64 := 2, len64 := 2 }).wx 6 (0x40 * 2 ^ 32 + 5)).wx 7 (0x40 * 2 ^ 32 + 63)).wx 8 64 }
theorem witness_CopyInstructionsComplete :
    issuesB kState .k 0 0 = true ∧ kState.cx.copy.faults = [] ∧ kState.cx.copy.queue.length < 32 ∧
    copyFormOk false false false (kState.cx.rx 1) (kState.cx.rx 3) (lenOf (kState.cx.rx 4)) = true ∧
    copyFormOk true false false (kState.cx.rx 1) (kState.cx.rx 3) (lenOf (kState.cx.rx 4)) = true ∧ kState.cx.copy.isOpen = false ∧
    (kState.cx.copy.cseq - kState.cx.rx 0).toNat < 2 ^ 63 ∧ kState.cx.copy.cseq = kState.cx.copy.iseq := by decide +kernel
/-- CPY from buffer 5 to buffer 63. -/
theorem witness_CopyInstructionsComplete_buffers :
    issuesB copyState .k 0 0 = true ∧ copyState.cx.copy.faults = [] ∧
    copyFormOk false true true (copyState.cx.rx 7) (copyState.cx.rx 6) (lenOf (copyState.cx.rx 8)) = true ∧
    (copySides true true (copyState.cx.rx 7) (copyState.cx.rx 6)).all (fun e => (copyState.cx.buf (specBuf e.1)).declared &&
      decide (specOff e.1 + 64 ≤ (copyState.cx.buf (specBuf e.1)).len) &&
      (if e.2 = 1 then (copyState.cx.buf (specBuf e.1)).cons else (copyState.cx.buf (specBuf e.1)).prod) == 2) = true := by decide +kernel

/-- A descriptor of one member and one element, at 0x30100; its ring list at 0x30200; x5 is 0x30100, x6 is 4095. -/
def tileBits : Nat := 0x30400 + 0x30480 * 2 ^ 64 + 0x30500 * 2 ^ 192 + 0x30200 * 2 ^ 256 + 1 * 2 ^ 320 + 1 * 2 ^ 408
def tileState : State :=
  { kState with cx := (kState.cx.wx 5 0x30100).wx 6 4095, mem := (programTables []).writeN 0x30100 (natBytes 64 tileBits) }
def armsB (s : State) (va : DWord) (i : Nat) (go : Bool) : Bool :=
  let b := val [] (kRead va 64) s
  let d := BitVec.ofNat 512 (leNat b)
  let m := collectM (List.range (tM d)) (fun j => kRead (tRing d + BitVec.ofNat 64 (2 * j)) 2)
  let s1 := endOf (kRead va 64) s
  let ring := (val [] m s1).map leNat
  let s2 := endOf m s1
  mayArm s i s.cx.id.launch && va.toNat % 64 == 0 && tileFormOk d && ringOk s.dev d ring && !tMode d && goes (kRead va 64) s && goes m s1 &&
    goes (kWrite (tCrec d + 8) (natBytes 8 0)) (if go then s2.released 3 else s2)
theorem arms_of {s : State} {va : DWord} {i : Nat} {go : Bool} (h : armsB s va i go = true) : ∃ d ring t, s.Arms va i go d ring t := by
  simp only [armsB, Bool.and_eq_true, beq_iff_eq, Bool.not_eq_true'] at h
  obtain ⟨⟨⟨⟨⟨⟨⟨h1, h2⟩, h3⟩, h4⟩, h5⟩, h6⟩, h7⟩, h8⟩ := h
  exact ⟨_, _, _, ⟨h1, h2, h3, h4, fun hm => absurd hm (by rw [h5]; decide), _, _, _, _, goes_ok [] h6, rfl, goes_ok [] h7, rfl, goes_ok () h8⟩⟩
theorem witness_TileInstructionsComplete :
    tileState.Issues .k 0 0 ∧ tileState.unplanned ∧ tileState.cx.tileFaults = [] ∧ (tileState.cx.rx 6).toNat = 4095 ∧
    (∃ d ring t, (tileState.started .k 0).Arms 0x30100 4095 false d ring t) ∧
    (∃ d ring t, (tileState.started .k 0).Arms 0x30100 4095 true d ring t) :=
  ⟨issues_of (by decide +kernel), by unfold State.unplanned; decide +kernel, by decide +kernel, by decide +kernel,
    arms_of (by decide +kernel), arms_of (by decide +kernel)⟩
def tiledState (st : TileState) : State :=
  { tileState with table := [{ index := 4095, launch := 1, asid := 1, desc := 0, ring := [0], bound := 1, st := st }] }
theorem witness_TileInstructionsComplete_entries :
    ∀ st ∈ [TileState.armed, .done, .failed], issuesB (tiledState st) .k 0 0 = true ∧ (tiledState st).cx.tileFaults = [] ∧
    ((tiledState st).tile? 4095).map (fun e => (e.launch, e.st)) = some (1, st) := by decide +kernel

theorem witness_BoostRecordsItsClaim : kState.Issues .k 0 0 ∧ kState.unplanned := ⟨kState_issues, kState_unplanned⟩

/-- The frame that the handler holds, and a handler's context with x1 the number of its launch, x2 the address of the frame. -/
def heldOne : Frame :=
  { serial := 7, sfu := [], bst := [], tok := [], cpq := 0, epq := 0, wsq := 0, iq := 0, oq := 0, sq := [], lq := [], pstate := [], ptgt := []
    aux1 := 0, aux0 := 0, lkind := 0, lval := 0, instr := 0, va := 0, pcs := [0, 0, 0, 0x10008], launchNo := 1, node := 0, lcore := 0
    plan := false, deferred := false, srce := 3, tcode := 0, cause := 0x030 }
def handlerState (run : RunState) : State :=
  { kState with
    cx := { (kState.cx.wx 1 1).wx 2 0x30100 with id := ⟨1, Config.handlerLcore⟩, node := 1 }
    launches := [{ programLaunch .k with run := run, held := some heldOne, handler := 1 }]
    mem := (programTables []).writeN 0x30100 (natBytes 256 heldOne.bits) }
theorem witness_FreezeAndThawComplete :
    ∀ r ∈ [RunState.running, .frozen], issuesB (handlerState r) .k 0 0 = true ∧
    ((handlerState r).cx.onBcast && (handlerState r).planOpen 1) = false ∧ (handlerState r).cx.id.lcore = Config.handlerLcore ∧
    ((handlerState r).cx.rx 1).toNat = (handlerState r).cx.id.launch ∧
    ((handlerState r).launch? 1).map (fun l => (l.run, l.freezer,
      (handlerState r).atRest { l with run := .freezing, freezer := none })) = some (r, none, true) ∧ (handlerState r).cx.rx 0 = 0 := by
  decide +kernel
theorem witness_FreezeAndThawComplete_cont :
    let s := (handlerState .frozen).started .k 0
    goes (freezeContM 1) s = true ∧ (endOf (freezeContM 1) s).cx.id = s.cx.id ∧ (endOf (freezeContM 1) s).cx.tok = s.cx.tok ∧
    (endOf (freezeContM 1) s).cx.seqK = s.cx.seqK ∧ (endOf (freezeContM 1) s).cur = s.cur := by decide +kernel

theorem witness_ResumeCompletes :
    let s := (handlerState .running).started .k 0
    issuesB (handlerState .running) .k 0 0 = true ∧ goes (heldFrame 2) s = true ∧
    (match heldFrame 2 s with | .ok (l, held, f) _ => decide (l.num = 1) && decide (held = heldOne) && pcsOk f held | .error _ _ => false) = true := by
  decide +kernel

/-! ### Streams -/

/-- A stream of `n0` elements at 0x20000. -/
def strm (form n0 : DWord) (write : Bool) : Stream :=
  { f := #v[0x20000, form, n0, 1, 1, 0, 1, 0, 0, 0, 0, 8, 0], bind := some ⟨write, false, 0, false⟩ }
/-- Its binding. -/
def side (write : Bool) : Binding := ⟨write, false, 0, false⟩

theorem witness_StreamRegistersAreSetAndBound :
    ∀ q ∈ [SeqSel.l, .s], issuesB (running q) (seqOfSel q) 0 0 = true ∧ (running q).cx.streamBusy 15 = false ∧
    ((running q).cx.stream 15).bind = none ∧
    bindCause ((running q).cx.stream 15) (seqOfSel q == .s) false false ((running q).cx.buf 0).len = none ∧
    (let s := runningWith q (fun c => (c.setBuf 63 { declared := true, len64 := 1 }).setStream 15 (strm 0 4 (seqOfSel q == .s)))
     (s.cx.buf 63).declared = true ∧ (0 : DWord).toNat ≤ (s.cx.stream 15).total ∧
     bindCause ({ s.cx.stream 15 with f := (s.cx.stream 15).f.set 0 63 }) (seqOfSel q == .s) true false (s.cx.buf 63).len = none) := by
  decide +kernel

/-- Buffer 63 of L in a state. -/
def bufState (q : SeqSel) (b : Buffer) : State := runningWith q (fun c => c.setBuf 63 b)
theorem witness_BufferInstructionsComplete :
    issuesB (running .l) .l 0 0 = true ∧ ((running .l).cx.buf 63).declared = false ∧ (0xFFFF : BitVec 16).toNat + ((0 : BitVec 16).toNat + 1) ≤ 65536 ∧
    (∀ i, ((running .l).cx.buf i).declared = false) ∧ ((running .l).cx.onBcast && (running .l).planOpen 1) = false ∧
    (∀ q ∈ [SeqSel.l, .s], ∀ st ∈ [(0 : BitVec 2), 1, 2, 3], issuesB (bufState q { declared := true, st := st }) (seqOfSel q) 0 0 = true ∧
      ((bufState q { declared := true, st := st }).cx.buf 63).declared = true ∧ ((bufState q { declared := true, st := st }).cx.buf 63).st = st) ∧
    (∀ q ∈ [SeqSel.l, .s], Buffer.legal { declared := true, prod := if q = .l then 0 else 1, st := 1 } (agentNum (seqOfSel q)) 2 = true ∧
      Buffer.legal { declared := true, cons := if q = .l then 0 else 1, st := 3 } (agentNum (seqOfSel q)) 3 = true) := by decide +kernel

/-- L with a stream s2 of 4 elements of 32 bits, and an entry of iq. -/
def loadState (form n0 : DWord) : State :=
  runningWith .l (fun c => { c.setStream 2 (strm form n0 false) with iq := [0] })
theorem witness_ImageLoadsComplete :
    let s := loadState 0 4
    let m := readElems s.agent 0 2 (strm 0 4 false) (side false) ((strm 0 4 false).run 0 4)
    let xs := val [] m (s.started .l 0)
    let s1 := endOf m (s.started .l 0)
    issuesB s .l 0 0 = true ∧ s.cx.stream 2 = strm 0 4 false ∧ (strm 0 4 false).bind = some (side false) ∧ (s1.cx.lqAt 0).length < 2 ∧
    (strm 0 4 false).fmt ≤ 7 ∧ (strm 0 4 false).pos < (strm 0 4 false).total ∧ goes m (s.started .l 0) = true ∧
    goes (lastRead 1 (side false)) ((s1.gives 0 (elemImage s.cx (strm 0 4 false) xs)).atPos 2 4) = true := by decide +kernel
theorem witness_ImageLoadsComplete_gather :
    let s := loadState 0 1
    let t := strm 0 1 false
    (∀ c, c < 64 → indexAt 0 c < t.n1) ∧ t.fmt ≤ 7 ∧ t.raw = false ∧ s.cx.iq = [0] ∧
    goes (readElems s.agent 0 2 t (side false) ((gatherRun t 0).map (·.2))) (s.started .l 0) = true := by decide +kernel

/-- A tile that core 0 has cached for the stream. -/
def tileOfState : State :=
  let s := loadState 6 1
  { s with tiles := [⟨s.cx.core, tileKey s.cx (strm 6 1 false) (side false), buildTile s.cx (strm 6 1 false) []⟩] }
theorem witness_WeightLoadsComplete :
    let t := strm 6 1 false
    let s := loadState 6 1
    let m := readElems s.agent 0 2 t (side false) (t.run 0 1)
    issuesB s .l 0 0 = true ∧ s.cx.stream 2 = t ∧ t.bind = some (side false) ∧ s.cx.onBcast = false ∧ t.fmt = 6 ∧ t.n0 ≤ 1024 ∧ t.n1 ≤ 8 ∧
    t.pos < t.total ∧ t.pos % (t.n0 * t.n1) = 0 ∧ s.cx.slot 3 = none ∧ goes m (s.started .l 0) = true ∧
    (s.tiles.find? (fun e => e.core == s.cx.core && e.key == tileKey s.cx t (side false))).isNone = true ∧
    (tileOfState.tiles.find? (fun e => e.core == tileOfState.cx.core && e.key == tileKey tileOfState.cx t (side false))).isSome = true ∧
    (s.cx.onBcast && s.planOpen 1) = false := by decide +kernel

/-- Buffer 63 of 64 bytes that L fills, y3 the count. -/
def fillState (form n0 count : DWord) (mem : Memory) : State :=
  { runningWith .l (fun c => ((c.setStream 2 (strm form n0 false)).setBuf 63 { declared := true, prod := 0, len64 := 1 }).wy 3 count) with mem := mem }
/-- LDB of a count that passes its checks. -/
def ldbGoes (count : DWord) : Bool :=
  let s := fillState 0 4 count (programTables [])
  let t := strm 0 4 false
  let cnt := (s.cx.ry 3).toNat
  let m := storedBytes s.agent 2 t (side false) cnt
  let s1 := endOf m (s.started .l 0)
  let s2 := endOf (fillBuffer 63 (val [] m (s.started .l 0))) s1
  issuesB s .l 0 0 && !(s.cx.onBcast && s.planOpen 1) && s.cx.stream 2 == t && cnt * t.width % 8 == 0 && t.fmt == 0 &&
    decide (t.pos < t.total) && decide (cnt ≤ t.total - t.pos) && (s.cx.buf 63).declared && (s.cx.buf 63).prod == 0 &&
    (s.cx.buf 63).legal 0 0 && decide ((s.cx.buf 63).writeFp + cnt * t.width / 8 ≤ (s.cx.buf 63).len) && goes m (s.started .l 0) &&
    goes (fillBuffer 63 (val [] m (s.started .l 0))) s1 && goes (bufAccess s.cx.id 63 0 2) (if cnt = 0 then s else s2)
theorem witness_BufferLoadsComplete : ldbGoes 4 = true := by decide +kernel

/-- A chunk of one stored word at 0x20000. -/
def chunkBytes : List Byte := natBytes 16 (4 + 4 * 2 ^ 32 + (rwsOf 0xFFFFFFFF (natBytes 4 0x01020304)).toNat * 2 ^ 96) ++ natBytes 4 0x01020304
def zState : State := fillState 10 32 4 ((programTables []).writeN 0x20000 chunkBytes)
theorem witness_BufferLoadsComplete_chunks :
    let s := zState.started .l 0
    issuesB zState .l 0 0 = true ∧ zState.cx.stream 2 = strm 10 32 false ∧ chunksDone zState = 0 ∧ goes (ldzStart 63 2 3) s = true ∧
    (zState.cx.ry 3).toNat / 4 = 1 ∧ goes (ldzLoop 63 2 3 1 0) (endOf (ldzStart 63 2 3) s) = true ∧
    goes (bufAccess zState.cx.id 63 0 2) (endOf (ldzLoop 63 2 3 1 0) (endOf (ldzStart 63 2 3) s)) = true ∧
    goes (decodeChunk zState.agent 2 (strm 10 32 false) (side false) 0 0) zState = true ∧
    (val ([], 0) (decodeChunk zState.agent 2 (strm 10 32 false) (side false) 0 0) zState).1 = natBytes 4 0x01020304 := by decide +kernel

/-- S with a stream s3 of 4 elements, an image in sq1, and z2 = 32, z1 = 0x20000. -/
def storeState (form : DWord) (mem : Memory) : State :=
  { runningWith .s (fun c => (((c.setStream 3 (strm form 4 true)).setSq 1 [0]).wz 1 0x20000).wz 2 32) with mem := mem }
def storeItems (form : DWord) : List Item := elemItems (strm form 4 true) (side true) (narrowImage (strm form 4 true) 0 4) []
theorem witness_StreamStoresComplete :
    let s := storeState 0 (programTables [])
    let t := strm 0 4 true
    let u := s.started .s 0
    let m := itemsCheck s.agent 1 3 t (side true) t.acc (storeItems 0)
    let ws := val [] m u
    issuesB s .s 0 0 = true ∧ (s.cx.onBcast && s.planOpen 1) = false ∧ s.cx.stream 3 = t ∧ t.bind = some (side true) ∧ t.pos < t.total ∧
    t.fmt = 0 ∧ (s.cx.sqAt 1).head? = some 0 ∧ (storeItems 0).length = 4 ∧ goes m u = true ∧
    goes (performItems s.agent 1 t (side true) t.acc true ws ws) (endOf m u) = true := by decide +kernel

theorem witness_BufferLoadsComplete_none :
    let s := fillState 0 4 0 (programTables [])
    issuesB s .l 0 0 = true ∧ (s.cx.ry 3).toNat = 0 ∧ (s.cx.buf 63).declared = true ∧ (s.cx.buf 63).prod = 0 := by decide +kernel

/-- QST of a block of 256 elements, and STB of a buffer that S reads. -/
theorem witness_StreamStoresComplete_others :
    (let t : Stream := { f := #v[0x20000, 8, 256, 1, 1, 0, 1, 0, 0, 0x21000, 0, 8, 0], bind := some (side true) }
     t.fmt = 8 ∧ t.pos < t.total ∧ t.pos % 256 = 0 ∧ min 1024 (t.total - t.pos) = 256 ∧
     (quantise (List.replicate 256 0x3F800000) t.taben 0).isSome = true) ∧
    (let s := runningWith .s (fun c => c.setBuf 63 { declared := true, cons := 1, st := 2, len64 := 1, fp := 4 })
     goes (bufAccess s.cx.id 63 1 1) (s.started .s 0) = true ∧ (s.cx.buf 63).fp * 8 % (strm 0 4 true).width = 0 ∧
     (s.cx.buf 63).fp * 8 / (strm 0 4 true).width ≤ (strm 0 4 true).total - (strm 0 4 true).pos) := by decide +kernel

theorem witness_StoreAtomicsComplete :
    let s := storeState 0 (programTables [])
    let t := strm 0 4 true
    let m := itemsCheck s.agent 1 3 t (side true) .atomic (t.byLane (storeItems 0))
    let u := endOf m (s.started .s 0)
    issuesB s .s 0 0 = true ∧ t.raw = false ∧ t.shd = false ∧ min 1024 (t.total - t.pos) = 4 ∧ (t.fmt = 3 ∨ t.fmt = 0) ∧
    (s.cx.sqAt 1).head? = some 0 ∧ goes m (s.started .s 0) = true ∧
    goes (eachM (List.zip (val [] m (s.started .s 0)) ((lanesOf 0).take 4)) (fun p => atomItem s.agent (side true) 0 p.2 p.1)) (u.rel 9) = true := by
  decide +kernel
theorem witness_StoreAtomicsComplete_amos :
    let s := storeState 0 (programTables [])
    let m := checkAccess s.agent .atomic 0x20000 4
    let u := (s.started .s 0).rel 9
    s.cx.rz 1 = 0x20000 ∧ (s.cx.rz 1).toNat % 4 = 0 ∧ goes m u = true ∧ (val [] m u).length = 1 ∧
    (val [] m u).all (fun g => !g.tr.spad && decide (g.tr.home = s.dev) && goes (amoAt s.agent g 1 4 0 0) (endOf m u)) = true := by decide +kernel

/-- A page at 0x40000000 with a shadow page beside it (04 R123). -/
def shadowMem : Memory :=
  (((programTables []).writeN 0x40004010 (natBytes 16 (0x40006 * 2 ^ 28 + 1))).writeN 0x40006000 (natBytes 16 (0x40008 * 2 ^ 28 + 1))).writeN
    0x40008000 (natBytes 16 (0x50001 * 2 ^ 78 + 0x50000 * 2 ^ 28 + 2 ^ 22 + 0xC00 + 3))
def shadowState : State := let s := storeState 0 shadowMem; { s with cx := s.cx.wz 1 0x40000FE0 }
theorem witness_ShadowInstructionsComplete :
    issuesB shadowState .s 0 0 = true ∧ (shadowState.cx.onBcast && shadowState.planOpen 1) = false ∧ shadowState.cx.rz 0 = 0 ∧
    shadowState.cx.rz 1 = 0x40000FE0 ∧ shadowState.cx.rz 2 = 32 ∧ goes (shadowRange 0x40000FE0 32) shadowState = true ∧
    (val [] (shadowRange 0x40000FE0 32) shadowState).length = 1 ∧ endOf (shadowRange 0x40000FE0 32) shadowState = shadowState ∧
    drainPending shadowState.cx 3 (drainUpTo shadowState) = false := by decide +kernel

/-! ### C and the bank -/

/-- A row of a family that issues as a bundle of its own. -/
def rowIssues (s : State) (r : Option BundleRow) : Bool :=
  match r with
  | none => false
  | some r => issuesCB s r.truth r.tk r.srcs
theorem rowIssues_of {s : State} {r : Option BundleRow} (h : rowIssues s r = true) : ∃ x, r = some x ∧ s.IssuesC x.truth x.tk x.srcs := by
  unfold rowIssues at h
  cases r with
  | none => cases h
  | some x => exact ⟨x, rfl, issuesC_of h⟩

/-- C with an image in lq1. -/
def cState : State := runningWith .c (fun c => (c.setLq 1 [0]).wa 1 32)
theorem witness_VectorArithmeticWritesTrueLanes :
    ∃ r, vectorArithmetic (.vadd ⟨1, 0⟩ 15 17 0 0 0) cState.cx = some r ∧ cState.IssuesC r.truth r.tk r.srcs :=
  rowIssues_of (by decide +kernel)
theorem witness_FalsePredicatesOnlyMoveOn_onC :
    ∃ r, vectorArithmetic (.vadd ⟨1, 0⟩ 15 17 0 63 0) cState.cx = some r ∧ cState.cur = .c ∧ cState.bun = none ∧ r.truth cState.cx = false :=
  ⟨_, rfl, rfl, rfl, by decide +kernel⟩
theorem witness_VectorArithmeticWritesTrueLanes_logic :
    ∃ r, vectorLogic (.vsra ⟨1, 0⟩ 15 17 0 0 3) cState.cx = some r ∧ cState.IssuesC r.truth r.tk r.srcs :=
  rowIssues_of (by decide +kernel)
theorem witness_VectorMovesAndReductionsComplete :
    (∃ r, vectorMove (.vcvt ⟨1, 0⟩ 15 17 14 0) cState.cx = some r ∧ cState.IssuesC r.truth r.tk r.srcs) ∧
    (∃ r, vectorAxis (.vredr ⟨1, 0⟩ 15 17 2 0 3) cState.cx = some r ∧ cState.IssuesC r.truth r.tk r.srcs) :=
  by constructor <;> exact rowIssues_of (by decide +kernel)
theorem witness_PredicatesTilesAndAddressesComplete :
    (∃ r, vectorQueued (.qpush ⟨1, 0⟩ 4 17 0) cState.cx = some r ∧ cState.IssuesC r.truth r.tk r.srcs) ∧
    (∃ r, vectorQueued (.vexp2 ⟨1, 0⟩ 15 17 0 0) cState.cx = some r ∧ cState.IssuesC r.truth r.tk r.srcs) ∧
    (∃ r, lanePredicates (.pand ⟨1, 0⟩ 63 63 0) cState.cx = some r ∧ cState.IssuesC r.truth r.tk r.srcs) ∧
    (∃ r, tilesAndAddresses (.aaddi ⟨1, 0⟩ 15 1 0x3FFF) cState.cx = some r ∧ cState.IssuesC r.truth r.tk r.srcs) :=
  by refine ⟨?_, ?_, ?_, ?_⟩ <;> exact rowIssues_of (by decide +kernel)
theorem witness_BankRegistersComplete :
    (∃ r, bankRegisters (.waccRd ⟨0, 1, 0⟩ 15 15) cState.cx = some r ∧ cState.IssuesC r.truth r.tk r.srcs) ∧
    (∃ r, bankRegisters (.waccClr ⟨0, 1, 0⟩ 15) cState.cx = some r ∧ cState.IssuesC r.truth r.tk r.srcs) :=
  by constructor <;> exact rowIssues_of (by decide +kernel)

/-- C in a plan whose base is 4096, with K offset 1,023 in a15. -/
def winState : State := runningWith .c (fun c => { c.wa 15 1023 with pbase := 4096 })
theorem witness_WindowsAndEpiloguesAreAccepted :
    winState.IssuesC (fun c => c.seqC.rq 0) 0 [] ∧ winState.IssuesC (fun _ => true) 0 [] ∧ winState.cx.onBcast = false ∧ winState.cx.deferred = [] ∧
    (winState.cx.wins.filter (fun w => !w.flags.abort)).length < windowLimit ∧ (winState.cx.ra 15).toNat < 1024 ∧
    goes (epiStreams (winState.cx.wep.get 0)) winState = true ∧ endOf (epiStreams (winState.cx.wep.get 0)) winState = winState ∧
    winState.cx.pbase ≠ 0 ∧ pastPlan 4096 (shapeSpan (winState.cx.wsh.get 0)) = false ∧ winState.clock + winState.lead ≤ 8192 ∧
    touchesCalibration 8192 (shapeSpan (winState.cx.wsh.get 0)) = false ∧ (winState.windowsOn winState.cx.core).length = 0 ∧
    winState.cx.accFree 15 = true ∧ winState.cx.epi.length < 4 :=
  ⟨issuesC_of (by decide +kernel), issuesC_of (by decide +kernel), by decide +kernel⟩

/-- A page of the broadcast core's frame at 0x40000000. -/
def frameMem : Memory :=
  (((programTables []).writeN 0x40004010 (natBytes 16 (0x40006 * 2 ^ 28 + 1))).writeN 0x40006000 (natBytes 16 (0x40008 * 2 ^ 28 + 1))).writeN
    0x40008000 (natBytes 16 (64 * 2 ^ 39 + 2 ^ 9 + 0xC00 + 3))
/-- The broadcast core in an open plan, its stream s0 of 4 elements of FP8 in its frame. -/
def rowStream : Stream := { strm 6 4 false with f := (strm 6 4 false).f.set 0 0x40000000 }
def bcastState : State :=
  let s := runningWith .b (fun c => { c.setStream 0 rowStream with pbase := 4096 })
  { s with mem := frameMem, plan := some { launch := 1, snapshot := programCtx .b, waves := [[0]], base := 4096, phase := .running } }
theorem witness_BroadcastsAreAccepted :
    let s := bcastState
    let t := rowStream
    let m := collectM (bcastRun t 0 4) (fun row => readElems s.agent 0 0 t (side false) row)
    let b : Bcast := { base := 4096, b0 := 8192, n := 4, t := 1, wp := false, rows := [], ea := [], pa := 0 }
    issuesCB s (fun c => c.seqC.rq 0) 0 [] = true ∧ s.cx.onBcast = true ∧ s.cx.stream 0 = t ∧ t.bind = some (side false) ∧
    s.bcastRoom s.cx = true ∧ s.planOpen s.cx.id.launch = true ∧ s.baseBefore = 4096 ∧
    pastPlan 8192 b.span = false ∧ 6 ≤ t.fmt ∧ t.raw = false ∧ t.n1 ≤ 32 ∧
    (bcastRun t 0 4).all (fun row => row.all (fun p => elemOwn s t false p.2)) = true ∧ 0 + 4 ≤ t.n0 ∧ t.pos + t.n1 * t.n0 ≤ t.total ∧
    goes m (s.opened 0 2) = true ∧ s.clock + s.bcastLead ≤ b.stamp ∧ touchesCalibration b.stamp b.span = false ∧ s.light.length = 0 := by
  decide +kernel
theorem witness_PlansAndPortsComplete :
    bcastState.IssuesC (fun c => c.seqC.rq 0) 0 [] ∧ bcastState.cx.onBcast = true ∧
    ({ bcastState with plan := bcastState.plan.map (fun p => { p with phase := .published }) } : State).plan.map (fun p => (p.launch, p.phase)) =
      some (1, .published) ∧ (running .b).unplanned ∧ ((running .b).cx.ra 15).toNat < 16 ∧
    (runningWith .b (fun c => { c with planeDone := true })).cx.planeDone = true :=
  ⟨issuesC_of (by decide +kernel), by decide +kernel, by decide +kernel, by unfold State.unplanned; decide +kernel, by decide +kernel⟩

/-! ### Events -/

/-- K with a remote access of 8 bytes at 0x20000, its tag checked or not. -/
def remoteState (tce parks : Bool) (done : Option (Nat × Option Trap)) (st : Status) : State :=
  runningWith .k (fun c => { c with
    status := st, remote := some ⟨.load, [⟨0x0100000000020000, 0x20000, 8, tce, 0x40004000⟩], parks, true, done, false⟩ })
theorem witness_RemoteRequestsArePerformedAndAnswered :
    ((remoteState true false none .running).ctx? ⟨1, 0⟩).isSome = true ∧
    (((remoteState true false none .running).cx.remote.map (·.parts)).getD []).any (fun p =>
      (partTrap (remoteState true false none .running) p).isSome) = true ∧
    (((remoteState false false none .running).cx.remote.map (·.parts)).getD []).all (fun p =>
      (partTrap (remoteState false false none .running) p).isNone) = true ∧
    (remoteState false false (some (0, none)) .running).cx.remote.map (fun r => (r.performed.isSome, r.parks)) = some (true, false) ∧
    (remoteState false true (some (0, none)) .parked).cx.remote.map (fun r => (r.performed.isSome, r.parks)) = some (true, true) ∧
    (remoteState false true (some (0, none)) .parked).cx.status = .parked ∧
    arrivalOk kState 0x20000 8 false 0 = true ∧ (amoNew 9 8 0 0 5).isSome = true := by decide +kernel

/-- A copy of 64 bytes from 0x20000 to 0x21000, or of none. -/
def aCopy (len : Nat) (started : Option Nat) : CopyCmd :=
  { ticket := 1, words := 0, chained := false, first := false, last := false, scope := 0, expect := 0, sbuf := false, dbuf := false, done := false
    dst := 0x21000, src := 0x20000, len := len, bound := 1, started := started }
def copyingState (k : CopyCmd) (failed : Bool) : State :=
  { runningWith .k (fun c => { c with copy := { c.copy with queue := [k], failed := failed, waited := 2, limit := some 1 } }) with clock := 100 }
def copyStarts (k : CopyCmd) : Bool :=
  let s := copyingState k false
  s.cx.placed && copyMayStart s.cx k && s.cx.copy.cmd? 1 == some k && goes (do copyChecks k; copyOpens k : M Unit) s
def copyEnds (k : CopyCmd) : Bool :=
  let s := copyingState k false
  let w := settleWrites (endOf (copyWrite k (val [] (copyRead k k.len) s)) (endOf (copyRead k k.len) s))
  k.started.isSome && !k.finished && goes (copyRead k k.len) s && goes (copyWrite k (val [] (copyRead k k.len) s)) (endOf (copyRead k k.len) s) &&
    (if k.chained then goes (chainEnd k) w else goes (copyDone k) w)
theorem witness_CopyCommandsAndChunksProceed :
    copyStarts (aCopy 64 none) = true ∧ copyEnds (aCopy 64 (some 0)) = true ∧ copyEnds { aCopy 64 (some 0) with chained := true } = true ∧
    (let k := { aCopy 64 none with chained := true }
     copyMayStart (copyingState k true).cx k = true ∧ (copyingState k true).cx.placed = true ∧ (copyingState k true).cx.copy.failed = true) ∧
    (copyingState (aCopy 0 none) false).cx.copy.cmd? 1 = some (aCopy 0 none) := by decide +kernel
theorem witness_CopyCommandsAndChunksProceed_bound :
    let k := aCopy 64 (some 0)
    let s := copyingState k false
    s.cx.copy.overrun = true ∧ s.cx.copy.queue = [k] ∧ goes (copyRead k 63) s = true ∧
    goes (copyWrite k (val [] (copyRead k 63) s)) (endOf (copyRead k 63) s) = true := by decide +kernel
/-- L at `ldz.last buf63, s2, y3`, its line at hand. -/
def ldzState : State :=
  { zState with cx := zState.cx.updSeq .l (fun st => { st with line := some ⟨0x10000, BitVec.ofNat 512 (0x67F23080 * 2 ^ 32)⟩ }), cur := .l }
theorem witness_CopyCommandsAndChunksProceed_chunk :
    ldzState.mayIssue = true ∧ ldzAt ldzState.cx = some (63, 2, 3) ∧ ldzState.cx.ry 3 ≠ 0 ∧
    goes (do if chunksDone ldzState = 0 then ldzStart 63 2 3 else pure (); ldzChunk 63 2 3 (chunksDone ldzState) : M Unit) ldzState = true := by
  decide +kernel

/-- Shadow writes that wait on the page of `shadowMem`, in a shadow state. -/
def waitingState (shst : Nat) : State :=
  { kState with mem := setShadowState shadowMem 0x40008000 shst false, firstWrites := [⟨0x40008000, 0xFF8, natBytes 8 1, 0xFF, 1⟩] }
theorem witness_MemoryEventsComplete :
    (⟨0x40008000, readEntry (waitingState 1).mem 0x40008000, 4⟩ : Tr).shst = 1 ∧
    (⟨0x40008000, readEntry (waitingState 2).mem 0x40008000, 4⟩ : Tr).shst ≠ 1 ∧
    (pageAt kState 1 0).isSome = true ∧ (pageAt kState 1 0).all (fun p => !pageInUse kState 1 p && mayMigrate kState p 0x40000) = true ∧
    paOk 0x7FFFFFFFF8 = false ∧ paOk 0 = true ∧ paOk (0 + 8) = true := by decide +kernel

/-- A window of shape 0 at stamp 8,192 in the bank of core 0, and the broadcast row that lights it. -/
def aWindow (staged : Option Staged) : Window :=
  { serial := 0, addr := 0, base := 4096, b0 := 4096, ws := 0, acc := 15, kofs := 0, shape := 0, epi := 0, pol := 0, first := true, last := true
    rel := true, staged := staged }
def aRow : Bcast := { base := 4096, b0 := 4096, n := 1, t := 1, pa := 0, wp := false, rows := [], ea := [], side := true, lit := 1 }
def windowState (w : Window) (clock : Nat) (light : List Bcast) : State :=
  { runningWith .c (fun c => { c with wins := [w] }) with clock := clock, light := light }
def anEpi (epi : DWord) (shaped : Bool) (waited : Nat) : EpiTile :=
  { win := none, step := 0, addr := 0, b0 := 0, acc := 0, ws := 0, epi := epi, bound := 3, waited := waited, limit := some 3, shaped := shaped
    x := List.replicate 256 0, base := 4096 }
def epiState (e : EpiTile) (oq : List Image) : State := runningWith .c (fun c => { c with epi := [e], oq := oq })
theorem witness_WindowsAndTilesProceed :
    let w := aWindow none
    let g : Staged := ⟨false, 0, [], []⟩
    (windowState w 8160 []).cx.win? 0 = some w ∧ w.flags.abort = false ∧ w.stagingDone = false ∧ w.stamp ≤ 8160 + 32 ∧
    w.passes < w.p ∧ w.stamp + w.passes * w.u + w.t + 8 ≤ 8192 + w.t + 8 ∧
    (([] : List Bcast).find? (fun b => b.lights w w.passes)).isNone = true ∧
    ([aRow].find? (fun b => b.lights (aWindow (some g)) 0)) = some aRow ∧ (aWindow (some g)).staged = some g ∧ (aWindow (some g)).weighted 0 = true ∧
    (aWindow (some g)).d = none ∧ w.lightEnd + 24 ≤ 8192 + 64 := by decide +kernel
theorem witness_WindowsAndTilesProceed_tiles :
    let e0 := anEpi 0 false 0
    let e1 := anEpi 0 true 0
    let e2 := anEpi 0 true 4
    (epiState e0 []).isActive (epiState e0 []).cx = true ∧ (epiState e0 []).freezing ⟨1, 0⟩ = false ∧ e0.shaped = false ∧ epiBen e0.epi = false ∧
    e1.shaped = true ∧ epiOut e1.epi = false ∧ (epiState e1 []).cx.oq.length < 4 ∧
    (epiState e2 [0, 0, 0, 0]).tileOverdue (epiState e2 [0, 0, 0, 0]).cx = some e2 := by decide +kernel
/-- A tile that goes to stream s5, bound to a buffer, and one that takes its bias from stream s6. -/
def outState : State :=
  runningWith .c (fun c => { (c.setBuf 0 { declared := true, prod := 1, len64 := 16 }).setStream 5
      { strm 0 256 true with f := (strm 0 256 true).f.set 0 0, bind := some ⟨true, true, 0, true⟩ } with
    epi := [anEpi (2 ^ 31 + 5 * 2 ^ 27) true 0] })
def biasState : State :=
  runningWith .c (fun c => { c.setStream 6 (strm 0 8 false) with epi := [anEpi (2 ^ 26 + 6 * 2 ^ 22) false 0] })
theorem witness_WindowsAndTilesProceed_bias :
    epiBen (2 ^ 26 + 6 * 2 ^ 22) = true ∧ goes (readBias (anEpi (2 ^ 26 + 6 * 2 ^ 22) false 0) (epiBs (2 ^ 26 + 6 * 2 ^ 22))) biasState = true := by decide +kernel
theorem witness_WindowsAndTilesProceed_out :
    epiOut (2 ^ 31 + 5 * 2 ^ 27) = true ∧
    goes (writeTile (anEpi (2 ^ 31 + 5 * 2 ^ 27) true 0)) outState = true := by decide +kernel

/-- A plan of one wave of core 0, in a phase, at base 4,096. -/
def planState (phase : PlanPhase) (waves : List (List Nat)) (clock : Nat) : State :=
  { running .k with
    clock := clock
    plan := some { launch := 1, snapshot := programCtx .b, waves := waves, base := 4096, phase := phase, lastStep := 5000 } }
theorem witness_BroadcastEventsComplete :
    (planState .opening [[0]] 0).plan.map (·.phase) = some .opening ∧ ((planState .opening [[0]] 0).launch? 1).map (·.run) = some .running ∧
    (planState .opening [[0]] 0).activeMember 1 0 = true ∧
    ((planState .closing [[0], [1]] 5000).plan.map (fun p => (decide (p.lastStep ≤ 5000), decide (p.wave + 1 < p.waves.length)))) = some (true, true) ∧
    ((planState .closing [[0]] 5000).plan.map (fun p => (decide (p.lastStep ≤ 5000), decide (p.waves.length ≤ p.wave + 1)))) = some (true, true) ∧
    ((planState .running [[0]] (2 ^ 20 + 8192)).plan.map (fun p => (p.phase.isOpen, decide (p.base + 2 ^ 20 + 4096 ≤ 2 ^ 20 + 8192)))) =
      some (true, true) ∧
    (planState (.aborting 5000) [[0]] 5000).plan.map (·.phase) = some (.aborting 5000) ∧
    look ({ running .k with peers := [(3, 1)] } : State).peers 3 = some 1 := by decide +kernel

/-- An armed or fired entry of one member, its flag word 1 or 2. -/
def flagged (st : TileState) (flag : Nat) : State :=
  { tileState with
    clock := 16, mem := (programTables []).writeN 0x30300 (natBytes 8 flag)
    table := [{ index := 4095, launch := 1, asid := 1, desc := BitVec.ofNat 512 (tileBits + 0x30300 * 2 ^ 128), ring := [0], bound := 1, st := st }] }
/-- A fired entry with a peer, device 1. -/
def peered : TileEntry := { index := 4095, launch := 1, asid := 1, desc := 0, ring := [0, 1], bound := 1, st := .fired }
theorem witness_CollectivesComplete :
    ((flagged .armed 1).tile? 4095).map (fun e => (e.st, flagValue (flagged .armed 1) e % 256)) = some (.armed, 1) ∧
    ((flagged .armed 2).tile? 4095).map (fun e => (e.st, flagValue (flagged .armed 2) e % 256)) = some (.armed, 2) ∧
    ((flagged .fired 0).tile? 4095).map (fun e => (e.st, peersComplete e 0 [], goes (readTile e) (flagged .fired 0),
      peersAgree e (membersOf e 0 (val [] (readTile e) (flagged .fired 0)) []) [],
      (inOrder e (membersOf e 0 (val [] (readTile e) (flagged .fired 0)) []) []).isSome)) = some (.fired, true, true, true, true) ∧
    ((flagged .fired 0).tile? 4095).map (fun e => decide (e.fired + 8 * (e.bound + 1) ≤ 16)) = some true ∧
    peered.ring.contains 1 = true ∧ peered.st = .fired := by decide +kernel

/-- A node in the pool, and contexts in both banks of core 0. -/
def pooledState : State :=
  { running .k with
    cx := { programCtx .k with place := .unplaced, status := .idle }, clock := 100
    launches := [{ programLaunch .k with nodes := [{ record := BitVec.ofNat 512 nodeBits, deadline := 50, st := .pooled }] }] }
def banksState (a : Status) (sooner : Bool) : State :=
  { running .k with
    cx := { programCtx .k with status := a }
    others := [{ programCtx .k with id := ⟨1, 1⟩, node := 1, place := .bank 0 0 1 }]
    launches := [{ programLaunch .k with lcores := 2, grant := 2, nodes :=
      [{ record := 0, deadline := 100, st := .running, lcore := 0 }, { record := 0, deadline := if sooner then 50 else 200, st := .running, lcore := 1 }] }] }
theorem witness_NodesAndBanksProceed :
    (handlerReady { handlerState .running with
      cx := { (handlerState .running).cx with status := .idle, place := .unplaced }
      launches := [{ programLaunch .k with frames := [(0, heldOne)] }] }).isSome = true ∧
    (handlerReady pooledState).isNone = true ∧
    (nextDispatch pooledState).any (fun d => (pooledState.launch? d.launch).any (fun l => (l.nodes[d.node]?).isSome)) = true ∧
    (let s := runningWith .k (fun c => c.updSeq .k (fun st => { st with halted := true }))
     s.cx.status = .running ∧ s.cx.nodeOver = true ∧ s.firstWrites = [] ∧ (s.launch? 1).map (fun l => (l.run, (l.nodes[s.cx.node]?).isSome)) =
       some (.running, true)) ∧
    (lateNode pooledState).any (fun p => !p.2.1.abl) = true ∧
    (∀ a ∈ [Status.idle, .parked, .yielded, .stopped], ((banksState a false).shadowOf (0, 0)).any (fun c => c.status == .running) = true ∧
      ((banksState a false).inBank (0, 0) ((banksState a false).activeBank (0, 0))).any (fun c => c.status == a && !(banksState a false).inPlan c) = true) ∧
    ((banksState .running true).shadowOf (0, 0)).any (fun c => ((banksState .running true).inBank (0, 0) 0).any (fun a =>
      Key.lt ((banksState .running true).keyOf c) ((banksState .running true).keyOf a))) = true ∧
    (banksState .idle false).spillable (banksState .idle false).cx = true := by decide +kernel
theorem witness_NodesAndBanksProceed_places :
    (let s := { runningWith .k (fun c => c.updSeq .k (fun st => { st with awaiting := some (.group 0 5), waited := 2 ^ 40 })) with
                launches := [programLaunch .k] }
     s.yieldDue s.cx = true) ∧
    (let s := runningWith .k (fun c => { c with place := .spilled 0 })
     (s.launch? 1).map (fun l => (l.run, s.mayHold l 0 ⟨1, 0⟩ (15, 3))) = some (.running, true) ∧ s.working (15, 3) = true ∧
     s.cx.onBcast = false ∧ (s.inBank (15, 3) 1).isNone = true) ∧
    (let s := handlerState .running
     s.cx.id.lcore = Config.handlerLcore) := by decide +kernel

def framedSlot (cause : Nat) : MailSlot := mailSlot kState.cx { heldOne with cause := cause }
def framed (cause : Nat) : State := { kState with slots := [framedSlot cause] }
theorem witness_FramesAndWatchesProceed :
    (let s := runningWith .k (fun c => { c with status := .stopped, frameOut := some heldOne })
     s.cx.frameOut = some heldOne ∧ s.frozen ⟨1, 0⟩ = false ∧ s.cx.draining = false ∧ s.slotTaken s.cx.place = false) ∧
    (∀ p ∈ [(0x030, Route.handler), (0x081, .firmwareFirst), (0x318, .firmware), (0x385, .deviceFatal)],
      (framed p.1).slots.find? (fun e => e.ctx == ⟨1, 0⟩ && !e.routed) = some (framedSlot p.1) ∧ routeOf p.1 = p.2) ∧
    (let s : State := { kState with hits := [⟨⟨1, 0⟩, 0, 0, 0⟩] }
     (s.hits.find? s.hitDue).map (·.ctx) = some ⟨1, 0⟩ ∧ s.cx.status ≠ .idle) ∧
    (let s := runningWith .k (fun c => c.updSeq .k (fun st => { st with awaiting := some (.token 11 1), waited := 2 ^ 40 }))
     s.cx.status = .running ∧ s.counts s.cx = true ∧ (s.cx.seq .k).halted = false ∧ (Await.token 11 1).bounded .k = true ∧
     (s.cx.seq .k).boundOf (.token 11 1) < (s.cx.seq .k).waited ∧ s.arrived s.cx .k (.token 11 1) = false) ∧
    (planState .running [[0]] 0).inPlan (planState .running [[0]] 0).cx = true ∧ (planState .running [[0]] 0).exporter = none ∧
    (banksState .running false).inPlan (banksState .running false).cx = false ∧
    ((banksState .running false).shadowOf (0, 0)).any (fun y => y.status == .running) = true := by decide +kernel

theorem witness_ErrorsAndSparesProceed :
    (let s := { kState with spareCores := [(1, 4)] }
     s.working (15, 4) = true ∧ ∀ c ∈ s.spareCores, c.1 ≠ 15) ∧
    (look kState.lanesFailed 7).getD 0 ≠ 1 ∧ look ({ kState with lanesFailed := [(7, 1)] } : State).lanesFailed 7 = some 1 ∧
    4092 ≤ ({ kState with clock := 4092 } : State).clock % 4096 ∧ kState.drifted.contains (15, 4) = false ∧ kState.skewed.contains (15, 4) = false ∧
    kState.columnsUsed.contains (0, 0) = false ∧ kState.spareLaser = true ∧ kState.working (0, 0) = true ∧
    kState.spareCores.find? (fun c => c.1 == 0) = some (0, 4) ∧
    kState.ctxs.all (fun c => !kState.inPlan c && c.wins.isEmpty && !c.copying) = true := by decide +kernel

theorem witness_PowerEventsComplete :
    64000 * (State.reset.intervals + 1) ≤ ({ State.reset with clock := 64000 } : State).clock ∧ State.reset.clock < 64000 * (State.reset.intervals + 1) ∧
    24 ∈ [12, 14, 16, 18, 20, 22, 24] := by decide +kernel

/-- A host's submission of the packet of `launchState`, or of zeros; a command in mailbox slot 15. -/
def hostState (packet : Nat) : State :=
  { launchState with
    subBase := 0x8000100000
    mem := (launchState.mem.writeN 0x8000100000 (natBytes 128 packet)).writeN 0x8000100080 (natBytes 4 1) }
def mboxState (s : State) (w : List DWord) (begun : Bool) (attested : Nat) : State :=
  ({ s with attested := attested }).updMbox 15 (fun _ => { w := w, begun := begun })
theorem witness_HostCommandsComplete :
    kState.held = false ∧ kState.boot = 1 ∧ (hostState packetBits).slotPa / 2 ^ 39 = 1 ∧ (hostState packetBits).launches.length < 256 ∧
    leNat ((hostState packetBits).mem.readN ((hostState packetBits).slotAt + 128) 4) = (hostState packetBits).subNext % 2 ^ 32 ∧
    goes (checkPacket (leNat ((hostState packetBits).mem.readN (hostState packetBits).slotAt 128)) none) (hostState packetBits) = true ∧
    goes (acceptPacket (leNat ((hostState 0).mem.readN (hostState 0).slotAt 128)) none) (hostState 0) = false ∧
    (kState.mboxAt 15).word 0 = 0 := by decide +kernel
theorem witness_HostCommandsComplete_mailbox :
    ([1, 2, 3, 4, 5, 6, 0] : List Nat).all (fun op =>
      let s := mboxState kState [BitVec.ofNat 64 (op + 256), 0, 0, 0, 0, 0, 0, 0] false 0
      s.polls 15 && (s.mboxAt 15).op == op) = true ∧
    goes (freezeMarkM 1) kState = true ∧
    goes (freezeDropM 1) { kState with launches := [{ programLaunch .k with run := .frozen }] } = true ∧
    goes (freezeContM 1) { handlerState .frozen with slots := [] } = true ∧
    ((mboxState kState [4, 0, 0, 0, 0, 0, 0, 0] true 0).mboxAt 15).begun = true := by decide +kernel
theorem witness_HostCommandsComplete_attested : ∃ s : State, s.held = false ∧ s.boot = 1 ∧ 2 ^ 30 ≤ s.attested :=
  ⟨{ held := false, boot := 1, attested := 1073741824 }, rfl, rfl, by norm_num⟩

/-- What the steps of boot find: the images of steps 1 and 2, the spare of each die, a neighbour that exports. -/
def bootInput (n : Nat) : BootInput := ⟨true, List.replicate n ⟨3, [], [], []⟩, List.replicate 16 4, [1], [(3, 1)], some (1, 77)⟩
def bootState (k : Nat) : State := { State.reset with bootSteps := k }
theorem witness_ResetAndBootProceed :
    (∀ k, (bootState k).held = false ∧ (bootState k).boot = 0 ∧ (bootState k).bootSteps = k) ∧ (∀ n, (bootInput n).ok = true ∧ (bootInput n).images.length = n) ∧
    (bootInput 0).spares.length = 16 ∧ (∀ i ∈ (bootInput 0).spares, i < 5) ∧ (bootInput 0).peers.length ≤ 3 ∧ (∀ p ∈ (bootInput 0).peers, p.1 < 4) ∧
    (∃ p ∈ (bootInput 0).peers, p.2 = 1) ∧ (bootInput 0).exporter = some (1, 77) ∧ (verifyImages [] 5).1 = true ∧ State.reset.ownHbm 0x20000 = true :=
  ⟨fun _ => ⟨rfl, rfl, rfl⟩, fun _ => ⟨rfl, List.length_replicate⟩, by decide +kernel, by decide +kernel, by decide +kernel, by decide +kernel,
    by decide +kernel, rfl, rfl, by decide +kernel⟩
/-- The steps of boot that need no key end well. -/
theorem test_boot_steps :
    (∃ t, exec (.bootStep (bootInput 0)) (bootState 2) = .next t ∧ t.bootSteps = 3 ∧ t.spareCores.length = 16 ∧ t.boot = 0) ∧
    (∃ t, exec (.bootStep (bootInput 0)) (bootState 3) = .next t ∧ t.bootSteps = 4 ∧ t.peers = [(3, 1)] ∧ t.boot = 0) ∧
    (∃ t, exec (.bootStep (bootInput 0)) (bootState 4) = .next t ∧ t.bootSteps = 5 ∧ t.boot = 1) :=
  ⟨⟨_, rfl, by decide +kernel⟩, ⟨_, rfl, by decide +kernel⟩, ⟨_, rfl, by decide +kernel⟩⟩

theorem witness_AccessesChangeOnlyTheirBytes :
    kState.Issues .k 0 0 ∧ kState.unplanned ∧ kState.PlainAccess .read kSeg.va kSeg.len kSeg.tr ∧
    kState.PlainAccess .write kSeg.va kSeg.len kSeg.tr ∧ kState.near .read [kSeg] ∧ kState.near .write [kSeg] ∧ kState.cx.remote = none ∧
    kSeg.va = kAddr kState.cx 1 0 ∧ kSeg.len = sizeBytes 3 ∧ kSeg.tr.home = kState.dev ∧ (soRel 0 = false ∨ kState.firstWrites = []) ∧ kState.mem.wf = true ∧
    kState.started .k 0 = kState ∧ (kState.started .k 0).rel 0 = kState ∧
    goes (writeSegs kState.agent 2 .write [kSeg] (natBytes 8 1)) kState = true ∧ goes (amoAt kState.agent kSeg 0 kSeg.len 1 0) kState = true :=
  ⟨kState_issues, kState_unplanned, kSeg_plain _ (by decide +kernel) (by decide +kernel), kSeg_plain _ (by decide +kernel) (by decide +kernel),
    kSeg_near _ (by decide +kernel), kSeg_near _ (by decide +kernel), by decide +kernel⟩

/-- The step of `add x4, x4, x5` from canonical memory. -/
theorem witness_StepsKeepMemoryCanonical :
    addState.mem.wf = true ∧ addState.tags.wf = true ∧ (match step addState with | .next _ => true | _ => false) = true := by decide +kernel

/-- The example of FIPS 180-4. -/
theorem test_sha256_abc : bigNat (shaBytes [0x61, 0x62, 0x63]) = 0xba7816bf8f01cfea414140de5dae2223b00361a396177a9cb410ff61f20015ad := by decide +kernel

/-! ### Further clauses -/

/-- A spilled context that goes on, and the bank that it comes into. -/
def spilledState : State :=
  { runningWith .k (fun c => { c with place := .spilled 0 }) with launches := [{ programLaunch .k with lcores := 1, grant := 1 }] }
/-- Contexts without a node in both banks of the broadcast core, and a node of another launch for its logical core 64. -/
def fullState : State :=
  { running .b with
    cx := { programCtx .b with status := .idle }
    others := [{ programCtx .b with id := ⟨3, Config.bcastLcore⟩, place := .bank Config.broadcastDie 0 1, status := .idle, lastDone := 1 }]
    launches := [programLaunch .b, { programLaunch .b with num := 2, nodes := [{ record := BitVec.ofNat 512 (64 * 2 ^ 393), deadline := 50, st := .pooled }] }] }
theorem witness_NodesAndBanksProceed_spill :
    fullState.spillable fullState.cx = true ∧
    fullState.wanting.any (fun w => placeFor fullState w.1 w.2.1 w.2.2.1 w.2.2.2 == some (Config.broadcastDie, 0, 0, some ⟨1, Config.bcastLcore⟩)) =
      true := by decide +kernel
theorem witness_NodesAndBanksProceed_restore :
    spilledState.wantsBank spilledState.cx = true ∧
    (spilledState.launch? 1).any (fun l => l.run == .running && (l.nodes[0]?).any (fun n =>
      (placeFor.other spilledState l n 0 (spilledState.keyOf spilledState.cx)).isSome)) = true := by decide +kernel
/-- The plan of the launch waits for the logical core in the shadow bank, and the other yields. -/
theorem witness_NodesAndBanksProceed_wave :
    let s : State := { banksState .running false with plan := some { launch := 1, snapshot := programCtx .b, waves := [[1]] } }
    (s.awaited ⟨1, 0⟩ && s.makesWay ⟨1, 1⟩) = false ∧ s.awaited ⟨1, 1⟩ = true ∧ s.makesWay ⟨1, 0⟩ = true := by decide +kernel

/-- The broadcast core waits in PLANB for its plan to be published. -/
theorem witness_BroadcastEventsComplete_publish :
    let s := { planState .opening [[0]] 0 with
      others := [(programCtx .b).updSeq .c (fun st => { st with awaiting := some .plan })] }
    s.planbWaits 1 = true ∧ s.activeMember 1 0 = true ∧ s.exporter = none ∧ s.peerWaves = 0 := by decide +kernel

/-- A page of stream s2 was unmapped, or migrated, and the frame names an address in it. -/
def revokedState (r : Revocation) : State :=
  runningWith .l (fun c => c.setStream 2 { strm 0 4 false with pages := [⟨0x20000, 4096, some r⟩] })
theorem witness_FramesAndWatchesProceed_revoked :
    ∀ r ∈ [Revocation.migration, .unmapping], (revokedState r).revocationOf ⟨1, 0⟩ { heldOne with cause := 0x08C, va := 0x20FFF } = some r ∧
    routeOf 0x08C = .firmwareFirst := by decide +kernel
theorem witness_FramesAndWatchesProceed_urgent :
    (running .k).inPlan (running .k).cx = false ∧ (running .k).isActive (running .k).cx = true ∧
    ((running .k).shadowOf (running .k).cx.core).isNone = true ∧ (running .k).cx.draining = false := by decide +kernel

/-- A tile whose output waits past its bound. -/
def lateState : State :=
  { outState with cx := { outState.cx with epi := [{ anEpi (2 ^ 31 + 5 * 2 ^ 27) true 4 with sent := true }] } }
theorem witness_WindowsAndTilesProceed_late :
    (lateState.tileOverdue lateState.cx).any (fun e => e.shaped && epiOut e.epi &&
      goes (writeTile { e with acked := true }) { lateState with cx := lateState.cx.deferTile e { cause := 0x310 } }) = true := by decide +kernel

theorem witness_ErrorsAndSparesProceed_fatal :
    kState.canFail (.core 15 3) = true ∧ kState.canFail (.route 1) = true ∧
    ({ kState with columnsUsed := [(15, 3)] } : State).canFail (.column 15 3) = true ∧ kState.inUse (15, 3) = true ∧
    kState.cx.draining = false := by decide +kernel

/-- A launch that is freezing and at rest, and a frozen one whose tiles can be put back. -/
theorem witness_FreezeAndThawComplete_states :
    (let s := handlerState .freezing
     (s.launch? 1).any (fun l => (s.restBegun l |>.nowOf l).run == .freezing && (s.restBegun l).atRest (s.restBegun l |>.nowOf l)) = true) ∧
    (let s := (handlerState .frozen).started .k 0
     (s.launch? 1).all (fun l => s.tilesFit l && (s.continued l).cx.id == s.cx.id && (s.continued l).cx.tok == s.cx.tok &&
       (s.continued l).cx.seqK == s.cx.seqK) = true) := by decide +kernel
/-- Where C resumes at another address, the broadcast core leaves its PLANB. -/
theorem witness_ResumeCompletes_bcast :
    let held := { heldOne with lcore := Config.bcastLcore }
    framePc (held.bits + 0x10004 * 2 ^ 192) .c ≠ heldPc held .c := by decide +kernel
/-- The handler's own K stands as before once the context runs on. -/
theorem witness_ResumeCompletes_stands :
    let s := (handlerState .running).started .k 0
    let w := resumeFrame ⟨1, 0⟩ heldOne ((s.released 3).updLaunch 1 (fun l => { l with held := none }))
    w.cx.id = s.cx.id ∧ w.cx.tok = s.cx.tok ∧ w.cx.seqK = s.cx.seqK ∧ w.cur = s.cur := by decide +kernel

/-! ### Images -/

/-- The leaf of the tests' address space with A and D set, so that accesses change nothing in it. -/
def flat (s : State) : State := { s with mem := s.mem.writeN 0x40004001 [0x7C] }
def flatB (s : State) (asid : Nat) : Bool :=
  decide (s.dev = 0) && look s.asids asid == some 0x40000000 && readEntry s.mem 0x40000000 == 0x40002 * 2 ^ 28 + 1 &&
    readEntry s.mem 0x40002000 == 0x40004 * 2 ^ 28 + 1 && readEntry s.mem 0x40004000 == 0x7C03 && s.mem.read 0x40004001 == 0x7C && s.mem.wf &&
    s.ctxs.all (fun c => eight.all (fun i => bit (c.wpc.get i).toNat 0 == false))
theorem flat_of {s : State} {asid : Nat} (h : flatB s asid = true) : s.Flat asid := by
  simp only [flatB, Bool.and_eq_true, decide_eq_true_eq, beq_iff_eq, List.all_eq_true] at h
  exact ⟨h.1.1.1.1.1.1.1, h.1.1.1.1.1.1.2, h.1.1.1.1.1.2, h.1.1.1.1.2, h.1.1.1.2, h.1.1.2, h.1.2, h.2⟩

/-- The handler freezes its launch into an image at 0x100000. -/
def freezeState : State := let s := flat (handlerState .running); { s with cx := s.cx.wx 3 0x100000 }
theorem witness_FreezeAndThawComplete_image :
    let l := { programLaunch .k with held := some heldOne, handler := 1 }
    let t := (freezeState.started .k 0).frozenBy l
    let img := t.image (t.nowOf l)
    issuesB freezeState .k 0 0 = true ∧ freezeState.launch? 1 = some l ∧ freezeState.cx.rx 3 = 0x100000 ∧
      ∃ v, writeImage freezeState.cx.asid.toNat (some freezeState.cx.core) 0x100000 img.1 img.2 t = .ok () v := by
  refine ⟨by decide +kernel, by decide +kernel, by decide +kernel, ?_⟩
  refine State.Flat.writeImage (flat_of ?_) ?_ ?_ _ ?_ _ <;> decide +kernel

/-- An image of a launch with one context, which runs: the header, the packet, the record table, a record without sections, the node's
progress, and zeros for the groups and the bitmap. -/
def imageBits : Nat :=
  imageMagic + imageVersion * 2 ^ 32 + 791360 * 2 ^ 64 + 1987251162 * 2 ^ 128 + 1 * 2 ^ 160 + 7 * 2 ^ 256 + 256 * 2 ^ 384 + 384 * 2 ^ 448 +
    832 * 2 ^ 512 + 832 * 2 ^ 576 + 768 * 2 ^ 704 + 4928 * 2 ^ 768 + 791360 * 2 ^ 832 + 500 * 2 ^ 1152 +
    at8 256 packetBits + at8 384 448 + at8 448 (recordMagic + 320 * 2 ^ 64 + 1 * 2 ^ 136) + at8 768 (2 * 2 ^ 16)
theorem test_image_accepted : imageOk imageBits = true := by
  unfold imageOk
  rw [imageSum_of 272 6174 (by decide +kernel) (by decide +kernel) (by decide +kernel)]
  decide +kernel

/-- Bytes placed in memory that lists none at their addresses. -/
def placed (a n v : Nat) (m : Memory) : Memory :=
  m.takeWhile (fun e => e.1 < a) ++ ((natBytes n v).zipIdx.filter (fun p => p.1 ≠ 0)).map (fun p => (a + p.2, p.1)) ++ m.dropWhile (fun e => e.1 < a)
/-- The handler, with that image at 0x100000 and the node's record where the packet says. -/
def thawState : State :=
  let s := flat (handlerState .running)
  { s with cx := s.cx.wx 3 0x100000, mem := placed 0x100000 784 imageBits (placed 0x30040 64 nodeBits s.mem) }
/-- The node runs again: it stands in the ready pool of the new launch, and the deadline is 500 steps away. -/
def thawAnswer (s : State) : Nat := val 0 (thawImage imageBits 0 1) s
def thawEnd (s : State) : State := endOf (thawImage imageBits 0 1) s

theorem thaw_goes {s : State} (f : flatB s 1 = true) (hz : s.mem.all (fun e => decide (e.1 < 0x100000 + 784) || decide (0x100000 + 791360 ≤ e.1)) = true)
    (hh : imgTotal (leNat (s.mem.readN 0x100000 256)) = 791360) (hi : leNat (s.mem.readN 0x100000 832) = imageBits)
    (hg : goes (thawImage imageBits 0 1) s = true) : thawM 0x100000 0 1 s = .ok (thawAnswer s) (thawEnd s) := by
  refine State.Flat.thaw (flat_of f) 13 12365 (by decide) (by decide) (by decide) (by decide) ?_ hh hi test_image_accepted (goes_ok _ hg)
  intro e he
  have := List.all_eq_true.1 hz e he
  simp only [Bool.or_eq_true, decide_eq_true_eq] at this
  show e.1 < 0x100000 + 64 * 13 ∨ 0x100000 + 64 * 12365 ≤ e.1
  omega

theorem thaw_stands {s : State} (hg : goes (thawImage imageBits 0 1) s = true) (hs : s.cx.id.launch ≠ s.nextLaunch) : s.Stands .k (thawEnd s) := by
  unfold thawEnd
  generalize imageBits = img at hg
  exact thawImage_stands (goes_ok 0 hg) hs .k

theorem witness_FreezeAndThawComplete_thaw :
    let u := thawState.started .k 0
    issuesB thawState .k 0 0 = true ∧ thawState.launches.length < 256 ∧ thawState.cx.rx 3 = 0x100000 ∧ thawState.cx.rx 0 = 0 ∧ thawState.cx.asid = 1 ∧
      thawM 0x100000 0 1 (u.released 3) = .ok (thawAnswer (u.released 3)) (thawEnd (u.released 3)) ∧ u.Stands .k (thawEnd (u.released 3)) := by
  have hg : goes (thawImage imageBits 0 1) ((thawState.started .k 0).released 3) = true := by decide +kernel
  refine ⟨by decide +kernel, by decide +kernel, by decide +kernel, by decide +kernel, by decide +kernel, ?_, ?_⟩
  · exact thaw_goes (by decide +kernel) (by decide +kernel) (by decide +kernel) (by decide +kernel) hg
  · have h := thaw_stands hg (by decide +kernel)
    generalize thawEnd _ = t at h ⊢
    exact ⟨h.id.trans (by decide +kernel), h.tok.trans (by decide +kernel), h.seq.trans (by decide +kernel), h.cur.trans (by decide +kernel)⟩
/-- The same image by a mailbox command, into address space 1. -/
def mboxThaw : State := mboxState { thawState with cx := kState.cx } [0x103, 0x100000, 0, 1, 0, 0, 0, 0] false 0
theorem witness_HostCommandsComplete_thaw :
    mboxThaw.held = false ∧ mboxThaw.boot = 1 ∧ mboxThaw.polls 15 = true ∧ (mboxThaw.mboxAt 15).op = 3 ∧ mboxThaw.launches.length < 256 ∧
      (mboxThaw.mboxAt 15).word 1 = 0x100000 ∧ (mboxThaw.mboxAt 15).word 2 = 0 ∧ (mboxThaw.mboxAt 15).word 3 = 1 ∧
      thawM 0x100000 0 1 mboxThaw = .ok (thawAnswer mboxThaw) (thawEnd mboxThaw) := by
  refine ⟨by decide +kernel, by decide +kernel, by decide +kernel, by decide +kernel, by decide +kernel, by decide +kernel, by decide +kernel,
    by decide +kernel, ?_⟩
  exact thaw_goes (by decide +kernel) (by decide +kernel) (by decide +kernel) (by decide +kernel) (by decide +kernel)

/-- A mailbox command writes the image of a frozen launch. -/
def mboxFreeze : State :=
  mboxState { flat kState with launches := [{ programLaunch .k with run := .frozen }] } [0x102, 1, 1, 0x100000, 0, 0, 0, 0] false 0
theorem witness_HostCommandsComplete_image :
    mboxFreeze.held = false ∧ mboxFreeze.boot = 1 ∧ mboxFreeze.polls 15 = true ∧ (mboxFreeze.mboxAt 15).op = 2 ∧ (mboxFreeze.mboxAt 15).word 1 = 1 ∧
      (mboxFreeze.mboxAt 15).word 2 = 1 ∧ (mboxFreeze.mboxAt 15).word 3 = 0x100000 ∧
      ∃ n u, freezeM (some 15) 1 0x100000 (fun l => l.asid.toNat) mboxFreeze = .ok n u := by
  refine ⟨by decide +kernel, by decide +kernel, by decide +kernel, by decide +kernel, by decide +kernel, by decide +kernel, by decide +kernel, ?_⟩
  obtain ⟨u, hu⟩ := State.Flat.freeze (s := mboxFreeze) (l := { programLaunch .k with run := .frozen }) (n := 1) (va := 0x100000) 15
    (by decide +kernel) (by decide +kernel) (by decide +kernel) (flat_of (by decide +kernel)) (by decide +kernel) (by decide +kernel)
    (by decide +kernel) (by decide +kernel)
  exact ⟨_, u, hu⟩

/-! ### Clauses about bundles, plans and pools -/

/-- The bundle reads v1 in its second word before its first word's result is in it. -/
def readFirst : List Instr := [.vadd ⟨0, 0⟩ 1 2 3 0 0, .vmul ⟨1, 0⟩ 4 1 2 0 0]
theorem witness_BundlesReadBeforeTheyWrite :
    ∃ rs, readFirst.mapM (fun i => rowOf i cState.cx) = some rs ∧ readFirst ≠ [] ∧ bundleOk readFirst = true ∧ cState.IssuesBundle rs := by
  refine ⟨_, rfl, by decide, by decide +kernel, by decide +kernel, by decide +kernel, fun i => Nat.zero_le _, fun i h => ?_, ?_⟩
  · show cState.cx.tokens i + 0 ≤ 15
    have : ∀ j, j < 12 → cState.cx.tokens j ≤ 15 := by decide +kernel
    exact this i h
  · intro r hr
    rcases List.mem_cons.1 hr with rfl | hr
    · exact fun _ => by decide +kernel
    · rw [List.mem_singleton.1 hr]; exact fun _ => by decide +kernel
/-- Its second word multiplies by the v1 from before the bundle, which holds 0. -/
theorem test_bundle_reads_first :
    let t := runBundle after readFirst { cState with cx := { cState.cx with v := cState.cx.v.set 2 0x3F800000 } }
    t.cx.v.get 1 = 0x3F800000 ∧ t.cx.v.get 4 = 0 := by decide +kernel

/-- Two words of a bundle that write one register (02 R51). -/
def clashTurn : State :=
  let line := programLine .c (.vadd ⟨1, 0⟩ 1 3 3 0 0) (encode (.vadd ⟨0, 0⟩ 1 2 16 0 0) + encode (.vadd ⟨1, 0⟩ 1 3 3 0 0) * 2 ^ 32)
  { pairTurn with mem := (programTables []).writeN 0x10000 line }
theorem witness_StepRunsTheDecodedInstruction_form :
    let l := val ⟨0, 0⟩ nextLine clashTurn
    clashTurn.mayIssue = true ∧ nextLine clashTurn = .ok l (endOf nextLine clashTurn) ∧
    readUnit .c (illegalCause .c) l 1 15 1 = .ok [.vadd ⟨0, 0⟩ 1 2 16 0 0, .vadd ⟨1, 0⟩ 1 3 3 0 0] ∧
    bundleOk [.vadd ⟨0, 0⟩ 1 2 16 0 0, .vadd ⟨1, 0⟩ 1 3 3 0 0] = false := by
  refine ⟨?_, goes_ok _ ?_, ?_, ?_⟩ <;> decide +kernel

theorem witness_FalsePredicatesOnlyMoveOn_shared :
    let s := running .l
    sharedHd (.halt ⟨7, 0, 0⟩) = some ⟨7, 0, 0⟩ ∧ sharedHd (.brx ⟨7, 0, 0⟩ 1) = some ⟨7, 0, 0⟩ ∧ (s.cx.seq s.cur).pend = none ∧ s.cur = .l ∧
    s.bun = none ∧ (s.cx.seq .l).rq 7 = false ∧ truthOf (.win ⟨7, 1, 0⟩ 0 0 0 0 0 0 0 0 0) (running .c).cx = some (0, false) := by decide +kernel

/-- No plan; the plan of another launch; a plan that stops the other sequencers, which have stopped; and one that runs. -/
theorem witness_PlansAndPortsComplete_phases :
    (running .b).plan = none ∧ ((running .b).launch? 1).isSome = true ∧ (running .b).cx.stoppedForPlan = true ∧
    (∀ ph ∈ [PlanPhase.stopping, .opening, .running],
      ({ planState ph [[0]] 0 with cx := programCtx .b } : State).plan.all (fun p => p.launch == 1 && p.phase == ph) = true) ∧
    (∀ s : State, s = { running .b with plan := some { launch := 2, snapshot := programCtx .b, waves := [], phase := .stopping } } →
      s.plan.any (fun p => p.launch != s.cx.id.launch) = true) ∧
    (running .b).cx.planeDone = false := by
  refine ⟨rfl, by decide +kernel, by decide +kernel, by decide +kernel, ?_, by decide +kernel⟩
  rintro s rfl
  decide +kernel

/-- A late node of a launch that discards what comes after it. -/
theorem witness_NodesAndBanksProceed_discard :
    let s := { pooledState with launches := pooledState.launches.map (fun l => { l with abl := true }) }
    (lateNode s).any (fun p => p.2.1.abl) = true := by decide +kernel

theorem witness_RemoteRequestsArePerformedAndAnswered_tag : arrivalOk kState 0x20020 32 false 0 = true := by decide +kernel

/-- Memory, a line that the die alone holds, a page with a shadow page, and a frame. -/
theorem witness_AccessesChangeOnlyTheirBytes_kinds :
    let bytes := natBytes 8 (2 ^ 64 - 1)
    let away : Seg := { kSeg with tr := { kSeg.tr with leaf := kSeg.tr.leaf + 2 ^ 52 } }
    let shadow : Seg := { kSeg with tr := { kSeg.tr with leaf := kSeg.tr.leaf + 0x50001 * 2 ^ 78 + 2 ^ 22 + 2 ^ 20 } }
    (∀ g ∈ [kSeg, away], 0 < g.len ∧ goes (writeSegs kState.agent 0 .write [g] bytes) kState = true) ∧
    goes (writeSegs kState.agent 0 .shadow [shadow] bytes) kState = true ∧ shadow.key .shadow ≠ shadow.key .write ∧
    goes (amoAt kState.agent kSeg 9 8 8 64) kState = true := by decide +kernel
theorem witness_AccessesChangeOnlyTheirBytes_stream :
    let s := storeState 0 (programTables [])
    let t := strm 0 4 true
    let m := itemsCheck s.agent 1 3 t (side true) t.acc (storeItems 0)
    goes m s = true ∧ goes (performItems s.agent 1 t (side true) t.acc true (val [] m s) (val [] m s)) (endOf m s) = true := by decide +kernel

theorem witness_FramesAndWatchesProceed_exporter :
    let s := { planState .running [[0]] 0 with exporter := some 2 }
    s.inPlan s.cx = true ∧ s.exporter.isSome = true := by decide +kernel

/-! ### Clauses about lines, checks and starts -/

/-- A line at an address. -/
def kLine (va : DWord) : Line := ⟨va, BitVec.ofNat 512 (leNat (programLine .k (.add ⟨0, 0⟩ 0 0 0) 0))⟩
/-- The line is fetched already; and another is. -/
theorem witness_TheNextLineIsFetchedFromMemory_fetched :
    let st : SeqState := { addTurn.cx.seqK with fetched := [kLine 0x20000, kLine 0x10000], line := some (kLine 0x20000) }
    (∀ e, st.line = some e → e.va ≠ lineVa st.pc) ∧ st.fetched.find? (fun e => e.va == lineVa st.pc) = some (kLine 0x10000) ∧
    linkOk ((kLine 0x10000).word 0) = true ∧ linkOwner ((kLine 0x10000).word 0) = 3 ∧
    (∀ e ∈ [kLine 0x20000], e.va ≠ lineVa st.pc) := by
  refine ⟨?_, by decide +kernel, by decide +kernel, by decide +kernel, by decide +kernel⟩
  intro e he
  cases he
  decide +kernel

/-- An illegal word of a vector operation after one that goes on. -/
def laterState (m : SeqSel) : State :=
  { running m with
    mem := (programTables []).writeN 0x10000 (programLine m (.nop ⟨0, 1, 0⟩) (encode (.vadd ⟨0, 0⟩ 1 2 16 0 0) + 0x64000000 * 2 ^ 32)) }
theorem witness_FaultsOn_later :
    ∀ m ∈ [SeqSel.c, .b],
      let s := laterState m
      let l := val ⟨0, 0⟩ nextLine s
      s.mayIssue = true ∧ nextLine s = .ok l (endOf nextLine s) ∧ (endOf nextLine s).cur = s.cur ∧
      selOf (endOf nextLine s).cx (endOf nextLine s).cur = m ∧ wordIx ((endOf nextLine s).cx.seq (endOf nextLine s).cur).pc = 1 ∧
      l.Leads m 2 [.vadd ⟨0, 0⟩ 1 2 16 0 0] 1 ∧ illegalVectorArithmetic (l.full m 2) ∧ ∃ e, decode m (l.full m 2) = .error e := by
  intro m hm
  simp only [List.mem_cons, List.not_mem_nil, or_false] at hm
  have hw : ∀ l : Line, l.full m 2 = 0x64000000 → illegalVectorArithmetic (l.full m 2) := fun l h => by
    rw [h]; simp [illegalVectorArithmetic, bits]
  rcases hm with rfl | rfl
  all_goals
    refine ⟨by decide +kernel, goes_ok _ (by decide +kernel), by decide +kernel, by decide +kernel, by decide +kernel,
      ⟨rfl, by decide, by decide +kernel, by decide +kernel, ?_⟩, hw _ (by decide +kernel), .fieldValue, by decide +kernel⟩
    show _ = _
    decide +kernel
theorem witness_FaultsOn_onBcast :
    Stands .b illegalVectorArithmetic (0x19 * 2 ^ 26) ∧ Stands .b illegalVectorMove (0x25 * 2 ^ 26 + 15 * 2 ^ 12) := by
  refine ⟨stands_of ?_ ?_, stands_of ?_ ?_⟩
  all_goals first
    | decide +kernel
    | simp [illegalVectorArithmetic, illegalVectorMove, bits]

/-- MFS of 0x005 and with xa set, MTS of 0x1FF; MFS of L, S and C of a register that only K reads. -/
theorem witness_FaultsOn_system :
    Stands .k illegalSystemOfK (0x28 * 2 ^ 26 + 5 * 2 ^ 7) ∧ Stands .k illegalSystemOfK (0x29 * 2 ^ 26 + 0x1FF * 2 ^ 7) ∧
    Stands .k illegalSystemOfK (0x28 * 2 ^ 26 + 2 ^ 16) ∧ Stands .l illegalSystemOfLS (0x20 * 2 ^ 26 + 0xB * 2 ^ 7) ∧
    Stands .s illegalSystemOfLS (0x20 * 2 ^ 26) ∧ Stands .c illegalSystemOfC (0x35 * 2 ^ 26 + 0x23 * 2 ^ 4) ∧
    Stands .b illegalSystemOfC (0x35 * 2 ^ 26 + 0xF * 2 ^ 4) := by
  refine ⟨stands_of ?_ ?_, stands_of ?_ ?_, stands_of ?_ ?_, stands_of ?_ ?_, stands_of ?_ ?_, stands_of ?_ ?_, stands_of ?_ ?_⟩
  all_goals first
    | decide +kernel
    | simp [illegalSystemOfK, illegalSystemOfLS, illegalSystemOfC, systemNumber, systemNumberOfAll, bits]

/-- Accesses that fail: on a page that is not mapped, in the frame, on a granule of another tag, and under a watchpoint. -/
def unmappedState : State := runningWith .k (fun c => c.wx 1 0x7FFF000000)
def spadPageState : State :=
  let m := kState.mem.writeN 0x40004000 (natBytes 16 (0x40006 * 2 ^ 28 + 1))
  { kState with mem := (m.writeN 0x40006000 (natBytes 16 (0x40008 * 2 ^ 28 + 1))).writeN 0x40008200 (natBytes 16 0xE03) }
def taggedState : State :=
  { kState with
    tags := Tags.write kState.tags (0x20FE0 / 32) 5
    mem := kState.mem.writeN 0x40004000 (natBytes 16 (0x801C00 + 3)) }
def watchedState : State := runningWith .k (fun c => { c.wx 1 0x20FF8 with wpa := c.wpa.set 0 0x20FF8, wpc := c.wpc.set 0 0x30F })
/-- The page of an access to 0x20FF8, where it translates. -/
def pageOf (s : State) (k : Acc) : Tr := match translate s 1 k 0x20FF8 with | .ok t => t | .error _ => ⟨0, 0, 0⟩
theorem witness_AccessesFail :
    ∀ k ∈ [Acc.read, .write, .atomic],
      (∃ t u, unmappedState.AccessFails k 0x7FFF000000 8 t u ∧ t.cause = 0x081) ∧
      (∃ t u, spadPageState.AccessFails k 0x20FF8 8 t u ∧ t.cause = 0x091) ∧
      (∃ t u, taggedState.AccessFails k 0x20FF8 8 t u ∧ t.cause = 0x089) ∧
      (∃ t u, watchedState.AccessFails k 0x20FF8 8 t u ∧ t.cause = 0x08A) := by
  intro k hk
  refine ⟨⟨_, _, ⟨by decide, .inl ⟨0x081, ?_, rfl, rfl⟩⟩, rfl⟩, ⟨_, _, ⟨by decide, .inr (.inl ⟨pageOf spadPageState k, ?_, ?_, rfl, rfl⟩)⟩, rfl⟩,
    ⟨{ cause := 0x089, va := 0x20FF8, aux0 := 0x50 }, _, ⟨by decide, .inr (.inr ⟨pageOf taggedState k, ?_, ?_, ?_, rfl, ?_⟩)⟩, rfl⟩,
    ⟨{ cause := 0x08A, va := 0x20FF8 }, _, ⟨by decide, .inr (.inr ⟨pageOf watchedState k, ?_, ?_, ?_, rfl, ?_⟩)⟩, rfl⟩⟩
  all_goals simp only [List.mem_cons, List.not_mem_nil, or_false] at hk
  case refine_7 =>
    have h : (if (pageOf taggedState k).tce then (granules (Seg.tagKey ⟨0x20FF8, 8, pageOf taggedState k⟩ k) 8).find? (fun r =>
        taggedState.tags.read r != BitVec.ofNat 4 (bits (0x20FF8 : DWord).toNat 59 56)) else none) = some (0x20FE0 / 32) := by
      rcases hk with rfl | rfl | rfl <;> decide +kernel
    simp only [h]
    decide +kernel
  case refine_11 =>
    have h : (pageOf watchedState k).tce = false := by rcases hk with rfl | rfl | rfl <;> decide +kernel
    simp only [h]
    exact ⟨⟨watchedState.cx, .head _, rfl, by rcases hk with rfl | rfl | rfl <;> decide +kernel⟩, trivial⟩
  all_goals rcases hk with rfl | rfl | rfl <;> decide +kernel
theorem witness_AtomicsComplete_misaligned : ((kState.cx.wx 1 0x20FFC).rx 1).toNat % sizeBytes 3 ≠ 0 := by decide +kernel

/-- The image of the tests is one that `Restores` speaks of in each of its clauses. -/
theorem imageBits_runs :
    imgFrqn imageBits = 0 ∧ (∀ r ∈ imgRecords imageBits, ∀ e ∈ recDir r.2, e.1 ≠ 14) ∧
    ∃ i, i < packetNodes (imgPacket imageBits) ∧ i ≠ bits (imgPacket imageBits) 287 272 ∧ bits (imgNode imageBits i) 18 16 = 2 :=
  ⟨by decide +kernel, by decide +kernel, 0, by decide +kernel, by decide +kernel, by decide +kernel⟩
theorem image_reads {s : State} (f : flatB s 1 = true)
    (hz : s.mem.all (fun e => decide (e.1 < 0x100000 + 784) || decide (0x100000 + 791360 ≤ e.1)) = true)
    (hh : imgTotal (leNat (s.mem.readN 0x100000 256)) = 791360) (hi : leNat (s.mem.readN 0x100000 832) = imageBits) :
    ∃ head, readImage 1 0x100000 256 s = .ok head s ∧ readImage 1 0x100000 (max 256 (imgTotal head)) s = .ok imageBits s := by
  refine ⟨_, (flat_of f).reads (va := 0x100000) 13 12365 (by decide) (by decide) (by decide) (by decide) ?_ hh hi⟩
  intro e he
  have := List.all_eq_true.1 hz e he
  simp only [Bool.or_eq_true, decide_eq_true_eq] at this
  show e.1 < 0x100000 + 64 * 13 ∨ 0x100000 + 64 * 12365 ≤ e.1
  omega
theorem witness_FreezeAndThawComplete_restores :
    let u := (thawState.started .k 0).released 3
    u.freshNumber ∧ ∃ head, readImage 1 0x100000 256 u = .ok head u ∧ readImage 1 0x100000 (max 256 (imgTotal head)) u = .ok imageBits u :=
  ⟨⟨by decide +kernel, by decide +kernel⟩,
    image_reads (by decide +kernel) (by decide +kernel) (by decide +kernel) (by decide +kernel)⟩
theorem witness_HostCommandsComplete_restores :
    mboxThaw.freshNumber ∧
    ∃ head, readImage 1 0x100000 256 mboxThaw = .ok head mboxThaw ∧ readImage 1 0x100000 (max 256 (imgTotal head)) mboxThaw = .ok imageBits mboxThaw :=
  ⟨⟨by decide +kernel, by decide +kernel⟩,
    image_reads (by decide +kernel) (by decide +kernel) (by decide +kernel) (by decide +kernel)⟩

/-- A parked context that stands in no focus. -/
theorem witness_RemoteRequestsArePerformedAndAnswered_swapped :
    let s : State := { kState with cx := { kState.cx with id := ⟨1, 1⟩ }, others := [(remoteState false true (some (0, none)) .parked).cx] }
    s.cx.id ≠ ⟨1, 0⟩ ∧ (s.ctx? ⟨1, 0⟩).any (fun x => x.status == .parked && x.remote.any (fun r => r.performed.isSome && r.parks)) = true := by
  decide +kernel

/-- A base that reaches every member at once, and one that a window of before still holds up; with an exporter, and without. -/
theorem witness_BroadcastEventsComplete_bases :
    let p : Plan := { launch := 1, snapshot := programCtx .b, waves := [[0]], base := 8192, phase := .publishing }
    let free := { running .k with plan := some p }
    let busy : State := { free with cx := { free.cx with wins := [aWindow none] } }
    ((State.publishWave free p).plan).map (·.phase) = some .published ∧ ((State.publishWave busy p).plan).map (·.phase) = some .publishing ∧
    ((State.publishWave { free with exporter := some 2 } p).plan).map (·.phase) = some .running := by decide +kernel

/-- A node of the pool, its argument block readable, and one that was frozen as it ran. -/
def argState : State := { pooledState with mem := (programTables []).writeN 0x30000 [7] }
theorem witness_NodesAndBanksProceed_starts :
    (nextDispatch argState).any (fun d => (argState.launch? 1).any (fun l => (l.nodes[d.node]?).any (fun n =>
      d.launch == 1 && (argState.recorded l d.node n).isNone && goes (readNodeArgs l n) ((argState.dispatched d).startAt d l n)))) = true := by
  decide +kernel
theorem witness_NodesAndBanksProceed_goesOn :
    let s : State := { argState with
      cx := { argState.cx with status := .running, place := .spilled 0 }
      launches := argState.launches.map (fun l => { l with nodes := l.nodes.map (fun n => { n with lcore := 0 }) }) }
    (nextDispatch s).any (fun d => (s.launch? 1).any (fun l => (l.nodes[d.node]?).any (fun n =>
      (s.recorded l d.node n).any (fun x => x.id == ⟨d.launch, d.lcore⟩)))) = true := by decide +kernel
end

section
/-! PROOFS. Buffer instructions (01 R27, 07 R220 to R222). -/
namespace Sys2Proof.Machine

/-! ## A word whose effect is a change of its context -/

/-- A change of a context that leaves what the shell of a word reads after the effect: its name, its tokens, its pending transfers. -/
structure Ctx.LeavesShell (f : Ctx → Ctx) : Prop where
  id : ∀ c, (f c).id = c.id
  tok : ∀ c, (f c).tok = c.tok
  pend : ∀ c q, ((f c).seq q).pend = (c.seq q).pend

theorem Ctx.LeavesShell.tokens {f : Ctx → Ctx} (hf : Ctx.LeavesShell f) (c : Ctx) (i : Nat) : (f c).tokens i = c.tokens i := by
  simp only [Ctx.tokens, hf.tok]

/-- A word of L, S or K whose effect is such a change completes. -/
theorem runWord_does {s : State} {q : SeqId} {qp tk : BitVec 3} {words : Nat} {op : M Unit} {f : Ctx → Ctx} (hi : s.Issues q qp tk)
    (hf : Ctx.LeavesShell f) (hop : op (s.started q tk) = .ok () { s.started q tk with cx := f (s.started q tk).cx }) :
    runWord qp tk words op s = s.does q tk words (fun u => { u with cx := f u.cx }) := by
  refine runWord_ok hi hop ?_ hi.focus ?_ ?_
  · simp [hf.id, State.started]
  · intro i hp
    have room := hi.room_taken hp
    simpa [hf.tokens, State.started] using room
  · cases hp : (s.cx.seq q).pend <;> simp [hf.pend, State.started, hp]

theorem runLS_does {s : State} {q : SeqId} {h : Hq} {words : Nat} {op : M Unit} {f : Ctx → Ctx} (hq : q = .l ∨ q = .s)
    (hi : s.Issues q h.qp h.tk) (hf : Ctx.LeavesShell f)
    (hop : op (s.started q h.tk) = .ok () { s.started q h.tk with cx := f (s.started q h.tk).cx }) :
    runLS h words op s = .next (s.does q h.tk words (fun u => { u with cx := f u.cx })) := by
  unfold runLS; rw [if_pos (by rw [hi.focus]; exact hq), runWord_does hi hf hop]

theorem runL_does {s : State} {h : Hq} {words : Nat} {op : M Unit} {f : Ctx → Ctx} (hi : s.Issues .l h.qp h.tk)
    (hf : Ctx.LeavesShell f) (hop : op (s.started .l h.tk) = .ok () { s.started .l h.tk with cx := f (s.started .l h.tk).cx }) :
    runL h words op s = .next (s.does .l h.tk words (fun u => { u with cx := f u.cx })) := by
  unfold runL; rw [if_pos hi.focus, runWord_does hi hf hop]

theorem Ctx.leavesShell_id : Ctx.LeavesShell (fun c => c) := ⟨fun _ => rfl, fun _ => rfl, fun _ _ => rfl⟩

theorem Ctx.leavesShell_wLS (q : SeqId) (n : BitVec 4) (v : DWord) : Ctx.LeavesShell (fun c => c.wLS q n v) := by
  constructor <;> intros <;> unfold Ctx.wLS <;> split <;> simp

/-- A buffer record changed alters of a sequencer `met` alone. -/
theorem Ctx.setBuf_seq_pend (c : Ctx) (b : BitVec 6) (r : Buffer) (q : SeqId) : ((c.setBuf b r).seq q).pend = (c.seq q).pend := by
  cases q <;> simp only [Ctx.setBuf, Ctx.updSeqs, Ctx.seq] <;> split <;> rfl

theorem Ctx.leavesShell_setBuf (b : BitVec 6) (r : Buffer) : Ctx.LeavesShell (fun c => c.setBuf b r) :=
  ⟨fun _ => rfl, fun _ => rfl, fun c q => c.setBuf_seq_pend b r q⟩

/-! ## The machine that an effect finds -/

@[simp] theorem State.started_buf (s : State) (q : SeqId) (tk : BitVec 3) (b : BitVec 6) : (s.started q tk).cx.buf b = s.cx.buf b := by
  simp [State.started, Ctx.buf]

@[simp] theorem State.started_seq (s : State) (q r : SeqId) (tk : BitVec 3) : (s.started q tk).cx.seq r = s.cx.seq r := by
  simp [State.started]

@[simp] theorem State.started_cur (s : State) (q : SeqId) (tk : BitVec 3) : (s.started q tk).cur = s.cur := rfl

/-- A token that is taken opens no plan. -/
theorem State.unplanned.started {s : State} (h : s.unplanned) (q : SeqId) (tk : BitVec 3) : (s.started q tk).unplanned := by
  unfold State.unplanned at h ⊢
  simpa [State.started, Ctx.onBcast, State.planOpen] using h

@[simp] theorem State.ctx?_focus (s : State) : s.ctx? s.cx.id = some s.cx := by simp [State.ctx?, State.ctxs]

/-- The register that L or S writes (07 R204, 09 R260). -/
theorem setYz_run (n : BitVec 4) (v : DWord) (s : State) : setYz n v s = .ok () { s with cx := s.cx.wLS s.cur n v } := rfl

/-! ## Accesses to a buffer -/

/-- A buffer of the context in focus that is declared and allows the access makes the access's transition (01 R27). -/
theorem bufAccess_run {s : State} {b : BitVec 6} {agent acc : Nat} (hd : (s.cx.buf b).declared = true)
    (hl : (s.cx.buf b).legal agent acc = true) :
    bufAccess s.cx.id b agent acc s = .ok () { s with cx := s.cx.setBuf b ((s.cx.buf b).after acc) } := by
  have check : bufCheck s.cx.id b agent acc s = .ok () s := by
    unfold bufCheck; simp [hd, hl]
  unfold bufAccess
  rw [bind_ok check, modify_run, State.updCtx_focus]

/-- No other declared buffer holds a byte of the one to be declared (07 R220). -/
theorem bufNums_any_overlap {c : Ctx} {b : BitVec 6} {off n : Nat}
    (h : ∀ i, i ≠ b → (c.buf i).declared = true → off + n ≤ (c.buf i).off64 ∨ (c.buf i).off64 + (c.buf i).len64 ≤ off) :
    bufNums.any (fun i => i != b && (c.buf i).declared &&
      decide ((c.buf i).off64 < off + n) && decide (off < (c.buf i).off64 + (c.buf i).len64)) = false := by
  rw [List.any_eq_false]
  intro i _ hi
  simp only [Bool.and_eq_true, bne_iff_ne, decide_eq_true_eq] at hi
  obtain ⟨⟨⟨hne, hdecl⟩, hbelow⟩, habove⟩ := hi
  rcases h i hne hdecl with h | h <;> omega

/-! ## The instructions -/

section
variable {s : State} {q : SeqId} {h : Hq}

theorem exec_bdecl {b : BitVec 6} {cons prod : BitVec 2} {len off : BitVec 16} (hi : s.Issues .l h.qp h.tk) (hu : s.unplanned)
    (hst : (s.cx.buf b).declared = true → (s.cx.buf b).st = 0) (hfit : off.toNat + (len.toNat + 1) ≤ 65536)
    (hfree : ∀ i, i ≠ b → (s.cx.buf i).declared = true → off.toNat + (len.toNat + 1) ≤ (s.cx.buf i).off64 ∨
      (s.cx.buf i).off64 + (s.cx.buf i).len64 ≤ off.toNat) :
    exec (.bdecl h b cons prod len off) s = .next (s.does .l h.tk 2 (fun u => { u with cx := u.cx.setBuf b ({
      declared := true, prod := prod, cons := cons, st := 0, off64 := off.toNat, len64 := len.toNat + 1, fp := 0 } : Buffer) })) := by
  refine runL_does hi (Ctx.leavesShell_setBuf b _) ?_
  have idle : ((s.cx.buf b).declared && (s.cx.buf b).st != 0) = false := by
    cases hd : (s.cx.buf b).declared <;> simp [hd, hst]
  have apart := bufNums_any_overlap (c := (s.started .l h.tk).cx) (b := b) (off := off.toNat) (n := len.toNat + 1)
    (fun i hne hd => by simpa using hfree i hne (by simpa using hd))
  rw [replayable_bind (hu.started .l h.tk), get_run]
  dsimp only
  rw [apart, State.started_buf, idle, decide_eq_false (by omega)]
  rfl

theorem exec_bwait {b : BitVec 6} {st : BitVec 2} (hq : q = .l ∨ q = .s) (hi : s.Issues q h.qp h.tk) (hd : (s.cx.buf b).declared = true)
    (hm : (s.cx.buf b).st = st ∨ (s.cx.seq q).met = true) : exec (.bwait h b st) s = .next (s.does q h.tk 1 id) := by
  refine runLS_does hq hi Ctx.leavesShell_id ?_
  have met : ((s.cx.buf b).st == st || (s.cx.seq q).met) = true := by simpa using hm
  rw [get_run, State.started_buf, State.started_cur, State.started_seq, hd, hi.focus, met]
  rfl

theorem exec_bstateRead {b : BitVec 6} {n : BitVec 4} (hq : q = .l ∨ q = .s) (hi : s.Issues q h.qp h.tk) :
    exec (.bstateRead h b n) s = .next (s.does q h.tk 1 (fun u => { u with cx := u.cx.wLS q n (s.cx.buf b).record })) := by
  have focus := hi.focus
  subst focus
  refine runLS_does hq hi (Ctx.leavesShell_wLS s.cur n _) ?_
  rw [get_run, State.started_buf, setYz_run]
  rfl

/-- An access that BSTATE makes for its sequencer completes (07 R222). -/
theorem runLS_bufAccess {b : BitVec 6} {acc : Nat} (hq : q = .l ∨ q = .s) (hi : s.Issues q h.qp h.tk) (hu : s.unplanned)
    (hd : (s.cx.buf b).declared = true) (hl : (s.cx.buf b).legal (agentNum q) acc = true) :
    runLS h 1 (do replayable; let s ← get; bufAccess s.cx.id b (agentNum s.cur) acc) s =
      .next (s.does q h.tk 1 (fun u => { u with cx := u.cx.setBuf b ((s.cx.buf b).after acc) })) := by
  refine runLS_does hq hi (Ctx.leavesShell_setBuf b _) ?_
  rw [replayable_bind (hu.started q h.tk), get_run, State.started_cur, hi.focus, bufAccess_run (by simpa using hd) (by simpa using hl),
    State.started_buf]

theorem exec_bstateFree {b : BitVec 6} (hq : q = .l ∨ q = .s) (hi : s.Issues q h.qp h.tk) (hu : s.unplanned)
    (hd : (s.cx.buf b).declared = true) (hst : (s.cx.buf b).st = 0) :
    exec (.bstateFree h b) s = .next (s.does q h.tk 1 (fun u => { u with cx := u.cx.setBuf b {} })) := by
  refine runLS_does hq hi (Ctx.leavesShell_setBuf b _) ?_
  rw [replayable_bind (hu.started q h.tk), get_run, State.started_buf, hd, hst]
  rfl
end

/-- Settles O31: each instruction is a change of its context alone, which the shell of an L or S word completes. -/
theorem bufferInstructionsComplete : Obligations.BufferInstructionsComplete := by
  intro s q h b n st cons prod len off hi bf put
  refine ⟨?_, fun hq => ⟨exec_bstateRead hq hi, exec_bwait hq hi, fun hu hd => ⟨?_, ?_, exec_bstateFree hq hi hu hd⟩⟩⟩
  · rintro rfl hu hst hfit hfree
    exact exec_bdecl hi hu hst hfit hfree
  · exact runLS_bufAccess hq hi hu hd
  · exact runLS_bufAccess hq hi hu hd

end Sys2Proof.Machine
end

section
/-! PROOFS. Power (16 R423 to R428; 01 R18). -/
namespace Sys2Proof.Machine

/-! ## A die at a boundary (16 R426) -/

/-- The die used no permit in the interval that ends: it neither took one nor had its grace interval. -/
def DiePower.idled (p : DiePower) : Bool := !p.took && !p.grace

/-- The permits that the die returns as the interval ends: one with its fourth idle interval. -/
def DiePower.returned (p : DiePower) : Nat := if p.idled = true ∧ p.idle = 3 then 1 else 0

/-- The die wants more than 2.0 GHz. -/
def DiePower.wants (p : DiePower) (claim : Nat) : Bool := decide (20 < min claim p.limit)

/-- The frequency of a die for the interval that begins. -/
def DiePower.granted (p : DiePower) (claim : Nat) (take : Bool) : Nat :=
  if take then min claim p.limit else if p.wants claim && !take && p.took then 22 else min 20 p.limit

/-- A die that takes a permit at the boundary, or does not; NEXT stays. -/
def DiePower.after (p : DiePower) (claim : Nat) (take : Bool) : DiePower :=
  { p with
    claim := claim, took := take, grace := p.wants claim && !take && p.took
    idle := if p.idled = true ∧ p.idle ≠ 3 then p.idle + 1 else 0
    target := p.granted claim take, freq := if p.phase = 0 then p.granted claim take else p.freq }

theorem countIdle_eq (p : DiePower) :
    countIdle p = ({ p with idle := if p.idled = true ∧ p.idle ≠ 3 then p.idle + 1 else 0 }, p.returned) := by
  unfold countIdle DiePower.returned DiePower.idled
  by_cases hi : (!p.took && !p.grace) = true
  · by_cases h3 : p.idle = 3 <;> simp [hi, h3]
  · simp [hi]

/-- The die of the interval that begins is the one that `after` says. -/
theorem setFreq_countIdle (p : DiePower) (claim : Nat) (take : Bool) :
    setFreq (countIdle p).1 claim (p.wants claim) take = p.after claim take := by
  rw [countIdle_eq]
  unfold setFreq DiePower.after DiePower.granted DiePower.setTo
  cases take
  · cases hg : p.wants claim && p.took <;> simp [hg]
  · simp

theorem setFreq_next (p : DiePower) (claim : Nat) (want take b : Bool) :
    setFreq { p with next := b } claim want take = { setFreq p claim want take with next := b } := by
  unfold setFreq; split_ifs <;> rfl

/-! ## A pool at a boundary -/

/-- The permits of a pool when its two dies have returned theirs: at most 64. -/
def refilled (pool : Nat) (p0 p1 : DiePower) : Nat := min (min (pool + p0.returned) 64 + p1.returned) 64

/-- A pool with enough permits serves its dies; the last one of two goes to the die of NEXT, which passes NEXT on; an empty pool denies
both. -/
theorem poolBoundary_eq (pool : Nat) (p0 p1 : DiePower) (c0 c1 : Nat) :
    poolBoundary pool p0 p1 c0 c1 =
      let full := refilled pool p0 p1
      let n := (if p0.wants c0 = true then 1 else 0) + (if p1.wants c1 = true then 1 else 0)
      if n ≤ full then (full - n, p0.after c0 (p0.wants c0), p1.after c1 (p1.wants c1))
      else if full = 1 then
        (0, { p0.after c0 p0.next with next := !p0.next }, { p1.after c1 (!p0.next) with next := p0.next })
      else (full, p0.after c0 false, p1.after c1 false) := by
  have ret0 : (countIdle p0).2 = p0.returned := by rw [countIdle_eq]
  have ret1 : (countIdle p1).2 = p1.returned := by rw [countIdle_eq]
  have next0 : (countIdle p0).1.next = p0.next := by rw [countIdle_eq]
  simp only [← setFreq_countIdle, ← next0, ← setFreq_next, refilled, ← ret0, ← ret1]
  rfl

/-- The same with what each die takes: a pool denies its dies where it holds one permit for two, or none, and a last permit for two goes
to the die of NEXT. -/
theorem poolBoundary_deals (pool : Nat) (p0 p1 : DiePower) (c0 c1 : Nat) :
    let full := refilled pool p0 p1
    let one := p0.wants c0 && p1.wants c1 && full == 1
    let denied := one || decide (full < (if p0.wants c0 then 1 else 0) + (if p1.wants c1 then 1 else 0))
    let take0 := if denied then one && p0.next else p0.wants c0
    let take1 := if denied then one && !p0.next else p1.wants c1
    poolBoundary pool p0 p1 c0 c1 = (full - (if take0 then 1 else 0) - (if take1 then 1 else 0),
      { p0.after c0 take0 with next := if one then !p0.next else p0.next },
      { p1.after c1 take1 with next := if one then p0.next else p1.next }) := by
  intro full one denied take0 take1
  rw [poolBoundary_eq]
  dsimp only
  by_cases enough : (if p0.wants c0 then 1 else 0) + (if p1.wants c1 then 1 else 0) ≤ full
  · have hone : one = false := by
      by_contra h
      simp only [Bool.not_eq_false, one, Bool.and_eq_true, beq_iff_eq] at h
      obtain ⟨⟨h0, h1⟩, hfull⟩ := h
      simp [h0, h1, hfull] at enough
    have hdenied : denied = false := by simpa [denied, hone] using enough
    have h0 : take0 = p0.wants c0 := by simp [take0, hdenied]
    have h1 : take1 = p1.wants c1 := by simp [take1, hdenied]
    rw [if_pos enough, hone, h0, h1, Nat.sub_add_eq]
    rfl
  · rw [if_neg enough]
    by_cases last : full = 1
    · have both : p0.wants c0 = true ∧ p1.wants c1 = true := by
        rw [last] at enough
        cases hw0 : p0.wants c0 <;> cases hw1 : p1.wants c1 <;> simp [hw0, hw1] at enough ⊢
      have hone : one = true := by simp [one, both, last]
      have h0 : take0 = p0.next := by simp [take0, denied, hone]
      have h1 : take1 = !p0.next := by simp [take1, denied, hone]
      rw [if_pos last, hone, h0, h1, last]
      cases p0.next <;> rfl
    · have hone : one = false := by simp [one, last]
      have hdenied : denied = true := by simpa [denied, hone] using enough
      have h0 : take0 = false := by simp [take0, hdenied, hone]
      have h1 : take1 = false := by simp [take1, hdenied, hone]
      rw [if_neg last, hone, h0, h1]
      rfl

/-! ## The events -/

theorem exec_intervalBoundary_due {s : State} (due : 64000 * (s.intervals + 1) ≤ s.clock) :
    exec .intervalBoundary s = .next ((List.range 8).foldl pairBoundary { s with intervals := s.intervals + 1 }) := by
  have isDue : s.boundaryDue = true := decide_eq_true due
  show execIntervalBoundary s = _
  unfold execIntervalBoundary; rw [if_pos isDue]

theorem exec_intervalBoundary_early {s : State} (early : s.clock < 64000 * (s.intervals + 1)) : exec .intervalBoundary s = .next s := by
  have notDue : s.boundaryDue = false := decide_eq_false (Nat.not_le.2 early)
  show execIntervalBoundary s = _
  unfold execIntervalBoundary; rw [notDue]; rfl

/-- A step that ends the present cycle takes the frequency that was set (01 R18). -/
theorem DiePower.step_freq {p : DiePower} (h : 160 ≤ p.phase + p.freq) : p.step.freq = p.target := if_pos h

theorem exec_thermalCapChange {d f : Nat} (hf : f ∈ clockSteps) (s : State) : exec (.thermalCapChange d f) s =
    .next { s with dies := modAt s.dies d (fun p => ({ p with limit := f } : DiePower).setTo (min p.target f)) } := by
  show execThermalCapChange d f s = _
  unfold execThermalCapChange; rw [if_pos (List.contains_iff_mem.2 hf)]

/-- Settles O54: the pools at a boundary are `poolBoundary_deals`, and `pairBoundary` writes what it answers to the two dies. -/
theorem powerEventsComplete : Obligations.PowerEventsComplete := by
  refine ⟨fun s => ⟨fun due => ?_, exec_intervalBoundary_early, fun d f hf => exec_thermalCapChange hf s⟩, poolBoundary_deals,
    fun p f h => ⟨rfl, DiePower.step_freq h⟩⟩
  rw [exec_intervalBoundary_due due]
  rfl

end Sys2Proof.Machine
end

section
/-! PROOFS. Device-fatal errors, calibration and spares (01 R33, R34; 13 R356; 14 R390 to R396). -/
namespace Sys2Proof.Machine

section
variable {s : State}

/-! ## Device-fatal errors and withdrawal -/

/-- The launches that a condition affects are lost, and what has detected it reports it (14 R385, R392). -/
theorem exec_deviceFatalError {f : Fatal} (hf : s.canFail f = true) : exec (.deviceFatalError f) s =
    let a := fatalAffects s f
    let u := fatalDisables f (s.loseLaunches a.1 a.2)
    .next { u with reports := u.reports ++ ((reportDie s f).toList.map (fun d => (d, a.2))) } := by
  have fails : ¬ (!s.canFail f) = true := by simp [hf]
  show execDeviceFatalError f s = _
  unfold execDeviceFatalError; rw [if_neg fails]

theorem exec_coreWithdrawal {d i : Nat} (hu : s.inUse (d, i) = true) (hs : ∀ c ∈ s.spareCores, c.1 ≠ d) :
    exec (.coreWithdrawal d i) s =
      .next ((s.loseLaunches (s.launchesWith (fun c => c.onCore (d, i))) 0x384).replaceCore (d, i) false) := by
  have noSpare : s.spareCores.any (fun c => c.1 == d) = false := List.any_eq_false.2 (fun c hc => by simpa using hs c hc)
  show execCoreWithdrawal d i s = _
  unfold execCoreWithdrawal; rw [noSpare, hu]; rfl

/-! ## Links -/

/-- A lane that fails while the link's spare lane is left, or once the link is out of routing, is counted alone (13 R356). -/
theorem exec_linkLaneFailure_counted {link : Nat} {lost : List Nat} (h : (look s.lanesFailed link).getD 0 ≠ 1) :
    exec (.linkLaneFailure link lost) s =
      .next { s with lanesFailed := upd s.lanesFailed link ((look s.lanesFailed link).getD 0 + 1) } := by
  show execLinkLaneFailure link lost s = _
  unfold execLinkLaneFailure; dsimp only; rw [if_neg h]

/-- A device to which no route remains is lost, and FD0 reports it. -/
def State.losesDevice (s : State) (d : Nat) : State :=
  let v := s.loseLaunches (s.toward d) 0x382
  { v with present := v.present.filter (· != d), reports := v.reports ++ [(Config.fabricDie0, 0x382)] }

/-- The second lane takes the link out of routing, and the devices behind it are lost in turn. -/
theorem exec_linkLaneFailure_lost {link : Nat} {lost : List Nat} (h : look s.lanesFailed link = some 1) :
    exec (.linkLaneFailure link lost) s =
      .next ((lost.filter (· != s.dev)).foldl State.losesDevice { s with lanesFailed := upd s.lanesFailed link 2 }) := by
  show execLinkLaneFailure link lost s = _
  unfold execLinkLaneFailure; rw [h]; rfl

/-! ## Calibration (14 R395) -/

theorem exec_calibrationRun {d i : Nat} (h : s.calibrationSlot = true) : exec (.calibrationRun d i) s = .next { s with
    calibrated := s.calibrated.filter (fun e => e.1 != (d, i)) ++ [((d, i), s.clock)]
    drifted := s.drifted.filter (· != (d, i)), skewed := s.skewed.filter (· != (d, i)) } := by
  show execCalibrationRun d i s = _
  unfold execCalibrationRun; rw [if_pos h]

theorem exec_calibrationStale_drift {d i : Nat} (h : s.drifted.contains (d, i) = false) :
    exec (.calibrationStale d i false) s = .next { s with drifted := s.drifted ++ [(d, i)] } := by
  show execCalibrationStale d i false s = _
  unfold execCalibrationStale; rw [h]; rfl

theorem exec_calibrationStale_skew {d i : Nat} (h : s.drifted.contains (d, i) = false) (hk : s.skewed.contains (d, i) = false) :
    exec (.calibrationStale d i true) s = .next { s with drifted := s.drifted ++ [(d, i)], skewed := s.skewed ++ [(d, i)] } := by
  show execCalibrationStale d i true s = _
  unfold execCalibrationStale; rw [h, hk]; rfl

/-! ## Spares (14 R396; 01 R33) -/

theorem exec_spareLine (h : s.calibrationSlot = true) :
    exec (.spareLineOrColumn none) s = .next { s with spareLines := s.spareLines - 1 } := by
  show execSpareLineOrColumn none s = _
  unfold execSpareLineOrColumn; rw [h]; rfl

theorem exec_spareColumn {c : Nat × Nat} (h : s.calibrationSlot = true) (hc : s.columnsUsed.contains c = false) :
    exec (.spareLineOrColumn (some c)) s = .next { s with columnsUsed := s.columnsUsed ++ [c] } := by
  show execSpareLineOrColumn (some c) s = _
  unfold execSpareLineOrColumn; rw [h]; dsimp only; rw [hc]; rfl

theorem exec_combLaserSwitch {n : Nat} (h : s.spareLaser = true) :
    exec (.combLaserSwitch n) s = .next { s with spareLaser := false, laser := s.clock + min n laserSwitchSteps } := by
  show execCombLaserSwitch n s = _
  unfold execCombLaserSwitch; rw [if_pos h]

/-- The contexts of a core stand still: none is in a plan, none has a window or a started copy, none drains. -/
def State.movable (s : State) (core : Nat × Nat) : Prop :=
  ∀ c ∈ s.ctxs, c.onCore core = true → s.inPlan c = false ∧ c.wins = [] ∧ c.copying = false ∧ c.draining = false

/-- Nothing on the core holds its move up. -/
theorem State.movable.any_busy {core : Nat × Nat} (h : s.movable core) :
    (s.ctxs.filter (fun c => c.onCore core)).any
      (fun c => s.inPlan c || !c.wins.isEmpty || c.copying || c.draining) = false := by
  refine List.any_eq_false.2 (fun c hc => ?_)
  obtain ⟨hmem, hon⟩ := List.mem_filter.1 hc
  obtain ⟨hplan, hwins, hcopy, hdrain⟩ := h c hmem hon
  simp [hplan, hwins, hcopy, hdrain]

/-- A context of a core stands on the die's core of another number. -/
def Ctx.movedTo (core : Nat × Nat) (j : Nat) (c : Ctx) : Ctx :=
  match c.place with
  | .bank d i b => if (d, i) = core then { c with place := .bank d j b } else c
  | _ => c

theorem exec_spareCoreMove {d i : Nat} {sp : Nat × Nat} (hu : s.inUse (d, i) = true)
    (hs : s.spareCores.find? (fun c => c.1 == d) = some sp) (hm : s.movable (d, i)) : exec (.spareCoreMove d i) s =
      let move := Ctx.movedTo (d, i) sp.2
      let u : State := { s with cx := move s.cx, others := s.others.map move, tiles := s.tiles.filter (fun e => e.core != (d, i)) }
      .next ((u.activate sp (u.activeBank (d, i))).replaceCore (d, i) true) := by
  show execSpareCoreMove d i s = _
  unfold execSpareCoreMove
  rw [hs]; dsimp only
  rw [hu, hm.any_busy]
  rfl
end

/-- Settles O53, event by event. -/
theorem errorsAndSparesProceed : Obligations.ErrorsAndSparesProceed := by
  intro s
  refine ⟨fun f hf => exec_deviceFatalError hf, fun d i hu hs => exec_coreWithdrawal hu hs, ?_, fun link lost h => exec_linkLaneFailure_lost h,
    fun d i slot => exec_calibrationRun (decide_eq_true slot),
    fun d i h => ⟨exec_calibrationStale_drift h, exec_calibrationStale_skew h⟩,
    fun slot => ⟨exec_spareLine (decide_eq_true slot), fun c hc => exec_spareColumn (decide_eq_true slot) hc⟩,
    fun n h => exec_combLaserSwitch h, fun d i sp hu hs hm => exec_spareCoreMove hu hs hm, fun n => rfl⟩
  rintro link lost _ rfl h
  exact exec_linkLaneFailure_counted h

end Sys2Proof.Machine
end

section
/-! PROOFS. The words of an instruction as fields apart from one another, and what a decoder reads of them (02 R44 to R58). -/
namespace Sys2Proof

/-! ## Words as fields -/

/-- A field of a word: the bits from `lo` up hold `v`. -/
structure Field where
  {k : Nat}
  lo : Nat
  v : BitVec k

/-- What the field adds to the number that its word is. -/
def Field.num (f : Field) : Nat := put f.v.toNat f.lo

/-- The word that holds the fields, and 0 elsewhere. -/
def wordOf (fs : List Field) : Nat := (fs.map Field.num).sum

/-- No bit is in both fields. -/
def Field.apart (f g : Field) : Bool := decide (f.lo + f.k ≤ g.lo) || decide (g.lo + g.k ≤ f.lo)

/-- No bit is in two of the fields. -/
def apart : List Field → Bool
  | [] => true
  | f :: fs => fs.all f.apart && apart fs

/-- The field's bits in the window of `k` bits from bit `lo` up. -/
def Field.part (f : Field) (lo k : Nat) : Nat := f.num / 2 ^ lo % 2 ^ k

/-- What the window of `k` bits from bit `lo` up shows of a field. -/
def Field.seen (f : Field) (lo k : Nat) : Nat :=
  if f.lo + f.k ≤ lo then 0
  else if lo + k ≤ f.lo then 0
  else if lo ≤ f.lo then (if f.lo + f.k ≤ lo + k then f.v.toNat * 2 ^ (f.lo - lo) else f.part lo k)
  else f.part lo k

/-- What the window shows of a word of fields. -/
def seenOf (fs : List Field) (lo k : Nat) : Nat := (fs.map (·.seen lo k)).sum

/-- The field of `k` bits at bit `lo`. -/
def fieldAt (lo k : Nat) : List Field → Option (BitVec k)
  | [] => none
  | f :: fs => if h : f.lo = lo ∧ f.k = k then some (f.v.cast h.2) else fieldAt lo k fs

theorem seenOf_nil (lo k : Nat) : seenOf [] lo k = 0 := by simp [seenOf]

theorem seenOf_cons (f : Field) (fs : List Field) (lo k : Nat) : seenOf (f :: fs) lo k = f.seen lo k + seenOf fs lo k := by
  simp [seenOf]

theorem Field.num_lt (f : Field) : f.num < 2 ^ (f.lo + f.k) := by
  rw [Nat.pow_add, Nat.mul_comm]; exact Nat.mul_lt_mul_of_pos_right f.v.isLt (Nat.two_pow_pos _)

theorem Field.window (f : Field) (lo k : Nat) : f.num / 2 ^ lo % 2 ^ k = f.seen lo k := by
  have hv := f.v.isLt
  unfold Field.seen
  split
  case isTrue below => rw [Nat.div_eq_of_lt (f.num_lt.trans_le (Nat.pow_le_pow_right (by decide) below)), Nat.zero_mod]
  case isFalse =>
  split
  case isTrue above =>
    obtain ⟨n, hn⟩ := Nat.exists_eq_add_of_le above
    unfold Field.num put
    rw [hn, Nat.pow_add, Nat.pow_add, Nat.mul_assoc, Nat.mul_left_comm, Nat.mul_div_cancel_left _ (Nat.two_pow_pos _), Nat.mul_left_comm,
      Nat.mul_mod_right]
  case isFalse =>
  split
  case isFalse => rfl
  case isTrue low =>
  split
  case isFalse => rfl
  case isTrue high =>
    obtain ⟨n, hn⟩ := Nat.exists_eq_add_of_le low
    unfold Field.num put
    rw [hn, Nat.add_sub_cancel_left, Nat.pow_add, Nat.mul_left_comm, Nat.mul_div_cancel_left _ (Nat.two_pow_pos _), Nat.mod_eq_of_lt]
    calc f.v.toNat * 2 ^ n < 2 ^ f.k * 2 ^ n := Nat.mul_lt_mul_of_pos_right hv (Nat.two_pow_pos _)
      _ = 2 ^ (f.k + n) := (Nat.pow_add ..).symm
      _ ≤ 2 ^ k := Nat.pow_le_pow_right (by decide) (by omega)

/-- A window of what lies below bit `m` and of what lies from it on shows both. -/
theorem window_add {a m : Nat} (ha : a < 2 ^ m) (c lo k : Nat) :
    (a + 2 ^ m * c) / 2 ^ lo % 2 ^ k = a / 2 ^ lo % 2 ^ k + 2 ^ m * c / 2 ^ lo % 2 ^ k := by
  rcases Nat.le_total m lo with h | h
  · obtain ⟨n, rfl⟩ := Nat.exists_eq_add_of_le h
    have small : a / 2 ^ (m + n) = 0 := Nat.div_eq_of_lt (ha.trans_le (Nat.pow_le_pow_right (by decide) h))
    rw [small, Nat.zero_mod, Nat.zero_add, Nat.pow_add, ← Nat.div_div_eq_div_mul, ← Nat.div_div_eq_div_mul,
      Nat.add_mul_div_left _ _ (Nat.two_pow_pos _), Nat.div_eq_of_lt ha, Nat.zero_add, Nat.mul_div_cancel_left _ (Nat.two_pow_pos _)]
  · obtain ⟨n, rfl⟩ := Nat.exists_eq_add_of_le h
    have low : a / 2 ^ lo < 2 ^ n := by rw [Nat.div_lt_iff_lt_mul (Nat.two_pow_pos _), ← Nat.pow_add, Nat.add_comm n]; exact ha
    rw [Nat.pow_add, Nat.mul_assoc, Nat.add_mul_div_left _ _ (Nat.two_pow_pos _), Nat.mul_div_cancel_left _ (Nat.two_pow_pos _)]
    rcases Nat.le_total k n with hk | hk
    · obtain ⟨d, rfl⟩ := Nat.exists_eq_add_of_le hk
      rw [Nat.pow_add, Nat.mul_assoc, Nat.add_mul_mod_self_left, Nat.mul_mod_right, Nat.add_zero]
    · obtain ⟨d, rfl⟩ := Nat.exists_eq_add_of_le hk
      rw [Nat.mod_eq_of_lt (low.trans_le (Nat.pow_le_pow_right (by decide) hk)), Nat.pow_add, Nat.mul_mod_mul_left]
      rw [Nat.mod_mul, Nat.add_mul_mod_self_left, Nat.mod_eq_of_lt low, Nat.add_mul_div_left _ _ (Nat.two_pow_pos _),
        Nat.div_eq_of_lt low, Nat.zero_add]

/-- A window of a field put where a word holds 0 shows both. -/
theorem window_fill (f : Field) {w : Nat} (hole : w / 2 ^ f.lo % 2 ^ f.k = 0) (lo k : Nat) :
    (f.num + w) / 2 ^ lo % 2 ^ k = f.seen lo k + w / 2 ^ lo % 2 ^ k := by
  have low : w % 2 ^ f.lo < 2 ^ f.lo := Nat.mod_lt _ (Nat.two_pow_pos _)
  have hw : w = w % 2 ^ f.lo + 2 ^ (f.lo + f.k) * (w / 2 ^ f.lo / 2 ^ f.k) := by
    have h1 := Nat.mod_add_div w (2 ^ f.lo)
    have h2 := Nat.mod_add_div (w / 2 ^ f.lo) (2 ^ f.k)
    rw [hole, Nat.zero_add] at h2
    rw [Nat.pow_add, Nat.mul_assoc, h2, h1]
  generalize w / 2 ^ f.lo / 2 ^ f.k = c at hw
  generalize w % 2 ^ f.lo = a at low hw
  have wide : a < 2 ^ (f.lo + f.k) := low.trans_le (Nat.pow_le_pow_right (by decide) (Nat.le_add_right ..))
  have sum : f.num + w = a + 2 ^ f.lo * (f.v.toNat + 2 ^ f.k * c) := by
    rw [hw, Field.num, put, Nat.pow_add]; ring
  have num : f.num = 2 ^ f.lo * f.v.toNat := Nat.mul_comm _ _
  calc (f.num + w) / 2 ^ lo % 2 ^ k
      = a / 2 ^ lo % 2 ^ k + (f.num + 2 ^ (f.lo + f.k) * c) / 2 ^ lo % 2 ^ k := by
        rw [sum, window_add low, num, Nat.pow_add, Nat.mul_add, Nat.mul_assoc]
    _ = f.seen lo k + w / 2 ^ lo % 2 ^ k := by
        rw [window_add f.num_lt, f.window, hw, window_add wide]; ring

theorem wordOf_cons (f : Field) (fs : List Field) : wordOf (f :: fs) = f.num + wordOf fs := rfl

theorem wordOf_append (fs gs : List Field) : wordOf (fs ++ gs) = wordOf fs + wordOf gs := by
  rw [wordOf, List.map_append, List.sum_append]; rfl

theorem apart_cons {f : Field} {fs : List Field} : apart (f :: fs) = true ↔ (∀ g ∈ fs, f.apart g = true) ∧ apart fs = true := by
  simp [apart]

theorem Field.apart_comm (f g : Field) : f.apart g = g.apart f := Bool.or_comm _ _

/-- A field shows nothing where one apart from it stands. -/
theorem Field.seen_apart {f g : Field} (h : f.apart g = true) : g.seen f.lo f.k = 0 := by
  rcases (by simpa [Field.apart] using h : f.lo + f.k ≤ g.lo ∨ g.lo + g.k ≤ f.lo) with h | h
  · unfold Field.seen; rw [if_pos h, ite_self]
  · exact if_pos h

theorem seenOf_apart {f : Field} {fs : List Field} (h : ∀ g ∈ fs, f.apart g = true) : seenOf fs f.lo f.k = 0 :=
  List.sum_eq_zero (by simpa using fun g hg => Field.seen_apart (h g hg))

/-- A window of fields that are apart shows what it shows of each. -/
theorem window_wordOf {fs : List Field} (h : apart fs = true) (lo k : Nat) : wordOf fs / 2 ^ lo % 2 ^ k = seenOf fs lo k := by
  induction fs generalizing lo k with
  | nil => simp [wordOf, seenOf]
  | cons f fs ih =>
    obtain ⟨hf, hfs⟩ := apart_cons.1 h
    have hole : wordOf fs / 2 ^ f.lo % 2 ^ f.k = 0 := by rw [ih hfs, seenOf_apart hf]
    rw [wordOf_cons, window_fill f hole, ih hfs]; rfl

theorem mem_of_fieldAt {fs : List Field} {lo k : Nat} {v : BitVec k} (hv : fieldAt lo k fs = some v) : ∃ g ∈ fs, g.lo = lo ∧ g.k = k := by
  induction fs with
  | nil => cases hv
  | cons f fs ih =>
    unfold fieldAt at hv
    split at hv
    case isTrue here => exact ⟨f, List.mem_cons_self, here⟩
    case isFalse => exact (ih hv).imp fun g hg => ⟨List.mem_cons_of_mem f hg.1, hg.2⟩

/-- Where a field stands, the window on it shows it alone. -/
theorem seenOf_of_fieldAt {fs : List Field} (h : apart fs = true) {lo k : Nat} {v : BitVec k} (hv : fieldAt lo k fs = some v) :
    seenOf fs lo k = v.toNat := by
  induction fs with
  | nil => cases hv
  | cons f fs ih =>
    obtain ⟨hf, hfs⟩ := apart_cons.1 h
    show f.seen lo k + seenOf fs lo k = _
    unfold fieldAt at hv
    split at hv
    case isTrue here =>
      obtain ⟨rfl, rfl⟩ := here
      cases hv
      have own : f.seen f.lo f.k = f.v.toNat := by
        rw [← f.window, Field.num, put, Nat.mul_div_cancel _ (Nat.two_pow_pos _), Nat.mod_eq_of_lt f.v.isLt]
      rw [own, seenOf_apart hf]; rfl
    case isFalse =>
      obtain ⟨g, hg, rfl, rfl⟩ := mem_of_fieldAt hv
      rw [ih hfs hv, Field.seen_apart (g.apart_comm f ▸ hf g hg), Nat.zero_add]

/-- What a decoder reads of a word of fields: the field that stands there, or else what the window shows. -/
def readAt (fs : List Field) (lo k : Nat) : BitVec k :=
  match fieldAt lo k fs with
  | some v => v
  | none => BitVec.ofNat k (seenOf fs lo k)

theorem fld_wordOf {fs : List Field} (h : apart fs = true) (lo k : Nat) : fld (wordOf fs) lo k = readAt fs lo k := by
  apply BitVec.eq_of_toNat_eq
  unfold fld readAt
  rw [BitVec.toNat_ofNat, window_wordOf h]
  cases hv : fieldAt lo k fs with
  | none => rw [BitVec.toNat_ofNat, ← window_wordOf h, Nat.mod_mod]
  | some v => exact seenOf_of_fieldAt h hv

/-! ## The fields of every instruction -/

def Hd.fields (h : Hd) : List Field := [⟨4, h.qp⟩, ⟨3, h.stop⟩, ⟨0, h.tk⟩]
def Hq.fields (h : Hq) : List Field := [⟨4, h.qp⟩, ⟨0, h.tk⟩]
def Tl.fields (h : Tl) : List Field := [⟨3, h.stop⟩, ⟨0, h.tk⟩]

theorem Hd.bits_eq (h : Hd) : h.bits = wordOf h.fields := by simp [Hd.fields, wordOf, Field.num, put, Hd.bits, Nat.add_assoc]
theorem Hq.bits_eq (h : Hq) : h.bits = wordOf h.fields := by simp [Hq.fields, wordOf, Field.num, put, Hq.bits]
theorem Tl.bits_eq (h : Tl) : h.bits = wordOf h.fields := by simp [Tl.fields, wordOf, Field.num, put, Tl.bits]

/-- A number is put together of fields, term by term as `encode` writes it. -/
inductive SumsTo : Nat → List Field → Prop
  | none : SumsTo 0 []
  | op (f : Field) {n : Nat} : n = f.num → SumsTo n [f]
  | add (f : Field) {n c : Nat} {fs : List Field} : SumsTo n fs → c = f.num → SumsTo (n + c) (f :: fs)
  | head {n b : Nat} {fs hs : List Field} : SumsTo n fs → b = wordOf hs → SumsTo (n + b) (hs ++ fs)

theorem SumsTo.eq_wordOf {n : Nat} {fs : List Field} (h : SumsTo n fs) : n = wordOf fs := by
  induction h with
  | none => rfl
  | op f hn => simp [hn, wordOf]
  | add f _ hc ih => rw [ih, hc, wordOf_cons, Nat.add_comm]
  | head _ hb ih => rw [ih, wordOf_append, Nat.add_comm, hb]

/-- The fields of the words of an instruction, its opcode first (02 R45, R47, R53 to R58); fields that hold 0 alone are left out, and an
event has none. -/
def Instr.fields (i : Instr) : List Field :=
  match i with
  | .nop h => h.fields ++ [⟨26, 0x01#6⟩]
  | .halt h => h.fields ++ [⟨26, 0x02#6⟩]
  | .fence h c o => h.fields ++ [⟨21, o⟩, ⟨23, c⟩, ⟨26, 0x03#6⟩]
  | .tkpost h f n => h.fields ++ [⟨20, n⟩, ⟨24, f⟩, ⟨26, 0x04#6⟩]
  | .tkwait h f n => h.fields ++ [⟨20, n⟩, ⟨24, f⟩, ⟨26, 0x05#6⟩]
  | .pbt h j m b imm => h.fields ++ [⟨32, imm⟩, ⟨18, b⟩, ⟨23, m⟩, ⟨24, j⟩, ⟨26, 0x06#6⟩]
  | .brx h j => h.fields ++ [⟨24, j⟩, ⟨26, 0x07#6⟩]
  | .brxd h j b => h.fields ++ [⟨18, b⟩, ⟨24, j⟩, ⟨26, 0x08#6⟩]
  | .add h d a b => h.fields ++ [⟨11, b⟩, ⟨16, a⟩, ⟨21, d⟩, ⟨26, 0x10#6⟩]
  | .sub h d a b => h.fields ++ [⟨11, b⟩, ⟨16, a⟩, ⟨21, d⟩, ⟨7, 1#4⟩, ⟨26, 0x10#6⟩]
  | .and h d a b => h.fields ++ [⟨11, b⟩, ⟨16, a⟩, ⟨21, d⟩, ⟨7, 2#4⟩, ⟨26, 0x10#6⟩]
  | .or h d a b => h.fields ++ [⟨11, b⟩, ⟨16, a⟩, ⟨21, d⟩, ⟨7, 3#4⟩, ⟨26, 0x10#6⟩]
  | .xor h d a b => h.fields ++ [⟨11, b⟩, ⟨16, a⟩, ⟨21, d⟩, ⟨7, 4#4⟩, ⟨26, 0x10#6⟩]
  | .shl h d a b => h.fields ++ [⟨11, b⟩, ⟨16, a⟩, ⟨21, d⟩, ⟨7, 5#4⟩, ⟨26, 0x10#6⟩]
  | .shr h d a b => h.fields ++ [⟨11, b⟩, ⟨16, a⟩, ⟨21, d⟩, ⟨7, 6#4⟩, ⟨26, 0x10#6⟩]
  | .sra h d a b => h.fields ++ [⟨11, b⟩, ⟨16, a⟩, ⟨21, d⟩, ⟨7, 7#4⟩, ⟨26, 0x10#6⟩]
  | .mul h d a b => h.fields ++ [⟨11, b⟩, ⟨16, a⟩, ⟨21, d⟩, ⟨7, 8#4⟩, ⟨26, 0x10#6⟩]
  | .mulh h d a b => h.fields ++ [⟨11, b⟩, ⟨16, a⟩, ⟨21, d⟩, ⟨7, 9#4⟩, ⟨26, 0x10#6⟩]
  | .mulhu h d a b => h.fields ++ [⟨11, b⟩, ⟨16, a⟩, ⟨21, d⟩, ⟨7, 10#4⟩, ⟨26, 0x10#6⟩]
  | .div h d a b => h.fields ++ [⟨11, b⟩, ⟨16, a⟩, ⟨21, d⟩, ⟨7, 11#4⟩, ⟨26, 0x10#6⟩]
  | .divu h d a b => h.fields ++ [⟨11, b⟩, ⟨16, a⟩, ⟨21, d⟩, ⟨7, 12#4⟩, ⟨26, 0x10#6⟩]
  | .rem h d a b => h.fields ++ [⟨11, b⟩, ⟨16, a⟩, ⟨21, d⟩, ⟨7, 13#4⟩, ⟨26, 0x10#6⟩]
  | .min h d a b => h.fields ++ [⟨11, b⟩, ⟨16, a⟩, ⟨21, d⟩, ⟨7, 14#4⟩, ⟨26, 0x10#6⟩]
  | .max h d a b => h.fields ++ [⟨11, b⟩, ⟨16, a⟩, ⟨21, d⟩, ⟨7, 15#4⟩, ⟨26, 0x10#6⟩]
  | .addi h d a i => h.fields ++ [⟨7, i⟩, ⟨16, a⟩, ⟨21, d⟩, ⟨26, 0x11#6⟩]
  | .andi h d a i => h.fields ++ [⟨7, i⟩, ⟨16, a⟩, ⟨21, d⟩, ⟨26, 0x12#6⟩]
  | .ori h d a i => h.fields ++ [⟨7, i⟩, ⟨16, a⟩, ⟨21, d⟩, ⟨26, 0x13#6⟩]
  | .xori h d a i => h.fields ++ [⟨7, i⟩, ⟨16, a⟩, ⟨21, d⟩, ⟨26, 0x14#6⟩]
  | .shli h d a i => h.fields ++ [⟨7, i⟩, ⟨16, a⟩, ⟨21, d⟩, ⟨26, 0x15#6⟩]
  | .shri h d a i => h.fields ++ [⟨7, i⟩, ⟨16, a⟩, ⟨21, d⟩, ⟨26, 0x16#6⟩]
  | .srai h d a i => h.fields ++ [⟨7, i⟩, ⟨16, a⟩, ⟨21, d⟩, ⟨26, 0x17#6⟩]
  | .movi h d imm => h.fields ++ [⟨32, imm⟩, ⟨21, d⟩, ⟨26, 0x18#6⟩]
  | .movhi h d a imm => h.fields ++ [⟨32, imm⟩, ⟨16, a⟩, ⟨21, d⟩, ⟨26, 0x19#6⟩]
  | .cmp h d a b c => h.fields ++ [⟨7, c⟩, ⟨11, b⟩, ⟨16, a⟩, ⟨21, d⟩, ⟨26, 0x1A#6⟩]
  | .cmpi h d a c imm => h.fields ++ [⟨32, imm⟩, ⟨7, c⟩, ⟨16, a⟩, ⟨21, d⟩, ⟨26, 0x1B#6⟩]
  | .qand h d a b => h.fields ++ [⟨11, b⟩, ⟨16, a⟩, ⟨21, d⟩, ⟨26, 0x1C#6⟩]
  | .qor h d a b => h.fields ++ [⟨11, b⟩, ⟨16, a⟩, ⟨21, d⟩, ⟨7, 1#4⟩, ⟨26, 0x1C#6⟩]
  | .qnot h d a => h.fields ++ [⟨16, a⟩, ⟨21, d⟩, ⟨7, 2#4⟩, ⟨26, 0x1C#6⟩]
  | .ldx h d a pol so sz imm => h.fields ++ [⟨32, imm⟩, ⟨7, sz⟩, ⟨10, so⟩, ⟨14, pol⟩, ⟨16, a⟩, ⟨21, d⟩, ⟨26, 0x20#6⟩]
  | .stx h d a pol so sz imm => h.fields ++ [⟨32, imm⟩, ⟨7, sz⟩, ⟨10, so⟩, ⟨14, pol⟩, ⟨16, a⟩, ⟨21, d⟩, ⟨26, 0x21#6⟩]
  | .stxTag h d a so imm => h.fields ++ [⟨32, imm⟩, ⟨10, so⟩, ⟨16, a⟩, ⟨21, d⟩, ⟨7, 4#3⟩, ⟨26, 0x21#6⟩]
  | .ldxp h d a pol so sz imm => h.fields ++ [⟨32, imm⟩, ⟨7, sz⟩, ⟨10, so⟩, ⟨14, pol⟩, ⟨16, a⟩, ⟨21, d⟩, ⟨26, 0x22#6⟩]
  | .amo h d a so sz op => h.fields ++ [⟨32, op⟩, ⟨7, sz⟩, ⟨10, so⟩, ⟨16, a⟩, ⟨21, d⟩, ⟨26, 0x23#6⟩]
  | .cinv h a b c => h.fields ++ [⟨7, c⟩, ⟨11, b⟩, ⟨16, a⟩, ⟨26, 0x24#6⟩]
  | .cwb h a b c => h.fields ++ [⟨7, c⟩, ⟨11, b⟩, ⟨16, a⟩, ⟨26, 0x25#6⟩]
  | .pin h a b => h.fields ++ [⟨11, b⟩, ⟨16, a⟩, ⟨26, 0x26#6⟩]
  | .unpin h a b => h.fields ++ [⟨11, b⟩, ⟨16, a⟩, ⟨26, 0x27#6⟩]
  | .mfs h d i => h.fields ++ [⟨7, i⟩, ⟨21, d⟩, ⟨26, 0x28#6⟩]
  | .mts h a i => h.fields ++ [⟨7, i⟩, ⟨16, a⟩, ⟨26, 0x29#6⟩]
  | .rdplan h d f => h.fields ++ [⟨7, f⟩, ⟨21, d⟩, ⟨26, 0x2A#6⟩]
  | .trap h i => h.fields ++ [⟨7, i⟩, ⟨26, 0x2B#6⟩]
  | .brk h i => h.fields ++ [⟨7, i⟩, ⟨26, 0x2C#6⟩]
  | .garr h d c g => h.fields ++ [⟨7, g⟩, ⟨15, c⟩, ⟨21, d⟩, ⟨26, 0x30#6⟩]
  | .gwait h a c g => h.fields ++ [⟨7, g⟩, ⟨15, c⟩, ⟨16, a⟩, ⟨26, 0x31#6⟩]
  | .gsync h d c g => h.fields ++ [⟨7, g⟩, ⟨15, c⟩, ⟨21, d⟩, ⟨26, 0x32#6⟩]
  | .launch h d a => h.fields ++ [⟨16, a⟩, ⟨21, d⟩, ⟨26, 0x34#6⟩]
  | .spawn h => h.fields ++ [⟨26, 0x35#6⟩]
  | .cpy h d a b p c st => h.fields ++ [⟨7, st⟩, ⟨8, c⟩, ⟨9, p⟩, ⟨11, b⟩, ⟨16, a⟩, ⟨21, d⟩, ⟨26, 0x36#6⟩]
  | .cpyc h d a b first last c imm => h.fields ++ [⟨32, imm⟩, ⟨7, c⟩, ⟨9, last⟩, ⟨10, first⟩, ⟨11, b⟩, ⟨16, a⟩, ⟨21, d⟩, ⟨26, 0x37#6⟩]
  | .cpywait h d a => h.fields ++ [⟨16, a⟩, ⟨21, d⟩, ⟨26, 0x38#6⟩]
  | .cpywaitAll h d => h.fields ++ [⟨21, d⟩, ⟨7, 1#9⟩, ⟨26, 0x38#6⟩]
  | .cpywaitChain h d => h.fields ++ [⟨21, d⟩, ⟨7, 2#9⟩, ⟨26, 0x38#6⟩]
  | .ctreadyArm h a b => h.fields ++ [⟨11, b⟩, ⟨16, a⟩, ⟨26, 0x39#6⟩]
  | .ctreadyFire h b => h.fields ++ [⟨11, b⟩, ⟨7, 1#4⟩, ⟨26, 0x39#6⟩]
  | .ctreadyGo h a b => h.fields ++ [⟨11, b⟩, ⟨16, a⟩, ⟨7, 2#4⟩, ⟨26, 0x39#6⟩]
  | .ctwait h d a => h.fields ++ [⟨16, a⟩, ⟨21, d⟩, ⟨26, 0x3A#6⟩]
  | .ctwaitTest h d a => h.fields ++ [⟨16, a⟩, ⟨21, d⟩, ⟨7, 1#9⟩, ⟨26, 0x3A#6⟩]
  | .boostRel h d => h.fields ++ [⟨21, d⟩, ⟨26, 0x3B#6⟩]
  | .boostMid h d => h.fields ++ [⟨21, d⟩, ⟨7, 1#14⟩, ⟨26, 0x3B#6⟩]
  | .boostMax h d => h.fields ++ [⟨21, d⟩, ⟨7, 2#14⟩, ⟨26, 0x3B#6⟩]
  | .freezeMark h a => h.fields ++ [⟨16, a⟩, ⟨26, 0x3C#6⟩]
  | .freeze h d a b => h.fields ++ [⟨11, b⟩, ⟨16, a⟩, ⟨21, d⟩, ⟨7, 1#4⟩, ⟨26, 0x3C#6⟩]
  | .freezeDrop h a => h.fields ++ [⟨16, a⟩, ⟨7, 2#4⟩, ⟨26, 0x3C#6⟩]
  | .freezeCont h a => h.fields ++ [⟨16, a⟩, ⟨7, 3#4⟩, ⟨26, 0x3C#6⟩]
  | .thaw h d a b => h.fields ++ [⟨11, b⟩, ⟨16, a⟩, ⟨21, d⟩, ⟨26, 0x3D#6⟩]
  | .resume h a => h.fields ++ [⟨16, a⟩, ⟨26, 0x3E#6⟩]
  | .resumeTerm h a => h.fields ++ [⟨16, a⟩, ⟨7, 1#9⟩, ⟨26, 0x3E#6⟩]
  | .yAdd h d a b => h.fields ++ [⟨14, b⟩, ⟨18, a⟩, ⟨22, d⟩, ⟨26, 0x10#6⟩]
  | .ySub h d a b => h.fields ++ [⟨14, b⟩, ⟨18, a⟩, ⟨22, d⟩, ⟨7, 1#7⟩, ⟨26, 0x10#6⟩]
  | .yAnd h d a b => h.fields ++ [⟨14, b⟩, ⟨18, a⟩, ⟨22, d⟩, ⟨7, 2#7⟩, ⟨26, 0x10#6⟩]
  | .yOr h d a b => h.fields ++ [⟨14, b⟩, ⟨18, a⟩, ⟨22, d⟩, ⟨7, 3#7⟩, ⟨26, 0x10#6⟩]
  | .yXor h d a b => h.fields ++ [⟨14, b⟩, ⟨18, a⟩, ⟨22, d⟩, ⟨7, 4#7⟩, ⟨26, 0x10#6⟩]
  | .yShl h d a b => h.fields ++ [⟨14, b⟩, ⟨18, a⟩, ⟨22, d⟩, ⟨7, 5#7⟩, ⟨26, 0x10#6⟩]
  | .yShr h d a b => h.fields ++ [⟨14, b⟩, ⟨18, a⟩, ⟨22, d⟩, ⟨7, 6#7⟩, ⟨26, 0x10#6⟩]
  | .ySra h d a b => h.fields ++ [⟨14, b⟩, ⟨18, a⟩, ⟨22, d⟩, ⟨7, 7#7⟩, ⟨26, 0x10#6⟩]
  | .yMin h d a b => h.fields ++ [⟨14, b⟩, ⟨18, a⟩, ⟨22, d⟩, ⟨7, 8#7⟩, ⟨26, 0x10#6⟩]
  | .yMax h d a b => h.fields ++ [⟨14, b⟩, ⟨18, a⟩, ⟨22, d⟩, ⟨7, 9#7⟩, ⟨26, 0x10#6⟩]
  | .yAddi h d a i => h.fields ++ [⟨7, i⟩, ⟨18, a⟩, ⟨22, d⟩, ⟨26, 0x11#6⟩]
  | .yMovi h d imm => h.fields ++ [⟨32, imm⟩, ⟨22, d⟩, ⟨26, 0x12#6⟩]
  | .yCmp h d a b c => h.fields ++ [⟨7, c⟩, ⟨14, b⟩, ⟨18, a⟩, ⟨22, d⟩, ⟨26, 0x13#6⟩]
  | .yMfs h d i => h.fields ++ [⟨7, i⟩, ⟨22, d⟩, ⟨26, 0x20#6⟩]
  | .sbind h b st epi bk imm => h.fields ++ [⟨32, imm⟩, ⟨7, bk⟩, ⟨8, epi⟩, ⟨16, st⟩, ⟨20, b⟩, ⟨26, 0x14#6⟩]
  | .sset h st n f imm => h.fields ++ [⟨32, imm⟩, ⟨7, f⟩, ⟨12, n⟩, ⟨16, st⟩, ⟨26, 0x15#6⟩]
  | .lds h st n l => h.fields ++ [⟨7, l⟩, ⟨12, n⟩, ⟨16, st⟩, ⟨26, 0x16#6⟩]
  | .ldso h st n c l => h.fields ++ [⟨7, l⟩, ⟨8, c⟩, ⟨12, n⟩, ⟨16, st⟩, ⟨26, 0x17#6⟩]
  | .ldg h st n l => h.fields ++ [⟨7, l⟩, ⟨12, n⟩, ⟨16, st⟩, ⟨26, 0x18#6⟩]
  | .ldz h b st n l => h.fields ++ [⟨7, l⟩, ⟨12, n⟩, ⟨16, st⟩, ⟨20, b⟩, ⟨26, 0x19#6⟩]
  | .ldb h b st n l => h.fields ++ [⟨7, l⟩, ⟨12, n⟩, ⟨16, st⟩, ⟨20, b⟩, ⟨26, 0x1A#6⟩]
  | .pref h st n => h.fields ++ [⟨12, n⟩, ⟨16, st⟩, ⟨26, 0x1B#6⟩]
  | .bdecl h b cons prod len off => h.fields ++ [⟨32, off⟩, ⟨48, len⟩, ⟨7, prod⟩, ⟨9, cons⟩, ⟨20, b⟩, ⟨26, 0x1C#6⟩]
  | .bwait h b t => h.fields ++ [⟨7, t⟩, ⟨20, b⟩, ⟨26, 0x1D#6⟩]
  | .bstateRead h b n => h.fields ++ [⟨12, n⟩, ⟨20, b⟩, ⟨26, 0x1E#6⟩]
  | .bstatePdone h b => h.fields ++ [⟨20, b⟩, ⟨7, 1#5⟩, ⟨26, 0x1E#6⟩]
  | .bstateCdone h b => h.fields ++ [⟨20, b⟩, ⟨7, 2#5⟩, ⟨26, 0x1E#6⟩]
  | .bstateFree h b => h.fields ++ [⟨20, b⟩, ⟨7, 3#5⟩, ⟨26, 0x1E#6⟩]
  | .ldtf h => h.fields ++ [⟨26, 0x1F#6⟩]
  | .sts h st n l => h.fields ++ [⟨7, l⟩, ⟨12, n⟩, ⟨16, st⟩, ⟨26, 0x16#6⟩]
  | .qst h st n o l => h.fields ++ [⟨7, l⟩, ⟨9, o⟩, ⟨12, n⟩, ⟨16, st⟩, ⟨26, 0x17#6⟩]
  | .stb h b st n l => h.fields ++ [⟨7, l⟩, ⟨12, n⟩, ⟨16, st⟩, ⟨20, b⟩, ⟨26, 0x18#6⟩]
  | .shopen h a b => h.fields ++ [⟨14, b⟩, ⟨18, a⟩, ⟨26, 0x19#6⟩]
  | .publish h a b c => h.fields ++ [⟨7, c⟩, ⟨14, b⟩, ⟨18, a⟩, ⟨26, 0x1A#6⟩]
  | .atomv h c st n f => h.fields ++ [⟨7, f⟩, ⟨12, n⟩, ⟨16, st⟩, ⟨20, c⟩, ⟨26, 0x1B#6⟩]
  | .amos h d a b z so op => h.fields ++ [⟨32, op⟩, ⟨36, so⟩, ⟨40, z⟩, ⟨14, b⟩, ⟨18, a⟩, ⟨22, d⟩, ⟨26, 0x1C#6⟩]
  | .bdrain h st => h.fields ++ [⟨16, st⟩, ⟨26, 0x1F#6⟩]
  | .vadd h d a b g y => h.fields ++ [⟨4, y⟩, ⟨6, g⟩, ⟨12, b⟩, ⟨17, a⟩, ⟨22, d⟩, ⟨26, 0x10#6⟩]
  | .vsub h d a b g y => h.fields ++ [⟨4, y⟩, ⟨6, g⟩, ⟨12, b⟩, ⟨17, a⟩, ⟨22, d⟩, ⟨26, 0x11#6⟩]
  | .vmul h d a b g y => h.fields ++ [⟨4, y⟩, ⟨6, g⟩, ⟨12, b⟩, ⟨17, a⟩, ⟨22, d⟩, ⟨26, 0x12#6⟩]
  | .vfma h d a b g y => h.fields ++ [⟨4, y⟩, ⟨6, g⟩, ⟨12, b⟩, ⟨17, a⟩, ⟨22, d⟩, ⟨26, 0x13#6⟩]
  | .vfms h d a b g y => h.fields ++ [⟨4, y⟩, ⟨6, g⟩, ⟨12, b⟩, ⟨17, a⟩, ⟨22, d⟩, ⟨26, 0x14#6⟩]
  | .vmin h d a b g y => h.fields ++ [⟨4, y⟩, ⟨6, g⟩, ⟨12, b⟩, ⟨17, a⟩, ⟨22, d⟩, ⟨26, 0x15#6⟩]
  | .vmax h d a b g y => h.fields ++ [⟨4, y⟩, ⟨6, g⟩, ⟨12, b⟩, ⟨17, a⟩, ⟨22, d⟩, ⟨26, 0x16#6⟩]
  | .vabs h d a g y => h.fields ++ [⟨4, y⟩, ⟨6, g⟩, ⟨17, a⟩, ⟨22, d⟩, ⟨26, 0x17#6⟩]
  | .vneg h d a g y => h.fields ++ [⟨4, y⟩, ⟨6, g⟩, ⟨17, a⟩, ⟨22, d⟩, ⟨26, 0x18#6⟩]
  | .vand h d a b g y => h.fields ++ [⟨4, y⟩, ⟨6, g⟩, ⟨12, b⟩, ⟨17, a⟩, ⟨22, d⟩, ⟨26, 0x19#6⟩]
  | .vor h d a b g y => h.fields ++ [⟨4, y⟩, ⟨6, g⟩, ⟨12, b⟩, ⟨17, a⟩, ⟨22, d⟩, ⟨26, 0x1A#6⟩]
  | .vxor h d a b g y => h.fields ++ [⟨4, y⟩, ⟨6, g⟩, ⟨12, b⟩, ⟨17, a⟩, ⟨22, d⟩, ⟨26, 0x1B#6⟩]
  | .vnot h d a g y => h.fields ++ [⟨4, y⟩, ⟨6, g⟩, ⟨17, a⟩, ⟨22, d⟩, ⟨26, 0x1C#6⟩]
  | .vshl h d a b g y => h.fields ++ [⟨4, y⟩, ⟨6, g⟩, ⟨12, b⟩, ⟨17, a⟩, ⟨22, d⟩, ⟨26, 0x1D#6⟩]
  | .vshr h d a b g y => h.fields ++ [⟨4, y⟩, ⟨6, g⟩, ⟨12, b⟩, ⟨17, a⟩, ⟨22, d⟩, ⟨26, 0x1E#6⟩]
  | .vsra h d a b g y => h.fields ++ [⟨4, y⟩, ⟨6, g⟩, ⟨12, b⟩, ⟨17, a⟩, ⟨22, d⟩, ⟨26, 0x1F#6⟩]
  | .vmad h d a b g y => h.fields ++ [⟨4, y⟩, ⟨6, g⟩, ⟨12, b⟩, ⟨17, a⟩, ⟨22, d⟩, ⟨26, 0x20#6⟩]
  | .vcmp h c a b p y => h.fields ++ [⟨4, y⟩, ⟨6, p⟩, ⟨12, b⟩, ⟨17, a⟩, ⟨22, c⟩, ⟨26, 0x21#6⟩]
  | .vsel h d a b p y => h.fields ++ [⟨4, y⟩, ⟨6, p⟩, ⟨12, b⟩, ⟨17, a⟩, ⟨22, d⟩, ⟨26, 0x22#6⟩]
  | .vmov h d a g y => h.fields ++ [⟨4, y⟩, ⟨6, g⟩, ⟨17, a⟩, ⟨22, d⟩, ⟨26, 0x23#6⟩]
  | .vmovi h d g y imm => h.fields ++ [⟨32, imm⟩, ⟨4, y⟩, ⟨6, g⟩, ⟨22, d⟩, ⟨26, 0x24#6⟩]
  | .vcvt h d a c g => h.fields ++ [⟨6, g⟩, ⟨12, c⟩, ⟨17, a⟩, ⟨22, d⟩, ⟨26, 0x25#6⟩]
  | .vrotr h d a n g y => h.fields ++ [⟨4, y⟩, ⟨6, g⟩, ⟨12, n⟩, ⟨17, a⟩, ⟨22, d⟩, ⟨26, 0x26#6⟩]
  | .vrotc h d a n g y => h.fields ++ [⟨4, y⟩, ⟨6, g⟩, ⟨12, n⟩, ⟨17, a⟩, ⟨22, d⟩, ⟨26, 0x27#6⟩]
  | .vbcr h d a n g y => h.fields ++ [⟨4, y⟩, ⟨6, g⟩, ⟨12, n⟩, ⟨17, a⟩, ⟨22, d⟩, ⟨26, 0x28#6⟩]
  | .vbcc h d a n g y => h.fields ++ [⟨4, y⟩, ⟨6, g⟩, ⟨12, n⟩, ⟨17, a⟩, ⟨22, d⟩, ⟨26, 0x29#6⟩]
  | .vredr h d a o g y => h.fields ++ [⟨4, y⟩, ⟨6, g⟩, ⟨12, o⟩, ⟨17, a⟩, ⟨22, d⟩, ⟨26, 0x2A#6⟩]
  | .vredc h d a o g y => h.fields ++ [⟨4, y⟩, ⟨6, g⟩, ⟨12, o⟩, ⟨17, a⟩, ⟨22, d⟩, ⟨26, 0x2B#6⟩]
  | .vscanr h d a o g y => h.fields ++ [⟨4, y⟩, ⟨6, g⟩, ⟨12, o⟩, ⟨17, a⟩, ⟨22, d⟩, ⟨26, 0x2C#6⟩]
  | .vscanc h d a o g y => h.fields ++ [⟨4, y⟩, ⟨6, g⟩, ⟨12, o⟩, ⟨17, a⟩, ⟨22, d⟩, ⟨26, 0x2D#6⟩]
  | .vexp2 h d a g y => h.fields ++ [⟨4, y⟩, ⟨6, g⟩, ⟨17, a⟩, ⟨22, d⟩, ⟨26, 0x2E#6⟩]
  | .vlog2 h d a g y => h.fields ++ [⟨4, y⟩, ⟨6, g⟩, ⟨17, a⟩, ⟨22, d⟩, ⟨12, 1#5⟩, ⟨26, 0x2E#6⟩]
  | .vrcp h d a g y => h.fields ++ [⟨4, y⟩, ⟨6, g⟩, ⟨17, a⟩, ⟨22, d⟩, ⟨12, 2#5⟩, ⟨26, 0x2E#6⟩]
  | .vrsq h d a g y => h.fields ++ [⟨4, y⟩, ⟨6, g⟩, ⟨17, a⟩, ⟨22, d⟩, ⟨12, 3#5⟩, ⟨26, 0x2E#6⟩]
  | .vtanh h d a g y => h.fields ++ [⟨4, y⟩, ⟨6, g⟩, ⟨17, a⟩, ⟨22, d⟩, ⟨12, 4#5⟩, ⟨26, 0x2E#6⟩]
  | .pand h d a b => h.fields ++ [⟨8, b⟩, ⟨14, a⟩, ⟨20, d⟩, ⟨26, 0x2F#6⟩]
  | .por h d a b => h.fields ++ [⟨8, b⟩, ⟨14, a⟩, ⟨20, d⟩, ⟨4, 1#4⟩, ⟨26, 0x2F#6⟩]
  | .pxor h d a b => h.fields ++ [⟨8, b⟩, ⟨14, a⟩, ⟨20, d⟩, ⟨4, 2#4⟩, ⟨26, 0x2F#6⟩]
  | .pnot h d a => h.fields ++ [⟨14, a⟩, ⟨20, d⟩, ⟨4, 3#4⟩, ⟨26, 0x2F#6⟩]
  | .pmov h d a => h.fields ++ [⟨14, a⟩, ⟨20, d⟩, ⟨4, 4#4⟩, ⟨26, 0x2F#6⟩]
  | .pany h d a b => h.fields ++ [⟨8, b⟩, ⟨14, a⟩, ⟨20, d⟩, ⟨26, 0x30#6⟩]
  | .pall h d a b => h.fields ++ [⟨8, b⟩, ⟨14, a⟩, ⟨20, d⟩, ⟨4, 1#4⟩, ⟨26, 0x30#6⟩]
  | .pcnt h d a b => h.fields ++ [⟨8, b⟩, ⟨14, a⟩, ⟨20, d⟩, ⟨4, 2#4⟩, ⟨26, 0x30#6⟩]
  | .twr h t v c w => h.fields ++ [⟨12, w⟩, ⟨14, c⟩, ⟨20, v⟩, ⟨24, t⟩, ⟨26, 0x31#6⟩]
  | .trr h t v c w => h.fields ++ [⟨12, w⟩, ⟨14, c⟩, ⟨20, v⟩, ⟨24, t⟩, ⟨7, 1#5⟩, ⟨26, 0x31#6⟩]
  | .trc h t v c w => h.fields ++ [⟨12, w⟩, ⟨14, c⟩, ⟨20, v⟩, ⟨24, t⟩, ⟨7, 2#5⟩, ⟨26, 0x31#6⟩]
  | .tclr h t => h.fields ++ [⟨24, t⟩, ⟨7, 3#5⟩, ⟨26, 0x31#6⟩]
  | .aadd h d a m => h.fields ++ [⟨14, m⟩, ⟨18, a⟩, ⟨22, d⟩, ⟨26, 0x32#6⟩]
  | .amov h d a => h.fields ++ [⟨18, a⟩, ⟨22, d⟩, ⟨7, 1#7⟩, ⟨26, 0x32#6⟩]
  | .apost h d a m => h.fields ++ [⟨14, m⟩, ⟨18, a⟩, ⟨22, d⟩, ⟨7, 2#7⟩, ⟨26, 0x32#6⟩]
  | .amodset h a m => h.fields ++ [⟨14, m⟩, ⟨18, a⟩, ⟨7, 3#7⟩, ⟨26, 0x32#6⟩]
  | .aidx h d a m => h.fields ++ [⟨14, m⟩, ⟨18, a⟩, ⟨22, d⟩, ⟨7, 4#7⟩, ⟨26, 0x32#6⟩]
  | .aaddi h d a i => h.fields ++ [⟨4, i⟩, ⟨18, a⟩, ⟨22, d⟩, ⟨26, 0x33#6⟩]
  | .qpush h n a g => h.fields ++ [⟨6, g⟩, ⟨17, a⟩, ⟨22, n⟩, ⟨26, 0x34#6⟩]
  | .aMfs h d i => h.fields ++ [⟨4, i⟩, ⟨22, d⟩, ⟨26, 0x35#6⟩]
  | .win h ws c ak h0 e first last rel b0 => h.fields ++ [⟨32, b0⟩, ⟨9, rel⟩, ⟨10, last⟩, ⟨11, first⟩, ⟨12, e⟩, ⟨14, h0⟩, ⟨16, ak⟩, ⟨20, c⟩, ⟨24, ws⟩, ⟨26, 0x38#6⟩]
  | .wcfg h n a => h.fields ++ [⟨16, a⟩, ⟨20, n⟩, ⟨26, 0x39#6⟩]
  | .wcfgRd h n a => h.fields ++ [⟨16, a⟩, ⟨20, n⟩, ⟨25, 1#1⟩, ⟨26, 0x39#6⟩]
  | .waccRd h c v => h.fields ++ [⟨16, v⟩, ⟨20, c⟩, ⟨26, 0x3A#6⟩]
  | .waccWr h c a => h.fields ++ [⟨11, a⟩, ⟨20, c⟩, ⟨24, 1#2⟩, ⟨26, 0x3A#6⟩]
  | .waccClr h c => h.fields ++ [⟨20, c⟩, ⟨24, 2#2⟩, ⟨26, 0x3A#6⟩]
  | .waccEpi h c e => h.fields ++ [⟨16, e⟩, ⟨20, c⟩, ⟨24, 3#2⟩, ⟨26, 0x3A#6⟩]
  | .wstat h d p e => h.fields ++ [⟨15, e⟩, ⟨16, p⟩, ⟨22, d⟩, ⟨26, 0x3B#6⟩]
  | .lvtset h t n a => h.fields ++ [⟨17, a⟩, ⟨22, n⟩, ⟨25, t⟩, ⟨26, 0x3C#6⟩]
  | .bcast h s0 ak nm1 tm1 wp b0 => h.fields ++ [⟨32, b0⟩, ⟨7, wp⟩, ⟨8, tm1⟩, ⟨12, nm1⟩, ⟨18, ak⟩, ⟨22, s0⟩, ⟨26, 0x38#6⟩]
  | .planb h d => h.fields ++ [⟨22, d⟩, ⟨26, 0x39#6⟩]
  | .plane h => h.fields ++ [⟨26, 0x3A#6⟩]
  | .fibexRd h d => h.fields ++ [⟨22, d⟩, ⟨26, 0x3B#6⟩]
  | .fibexSet h a => h.fields ++ [⟨18, a⟩, ⟨7, 512#11⟩, ⟨26, 0x3B#6⟩]
  | _ => []

/-- No two fields of an instruction share a bit. -/
theorem Instr.fields_apart (i : Instr) : apart i.fields = true := by
  cases i <;> rfl

theorem encode_sumsTo_fields (i : Instr) : SumsTo (encode i) i.fields := by
  cases i
  all_goals first
    | exact SumsTo.none
    | refine SumsTo.head ?_ (by simp only [Hq.bits_eq, Hd.bits_eq, Tl.bits_eq])
  all_goals
    repeat first | exact .op _ rfl | refine SumsTo.add _ ?_ rfl

theorem encode_eq_wordOf (i : Instr) : encode i = wordOf i.fields := (encode_sumsTo_fields i).eq_wordOf

/-- What a decoder reads of a word is what it reads of the fields. -/
structure Reads (w : Nat) (fs : List Field) : Prop where
  fld lo k : Sys2Proof.fld w lo k = readAt fs lo k
  fits lo k v : Sys2Proof.fits w lo k v = (seenOf fs lo k == v)

theorem Reads.opcode {w : Nat} {fs : List Field} (h : Reads w fs) : w / 2 ^ 26 % 64 = (readAt fs 26 6).toNat := by
  rw [← h.fld]; rfl

theorem reads_wordOf {fs : List Field} (h : apart fs = true) : Reads (wordOf fs) fs where
  fld lo k := fld_wordOf h lo k
  fits lo k v := by rw [Sys2Proof.fits, window_wordOf h]

theorem reads_encode (i : Instr) : Reads (encode i) i.fields := encode_eq_wordOf i ▸ reads_wordOf i.fields_apart

end Sys2Proof
end

section
/-! PROOFS. The map of each sequencer reads the words of its instructions again (02 R53 to R58). -/
namespace Sys2Proof

theorem stop_toNat {h : Hd} (hs : h.stop = 0) : (h.stop.toNat == 0) = true := by rw [hs]; rfl

/-- On C the words that every map holds may have the stop bit. -/
theorem rawDecode_encode_shared {i : Instr} (hm : (i.maps == [.l, .c, .s, .k, .b]) = true) :
    rawDecodeC (encode i) = .ok i ∧ rawDecodeB (encode i) = .ok i := by
  have h := reads_encode i
  have op := h.opcode
  rw [rawDecodeC, rawDecodeB]
  generalize encode i = w at h op ⊢
  generalize w / 2 ^ 26 % 64 = n at op ⊢
  cases i
  all_goals first
    | exact absurd hm Bool.false_ne_true
    | simp only [Instr.fields.eq_def, Hd.fields, List.cons_append, List.nil_append] at h op
  all_goals
    simp only [readAt, fieldAt, Nat.reduceEqDiff, and_self, dite_true, dite_false, OfNat.zero_ne_ofNat, BitVec.cast_eq,
        BitVec.toNat_ofNat, Nat.reducePow, Nat.reduceMod] at op
    subst op
  all_goals simp only [decC01, decC02, decC03, decC04, decC05, decC06, decC07, decC08, h.fits, h.fld, Hd.of, readAt, fieldAt, seenOf_cons,
      seenOf_nil, Field.seen, zero_add, add_zero, Nat.reduceAdd, Nat.reduceLeDiff, Nat.reduceEqDiff, Nat.reduceBEq, BitVec.cast_eq,
      and_self, and_true, OfNat.ofNat_ne_zero, OfNat.zero_ne_ofNat, Bool.and_self, ↓reduceIte, ↓reduceDIte]

/-- The words that every map holds, on the sequencers that have no stop bit. -/
theorem rawDecode_encode_stopless {i : Instr} (hm : (i.maps == [.l, .c, .s, .k, .b]) = true) (hs : i.stopBit = 0) :
    rawDecodeK (encode i) = .ok i ∧ rawDecodeL (encode i) = .ok i ∧ rawDecodeS (encode i) = .ok i := by
  have h := reads_encode i
  have op := h.opcode
  rw [rawDecodeK, rawDecodeL, rawDecodeS]
  generalize encode i = w at h op ⊢
  generalize w / 2 ^ 26 % 64 = n at op ⊢
  cases i
  all_goals first
    | exact absurd hm Bool.false_ne_true
    | simp only [Instr.fields.eq_def, Hd.fields, List.cons_append, List.nil_append] at h op
  all_goals
    simp only [readAt, fieldAt, Nat.reduceEqDiff, and_self, dite_true, dite_false, OfNat.zero_ne_ofNat, BitVec.cast_eq,
        BitVec.toNat_ofNat, Nat.reducePow, Nat.reduceMod] at op
    subst op
  all_goals simp only [decK01, decK02, decK03, decK04, decK05, decK06, decK07, decK08, h.fits, h.fld, Hd.of, readAt, fieldAt, seenOf_cons,
      seenOf_nil, Field.seen, zero_add, add_zero, mul_one, Nat.reduceAdd, Nat.reduceSub, Nat.reducePow, Nat.reduceLeDiff,
      Nat.reduceEqDiff, Nat.reduceBEq, BitVec.cast_eq, and_self, and_true, OfNat.ofNat_ne_zero, OfNat.zero_ne_ofNat, Bool.and_self,
      Bool.true_and, ↓reduceIte, ↓reduceDIte]
  all_goals exact if_pos (stop_toNat hs)

theorem rawDecode_encode_k {i : Instr} (hm : (i.maps == [.k]) = true) (hf : i.fieldsOk .k = true) :
    rawDecodeK (encode i) = .ok i := by
  have h := reads_encode i
  have op := h.opcode
  rw [rawDecodeK]
  generalize encode i = w at h op ⊢
  generalize w / 2 ^ 26 % 64 = n at op ⊢
  cases i
  all_goals first
    | exact absurd hm Bool.false_ne_true
    | simp only [Instr.fields.eq_def, Hq.fields, List.cons_append, List.nil_append] at h op
  all_goals
    simp only [readAt, fieldAt, Nat.reduceEqDiff, and_self, dite_true, dite_false, OfNat.zero_ne_ofNat, BitVec.cast_eq,
        BitVec.toNat_ofNat, Nat.reducePow, Nat.reduceMod] at op
    subst op
  all_goals simp only [decK10, decK11, decK12, decK13, decK14, decK15, decK16, decK17, decK18, decK19, decK1a, decK1b, decK1c, decK20,
      decK21, decK22, decK23, decK24, decK25, decK26, decK27, decK28, decK29, decK2a, decK2b, decK2c, decK30, decK31, decK32, decK34,
      decK35, decK36, decK37, decK38, decK39, decK3a, decK3b, decK3c, decK3d, decK3e, h.fits, h.fld, Hq.of, readAt, fieldAt, seenOf_cons,
      seenOf_nil, Field.seen, zero_add, add_zero, mul_one, Nat.reduceAdd, Nat.reduceSub, Nat.reducePow, Nat.reduceMod, Nat.reduceLeDiff,
      Nat.reduceEqDiff, Nat.reduceBEq, BitVec.toNat_ofNat, BitVec.cast_eq, and_self, and_true, OfNat.ofNat_ne_zero, OfNat.zero_ne_ofNat,
      Bool.and_self, Bool.and_true, Bool.true_and, Bool.and_false, Bool.false_eq_true, ↓reduceIte, ↓reduceDIte]
  case stx =>
    simp [Instr.fieldsOk] at hf ⊢
    omega
  all_goals repeat rw [if_neg (by simp <;> omega)]

theorem rawDecode_encode_ls {i : Instr} (hm : (i.maps == [.l, .s]) = true) :
    rawDecodeL (encode i) = .ok i ∧ rawDecodeS (encode i) = .ok i := by
  have h := reads_encode i
  have op := h.opcode
  rw [rawDecodeL, rawDecodeS]
  generalize encode i = w at h op ⊢
  generalize w / 2 ^ 26 % 64 = n at op ⊢
  cases i
  all_goals first
    | exact absurd hm Bool.false_ne_true
    | simp only [Instr.fields.eq_def, Hq.fields, List.cons_append, List.nil_append] at h op
  all_goals
    simp only [readAt, fieldAt, Nat.reduceEqDiff, and_self, and_true, dite_true, dite_false, OfNat.zero_ne_ofNat, BitVec.cast_eq,
        BitVec.toNat_ofNat, Nat.reducePow, Nat.reduceMod] at op
    subst op
  all_goals simp only [decL10, decL11, decL12, decL13, decL14, decL15, decL1d, decL1e, decL20, h.fits, h.fld, Hq.of, readAt, fieldAt,
      seenOf_cons, seenOf_nil, Field.seen, zero_add, add_zero, mul_one, Nat.reduceAdd, Nat.reduceSub, Nat.reducePow, Nat.reduceMod,
      Nat.reduceLeDiff, Nat.reduceEqDiff, Nat.reduceBEq, BitVec.toNat_ofNat, BitVec.cast_eq, and_self, and_true, OfNat.ofNat_ne_zero,
      OfNat.zero_ne_ofNat, Bool.and_self, Bool.and_true, Bool.false_eq_true, ↓reduceIte, ↓reduceDIte]
  all_goals repeat rw [if_neg (by simp <;> omega)]

theorem rawDecode_encode_l {i : Instr} (hm : (i.maps == [.l]) = true) :
    rawDecodeL (encode i) = .ok i := by
  have h := reads_encode i
  have op := h.opcode
  rw [rawDecodeL]
  generalize encode i = w at h op ⊢
  generalize w / 2 ^ 26 % 64 = n at op ⊢
  cases i
  all_goals first
    | exact absurd hm Bool.false_ne_true
    | simp only [Instr.fields.eq_def, Hq.fields, List.cons_append, List.nil_append] at h op
  all_goals
    simp only [readAt, fieldAt, Nat.reduceEqDiff, and_self, and_true, dite_true, dite_false, OfNat.zero_ne_ofNat, BitVec.cast_eq,
        BitVec.toNat_ofNat, Nat.reducePow, Nat.reduceMod] at op
    subst op
  all_goals simp only [decL16, decL17, decL18, decL19, decL1a, decL1b, decL1c, decL1f, h.fits, h.fld, Hq.of, readAt, fieldAt, seenOf_cons,
      seenOf_nil, Field.seen, zero_add, add_zero, Nat.reduceAdd, Nat.reduceLeDiff, Nat.reduceEqDiff, Nat.reduceBEq, BitVec.cast_eq,
      and_self, and_true, OfNat.ofNat_ne_zero, OfNat.zero_ne_ofNat, Bool.and_self, ↓reduceIte, ↓reduceDIte]

theorem rawDecode_encode_s {i : Instr} (hm : (i.maps == [.s]) = true) :
    rawDecodeS (encode i) = .ok i := by
  have h := reads_encode i
  have op := h.opcode
  rw [rawDecodeS]
  generalize encode i = w at h op ⊢
  generalize w / 2 ^ 26 % 64 = n at op ⊢
  cases i
  all_goals first
    | exact absurd hm Bool.false_ne_true
    | simp only [Instr.fields.eq_def, Hq.fields, List.cons_append, List.nil_append] at h op
  all_goals
    simp only [readAt, fieldAt, Nat.reduceEqDiff, and_self, and_true, dite_true, dite_false, OfNat.zero_ne_ofNat, BitVec.cast_eq,
        BitVec.toNat_ofNat, Nat.reducePow, Nat.reduceMod] at op
    subst op
  all_goals simp only [decS16, decS17, decS18, decS19, decS1a, decS1b, decS1c, decS1f, h.fits, h.fld, Hq.of, readAt, fieldAt, seenOf_cons,
      seenOf_nil, Field.seen, zero_add, add_zero, Nat.reduceAdd, Nat.reduceLeDiff, Nat.reduceEqDiff, Nat.reduceBEq, BitVec.cast_eq,
      and_self, and_true, OfNat.ofNat_ne_zero, OfNat.zero_ne_ofNat, Bool.and_self, ↓reduceIte, ↓reduceDIte]

theorem rawDecode_encode_cb {i : Instr} (hm : (i.maps == [.c, .b]) = true) :
    rawDecodeC (encode i) = .ok i ∧ (encode i / 2 ^ 26 % 64 < 56 ∨ encode i / 2 ^ 26 % 64 = 60) := by
  have h := reads_encode i
  have op := h.opcode
  rw [rawDecodeC]
  generalize encode i = w at h op ⊢
  generalize w / 2 ^ 26 % 64 = n at op ⊢
  cases i
  all_goals first
    | exact absurd hm Bool.false_ne_true
    | simp only [Instr.fields.eq_def, Hd.fields, Tl.fields, List.cons_append, List.nil_append] at h op
  all_goals
    simp only [readAt, fieldAt, Nat.reduceEqDiff, and_self, and_true, dite_true, dite_false, OfNat.zero_ne_ofNat, BitVec.cast_eq,
        BitVec.toNat_ofNat, Nat.reducePow, Nat.reduceMod] at op
    subst op
  all_goals simp only [decC10, decC11, decC12, decC13, decC14, decC15, decC16, decC17, decC18, decC19, decC1a, decC1b, decC1c, decC1d,
      decC1e, decC1f, decC20, decC21, decC22, decC23, decC24, decC25, decC26, decC27, decC28, decC29, decC2a, decC2b, decC2c, decC2d,
      decC2e, decC2f, decC30, decC31, decC32, decC33, decC34, decC35, decC3c, h.fits, h.fld, Hd.of, Tl.of, readAt, fieldAt, seenOf_cons,
      seenOf_nil, Field.seen, zero_add, add_zero, mul_one, Nat.reduceAdd, Nat.reduceSub, Nat.reducePow, Nat.reduceMod, Nat.reduceLeDiff,
      Nat.reduceEqDiff, Nat.reduceBEq, BitVec.toNat_ofNat, BitVec.cast_eq, and_self, and_true, OfNat.ofNat_ne_zero, OfNat.zero_ne_ofNat,
      Bool.and_self, Bool.and_false, Bool.false_eq_true, ↓reduceIte, ↓reduceDIte, Nat.reduceLT, true_or, or_true]
  all_goals repeat rw [if_neg (by simp <;> omega)]

theorem rawDecode_encode_c {i : Instr} (hm : (i.maps == [.c]) = true) :
    rawDecodeC (encode i) = .ok i := by
  have h := reads_encode i
  have op := h.opcode
  rw [rawDecodeC]
  generalize encode i = w at h op ⊢
  generalize w / 2 ^ 26 % 64 = n at op ⊢
  cases i
  all_goals first
    | exact absurd hm Bool.false_ne_true
    | simp only [Instr.fields.eq_def, Hd.fields, List.cons_append, List.nil_append] at h op
  all_goals
    simp only [readAt, fieldAt, Nat.reduceEqDiff, and_self, and_true, dite_true, dite_false, OfNat.zero_ne_ofNat, BitVec.cast_eq,
        BitVec.toNat_ofNat, Nat.reducePow, Nat.reduceMod] at op
    subst op
  all_goals simp only [decC38, decC39, decC3a, decC3b, h.fits, h.fld, Hd.of, readAt, fieldAt, seenOf_cons, seenOf_nil, Field.seen,
      zero_add, add_zero, mul_one, Nat.reduceAdd, Nat.reduceSub, Nat.reducePow, Nat.reduceMod, Nat.reduceLeDiff, Nat.reduceEqDiff,
      Nat.reduceBEq, BitVec.toNat_ofNat, BitVec.cast_eq, and_self, and_true, OfNat.ofNat_ne_zero, OfNat.zero_ne_ofNat, Bool.and_self,
      Bool.and_true, Bool.false_and, Bool.false_eq_true, ↓reduceIte, ↓reduceDIte]

theorem rawDecode_encode_b {i : Instr} (hm : (i.maps == [.b]) = true) :
    rawDecodeB (encode i) = .ok i := by
  have h := reads_encode i
  have op := h.opcode
  rw [rawDecodeB]
  generalize encode i = w at h op ⊢
  generalize w / 2 ^ 26 % 64 = n at op ⊢
  cases i
  all_goals first
    | exact absurd hm Bool.false_ne_true
    | simp only [Instr.fields.eq_def, Hd.fields, List.cons_append, List.nil_append] at h op
  all_goals
    simp only [readAt, fieldAt, Nat.reduceEqDiff, and_self, and_true, dite_true, dite_false, OfNat.zero_ne_ofNat, BitVec.cast_eq,
        BitVec.toNat_ofNat, Nat.reducePow, Nat.reduceMod] at op
    subst op
  all_goals simp only [decB38, decB39, decB3a, decB3b, h.fits, h.fld, Hd.of, readAt, fieldAt, seenOf_cons, seenOf_nil, Field.seen,
      zero_add, add_zero, mul_one, Nat.reduceAdd, Nat.reduceSub, Nat.reducePow, Nat.reduceMod, Nat.reduceLeDiff, Nat.reduceEqDiff,
      Nat.reduceBEq, BitVec.toNat_ofNat, BitVec.cast_eq, and_self, and_true, OfNat.ofNat_ne_zero, OfNat.zero_ne_ofNat, Bool.and_self,
      ↓reduceIte, ↓reduceDIte]
  all_goals rw [if_neg (by simp)]

/-- Off the opcodes 0x38 to 0x3B the two maps of C are one (02 R57, R58). -/
theorem rawDecodeB_eq_rawDecodeC {w : Nat} (h : w / 2 ^ 26 % 64 < 56 ∨ w / 2 ^ 26 % 64 = 60) : rawDecodeB w = rawDecodeC w := by
  unfold rawDecodeB rawDecodeC
  generalize w / 2 ^ 26 % 64 = n at h
  rcases h with h | rfl
  · interval_cases n <;> rfl
  · rfl

/-- The lists of maps that an instruction can be on. -/
theorem Instr.maps_cases (i : Instr) : [[], [.l, .c, .s, .k, .b], [.k], [.l, .s], [.l], [.s], [.c, .b], [.c], [.b]].contains i.maps = true := by
  cases i <;> rfl

/-- The map of a sequencer reads the words of an instruction on it. -/
theorem rawDecode_encode {q : SeqSel} {i : Instr} (hm : i.maps.contains q = true) (hs : i.stopOk q = true) (hf : i.fieldsOk q = true) :
    rawDecode q (encode i) = .ok i := by
  have on {l : List SeqSel} (hl : i.maps = l) : (i.maps == l) = true := beq_iff_eq.2 hl
  have hc := i.maps_cases
  simp only [List.contains_cons, Bool.or_eq_true, beq_iff_eq, List.contains_nil, Bool.false_eq_true, or_false] at hc
  rcases hc with e | e | e | e | e | e | e | e | e <;> rw [e] at hm <;> cases q
  all_goals try exact absurd hm Bool.false_ne_true
  case inr.inl.l => exact (rawDecode_encode_stopless (on e) (by simpa [Instr.stopOk] using hs)).2.1
  case inr.inl.c => exact (rawDecode_encode_shared (on e)).1
  case inr.inl.s => exact (rawDecode_encode_stopless (on e) (by simpa [Instr.stopOk] using hs)).2.2
  case inr.inl.k => exact (rawDecode_encode_stopless (on e) (by simpa [Instr.stopOk] using hs)).1
  case inr.inl.b => exact (rawDecode_encode_shared (on e)).2
  · exact rawDecode_encode_k (on e) hf
  · exact (rawDecode_encode_ls (on e)).1
  · exact (rawDecode_encode_ls (on e)).2
  · exact rawDecode_encode_l (on e)
  · exact rawDecode_encode_s (on e)
  · exact (rawDecode_encode_cb (on e)).1
  · obtain ⟨hC, hop⟩ := rawDecode_encode_cb (on e)
    exact (rawDecodeB_eq_rawDecodeC hop).trans hC
  · exact rawDecode_encode_c (on e)
  · exact rawDecode_encode_b (on e)

/-- Settles O3: the words of an instruction are its fields, apart from one another, and the map of its sequencer reads them again. -/
theorem decodingGivesBackWhatWasEncoded : Obligations.DecodingGivesBackWhatWasEncoded := by
  intro q i h
  have hw := h
  unfold Instr.wellFormed at hw
  simp only [Bool.and_eq_true] at hw
  obtain ⟨⟨⟨hm, -⟩, hs⟩, hf⟩ := hw
  rw [decode, rawDecode_encode hm hs hf]
  exact if_pos h

end Sys2Proof
end

section
/-! PROOFS. What a word decodes to (02 R42, R44, R53; 01 R21). -/
namespace Sys2Proof

/-- What a decoder answers for a word is an error, or an instruction whose token field is bits 0 to 2 of the word; bit 3 of the word is then 0,
where the map has no stop bit. -/
def Answers (w : Nat) (stops : Bool) (r : Except DecodeError Instr) : Prop :=
  ∀ i, r = .ok i → i.tokenField = fld w 0 3 ∧ (stops || fits w 3 1 0) = true

theorem answers_error {w : Nat} {stops : Bool} {e : DecodeError} : Answers w stops (.error e) := nofun

theorem answers_ok {w : Nat} {i : Instr} (ht : i.tokenField = fld w 0 3) : Answers w true (.ok i) :=
  fun _ hj => by cases hj; exact ⟨ht, rfl⟩

theorem answers_ite {w : Nat} {c : Bool} {i : Instr} {r : Except DecodeError Instr} (ht : i.tokenField = fld w 0 3)
    (hr : Answers w true r) : Answers w true (if c = true then .ok i else r) := by
  split
  · exact answers_ok ht
  · exact hr

theorem answers_ite_stopless {w : Nat} {i : Instr} {r : Except DecodeError Instr} (ht : i.tokenField = fld w 0 3)
    (hr : Answers w false r) : Answers w false (if fits w 3 1 0 = true then .ok i else r) := by
  intro j hj
  split at hj
  case isTrue h => cases hj; exact ⟨ht, h⟩
  case isFalse => exact hr j hj

theorem answers_ite_and_stopless {w : Nat} {c : Bool} {i : Instr} {r : Except DecodeError Instr} (ht : i.tokenField = fld w 0 3)
    (hr : Answers w false r) : Answers w false (if (c && fits w 3 1 0) = true then .ok i else r) := by
  intro j hj
  split at hj
  case isTrue h => cases hj; exact ⟨ht, Bool.and_elim_right h⟩
  case isFalse => exact hr j hj

theorem rawDecode_answers_stopless (w : Nat) :
    Answers w false (rawDecodeK w) ∧ Answers w false (rawDecodeL w) ∧ Answers w false (rawDecodeS w) := by
  unfold rawDecodeK rawDecodeL rawDecodeS
  refine ⟨?_, ?_, ?_⟩ <;> split
  all_goals
    repeat' first
      | exact answers_error
      | refine answers_ite_and_stopless rfl ?_
      | refine answers_ite_stopless rfl ?_

theorem rawDecode_answers_stops (w : Nat) : Answers w true (rawDecodeC w) ∧ Answers w true (rawDecodeB w) := by
  unfold rawDecodeC rawDecodeB
  refine ⟨?_, ?_⟩ <;> split
  all_goals
    repeat' first
      | exact answers_error
      | exact answers_ok rfl
      | refine answers_ite rfl ?_

/-- A sequencer of C has words with a stop bit (02 R44). -/
def SeqSel.hasStop (q : SeqSel) : Bool := q == .c || q == .b

theorem rawDecode_answers (q : SeqSel) (w : Nat) : Answers w q.hasStop (rawDecode q w) := by
  cases q
  case k => exact (rawDecode_answers_stopless w).1
  case l => exact (rawDecode_answers_stopless w).2.1
  case s => exact (rawDecode_answers_stopless w).2.2
  case c => exact (rawDecode_answers_stops w).1
  case b => exact (rawDecode_answers_stops w).2

theorem rawDecode_opcode_zero {q : SeqSel} {w : Nat} (h : w / 2 ^ 26 % 64 = 0) : rawDecode q w = .error .unassignedOpcode := by
  cases q <;> simp only [rawDecode, rawDecodeK, rawDecodeL, rawDecodeS, rawDecodeC, rawDecodeB, h]

theorem decode_eq_ok {q : SeqSel} {w : Nat} {i : Instr} (h : decode q w = .ok i) : rawDecode q w = .ok i ∧ i.wellFormed q = true := by
  unfold decode at h
  split at h
  case h_1 => cases h
  case h_2 j hj =>
    split at h
    case isTrue hw => cases h; exact ⟨hj, hw⟩
    case isFalse => cases h

/-- A token field of 7 is well formed on no sequencer (02 R21). -/
theorem tokenField_ne_seven {q : SeqSel} {i : Instr} (h : i.wellFormed q = true) : i.tokenField ≠ 7 := by
  unfold Instr.wellFormed at h
  simp only [Bool.and_eq_true, bne_iff_ne] at h
  obtain ⟨⟨⟨-, ht⟩, -⟩, -⟩ := h
  exact ht

/-- Settles O2: opcode 0 is in no map, and the decoders take the token field and bit 3 as the word has them. -/
theorem reservedWordsAreRefused : Obligations.ReservedWordsAreRefused := by
  intro q w
  refine ⟨fun h => by rw [decode, rawDecode_opcode_zero h], fun i h => ?_⟩
  obtain ⟨hraw, hw⟩ := decode_eq_ok h
  obtain ⟨ht, hstop⟩ := rawDecode_answers q w i hraw
  refine ⟨hw, fun h7 => tokenField_ne_seven hw ?_, fun hq => ?_⟩
  · rw [ht]; exact BitVec.eq_of_toNat_eq (by simpa [fld] using h7)
  · rcases hq with rfl | rfl | rfl <;> exact beq_iff_eq.1 hstop

/-- Settles O1: the decoder is run on each word. -/
theorem wordsDecodeAsTheSpecEncodesThem : Obligations.WordsDecodeAsTheSpecEncodesThem := by
  refine ⟨?_, ?_, ?_, ?_, ?_, ?_, ?_, ?_⟩ <;> rfl

end Sys2Proof
end

section
/-! PROOFS. Code lines and the program counter (02 R36 to R43). -/
namespace Sys2Proof.Machine

/-- A sequencer that is not halted retires to the program counter after the words. -/
theorem SeqState.retire_pc {st : SeqState} {n : Nat} {opened : Bool} (h : st.halted = false) :
    (st.retire n opened).pc = pcAfter st.pc st.link n := by
  unfold SeqState.retire
  rw [if_neg (by rw [h]; exact Bool.false_ne_true)]

/-- Settles O7, by where the words end: in their line, at its end with a line that NEXT names, or at the end of the chain. -/
theorem theProgramCounterFollowsTheChain : Obligations.TheProgramCounterFollowsTheChain := by
  intro st n opened running _ _
  rw [SeqState.retire_pc running, pcAfter]
  refine ⟨fun within => if_pos within, fun past next => ?_, fun past last => ?_⟩
  · rw [if_neg (by omega), if_neg (by simp [next])]
  · rw [if_neg (by omega), if_pos last]

/-! ## The line of the program counter -/

theorem Ctx.updSeq_updSeq (c : Ctx) (q : SeqId) (f g : SeqState → SeqState) : (c.updSeq q f).updSeq q g = c.updSeq q (fun st => g (f st)) := by
  cases q <;> rfl

theorem Ctx.updSeq_congr {c : Ctx} {q : SeqId} {f g : SeqState → SeqState} (h : f (c.seq q) = g (c.seq q)) : c.updSeq q f = c.updSeq q g := by
  cases q <;> simp only [Ctx.seq] at h <;> simp only [Ctx.updSeq, h]

/-- No transfer is to be made before the next instruction (02 R39). -/
def State.NoTransfer (s : State) : Prop := ∀ p, (s.cx.seq s.cur).pend = some p → ¬(p.taken = true ∧ p.left = 0)

/-- The line of the program counter: the one that the sequencer executes, or another that it enters (02 R41). -/
def lineHere : M Line := do
  let s ← get
  let st := s.cx.seq s.cur
  if wordIx st.pc = 0 then throw (.trap { cause := 0x022, noInstr := true })
  else
    match (match st.line with | some l => if l.va = lineVa st.pc then some l else none | none => none) with
    | some l => pure l
    | none => do
      let l ← enterLine (lineVa st.pc)
      modSeq (fun st => { st with line := some l })
      pure l

section
variable {s t : State} {l : Line} {va : DWord}

theorem nextLine_eq_lineHere (h : s.NoTransfer) : nextLine s = lineHere s := by
  unfold nextLine
  rw [get_run]
  cases hp : (s.cx.seq s.cur).pend with
  | none => rfl
  | some p => simp only [if_neg (h p hp)]; rfl

theorem lineHere_stays (hx : wordIx (s.cx.seq s.cur).pc ≠ 0) (hl : (s.cx.seq s.cur).line = some l) (hv : l.va = lineVa (s.cx.seq s.cur).pc) :
    lineHere s = .ok l s := by
  unfold lineHere
  rw [get_run, if_neg hx]
  simp only [hl, hv, if_true]; rfl

theorem enterLine_ok (h : fetchLine va s = .ok l t) (hk : linkOk (l.word 0) = true) (ho : linkOwner (l.word 0) = seqNum t.cur) :
    enterLine va s = .ok l { t with cx := t.cx.updSeq t.cur (fun st =>
      { st with fetched := if st.fetched.any (fun e => e.va == va) then st.fetched else l :: st.fetched }) } := by
  unfold enterLine
  rw [bind_ok h, get_run, if_neg (by rw [hk]; exact Bool.false_ne_true), if_neg (by rw [ho]; exact fun n => n rfl)]
  rfl

theorem lineHere_enters (hx : wordIx (s.cx.seq s.cur).pc ≠ 0) (hl : ∀ e, (s.cx.seq s.cur).line = some e → e.va ≠ lineVa (s.cx.seq s.cur).pc)
    (h : fetchLine (lineVa (s.cx.seq s.cur).pc) s = .ok l t) (hk : linkOk (l.word 0) = true) (ho : linkOwner (l.word 0) = seqNum t.cur) :
    lineHere s = .ok l { t with cx := t.cx.updSeq t.cur (fun st =>
      { st with fetched := if st.fetched.any (fun e => e.va == lineVa (s.cx.seq s.cur).pc) then st.fetched else l :: st.fetched,
                line := some l }) } := by
  have entered := enterLine_ok h hk ho
  unfold lineHere
  rw [get_run, if_neg hx]
  cases he : (s.cx.seq s.cur).line with
  | none => simp only; rw [bind_ok entered, bind_ok (modSeq_run _ _), pure_run]; simp only [Ctx.updSeq_updSeq]
  | some e => simp only [if_neg (hl e he)]; rw [bind_ok entered, bind_ok (modSeq_run _ _), pure_run]; simp only [Ctx.updSeq_updSeq]

theorem fetchLine_held (h : (s.cx.seq s.cur).fetched.find? (fun e => e.va == va) = some l) : fetchLine va s = .ok l s := by
  unfold fetchLine
  rw [get_run]
  simp only [h]; rfl

/-- An address of memory of this device that translates is in its map (04 R105). -/
theorem inMap_of_translate {a : Nat} {k : Acc} {tr : Tr} (h : translate s a k va = .ok tr) (hd : tr.home = s.dev) : inMap tr k va.toNat = true := by
  unfold translate at h
  split at h
  case isTrue => cases h
  case isFalse =>
    split at h
    case h_1 => cases h
    case h_2 =>
      split at h
      case isTrue => cases h
      case isFalse =>
        split at h
        case isTrue => cases h
        case isFalse m => cases h; simpa [hd] using m

/-- What passes by the copies of a die is read from memory. -/
theorem fetchSeg_memory {ag : Agent} {pol : Nat} {g : Seg} (hs : g.tr.spad = false) (hc : cachesAway s ag g.tr (g.key .read) = false) :
    fetchSeg ag pol g s = .ok (s.mem.readN (g.key .read) g.len) s := by
  unfold fetchSeg
  rw [get_run]
  simp only [hs, hc, Bool.false_and, Bool.false_eq_true, if_false]
  rfl

theorem markA_run (tr : Tr) (s : State) : markA tr s = .ok () (s.withA tr) := rfl

theorem fetchLine_memory {tr : Tr} (hf : (s.cx.seq s.cur).fetched.find? (fun e => e.va == va) = none)
    (ht : translate s s.cx.asid.toNat .fetch va = .ok tr) (hs : tr.spad = false) (hd : tr.home = s.dev)
    (hc : cachesAway (s.withA tr) s.agent tr (Seg.key ⟨va, 64, tr⟩ .read) = false) :
    fetchLine va s = .ok ⟨va, BitVec.ofNat 512 (leNat (bytesOf (s.withA tr).mem [⟨va, 64, tr⟩]))⟩ (s.withA tr) := by
  unfold fetchLine
  rw [get_run]
  simp only [hf, ht]
  rw [if_neg (by rw [hs]; exact Bool.false_ne_true), if_neg (by simp [hd]), if_neg (by simp [inMap_of_translate ht hd])]
  rw [bind_ok (markA_run tr s), bind_ok (fetchSeg_memory hs hc)]
  simp [bytesOf]

end

/-- The first bytes of a run hold the low bits of its number. -/
theorem leNat_take (n : Nat) (bs : List Byte) : leNat (bs.take n) = leNat bs % 256 ^ n := by
  induction n generalizing bs with
  | zero => simp [leNat, Nat.mod_one]
  | succ n ih =>
    cases bs with
    | nil => simp [leNat]
    | cons b bs =>
      have step (l : List Byte) : leNat (b :: l) = b.toNat + 256 * leNat l := rfl
      have hb := b.isLt
      have low : (b.toNat + 256 * leNat bs) % 256 = b.toNat := by omega
      have high : (b.toNat + 256 * leNat bs) / 256 = leNat bs := by omega
      rw [List.take_succ_cons, step, step, ih, Nat.pow_succ', Nat.mod_mul, low, high]

theorem toNat_ofNat_mod {w k : Nat} (h : k ≤ w) (n : Nat) : (BitVec.ofNat w n).toNat % 2 ^ k = n % 2 ^ k := by
  rw [BitVec.toNat_ofNat, Nat.mod_mod_of_dvd _ (Nat.pow_dvd_pow 2 h)]

/-- The link word of a line is its first four bytes (02 R36). -/
theorem Line.word_zero (va : DWord) (bs : List Byte) : Line.word ⟨va, BitVec.ofNat 512 (leNat bs)⟩ 0 = leNat (bs.take 4) := by
  unfold Line.word
  rw [leNat_take, Nat.mul_zero, Nat.pow_zero, Nat.div_one, toNat_ofNat_mod (by decide), show (256 : Nat) ^ 4 = 2 ^ 32 from rfl]

/-- Settles O6, by where the line is: executed, fetched already, or in memory. -/
theorem theNextLineIsFetchedFromMemory : Obligations.TheNextLineIsFetchedFromMemory := by
  rintro s _ rfl hp hx
  refine ⟨fun l hl hv => ?_, fun l hl hf hk ho => ?_, fun tr bs w hl hf ht hs hd hc hb hw hk ho => ?_⟩
  · rw [nextLine_eq_lineHere hp, lineHere_stays hx hl hv]
  · have held : (s.cx.seq s.cur).fetched.any (fun e => e.va == lineVa (s.cx.seq s.cur).pc) = true :=
      List.any_eq_true.2 ⟨l, List.mem_of_find?_eq_some hf, List.find?_some (p := fun e : Line => e.va == _) hf⟩
    rw [nextLine_eq_lineHere hp, lineHere_enters hx hl (fetchLine_held hf) hk ho,
      Ctx.updSeq_congr (g := fun st => { st with line := some l }) (by simp only [held, if_true])]
  · have missed : (s.cx.seq s.cur).fetched.find? (fun e => e.va == lineVa (s.cx.seq s.cur).pc) = none := by simpa using hf
    have absent : (s.cx.seq s.cur).fetched.any (fun e => e.va == lineVa (s.cx.seq s.cur).pc) = false := by simpa using hf
    subst hb hw
    rw [← Line.word_zero (lineVa (s.cx.seq s.cur).pc)] at hk ho
    intro l
    have into : (s.withA tr).cx.updSeq s.cur (fun st => { st with
        fetched := if st.fetched.any (fun e => e.va == lineVa (s.cx.seq s.cur).pc) then st.fetched else l :: st.fetched, line := some l }) =
        s.cx.updSeq s.cur (fun st => { st with fetched := l :: st.fetched, line := some l }) :=
      Ctx.updSeq_congr (c := s.cx) (by simp only [absent, Bool.false_eq_true, if_false])
    rw [nextLine_eq_lineHere hp, lineHere_enters hx hl (fetchLine_memory missed ht hs hd hc) hk ho]
    exact congrArg (fun c => EStateM.Result.ok l { s.withA tr with cx := c }) into

end Sys2Proof.Machine
end

section
/-! PROOFS. What a sequencer reads from its line, and the words that are no instruction (02 R42, R59; 06 R180). -/
namespace Sys2Proof.Machine

/-! ## A sequencer that goes on stands in a line -/

/-- The sequencer in focus and its program counter. -/
def State.standsAt (s : State) (q : SeqId) (pc : DWord) : Prop := s.cur = q ∧ (s.cx.seq q).pc = pc

theorem standsAt_of_kept {s t : State} {q : SeqId} {pc : DWord} (h : t.kept = s.kept) (hs : s.standsAt q pc) : t.standsAt q pc := by
  have st := State.stands_of_kept h q
  exact ⟨st.cur.trans hs.1, by rw [st.seq]; exact hs.2⟩

theorem fetchLine_keeps (va : DWord) : Keeps (fetchLine va) := by
  intro P
  unfold fetchLine
  refine Holds.get (fun s _ => ?_)
  split
  · exact Holds.pure _
  · split
    · exact Holds.throw _
    · exact Holds.ite (fun _ => Holds.throw _) (fun _ => Holds.ite (fun _ => Holds.throw _) (fun _ => Holds.ite (fun _ => Holds.throw _)
        (fun _ => Holds.bind (markA_keeps _ P) (fun _ => Holds.bind (fetchSeg_keeps _ _ _ P) (fun _ => Holds.pure _)))))

theorem modSeq_standsAt {q : SeqId} {pc : DWord} {f : SeqState → SeqState} (h : ∀ st, (f st).pc = st.pc) :
    Holds (fun s => s.standsAt q pc) (modSeq f) := by
  rintro s ⟨rfl, hs⟩
  refine ⟨rfl, ?_⟩
  show ((s.cx.updSeq s.cur f).seq s.cur).pc = pc
  rw [Ctx.updSeq_seq, h]; exact hs

theorem enterLine_standsAt {q : SeqId} {pc : DWord} (va : DWord) : Holds (fun s => s.standsAt q pc) (enterLine va) := by
  unfold enterLine
  refine Holds.bind (fun s hs => ?_) (fun l => Holds.get (fun s _ => Holds.ite (fun _ => Holds.throw _) (fun _ => Holds.ite (fun _ => Holds.throw _)
    (fun _ => Holds.bind (modSeq_standsAt (fun _ => rfl)) (fun _ => Holds.pure _)))))
  exact standsAt_of_kept (fetchLine_keeps va s.kept s rfl) hs

theorem lineHere_wordIx {s t : State} {l : Line} (h : lineHere s = .ok l t) : wordIx (t.cx.seq t.cur).pc ≠ 0 := by
  unfold lineHere at h
  rw [get_run] at h
  by_cases hx : wordIx (s.cx.seq s.cur).pc = 0
  · simp only [hx, if_true] at h; cases h
  · simp only [hx, if_false] at h
    split at h
    case h_1 => cases h; exact hx
    case h_2 =>
      have stays : Holds (fun u => u.standsAt s.cur (s.cx.seq s.cur).pc) (do
          let l ← enterLine (lineVa (s.cx.seq s.cur).pc)
          modSeq (fun st => { st with line := some l })
          pure l) :=
        Holds.bind (enterLine_standsAt _) (fun _ => Holds.bind (modSeq_standsAt (fun _ => rfl)) (fun _ => Holds.pure _))
      obtain ⟨hc, hp⟩ := stays.ok ⟨rfl, rfl⟩ h
      rw [hc, hp]; exact hx

/-- After the transfer that is to be made, if one is, the line is that of the program counter. -/
theorem lineHere_of_nextLine {s t : State} {l : Line} (h : nextLine s = .ok l t) : ∃ u, lineHere u = .ok l t := by
  unfold nextLine at h
  rw [get_run] at h
  cases hp : (s.cx.seq s.cur).pend with
  | none => rw [hp] at h; exact ⟨s, h⟩
  | some p =>
    simp only [hp] at h
    split at h
    case isTrue =>
      obtain ⟨-, u, -, hu⟩ := of_bind_ok h
      exact ⟨u, hu⟩
    case isFalse => exact ⟨s, h⟩

/-- The link word of a line is no instruction: a sequencer that has its line stands past it (02 R36, R42). -/
theorem nextLine_wordIx {s t : State} {l : Line} (h : nextLine s = .ok l t) : wordIx (t.cx.seq t.cur).pc ≠ 0 :=
  let ⟨_, hu⟩ := lineHere_of_nextLine h
  lineHere_wordIx hu

/-! ## The first word that is no instruction -/

/-- An instruction of a map has a word. -/
theorem words_pos {i : Instr} {q : SeqSel} (h : i.maps.contains q = true) : 1 ≤ i.words := by
  cases i
  all_goals first
    | exact Nat.le_refl 1
    | exact Nat.le_succ 1
    | exact absurd h Bool.false_ne_true

theorem words_pos_of_decode {m : SeqSel} {w : Nat} {i : Instr} (h : decode m w = .ok i) : 1 ≤ i.words := by
  have hw := (decode_eq_ok h).2
  unfold Instr.wellFormed at hw
  simp only [Bool.and_eq_true] at hw
  obtain ⟨⟨⟨hm, -⟩, -⟩, -⟩ := hw
  exact words_pos hm

section
variable {l : Line} {m : SeqSel}

theorem Line.Leads.le {j : Nat} {is : List Instr} {k : Nat} (h : l.Leads m j is k) : k ≤ j := by
  induction is generalizing k with
  | nil => exact Nat.le_of_eq h
  | cons i is ih =>
    obtain ⟨-, -, -, -, rest⟩ := h
    exact (Nat.le_add_right ..).trans (ih rest)

/-- The reading of a unit ends at the first word that is no instruction. -/
theorem readUnit_illegal {illegal first j : Nat} {is : List Instr} {k : Nat} {e : DecodeError} {fuel : Nat} (h : l.Leads m j is k)
    (hj : j ≤ 15) (he : decode m (l.full m j) = .error e) (enough : j < k + fuel) :
    readUnit m illegal l first fuel k = .error (illegal, j) := by
  induction is generalizing k fuel with
  | nil =>
    cases h
    obtain ⟨fuel, rfl⟩ : ∃ n, fuel = n + 1 := ⟨fuel - 1, by omega⟩
    unfold readUnit
    rw [if_neg (by omega), he]
  | cons i is ih =>
    obtain ⟨hc, hk, hi, hs, rest⟩ := h
    have le := Line.Leads.le rest
    have pos := words_pos_of_decode hi
    obtain ⟨fuel, rfl⟩ : ∃ n, fuel = n + 1 := ⟨fuel - 1, by omega⟩
    unfold readUnit
    rw [if_neg (by omega), hi]
    simp only [hc, hs]
    rw [if_neg (by decide), ih rest (by omega)]

/-- A sequencer that comes to a word that is no instruction faults at it. -/
theorem exec_illegalInstruction {s s1 : State} {is : List Instr} {j : Nat} {e : DecodeError} (may : s.mayIssue = true)
    (hl : nextLine s = .ok l s1) (hc : s1.cur = s.cur) (hm : selOf s1.cx s1.cur = m) (hj : j ≤ 15)
    (lead : l.Leads m j is (wordIx (s1.cx.seq s1.cur).pc)) (he : decode m (l.full m j) = .error e) :
    exec .illegalInstruction s = .next (s1.faultAtWord (illegalCause s.cur) j) := by
  have past := nextLine_wordIx hl
  have unit : nextUnit s = .ok (.error (illegalCause s.cur, j)) s1 := by
    have read := readUnit_illegal (illegal := illegalCause s1.cur) (first := wordIx (s1.cx.seq s1.cur).pc) (fuel := 15) lead hj he (by omega)
    unfold nextUnit
    rw [bind_ok hl, get_run]
    simp only [hm, read]
    rw [hc]; rfl
  show execIllegalInstruction s = _
  unfold execIllegalInstruction
  rw [if_pos may, unit]
  simp

end

theorem faultsOn_illegal (m : SeqSel) : FaultsOn m (fun w => ∃ e, decode m w = .error e) := by
  rintro s s1 l is j may hl hc hm lead hj ⟨e, he⟩
  rw [exec_illegalInstruction may hl hc hm hj lead he, State.faultAtWord, hc]; rfl

/-! ## A transfer in the delay of another -/

/-- A lone word of C that faults, whatever its predicate, leaves no effect. -/
theorem runC_fault {s : State} {cause : Nat} (hc : s.cur = .c) (hb : s.bun = none) (h26 : (cause == 0x026) = true) :
    runC 1 (fun _ => true) 0 (fault cause) s = s.faultHere { cause := cause } := by
  unfold runC
  rw [if_neg (by simp [hc]), hb]
  have wait : s.cx.openField .c 0 = none := by unfold Ctx.openField fieldWait; split <;> rfl
  have noted : slot true 0 (fault cause) (s.openBundle 1) =
      { s with bun := some { old := s.cx, pbase := s.baseBefore, words := 1, traps := [(0, { cause := cause })] } } := by
    unfold slot State.openBundle
    simp only [wait]
    rfl
  show endBundle s (slot true 0 (fault cause) (s.openBundle 1)) = _
  rw [noted]
  unfold endBundle
  simp only [takeGets_none, List.find?_cons, h26]
  have none : ({ undone s s with bun := none } : State) = s := by cases s; cases hb; rfl
  simp only [trapBundle, State.faultHere, hc, Bool.false_eq_true, if_false, Nat.add_zero]
  exact congrArg (fun u : State => u.takeFault { cause := cause } 1 (instrAt s.cx .c (wordIx s.cx.seqC.pc))) none

theorem runTransfer_inDelay {s : State} (h : Hd) (op : M Unit) (hb : s.bun = none) (hp : (s.cx.seq s.cur).pend.isSome = true) :
    runTransfer h op s = .next (s.faultHere { cause := 0x026 }) := by
  unfold runTransfer
  rw [if_pos (by unfold inDelay State.operands; rw [hb]; exact hp)]
  split
  case isTrue hc => rw [runC_fault hc hb rfl]
  case isFalse => rfl

/-- Settles O12: the reading of a unit ends at a word that is no instruction, and a delay is looked at before anything else. -/
theorem illegalWordsAndDelayedTransfersFault : Obligations.IllegalWordsAndDelayedTransfersFault :=
  ⟨faultsOn_illegal, fun _ h _ _ hb hp => ⟨runTransfer_inDelay h _ hb hp, runTransfer_inDelay h _ hb hp⟩⟩

end Sys2Proof.Machine
end

section
/-! PROOFS. Words whose predicate is false (02 R46; 08 R233). -/
namespace Sys2Proof.Machine

/-! ## The shell that every word of a sequencer runs in -/

section
variable {i : Instr} {h : Hq}

theorem exec_runK (hm : (i.maps == [.k]) = true) (hi : hqOf i = some h) (s : State) : ∃ op, exec i s = runK h i.words op s := by
  cases i
  all_goals first
    | exact absurd hm Bool.false_ne_true
    | cases hi; exact ⟨_, rfl⟩

theorem exec_runLS (hm : (i.maps == [.l, .s]) = true) (hi : hqOf i = some h) (s : State) : ∃ op, exec i s = runLS h i.words op s := by
  cases i
  all_goals first
    | exact absurd hm Bool.false_ne_true
    | cases hi; exact ⟨_, rfl⟩

theorem exec_runL {s : State} (hm : (i.maps == [.l]) = true) (hi : hqOf i = some h)
    (hn : ∀ a st n c l, i = .ldso a st n c l → s.cx.onBcast = false) : ∃ op, exec i s = runL h i.words op s := by
  cases i
  case ldso st n c l =>
    cases hi
    exact ⟨_, if_neg (by rw [hn h st n c l rfl]; exact Bool.false_ne_true)⟩
  all_goals first
    | exact absurd hm Bool.false_ne_true
    | cases hi; exact ⟨_, rfl⟩

theorem exec_runS (hm : (i.maps == [.s]) = true) (hi : hqOf i = some h) (s : State) : ∃ op, exec i s = runS h i.words op s := by
  cases i
  all_goals first
    | exact absurd hm Bool.false_ne_true
    | cases hi; exact ⟨_, rfl⟩
end

/-- Outside a delay a word that every sequencer has runs in the shell of its sequencer. -/
theorem exec_runShared {s : State} {i : Instr} {h : Hd} (hb : s.bun = none)
    (hp : ∀ h j b, i = .brx h j ∨ i = .brxd h j b → (s.cx.seq s.cur).pend = none) (hi : sharedHd i = some h) :
    ∃ op keeps, exec i s = runShared h i.words op s keeps := by
  have outside (p : (s.cx.seq s.cur).pend = none) : ¬ inDelay s = true := by
    unfold inDelay State.operands; rw [hb]; simp only [p]; exact Bool.false_ne_true
  cases i
  case nop =>
    cases hi
    refine ⟨pure (), false, ?_⟩
    show execNop _ s = _
    unfold execNop runShared
    split <;> rfl
  case brx h j => cases hi; exact ⟨_, _, if_neg (outside (hp h j 0 (.inl rfl)))⟩
  case brxd h j b => cases hi; exact ⟨_, _, if_neg (outside (hp h j b (.inr rfl)))⟩
  all_goals first
    | cases hi; exact ⟨_, _, rfl⟩
    | cases hi

/-- A word of C outside a bundle runs as a bundle of its own. -/
theorem exec_runC {s : State} {i : Instr} {tk : BitVec 3} {b : Bool} (hc : s.cur = .c) (hb : s.bun = none)
    (hp : ∀ h j b, i = .brx h j ∨ i = .brxd h j b → (s.cx.seq s.cur).pend = none) (ht : truthOf i s.cx = some (tk, b)) :
    ∃ op truth, truth s.cx = b ∧ exec i s = .next (runC i.words truth tk op s) := by
  cases hi : sharedHd i with
  | some h =>
    obtain ⟨op, keeps, run⟩ := exec_runShared hb hp hi
    refine ⟨op, fun c => c.seqC.rq h.qp, ?_⟩
    have : truthOf i s.cx = some (h.tk, s.cx.seqC.rq h.qp) := by cases i <;> cases hi <;> rfl
    rw [this] at ht
    cases ht
    exact ⟨rfl, run.trans (if_pos hc)⟩
  | none =>
    cases i
    all_goals first
      | exact absurd hi (Option.some_ne_none _)
      | cases ht; exact ⟨_, _, rfl, rfl⟩
      | cases ht

/-! ## A false predicate -/

/-- A sequencer other than C reads its own map. -/
theorem selOf_contains {c : Ctx} {q : SeqId} {l : List SeqSel} (hc : q ≠ .c) (h : l.contains (selOf c q) = true) :
    (q = .k ∧ l.contains .k = true) ∨ (q = .l ∧ l.contains .l = true) ∨ (q = .s ∧ l.contains .s = true) := by
  cases q
  case k => exact .inl ⟨rfl, h⟩
  case l => exact .inr (.inl ⟨rfl, h⟩)
  case s => exact .inr (.inr ⟨rfl, h⟩)
  case c => exact absurd rfl hc

theorem maps_of_hqOf {i : Instr} {h : Hq} (hi : hqOf i = some h) : i.maps = [.k] ∨ i.maps = [.l, .s] ∨ i.maps = [.l] ∨ i.maps = [.s] := by
  cases i
  all_goals first
    | exact absurd hi.symm (Option.some_ne_none _)
    | exact .inl rfl
    | exact .inr (.inl rfl)
    | exact .inr (.inr (.inl rfl))
    | exact .inr (.inr (.inr rfl))

/-- A word of L, S or K runs in `runWord`. -/
theorem exec_runWord {s : State} {i : Instr} {h : Hq} (hi : hqOf i = some h) (hm : i.maps.contains (selOf s.cx s.cur) = true)
    (hn : ∀ a st n c l, i = .ldso a st n c l → s.cx.onBcast = false) (hc : s.cur ≠ .c) :
    ∃ op, exec i s = .next (runWord h.qp h.tk i.words op s) := by
  have on {l : List SeqSel} (hl : i.maps = l) : (i.maps == l) = true := beq_iff_eq.2 hl
  rcases selOf_contains hc hm with ⟨q, m⟩ | ⟨q, m⟩ | ⟨q, m⟩ <;> rcases maps_of_hqOf hi with e | e | e | e <;> rw [e] at m
  all_goals try exact absurd m Bool.false_ne_true
  · obtain ⟨op, run⟩ := exec_runK (on e) hi s
    exact ⟨op, run.trans (by rw [runK, if_pos q])⟩
  · obtain ⟨op, run⟩ := exec_runLS (on e) hi s
    exact ⟨op, run.trans (by rw [runLS, if_pos (.inl q)])⟩
  · obtain ⟨op, run⟩ := exec_runL (on e) hi hn
    exact ⟨op, run.trans (by rw [runL, if_pos q])⟩
  · obtain ⟨op, run⟩ := exec_runLS (on e) hi s
    exact ⟨op, run.trans (by rw [runLS, if_pos (.inr q)])⟩
  · obtain ⟨op, run⟩ := exec_runS (on e) hi s
    exact ⟨op, run.trans (by rw [runS, if_pos q])⟩

/-- Settles O9: each word runs in the shell of its sequencer, and the shell of a word whose predicate is false goes on alone. -/
theorem falsePredicatesOnlyMoveOn : Obligations.FalsePredicatesOnlyMoveOn := by
  intro s i hb hp
  refine ⟨?_, fun tk hc ht hw hr => ?_⟩
  · rintro q tk qp rfl hc hw hr hq
    refine ⟨?_, ?_⟩
    · rintro h hi rfl rfl hm hn
      obtain ⟨op, run⟩ := exec_runWord hi hm hn hc
      rw [run, runWord_false rfl hq hw hr]
    · rintro h hi rfl rfl
      obtain ⟨op, keeps, run⟩ := exec_runShared hb hp hi
      rw [run, runShared, if_neg hc, runWord_false rfl hq hw hr]
  · obtain ⟨op, truth, hf, run⟩ := exec_runC hc hb hp ht
    rw [run, runC_false hc hb hf hw hr]

end Sys2Proof.Machine
end

section
/-! PROOFS. A turn that issues a sequencer (02 R41, R42, R50, R51; log 2). -/
namespace Sys2Proof.Machine

section
variable {s t : State} {l : Line} {i : Instr} {is : List Instr}

/-- The limits of R51 allow every instruction alone. -/
theorem bundleOk_singleton (i : Instr) : bundleOk [i] = true := by
  have count (k : SlotClass) : countClass k [i] ≤ 1 := by unfold countClass; exact List.length_filter_le _ _
  simp only [bundleOk, noClash, List.length_singleton, List.all_nil, Bool.or_true, List.all_eq_true, Bool.and_true, Bool.and_eq_true,
    decide_eq_true_eq]
  exact ⟨⟨⟨⟨⟨by decide, count _⟩, (count _).trans (by decide)⟩, count _⟩, count _⟩, fun _ _ => trivial⟩

theorem runUnit_one (hl : nextLine s = .ok l t)
    (hi : decode (selOf t.cx t.cur) (l.full (selOf t.cx t.cur) (wordIx (t.cx.seq t.cur).pc)) = .ok i)
    (hs : isC (selOf t.cx t.cur) = true → i.stopBit = 1) (hw : wordIx (t.cx.seq t.cur).pc + i.words ≤ 16) : runUnit s = exec i t := by
  have below : wordIx (t.cx.seq t.cur).pc < 16 := Nat.mod_lt _ (by decide)
  have ends : (!isC (selOf t.cx t.cur) || decide (i.stopBit = 1)) = true := by
    cases hc : isC (selOf t.cx t.cur) with
    | false => rfl
    | true => simp [hs hc]
  have unit : nextUnit s = .ok (.ok [i]) t := by
    unfold nextUnit readUnit
    rw [bind_ok hl, get_run]
    simp only
    rw [if_neg (by omega), hi]
    simp only [ends, if_true, hw, bundleOk_singleton, Bool.not_true, Bool.and_false, Bool.false_eq_true, if_false]; rfl
  unfold runUnit
  rw [unit]

theorem runUnit_bundle (hl : nextLine s = .ok l t)
    (hr : readUnit (selOf t.cx t.cur) (illegalCause t.cur) l (wordIx (t.cx.seq t.cur).pc) 15 (wordIx (t.cx.seq t.cur).pc) = .ok is)
    (two : 2 ≤ is.length) (hb : bundleOk is = true) : runUnit s = .next (runBundle after is t) := by
  have unit : nextUnit s = .ok (.ok is) t := by
    unfold nextUnit
    rw [bind_ok hl, get_run]
    simp only [hr, hb, Bool.not_true, Bool.and_false, Bool.false_eq_true, if_false]; rfl
  unfold runUnit
  rw [unit]
  match is, two with
  | _ :: _ :: _, _ => rfl

theorem runUnit_past (hl : nextLine s = .ok l t)
    (hr : readUnit (selOf t.cx t.cur) (illegalCause t.cur) l (wordIx (t.cx.seq t.cur).pc) 15 (wordIx (t.cx.seq t.cur).pc) = .ok is)
    (hc : isC (selOf t.cx t.cur) = true) (hb : bundleOk is = false) :
    runUnit s = .next (t.faultAtWord 0x025 (wordIx (t.cx.seq t.cur).pc)) := by
  have unit : nextUnit s = .ok (.error (0x025, wordIx (t.cx.seq t.cur).pc)) t := by
    unfold nextUnit
    rw [bind_ok hl, get_run]
    simp only [hr, hc, hb, Bool.not_false, Bool.and_true, if_true]; rfl
  have other : (0x025 : Nat) ≠ illegalCause s.cur := by cases s.cur <;> decide
  unfold runUnit
  rw [unit]
  exact if_neg other

/-- The turn of a sequencer that may issue is what its unit comes to, and the transfer that is then due. -/
theorem step_issue {c : CtxId} {q : SeqId} {rest : List Turn} (held : s.held = false) (hd : dueEvent s = none) (hx : dueChange s = none)
    (ha : s.agenda = .issue c q :: rest) (hc : (s.ctx? c).isSome = true)
    (may : ({ State.focus { s with agenda := rest } c with cur := q } : State).mayIssue = true)
    (run : runUnit ({ State.focus { s with agenda := rest } c with cur := q } : State).acquireDue = .next t) :
    let s1 := ({ State.focus { s with agenda := rest } c with cur := q } : State).acquireDue
    step s = .next (if t.cx.status == s1.cx.status || (s1.cx.status != .parked && (s1.isActive s1.cx || s1.freezing c)) then settle c t
      else { s with agenda := rest }) := by
  have turn : nextTurn s = (.issue c q, { s with agenda := rest }) := by unfold nextTurn; rw [ha]
  obtain ⟨x, hc⟩ := Option.isSome_iff_exists.1 hc
  unfold step
  rw [if_neg (by rw [held]; exact Bool.false_ne_true), hd]
  simp only [hx, turn]
  show issue c q { s with agenda := rest } = _
  unfold issue
  rw [show State.ctx? { s with agenda := rest } c = some x from hc]
  simp only [may, if_true, run]
  split <;> rfl
end

/-- Settles O4: the turn runs the unit of the line, one instruction, a bundle or a bundle past the limits of R51. -/
theorem stepRunsTheDecodedInstruction : Obligations.StepRunsTheDecodedInstruction := by
  rintro s _ _ t c q rest l held hd hx ha hc rfl may rfl hl
  refine ⟨fun i u hi hs hw he => ?_, fun is hr => ⟨fun two hb => ?_, fun hC hb => ?_⟩⟩
  · exact step_issue held hd hx ha hc may ((runUnit_one hl hi hs hw).trans he)
  · exact step_issue held hd hx ha hc may (runUnit_bundle hl hr two hb)
  · exact step_issue held hd hx ha hc may (runUnit_past hl hr hC hb)

end Sys2Proof.Machine
end

section
/-! PROOFS. Bundles of C whose words change their context alone (02 R52). -/
namespace Sys2Proof.Machine

/-! ## What a word of a bundle finds and leaves -/

/-- What a word of the bank reads of the context as the words before it have left it. -/
def Ctx.bankView (c : Ctx) := (c.id, c.wins, c.epi, c.wstat)
/-- What the token fields of a bundle's words read of it. -/
def Ctx.fieldView (c : Ctx) := (c.tok, c.seqC.fielded)

@[simp] theorem Ctx.bankView_setTokens (c : Ctx) (i n : Nat) : (c.setTokens i n).bankView = c.bankView := by
  unfold Ctx.setTokens; split <;> rfl
@[simp] theorem Ctx.bankView_takenBy (c : Ctx) (q : SeqId) (tk : BitVec 3) : (c.takenBy q tk).bankView = c.bankView := by
  unfold Ctx.takenBy; split
  · exact c.bankView_setTokens _ _
  · rfl
@[simp] theorem Ctx.bankView_wp (c : Ctx) (i : BitVec 6) (v : BitVec 1024) : (c.wp i v).bankView = c.bankView := by
  unfold Ctx.wp; split <;> rfl
@[simp] theorem Ctx.bankView_wa (c : Ctx) (i : BitVec 4) (v : DWord) : (c.wa i v).bankView = c.bankView := by
  unfold Ctx.wa; split <;> rfl
@[simp] theorem Ctx.bankView_wv (c : Ctx) (i : BitVec 4) (v : Image) : (c.wv i v).bankView = c.bankView := rfl
@[simp] theorem Ctx.bankView_setSq (c : Ctx) (n : Nat) (l : List Image) : (c.setSq n l).bankView = c.bankView := by
  unfold Ctx.setSq; split <;> rfl
@[simp] theorem Ctx.fieldView_wp (c : Ctx) (i : BitVec 6) (v : BitVec 1024) : (c.wp i v).fieldView = c.fieldView := by
  unfold Ctx.wp; split <;> rfl
@[simp] theorem Ctx.fieldView_wa (c : Ctx) (i : BitVec 4) (v : DWord) : (c.wa i v).fieldView = c.fieldView := by
  unfold Ctx.wa; split <;> rfl
@[simp] theorem Ctx.fieldView_wv (c : Ctx) (i : BitVec 4) (v : Image) : (c.wv i v).fieldView = c.fieldView := rfl
@[simp] theorem Ctx.fieldView_setSq (c : Ctx) (n : Nat) (l : List Image) : (c.setSq n l).fieldView = c.fieldView := by
  unfold Ctx.setSq; split <;> rfl
@[simp] theorem Ctx.fieldView_setBankReg (c : Ctx) (n : Nat) (v : DWord) : (c.setBankReg n v).fieldView = c.fieldView := by
  unfold Ctx.setBankReg; split
  · rfl
  · split <;> rfl
@[simp] theorem Ctx.fieldView_wq (c : Ctx) (d : BitVec 3) (b : Bool) : (c.updSeq .c (fun st => st.wq d b)).fieldView = c.fieldView := by
  simp only [Ctx.updSeq, SeqState.wq]; split <;> rfl
@[simp] theorem Ctx.bankView_wq (c : Ctx) (d : BitVec 3) (b : Bool) : (c.updSeq .c (fun st => st.wq d b)).bankView = c.bankView := rfl

/-- An operation of a true word, in a bundle that began on `o`, has an effect on the context and notes the queue heads of its sources,
wherever the context, for a word of the bank, still shows the bank that `o` shows. -/
def Performs (bank : Prop) (o : Ctx) (op : M Unit) (srcs : List (BitVec 5)) (effect : Ctx → Ctx) : Prop :=
  ∀ (t : State) (b : Bundle), t.cur = .c → t.bun = some b → b.old = o → (∀ c ∈ srcs, (o.image c).isSome = true) →
    (bank → t.cx.bankView = o.bankView) →
    op t = .ok () { t with cx := effect t.cx, bun := some { b with takes := b.takes ++ srcs.flatMap takesOf } }

/-- An instruction does in a bundle that began on `o` what its row says. -/
structure Enacts (o : Ctx) (i : Instr) (r : BundleRow) : Prop where
  runs : ∃ op, (∀ t, t.cur = .c → after i t = runC r.words r.truth r.tk op t) ∧
    Performs (i.slotClass = .opt) o op r.srcs r.effect
  words : r.words = i.words
  fields : ∀ c, (r.effect c).fieldView = c.fieldView
  bank : i.slotClass ≠ .opt → ∀ c, (r.effect c).bankView = c.bankView

/-! ## Operations -/

section
variable {o : Ctx}

/-- Reading a source, then the rest. -/
theorem src_bind {t : State} {b : Bundle} {c : BitVec 5} {f : Image → M Unit} (hb : t.bun = some b) (ho : b.old = o)
    (h : (o.image c).isSome = true) :
    (src c >>= f) t = f (o.imageD c) { t with bun := some { b with takes := b.takes ++ takesOf c } } := by
  subst ho; exact bind_ok (src_ok hb h)

theorem operands_bun {t : State} {b : Bundle} (hb : t.bun = some b) : t.operands = b.old := by simp only [State.operands, hb]

/-- A change of the context alone. -/
theorem performs_modCx {bank : Prop} (f : Ctx → Ctx) : Performs bank o (modCx f) [] f := by
  intro t b _ hb _ _ _
  rw [modCx_run]
  cases t; simp only at hb; subst hb; simp

/-- An operation on the context before the bundle. -/
theorem performs_opsCx {bank : Prop} {g : Ctx → M Unit} {srcs : List (BitVec 5)} {f : Ctx → Ctx}
    (h : Performs bank o (g o) srcs f) : Performs bank o (opsCx >>= g) srcs f := by
  intro t b hc hb ho
  rw [opsCx_bind, operands_bun hb]
  subst ho
  exact h t b hc hb rfl

/-- An operation on the image of a source. -/
theorem performs_src {bank : Prop} {g : Image → M Unit} {c : BitVec 5} {srcs : List (BitVec 5)} {f : Ctx → Ctx}
    (h : Performs bank o (g (o.imageD c)) srcs f) : Performs bank o (src c >>= g) (c :: srcs) f := by
  intro t b hc hb ho hs hv
  rw [src_bind hb ho (hs c List.mem_cons_self), h { t with bun := some { b with takes := b.takes ++ takesOf c } } _ hc rfl ho
    (fun c hc => hs c (List.mem_cons_of_mem _ hc)) hv]
  simp

/-- An operation that first looks at the context as it is, of which it reads what the context before the bundle shows. -/
theorem performs_get {bank : Prop} {g : State → M Unit} {srcs : List (BitVec 5)} {f : Ctx → Ctx}
    (h : ∀ u : State, (bank → u.cx.bankView = o.bankView) → Performs bank o (g u) srcs f) : Performs bank o (get >>= g) srcs f := by
  intro t b hc hb ho hs hv
  rw [get_run]
  exact h t hv t b hc hb ho hs hv

/-- An operation after one that goes on and changes nothing. -/
theorem performs_pass {bank : Prop} {m : M Unit} {g : Unit → M Unit} {srcs : List (BitVec 5)} {f : Ctx → Ctx}
    (hm : ∀ t : State, (bank → t.cx.bankView = o.bankView) → t.operands = o → m t = .ok () t) (h : Performs bank o (g ()) srcs f) :
    Performs bank o (m >>= g) srcs f := by
  intro t b hc hb ho hs hv
  rw [bind_ok (hm t hv ((operands_bun hb).trans ho))]
  exact h t b hc hb ho hs hv

/-- The true lanes of v[d] written. -/
theorem performs_setV {bank : Prop} (d : BitVec 4) (g : BitVec 6) (new : Image) :
    Performs bank o (setV d g new) [] (fun c => c.wv d (mergeLanes (o.rp g) new (c.v.get d))) :=
  performs_opsCx (performs_modCx _)

end

/-! ## The vector family (08 R238 to R243) -/

section
variable {o : Ctx} {i : Instr}

/-- A word with a lane predicate. -/
theorem Enacts.of_lanes {h : Tl} {g : BitVec 6} {words : Nat} {op : M Unit} {srcs : List (BitVec 5)} {f : Ctx → Ctx}
    (hx : ∀ t, exec i t = runCv h g words op t) (hw : i.words = words) (hp : Performs (i.slotClass = .opt) o op srcs f)
    (hf : ∀ c, (f c).fieldView = c.fieldView) (hb : ∀ c, (f c).bankView = c.bankView) :
    Enacts o i ⟨fun c => c.rp g != 0, h.tk, words, srcs, f⟩ :=
  ⟨⟨op, fun t _ => by unfold after; rw [hx]; rfl, hp⟩, hw.symm, hf, fun _ => hb⟩

/-- A word that always executes. -/
theorem Enacts.of_always {h : Tl} {op : M Unit} {srcs : List (BitVec 5)} {f : Ctx → Ctx}
    (hx : ∀ t, exec i t = runCa h op t) (hw : i.words = 1) (hp : Performs (i.slotClass = .opt) o op srcs f)
    (hf : ∀ c, (f c).fieldView = c.fieldView) (hb : ∀ c, (f c).bankView = c.bankView) :
    Enacts o i ⟨fun _ => true, h.tk, 1, srcs, f⟩ :=
  ⟨⟨op, fun t _ => by unfold after; rw [hx]; rfl, hp⟩, hw.symm, hf, fun _ => hb⟩

/-- A word whose truth is its qp. -/
theorem Enacts.of_qp {h : Hd} {op : M Unit} {srcs : List (BitVec 5)} {f : Ctx → Ctx}
    (hx : ∀ t, exec i t = runCq h 1 op t) (hw : i.words = 1) (hp : Performs (i.slotClass = .opt) o op srcs f)
    (hf : ∀ c, (f c).fieldView = c.fieldView) (hb : i.slotClass ≠ .opt → ∀ c, (f c).bankView = c.bankView) :
    Enacts o i ⟨fun c => c.seqC.rq h.qp, h.tk, 1, srcs, f⟩ :=
  ⟨⟨op, fun t _ => by unfold after; rw [hx]; rfl, hp⟩, hw.symm, hf, hb⟩

/-- A word that writes the true lanes of a vector register. -/
theorem Enacts.of_setV {h : Tl} {g : BitVec 6} {d : BitVec 4} {words : Nat} {op : M Unit} {srcs : List (BitVec 5)} {new : Image}
    (hx : ∀ t, exec i t = runCv h g words op t) (hw : i.words = words)
    (hp : Performs (i.slotClass = .opt) o op srcs (laneRow o h words g d srcs new).effect) : Enacts o i (laneRow o h words g d srcs new) :=
  .of_lanes hx hw hp (fun _ => Ctx.fieldView_wv ..) (fun _ => Ctx.bankView_wv ..)

/-- A two-operand instruction of the vector family. -/
theorem Enacts.of_vector2 {h : Tl} {g : BitVec 6} {d : BitVec 4} {a b : BitVec 5} {f f' : Nat → Nat → Nat → Nat}
    (hx : ∀ t, exec i t = runCv h g 1 (vector2 d a b g f') t) (hw : i.words = 1) (hf : f' = f) :
    Enacts o i (laneRow o h 1 g d [a, b] (lanes3 f (o.imageD a) (o.imageD b) (o.v.get d))) := by
  subst hf
  exact .of_setV hx hw (performs_opsCx (performs_src (performs_src (performs_setV d g _))))

/-- A unary one. -/
theorem Enacts.of_vector1 {h : Tl} {g : BitVec 6} {d : BitVec 4} {a : BitVec 5} {f f' : Nat → Nat}
    (hx : ∀ t, exec i t = runCv h g 1 (vector1 d a g f') t) (hw : i.words = 1) (hf : f' = f) :
    Enacts o i (laneRow o h 1 g d [a] (lanes1 f (o.imageD a))) := by
  subst hf
  exact .of_setV hx hw (performs_src (performs_setV d g _))

/-- An axis move. -/
theorem Enacts.of_axisMove {h : Tl} {g : BitVec 6} {d n : BitVec 4} {a : BitVec 5} {from0 : Nat → Nat → Nat → Nat × Nat}
    (hx : ∀ t, exec i t = runCv h g 1 (axisMove d a n g from0) t) (hw : i.words = 1) :
    Enacts o i (laneRow o h 1 g d [a]
      (imageBy (fun r c => laneAt (o.imageD a) (from0 (o.ra n).toNat r c).1 (from0 (o.ra n).toNat r c).2))) :=
  .of_setV hx hw (performs_opsCx (performs_src (performs_setV d g _)))

/-- A reduction or a scan, which writes every lane. -/
theorem Enacts.of_axisReduce {h : Tl} {g : BitVec 6} {d : BitVec 4} {a op : BitVec 5} {y : BitVec 2} {rowAxis : Bool}
    {f : List Nat → List Nat} (hx : ∀ t, exec i t = runCv h g 1 (axisReduce d a op g y rowAxis f) t) (hw : i.words = 1) :
    Enacts o i ⟨fun c => c.rp g != 0, h.tk, 1, [a], fun c => c.wv d (imageOf (
      let rows := rowsOf (masked (o.rp g) (redId op.toNat y) (o.imageD a))
      if rowAxis then (rows.map f).flatten
      else (List.range 16).flatMap (fun r => ((colsOf rows).map f).map (fun l => (l[r]?).getD 0))))⟩ :=
  .of_lanes hx hw (performs_opsCx (performs_src (performs_modCx _))) (fun _ => Ctx.fieldView_wv ..) (fun _ => Ctx.bankView_wv ..)

/-- A special function: its write is pending. -/
theorem Enacts.of_special {h : Tl} {g : BitVec 6} {d : BitVec 4} {a : BitVec 5} {y : BitVec 2} {f : Fmt → Nat → Nat}
    (hx : ∀ t, exec i t = runCv h g 1 (special d a g y f) t) (hw : i.words = 1) :
    Enacts o i ⟨fun c => c.rp g != 0, h.tk, 1, [a], fun c => { c with sfu := c.sfu ++
      [⟨d, o.rp g, lanes1 (fun l => perElem y (fun fm x _ _ => f fm x) (fun x _ _ => x) l 0 0) (o.imageD a), 6⟩] }⟩ :=
  .of_lanes hx hw (performs_opsCx (performs_src (performs_modCx _))) (fun _ => rfl) (fun _ => rfl)

/-- A predicate register from two others. -/
theorem Enacts.of_pred2 {h : Tl} {d a b : BitVec 6} {f : BitVec 1024 → BitVec 1024 → BitVec 1024}
    (hx : ∀ t, exec i t = runCa h (pred2 d a b f) t) (hw : i.words = 1) :
    Enacts o i ⟨fun _ => true, h.tk, 1, [], fun c => c.wp d (f (o.rp a) (o.rp b))⟩ :=
  .of_always hx hw (performs_opsCx (performs_modCx _)) (fun _ => Ctx.fieldView_wp ..) (fun _ => Ctx.bankView_wp ..)

end

/-! ## Values -/

/-- Integers whose low 32 bits agree make the same lanes. -/
theorem perElem_congr (y : BitVec 2) (fl : Fmt → Nat → Nat → Nat → Nat) {f g : Nat → Nat → Nat → Nat}
    (h : ∀ a b d, f a b d % 2 ^ 32 = g a b d % 2 ^ 32) : perElem y fl f = perElem y fl g := by
  funext a b d
  unfold perElem
  split
  · rfl
  · exact h a b d
  · rfl

/-- A lane read as a signed number and written back keeps its 32 bits. -/
theorem uI_sI (a : Nat) : uI (sI a) = a % 2 ^ 32 := by
  unfold uI sI signExt
  have := Nat.mod_lt a (show 0 < 2 ^ 32 by decide)
  split <;> rw [BitVec.toNat_ofInt] <;> omega

theorem uI_min (a b : Nat) : (if sI a ≤ sI b then a else b) % 2 ^ 32 = uI (min (sI a) (sI b)) % 2 ^ 32 := by
  rw [min_def]; split <;> rw [uI_sI, Nat.mod_mod]
theorem uI_max (a b : Nat) : (if sI a ≤ sI b then b else a) % 2 ^ 32 = uI (max (sI a) (sI b)) % 2 ^ 32 := by
  rw [max_def]; split <;> rw [uI_sI, Nat.mod_mod]

/-- PANY asks for a lane with both bits. -/
theorem and_ne_zero_iff_any (x y : BitVec 1024) :
    (x &&& y != 0) = (List.range 1024).any (fun j => x.getLsbD j && y.getLsbD j) := by
  rw [Bool.eq_iff_iff, bne_iff_ne, List.any_eq_true, ne_eq, BitVec.eq_of_getLsbD_eq_iff]
  simp

/-- PALL asks that every lane of its second operand be one of its first. -/
theorem and_not_eq_zero_iff_all (x y : BitVec 1024) :
    (y &&& ~~~x == 0) = (List.range 1024).all (fun j => !y.getLsbD j || x.getLsbD j) := by
  rw [Bool.eq_iff_iff, beq_iff_eq, List.all_eq_true, BitVec.eq_of_getLsbD_eq_iff]
  refine forall_congr' fun j => ?_
  rw [List.mem_range]
  refine forall_congr' fun hj => ?_
  rw [BitVec.getLsbD_and, BitVec.getLsbD_not]
  cases y.getLsbD j <;> cases x.getLsbD j <;> simp [hj]

/-- PCNT counts the lanes that are set. -/
theorem countBits_eq_length (n v : Nat) : countBits n v = ((List.range n).filter (fun j => v.testBit j)).length := by
  induction n generalizing v with
  | zero => rfl
  | succ n ih =>
    rw [countBits, ih, List.range_succ_eq_map, List.filter_cons, List.filter_map, Nat.testBit_zero]
    have : ((fun j => v.testBit j) ∘ Nat.succ) = fun j => (v / 2).testBit j := by
      funext j; exact Nat.testBit_succ v j
    rw [this]
    rcases Nat.mod_two_eq_zero_or_one v with h | h <;> simp [h, Nat.add_comm]

/-! ## The rows of the families -/

section
variable {o : Ctx} {i : Instr} {r : BundleRow}

theorem enacts_vectorArithmetic (h : vectorArithmetic i o = some r) : Enacts o i r := by
  unfold vectorArithmetic at h
  split at h
  case h_1 => obtain rfl := Option.some.inj h; exact .of_vector2 (fun _ => rfl) rfl rfl
  case h_2 => obtain rfl := Option.some.inj h; exact .of_vector2 (fun _ => rfl) rfl rfl
  case h_3 => obtain rfl := Option.some.inj h; exact .of_vector2 (fun _ => rfl) rfl rfl
  case h_4 => obtain rfl := Option.some.inj h; exact .of_vector2 (fun _ => rfl) rfl rfl
  case h_5 => obtain rfl := Option.some.inj h; exact .of_vector2 (fun _ => rfl) rfl rfl
  case h_6 => obtain rfl := Option.some.inj h; exact .of_vector2 (fun _ => rfl) rfl (perElem_congr _ _ fun a b _ => uI_min a b)
  case h_7 => obtain rfl := Option.some.inj h; exact .of_vector2 (fun _ => rfl) rfl (perElem_congr _ _ fun a b _ => uI_max a b)
  case h_8 =>
    obtain rfl := Option.some.inj h
    exact .of_vector1 (fun _ => rfl) rfl (funext fun x => by rw [perElem_congr _ _ fun a _ _ => by rw [Int.natCast_natAbs]])
  case h_9 => obtain rfl := Option.some.inj h; exact .of_vector1 (fun _ => rfl) rfl rfl
  case h_10 => obtain rfl := Option.some.inj h; exact .of_vector2 (fun _ => rfl) rfl rfl
  case h_11 => exact nomatch h

theorem enacts_vectorLogic (h : vectorLogic i o = some r) : Enacts o i r := by
  unfold vectorLogic at h
  split at h
  case h_4 => obtain rfl := Option.some.inj h; exact .of_vector1 (fun _ => rfl) rfl rfl
  case h_8 => exact nomatch h
  all_goals obtain rfl := Option.some.inj h; exact .of_vector2 (fun _ => rfl) rfl rfl

theorem enacts_vectorMove (h : vectorMove i o = some r) : Enacts o i r := by
  unfold vectorMove at h
  split at h
  case h_1 => obtain rfl := Option.some.inj h; exact .of_setV (fun _ => rfl) rfl (performs_src (performs_setV _ _ _))
  case h_2 => obtain rfl := Option.some.inj h; exact .of_setV (fun _ => rfl) rfl (performs_setV _ _ _)
  case h_3 => obtain rfl := Option.some.inj h; exact .of_setV (fun _ => rfl) rfl (performs_opsCx (performs_src (performs_setV _ _ _)))
  case h_4 =>
    obtain rfl := Option.some.inj h
    exact .of_always (fun _ => rfl) rfl (performs_src (performs_src (performs_modCx _)))
      (fun _ => Ctx.fieldView_wp ..) (fun _ => Ctx.bankView_wp ..)
  case h_5 =>
    obtain rfl := Option.some.inj h
    exact .of_always (fun _ => rfl) rfl (performs_opsCx (performs_src (performs_src (performs_modCx _))))
      (fun _ => Ctx.fieldView_wv ..) (fun _ => Ctx.bankView_wv ..)
  case h_6 => exact nomatch h

theorem enacts_vectorAxis (h : vectorAxis i o = some r) : Enacts o i r := by
  unfold vectorAxis at h
  split at h
  case h_1 => obtain rfl := Option.some.inj h; exact .of_axisMove (from0 := fun n r c => (r, (c + 64 - n % 64) % 64)) (fun _ => rfl) rfl
  case h_2 => obtain rfl := Option.some.inj h; exact .of_axisMove (from0 := fun n r c => ((r + 16 - n % 16) % 16, c)) (fun _ => rfl) rfl
  case h_3 => obtain rfl := Option.some.inj h; exact .of_axisMove (from0 := fun n r _ => (r, n % 64)) (fun _ => rfl) rfl
  case h_4 => obtain rfl := Option.some.inj h; exact .of_axisMove (from0 := fun n _ c => (n % 16, c)) (fun _ => rfl) rfl
  case h_5 => obtain rfl := Option.some.inj h; exact .of_axisReduce (rowAxis := true) (f := spread _) (fun _ => rfl) rfl
  case h_6 => obtain rfl := Option.some.inj h; exact .of_axisReduce (rowAxis := false) (f := spread _) (fun _ => rfl) rfl
  case h_7 => obtain rfl := Option.some.inj h; exact .of_axisReduce (rowAxis := true) (f := scanOf _) (fun _ => rfl) rfl
  case h_8 => obtain rfl := Option.some.inj h; exact .of_axisReduce (rowAxis := false) (f := scanOf _) (fun _ => rfl) rfl
  case h_9 => exact nomatch h

theorem enacts_vectorQueued (h : vectorQueued i o = some r) : Enacts o i r := by
  unfold vectorQueued at h
  split at h
  case h_6 hd n a g =>
    split at h
    · next hn =>
      split at h
      · next hr =>
        obtain rfl := Option.some.inj h
        refine .of_lanes (op := _) (fun _ => rfl) rfl (performs_opsCx (performs_src ?_))
          (fun _ => Ctx.fieldView_setSq ..) (fun _ => Ctx.bankView_setSq ..)
        rw [if_pos hn, if_neg (by omega)]
        exact performs_modCx _
      · exact nomatch h
    · next hn =>
      split at h
      · next hr =>
        obtain rfl := Option.some.inj h
        refine .of_lanes (op := _) (fun _ => rfl) rfl (performs_opsCx (performs_src ?_)) (fun _ => rfl) (fun _ => rfl)
        rw [if_neg hn, if_neg (by omega)]
        exact performs_modCx _
      · exact nomatch h
  case h_7 => exact nomatch h
  all_goals obtain rfl := Option.some.inj h; exact .of_special (fun _ => rfl) rfl

/-- A word writes a predicate of the sequencer. -/
theorem performs_setQ {bank : Prop} (d : BitVec 3) (v : Bool) :
    Performs bank o (setQ d v) [] (fun c => c.updSeq .c (fun st => st.wq d v)) := by
  intro t b hc hb _ _ _
  rw [setQ, modSeq_run, hc]
  cases t; simp only at hb hc; subst hb hc; simp

theorem enacts_lanePredicates (h : lanePredicates i o = some r) : Enacts o i r := by
  unfold lanePredicates at h
  split at h
  case h_6 =>
    obtain rfl := Option.some.inj h
    rw [← and_ne_zero_iff_any]
    exact .of_always (fun _ => rfl) rfl (performs_opsCx (performs_setQ _ _)) (fun _ => Ctx.fieldView_wq ..) (fun _ => Ctx.bankView_wq ..)
  case h_7 =>
    obtain rfl := Option.some.inj h
    rw [← and_not_eq_zero_iff_all]
    exact .of_always (fun _ => rfl) rfl (performs_opsCx (performs_setQ _ _)) (fun _ => Ctx.fieldView_wq ..) (fun _ => Ctx.bankView_wq ..)
  case h_8 hd d a b =>
    obtain rfl := Option.some.inj h
    have count : ((List.range 1024).filter (fun j => (o.rp a).getLsbD j && (o.rp b).getLsbD j)).length =
        countBits 1024 (o.rp a &&& o.rp b).toNat := by
      rw [countBits_eq_length]; simp only [← BitVec.getLsbD_and]; rfl
    rw [count]
    exact .of_always (fun _ => rfl) rfl (performs_opsCx (performs_modCx _)) (fun _ => Ctx.fieldView_wa ..) (fun _ => Ctx.bankView_wa ..)
  case h_4 => obtain rfl := Option.some.inj h; exact .of_pred2 (f := fun x _ => ~~~x) (fun _ => rfl) rfl
  case h_5 => obtain rfl := Option.some.inj h; exact .of_pred2 (f := fun x _ => x) (fun _ => rfl) rfl
  case h_9 => exact nomatch h
  all_goals obtain rfl := Option.some.inj h; exact .of_pred2 (fun _ => rfl) rfl

theorem enacts_tilesAndAddresses (h : tilesAndAddresses i o = some r) : Enacts o i r := by
  unfold tilesAndAddresses at h
  split at h
  case h_1 => obtain rfl := Option.some.inj h; exact .of_qp (fun _ => rfl) rfl (performs_opsCx (performs_modCx _)) (fun _ => rfl) (fun _ _ => rfl)
  case h_2 => obtain rfl := Option.some.inj h; exact .of_qp (fun _ => rfl) rfl (performs_opsCx (performs_modCx _)) (fun _ => rfl) (fun _ _ => rfl)
  case h_3 => obtain rfl := Option.some.inj h; exact .of_qp (fun _ => rfl) rfl (performs_opsCx (performs_modCx _)) (fun _ => rfl) (fun _ _ => rfl)
  case h_4 => obtain rfl := Option.some.inj h; exact .of_qp (fun _ => rfl) rfl (performs_modCx _) (fun _ => rfl) (fun _ _ => rfl)
  case h_8 =>
    split at h
    · next ok =>
      obtain rfl := Option.some.inj h
      refine .of_qp (op := _) (fun _ => rfl) rfl (performs_opsCx ?_) (fun _ => rfl) (fun _ _ => rfl)
      rw [if_pos ok]
      exact performs_modCx _
    · exact nomatch h
  case h_10 =>
    obtain rfl := Option.some.inj h
    exact .of_always (fun _ => rfl) rfl (performs_opsCx (performs_modCx _)) (fun _ => Ctx.fieldView_wa ..) (fun _ => Ctx.bankView_wa ..)
  case h_11 => exact nomatch h
  all_goals
    obtain rfl := Option.some.inj h
    exact .of_qp (fun _ => rfl) rfl (performs_opsCx (performs_modCx _)) (fun _ => by simp) (fun _ _ => by simp)

end

/-! ## The bank (10 R299, R308, R312, R313) -/

section
variable {o : Ctx} {i : Instr} {r : BundleRow}

/-- Where no fault of the bank was recorded before the bundle, none is raised. -/
theorem raiseBank_ok {t : State} (h : t.operands.deferred = []) : raiseBank t = .ok () t := by
  rw [raiseBank, get_run, h]; rfl

/-- A word that raises a fault of the bank first. -/
theorem performs_raiseBank {bank : Prop} {op : M Unit} {srcs : List (BitVec 5)} {f : Ctx → Ctx} (hd : o.deferred = [])
    (h : Performs bank o op srcs f) : Performs bank o (do raiseBank; op) srcs f :=
  performs_pass (fun _ _ ht => raiseBank_ok (by rw [ht, hd])) h

theorem Ctx.accDone_of_bankView {c : Ctx} (h : c.bankView = o.bankView) (a : BitVec 4) : c.accDone a = o.accFree a := by
  obtain ⟨-, hw, -, -⟩ := by simpa only [Ctx.bankView, Prod.mk.injEq] using h
  rw [Ctx.accDone, Ctx.accFree, hw]

theorem Ctx.bankIdle_of_bankView {c : Ctx} (h : c.bankView = o.bankView) : c.bankIdle = o.bankIdle := by
  obtain ⟨-, hw, he, -⟩ := by simpa only [Ctx.bankView, Prod.mk.injEq] using h
  rw [Ctx.bankIdle, Ctx.bankIdle, hw, he]

theorem Ctx.onBcast_of_bankView {c : Ctx} (h : c.bankView = o.bankView) : c.onBcast = o.onBcast := by
  obtain ⟨hid, -, -, -⟩ := by simpa only [Ctx.bankView, Prod.mk.injEq] using h
  rw [Ctx.onBcast, Ctx.onBcast, hid]

/-- A WACC whose accumulator no window is still to reach does not wait. -/
theorem performs_accWait {op : M Unit} {srcs : List (BitVec 5)} {f : Ctx → Ctx} {a : BitVec 4} (ha : o.accFree a = true)
    (h : Performs True o op srcs f) : Performs True o (do accWait a; op) srcs f := by
  refine performs_pass (fun t ht _ => ?_) h
  rw [accWait, get_run, Ctx.accDone_of_bankView (ht trivial), ha, waitUnless_true]

/-- A word of the bank of a compute core that has recorded no fault. -/
theorem Enacts.of_bank {h : Hd} {op : M Unit} {srcs : List (BitVec 5)} {f : Ctx → Ctx} (hx : ∀ t, exec i t = runBank h 1 op t)
    (hw : i.words = 1) (hc : i.slotClass = .opt) (hd : o.deferred.isEmpty = true) (hb : o.onBcast = false)
    (hp : Performs True o op srcs f) (hf : ∀ c, (f c).fieldView = c.fieldView) :
    Enacts o i ⟨fun c => c.seqC.rq h.qp, h.tk, 1, srcs, f⟩ := by
  refine .of_qp hx hw ?_ hf (fun hn => absurd hc hn)
  rw [eq_true hc]
  refine performs_raiseBank (List.isEmpty_iff.1 hd) (performs_get fun u hu => ?_)
  rw [Ctx.onBcast_of_bankView (hu trivial), hb]
  exact hp

/-- WSTAT of a queue that holds an entry. -/
theorem performs_popStatus {f : Ctx → Ctx} {e : BitVec 1} {w : WindowStatus} {rest : List WindowStatus} (hq : o.wstat = w :: rest)
    (hf : ∀ c, (f c).wstat = c.wstat) :
    Performs True o (do modCx f; if e = 1 then pure () else modCx (fun c => { c with wstat := c.wstat.tail })) []
      (fun c => { f c with wstat := if e = 1 then o.wstat else rest }) := by
  intro t b _ hb _ _ hv
  obtain ⟨-, -, -, hw⟩ := by simpa only [Ctx.bankView, Prod.mk.injEq] using hv trivial
  rw [modCx_bind]
  have hb' : t.bun = some { b with takes := b.takes ++ ([] : List (BitVec 5)).flatMap takesOf } := by simpa using hb
  by_cases he : e = 1
  · have keep : ∀ c, c.wstat = o.wstat → ({ c with wstat := o.wstat } : Ctx) = c := fun c h => by rw [← h]
    dsimp only
    rw [if_pos he, if_pos he, pure_run, keep _ ((hf _).trans hw), ← hb']
  · dsimp only
    rw [if_neg he, if_neg he, modCx_run, hf, hw, hq, List.tail_cons, ← hb']

/-- What the row of a bank register asks for. -/
theorem of_bankRow {ok : Bool} {r' : BundleRow} (hm : i.maps.contains .b = false)
    (h : (if o.deferred.isEmpty && (!o.onBcast || i.maps.contains .b) && ok then some r' else none) = some r) :
    o.deferred.isEmpty = true ∧ o.onBcast = false ∧ ok = true ∧ r' = r := by
  obtain ⟨hok, hr⟩ := Option.ite_none_right_eq_some.1 h
  simp only [Bool.and_eq_true, hm, Bool.or_false, Bool.not_eq_true'] at hok
  obtain ⟨⟨hd, hb⟩, hv⟩ := hok
  exact ⟨hd, hb, hv, Option.some.inj hr⟩

/-- LVTSET, where no window is pending; its operation is then that of one of its two tables. -/
theorem Enacts.of_lvtset {h : Hd} {t : BitVec 1} {n : BitVec 3} {a : BitVec 5} {f : Ctx → Ctx} {op : Image → M Unit}
    (hx : ∀ u, exec (.lvtset h t n a) u = runCw h 1 (do let img ← src a; let s ← get; waitUnless s.cx.bankIdle .windows; op img) u)
    (hd : o.deferred.isEmpty = true) (hq : o.bankIdle = true) (hp : Performs True o (op (o.imageD a)) [] f)
    (hf : ∀ c, (f c).fieldView = c.fieldView) :
    Enacts o (.lvtset h t n a) ⟨fun c => c.seqC.rq h.qp, h.tk, 1, [a], f⟩ := by
  refine .of_qp hx rfl ?_ hf (fun hn => absurd rfl hn)
  have hc : (Instr.lvtset h t n a).slotClass = .opt := rfl
  rw [eq_true hc]
  refine performs_raiseBank (List.isEmpty_iff.1 hd) (performs_src (performs_get fun u hu => ?_))
  rw [Ctx.bankIdle_of_bankView (hu trivial), hq]
  exact performs_pass (fun _ _ _ => waitUnless_true ..) hp

/-- A check that holds. -/
theorem performs_require {bank : Prop} {b : Bool} {cause : Nat} {op : M Unit} {srcs : List (BitVec 5)} {f : Ctx → Ctx} (hb : b = true)
    (h : Performs bank o op srcs f) : Performs bank o (do require b cause; op) srcs f := by
  subst hb; exact performs_pass (fun _ _ _ => require_true ..) h

theorem enacts_lvtset {h : Hd} {t : BitVec 1} {n : BitVec 3} {a : BitVec 5} (hr : bankRegisters (.lvtset h t n a) o = some r) :
    Enacts o (.lvtset h t n a) r := by
  simp only [bankRegisters] at hr
  split at hr
  · next ht =>
    obtain ⟨hok, hr⟩ := Option.ite_none_right_eq_some.1 hr
    rw [Bool.and_eq_true, Bool.and_eq_true, Bool.and_eq_true] at hok
    obtain ⟨⟨hd, -⟩, hq, hv⟩ := hok
    obtain rfl := Option.some.inj hr
    refine .of_lvtset (op := _) (fun _ => rfl) hd hq ?_ (fun _ => rfl)
    rw [if_pos ht]
    exact performs_require hv (performs_modCx _)
  · next ht =>
    obtain ⟨hok, hr⟩ := Option.ite_none_right_eq_some.1 hr
    rw [Bool.and_assoc, Bool.and_assoc, Bool.and_assoc, Bool.and_eq_true, Bool.and_eq_true, Bool.and_eq_true, ← Bool.and_assoc] at hok
    obtain ⟨hd, -, hq, hv⟩ := hok
    obtain rfl := Option.some.inj hr
    refine .of_lvtset (op := _) (fun _ => rfl) hd hq ?_ (fun _ => rfl)
    rw [if_neg ht]
    exact performs_require hv (performs_modCx _)

theorem enacts_bankRegisters (h : bankRegisters i o = some r) : Enacts o i r := by
  unfold bankRegisters at h
  split at h
  case h_1 =>
    obtain ⟨hd, hb, hv, rfl⟩ := of_bankRow rfl h
    refine .of_bank (op := _) (fun _ => rfl) rfl rfl hd hb (performs_opsCx ?_) (fun _ => Ctx.fieldView_setBankReg ..)
    rw [if_pos hv]
    exact performs_modCx _
  case h_2 =>
    obtain ⟨hd, hb, -, rfl⟩ := of_bankRow rfl h
    exact .of_bank (fun _ => rfl) rfl rfl hd hb (performs_opsCx (performs_modCx _)) (fun _ => Ctx.fieldView_wa ..)
  case h_3 =>
    obtain ⟨hd, hb, hv, rfl⟩ := of_bankRow rfl h
    exact .of_bank (fun _ => rfl) rfl rfl hd hb (performs_accWait hv (performs_modCx _)) (fun _ => Ctx.fieldView_wv ..)
  case h_4 =>
    obtain ⟨hd, hb, hv, rfl⟩ := of_bankRow rfl h
    exact .of_bank (fun _ => rfl) rfl rfl hd hb (performs_accWait hv (performs_src (performs_modCx _))) (fun _ => rfl)
  case h_5 =>
    obtain ⟨hd, hb, hv, rfl⟩ := of_bankRow rfl h
    exact .of_bank (fun _ => rfl) rfl rfl hd hb (performs_accWait hv (performs_modCx _)) (fun _ => rfl)
  case h_6 hd d p e =>
    obtain ⟨hd, hb, -, rfl⟩ := of_bankRow rfl h
    cases hq : o.wstat with
    | nil =>
      refine .of_bank (op := _) (fun _ => rfl) rfl rfl hd hb (performs_opsCx ?_) (fun _ => by simp)
      rw [hq]
      exact performs_modCx _
    | cons w rest =>
      refine .of_bank (op := _) (fun _ => rfl) rfl rfl hd hb (performs_opsCx ?_) (fun _ => ?_)
      · rw [hq]
        simpa only [hq] using performs_popStatus hq 
          (fun c => congrArg (·.2.2.2) ((Ctx.bankView_wp ..).trans (Ctx.bankView_wa ..)))
      · exact (Ctx.fieldView_wp ..).trans (Ctx.fieldView_wa ..)
  case h_7 => exact enacts_lvtset h
  case h_8 => exact nomatch h

end

/-! ## Every row -/

/-- Doing nothing. -/
theorem performs_pure {bank : Prop} {o : Ctx} : Performs bank o (pure ()) [] id := by
  intro t b _ hb _ _ _
  cases t; simp only at hb; subst hb; simp

/-- An instruction that has a row does what it says. -/
theorem enacts_of_rowOf {o : Ctx} {i : Instr} {r : BundleRow} (h : rowOf i o = some r) : Enacts o i r := by
  unfold rowOf at h
  split at h
  case h_1 hd =>
    obtain rfl := Option.some.inj h
    refine ⟨⟨pure (), fun t hc => ?_, performs_pure⟩, rfl, fun _ => rfl, fun _ _ => rfl⟩
    show (match execNop hd t with | .next u => u | _ => t) = _
    rw [execNop, if_pos hc]
  case h_2 =>
    simp only [Option.or_eq_some_iff] at h
    obtain h | ⟨-, h | ⟨-, h | ⟨-, h | ⟨-, h | ⟨-, h | ⟨-, h | ⟨-, h⟩⟩⟩⟩⟩⟩⟩ := h
    · exact enacts_vectorArithmetic h
    · exact enacts_vectorLogic h
    · exact enacts_vectorMove h
    · exact enacts_vectorAxis h
    · exact enacts_vectorQueued h
    · exact enacts_lanePredicates h
    · exact enacts_tilesAndAddresses h
    · exact enacts_bankRegisters h

/-! ## A word among others -/

/-- The bundle after a word that has taken the heads of its sources. -/
def Bundle.passed (b : Bundle) (tk : BitVec 3) (srcs : List (BitVec 5)) : Bundle :=
  { b with taken := b.taken ++ (b.old.openField .c tk).toList
           takes := b.takes ++ srcs.flatMap takesOf
           posts := b.posts ++ (fieldPost .c tk).toList.map (fun i => (i, 1, b.off)) }

/-- What the row of a word says of its sources, where it is true. -/
def BundleRow.reads (r : BundleRow) (o : Ctx) : List (BitVec 5) := if r.truth o then r.srcs else []
/-- What it does to the context, with its token. -/
def BundleRow.passed (r : BundleRow) (o c : Ctx) : Ctx := (if r.truth o then r.effect else id) (c.takenBy .c r.tk)

/-- A true word that finds its token. -/
theorem slot_performs {bank : Prop} {o : Ctx} {op : M Unit} {srcs : List (BitVec 5)} {f : Ctx → Ctx} {t : State} {b : Bundle} {tk : BitVec 3}
    (hp : Performs bank o op srcs f) (hc : t.cur = .c) (hb : t.bun = some b) (ho : b.old = o) (hf : t.cx.seqC.fielded = o.seqC.fielded)
    (htok : ∀ i, o.openField .c tk = some i → 0 < t.cx.tokens i) (hs : ∀ c ∈ srcs, (o.image c).isSome = true)
    (hv : bank → t.cx.bankView = o.bankView) :
    slot true tk op t = { t with cx := f (t.cx.takenBy .c tk), bun := some (b.passed tk srcs) } := by
  have hopen : t.cx.openField .c tk = o.openField .c tk := by unfold Ctx.openField Ctx.seq; rw [hf]
  have hop := hp { t with cx := t.cx.takenBy .c tk, bun := some { b with taken := b.taken ++ (b.old.openField .c tk).toList } } _ hc rfl ho hs
    (fun h => by simpa using hv h)
  have hself : ({ t with bun := some b } : State) = t := by rw [← hb]
  unfold slot Bundle.passed
  rw [hb]
  simp only
  cases hw : b.old.openField .c tk with
  | none =>
    have hnone : t.cx.takenBy .c tk = t.cx := by rw [Ctx.takenBy, hopen, ← ho, hw]
    rw [hw, Option.toList_none, List.append_nil, hnone, hself] at hop
    simp only [slot.effect, if_true, hop, hnone]
    cases fieldPost .c tk <;> simp
  | some j =>
    have hsome : t.cx.takenBy .c tk = t.cx.setTokens j (t.cx.tokens j - 1) := by rw [Ctx.takenBy, hopen, ← ho, hw]
    have h0 : t.cx.tokens j ≠ 0 := (htok j (by rw [← ho, hw])).ne'
    rw [hw, Option.toList_some, hsome] at hop
    simp only [slot.effect, if_true, if_neg h0, hop, hsome, fieldPost_of_open hw]
    simp

/-- A word of a bundle on its way, true or false. -/
theorem Enacts.slot_passed {o : Ctx} {i : Instr} {r : BundleRow} (h : Enacts o i r) {t : State} {b : Bundle} (hc : t.cur = .c)
    (hb : t.bun = some b) (ho : b.old = o) (hf : t.cx.seqC.fielded = o.seqC.fielded)
    (htok : ∀ i, o.openField .c r.tk = some i → 0 < t.cx.tokens i) (hs : r.truth o = true → ∀ c ∈ r.srcs, (o.image c).isSome = true)
    (hv : i.slotClass = .opt → t.cx.bankView = o.bankView) :
    after i t = { t with cx := r.passed o t.cx, bun := some (b.passed r.tk (r.reads o)) } := by
  obtain ⟨⟨op, hx, hp⟩, -, -, -⟩ := h
  rw [hx t hc, runC, if_neg (by simp [hc]), hb, BundleRow.passed, BundleRow.reads]
  simp only [ho]
  cases ht : r.truth o with
  | true => simpa [ht] using slot_performs hp hc hb ho hf htok (hs ht) hv
  | false =>
    rw [slot_false]
    simpa [ht] using slot_performs (performs_pure (bank := False)) hc hb ho hf htok (by simp) False.elim

/-! ## Tokens -/

theorem Ctx.tokens_setTokens {c : Ctx} {i n : Nat} (j : Nat) (hi : i < 12) (hn : n ≤ 15) :
    (c.setTokens i n).tokens j = if j = i then n else c.tokens j := by
  unfold Ctx.setTokens Ctx.tokens
  rw [dif_pos hi]
  by_cases hj : j < 12
  · by_cases h : j = i
    · subst h; simp [hj]; omega
    · simp [hj, h, Vector.getElem_set_ne _ _ (Ne.symm h)]
  · rw [dif_neg hj, dif_neg hj, if_neg (by omega)]

theorem Ctx.tokens_le (c : Ctx) (i : Nat) : c.tokens i ≤ 15 := by
  unfold Ctx.tokens; split
  · have := (c.tok[i]).isLt; omega
  · omega

theorem waitQueue_lt {q : SeqId} {tk : BitVec 3} {i : Nat} (h : fieldWait q tk = some i) : i < 12 := by
  unfold fieldWait at h; split at h
  · obtain rfl := Option.some.inj h; unfold waitQueue; omega
  · exact nomatch h
theorem postQueue_lt {q : SeqId} {tk : BitVec 3} {i : Nat} (h : fieldPost q tk = some i) : i < 12 := by
  unfold fieldPost at h; split at h
  · obtain rfl := Option.some.inj h; unfold postQueue; cases q <;> simp [seqNum] <;> omega
  · exact nomatch h
theorem openField_lt {c : Ctx} {q : SeqId} {tk : BitVec 3} {i : Nat} (h : c.openField q tk = some i) : i < 12 := by
  unfold Ctx.openField at h; split at h
  · exact waitQueue_lt h
  · exact nomatch h

theorem Ctx.tokens_takenBy (c : Ctx) (q : SeqId) (tk : BitVec 3) (j : Nat) :
    (c.takenBy q tk).tokens j = if c.openField q tk = some j then c.tokens j - 1 else c.tokens j := by
  unfold Ctx.takenBy
  cases h : c.openField q tk with
  | none => simp
  | some i =>
    have := c.tokens_le i
    simp only [Ctx.tokens_setTokens j (openField_lt h) (show c.tokens i - 1 ≤ 15 by omega), Option.some.injEq]
    by_cases hj : j = i
    · subst hj; simp
    · rw [if_neg hj, if_neg (Ne.symm hj)]

theorem Ctx.tokens_postedBy {c : Ctx} {q : SeqId} {tk : BitVec 3} (h : ∀ i, fieldPost q tk = some i → c.tokens i < 15) (j : Nat) :
    (c.postedBy q tk).tokens j = if fieldPost q tk = some j then c.tokens j + 1 else c.tokens j := by
  unfold Ctx.postedBy
  cases hp : fieldPost q tk with
  | none => simp
  | some i =>
    have := h i hp
    simp only [Ctx.tokens_setTokens j (postQueue_lt hp) (show c.tokens i + 1 ≤ 15 by omega), Option.some.injEq]
    by_cases hj : j = i
    · subst hj; simp
    · rw [if_neg hj, if_neg (Ne.symm hj)]

theorem Ctx.tokens_of_fieldView {c d : Ctx} (h : c.fieldView = d.fieldView) (i : Nat) : c.tokens i = d.tokens i := by
  have ht : c.tok = d.tok := congrArg Prod.fst h
  unfold Ctx.tokens; rw [ht]

theorem Ctx.fielded_takenBy (c : Ctx) (q : SeqId) (tk : BitVec 3) : (c.takenBy q tk).seqC.fielded = c.seqC.fielded := by
  unfold Ctx.takenBy Ctx.setTokens; split
  · split <;> rfl
  · rfl

section
variable {o : Ctx} {i : Instr} {r : BundleRow}

theorem Enacts.fieldView_passed (h : Enacts o i r) (c : Ctx) : (r.passed o c).fieldView = (c.takenBy .c r.tk).fieldView := by
  unfold BundleRow.passed; split
  · exact h.fields _
  · rfl

theorem Enacts.fielded_passed (h : Enacts o i r) (c : Ctx) : (r.passed o c).seqC.fielded = c.seqC.fielded :=
  (congrArg Prod.snd (h.fieldView_passed c)).trans (c.fielded_takenBy ..)

theorem Enacts.bankView_passed (h : Enacts o i r) (hc : i.slotClass ≠ .opt) (c : Ctx) : (r.passed o c).bankView = c.bankView := by
  unfold BundleRow.passed; split
  · rw [h.bank hc, Ctx.bankView_takenBy]
  · exact c.bankView_takenBy ..

theorem Enacts.tokens_passed (h : Enacts o i r) {c : Ctx} (hf : c.seqC.fielded = o.seqC.fielded) (j : Nat) :
    (r.passed o c).tokens j = if o.openField .c r.tk = some j then c.tokens j - 1 else c.tokens j := by
  have hopen : c.openField .c r.tk = o.openField .c r.tk := by unfold Ctx.openField Ctx.seq; rw [hf]
  rw [Ctx.tokens_of_fieldView (h.fieldView_passed c), Ctx.tokens_takenBy, hopen]

end

/-! ## The words in turn -/

/-- A word of a bundle, at its index. -/
def wordStep (p : State × Nat) (i : Instr) : State × Nat :=
  (after i { p.1 with bun := p.1.bun.map (fun b => { b with off := p.2 }) }, p.2 + i.words)

theorem runBundle_eq (is : List Instr) (s : State) :
    runBundle after is s = endBundle s (is.foldl wordStep (s.openBundle ((is.map Instr.words).foldl (· + ·) 0), 0)).1 := rfl

/-- Which queues posts go to, one token each. -/
def PostsOf (ps : List (Nat × Nat × Nat)) (rs : List BundleRow) : Prop :=
  ps.map (fun p => (p.1, p.2.1)) = (rs.filterMap (fun r => fieldPost .c r.tk)).map (fun i => (i, 1))

/-- What the words that are still to come need of a context that those before them have left. -/
structure Awaits (o c : Ctx) (is : List Instr) (rs : List BundleRow) : Prop where
  fielded : c.seqC.fielded = o.seqC.fielded
  tokens : ∀ i, rs.countP (fun r => o.openField .c r.tk == some i) ≤ c.tokens i
  banks : countClass .opt is ≤ 1
  bank : (∃ i ∈ is, i.slotClass = .opt) → c.bankView = o.bankView

/-- A word leaves what the words after it need. -/
theorem Awaits.passed {o c : Ctx} {i : Instr} {is : List Instr} {r : BundleRow} {rs : List BundleRow} (h : Awaits o c (i :: is) (r :: rs))
    (hr : Enacts o i r) : Awaits o (r.passed o c) is rs := by
  obtain ⟨hf, ht, hb, hv⟩ := h
  refine ⟨(hr.fielded_passed c).trans hf, fun j => ?_, ?_, ?_⟩
  · have := ht j
    rw [List.countP_cons] at this
    rw [hr.tokens_passed hf]
    split
    · simp_all; omega
    · simp_all
  · rw [countClass, List.filter_cons] at hb
    split at hb
    · rw [List.length_cons] at hb; unfold countClass; omega
    · exact hb
  · rintro ⟨j, hj, hjc⟩
    have hi : i.slotClass ≠ .opt := fun hi => by
      have : 1 ≤ countClass .opt is := List.length_pos_of_mem (List.mem_filter.2 ⟨hj, by simp [hjc]⟩)
      rw [countClass, List.filter_cons, if_pos (by simp [hi]), List.length_cons] at hb
      unfold countClass at this; omega
    rw [hr.bankView_passed hi]
    exact hv ⟨j, List.mem_cons_of_mem _ hj, hjc⟩

theorem PostsOf.cons {r : BundleRow} {rs : List BundleRow} {ps : List (Nat × Nat × Nat)} (h : PostsOf ps rs) (off : Nat) :
    PostsOf ((fieldPost .c r.tk).toList.map (fun i => (i, 1, off)) ++ ps) (r :: rs) := by
  unfold PostsOf at h ⊢
  rw [List.map_append, h, List.filterMap_cons]
  cases fieldPost .c r.tk <;> rfl

/-- The words of a bundle, each at its index, pass in turn. -/
theorem foldl_wordStep {o : Ctx} {is : List Instr} {rs : List BundleRow} (h : List.Forall₂ (Enacts o) is rs) {t : State} {b : Bundle} (k : Nat)
    (hc : t.cur = .c) (hb : t.bun = some b) (ho : b.old = o) (hw : Awaits o t.cx is rs)
    (hs : ∀ r ∈ rs, r.truth o = true → ∀ c ∈ r.srcs, (o.image c).isSome = true) :
    ∃ off taken ps, PostsOf ps rs ∧ (is.foldl wordStep (t, k)).1 = { t with
      cx := rs.foldl (fun c r => r.passed o c) t.cx
      bun := some { b with off := off, taken := taken, posts := b.posts ++ ps
                           takes := b.takes ++ (rs.flatMap (fun r => r.reads o)).flatMap takesOf } } := by
  induction h generalizing t b k with
  | nil => exact ⟨b.off, b.taken, [], rfl, by cases t; simp only at hb; subst hb; simp⟩
  | @cons i r is rs hr hrs ih =>
    have htok : ∀ j, o.openField .c r.tk = some j → 0 < t.cx.tokens j := fun j hj => by
      have := hw.tokens j
      rw [List.countP_cons, if_pos (by simp [hj])] at this; omega
    have hone := hr.slot_passed (t := { t with bun := some { b with off := k } }) hc rfl ho hw.fielded htok (hs r List.mem_cons_self)
      (fun hi => hw.bank ⟨i, List.mem_cons_self, hi⟩)
    obtain ⟨off, taken, ps, hps, hrest⟩ := ih
      (t := { t with cx := r.passed o t.cx, bun := some (({ b with off := k } : Bundle).passed r.tk (r.reads o)) })
      (k + i.words) hc rfl ho (hw.passed hr) (fun r hr => hs r (List.mem_cons_of_mem _ hr))
    refine ⟨off, taken, _, hps.cons k, ?_⟩
    rw [List.foldl_cons, wordStep, hb, Option.map_some, hone, hrest]
    simp [Bundle.passed]

/-- Posts whose queues have room are made. -/
theorem postAll_ok {ps : List (Nat × Nat × Nat)} {rs : List BundleRow} {c : Ctx} (h : PostsOf ps rs)
    (hroom : ∀ i, i < 12 → c.tokens i + rs.countP (fun r => fieldPost .c r.tk == some i) ≤ 15) :
    postAll c ps = some (rs.foldl (fun c r => c.postedBy .c r.tk) c) := by
  induction rs generalizing ps c with
  | nil => obtain rfl : ps = [] := by simpa [PostsOf] using h
           rfl
  | cons r rs ih =>
    rw [List.foldl_cons]
    cases hp : fieldPost .c r.tk with
    | none =>
      rw [show c.postedBy .c r.tk = c by rw [Ctx.postedBy, hp]]
      exact ih (by simpa [PostsOf, hp] using h) (fun i hi => by simpa [hp] using hroom i hi)
    | some j =>
      have hj := hroom j (postQueue_lt hp)
      rw [List.countP_cons, if_pos (by simp [hp])] at hj
      match ps, h with
      | [], h => exact absurd h (by simp [PostsOf, hp])
      | (i, n, off) :: ps, h =>
        obtain ⟨⟨rfl, rfl⟩, hps⟩ : (i = j ∧ n = 1) ∧ PostsOf ps rs := by simpa [PostsOf, hp] using h
        rw [postAll, if_neg (by omega), show c.setTokens i (c.tokens i + 1) = c.postedBy .c r.tk by rw [Ctx.postedBy, hp]]
        refine ih hps (fun m hm => ?_)
        have := hroom m hm
        rw [List.countP_cons] at this
        rw [Ctx.tokens_postedBy (fun q hq => by rw [hp] at hq; obtain rfl := Option.some.inj hq; omega)]
        split
        · simp_all; omega
        · simp_all

/-- The words leave no queue with more tokens than before. -/
theorem tokens_foldl_passed_le {o : Ctx} {is : List Instr} {rs : List BundleRow} (h : List.Forall₂ (Enacts o) is rs) {c : Ctx}
    (hf : c.seqC.fielded = o.seqC.fielded) (j : Nat) : (rs.foldl (fun c r => r.passed o c) c).tokens j ≤ c.tokens j := by
  induction h generalizing c with
  | nil => exact le_rfl
  | cons hr _ ih =>
    refine (ih ((hr.fielded_passed c).trans hf)).trans ?_
    rw [hr.tokens_passed hf]
    split <;> omega

/-- The sources that the true rows name. -/
theorem flatMap_reads (o : Ctx) (rs : List BundleRow) :
    rs.flatMap (fun r => r.reads o) = (rs.filter (fun r => r.truth o)).flatMap (·.srcs) := by
  induction rs with
  | nil => rfl
  | cons r rs ih => cases h : r.truth o <;> simp [BundleRow.reads, h, ← ih]

/-- A bundle that has nothing to wait for and no fault, and whose posts have room, retires. -/
theorem endBundle_retires {s t : State} {b : Bundle} {c : Ctx} (hb : t.bun = some b) (hg : b.gets = []) (ht : b.traps = []) (hw : b.waits = [])
    (hp : postAll t.cx b.posts = some c) : endBundle s t = retireBundle t b c := by
  unfold endBundle
  rw [hb]
  simp only [takeGets_none t b hg, ht, hw, List.find?_nil, List.isEmpty_nil, if_true, hp]

/-- Rows read one by one. -/
theorem enacts_of_mapM {o : Ctx} {is : List Instr} {rs : List BundleRow} (h : is.mapM (fun i => rowOf i o) = some rs) :
    List.Forall₂ (Enacts o) is rs := by
  induction is generalizing rs with
  | nil => obtain rfl : rs = [] := by simpa using h.symm
           exact .nil
  | cons i is ih =>
    simp only [List.mapM_cons, Option.bind_eq_bind, Option.bind_eq_some_iff, Option.pure_def, Option.some.injEq] at h
    obtain ⟨r, hr, rs, hrs, rfl⟩ := h
    exact .cons (enacts_of_rowOf hr) (ih hrs)

/-- The words of a bundle are those of its rows. -/
theorem sum_words {o : Ctx} {is : List Instr} {rs : List BundleRow} (h : List.Forall₂ (Enacts o) is rs) :
    (is.map Instr.words).foldl (· + ·) 0 = (rs.map (·.words)).sum := by
  rw [← List.sum_eq_foldl]
  induction h with
  | nil => rfl
  | cons hr _ ih => rw [List.map_cons, List.map_cons, List.sum_cons, List.sum_cons, ih, hr.words]

/-- Settles O5: each word does what its row says of the context before the bundle, whatever the words before it have done; so they
pass in turn, and what the bundle then posts has room. -/
theorem bundlesReadBeforeTheyWrite : Obligations.BundlesReadBeforeTheyWrite := by
  unfold Obligations.BundlesReadBeforeTheyWrite
  intro s is rs hrs _ hok hi
  obtain ⟨hcur, hbun, htok, hroom, hsrc⟩ := hi
  have hrows := enacts_of_mapM hrs
  have hopt : countClass .opt is ≤ 1 := by
    simp only [bundleOk, Bool.and_eq_true, decide_eq_true_eq] at hok
    obtain ⟨⟨-, h⟩, -⟩ := hok
    exact h
  have hwords := sum_words hrows
  rw [runBundle_eq, hwords]
  obtain ⟨off, taken, ps, hps, hfold⟩ := foldl_wordStep hrows (t := s.openBundle (rs.map (·.words)).sum) 0 hcur rfl rfl
    ⟨rfl, htok, hopt, fun _ => rfl⟩ hsrc
  rw [hfold]
  have hpost := postAll_ok hps (c := rs.foldl (fun c r => r.passed s.cx c) s.cx) (fun i hi =>
    (Nat.add_le_add_right (tokens_foldl_passed_le hrows rfl i) _).trans (hroom i hi))
  rw [endBundle_retires rfl rfl rfl rfl hpost]
  unfold retireBundle State.bundledAll
  rw [flatMap_reads]
  cases s
  simp only at hbun
  subst hbun
  simp only [State.openBundle, List.nil_append, Option.isSome_none, Bool.or_false, Option.getD_none]
  rfl

end Sys2Proof.Machine
end

section

/-! PROOFS. The canonical form of memory and tags, and what keeps it (log entry 1). -/

namespace Sys2Proof.Machine

/-- What an instruction or an event leaves keeps the canonical form. -/
def Canonical (r : Result) : Prop := ∀ t, r = .next t → t.memoryOk

theorem Canonical.next {s : State} (h : s.memoryOk) : Canonical (.next s) := fun _ e => by cases e; exact h

theorem Canonical.ite {c : Prop} [Decidable c] {a b : Result} (ha : c → Canonical a) (hb : ¬c → Canonical b) :
    Canonical (if c then a else b) := by
  split
  · exact ha ‹_›
  · exact hb ‹_›

/-- A step that is made where a condition holds, and what comes after it. -/
theorem Holds.whenThen {P : State → Prop} {β : Type} {c : Prop} [Decidable c] {m : M PUnit} {f : PUnit → M β}
    (hm : Holds P m) (hf : ∀ a, Holds P (f a)) : Holds P (if c then m >>= f else f ⟨⟩) :=
  Holds.ite (fun _ => Holds.bind hm hf) fun _ => hf _

/-- One of two steps, and what comes after either. -/
theorem Holds.iteThen {P : State → Prop} {α β : Type} {c : Prop} [Decidable c] {m n : M α} {f : α → M β}
    (hm : Holds P m) (hn : Holds P n) (hf : ∀ a, Holds P (f a)) : Holds P (if c then m >>= f else n >>= f) :=
  Holds.ite (fun _ => Holds.bind hm hf) fun _ => Holds.bind hn hf

theorem memoryOk_ite {c : Prop} [Decidable c] {s t : State} (hs : c → s.memoryOk) (ht : ¬c → t.memoryOk) :
    (if c then s else t).memoryOk := by
  split
  · exact hs ‹_›
  · exact ht ‹_›

theorem Memory.mergeN_wf {m : Memory} (w : m.wf = true) (a : Nat) (k : Byte) (bs : List Byte) : (m.mergeN a k bs).wf = true :=
  Memory.writeN_wf w _ _

theorem State.memoryOk.writeN {s : State} (hs : s.memoryOk) {a : Nat} {bs : List Byte} : ({ s with mem := s.mem.writeN a bs } : State).memoryOk :=
  ⟨Memory.writeN_wf hs.1 _ _, hs.2⟩

theorem State.memoryOk.mergeN {s : State} (hs : s.memoryOk) {a : Nat} {k : Byte} {bs : List Byte} :
    ({ s with mem := s.mem.mergeN a k bs } : State).memoryOk :=
  ⟨Memory.mergeN_wf hs.1 _ _ _, hs.2⟩

theorem State.memoryOk.setShadowState {s : State} (hs : s.memoryOk) {entry st : Nat} {swap : Bool} :
    ({ s with mem := Machine.setShadowState s.mem entry st swap } : State).memoryOk :=
  ⟨setShadowState_wf hs.1 _ _ _, hs.2⟩

theorem memoryOk_of_parts {s : State} {m : Memory} {t : Tags} (hm : m.wf = true) (ht : t.wf = true) :
    ({ s with mem := m, tags := t } : State).memoryOk := ⟨hm, ht⟩

theorem State.memoryOk.mapMem {s : State} (hs : s.memoryOk) {f : Memory → Memory}
    (hf : ∀ m : Memory, m.wf = true → (f m).wf = true) : ({ s with mem := f s.mem } : State).memoryOk :=
  ⟨hf _ hs.1, hs.2⟩

theorem writeEntries_wf {m : Memory} (w : m.wf = true) (es : List (Nat × BitVec 128)) : (writeEntries m es).wf = true :=
  foldl_keeps (fun m : Memory => m.wf = true) _ (fun _ _ w => Memory.writeN_wf w _ _) _ w

theorem moveLeaves_wf {m : Memory} (w : m.wf = true) (p : PageAt) (ppn : Nat) : (moveLeaves p ppn m).wf = true :=
  foldl_keeps (fun m : Memory => m.wf = true) _ (fun _ _ w => Memory.writeN_wf w _ _) _ w

theorem clearLeaves_wf {m : Memory} (w : m.wf = true) (p : PageAt) : (clearLeaves p m).wf = true :=
  foldl_keeps (fun m : Memory => m.wf = true) _ (fun _ _ w => Memory.write_wf w _ _) _ w

end Sys2Proof.Machine
end

section

/-! PROOFS. Bundles, words and faults keep memory canonical. -/

namespace Sys2Proof.Machine

theorem modSeq_memoryOk {f : SeqState → SeqState} : Holds State.memoryOk (modSeq f) := Holds.modify fun _ h => h

theorem State.takeFault_memoryOk {s : State} {t : Trap} {srce instr : Nat} (hs : s.memoryOk) :
    (s.takeFault t srce instr).memoryOk :=
  hs

theorem State.faultHere_memoryOk {s : State} {t : Trap} (hs : s.memoryOk) : (s.faultHere t).memoryOk :=
  State.takeFault_memoryOk hs

theorem State.illegal_memoryOk {s : State} (hs : s.memoryOk) : s.illegal.memoryOk :=
  State.faultHere_memoryOk hs

theorem undone_memoryOk {s s' : State} (hs' : s'.memoryOk) : (undone s s').memoryOk := hs'

theorem slot.effect_memoryOk {truth : Bool} {op : M Unit} {note : (Bundle → Bundle) → State → State}
    {post : State → State} {s1 : State}
    (hop : Holds State.memoryOk op) (hnote : ∀ f s, s.memoryOk → (note f s).memoryOk)
    (hpost : ∀ s, s.memoryOk → (post s).memoryOk) (hs1 : s1.memoryOk) : (slot.effect truth op note post s1).memoryOk := by
  unfold slot.effect
  refine memoryOk_ite (fun _ => ?_) fun _ => hpost _ hs1
  split
  · exact hpost _ (hop.ok hs1 ‹_›)
  · exact hnote _ _ (hop.error hs1 ‹_›)
  · exact hnote _ _ (undone_memoryOk (hop.error hs1 ‹_›))
  · exact hnote _ _ (undone_memoryOk (hop.error hs1 ‹_›))

theorem slot_memoryOk {truth : Bool} {tk : BitVec 3} {op : M Unit} {s : State} (hop : Holds State.memoryOk op)
    (hs : s.memoryOk) :
    (slot truth tk op s).memoryOk := by
  unfold slot
  split
  · exact hs
  · dsimp only
    split
    · refine memoryOk_ite (fun _ => hs) fun _ => slot.effect_memoryOk hop (fun _ _ h => h) (fun u hu => ?_) hs
      split <;> exact hu
    · refine slot.effect_memoryOk hop (fun _ _ h => h) (fun u hu => ?_) hs
      split <;> exact hu

theorem takeGets_memoryOk {s : State} {b : Bundle} (hs : s.memoryOk) : (takeGets s b).1.memoryOk := by
  unfold takeGets
  split
  · exact hs
  · refine foldl_keeps (fun p : State × Bundle => p.1.memoryOk) _ (fun p g hp => ?_) _ hs
    dsimp only
    split <;> exact hp

theorem trapBundle_memoryOk {s0 s : State} {b : Bundle} {off : Nat} {t : Trap} (hs : s.memoryOk) :
    (trapBundle s0 s b off t).memoryOk := by
  unfold trapBundle
  refine State.takeFault_memoryOk (memoryOk_ite (fun _ => ?_) fun _ => hs)
  split <;> exact hs

theorem State.wait_memoryOk {s : State} {a : Await} (hs : s.memoryOk) : (s.wait a).memoryOk :=
  hs

theorem State.waitAt_memoryOk {s : State} {off : Nat} {a : Await} (hs : s.memoryOk) : (s.waitAt off a).memoryOk :=
  State.wait_memoryOk hs

theorem waitBundle_memoryOk {s0 s : State} {b : Bundle} {off : Nat} {a : Await} (hs : s.memoryOk) :
    (waitBundle s0 s b off a).memoryOk := by
  unfold waitBundle
  exact State.waitAt_memoryOk (memoryOk_ite (fun _ => hs) fun _ => hs)

theorem retireBundle_memoryOk {s : State} {b : Bundle} {cx : Ctx} (hs : s.memoryOk) :
    (retireBundle s b cx).memoryOk :=
  hs

theorem endBundle_memoryOk {s0 s : State} (hs : s.memoryOk) : (endBundle s0 s).memoryOk := by
  unfold endBundle
  split
  · exact hs
  · rename_i b _
    have ht : (takeGets s b).1.memoryOk := takeGets_memoryOk hs
    dsimp only
    split
    · exact trapBundle_memoryOk ht
    · exact waitBundle_memoryOk ht
    · exact trapBundle_memoryOk ht
    · refine memoryOk_ite (fun _ => ?_) fun _ => State.waitAt_memoryOk ht
      split
      · exact retireBundle_memoryOk ht
      · exact waitBundle_memoryOk ht

theorem State.openBundle_memoryOk {s : State} {words : Nat} (hs : s.memoryOk) : (s.openBundle words).memoryOk :=
  hs

theorem runC_memoryOk {words : Nat} {truth : Ctx → Bool} {tk : BitVec 3} {op : M Unit} {s : State}
    (hop : Holds State.memoryOk op) (hs : s.memoryOk) : (runC words truth tk op s).memoryOk := by
  unfold runC
  refine memoryOk_ite (fun _ => State.illegal_memoryOk hs) fun _ => ?_
  split
  · exact slot_memoryOk hop hs
  · exact endBundle_memoryOk (slot_memoryOk hop (State.openBundle_memoryOk hs))

theorem runCq_memoryOk {h : Hd} {words : Nat} {op : M Unit} {s : State} (hop : Holds State.memoryOk op)
    (hs : s.memoryOk) : Canonical (runCq h words op s) :=
  Canonical.next (runC_memoryOk hop hs)

theorem finish_memoryOk {s0 s : State} {tk : BitVec 3} {words : Nat} {opened : Bool} (hs0 : s0.memoryOk)
    (hs : s.memoryOk) :
    (finish s0 tk words opened s).1.memoryOk := by
  unfold finish
  split
  · exact hs
  · split
    · exact State.wait_memoryOk hs0
    · exact hs

theorem runWord_memoryOk {qp tk : BitVec 3} {words : Nat} {op : M Unit} {s : State} {keeps : Bool}
    (hop : Holds State.memoryOk op)
    (hs : s.memoryOk) : (runWord qp tk words op s keeps).memoryOk := by
  unfold runWord
  dsimp only
  refine memoryOk_ite (fun _ => State.wait_memoryOk hs) fun _ => ?_
  cases s.cx.openField s.cur tk with
  | none =>
    refine memoryOk_ite (fun _ => finish_memoryOk hs hs) fun _ => ?_
    cases h : op s with
    | ok a t => exact memoryOk_ite (fun _ => hop.ok hs h) fun _ => finish_memoryOk hs (hop.ok hs h)
    | error e t =>
      have ht := hop.error hs h
      cases e with
      | wait a => cases keeps <;> exact State.wait_memoryOk ht
      | trap x =>
        refine memoryOk_ite (fun _ => ?_) fun _ => State.faultHere_memoryOk ht
        have hf : (finish s tk words false t).1.memoryOk := finish_memoryOk hs ht
        split
        · rename_i e
          rw [e] at hf
          exact State.takeFault_memoryOk hf
        · rename_i e
          rw [e] at hf
          exact hf
  | some i =>
    have h1 : ({ s with cx := s.cx.setTokens i (s.cx.tokens i - 1) } : State).memoryOk := hs
    refine memoryOk_ite (fun _ => finish_memoryOk hs h1) fun _ => ?_
    dsimp only
    cases h : op { s with cx := s.cx.setTokens i (s.cx.tokens i - 1) } with
    | ok a t => exact memoryOk_ite (fun _ => hop.ok h1 h) fun _ => finish_memoryOk hs (hop.ok h1 h)
    | error e t =>
      have ht := hop.error h1 h
      cases e with
      | wait a => cases keeps <;> exact State.wait_memoryOk ht
      | trap x =>
        refine memoryOk_ite (fun _ => ?_) fun _ => State.faultHere_memoryOk ht
        have hf : (finish s tk words false t).1.memoryOk := finish_memoryOk hs ht
        split
        · rename_i e
          rw [e] at hf
          exact State.takeFault_memoryOk hf
        · rename_i e
          rw [e] at hf
          exact hf

theorem runShared_memoryOk {h : Hd} {words : Nat} {op : M Unit} {s : State} {keeps : optParam Bool false}
    (hop : Holds State.memoryOk op) (hs : s.memoryOk) : Canonical (runShared h words op s keeps) :=
  Canonical.ite (fun _ => runCq_memoryOk hop hs) fun _ => Canonical.next (runWord_memoryOk hop hs)

theorem raiseBank_memoryOk : Holds State.memoryOk raiseBank := by
  unfold raiseBank
  refine Holds.get fun _ _ => ?_
  split
  · exact Holds.throw _
  · exact Holds.pure _

theorem modBun_memoryOk {f : Bundle → Bundle} : Holds State.memoryOk (modBun f) :=
  Holds.modify fun _ hs => hs

theorem raiseCopy_memoryOk : Holds State.memoryOk raiseCopy := by
  unfold raiseCopy
  refine Holds.get fun _ _ => ?_
  split
  · exact Holds.pure _
  · exact Holds.bind (Holds.modCx fun _ h => h) fun _ => Holds.throw _

theorem raiseTile_memoryOk : Holds State.memoryOk raiseTile := by
  unfold raiseTile
  refine Holds.get fun _ _ => ?_
  split
  · exact Holds.pure _
  · exact Holds.bind (Holds.modCx fun _ h => h) fun _ => Holds.throw _

end Sys2Proof.Machine
end

section

/-! PROOFS. Caches, shadow writes and accesses keep memory canonical. -/

namespace Sys2Proof.Machine

theorem dropLines_memoryOk {p : L2Line → Bool} {s : State} (hs : s.memoryOk) : (dropLines p s).memoryOk :=
  ⟨dropLines_mem_wf p hs.1, hs.2⟩

theorem freshLines_memoryOk {p : L2Line → Bool} {s : State} (hs : s.memoryOk) : (freshLines p s).memoryOk :=
  hs

theorem State.acquired_memoryOk {scope : Nat} {s : State} (hs : s.memoryOk) : (State.acquired scope s).memoryOk :=
  memoryOk_ite (fun _ => hs) fun _ => freshLines_memoryOk (memoryOk_ite (fun _ => dropLines_memoryOk hs) fun _ => hs)

theorem acquire_memoryOk {scope : Nat} : Holds State.memoryOk (acquire scope) :=
  Holds.modify fun _ hs => State.acquired_memoryOk hs

theorem dropPage_memoryOk {a : Nat} {s : State} (hs : s.memoryOk) : (dropPage a s).memoryOk :=
  dropLines_memoryOk hs

theorem copyPage_memoryOk {s : State} {src dst : Nat} (hs : s.memoryOk) : (copyPage s src dst).memoryOk := by
  have h := dropPage_memoryOk (a := dst) (dropPage_memoryOk (a := src) hs)
  exact memoryOk_of_parts (Memory.writeN_wf h.1 _ _) (foldl_keeps (fun t : Tags => t.wf = true) _ (fun _ _ w =>
        Tags.write_wf w _ _) _ h.2)

theorem markDirty_memoryOk {s : State} {launch k : Nat} (hs : s.memoryOk) : (markDirty s launch k).memoryOk := by
  unfold markDirty
  refine memoryOk_ite (fun _ => ?_) fun _ => hs
  split
  · exact hs
  · exact ⟨(Memory.write_wf hs.1 _ _), hs.2⟩

theorem firstWrite_memoryOk {s : State} (hs : s.memoryOk) : (firstWrite s).memoryOk := by
  unfold firstWrite
  split
  · exact hs
  · rename_i f rest _
    have copied : ∀ u : State, u.memoryOk → ∀ src dst, ({ copyPage (markDirty u f.launch dst) src dst with
        mem := setShadowState (copyPage (markDirty u f.launch dst) src dst).mem f.entry 2 false } : State).memoryOk :=
      fun u hu src dst => (copyPage_memoryOk (markDirty_memoryOk hu)).setShadowState
    have hr : ({ s with firstWrites := rest } : State).memoryOk := hs
    refine (markDirty_memoryOk ?_).mergeN
    exact memoryOk_ite (fun _ => copied _ hr _ _) fun _ => dropPage_memoryOk hr

theorem settleWrites_memoryOk {s : State} (hs : s.memoryOk) : (settleWrites s).memoryOk :=
  foldl_keeps State.memoryOk _ (fun _ _ hu => firstWrite_memoryOk hu) _ hs

theorem cleanLines_memoryOk {p : L2Line → Bool} {s : State} (hs : s.memoryOk) : (cleanLines p s).memoryOk :=
  ⟨cleanLines_mem_wf p hs.1, hs.2⟩

theorem State.released_memoryOk {scope : Nat} {s : State} (hs : s.memoryOk) : (State.released scope s).memoryOk :=
  memoryOk_ite (fun _ => settleWrites_memoryOk hs) fun _ => cleanLines_memoryOk (settleWrites_memoryOk hs)

theorem release_memoryOk {scope : Nat} : Holds State.memoryOk (release scope) :=
  Holds.modify fun _ hs => State.released_memoryOk hs

theorem runTransfer_memoryOk {h : Hd} {op : M Unit} {s : State} (hop : Holds State.memoryOk op) (hs : s.memoryOk) :
    Canonical (runTransfer h op s) :=
  Canonical.ite (fun _ => Canonical.ite (fun _ => Canonical.next (runC_memoryOk (Holds.fault _) hs)) fun _ =>
      Canonical.next (State.faultHere_memoryOk hs)) fun _ => runShared_memoryOk hop hs

theorem openDelay_memoryOk {j : BitVec 2} {taken : Bool} : Holds State.memoryOk (openDelay j taken) :=
  Holds.get fun _ _ => Holds.ite (fun _ => modBun_memoryOk) fun _ => modSeq_memoryOk

theorem runK_memoryOk {h : Hq} {words : Nat} {op : M Unit} {s : State} (hop : Holds State.memoryOk op)
    (hs : s.memoryOk) : Canonical (runK h words op s) :=
  Canonical.next (memoryOk_ite (fun _ => runWord_memoryOk hop hs) fun _ => State.illegal_memoryOk hs)

theorem setX_memoryOk {d : BitVec 5} {v : DWord} : Holds State.memoryOk (setX d v) :=
  Holds.modCx fun _ h => h

theorem aluKR_memoryOk {f : DWord → DWord → DWord} {d a b : BitVec 5} : Holds State.memoryOk (aluKR f d a b) :=
  Holds.get fun _ _ => setX_memoryOk

theorem aluKI_memoryOk {f : DWord → DWord → DWord} {d a : BitVec 5} {i : BitVec 9} :
    Holds State.memoryOk (aluKI f d a i) :=
  Holds.get fun _ _ => setX_memoryOk

theorem shiftKI_memoryOk {f : DWord → DWord → DWord} {d a : BitVec 5} {i : BitVec 9} :
    Holds State.memoryOk (shiftKI f d a i) :=
  Holds.get fun _ _ => setX_memoryOk

theorem setQ_memoryOk {d : BitVec 3} {v : Bool} : Holds State.memoryOk (setQ d v) :=
  modSeq_memoryOk

theorem getQ_memoryOk {i : BitVec 3} : Holds State.memoryOk (getQ i) :=
  Holds.get fun _ _ => Holds.pure _

theorem replayable_memoryOk : Holds State.memoryOk replayable :=
  Holds.get fun _ _ => Holds.ite (fun _ => Holds.fault _) fun _ => Holds.pure _

theorem markA_memoryOk {t : Tr} : Holds State.memoryOk (markA t) :=
  Holds.modify fun _ hs => ⟨setEntryBits_wf hs.1 _ _, hs.2⟩

theorem passA_memoryOk {k : Acc} {va : DWord} {t : Tr} : Holds State.memoryOk (passA k va t) :=
  Holds.ite (fun _ => markA_memoryOk) fun _ => Holds.pure _

theorem translateAll_memoryOk {ag : Agent} {k : Acc} {crosses : Bool} {l : List (DWord × Nat)} :
    Holds State.memoryOk (translateAll ag k crosses l) := by
  induction l with
  | nil => exact Holds.pure _
  | cons part rest ih =>
    unfold translateAll
    refine Holds.get fun s hs => ?_
    split
    · exact Holds.bind passA_memoryOk fun _ => Holds.bind ih fun _ => Holds.pure _
    · refine Holds.get fun u hu => ?_
      split
      · exact Holds.faultAt _ _
      · split
        · exact Holds.bind passA_memoryOk fun _ => Holds.faultAt _ _
        · exact Holds.faultAt _ _

theorem pages_memoryOk {ag : Agent} {k : Acc} {va : DWord} {n : Nat} : Holds State.memoryOk (pages ag k va n) := by
  unfold pages
  refine Holds.ite (fun _ => Holds.faultAt _ _) fun _ => Holds.bind translateAll_memoryOk fun _ => ?_
  split
  · exact Holds.ite (fun _ => Holds.faultAt _ _) fun _ => Holds.pure _
  · exact Holds.pure _

theorem noteHits_memoryOk {ag : Agent} {k : Acc} {va : DWord} {n : Nat} {s : State} (hs : s.memoryOk) :
    (noteHits ag k va n s).memoryOk :=
  hs

theorem watchCheck_memoryOk {ag : Agent} {k : Acc} {va : DWord} {n : Nat} :
    Holds State.memoryOk (watchCheck ag k va n) :=
  Holds.get fun _ hs => Holds.ite (fun _ => Holds.faultAt _ _) fun _ => Holds.set (noteHits_memoryOk hs)

theorem tagCheck_memoryOk {k : Acc} {g : Seg} : Holds State.memoryOk (tagCheck k g) := by
  unfold tagCheck
  refine Holds.get fun _ _ => Holds.ite (fun _ => ?_) fun _ => Holds.pure _
  dsimp only
  split
  · exact Holds.throw _
  · exact Holds.pure _

theorem inOrderOf_memoryOk {ag : Agent} {t : Tr} {s : State} (hs : s.memoryOk) : (inOrderOf ag t s).memoryOk :=
  memoryOk_ite (fun _ => dropLines_memoryOk hs) fun _ => hs

theorem fillLine_memoryOk {die line : Nat} {s : State} (hs : s.memoryOk) : (fillLine die line s).memoryOk := by
  unfold fillLine
  split <;> exact hs

theorem updLine_memoryOk {die line : Nat} {f : L2Line → L2Line} {s : State} (hs : s.memoryOk) :
    (updLine die line f s).memoryOk :=
  hs

theorem bringLine_memoryOk {ag : Agent} {line : Nat} {m : BitVec 128} {s : State} (hs : s.memoryOk) :
    (bringLine ag line m s).memoryOk :=
  memoryOk_ite (fun _ => updLine_memoryOk (fillLine_memoryOk hs)) fun _ => fillLine_memoryOk hs

theorem fetchSeg_memoryOk {ag : Agent} {pol : Nat} {g : Seg} : Holds State.memoryOk (fetchSeg ag pol g) := by
  unfold fetchSeg
  refine Holds.get fun s hs => Holds.ite (fun _ => ?_) fun _ =>
    Holds.ite (fun _ => Holds.bind (Holds.set (dropLines_memoryOk hs)) fun _ => Holds.pure _) fun _ =>
    Holds.bind (Holds.set (memoryOk_ite (fun _ => foldl_keeps State.memoryOk _ (fun u _ hu =>
            bringLine_memoryOk hu) _ hs) fun _ => hs)) fun _ => Holds.pure _
  split
  · exact Holds.faultAt _ _
  · exact Holds.pure _

theorem readSeg_memoryOk {ag : Agent} {pol : Nat} {g : Seg} : Holds State.memoryOk (readSeg ag pol g) :=
  Holds.bind (Holds.modify fun _ hs => inOrderOf_memoryOk hs) fun _ => fetchSeg_memoryOk

theorem readSegs_memoryOk {ag : Agent} {pol : Nat} {segs : List Seg} :
    Holds State.memoryOk (readSegs ag pol segs) := by
  induction segs with
  | nil => exact Holds.pure _
  | cons g gs ih => exact Holds.bind readSeg_memoryOk fun _ => Holds.bind ih fun _ => Holds.pure _

theorem setD_memoryOk {entry : Nat} {s : State} (hs : s.memoryOk) : (setD entry s).memoryOk :=
  ⟨setEntryBits_wf hs.1 _ _, hs.2⟩

theorem markD_memoryOk {t : Tr} : Holds State.memoryOk (markD t) :=
  Holds.modify fun _ hs => setD_memoryOk hs

theorem State.updCtx_memoryOk {s : State} {c : CtxId} {f : Ctx → Ctx} (hs : s.memoryOk) : (s.updCtx c f).memoryOk :=
  memoryOk_ite (fun _ => hs) fun _ => hs

theorem putByte_memoryOk {away : Bool} {pol : Nat} {ag : Agent} {mask : Byte} {a : Nat} {b : Byte} {s : State}
    (hs : s.memoryOk) : (putByte away pol ag mask a b s).memoryOk :=
  memoryOk_ite (fun _ => updLine_memoryOk (bringLine_memoryOk hs)) fun _ =>
    memoryOk_ite (fun _ => updLine_memoryOk ⟨(Memory.write_wf hs.1 _ _), hs.2⟩) fun _ =>
    ⟨(Memory.write_wf hs.1 _ _), hs.2⟩

theorem putBytes_memoryOk {away : Bool} {pol : Nat} {ag : Agent} {mask : Byte} {a : Nat} {bs : List Byte} {s : State}
    (hs : s.memoryOk) :
    (putBytes away pol ag mask a bs s).memoryOk := by
  induction bs generalizing a s with
  | nil => exact hs
  | cons b bs ih => exact ih (putByte_memoryOk hs)

theorem writeSegBits_memoryOk {ag : Agent} {pol : Nat} {k : Acc} {mask : Byte} {g : Seg} {data : List Byte} :
    Holds State.memoryOk (writeSegBits ag pol k mask g data) := by
  unfold writeSegBits
  refine Holds.get fun _ _ => Holds.ite (fun _ => ?_) fun _ => Holds.bind markD_memoryOk fun _ =>
    Holds.bind (Holds.modify fun _ hu => inOrderOf_memoryOk hu) fun _ => Holds.get fun _ hu =>
    Holds.ite (fun _ => Holds.set hu) fun _ => Holds.set (putBytes_memoryOk (memoryOk_ite (fun _ =>
          dropLines_memoryOk (memoryOk_ite (fun _ => markDirty_memoryOk hu) fun _ =>
            markDirty_memoryOk (markDirty_memoryOk hu))) fun _ =>
        memoryOk_ite (fun _ => markDirty_memoryOk hu) fun _ => markDirty_memoryOk (markDirty_memoryOk hu)))
  split
  · exact Holds.faultAt _ _
  · exact Holds.bind markD_memoryOk fun _ => Holds.bind (Holds.modify fun _ hs => inOrderOf_memoryOk hs) fun _ =>
      Holds.modify fun _ hs => State.updCtx_memoryOk hs

theorem writeSegsBits_memoryOk {ag : Agent} {pol : Nat} {k : Acc} {mask : Byte} {segs : List Seg} {data : List Byte} :
    Holds State.memoryOk (writeSegsBits ag pol k mask segs data) := by
  induction segs generalizing data with
  | nil => exact Holds.pure _
  | cons g gs ih => exact Holds.bind writeSegBits_memoryOk fun _ => ih

theorem writeSegs_memoryOk {ag : Agent} {pol : Nat} {k : Acc} {segs : List Seg} {data : List Byte} :
    Holds State.memoryOk (writeSegs ag pol k segs data) :=
  writeSegsBits_memoryOk

theorem amoAt_memoryOk {ag : Agent} {g : Seg} {op n v w : Nat} : Holds State.memoryOk (amoAt ag g op n v w) := by
  unfold amoAt
  refine Holds.bind (Holds.modify fun _ hs => inOrderOf_memoryOk hs) fun _ =>
    Holds.bind (Holds.modify fun _ hs => dropLines_memoryOk hs) fun _ => Holds.get fun _ _ => ?_
  dsimp only
  split
  · exact Holds.pure _
  · exact Holds.bind markD_memoryOk fun _ => Holds.bind (Holds.modify fun _ hs => markDirty_memoryOk hs) fun _ =>
      Holds.bind (Holds.modify fun _ hs => ⟨(Memory.writeN_wf hs.1 _ _), hs.2⟩) fun _ => Holds.pure _

theorem kPerform_memoryOk {ag : Agent} {pol : Nat} {op : RemoteOp} {segs : List Seg} :
    Holds State.memoryOk (kPerform ag pol op segs) := by
  unfold kPerform
  split
  · exact Holds.bind readSegs_memoryOk fun _ => Holds.pure _
  · exact Holds.bind writeSegs_memoryOk fun _ => Holds.pure _
  · split
    · exact amoAt_memoryOk
    · exact Holds.pure _

theorem homeCheck_memoryOk {k : Acc} {segs : List Seg} : Holds State.memoryOk (homeCheck k segs) := by
  unfold homeCheck
  refine Holds.get fun _ _ => ?_
  dsimp only
  split
  · exact Holds.faultAt _ _
  · exact Holds.faultAt _ _
  · exact Holds.pure _

/-- What an access away from its home does, whatever decides between the caches, the home and the engine. -/
theorem kAccessAway_memoryOk {ag : Agent} {k : Acc} {va : DWord} {n pol : Nat} {op : RemoteOp} {segs : List Seg}
    {p : State → Bool} {q : Bool} {f : Ctx → Ctx} :
    Holds State.memoryOk (do
      watchCheck ag k va n
      let s ← get
      if p s then do
        eachM segs (tagCheck k)
        kPerform ag pol op segs
      else if q then do
        homeCheck k segs
        kPerform ag pol op segs
      else do
        modCx f
        waitFor .reply : M Nat) :=
  Holds.bind watchCheck_memoryOk fun _ => Holds.get fun _ _ =>
    Holds.ite (fun _ => Holds.bind (Holds.eachM fun _ => tagCheck_memoryOk) fun _ => kPerform_memoryOk) fun _ =>
    Holds.ite (fun _ => Holds.bind homeCheck_memoryOk fun _ => kPerform_memoryOk) fun _ =>
    Holds.bind (Holds.modCx fun _ h => h) fun _ => Holds.waitFor _

theorem kAccess_memoryOk {k : Acc} {va : DWord} {n pol : Nat} {op : RemoteOp} {parks : Bool} :
    Holds State.memoryOk (kAccess k va n pol op parks) := by
  unfold kAccess
  refine Holds.get fun _ _ => ?_
  split
  · refine Holds.ite (fun _ => Holds.bind (Holds.modCx fun _ h => h) fun _ => ?_) fun _ => Holds.waitFor _
    split
    · exact Holds.pure _
    · exact Holds.throw _
    · exact Holds.pure _
  · refine Holds.bind pages_memoryOk fun _ => Holds.ite (fun _ => Holds.faultAt _ _) fun _ => Holds.get fun _ _ =>
      Holds.ite (fun _ => ?_) fun _ => Holds.bind (Holds.eachM fun _ => tagCheck_memoryOk) fun _ =>
      Holds.bind watchCheck_memoryOk fun _ => kPerform_memoryOk
    cases op
    all_goals
      dsimp only
      split
      · exact Holds.bind (Holds.faultAt _ _) fun _ => kAccessAway_memoryOk
      · exact kAccessAway_memoryOk

theorem acqOf_memoryOk {so : BitVec 4} : Holds State.memoryOk (acqOf so) :=
  Holds.ite (fun _ => acquire_memoryOk) fun _ => Holds.pure _

theorem loadX_memoryOk {parks : Bool} {d a : BitVec 5} {pol : BitVec 2} {so : BitVec 4} {sz : BitVec 3}
    {imm : BitVec 32} : Holds State.memoryOk (loadX parks d a pol so sz imm) :=
  Holds.bind replayable_memoryOk fun _ => Holds.get fun _ _ => Holds.bind kAccess_memoryOk fun _ =>
    Holds.bind (Holds.modCx fun _ h => h) fun _ => acqOf_memoryOk

theorem relOf_memoryOk {so : BitVec 4} : Holds State.memoryOk (relOf so) :=
  Holds.ite (fun _ => release_memoryOk) fun _ => Holds.pure _

theorem cachePage_memoryOk {asid : Nat} {needRd : Bool} {va : DWord} :
    Holds State.memoryOk (cachePage asid needRd va) := by
  unfold cachePage
  refine Holds.get fun _ _ => ?_
  dsimp only
  split
  · exact Holds.bind markA_memoryOk fun _ => Holds.pure _
  · exact Holds.pure _

theorem cacheRange_memoryOk {needRd : Bool} {va : DWord} {n : Nat} :
    Holds State.memoryOk (cacheRange needRd va n) := by
  unfold cacheRange
  refine Holds.get fun _ _ => Holds.ite (fun _ => Holds.faultAt _ _) fun _ =>
    Holds.bind (Holds.collectM fun _ => cachePage_memoryOk) fun _ => ?_
  split
  · exact Holds.faultAt _ _
  · dsimp only
    split
    · exact Holds.faultAt _ _
    · exact Holds.pure _

theorem cleanHeld_memoryOk {die core : Nat} {lines : List Nat} {drop : Bool} {s : State} (hs : s.memoryOk) :
    (cleanHeld die core lines drop s).memoryOk :=
  ⟨foldl_keeps (fun m : Memory => m.wf = true) _ (fun _ e w => writeNibbles_wf w e _) _ hs.1, hs.2⟩

theorem cacheWord_memoryOk {h : Hq} {a b : BitVec 5} {c : BitVec 1} {drop : Bool} {s : State} (hs : s.memoryOk) :
    Canonical (cacheWord h a b c drop s) :=
  runK_memoryOk (Holds.bind replayable_memoryOk fun _ => Holds.get fun _ _ =>
      Holds.ite (fun _ => Holds.pure _) fun _ => Holds.bind cacheRange_memoryOk fun _ =>
      Holds.ite (fun _ => Holds.modify fun _ hv => cleanHeld_memoryOk hv) fun _ =>
      Holds.ite (fun _ => Holds.modify fun _ hv => dropLines_memoryOk hv) fun _ => Holds.modify fun _ hv =>
      cleanLines_memoryOk hv) hs

end Sys2Proof.Machine
end

section

/-! PROOFS. Launches, packets and barriers keep memory canonical. -/

namespace Sys2Proof.Machine

theorem sysWrite_memoryOk {n : Nat} {v : DWord} : Holds State.memoryOk (sysWrite n v) :=
  Holds.modCx fun _ h => h

theorem groupOf_memoryOk {g : BitVec 8} : Holds State.memoryOk (groupOf g) := by
  unfold groupOf
  refine Holds.get fun _ _ => ?_
  split
  · exact Holds.fault _
  · exact Holds.ite (fun _ => Holds.pure _) fun _ => Holds.fault _

theorem State.updLaunch_memoryOk {s : State} {n : Nat} {f : Launch → Launch} (hs : s.memoryOk) :
    (s.updLaunch n f).memoryOk :=
  hs

theorem arriveM_memoryOk {g : BitVec 8} {l : Launch} : Holds State.memoryOk (arriveM g l) :=
  Holds.get fun _ hs => Holds.ite (fun _ => Holds.waitFor _) fun _ =>
    Holds.bind (Holds.set (State.updLaunch_memoryOk hs)) fun _ => Holds.pure _

theorem waitPhase_memoryOk {g : BitVec 8} {n : BitVec 32} : Holds State.memoryOk (waitPhase g n) := by
  unfold waitPhase
  refine Holds.get fun _ _ => ?_
  split
  · exact Holds.fault _
  · exact Holds.waitUnless _ _

theorem reachCheck_memoryOk {ag : Agent} {segs : List Seg} : Holds State.memoryOk (reachCheck ag segs) := by
  unfold reachCheck
  split
  · exact Holds.ite (fun _ => Holds.pure _) fun _ => Holds.faultAt _ _
  · exact Holds.pure _

theorem checkAccess_memoryOk {ag : Agent} {k : Acc} {va : DWord} {n : Nat} :
    Holds State.memoryOk (checkAccess ag k va n) :=
  Holds.bind pages_memoryOk fun _ => Holds.bind reachCheck_memoryOk fun _ => Holds.bind homeCheck_memoryOk fun _ =>
    Holds.bind (Holds.eachM fun _ => tagCheck_memoryOk) fun _ => Holds.bind watchCheck_memoryOk fun _ => Holds.pure _

theorem readMem_memoryOk {ag : Agent} {pol : Nat} {va : DWord} {n : Nat} :
    Holds State.memoryOk (readMem ag pol va n) :=
  Holds.bind checkAccess_memoryOk fun _ => readSegs_memoryOk

theorem readGraph_memoryOk {ag : Agent} {l : Launch} {ncount : Nat} : Holds State.memoryOk (readGraph ag l ncount) :=
  Holds.bind (Holds.collectM fun _ => Holds.bind readMem_memoryOk fun _ => Holds.pure _) fun _ =>
    Holds.bind (Holds.collectM fun _ => Holds.ite (fun _ => Holds.pure _) fun _ =>
      Holds.bind (Holds.collectM fun _ => readMem_memoryOk) fun _ => Holds.pure _) fun _ =>
    Holds.iteThen (Holds.pure _) (Holds.collectM fun _ => Holds.bind readMem_memoryOk fun _ => Holds.pure _) fun _ =>
    Holds.pure _

theorem crecCheck_memoryOk {ag : Agent} {l : Launch} : Holds State.memoryOk (crecCheck ag l) := by
  intro s hs
  unfold crecCheck endOf
  dsimp only
  split <;> rename_i h <;> split at h <;> cases h <;> exact hs

theorem checkPacket_memoryOk {p : Nat} {issuer : Option Nat} : Holds State.memoryOk (checkPacket p issuer) := by
  unfold checkPacket
  refine Holds.get fun _ _ => Holds.ite (fun _ => Holds.fault _) fun _ => Holds.ite (fun _ => Holds.fault _) fun _ =>
    Holds.bind readGraph_memoryOk fun _ => ?_
  split
  · exact Holds.ite (fun _ => Holds.fault _) fun _ => Holds.bind crecCheck_memoryOk fun _ => Holds.pure _

theorem State.hold_memoryOk {s : State} {l : Launch} (hs : s.memoryOk) : (s.hold l).memoryOk :=
  hs

theorem writeMem_memoryOk {ag : Agent} {pol : Nat} {va : DWord} {data : List Byte} :
    Holds State.memoryOk (writeMem ag pol va data) :=
  Holds.bind checkAccess_memoryOk fun _ => writeSegs_memoryOk

theorem crecWrite_memoryOk {l : Launch} {off : Nat} {data : List Byte} {s : State} (hs : s.memoryOk) :
    (crecWrite l off data s).memoryOk := by
  unfold crecWrite
  split
  · exact Holds.ok writeMem_memoryOk hs ‹_›
  · exact Holds.error writeMem_memoryOk hs ‹_›

theorem crecInit_memoryOk {l : Launch} {s : State} (hs : s.memoryOk) : (crecInit l s).memoryOk :=
  crecWrite_memoryOk hs

theorem crecFinal_memoryOk {l : Launch} {status cause : Nat} {s : State} (hs : s.memoryOk) :
    (crecFinal l status cause s).memoryOk :=
  crecWrite_memoryOk (crecWrite_memoryOk (crecWrite_memoryOk (cleanLines_memoryOk hs)))

theorem State.forget_memoryOk {s : State} {n : Nat} (hs : s.memoryOk) : (s.forget n).memoryOk := hs

theorem State.endLaunch_memoryOk {s : State} {n status cause : Nat} (hs : s.memoryOk) :
    (s.endLaunch n status cause).memoryOk := by
  unfold State.endLaunch
  split
  · exact hs
  · exact crecFinal_memoryOk (State.forget_memoryOk hs)

theorem State.settle_memoryOk {s : State} {n : Nat} (hs : s.memoryOk) : (s.settle n).memoryOk := by
  unfold State.settle
  dsimp only
  split
  · exact State.updLaunch_memoryOk hs
  · exact memoryOk_ite (fun _ => State.endLaunch_memoryOk (State.updLaunch_memoryOk hs)) fun _ =>
      State.updLaunch_memoryOk hs

theorem acceptPacket_memoryOk {p : Nat} {issuer : Option Nat} : Holds State.memoryOk (acceptPacket p issuer) :=
  Holds.bind checkPacket_memoryOk fun _ => Holds.bind (Holds.modify fun _ hs => State.hold_memoryOk hs) fun _ =>
    Holds.bind (Holds.modify fun _ hs => crecInit_memoryOk hs) fun _ =>
    Holds.bind (Holds.modify fun _ hs => State.settle_memoryOk hs) fun _ => Holds.pure _

end Sys2Proof.Machine
end

section

/-! PROOFS. Copy commands and tile entries keep memory canonical. -/

namespace Sys2Proof.Machine

theorem copyBuffersOk_memoryOk {sides : List (DWord × Nat)} {n : Nat} :
    Holds State.memoryOk (copyBuffersOk sides n) :=
  Holds.get fun _ _ => Holds.bind (Holds.eachM fun _ => Holds.ite (fun _ => Holds.pure _) fun _ =>
      Holds.throw _) fun _ => Holds.bind (Holds.eachM fun _ => Holds.ite (fun _ => Holds.pure _) fun _ =>
      Holds.throw _) fun _ => Holds.eachM fun _ => Holds.ite (fun _ => Holds.pure _) fun _ => Holds.throw _

theorem queueCopy_memoryOk {f : DWord → CopyCmd} : Holds State.memoryOk (queueCopy f) :=
  Holds.get fun _ _ => Holds.bind (Holds.waitUnless _ _) fun _ => Holds.modCx fun _ h => h

theorem copyWait_memoryOk {d : BitVec 5} {done : CopyState → Bool} {ticket : CopyState → Nat}
    {value : CopyState → DWord} : Holds State.memoryOk (copyWait d done ticket value) :=
  Holds.bind replayable_memoryOk fun _ => Holds.bind raiseCopy_memoryOk fun _ => Holds.get fun _ _ =>
    Holds.bind (Holds.waitUnless _ _) fun _ => Holds.bind acquire_memoryOk fun _ => Holds.modCx fun _ h => h

theorem tileIndex_memoryOk {r : BitVec 5} : Holds State.memoryOk (tileIndex r) :=
  Holds.bind raiseTile_memoryOk fun _ => Holds.get fun _ _ => Holds.bind (Holds.require _ _) fun _ => Holds.pure _

theorem kRead_memoryOk {va : DWord} {n : Nat} : Holds State.memoryOk (kRead va n) :=
  Holds.get fun _ _ => Holds.bind pages_memoryOk fun _ => Holds.whenThen (Holds.faultAt _ _) fun _ =>
    Holds.bind homeCheck_memoryOk fun _ => Holds.bind (Holds.eachM fun _ => tagCheck_memoryOk) fun _ =>
    Holds.bind watchCheck_memoryOk fun _ => readSegs_memoryOk

theorem kWrite_memoryOk {va : DWord} {data : List Byte} : Holds State.memoryOk (kWrite va data) :=
  Holds.get fun _ _ => Holds.bind pages_memoryOk fun _ => Holds.whenThen (Holds.faultAt _ _) fun _ =>
    Holds.bind homeCheck_memoryOk fun _ => Holds.bind (Holds.eachM fun _ => tagCheck_memoryOk) fun _ =>
    Holds.bind watchCheck_memoryOk fun _ => writeSegs_memoryOk

theorem armTile_memoryOk {a : BitVec 5} {t : Nat} {go : Bool} : Holds State.memoryOk (armTile a t go) :=
  Holds.get fun _ _ => Holds.bind (Holds.require _ _) fun _ => Holds.whenThen (Holds.faultAt _ _) fun _ =>
    Holds.bind kRead_memoryOk fun _ => Holds.bind (Holds.require _ _) fun _ =>
    Holds.bind (Holds.collectM fun _ => kRead_memoryOk) fun _ => Holds.bind (Holds.require _ _) fun _ =>
    Holds.bind (Holds.require _ _) fun _ => Holds.whenThen release_memoryOk fun _ =>
    Holds.bind kWrite_memoryOk fun _ => Holds.modify fun _ hu => hu

theorem State.updTile_memoryOk {s : State} {t : Nat} {f : TileEntry → TileEntry} (hs : s.memoryOk) :
    (s.updTile t f).memoryOk :=
  hs

theorem endFiring_memoryOk {e : TileEntry} {t : Option Trap} {s : State} (hs : s.memoryOk) :
    (endFiring e t s).memoryOk := by
  unfold endFiring
  split
  · exact hs
  · exact State.updCtx_memoryOk hs

theorem tileWrite_memoryOk {e : TileEntry} {off v : Nat} {s : State} (hs : s.memoryOk) :
    (tileWrite e off v s).memoryOk := by
  unfold tileWrite
  split
  · exact Holds.ok writeMem_memoryOk hs ‹_›
  · exact Holds.error writeMem_memoryOk hs ‹_›

theorem tileRecord_memoryOk {e : TileEntry} {status cause : Nat} {sig : DWord} {s : State} (hs : s.memoryOk) :
    (tileRecord e status cause sig s).memoryOk :=
  tileWrite_memoryOk (tileWrite_memoryOk hs)

theorem failTile_memoryOk {e : TileEntry} {dev : Nat} {t : Trap} {s : State} (hs : s.memoryOk) :
    (failTile e dev t s).memoryOk :=
  endFiring_memoryOk (tileRecord_memoryOk (State.updTile_memoryOk hs))

theorem pieceSegs_memoryOk {check : Seg → M Unit} {ag : Agent} {k : Acc} {va : DWord} {n : Nat}
    (hcheck : ∀ (a : Seg), Holds State.memoryOk (check a)) : Holds State.memoryOk (pieceSegs check ag k va n) := by
  unfold pieceSegs
  refine Holds.collectM fun _ => Holds.withTrap (Holds.get fun _ _ => ?_)
  split
  · exact Holds.faultAt _ _
  · exact Holds.bind passA_memoryOk fun _ => Holds.bind (hcheck _) fun _ => Holds.pure _

theorem copySegs_memoryOk {ag : Agent} {k : Acc} {x : DWord} {x1 : Nat} : Holds State.memoryOk (copySegs ag k x x1) :=
  pieceSegs_memoryOk (fun _ => homeCheck_memoryOk)

theorem shadowCheck_memoryOk {needPair : Bool} {g : Seg} : Holds State.memoryOk (shadowCheck needPair g) :=
  Holds.ite (fun _ => Holds.ite (fun _ => Holds.faultAt _ _) fun _ => Holds.pure _) fun _ =>
    Holds.ite (fun _ => Holds.faultAt _ _) fun _ => Holds.pure _

theorem writeSeg_memoryOk {ag : Agent} {pol : Nat} {k : Acc} {g : Seg} {data : List Byte} :
    Holds State.memoryOk (writeSeg ag pol k g data) :=
  writeSegBits_memoryOk

theorem losePage_memoryOk {entry : Nat} {s : State} (hs : s.memoryOk) : (losePage entry s).memoryOk :=
  hs

theorem publishPage_memoryOk {entry : Nat} {s : State} (hs : s.memoryOk) : (publishPage entry s).memoryOk := by
  have h : ∀ a b, (dropPage a (dropPage b (losePage entry s))).memoryOk :=
    fun a b => dropPage_memoryOk (dropPage_memoryOk (losePage_memoryOk hs))
  unfold publishPage
  dsimp only
  split
  · exact h _ _
  · exact (h _ _).setShadowState
  · exact (h _ _).setShadowState

theorem writeResult_memoryOk {e : TileEntry} {xs : List Nat} : Holds State.memoryOk (writeResult e xs) :=
  Holds.bind copySegs_memoryOk fun _ => Holds.bind (Holds.eachM fun _ => shadowCheck_memoryOk) fun _ =>
    Holds.bind (Holds.eachM fun _ => Holds.bind writeSeg_memoryOk fun _ => Holds.modify fun _ hs =>
      noteHits_memoryOk hs) fun _ => Holds.bind (Holds.modify fun _ hs => settleWrites_memoryOk hs) fun _ =>
    Holds.ite (fun _ => Holds.eachM fun _ => Holds.modify fun _ hs => publishPage_memoryOk hs) fun _ => Holds.pure _

theorem completeTile_memoryOk {e : TileEntry} {xs : List Nat} {sig : DWord} {s : State} (hs : s.memoryOk) :
    (completeTile e xs sig s).memoryOk := by
  unfold completeTile
  split
  · exact failTile_memoryOk hs
  · split
    · exact failTile_memoryOk (undone_memoryOk (Holds.error (Holds.ite (fun _ => Holds.pure _) fun _ =>
              writeResult_memoryOk) hs ‹_›))
    · exact hs
    · exact endFiring_memoryOk (tileRecord_memoryOk (State.updTile_memoryOk
              (Holds.ok (Holds.ite (fun _ => Holds.pure _) fun _ => writeResult_memoryOk) hs ‹_›)))

theorem tilePages_memoryOk {ag : Agent} {k : Acc} {va : DWord} {n : Nat} :
    Holds State.memoryOk (tilePages ag k va n) :=
  Holds.bind (pieceSegs_memoryOk (fun _ => Holds.pure _)) fun _ => Holds.get fun _ _ =>
    Holds.bind (Holds.eachM fun _ => Holds.ite (fun _ => Holds.faultAt _ _) fun _ => Holds.pure _) fun _ =>
    Holds.bind (Holds.eachM fun _ => Holds.ite (fun _ => Holds.faultAt _ _) fun _ => Holds.pure _) fun _ =>
    Holds.pure _

theorem tileChecks_memoryOk {e : TileEntry} : Holds State.memoryOk (tileChecks e) :=
  Holds.iteThen tilePages_memoryOk (Holds.pure _) fun _ => Holds.bind tilePages_memoryOk fun _ =>
    Holds.bind (Holds.eachM fun _ => shadowCheck_memoryOk) fun _ =>
    Holds.bind (Holds.eachM fun _ => tagCheck_memoryOk) fun _ =>
    Holds.bind (Holds.eachM fun _ => tagCheck_memoryOk) fun _ => Holds.get fun _ _ =>
    Holds.whenThen (Holds.fault _) fun _ => Holds.pure _

theorem readTile_memoryOk {e : TileEntry} : Holds State.memoryOk (readTile e) :=
  Holds.ite (fun _ => Holds.bind copySegs_memoryOk fun _ =>
      Holds.bind (Holds.collectM fun _ => Holds.bind (Holds.modify fun _ hs => noteHits_memoryOk hs) fun _ =>
        readSeg_memoryOk) fun _ => Holds.pure _) fun _ => Holds.pure _

theorem fireTile_memoryOk {t : Nat} {by' : Option CtxId} {s : State} (hs : s.memoryOk) :
    (fireTile t by' s).memoryOk := by
  unfold fireTile
  split
  · exact hs
  · refine memoryOk_ite (fun _ => completeTile_memoryOk ?_) fun _ => ?_
    · split
      · exact State.updCtx_memoryOk (State.updTile_memoryOk hs)
      · exact State.updTile_memoryOk hs
    · split
      · refine failTile_memoryOk (undone_memoryOk (Holds.error tileChecks_memoryOk ?_ ‹_›))
        split
        · exact State.updCtx_memoryOk (State.updTile_memoryOk hs)
        · exact State.updTile_memoryOk hs
      · split
        · exact State.updCtx_memoryOk (State.updTile_memoryOk hs)
        · exact State.updTile_memoryOk hs
      · refine memoryOk_ite (fun _ => ?_) fun _ => State.updTile_memoryOk (Holds.ok tileChecks_memoryOk ?_ ‹_›)
        · split
          · refine completeTile_memoryOk (Holds.ok readTile_memoryOk (State.updTile_memoryOk
                    (Holds.ok tileChecks_memoryOk ?_ ‹_›)) ‹_›)
            split
            · exact State.updCtx_memoryOk (State.updTile_memoryOk hs)
            · exact State.updTile_memoryOk hs
          · refine State.updTile_memoryOk (Holds.ok tileChecks_memoryOk ?_ ‹_›)
            split
            · exact State.updCtx_memoryOk (State.updTile_memoryOk hs)
            · exact State.updTile_memoryOk hs
        · split
          · exact State.updCtx_memoryOk (State.updTile_memoryOk hs)
          · exact State.updTile_memoryOk hs

theorem takeFlag_memoryOk {t : Nat} {by' : Option CtxId} {s : State} (hs : s.memoryOk) :
    (takeFlag t by' s).memoryOk := by
  unfold takeFlag
  split
  · exact hs
  · refine memoryOk_ite (fun _ => hs) fun _ => memoryOk_ite (fun _ => hs) fun _ =>
      memoryOk_ite (fun _ => failTile_memoryOk ?_) fun _ => fireTile_memoryOk hs
    split
    · exact State.updCtx_memoryOk hs
    · exact hs

theorem waitedTile_memoryOk {a : BitVec 5} : Holds State.memoryOk (waitedTile a) := by
  unfold waitedTile
  refine Holds.bind replayable_memoryOk fun _ => Holds.bind tileIndex_memoryOk fun _ => Holds.get fun _ _ => ?_
  split
  · exact Holds.fault _
  · exact Holds.bind (Holds.require _ _) fun _ => Holds.pure _

theorem boost_memoryOk {d : BitVec 5} {claim : Nat} : Holds State.memoryOk (boost d claim) :=
  Holds.bind replayable_memoryOk fun _ => Holds.get fun _ _ => Holds.bind (Holds.modCx fun _ h => h) fun _ =>
    Holds.modCx fun _ h => h

end Sys2Proof.Machine
end

section

/-! PROOFS. Freeze, thaw and resume keep memory canonical. -/

namespace Sys2Proof.Machine

theorem handlerOf_memoryOk {n : DWord} : Holds State.memoryOk (handlerOf n) :=
  Holds.get fun _ _ => Holds.require _ _

theorem freezeTarget_memoryOk {n : DWord} {ok : Launch → Bool} : Holds State.memoryOk (freezeTarget n ok) := by
  unfold freezeTarget
  refine Holds.get fun _ _ => ?_
  split
  · exact Holds.fault _
  · exact Holds.ite (fun _ => Holds.pure _) fun _ => Holds.fault _

theorem clearBitmap_memoryOk {l : Launch} {s : State} (hs : s.memoryOk) :
    (clearBitmap l s).memoryOk := ⟨Memory.filter_wf hs.1 _, hs.2⟩

theorem freezeMarkM_memoryOk {n : DWord} : Holds State.memoryOk (freezeMarkM n) :=
  Holds.bind freezeTarget_memoryOk fun _ => Holds.modify fun _ hs => clearBitmap_memoryOk hs

theorem writeImage_memoryOk {asid : Nat} {issuer : Option (Nat × Nat)} {va : DWord} {total img : Nat} :
    Holds State.memoryOk (writeImage asid issuer va total img) :=
  Holds.get fun _ _ => Holds.eachM fun _ => writeMem_memoryOk

theorem freezePlan_memoryOk {n : Nat} {s : State} (hs : s.memoryOk) : (freezePlan n s).memoryOk :=
  foldl_keeps State.memoryOk _ (fun _ _ hu => State.updCtx_memoryOk hu) _ hs

theorem State.updCtxsOf_memoryOk {s : State} {l : Nat} {f : Ctx → Ctx} (hs : s.memoryOk) :
    (s.updCtxsOf l f).memoryOk :=
  hs

theorem freezeNow_memoryOk {n : Nat} {s : State} (hs : s.memoryOk) : (freezeNow n s).memoryOk := by
  have h : (freezePlan n (cleanLines (fun _ => true) (settleWrites s))).memoryOk :=
    freezePlan_memoryOk (cleanLines_memoryOk (settleWrites_memoryOk hs))
  exact h

theorem freezeM_memoryOk {me : Option Nat} {n addr : DWord} {asid : Launch → Nat} :
    Holds State.memoryOk (freezeM me n addr asid) :=
  Holds.bind freezeTarget_memoryOk fun _ => Holds.bind (Holds.require _ _) fun _ =>
    Holds.whenThen (Holds.modify fun _ hs => State.updLaunch_memoryOk hs) fun _ => Holds.get fun _ _ =>
    Holds.whenThen (Holds.ite (fun _ => Holds.modify fun _ hu => freezeNow_memoryOk hu) fun _ =>
      Holds.waitFor _) fun _ => Holds.get fun _ _ => Holds.ite (fun _ => Holds.bind release_memoryOk fun _ =>
      Holds.pure _) fun _ => Holds.bind writeImage_memoryOk fun _ =>
    Holds.bind (Holds.modify fun _ hv => clearBitmap_memoryOk hv) fun _ => Holds.bind release_memoryOk fun _ =>
    Holds.pure _

theorem freezeDropM_memoryOk {n : DWord} : Holds State.memoryOk (freezeDropM n) :=
  Holds.bind freezeTarget_memoryOk fun _ => Holds.modify fun _ hs => State.forget_memoryOk hs

theorem restoreTiles_memoryOk {es : List TileEntry} : Holds State.memoryOk (restoreTiles es) :=
  Holds.get fun _ _ => Holds.bind (Holds.require _ _) fun _ => Holds.modify fun _ hu => hu

theorem reloadK_memoryOk {l : Launch} {c : Ctx} {s : State} (hs : s.memoryOk) : (reloadK l c s).memoryOk := by
  unfold reloadK
  split
  · exact State.updCtx_memoryOk hs
  · exact hs

theorem toHandler_memoryOk {c : CtxId} {stop : Nat} {f : Frame} {s : State} (hs : s.memoryOk) :
    (toHandler c stop f s).memoryOk := by
  unfold toHandler
  split
  · exact hs
  · exact memoryOk_ite (fun _ => State.updCtx_memoryOk hs) fun _ =>
      memoryOk_ite (fun _ => State.endLaunch_memoryOk hs) fun _ => State.updLaunch_memoryOk hs

theorem routeCarried_memoryOk {l : Launch} {s : State} (hs : s.memoryOk) : (routeCarried l s).memoryOk := by
  unfold routeCarried
  refine foldl_keeps State.memoryOk _ (fun u _ hu => ?_) _ hs
  split
  · split
    · exact toHandler_memoryOk (State.updCtx_memoryOk hu)
    · exact hu
  · exact hu

theorem restart_memoryOk {l : Launch} {s : State} (hs : s.memoryOk) : (restart l s).memoryOk :=
  State.settle_memoryOk (routeCarried_memoryOk (foldl_keeps State.memoryOk _ (fun _ _ hu =>
          reloadK_memoryOk hu) _ (crecWrite_memoryOk hs)))

theorem freezeContM_memoryOk {n : DWord} : Holds State.memoryOk (freezeContM n) :=
  Holds.bind freezeTarget_memoryOk fun _ => Holds.get fun _ _ => Holds.bind restoreTiles_memoryOk fun _ =>
    Holds.bind (Holds.modify fun _ hu => hu) fun _ => Holds.bind (Holds.modify fun _ hu =>
      State.updLaunch_memoryOk hu) fun _ => Holds.bind (Holds.modify fun _ hu =>
      State.updCtxsOf_memoryOk hu) fun _ => Holds.bind (Holds.modify fun _ hu => clearBitmap_memoryOk hu) fun _ =>
    Holds.modify fun _ hu => restart_memoryOk hu

theorem Holds.shell {α β : Type} {P : State → Prop} {op : M α} {m : M β} (hop : Holds P op)
    (hok : ∀ s a t, P s → P t → op s = .ok a t → P (endOf m s))
    (herr : ∀ s e t, P s → P t → op s = .error e t → P (endOf m s)) : Holds P m := by
  intro s hs
  cases h : op s with
  | ok a t => exact hok s a t hs (hop.ok hs h) h
  | error e t => exact herr s e t hs (hop.error hs h) h

theorem wholly_memoryOk {α : Type} {op : M α} (hop : Holds State.memoryOk op) : Holds State.memoryOk (wholly op) := by
  refine Holds.shell hop (fun s a t _ ht e => ?_) fun s x t hs ht e => ?_
  · simpa only [endOf, wholly, e] using ht
  · cases x <;> simpa only [endOf, wholly, e]

theorem readImage_memoryOk {asid : Nat} {va : DWord} {n : Nat} : Holds State.memoryOk (readImage asid va n) :=
  Holds.get fun _ _ => Holds.bind (Holds.collectM fun _ => readMem_memoryOk) fun _ => Holds.pure _

theorem thawImage_memoryOk {img grant asid : Nat} : Holds State.memoryOk (thawImage img grant asid) := by
  unfold thawImage
  refine Holds.bind checkPacket_memoryOk fun _ => Holds.bind (Holds.require _ _) fun _ => Holds.get fun _ _ =>
    Holds.bind (Holds.modify fun _ hu => State.hold_memoryOk hu) fun _ => Holds.bind restoreTiles_memoryOk fun _ =>
    Holds.bind (Holds.modify fun _ hu => hu) fun _ => Holds.bind (Holds.modify fun _ hu =>
      clearBitmap_memoryOk hu) fun _ => ?_
  split
  · exact Holds.bind (Holds.modify fun _ hs => hs) fun _ =>
      Holds.bind (Holds.modify fun _ hs => restart_memoryOk hs) fun _ => Holds.pure _
  · exact Holds.bind (Holds.modify fun _ hs => restart_memoryOk hs) fun _ => Holds.pure _

theorem thawM_memoryOk {va : DWord} {grant asid : Nat} : Holds State.memoryOk (thawM va grant asid) :=
  wholly_memoryOk (Holds.bind readImage_memoryOk fun _ => Holds.bind readImage_memoryOk fun _ =>
      Holds.bind (Holds.require _ _) fun _ => thawImage_memoryOk)

theorem heldFrame_memoryOk {a : BitVec 5} : Holds State.memoryOk (heldFrame a) := by
  unfold heldFrame
  refine Holds.get fun _ _ => ?_
  split
  · exact Holds.fault _
  · refine Holds.ite (fun _ => Holds.fault _) fun _ => Holds.bind readMem_memoryOk fun _ => ?_
    split
    · exact Holds.faultAt _ _
    · exact Holds.ite (fun _ => Holds.pure _) fun _ => Holds.faultAt _ _

theorem State.restorePlan_memoryOk {s : State} {l : Nat} (hs : s.memoryOk) : (s.restorePlan l).memoryOk := by
  unfold State.restorePlan
  split
  · exact hs
  · exact State.updCtx_memoryOk hs

theorem resumeCtx_memoryOk {c : CtxId} {s : State} (hs : s.memoryOk) : (resumeCtx c s).memoryOk :=
  State.updCtx_memoryOk hs

theorem State.focus_memoryOk {s : State} {c : CtxId} (hs : s.memoryOk) : (s.focus c).memoryOk := by
  unfold State.focus
  refine memoryOk_ite (fun _ => hs) fun _ => ?_
  split <;> exact hs

theorem readNodeArgs_memoryOk {l : Launch} {n : Node} : Holds State.memoryOk (readNodeArgs l n) :=
  Holds.bind (Holds.eachM fun _ => Holds.bind readMem_memoryOk fun _ => Holds.ite (fun _ => Holds.fault _) fun _ =>
      Holds.pure _) fun _ => Holds.bind readMem_memoryOk fun _ => Holds.pure _

theorem loadNode_memoryOk {l : Launch} {n : Node} {s : State} (hs : s.memoryOk) : (loadNode l n s).memoryOk := by
  unfold loadNode
  split
  · have h := readNodeArgs_memoryOk.ok hs ‹_›
    exact h
  · have h := readNodeArgs_memoryOk.error hs ‹_›
    dsimp only
    split
    · exact State.takeFault_memoryOk h
    · exact h

theorem resumeFrame_memoryOk {c : CtxId} {f : Frame} {s : State} (hs : s.memoryOk) :
    (resumeFrame c f s).memoryOk := by
  unfold resumeFrame
  refine memoryOk_ite (fun _ => ?_) fun _ => resumeCtx_memoryOk (memoryOk_ite (fun _ =>
        State.restorePlan_memoryOk hs) fun _ => hs)
  split
  · exact resumeCtx_memoryOk (memoryOk_ite (fun _ => State.restorePlan_memoryOk hs) fun _ => hs)
  · split
    · exact State.focus_memoryOk (loadNode_memoryOk (State.focus_memoryOk (resumeCtx_memoryOk (memoryOk_ite (fun _ =>
                State.restorePlan_memoryOk hs) fun _ => hs))))
    · exact resumeCtx_memoryOk (memoryOk_ite (fun _ => State.restorePlan_memoryOk hs) fun _ => hs)

theorem State.leavePlanb_memoryOk {s : State} {l : Nat} (hs : s.memoryOk) : (s.leavePlanb l).memoryOk :=
  hs

end Sys2Proof.Machine
end

section

/-! PROOFS. Stream transfers keep memory canonical. -/

namespace Sys2Proof.Machine

theorem runLS_memoryOk {h : Hq} {words : Nat} {op : M Unit} {s : State} (hop : Holds State.memoryOk op)
    (hs : s.memoryOk) : Canonical (runLS h words op s) :=
  Canonical.next (memoryOk_ite (fun _ => runWord_memoryOk hop hs) fun _ => State.illegal_memoryOk hs)

theorem setYz_memoryOk {i : BitVec 4} {v : DWord} : Holds State.memoryOk (setYz i v) :=
  Holds.modify fun _ hs => hs

theorem aluY_memoryOk {f : DWord → DWord → DWord} {d a b : BitVec 4} : Holds State.memoryOk (aluY f d a b) :=
  Holds.get fun _ _ => setYz_memoryOk

theorem runL_memoryOk {h : Hq} {words : Nat} {op : M Unit} {s : State} (hop : Holds State.memoryOk op)
    (hs : s.memoryOk) : Canonical (runL h words op s) :=
  Canonical.next (memoryOk_ite (fun _ => runWord_memoryOk hop hs) fun _ => State.illegal_memoryOk hs)

theorem beginFlight_memoryOk {st : BitVec 4} {drain : Option (Nat × Nat)} {s : State} (hs : s.memoryOk) :
    (beginFlight st drain s).memoryOk :=
  hs

theorem sending_memoryOk {s s' : State} (hs' : s'.memoryOk) : (sending s s').memoryOk := hs'

theorem transferAt_memoryOk {k : Stream → Nat} {st : BitVec 4} {op : M Unit} (hop : Holds State.memoryOk op) :
    Holds State.memoryOk (transferAt k st op) := by
  refine Holds.shell hop (fun s a t _ ht e => ?_) fun s x t hs ht e => ?_
  · simpa only [endOf, transferAt, e] using beginFlight_memoryOk ht
  · cases x with
    | wait a =>
      simp only [endOf, transferAt, e]
      exact memoryOk_ite (fun _ => ht) fun _ => ht
    | trap a => simpa only [endOf, transferAt, e] using undone_memoryOk ht

theorem transfer_memoryOk {st : BitVec 4} {op : M Unit} (hop : Holds State.memoryOk op) :
    Holds State.memoryOk (transfer st op) :=
  transferAt_memoryOk hop

theorem boundFor_memoryOk {st : BitVec 4} {write : Bool} : Holds State.memoryOk (boundFor st write) := by
  unfold boundFor
  refine Holds.get fun _ _ => ?_
  dsimp only
  split
  · exact Holds.fault _
  · exact Holds.ite (fun _ => Holds.pure _) fun _ => Holds.fault _

theorem notExhausted_memoryOk {t : Stream} : Holds State.memoryOk (notExhausted t) :=
  Holds.require _ _

theorem bufCheck_memoryOk {target : CtxId} {i : BitVec 6} {agent acc : Nat} :
    Holds State.memoryOk (bufCheck target i agent acc) := by
  unfold bufCheck
  refine Holds.get fun _ _ => ?_
  split
  · exact Holds.fault _
  · exact Holds.ite (fun _ => Holds.throw _) fun _ => Holds.ite (fun _ => Holds.throw _) fun _ => Holds.pure _

theorem rowFour_memoryOk {b : Binding} : Holds State.memoryOk (rowFour b) :=
  Holds.get fun _ _ => Holds.ite (fun _ => bufCheck_memoryOk) fun _ => Holds.pure _

theorem noteToward_memoryOk {ag : Agent} {ds : List Nat} {s : State} (hs : s.memoryOk) :
    (noteToward ag ds s).memoryOk :=
  memoryOk_ite (fun _ => hs) fun _ => hs

theorem reading_memoryOk {α : Type} {ag : Agent} {pol : Nat} {places : List (DWord × Nat)} {op : M α}
    (hop : Holds State.memoryOk op) :
    Holds State.memoryOk (reading ag pol places op) := by
  refine Holds.shell hop (fun s a t _ ht e => ?_) fun s x t hs ht e => ?_
  · simpa only [endOf, reading, e] using ht
  · cases x with
    | wait a => simpa only [endOf, reading, e] using noteToward_memoryOk ht
    | trap a => simpa only [endOf, reading, e] using ht

theorem rangeCheck_memoryOk {st : BitVec 4} {k : Nat} {e : Int} : Holds State.memoryOk (rangeCheck st k e) :=
  Holds.ite (fun _ => Holds.withTrap (Holds.fault _)) fun _ => Holds.pure _

theorem bufRange_memoryOk {t : Stream} {b : Binding} {off n acc : Nat} :
    Holds State.memoryOk (bufRange t b off n acc) :=
  Holds.get fun _ _ => Holds.ite (fun _ => Holds.throw _) fun _ => Holds.pure _

theorem naming_memoryOk {α : Type} {ag : Agent} {st : BitVec 4} {f : Nat × Nat × DWord → Nat × Nat × DWord}
    {op : M α} (hop : Holds State.memoryOk op) : Holds State.memoryOk (naming ag st f op) := by
  refine Holds.shell hop (fun s a t _ ht e => ?_) fun s x t hs ht e => ?_
  · simpa only [endOf, naming, e] using ht
  · cases x with
    | wait a =>
      simp only [endOf, naming, e]
      split
      · rename_i h; split at h <;> cases h
      · rename_i h
        split at h <;> cases h
        · exact ht
        · exact ht
    | trap a => simpa only [endOf, naming, e] using ht

theorem elemOp_memoryOk {α : Type} {ag : Agent} {st : BitVec 4} {k e : Nat} {op : M α}
    (hop : Holds State.memoryOk op) : Holds State.memoryOk (elemOp ag st k e op) :=
  naming_memoryOk (Holds.withTrap hop)

theorem replayableRead_memoryOk {va : DWord} {n : Nat} : Holds State.memoryOk (replayableRead va n) :=
  Holds.get fun _ _ => Holds.ite (fun _ => Holds.faultAt _ _) fun _ => Holds.pure _

theorem windowCheck_memoryOk {t : Stream} {va : DWord} {n : Nat} : Holds State.memoryOk (windowCheck t va n) := by
  unfold windowCheck
  split
  · exact Holds.faultAt _ _
  · exact Holds.pure _

theorem spadCheck_memoryOk {me : CtxId} {own acc : Nat} {g : Seg} :
    Holds State.memoryOk (spadCheck me own acc g) := by
  unfold spadCheck
  refine Holds.get fun _ _ => Holds.ite (fun _ => ?_) fun _ => Holds.pure _
  split
  · exact Holds.faultAt _ _
  · exact Holds.ite (fun _ => Holds.faultAt _ _) fun _ => Holds.withTrap (Holds.eachM fun _ => bufCheck_memoryOk)

theorem awaitReply_memoryOk {ag : Agent} {pol : Nat} {k : Acc} {segs : List Seg} :
    Holds State.memoryOk (awaitReply ag pol k segs) :=
  Holds.get fun _ _ => Holds.ite (fun _ => Holds.pure _) fun _ =>
    Holds.bind (Holds.modify fun _ hu => noteToward_memoryOk hu) fun _ => Holds.waitFor _

theorem holdPages_memoryOk {st : BitVec 4} {segs : List Seg} : Holds State.memoryOk (holdPages st segs) :=
  Holds.modCx fun _ h => h

theorem spadEach_memoryOk {me : CtxId} {g : Seg} {f : Ctx → BitVec 6 → M Unit}
    (hf : ∀ (a : Ctx) (a_1 : BitVec 6), Holds State.memoryOk (f a a_1)) : Holds State.memoryOk (spadEach me g f) := by
  unfold spadEach
  refine Holds.get fun _ _ => Holds.ite (fun _ => ?_) fun _ => Holds.pure _
  split
  · exact Holds.faultAt _ _
  · exact Holds.eachM fun _ => hf _ _

theorem bufAccess_memoryOk {target : CtxId} {i : BitVec 6} {agent acc : Nat} :
    Holds State.memoryOk (bufAccess target i agent acc) :=
  Holds.bind bufCheck_memoryOk fun _ => Holds.modify fun _ hs => State.updCtx_memoryOk hs

theorem spadEnter_memoryOk {me : CtxId} {own acc : Nat} {g : Seg} : Holds State.memoryOk (spadEnter me own acc g) :=
  spadEach_memoryOk (fun _ _ => bufAccess_memoryOk)

theorem bufFill_memoryOk {target : CtxId} {i : BitVec 6} {top : Nat} : Holds State.memoryOk (bufFill target i top) :=
  Holds.modify fun _ hs => State.updCtx_memoryOk hs

theorem spadFill_memoryOk {me : CtxId} {g : Seg} : Holds State.memoryOk (spadFill me g) :=
  spadEach_memoryOk (fun _ _ => bufFill_memoryOk)

theorem spadTouch_memoryOk {me : CtxId} {own acc : Nat} {g : Seg} : Holds State.memoryOk (spadTouch me own acc g) :=
  Holds.bind spadEnter_memoryOk fun _ => Holds.ite (fun _ => spadFill_memoryOk) fun _ => Holds.pure _

theorem streamMem_memoryOk {ag : Agent} {own : Nat} {st : BitVec 4} {t : Stream} {va : DWord} {n : Nat} :
    Holds State.memoryOk (streamMem ag own st t va n) :=
  Holds.bind replayableRead_memoryOk fun _ => Holds.bind windowCheck_memoryOk fun _ =>
    Holds.bind pages_memoryOk fun _ => Holds.bind (Holds.eachM fun _ => spadCheck_memoryOk) fun _ =>
    Holds.bind homeCheck_memoryOk fun _ => Holds.bind (Holds.eachM fun _ => tagCheck_memoryOk) fun _ =>
    Holds.bind watchCheck_memoryOk fun _ => Holds.bind (naming_memoryOk awaitReply_memoryOk) fun _ =>
    Holds.bind holdPages_memoryOk fun _ => Holds.bind (Holds.eachM fun _ => spadTouch_memoryOk) fun _ =>
    readSegs_memoryOk

theorem streamHeader_memoryOk {ag : Agent} {own : Nat} {st : BitVec 4} {t : Stream} {e : Nat} :
    Holds State.memoryOk (streamHeader ag own st t e) :=
  Holds.bind streamMem_memoryOk fun _ => Holds.ite (fun _ => Holds.pure _) fun _ => Holds.faultAt _ _

theorem streamBytes_memoryOk {ag : Agent} {own : Nat} {st : BitVec 4} {t : Stream} {b : Binding} {off n : Nat} :
    Holds State.memoryOk (streamBytes ag own st t b off n) :=
  Holds.ite (fun _ => Holds.bind bufRange_memoryOk fun _ => Holds.get fun _ _ =>
      Holds.bind bufAccess_memoryOk fun _ => Holds.pure _) fun _ => streamMem_memoryOk

theorem streamCode_memoryOk {ag : Agent} {own : Nat} {st : BitVec 4} {t : Stream} {b : Binding} {e : Nat} :
    Holds State.memoryOk (streamCode ag own st t b e) :=
  Holds.ite (fun _ => Holds.bind (Holds.collectM fun _ => streamBytes_memoryOk) fun _ => Holds.pure _) fun _ =>
    Holds.bind streamBytes_memoryOk fun _ => Holds.pure _

theorem elemsFrom_memoryOk {ag : Agent} {own : Nat} {st : BitVec 4} {t : Stream} {b : Binding}
    {es : List (Nat × Int)} {hdr : Option (Nat × Nat)} :
    Holds State.memoryOk (elemsFrom ag own st t b es hdr) := by
  induction es generalizing hdr with
  | nil => exact Holds.pure _
  | cons ke rest ih =>
    unfold elemsFrom
    refine Holds.bind rangeCheck_memoryOk fun _ => Holds.bind (Holds.withTrap bufRange_memoryOk) fun _ =>
      Holds.bind (elemOp_memoryOk ?_) fun _ => Holds.bind (elemOp_memoryOk streamCode_memoryOk) fun _ =>
        Holds.bind ih fun _ => Holds.pure _
    split
    · exact Holds.ite (fun _ => Holds.pure _) fun _ => Holds.ite (fun _ => streamHeader_memoryOk) fun _ =>
        Holds.pure _
    · exact Holds.ite (fun _ => streamHeader_memoryOk) fun _ => Holds.pure _

theorem readElems_memoryOk {ag : Agent} {own : Nat} {st : BitVec 4} {t : Stream} {b : Binding}
    {elems : List (Nat × Int)} : Holds State.memoryOk (readElems ag own st t b elems) :=
  reading_memoryOk elemsFrom_memoryOk

theorem giveLq_memoryOk {n : Nat} {img : Image} : Holds State.memoryOk (giveLq n img) :=
  Holds.get fun _ _ => Holds.ite (fun _ => Holds.waitFor _) fun _ => Holds.modCx fun _ h => h

theorem setPos_memoryOk {st : BitVec 4} {v : Nat} : Holds State.memoryOk (setPos st v) :=
  Holds.modCx fun _ h => h

theorem lastRead_memoryOk {l : BitVec 1} {b : Binding} : Holds State.memoryOk (lastRead l b) :=
  Holds.get fun _ _ => Holds.ite (fun _ => bufAccess_memoryOk) fun _ => Holds.pure _

theorem atPos_memoryOk {st : BitVec 4} {t : Stream} {op : M Unit} (hop : Holds State.memoryOk op) :
    Holds State.memoryOk (atPos st t op) :=
  Holds.withTrap hop

theorem zbBytes_memoryOk {ag : Agent} {st : BitVec 4} {t : Stream} {b : Binding} {k n : Nat} :
    Holds State.memoryOk (zbBytes ag st t b k n) :=
  reading_memoryOk (Holds.bind (Holds.collectM fun _ => Holds.bind rangeCheck_memoryOk fun _ =>
        streamBytes_memoryOk) fun _ => Holds.pure _)

theorem decodeChunk_memoryOk {ag : Agent} {st : BitVec 4} {t : Stream} {b : Binding} {f a : Nat} :
    Holds State.memoryOk (decodeChunk ag st t b f a) := by
  unfold decodeChunk
  refine Holds.bind (Holds.withTrap (Holds.require _ _)) fun _ =>
    Holds.bind (Holds.withTrap zbBytes_memoryOk) fun _ =>
    Holds.bind (Holds.withTrap (Holds.bind (Holds.require _ _) fun _ => Holds.bind zbBytes_memoryOk fun _ =>
        Holds.bind (Holds.require _ _) fun _ => Holds.bind (Holds.require _ _) fun _ => ?_)) fun _ =>
    Holds.bind (Holds.withTrap (Holds.require _ _)) fun _ => Holds.pure _
  split
  · exact Holds.pure _
  · exact Holds.fault _

theorem fillBuffer_memoryOk {b : BitVec 6} {data : List Byte} : Holds State.memoryOk (fillBuffer b data) :=
  Holds.get fun _ _ => Holds.bind bufAccess_memoryOk fun _ => Holds.modCx fun _ h => h

theorem ldzChunk_memoryOk {b : BitVec 6} {st n : BitVec 4} {f : Nat} : Holds State.memoryOk (ldzChunk b st n f) := by
  unfold ldzChunk
  refine transfer_memoryOk (Holds.bind replayable_memoryOk fun _ => Holds.bind boundFor_memoryOk fun _ => ?_)
  split
  · refine Holds.get fun _ _ => Holds.bind (Holds.withTrap notExhausted_memoryOk) fun _ =>
      Holds.bind (Holds.withTrap rowFour_memoryOk) fun _ =>
      Holds.bind (naming_memoryOk decodeChunk_memoryOk) fun _ => ?_
    split
    · exact Holds.bind (Holds.withTrap (Holds.require _ _)) fun _ => Holds.bind fillBuffer_memoryOk fun _ =>
        Holds.bind setPos_memoryOk fun _ => Holds.modCx fun _ h => h

theorem ldzDeliver_memoryOk {b : BitVec 6} {st n : BitVec 4} {f : Nat} : Holds State.memoryOk (ldzDeliver b st n f) :=
  Holds.bind ldzChunk_memoryOk fun _ => modSeq_memoryOk

theorem ldzLoop_memoryOk {b : BitVec 6} {st n : BitVec 4} {fuel f : Nat} :
    Holds State.memoryOk (ldzLoop b st n fuel f) := by
  induction fuel generalizing f with
  | zero => exact Holds.pure _
  | succ fuel ih =>
    exact Holds.get fun _ _ => Holds.ite (fun _ => Holds.pure _) fun _ => Holds.bind ldzDeliver_memoryOk fun _ => ih

theorem postRoom_memoryOk {tk : BitVec 3} : Holds State.memoryOk (postRoom tk) := by
  unfold postRoom
  refine Holds.get fun _ _ => ?_
  split
  · exact Holds.waitUnless _ _
  · exact Holds.pure _

theorem lastChunk_memoryOk {b : BitVec 6} {st : BitVec 4} : Holds State.memoryOk (lastChunk b st) :=
  Holds.get fun _ _ => Holds.withTrap bufAccess_memoryOk

theorem ldzStart_memoryOk {b : BitVec 6} {st n : BitVec 4} : Holds State.memoryOk (ldzStart b st n) := by
  unfold ldzStart
  refine transfer_memoryOk (Holds.bind replayable_memoryOk fun _ => Holds.bind boundFor_memoryOk fun _ => ?_)
  split
  · exact Holds.bind (Holds.require _ _) fun _ => Holds.bind notExhausted_memoryOk fun _ => Holds.get fun _ _ =>
      Holds.ite (fun _ => Holds.throw _) fun _ => Holds.ite (fun _ => Holds.throw _) fun _ =>
      Holds.bind (Holds.withTrap (Holds.require _ _)) fun _ => Holds.ite (fun _ => rowFour_memoryOk) fun _ =>
      Holds.bind bufCheck_memoryOk fun _ => Holds.ite (fun _ => Holds.throw _) fun _ => Holds.pure _

theorem groupBytes_memoryOk {ag : Agent} {st : BitVec 4} {t : Stream} {b : Binding} {k e : Nat} :
    Holds State.memoryOk (groupBytes ag st t b k e) :=
  Holds.bind (Holds.collectM fun _ => elemOp_memoryOk (Holds.collectM fun _ => streamBytes_memoryOk)) fun _ =>
    Holds.pure _

theorem storedBytes_memoryOk {ag : Agent} {st : BitVec 4} {t : Stream} {b : Binding} {cnt : Nat} :
    Holds State.memoryOk (storedBytes ag st t b cnt) :=
  reading_memoryOk (Holds.ite (fun _ => Holds.bind (Holds.collectM fun _ => Holds.bind rangeCheck_memoryOk fun _ =>
          groupBytes_memoryOk) fun _ => Holds.pure _) fun _ =>
      Holds.bind (Holds.collectM fun _ => Holds.bind rangeCheck_memoryOk fun _ =>
        elemOp_memoryOk streamCode_memoryOk) fun _ => Holds.pure _)

theorem runS_memoryOk {h : Hq} {words : Nat} {op : M Unit} {s : State} (hop : Holds State.memoryOk op)
    (hs : s.memoryOk) : Canonical (runS h words op s) :=
  Canonical.next (memoryOk_ite (fun _ => runWord_memoryOk hop hs) fun _ => State.illegal_memoryOk hs)

theorem storeStart_memoryOk {st : BitVec 4} {ok : Stream → Bool} : Holds State.memoryOk (storeStart st ok) := by
  unfold storeStart
  refine Holds.bind replayable_memoryOk fun _ => Holds.bind boundFor_memoryOk fun _ => ?_
  split
  · exact Holds.bind (Holds.require _ _) fun _ => Holds.bind notExhausted_memoryOk fun _ =>
      Holds.bind (atPos_memoryOk (Holds.require _ _)) fun _ => Holds.pure _

theorem headSq_memoryOk {n : BitVec 4} : Holds State.memoryOk (headSq n) := by
  unfold headSq
  refine Holds.get fun _ _ => ?_
  split
  · exact Holds.waitFor _
  · exact Holds.pure _

theorem landItem_memoryOk {ag : Agent} {st : BitVec 4} {k : Acc} {p : Item × List Seg} :
    Holds State.memoryOk (landItem ag st k p) := by
  unfold landItem
  split
  · exact Holds.pure _
  · exact Holds.bind (Holds.modify fun _ hs => noteHits_memoryOk hs) fun _ => holdPages_memoryOk

theorem itemRange_memoryOk {st : BitVec 4} {b : Binding} {it : Item} : Holds State.memoryOk (itemRange st b it) := by
  unfold itemRange
  refine Holds.get fun _ _ => Holds.withTrap (Holds.ite (fun _ => Holds.fault _) fun _ => ?_)
  split
  · exact Holds.ite (fun _ => Holds.throw _) fun _ => Holds.pure _
  · exact Holds.pure _

theorem reachedCheck_memoryOk {ag : Agent} {n : Nat} {va : DWord} : Holds State.memoryOk (reachedCheck ag n va) := by
  unfold reachedCheck
  refine Holds.get fun _ _ => ?_
  dsimp only
  split
  · exact Holds.throw _
  · exact Holds.pure _

theorem itemCheck_memoryOk {ag : Agent} {own : Nat} {st : BitVec 4} {t : Stream} {k : Acc} {n : Nat} {it : Item} :
    Holds State.memoryOk (itemCheck ag own st t k n it) := by
  unfold itemCheck
  refine Holds.withTrap ?_
  split
  · exact Holds.ite (fun _ => Holds.fault _) fun _ => Holds.pure _
  · exact Holds.bind windowCheck_memoryOk fun _ => Holds.whenThen (Holds.faultAt _ _) fun _ =>
      Holds.bind pages_memoryOk fun _ => Holds.bind (Holds.eachM fun _ => spadCheck_memoryOk) fun _ =>
      Holds.whenThen reachedCheck_memoryOk fun _ => Holds.bind homeCheck_memoryOk fun _ =>
      Holds.whenThen (Holds.eachM fun _ => shadowCheck_memoryOk) fun _ =>
      Holds.bind (Holds.eachM fun _ => tagCheck_memoryOk) fun _ => Holds.bind watchCheck_memoryOk fun _ =>
      Holds.bind holdPages_memoryOk fun _ => Holds.pure _

theorem awaitAcks_memoryOk {ag : Agent} {st : BitVec 4} {t : Stream} {k : Acc} {ws : List (Item × List Seg)} :
    Holds State.memoryOk (awaitAcks ag st t k ws) :=
  Holds.get fun _ _ => Holds.ite (fun _ => naming_memoryOk awaitReply_memoryOk) fun _ =>
    Holds.ite (fun _ => Holds.bind (Holds.modCx fun _ h => h) fun _ => naming_memoryOk awaitReply_memoryOk) fun _ =>
    Holds.bind (Holds.modify fun _ hu => beginFlight_memoryOk hu) fun _ => Holds.bind modSeq_memoryOk fun _ =>
    naming_memoryOk awaitReply_memoryOk

theorem itemsCheck_memoryOk {ag : Agent} {own : Nat} {st : BitVec 4} {t : Stream} {b : Binding} {k : Acc}
    {items : List Item} : Holds State.memoryOk (itemsCheck ag own st t b k items) := by
  unfold itemsCheck
  split
  · exact Holds.bind (Holds.eachM fun _ => landItem_memoryOk) fun _ => Holds.pure _
  · exact Holds.get fun _ _ => Holds.whenThen bufCheck_memoryOk fun _ =>
      Holds.bind (Holds.eachM fun _ => itemRange_memoryOk) fun _ =>
      Holds.bind (Holds.collectM fun _ => Holds.bind itemCheck_memoryOk fun _ => Holds.pure _) fun _ =>
      Holds.bind awaitAcks_memoryOk fun _ => Holds.pure _

theorem enterPart_memoryOk {ag : Agent} {own : Nat} {g : Seg} : Holds State.memoryOk (enterPart ag own g) :=
  Holds.ite (fun _ => spadFill_memoryOk) fun _ => spadTouch_memoryOk

theorem itemWrite_memoryOk {ag : Agent} {own : Nat} {t : Stream} {b : Binding} {k : Acc} {p : Item × List Seg} :
    Holds State.memoryOk (itemWrite ag own t b k p) := by
  unfold itemWrite
  dsimp only
  split
  · exact Holds.get fun _ _ => Holds.bind bufAccess_memoryOk fun _ => Holds.bind (Holds.modCx fun _ h => h) fun _ =>
      bufFill_memoryOk
  · exact Holds.bind (Holds.eachM fun _ => enterPart_memoryOk) fun _ => writeSegsBits_memoryOk

theorem completeBuffer_memoryOk {ag : Agent} {own : Nat} {c : CtxId} {i : BitVec 6} :
    Holds State.memoryOk (completeBuffer ag own c i) :=
  Holds.get fun _ _ => Holds.ite (fun _ => Holds.pure _) fun _ => Holds.bind bufCheck_memoryOk fun _ =>
    Holds.modify fun _ hu => State.updCtx_memoryOk hu

theorem lastWrite_memoryOk {ag : Agent} {own : Nat} {l : Bool} {b : Binding} {items : List (Item × List Seg)} :
    Holds State.memoryOk (lastWrite ag own l b items) := by
  unfold lastWrite
  refine Holds.get fun _ _ => Holds.ite (fun _ => Holds.pure _) fun _ =>
    Holds.ite (fun _ => bufAccess_memoryOk) fun _ => ?_
  split
  · exact Holds.pure _
  · split
    · exact Holds.pure _
    · refine Holds.ite (fun _ => Holds.pure _) fun _ => ?_
      split
      · exact Holds.pure _
      · split
        · exact Holds.pure _
        · exact completeBuffer_memoryOk

theorem closeBuffers_memoryOk {ag : Agent} {ws : List (Item × List Seg)} :
    Holds State.memoryOk (closeBuffers ag ws) := by
  unfold closeBuffers
  refine Holds.ite (fun _ => Holds.pure _) fun _ => Holds.eachM fun _ => Holds.modify fun _ hs => ?_
  split
  · exact hs
  · exact foldl_keeps State.memoryOk _ (fun s _ hs => State.updCtx_memoryOk hs) _ hs

theorem performItems_memoryOk {ag : Agent} {own : Nat} {t : Stream} {b : Binding} {k : Acc} {l : Bool}
    {ws codes : List (Item × List Seg)} : Holds State.memoryOk (performItems ag own t b k l ws codes) :=
  Holds.bind (Holds.eachM fun _ => itemWrite_memoryOk) fun _ => Holds.bind lastWrite_memoryOk fun _ =>
    closeBuffers_memoryOk

theorem takeSq_memoryOk {n st : BitVec 4} {pos : Nat} : Holds State.memoryOk (takeSq n st pos) :=
  Holds.bind (Holds.modCx fun _ h => h) fun _ => setPos_memoryOk

theorem quantiseBlocks_memoryOk {taben : Bool} {lvt : BitVec 128} {m i : Nat} {lanes : List Nat} :
    Holds State.memoryOk (quantiseBlocks taben lvt m i lanes) := by
  induction m generalizing i lanes with
  | zero => exact Holds.pure _
  | succ m ih =>
    unfold quantiseBlocks
    split
    · exact Holds.throw _
    · exact Holds.bind ih fun _ => Holds.pure _

theorem shadowPage_memoryOk {va : DWord} : Holds State.memoryOk (shadowPage va) := by
  unfold shadowPage
  refine Holds.get fun _ _ => ?_
  split
  · exact Holds.pure _
  · exact Holds.faultAt _ _

theorem shadowRange_memoryOk {va : DWord} {n : Nat} : Holds State.memoryOk (shadowRange va n) := by
  unfold shadowRange
  refine Holds.get fun _ _ => Holds.ite (fun _ => Holds.faultAt _ _) fun _ =>
    Holds.bind (Holds.collectM fun _ => shadowPage_memoryOk) fun _ => ?_
  split
  · exact Holds.faultAt _ _
  · exact Holds.pure _

theorem ldzRest_memoryOk {b : BitVec 6} {st n : BitVec 4} {fuel : Nat} {s : State} (hs : s.memoryOk) :
    (ldzRest b st n fuel s).memoryOk := by
  induction fuel generalizing s with
  | zero => exact hs
  | succ fuel ih =>
    unfold ldzRest
    refine memoryOk_ite (fun _ => hs) fun _ => ?_
    split
    · exact ih (ldzDeliver_memoryOk.ok hs ‹_›)
    · exact hs

theorem finishLdz_memoryOk {c : CtxId} {s : State} (hs : s.memoryOk) : (finishLdz c s).memoryOk := by
  unfold finishLdz
  refine memoryOk_ite (fun _ => hs) fun _ => ?_
  split
  · exact hs
  · exact State.focus_memoryOk (ldzRest_memoryOk (State.focus_memoryOk hs))

theorem State.finishChunks_memoryOk {s : State} (hs : s.memoryOk) : s.finishChunks.memoryOk :=
  foldl_keeps State.memoryOk _ (fun _ _ hu => finishLdz_memoryOk hu) _ hs

theorem atomItem_memoryOk {ag : Agent} {b : Binding} {op v : Nat} {p : Item × List Seg} :
    Holds State.memoryOk (atomItem ag b op v p) := by
  unfold atomItem
  refine Holds.get fun _ _ => ?_
  split
  · exact Holds.bind bufAccess_memoryOk fun _ => Holds.bind (Holds.modCx fun _ h => h) fun _ => bufFill_memoryOk
  · refine Holds.ite (fun _ => Holds.bind enterPart_memoryOk fun _ => Holds.bind markD_memoryOk fun _ =>
        Holds.bind (Holds.modify fun _ hs => inOrderOf_memoryOk hs) fun _ => ?_) fun _ =>
      Holds.bind amoAt_memoryOk fun _ => Holds.pure _
    split
    · exact Holds.pure _
    · exact Holds.modify fun _ hs => State.updCtx_memoryOk hs
  · exact Holds.pure _

theorem scalarTransfer_memoryOk {op : M Unit} (hop : Holds State.memoryOk op) :
    Holds State.memoryOk (scalarTransfer op) := by
  refine Holds.shell hop (fun s a t _ ht e => ?_) fun s x t hs ht e => ?_
  · simpa only [endOf, scalarTransfer, e] using ht
  · cases x with
    | wait a => simpa only [endOf, scalarTransfer, e] using sending_memoryOk ht
    | trap a => simpa only [endOf, scalarTransfer, e] using ht

end Sys2Proof.Machine
end

section

/-! PROOFS. Compute, windows and plans keep memory canonical. -/

namespace Sys2Proof.Machine

theorem runCv_memoryOk {h : Tl} {g : BitVec 6} {words : Nat} {op : M Unit} {s : State}
    (hop : Holds State.memoryOk op) (hs : s.memoryOk) : Canonical (runCv h g words op s) :=
  Canonical.next (runC_memoryOk hop hs)

theorem opsCx_memoryOk : Holds State.memoryOk opsCx :=
  Holds.get fun _ _ => Holds.pure _

theorem headOf_memoryOk {q : List Image} {i : Nat} {keep : Bool} {a : Await} :
    Holds State.memoryOk (headOf q i keep a) := by
  unfold headOf
  split
  · exact Holds.waitFor _
  · exact Holds.ite (fun _ => Holds.pure _) fun _ => Holds.bind modBun_memoryOk fun _ => Holds.pure _

theorem src_memoryOk {c : BitVec 5} : Holds State.memoryOk (src c) :=
  Holds.bind opsCx_memoryOk fun _ => Holds.ite (fun _ => Holds.pure _) fun _ =>
    Holds.ite (fun _ => headOf_memoryOk) fun _ => headOf_memoryOk

theorem setV_memoryOk {d : BitVec 4} {g : BitVec 6} {new : Image} : Holds State.memoryOk (setV d g new) :=
  Holds.bind opsCx_memoryOk fun _ => Holds.modCx fun _ h => h

theorem vector2_memoryOk {d : BitVec 4} {a b : BitVec 5} {g : BitVec 6} {f : Nat → Nat → Nat → Nat} :
    Holds State.memoryOk (vector2 d a b g f) :=
  Holds.bind opsCx_memoryOk fun _ => Holds.bind src_memoryOk fun _ => Holds.bind src_memoryOk fun _ => setV_memoryOk

theorem vector1_memoryOk {d : BitVec 4} {a : BitVec 5} {g : BitVec 6} {f : Nat → Nat} :
    Holds State.memoryOk (vector1 d a g f) :=
  Holds.bind src_memoryOk fun _ => setV_memoryOk

theorem runCa_memoryOk {h : Tl} {op : M Unit} {s : State} (hop : Holds State.memoryOk op) (hs : s.memoryOk) :
    Canonical (runCa h op s) :=
  Canonical.next (runC_memoryOk hop hs)

theorem axisMove_memoryOk {d : BitVec 4} {a : BitVec 5} {n : BitVec 4} {g : BitVec 6}
    {from0 : Nat → Nat → Nat → Nat × Nat} : Holds State.memoryOk (axisMove d a n g from0) :=
  Holds.bind opsCx_memoryOk fun _ => Holds.bind src_memoryOk fun _ => setV_memoryOk

theorem axisReduce_memoryOk {d : BitVec 4} {a o : BitVec 5} {g : BitVec 6} {y : BitVec 2} {rowAxis : Bool}
    {f : List Nat → List Nat} : Holds State.memoryOk (axisReduce d a o g y rowAxis f) :=
  Holds.bind opsCx_memoryOk fun _ => Holds.bind src_memoryOk fun _ => Holds.modCx fun _ h => h

theorem special_memoryOk {d : BitVec 4} {a : BitVec 5} {g : BitVec 6} {y : BitVec 2} {f : Fmt → Nat → Nat} :
    Holds State.memoryOk (special d a g y f) :=
  Holds.bind opsCx_memoryOk fun _ => Holds.bind src_memoryOk fun _ => Holds.modCx fun _ h => h

theorem pred2_memoryOk {d a b : BitVec 6} {f : BitVec 1024 → BitVec 1024 → BitVec 1024} :
    Holds State.memoryOk (pred2 d a b f) :=
  Holds.bind opsCx_memoryOk fun _ => Holds.modCx fun _ h => h

theorem runCw_memoryOk {h : Hd} {words : Nat} {op : M Unit} {s : State} (hop : Holds State.memoryOk op)
    (hs : s.memoryOk) : Canonical (runCw h words op s) :=
  runCq_memoryOk (Holds.bind raiseBank_memoryOk fun _ => hop) hs

theorem runBank_memoryOk {h : Hd} {words : Nat} {op : M Unit} {s : State} (hop : Holds State.memoryOk op)
    (hs : s.memoryOk) : Canonical (runBank h words op s) :=
  runCw_memoryOk (Holds.get fun _ _ => Holds.ite (fun _ => Holds.fault _) fun _ => hop) hs

theorem epiStreams_memoryOk {d : DWord} : Holds State.memoryOk (epiStreams d) := by
  unfold epiStreams
  refine Holds.get fun _ _ => Holds.ite (fun _ => ?_) fun _ => Holds.ite (fun _ => ?_) fun _ => Holds.pure _
  · split
    · refine Holds.bind (Holds.fault _) fun _ => Holds.ite (fun _ => ?_) fun _ => Holds.pure _
      split
      · exact Holds.fault _
      · exact Holds.bind (Holds.require _ _) fun _ => Holds.require _ _
    · refine Holds.bind (Holds.require _ _) fun _ => Holds.bind (Holds.require _ _) fun _ =>
        Holds.ite (fun _ => ?_) fun _ => Holds.pure _
      split
      · exact Holds.fault _
      · exact Holds.bind (Holds.require _ _) fun _ => Holds.require _ _
  · split
    · exact Holds.fault _
    · exact Holds.bind (Holds.require _ _) fun _ => Holds.require _ _

theorem accWait_memoryOk {a : BitVec 4} : Holds State.memoryOk (accWait a) :=
  Holds.get fun _ _ => Holds.waitUnless _ _

theorem runBcast_memoryOk {h : Hd} {words : Nat} {op : M Unit} {s : State} (hop : Holds State.memoryOk op)
    (hs : s.memoryOk) : Canonical (runBcast h words op s) :=
  runCq_memoryOk (Holds.get fun _ _ => Holds.ite (fun _ => hop) fun _ => Holds.fault _) hs

theorem beginPlan_memoryOk {snap : Ctx} {s : State} (hs : s.memoryOk) : (beginPlan snap s).memoryOk :=
  hs

theorem State.parkPlan_memoryOk {s : State} (hs : s.memoryOk) : s.parkPlan.memoryOk := by
  unfold State.parkPlan
  split
  · exact memoryOk_ite (fun _ => hs) fun _ => memoryOk_ite (fun _ => hs) fun _ => hs
  · exact hs

theorem answer_memoryOk {c : CtxId} {parks : Bool} {s : State} (hs : s.memoryOk) : (answer c parks s).memoryOk :=
  State.updCtx_memoryOk hs

theorem runTile_memoryOk {c : CtxId} {i : Nat} {e : EpiTile} {op : M Unit} {s : State}
    (hop : Holds State.memoryOk op) (hs : s.memoryOk) :
    (runTile c i e op s).memoryOk := by
  have hf : (s.focus c).memoryOk := State.focus_memoryOk hs
  unfold runTile
  dsimp only
  split
  · exact State.focus_memoryOk (hop.ok hf ‹_›)
  · have h := hop.error hf ‹_›
    exact memoryOk_ite (fun _ => State.focus_memoryOk h) fun _ => State.focus_memoryOk h
  · have h := hop.error hf ‹_›
    exact State.focus_memoryOk h

theorem readBias_memoryOk {e : EpiTile} {st : BitVec 4} : Holds State.memoryOk (readBias e st) := by
  unfold readBias
  refine Holds.bind boundFor_memoryOk fun _ => ?_
  split
  · exact Holds.bind (Holds.withTrap (Holds.bind notExhausted_memoryOk fun _ => rowFour_memoryOk)) fun _ =>
      Holds.get fun _ _ => Holds.bind readElems_memoryOk fun _ => Holds.bind setPos_memoryOk fun _ => Holds.pure _

theorem writeTile_memoryOk {e : EpiTile} : Holds State.memoryOk (writeTile e) := by
  unfold writeTile
  refine Holds.bind boundFor_memoryOk fun _ => ?_
  split
  · refine Holds.bind (Holds.require _ _) fun _ => Holds.bind
        (Holds.withTrap (Holds.bind notExhausted_memoryOk fun _ => Holds.require _ _)) fun _ => Holds.get fun _ _ =>
      Holds.ite (fun _ => ?_) fun _ => Holds.bind itemsCheck_memoryOk fun _ =>
      Holds.bind performItems_memoryOk fun _ => Holds.bind setPos_memoryOk fun _ => Holds.modCx fun _ h => h
    split
    · exact Holds.throw _
    · exact Holds.bind itemsCheck_memoryOk fun _ => Holds.bind performItems_memoryOk fun _ =>
        Holds.bind setPos_memoryOk fun _ => Holds.modCx fun _ h => h

theorem State.updLight_memoryOk {s : State} {b : Nat} {f : Bcast → Bcast} (hs : s.memoryOk) :
    (s.updLight b f).memoryOk :=
  hs

theorem State.publishTo_memoryOk {p : Plan} {s : State} {c : Nat} (hs : s.memoryOk) :
    (State.publishTo p s c).memoryOk :=
  State.updCtx_memoryOk hs

theorem State.publishWave_memoryOk {s : State} {p : Plan} (hs : s.memoryOk) : (s.publishWave p).memoryOk :=
  memoryOk_ite (fun _ => foldl_keeps State.memoryOk _ (fun _ _ hu => State.publishTo_memoryOk hu) _ hs) fun _ =>
    memoryOk_ite (fun _ => foldl_keeps State.memoryOk _ (fun _ _ hu => State.publishTo_memoryOk hu) _ hs) fun _ =>
    State.updCtx_memoryOk (foldl_keeps State.memoryOk _ (fun _ _ hu => State.publishTo_memoryOk hu) _ hs)

theorem State.closeWave_memoryOk {s : State} {p : Plan} (hs : s.memoryOk) : (s.closeWave p).memoryOk :=
  foldl_keeps State.memoryOk _ (fun _ _ hu => State.updCtx_memoryOk hu) _ hs

theorem fetchLine_memoryOk {va : DWord} : Holds State.memoryOk (fetchLine va) := by
  unfold fetchLine
  refine Holds.get fun _ _ => ?_
  split
  · exact Holds.pure _
  · split
    · exact Holds.throw _
    · exact Holds.ite (fun _ => Holds.throw _) fun _ => Holds.ite (fun _ => Holds.throw _) fun _ =>
        Holds.ite (fun _ => Holds.throw _) fun _ => Holds.bind markA_memoryOk fun _ =>
        Holds.bind fetchSeg_memoryOk fun _ => Holds.pure _

theorem State.recallHalt_memoryOk {q : SeqId} {s : State} (hs : s.memoryOk) : (State.recallHalt q s).memoryOk := by
  unfold State.recallHalt
  refine memoryOk_ite (fun _ => hs) fun _ => ?_
  split
  · have h := fetchLine_memoryOk.ok (s := { s with cur := q }) hs ‹_›
    exact h
  · exact hs

end Sys2Proof.Machine
end

section

/-! PROOFS. The copy engine and remote requests keep memory canonical. -/

namespace Sys2Proof.Machine

theorem raiseBankAt_memoryOk {c : CtxId} {s : State} (hs : s.memoryOk) : (raiseBankAt c s).memoryOk := by
  unfold raiseBankAt
  dsimp only
  split
  · exact hs
  · exact State.focus_memoryOk (State.takeFault_memoryOk (State.recallHalt_memoryOk (State.focus_memoryOk hs)))

theorem abortMember_memoryOk {p : Plan} {step : Nat} {s : State} {c : Nat} (hs : s.memoryOk) :
    (abortMember p step s c).memoryOk := by
  unfold abortMember
  dsimp only
  split
  · exact hs
  · exact memoryOk_ite (fun _ => hs) fun _ => memoryOk_ite (fun _ => State.updCtx_memoryOk hs) fun _ =>
      memoryOk_ite (fun _ => raiseBankAt_memoryOk (State.updCtx_memoryOk hs)) fun _ =>
      State.updCtx_memoryOk (State.updCtx_memoryOk hs)

theorem runCopy_memoryOk {c : CtxId} {k : CopyCmd} {op : M Unit} {s : State} (hop : Holds State.memoryOk op)
    (hs : s.memoryOk) :
    (runCopy c k op s).memoryOk := by
  have hf : (s.focus c).memoryOk := State.focus_memoryOk hs
  unfold runCopy
  split
  · exact State.focus_memoryOk (hop.ok hf ‹_›)
  · exact hs
  · have h := hop.error hf ‹_›
    exact State.focus_memoryOk h

theorem modCopy_memoryOk {f : CopyState → CopyState} : Holds State.memoryOk (modCopy f) :=
  Holds.modCx fun _ h => h

theorem frameFree_memoryOk {k : CopyCmd} : Holds State.memoryOk (frameFree k) :=
  Holds.get fun _ _ => Holds.ite (fun _ => Holds.fault _) fun _ => Holds.pure _

theorem eachPiece_memoryOk {ps : List (Seg × Nat)} {f : Seg → M Unit}
    (hf : ∀ (a : Seg), Holds State.memoryOk (f a)) : Holds State.memoryOk (eachPiece ps f) :=
  Holds.eachM fun _ => Holds.withTrap (hf _)

theorem copyChecks_memoryOk {k : CopyCmd} : Holds State.memoryOk (copyChecks k) :=
  Holds.get fun _ _ => Holds.bind (Holds.withTrap (Holds.whenThen bufCheck_memoryOk fun _ =>
        Holds.ite (fun _ => bufCheck_memoryOk) fun _ => Holds.pure _)) fun _ =>
    Holds.bind frameFree_memoryOk fun _ => Holds.iteThen (Holds.pure _) copySegs_memoryOk fun _ =>
    Holds.iteThen (Holds.pure _) copySegs_memoryOk fun _ =>
    Holds.bind (eachPiece_memoryOk (fun _ => Holds.ite (fun _ => Holds.faultAt _ _) fun _ => Holds.pure _)) fun _ =>
    Holds.bind (eachPiece_memoryOk (fun _ => Holds.ite (fun _ => Holds.faultAt _ _) fun _ => Holds.pure _)) fun _ =>
    Holds.bind (eachPiece_memoryOk (fun _ => Holds.ite (fun _ => Holds.faultAt _ _) fun _ => Holds.pure _)) fun _ =>
    Holds.eachM fun _ => Holds.withTrap tagCheck_memoryOk

theorem copyOpens_memoryOk {k : CopyCmd} : Holds State.memoryOk (copyOpens k) :=
  Holds.withTrap (Holds.get fun _ _ => Holds.whenThen bufAccess_memoryOk fun _ =>
      Holds.ite (fun _ => bufAccess_memoryOk) fun _ => Holds.pure _)

theorem chainEnd_memoryOk {k : CopyCmd} : Holds State.memoryOk (chainEnd k) :=
  Holds.get fun _ _ => Holds.ite (fun _ => Holds.pure _) fun _ => Holds.ite (fun _ => Holds.throw _) fun _ =>
    Holds.bind release_memoryOk fun _ => Holds.bind (Holds.modify fun _ hu =>
      State.finishChunks_memoryOk hu) fun _ => Holds.get fun _ _ => Holds.eachM fun _ => Holds.modify fun _ hv =>
    publishPage_memoryOk hv

theorem copyDone_memoryOk {k : CopyCmd} : Holds State.memoryOk (copyDone k) :=
  Holds.withTrap (Holds.get fun _ _ => Holds.ite (fun _ => Holds.whenThen bufAccess_memoryOk fun _ =>
        Holds.ite (fun _ => bufAccess_memoryOk) fun _ => Holds.pure _) fun _ => Holds.pure _)

theorem copyEmpty_memoryOk {k : CopyCmd} : Holds State.memoryOk (copyEmpty k) :=
  Holds.get fun _ _ => Holds.ite (fun _ => bufFill_memoryOk) fun _ => Holds.pure _

theorem copyWrite_memoryOk {k : CopyCmd} {data : List Byte} : Holds State.memoryOk (copyWrite k data) :=
  Holds.get fun _ _ => Holds.bind frameFree_memoryOk fun _ =>
    Holds.ite (fun _ => Holds.bind (Holds.modCx fun _ h => h) fun _ => bufFill_memoryOk) fun _ =>
    Holds.bind copySegs_memoryOk fun _ => Holds.eachM fun _ =>
    Holds.withTrap (Holds.whenThen (Holds.faultAt _ _) fun _ => Holds.bind writeSeg_memoryOk fun _ =>
      Holds.bind (Holds.modify fun _ hu => noteHits_memoryOk hu) fun _ =>
      Holds.ite (fun _ => modCopy_memoryOk) fun _ => Holds.pure _)

theorem copyRead_memoryOk {k : CopyCmd} {n : Nat} : Holds State.memoryOk (copyRead k n) :=
  Holds.get fun _ _ => Holds.ite (fun _ => Holds.pure _) fun _ => Holds.bind copySegs_memoryOk fun _ =>
    Holds.bind (Holds.collectM fun _ => Holds.bind (Holds.modify fun _ hu => noteHits_memoryOk hu) fun _ =>
      readSeg_memoryOk) fun _ => Holds.pure _

theorem performRemote_memoryOk {launch die : Nat} {r : Remote} {s : State} (hs : s.memoryOk) :
    (performRemote launch die r s).2.memoryOk := by
  have hd : ∀ p, (dropLines p s).memoryOk := fun _ => dropLines_memoryOk hs
  unfold performRemote
  dsimp only
  split
  · exact memoryOk_ite (fun _ => foldl_keeps State.memoryOk _ (fun _ _ h => fillLine_memoryOk h) _ (hd _)) fun _ =>
      hd _
  · exact foldl_keeps (fun p : State × List Byte => p.1.memoryOk) _ (fun p r h =>
        (markDirty_memoryOk (setD_memoryOk h)).writeN) _ (hd _)
  · split
    · exact hd _
    · split
      · exact hd _
      · exact (setD_memoryOk (hd _)).writeN

theorem performOwn_memoryOk {c : CtxId} {s : State} (hs : s.memoryOk) : (performOwn c s).memoryOk := by
  unfold performOwn
  split
  · exact hs
  · split
    · exact hs
    · refine memoryOk_ite (fun _ => hs) fun _ => ?_
      split
      · exact State.updCtx_memoryOk hs
      · exact State.updCtx_memoryOk (performRemote_memoryOk hs)

theorem reachedDeclared_memoryOk {ag : Agent} : Holds State.memoryOk (reachedDeclared ag) :=
  Holds.get fun _ _ => Holds.require _ _

theorem acceptParts_memoryOk {ag : Agent} {bound : Option (BitVec 6)} {parts : List (List Seg)} :
    Holds State.memoryOk (acceptParts ag bound parts) := by
  unfold acceptParts
  refine Holds.bind reachedDeclared_memoryOk fun _ => Holds.bind (Holds.eachM fun _ => spadCheck_memoryOk) fun _ =>
    Holds.bind ?_ fun _ => Holds.eachM fun _ => spadEnter_memoryOk
  split
  · exact bufAccess_memoryOk
  · exact Holds.pure _

theorem acceptTile_memoryOk {c : CtxId} {s : State} (hs : s.memoryOk) : (acceptTile c s).memoryOk := by
  unfold acceptTile
  split
  · exact hs
  · split
    · exact State.updCtx_memoryOk (Holds.ok acceptParts_memoryOk hs ‹_›)
    · exact hs

theorem acceptStore_memoryOk {c : CtxId} {s : State} (hs : s.memoryOk) : (acceptStore c s).memoryOk := by
  unfold acceptStore
  split
  · exact hs
  · split
    · exact hs
    · split
      · exact State.updCtx_memoryOk (Holds.ok acceptParts_memoryOk hs ‹_›)
      · exact hs

end Sys2Proof.Machine
end

section

/-! PROOFS. Errors, dispatch and the host keep memory canonical. -/

namespace Sys2Proof.Machine

theorem State.replaceCore_memoryOk {s : State} {core : Nat × Nat} {spare : Bool} (hs : s.memoryOk) :
    (s.replaceCore core spare).memoryOk := by
  unfold State.replaceCore
  refine memoryOk_ite (fun _ => hs) fun _ => ?_
  split <;> exact hs

theorem State.withdrawDie_memoryOk {s : State} {d : Nat} (hs : s.memoryOk) : (s.withdrawDie d).memoryOk :=
  memoryOk_ite (fun _ => hs) fun _ => foldl_keeps State.memoryOk _ (fun _ _ hu => State.replaceCore_memoryOk hu) _ hs

theorem fatalDisables_memoryOk {f : Fatal} {s : State} (hs : s.memoryOk) : (fatalDisables f s).memoryOk := by
  unfold fatalDisables
  split
  · exact hs
  · exact State.withdrawDie_memoryOk hs
  · exact memoryOk_ite (fun _ => hs) fun _ => State.replaceCore_memoryOk hs
  · exact State.replaceCore_memoryOk hs
  · exact hs
  · exact hs

theorem State.loseLaunches_memoryOk {s : State} {ls : List Nat} {cause : Nat} (hs : s.memoryOk) :
    (s.loseLaunches ls cause).memoryOk :=
  foldl_keeps State.memoryOk _ (fun _ _ hu => State.endLaunch_memoryOk hu) _ hs

theorem writeFrameArea_memoryOk {l : Launch} {n : Node} {f : Frame} : Holds State.memoryOk (writeFrameArea l n f) :=
  Holds.bind readMem_memoryOk fun _ => Holds.ite (fun _ => Holds.fault _) fun _ => writeMem_memoryOk

theorem State.freshCtx_memoryOk {s : State} {c : CtxId} (hs : s.memoryOk) : (s.freshCtx c).memoryOk :=
  State.updCtx_memoryOk hs

theorem State.restoreInto_memoryOk {s : State} {c : CtxId} {bank : Nat × Nat × Nat} (hs : s.memoryOk) :
    (s.restoreInto c bank).memoryOk :=
  State.updCtx_memoryOk (freshLines_memoryOk hs)

theorem spillCtx_memoryOk {v : CtxId} {s : State} (hs : s.memoryOk) : (spillCtx v s).memoryOk := by
  unfold spillCtx
  split
  · exact hs
  · exact State.updCtx_memoryOk (cleanLines_memoryOk hs)

theorem State.activate_memoryOk {s : State} {core : Nat × Nat} {b : Nat} (hs : s.memoryOk) :
    (s.activate core b).memoryOk :=
  hs

theorem State.makeRoom_memoryOk {s : State} {bank : Nat × Nat × Nat} {spills : Option CtxId} (hs : s.memoryOk) :
    (s.makeRoom bank spills).memoryOk := by
  unfold State.makeRoom
  refine memoryOk_ite (fun _ => State.activate_memoryOk ?_) fun _ => ?_
  · split
    · exact spillCtx_memoryOk hs
    · exact hs
  · split
    · exact spillCtx_memoryOk hs
    · exact hs

theorem State.dispatched_memoryOk {s : State} {d : Dispatch} (hs : s.memoryOk) : (s.dispatched d).memoryOk :=
  State.updLaunch_memoryOk (State.makeRoom_memoryOk hs)

theorem State.takeCtx_memoryOk {s : State} {c : CtxId} (hs : s.memoryOk) : (s.takeCtx c).2.memoryOk := by
  unfold State.takeCtx
  split <;> exact hs

theorem State.startAt_memoryOk {s : State} {d : Dispatch} {l : Launch} {n : Node} (hs : s.memoryOk) :
    (s.startAt d l n).memoryOk :=
  State.focus_memoryOk (State.updCtx_memoryOk (State.takeCtx_memoryOk hs))

theorem State.dispatch_memoryOk {s : State} {d : Dispatch} {l : Launch} {n : Node} (hs : s.memoryOk) :
    (s.dispatch d l n).memoryOk :=
  memoryOk_ite (fun _ => State.restoreInto_memoryOk (State.dispatched_memoryOk hs)) fun _ =>
    freshLines_memoryOk (loadNode_memoryOk (State.startAt_memoryOk (State.dispatched_memoryOk hs)))

theorem dispatchHandler_memoryOk {l : Launch} {s : State} (hs : s.memoryOk) : (dispatchHandler l s).memoryOk := by
  unfold dispatchHandler
  split
  · split
    · exact State.endLaunch_memoryOk (Holds.error writeFrameArea_memoryOk hs ‹_›)
    · dsimp only
      split
      · exact hs
      · exact State.dispatch_memoryOk (State.updLaunch_memoryOk (State.freshCtx_memoryOk
                (Holds.ok writeFrameArea_memoryOk hs ‹_›)))
  · exact hs

theorem completeNode_memoryOk {c : Ctx} {l : Launch} {n : Node} {s : State} (hs : s.memoryOk) :
    (completeNode c l n s).memoryOk :=
  State.settle_memoryOk (State.updLaunch_memoryOk (State.updCtx_memoryOk (cleanLines_memoryOk hs)))

theorem crecLate_memoryOk {l : Launch} {s : State} (hs : s.memoryOk) : (crecLate l s).memoryOk :=
  crecWrite_memoryOk hs

theorem State.swap_memoryOk {s : State} {core : Nat × Nat} (hs : s.memoryOk) : (s.swap core).memoryOk :=
  State.activate_memoryOk hs

theorem clearPage_memoryOk {p : PageAt} {s : State} (hs : s.memoryOk) : (clearPage p s).memoryOk :=
  memoryOk_ite (fun _ => hs) fun _ => dropLines_memoryOk hs

theorem copyPages_memoryOk {src dst n : Nat} {s : State} (hs : s.memoryOk) : (copyPages src dst n s).memoryOk :=
  foldl_keeps State.memoryOk _ (fun _ _ hu => copyPage_memoryOk hu) _ hs

theorem markMoved_memoryOk {asid a n : Nat} {s : State} (hs : s.memoryOk) : (markMoved asid a n s).memoryOk :=
  foldl_keeps State.memoryOk _ (fun _ _ hu => foldl_keeps State.memoryOk _ (fun _ _ hv =>
        markDirty_memoryOk hv) _ hu) _ hs

theorem revokePage_memoryOk {asid : Nat} {p : PageAt} {why : Revocation} {s : State} (hs : s.memoryOk) :
    (revokePage asid p why s).memoryOk :=
  hs

theorem urgentAbort_memoryOk {x : Ctx} {s : State} (hs : s.memoryOk) : (urgentAbort x s).memoryOk :=
  memoryOk_ite (fun _ => hs) fun _ => State.focus_memoryOk (State.takeFault_memoryOk (State.focus_memoryOk hs))

theorem urgentOutside_memoryOk {x : Ctx} {s : State} (hs : s.memoryOk) : ∀ t ∈ urgentOutside x s, t.memoryOk := by
  unfold urgentOutside
  intro t ht
  split at ht
  · cases ht; exact hs
  · split at ht
    · cases ht; exact State.swap_memoryOk hs
    · split at ht
      · cases ht; exact spillCtx_memoryOk hs
      · cases ht

theorem urgentWith_memoryOk {inside : Bool} {c : CtxId} {s : State} (hs : s.memoryOk) :
    (urgentWith inside c s).memoryOk := by
  unfold urgentWith
  dsimp only
  split
  · exact hs
  · rename_i x _
    refine memoryOk_ite (fun _ => memoryOk_ite (fun _ => urgentAbort_memoryOk hs) fun _ => hs) fun _ => ?_
    cases h : urgentOutside x { s with urgent := s.urgent.filter (· != c) } with
    | none => exact hs
    | some t => exact urgentOutside_memoryOk (s := { s with urgent := s.urgent.filter (· != c) }) hs t h

theorem urgentOn_memoryOk {c : CtxId} {s : State} (hs : s.memoryOk) : (urgentOn c s).memoryOk :=
  urgentWith_memoryOk hs

theorem pairBoundary_memoryOk {s : State} {p : Nat} (hs : s.memoryOk) : (pairBoundary s p).memoryOk := by
  unfold pairBoundary
  split
  · exact hs

theorem State.updMbox_memoryOk {s : State} {i : Nat} {f : MboxSlot → MboxSlot} (hs : s.memoryOk) :
    (s.updMbox i f).memoryOk :=
  hs

theorem answerSlot_memoryOk {i : Nat} {results : List (Nat × DWord)} {cause state : Nat} {s : State}
    (hs : s.memoryOk) : (answerSlot i results cause state s).memoryOk :=
  State.updMbox_memoryOk hs

theorem command_memoryOk {i : Nat} {op : M (List (Nat × DWord))} {s : State} (hop : Holds State.memoryOk op)
    (hs : s.memoryOk) : (command i op s).memoryOk := by
  unfold command
  split
  · exact answerSlot_memoryOk (Holds.ok hop hs ‹_›)
  · exact answerSlot_memoryOk (Holds.error hop hs ‹_›)
  · exact State.updMbox_memoryOk (Holds.error hop hs ‹_›)

theorem State.afterReset_memoryOk {s : State} (hs : s.memoryOk) : s.afterReset.memoryOk :=
  hs

end Sys2Proof.Machine
end

section

/-! PROOFS. Turns and the passing of cycles keep memory canonical. -/

namespace Sys2Proof.Machine

theorem enterLine_memoryOk {va : DWord} : Holds State.memoryOk (enterLine va) :=
  Holds.bind fetchLine_memoryOk fun _ => Holds.get fun _ _ => Holds.ite (fun _ => Holds.throw _) fun _ =>
    Holds.ite (fun _ => Holds.throw _) fun _ => Holds.bind modSeq_memoryOk fun _ => Holds.pure _

theorem takeTransfer_memoryOk {p : Pend} : Holds State.memoryOk (takeTransfer p) :=
  Holds.get fun _ _ => Holds.ite (fun _ => Holds.throw _) fun _ => Holds.bind modSeq_memoryOk fun _ =>
    Holds.bind enterLine_memoryOk fun _ => Holds.ite (fun _ => modSeq_memoryOk) fun _ =>
    Holds.bind modSeq_memoryOk fun _ => Holds.throw _

theorem nextLine_memoryOk : Holds State.memoryOk nextLine := by
  unfold nextLine
  refine Holds.get fun _ _ => ?_
  split
  · refine Holds.whenThen takeTransfer_memoryOk fun _ => Holds.get fun _ _ =>
      Holds.ite (fun _ => Holds.throw _) fun _ => ?_
    split
    · exact Holds.pure _
    · exact Holds.bind enterLine_memoryOk fun _ => Holds.bind modSeq_memoryOk fun _ => Holds.pure _
  · refine Holds.get fun _ _ => Holds.ite (fun _ => Holds.throw _) fun _ => ?_
    split
    · exact Holds.pure _
    · exact Holds.bind enterLine_memoryOk fun _ => Holds.bind modSeq_memoryOk fun _ => Holds.pure _

theorem nextUnit_memoryOk : Holds State.memoryOk nextUnit := by
  unfold nextUnit
  refine Holds.bind nextLine_memoryOk fun _ => Holds.get fun _ _ => ?_
  dsimp only
  split
  · exact Holds.pure _
  · exact Holds.ite (fun _ => Holds.pure _) fun _ => Holds.pure _

theorem State.faultAtWord_memoryOk {s : State} {cause i : Nat} (hs : s.memoryOk) : (s.faultAtWord cause i).memoryOk :=
  State.takeFault_memoryOk hs

theorem nextTurn_memoryOk {s : State} (hs : s.memoryOk) : (nextTurn s).2.memoryOk := by
  unfold nextTurn
  split <;> exact hs

theorem raiseCopyAt_memoryOk {c : CtxId} {s : State} (hs : s.memoryOk) : (raiseCopyAt c s).memoryOk := by
  unfold raiseCopyAt
  dsimp only
  split
  · exact hs
  · exact State.focus_memoryOk (State.takeFault_memoryOk (State.recallHalt_memoryOk (State.focus_memoryOk hs)))

theorem raiseTileAt_memoryOk {c : CtxId} {s : State} (hs : s.memoryOk) : (raiseTileAt c s).memoryOk := by
  unfold raiseTileAt
  dsimp only
  split
  · exact hs
  · exact State.focus_memoryOk (State.takeFault_memoryOk (State.recallHalt_memoryOk (State.focus_memoryOk hs)))

theorem dueChange_memoryOk {s : State} (hs : s.memoryOk) : ∀ t ∈ dueChange s, t.memoryOk := by
  unfold dueChange
  intro t ht
  split at ht
  · cases ht; exact raiseBankAt_memoryOk hs
  · cases ht; exact raiseCopyAt_memoryOk hs
  · cases ht; exact raiseTileAt_memoryOk hs
  · cases ht; exact State.updCtx_memoryOk hs
  · cases ht; exact urgentOn_memoryOk hs
  · cases ht

theorem State.stepTiles_memoryOk {s : State} (hs : s.memoryOk) : s.stepTiles.memoryOk :=
  memoryOk_ite (fun _ => hs) fun _ => hs

theorem State.cycles_memoryOk {s : State} (hs : s.memoryOk) : s.cycles.memoryOk :=
  hs

theorem State.stepWindows_memoryOk {s : State} (hs : s.memoryOk) : s.stepWindows.memoryOk :=
  hs

theorem State.dropLight_memoryOk {s : State} (hs : s.memoryOk) : s.dropLight.memoryOk :=
  memoryOk_ite (fun _ => hs) fun _ => hs

theorem tick_memoryOk {s : State} (hs : s.memoryOk) : (tick s).memoryOk :=
  State.dropLight_memoryOk (State.stepTiles_memoryOk (State.cycles_memoryOk (State.stepWindows_memoryOk hs)))

theorem State.acquireDue_memoryOk {s : State} (hs : s.memoryOk) : s.acquireDue.memoryOk :=
  memoryOk_ite (fun _ => State.acquired_memoryOk hs) fun _ => hs

theorem joinedPlan_memoryOk {e : DomainEvent} {s : State} (hs : s.memoryOk) : (joinedPlan e s).memoryOk := by
  unfold joinedPlan
  split
  · split
    · exact memoryOk_ite (fun _ => hs) fun _ => hs
    · exact hs
  · exact memoryOk_ite (fun _ => State.publishWave_memoryOk hs) fun _ => hs
  · exact memoryOk_ite (fun _ => hs) fun _ => hs
  · exact memoryOk_ite (fun _ => hs) fun _ => State.closeWave_memoryOk hs
  · exact memoryOk_ite (fun _ => hs) fun _ => hs
  · exact hs

theorem domainEvent_memoryOk {e : DomainEvent} {s : State} (hs : s.memoryOk) : (domainEvent e s).memoryOk := by
  unfold domainEvent
  refine memoryOk_ite (fun _ => joinedPlan_memoryOk hs) fun _ => ?_
  split
  · exact hs
  · exact memoryOk_ite (fun _ => State.focus_memoryOk (State.takeFault_memoryOk (State.focus_memoryOk hs))) fun _ =>
      hs
  · exact hs

end Sys2Proof.Machine
end

section

/-! PROOFS. The instructions keep memory canonical. -/

namespace Sys2Proof.Machine

theorem execNop_memoryOk {h : Hd} {s : State} (hs : s.memoryOk) : Canonical (execNop h s) :=
  Canonical.ite (fun _ => Canonical.next (runC_memoryOk (Holds.pure _) hs)) fun _ =>
    runShared_memoryOk (Holds.pure _) hs

theorem execHalt_memoryOk {h : Hd} {s : State} (hs : s.memoryOk) : Canonical (execHalt h s) := by
  unfold execHalt
  refine runShared_memoryOk (Holds.get fun _ _ => ?_) hs
  split
  · exact Holds.whenThen (Holds.fault _) fun _ => Holds.bind raiseBank_memoryOk fun _ => modBun_memoryOk
  · exact Holds.bind raiseCopy_memoryOk fun _ => Holds.bind raiseTile_memoryOk fun _ => modSeq_memoryOk
  · exact modSeq_memoryOk

theorem execFence_memoryOk {h : Hd} {c : BitVec 3} {o : BitVec 2} {s : State} (hs : s.memoryOk) :
    Canonical (execFence h c o s) :=
  runShared_memoryOk (Holds.get fun _ _ => Holds.whenThen release_memoryOk fun _ =>
      Holds.bind acquire_memoryOk fun _ => modSeq_memoryOk) hs

theorem execTkpost_memoryOk {h : Hd} {f : BitVec 2} {n : BitVec 4} {s : State} (hs : s.memoryOk) :
    Canonical (execTkpost h f n s) :=
  runShared_memoryOk (Holds.get fun _ _ => Holds.ite (fun _ => modBun_memoryOk) fun _ =>
      Holds.ite (fun _ => Holds.waitFor _) fun _ => Holds.modCx fun _ h => h) hs

theorem execTkwait_memoryOk {h : Hd} {f : BitVec 2} {n : BitVec 4} {s : State} (hs : s.memoryOk) :
    Canonical (execTkwait h f n s) :=
  runShared_memoryOk (Holds.get fun _ _ => Holds.ite (fun _ => modBun_memoryOk) fun _ =>
      Holds.ite (fun _ => Holds.waitFor _) fun _ => Holds.modCx fun _ h => h) hs

theorem execStx_memoryOk {h : Hq} {d a : BitVec 5} {pol : BitVec 2} {so : BitVec 4} {sz : BitVec 3} {imm : BitVec 32}
    {s : State} (hs : s.memoryOk) : Canonical (execStx h d a pol so sz imm s) :=
  runK_memoryOk (Holds.bind replayable_memoryOk fun _ => Holds.get fun _ _ => Holds.bind relOf_memoryOk fun _ =>
      Holds.bind kAccess_memoryOk fun _ => Holds.pure _) hs

theorem execStxTag_memoryOk {h : Hq} {d a : BitVec 5} {so : BitVec 4} {imm : BitVec 32} {s : State}
    (hs : s.memoryOk) : Canonical (execStxTag h d a so imm s) :=
  runK_memoryOk (Holds.bind replayable_memoryOk fun _ => Holds.get fun _ _ => Holds.bind relOf_memoryOk fun _ =>
      Holds.bind pages_memoryOk fun _ => Holds.ite (fun _ => Holds.faultAt _ _) fun _ =>
      Holds.bind homeCheck_memoryOk fun _ => Holds.bind watchCheck_memoryOk fun _ => Holds.eachM fun _ =>
      Holds.bind (Holds.modify fun _ hv => inOrderOf_memoryOk hv) fun _ => Holds.modify fun _ hv =>
      ⟨hv.1, (Tags.write_wf hv.2 _ _)⟩) hs

theorem execAmo_memoryOk {h : Hq} {d a : BitVec 5} {so : BitVec 4} {sz : BitVec 3} {op : BitVec 4} {s : State}
    (hs : s.memoryOk) : Canonical (execAmo h d a so sz op s) :=
  runK_memoryOk (Holds.bind replayable_memoryOk fun _ => Holds.get fun _ _ =>
      Holds.ite (fun _ => Holds.faultAt _ _) fun _ => Holds.bind relOf_memoryOk fun _ =>
      Holds.bind kAccess_memoryOk fun _ => Holds.bind (Holds.modCx fun _ h => h) fun _ => acqOf_memoryOk) hs

theorem execPin_memoryOk {h : Hq} {a b : BitVec 5} {s : State} (hs : s.memoryOk) : Canonical (execPin h a b s) :=
  runK_memoryOk (Holds.bind replayable_memoryOk fun _ => Holds.get fun _ _ =>
      Holds.ite (fun _ => Holds.pure _) fun _ => Holds.bind cacheRange_memoryOk fun _ => Holds.get fun _ _ =>
      Holds.ite (fun _ => Holds.faultAt _ _) fun _ => Holds.modify fun _ hw => hw) hs

theorem execUnpin_memoryOk {h : Hq} {a b : BitVec 5} {s : State} (hs : s.memoryOk) : Canonical (execUnpin h a b s) :=
  runK_memoryOk (Holds.bind replayable_memoryOk fun _ => Holds.get fun _ _ =>
      Holds.ite (fun _ => Holds.pure _) fun _ => Holds.bind cacheRange_memoryOk fun _ => Holds.modify fun _ hv =>
      hv) hs

theorem execMts_memoryOk {h : Hq} {a : BitVec 5} {i : BitVec 9} {s : State} (hs : s.memoryOk) :
    Canonical (execMts h a i s) :=
  runK_memoryOk (Holds.get fun _ _ => Holds.ite (fun _ => Holds.pure _) fun _ =>
      Holds.ite (fun _ => Holds.fault _) fun _ => sysWrite_memoryOk) hs

theorem execGarr_memoryOk {h : Hq} {d : BitVec 5} {c : BitVec 1} {g : BitVec 8} {s : State} (hs : s.memoryOk) :
    Canonical (execGarr h d c g s) :=
  runK_memoryOk (Holds.bind replayable_memoryOk fun _ => Holds.bind groupOf_memoryOk fun _ =>
      Holds.bind release_memoryOk fun _ => Holds.bind arriveM_memoryOk fun _ => Holds.modCx fun _ h => h) hs

theorem execGwait_memoryOk {h : Hq} {a : BitVec 5} {c : BitVec 1} {g : BitVec 8} {s : State} (hs : s.memoryOk) :
    Canonical (execGwait h a c g s) :=
  runK_memoryOk (Holds.bind replayable_memoryOk fun _ => Holds.bind groupOf_memoryOk fun _ => Holds.get fun _ _ =>
      Holds.bind waitPhase_memoryOk fun _ => acquire_memoryOk) hs

theorem execGsync_memoryOk {h : Hq} {d : BitVec 5} {c : BitVec 1} {g : BitVec 8} {s : State} (hs : s.memoryOk) :
    Canonical (execGsync h d c g s) := by
  unfold execGsync
  refine runK_memoryOk (Holds.bind replayable_memoryOk fun _ => Holds.bind groupOf_memoryOk fun _ =>
      Holds.get fun _ _ => ?_) hs
  split
  · exact Holds.ite (fun _ => Holds.bind waitPhase_memoryOk fun _ => Holds.bind (Holds.modCx fun _ h => h) fun _ =>
        Holds.bind acquire_memoryOk fun _ => Holds.modCx fun _ h => h) fun _ =>
      Holds.bind (Holds.modCx fun _ h => h) fun _ => Holds.waitFor _
  · exact Holds.bind release_memoryOk fun _ => Holds.bind arriveM_memoryOk fun _ =>
      Holds.bind (Holds.modCx fun _ h => h) fun _ => Holds.bind waitPhase_memoryOk fun _ =>
      Holds.bind (Holds.modCx fun _ h => h) fun _ => Holds.bind acquire_memoryOk fun _ => Holds.modCx fun _ h => h

theorem execLaunch_memoryOk {h : Hq} {d a : BitVec 5} {s : State} (hs : s.memoryOk) :
    Canonical (execLaunch h d a s) :=
  runK_memoryOk (Holds.bind replayable_memoryOk fun _ => Holds.get fun _ _ => Holds.bind release_memoryOk fun _ =>
      Holds.ite (fun _ => Holds.waitFor _) fun _ => Holds.ite (fun _ => Holds.faultAt _ _) fun _ =>
      Holds.bind readMem_memoryOk fun _ => Holds.bind acceptPacket_memoryOk fun _ => Holds.modCx fun _ h => h) hs

theorem execSpawn_memoryOk {h : Hq} {s : State} (hs : s.memoryOk) : Canonical (execSpawn h s) := by
  unfold execSpawn
  refine runK_memoryOk (Holds.bind replayable_memoryOk fun _ => Holds.bind release_memoryOk fun _ =>
      Holds.get fun _ _ => ?_) hs
  split
  · exact Holds.pure _
  · split
    · exact Holds.pure _
    · exact Holds.ite (fun _ => Holds.pure _) fun _ => Holds.modify fun _ hu =>
        State.settle_memoryOk (State.updLaunch_memoryOk hu)

theorem execCpy_memoryOk {h : Hq} {d a b : BitVec 5} {p c st : BitVec 1} {s : State} (hs : s.memoryOk) :
    Canonical (execCpy h d a b p c st s) :=
  runK_memoryOk (Holds.bind replayable_memoryOk fun _ => Holds.bind raiseCopy_memoryOk fun _ => Holds.get fun _ _ =>
      Holds.bind (Holds.require _ _) fun _ => Holds.bind (Holds.require _ _) fun _ =>
      Holds.bind copyBuffersOk_memoryOk fun _ => queueCopy_memoryOk) hs

theorem execCpyc_memoryOk {h : Hq} {d a b : BitVec 5} {first last : BitVec 1} {c : BitVec 2} {imm : BitVec 32}
    {s : State} (hs : s.memoryOk) : Canonical (execCpyc h d a b first last c imm s) :=
  runK_memoryOk (Holds.bind replayable_memoryOk fun _ => Holds.bind raiseCopy_memoryOk fun _ => Holds.get fun _ _ =>
      Holds.bind (Holds.require _ _) fun _ => Holds.bind (Holds.require _ _) fun _ =>
      Holds.bind (Holds.require _ _) fun _ => Holds.bind queueCopy_memoryOk fun _ => Holds.modCx fun _ h => h) hs

theorem execCtreadyArm_memoryOk {h : Hq} {a b : BitVec 5} {s : State} (hs : s.memoryOk) :
    Canonical (execCtreadyArm h a b s) :=
  runK_memoryOk (Holds.bind replayable_memoryOk fun _ => Holds.bind tileIndex_memoryOk fun _ =>
      Holds.bind armTile_memoryOk fun _ => Holds.modify fun _ hu => takeFlag_memoryOk hu) hs

theorem execCtreadyFire_memoryOk {h : Hq} {b : BitVec 5} {s : State} (hs : s.memoryOk) :
    Canonical (execCtreadyFire h b s) := by
  unfold execCtreadyFire
  refine runK_memoryOk (Holds.bind replayable_memoryOk fun _ => Holds.bind tileIndex_memoryOk fun _ =>
      Holds.get fun _ _ => ?_) hs
  split
  · exact Holds.fault _
  · exact Holds.bind (Holds.require _ _) fun _ => Holds.bind release_memoryOk fun _ => Holds.modify fun _ hu =>
      fireTile_memoryOk hu

theorem execCtreadyGo_memoryOk {h : Hq} {a b : BitVec 5} {s : State} (hs : s.memoryOk) :
    Canonical (execCtreadyGo h a b s) := by
  unfold execCtreadyGo
  refine runK_memoryOk (Holds.bind replayable_memoryOk fun _ => Holds.bind tileIndex_memoryOk fun _ =>
      Holds.bind armTile_memoryOk fun _ => Holds.get fun _ _ =>
      Holds.bind (Holds.modify fun _ hv => takeFlag_memoryOk hv) fun _ => Holds.get fun _ _ => ?_) hs
  split
  · exact Holds.ite (fun _ => Holds.modify fun _ hu => fireTile_memoryOk hu) fun _ => Holds.pure _
  · exact Holds.pure _

theorem execCtwait_memoryOk {h : Hq} {d a : BitVec 5} {s : State} (hs : s.memoryOk) :
    Canonical (execCtwait h d a s) := by
  unfold execCtwait
  refine runK_memoryOk (Holds.bind waitedTile_memoryOk fun _ => ?_) hs
  split
  · exact Holds.bind acquire_memoryOk fun _ => Holds.modCx fun _ h => h
  · exact Holds.throw _
  · exact Holds.waitFor _

theorem execFreezeMark_memoryOk {h : Hq} {a : BitVec 5} {s : State} (hs : s.memoryOk) :
    Canonical (execFreezeMark h a s) :=
  runK_memoryOk (Holds.bind replayable_memoryOk fun _ => Holds.get fun _ _ => Holds.bind handlerOf_memoryOk fun _ =>
      freezeMarkM_memoryOk) hs

theorem execFreeze_memoryOk {h : Hq} {d a b : BitVec 5} {s : State} (hs : s.memoryOk) :
    Canonical (execFreeze h d a b s) :=
  runK_memoryOk (Holds.bind replayable_memoryOk fun _ => Holds.get fun _ _ => Holds.bind handlerOf_memoryOk fun _ =>
      Holds.bind freezeM_memoryOk fun _ => Holds.modCx fun _ h => h) hs

theorem execFreezeDrop_memoryOk {h : Hq} {a : BitVec 5} {s : State} (hs : s.memoryOk) :
    Canonical (execFreezeDrop h a s) :=
  runK_memoryOk (Holds.bind replayable_memoryOk fun _ => Holds.get fun _ _ => Holds.bind handlerOf_memoryOk fun _ =>
      freezeDropM_memoryOk) hs

theorem execFreezeCont_memoryOk {h : Hq} {a : BitVec 5} {s : State} (hs : s.memoryOk) :
    Canonical (execFreezeCont h a s) :=
  runK_memoryOk (Holds.bind replayable_memoryOk fun _ => Holds.get fun _ _ => Holds.bind handlerOf_memoryOk fun _ =>
      freezeContM_memoryOk) hs

theorem execThaw_memoryOk {h : Hq} {d a b : BitVec 5} {s : State} (hs : s.memoryOk) :
    Canonical (execThaw h d a b s) :=
  runK_memoryOk (Holds.bind replayable_memoryOk fun _ => Holds.get fun _ _ => Holds.bind (Holds.require _ _) fun _ =>
      Holds.bind release_memoryOk fun _ => Holds.ite (fun _ => Holds.waitFor _) fun _ =>
      Holds.bind (Holds.require _ _) fun _ => Holds.bind (Holds.require _ _) fun _ =>
      Holds.bind thawM_memoryOk fun _ => Holds.modCx fun _ h => h) hs

theorem execResume_memoryOk {h : Hq} {a : BitVec 5} {s : State} (hs : s.memoryOk) : Canonical (execResume h a s) := by
  unfold execResume
  refine runK_memoryOk (Holds.bind heldFrame_memoryOk fun _ => ?_) hs
  split
  · exact Holds.bind release_memoryOk fun _ => Holds.ite (fun _ => Holds.fault _) fun _ =>
      Holds.bind (Holds.modify fun _ hu => State.updLaunch_memoryOk hu) fun _ =>
      Holds.bind (Holds.modify fun _ hu => State.updCtx_memoryOk hu) fun _ =>
      Holds.whenThen (Holds.modify fun _ hu => State.leavePlanb_memoryOk hu) fun _ => Holds.modify fun _ hu =>
      resumeFrame_memoryOk hu

theorem execResumeTerm_memoryOk {h : Hq} {a : BitVec 5} {s : State} (hs : s.memoryOk) :
    Canonical (execResumeTerm h a s) := by
  unfold execResumeTerm
  refine runK_memoryOk (Holds.bind heldFrame_memoryOk fun _ => ?_) hs
  split
  · exact Holds.bind release_memoryOk fun _ => Holds.modify fun _ hu => State.endLaunch_memoryOk hu

theorem execSbind_memoryOk {h : Hq} {b : BitVec 6} {st : BitVec 4} {epi bk : BitVec 1} {imm : BitVec 32} {s : State}
    (hs : s.memoryOk) : Canonical (execSbind h b st epi bk imm s) := by
  unfold execSbind
  refine runLS_memoryOk (Holds.withTrap (Holds.get fun _ _ => Holds.ite (fun _ => Holds.fault _) fun _ =>
        Holds.bind (Holds.modCx fun _ h => h) fun _ => Holds.ite (fun _ => Holds.throw _) fun _ => ?_)) hs
  split
  · exact Holds.fault _
  · exact Holds.modCx fun _ h => h

theorem execSset_memoryOk {h : Hq} {st n : BitVec 4} {f : BitVec 5} {imm : BitVec 32} {s : State} (hs : s.memoryOk) :
    Canonical (execSset h st n f imm s) :=
  runLS_memoryOk (Holds.withTrap (Holds.get fun _ _ => Holds.ite (fun _ => Holds.fault _) fun _ =>
        Holds.ite (fun _ => Holds.modCx fun _ h => h) fun _ => Holds.ite (fun _ => Holds.fault _) fun _ =>
        Holds.modCx fun _ h => h)) hs

theorem execLds_memoryOk {h : Hq} {st n : BitVec 4} {l : BitVec 1} {s : State} (hs : s.memoryOk) :
    Canonical (execLds h st n l s) := by
  unfold execLds
  refine runL_memoryOk (transfer_memoryOk (Holds.bind boundFor_memoryOk fun _ => ?_)) hs
  split
  · exact Holds.bind (Holds.require _ _) fun _ => Holds.bind notExhausted_memoryOk fun _ =>
      Holds.bind rowFour_memoryOk fun _ => Holds.get fun _ _ => Holds.bind readElems_memoryOk fun _ =>
      Holds.bind giveLq_memoryOk fun _ => Holds.bind setPos_memoryOk fun _ => lastRead_memoryOk

theorem execLdso_memoryOk {h : Hq} {st n : BitVec 4} {c l : BitVec 1} {s : State} (hs : s.memoryOk) :
    Canonical (execLdso h st n c l s) := by
  unfold execLdso
  refine Canonical.ite (fun _ => Canonical.next (State.illegal_memoryOk hs)) fun _ =>
    runL_memoryOk (transfer_memoryOk (Holds.bind boundFor_memoryOk fun _ => ?_)) hs
  split
  · refine Holds.bind (Holds.require _ _) fun _ => Holds.bind (Holds.require _ _) fun _ =>
      Holds.bind notExhausted_memoryOk fun _ => Holds.bind (atPos_memoryOk (Holds.require _ _)) fun _ =>
      Holds.get fun _ _ => ?_
    split
    · dsimp only
      split
      · exact Holds.bind (Holds.modify fun _ hu => hu) fun _ => Holds.bind (Holds.pure _) fun _ =>
          Holds.get fun _ _ => Holds.ite (fun _ => Holds.waitFor _) fun _ =>
          Holds.bind (Holds.modCx fun _ h => h) fun _ => Holds.bind setPos_memoryOk fun _ => lastRead_memoryOk
      · exact Holds.bind rowFour_memoryOk fun _ => Holds.bind readElems_memoryOk fun _ =>
          Holds.bind (Holds.modify fun _ hu => hu) fun _ => Holds.bind (Holds.pure _) fun _ => Holds.get fun _ _ =>
          Holds.ite (fun _ => Holds.waitFor _) fun _ => Holds.bind (Holds.modCx fun _ h => h) fun _ =>
          Holds.bind setPos_memoryOk fun _ => lastRead_memoryOk
    · split
      · exact Holds.bind (Holds.modify fun _ hu => hu) fun _ => Holds.bind (Holds.pure _) fun _ =>
          Holds.get fun _ _ => Holds.ite (fun _ => Holds.waitFor _) fun _ =>
          Holds.bind (Holds.modCx fun _ h => h) fun _ => Holds.bind setPos_memoryOk fun _ => lastRead_memoryOk
      · exact Holds.bind rowFour_memoryOk fun _ => Holds.bind readElems_memoryOk fun _ =>
          Holds.bind (Holds.pure _) fun _ => Holds.get fun _ _ => Holds.ite (fun _ => Holds.waitFor _) fun _ =>
          Holds.bind (Holds.modCx fun _ h => h) fun _ => Holds.bind setPos_memoryOk fun _ => lastRead_memoryOk

theorem execLdg_memoryOk {h : Hq} {st n : BitVec 4} {l : BitVec 1} {s : State} (hs : s.memoryOk) :
    Canonical (execLdg h st n l s) := by
  unfold execLdg
  refine runL_memoryOk (transferAt_memoryOk (Holds.bind boundFor_memoryOk fun _ => ?_)) hs
  split
  · refine Holds.bind (Holds.require _ _) fun _ => Holds.bind rowFour_memoryOk fun _ => Holds.get fun _ _ => ?_
    split
    · exact Holds.waitFor _
    · split
      · exact Holds.throw _
      · exact Holds.bind readElems_memoryOk fun _ => Holds.bind giveLq_memoryOk fun _ =>
          Holds.bind (Holds.modCx fun _ h => h) fun _ => lastRead_memoryOk

theorem execLdz_memoryOk {h : Hq} {b : BitVec 6} {st n : BitVec 4} {l : BitVec 1} {s : State} (hs : s.memoryOk) :
    Canonical (execLdz h b st n l s) :=
  runL_memoryOk (Holds.get fun _ _ => Holds.whenThen ldzStart_memoryOk fun _ => Holds.bind ldzLoop_memoryOk fun _ =>
      Holds.bind postRoom_memoryOk fun _ => Holds.ite (fun _ => lastChunk_memoryOk) fun _ => Holds.pure _) hs

theorem execLdb_memoryOk {h : Hq} {b : BitVec 6} {st n : BitVec 4} {l : BitVec 1} {s : State} (hs : s.memoryOk) :
    Canonical (execLdb h b st n l s) := by
  unfold execLdb
  refine runL_memoryOk (transfer_memoryOk (Holds.bind replayable_memoryOk fun _ =>
        Holds.bind boundFor_memoryOk fun _ => ?_)) hs
  split
  · exact Holds.get fun _ _ => Holds.bind (Holds.require _ _) fun _ =>
      Holds.bind (atPos_memoryOk (Holds.require _ _)) fun _ => Holds.bind notExhausted_memoryOk fun _ =>
      Holds.bind (Holds.require _ _) fun _ => Holds.ite (fun _ =>
        Holds.ite (fun _ => Holds.bind (Holds.throw _) fun _ => Holds.bind setPos_memoryOk fun _ =>
          Holds.ite (fun _ => bufAccess_memoryOk) fun _ => Holds.pure _) fun _ =>
        Holds.iteThen (Holds.throw _) rowFour_memoryOk fun _ => Holds.bind setPos_memoryOk fun _ =>
        Holds.ite (fun _ => bufAccess_memoryOk) fun _ => Holds.pure _) fun _ => Holds.bind bufCheck_memoryOk fun _ =>
      Holds.whenThen (Holds.throw _) fun _ => Holds.bind rowFour_memoryOk fun _ =>
      Holds.bind storedBytes_memoryOk fun _ => Holds.bind fillBuffer_memoryOk fun _ =>
      Holds.bind setPos_memoryOk fun _ => Holds.ite (fun _ => bufAccess_memoryOk) fun _ => Holds.pure _

theorem execBdecl_memoryOk {h : Hq} {b : BitVec 6} {cons prod : BitVec 2} {len off : BitVec 16} {s : State}
    (hs : s.memoryOk) : Canonical (execBdecl h b cons prod len off s) :=
  runL_memoryOk (Holds.bind replayable_memoryOk fun _ => Holds.get fun _ _ =>
      Holds.ite (fun _ => Holds.throw _) fun _ => Holds.modCx fun _ h => h) hs

theorem execBstateFree_memoryOk {h : Hq} {b : BitVec 6} {s : State} (hs : s.memoryOk) :
    Canonical (execBstateFree h b s) :=
  runLS_memoryOk (Holds.bind replayable_memoryOk fun _ => Holds.get fun _ _ =>
      Holds.ite (fun _ => Holds.throw _) fun _ => Holds.ite (fun _ => Holds.throw _) fun _ => Holds.modCx fun _ h =>
      h) hs

theorem execSts_memoryOk {h : Hq} {st n : BitVec 4} {l : BitVec 1} {s : State} (hs : s.memoryOk) :
    Canonical (execSts h st n l s) := by
  unfold execSts
  refine runS_memoryOk (transfer_memoryOk (Holds.bind storeStart_memoryOk fun _ => ?_)) hs
  split
  · exact Holds.bind headSq_memoryOk fun _ => Holds.get fun _ _ => Holds.bind itemsCheck_memoryOk fun _ =>
      Holds.bind performItems_memoryOk fun _ => takeSq_memoryOk

theorem execQst_memoryOk {h : Hq} {st n : BitVec 4} {o : BitVec 3} {l : BitVec 1} {s : State} (hs : s.memoryOk) :
    Canonical (execQst h st n o l s) := by
  unfold execQst
  refine runS_memoryOk (transfer_memoryOk (Holds.bind storeStart_memoryOk fun _ => ?_)) hs
  split
  · exact Holds.bind headSq_memoryOk fun _ => Holds.get fun _ _ => Holds.bind quantiseBlocks_memoryOk fun _ =>
      Holds.bind itemsCheck_memoryOk fun _ => Holds.bind performItems_memoryOk fun _ =>
      Holds.bind setQ_memoryOk fun _ => takeSq_memoryOk

theorem execStb_memoryOk {h : Hq} {b : BitVec 6} {st n : BitVec 4} {l : BitVec 1} {s : State} (hs : s.memoryOk) :
    Canonical (execStb h b st n l s) := by
  unfold execStb
  refine runS_memoryOk (transfer_memoryOk (Holds.bind storeStart_memoryOk fun _ => ?_)) hs
  split
  · exact Holds.get fun _ _ => Holds.bind bufAccess_memoryOk fun _ => Holds.bind (Holds.require _ _) fun _ =>
      Holds.bind (Holds.require _ _) fun _ => Holds.bind itemsCheck_memoryOk fun _ =>
      Holds.bind performItems_memoryOk fun _ => Holds.bind setPos_memoryOk fun _ =>
      Holds.bind (Holds.modCx fun _ h => h) fun _ => Holds.ite (fun _ => bufAccess_memoryOk) fun _ => Holds.pure _

theorem execShopen_memoryOk {h : Hq} {a b : BitVec 4} {s : State} (hs : s.memoryOk) :
    Canonical (execShopen h a b s) :=
  runS_memoryOk (Holds.bind replayable_memoryOk fun _ => Holds.get fun _ _ =>
      Holds.ite (fun _ => Holds.pure _) fun _ => Holds.bind shadowRange_memoryOk fun _ => Holds.eachM fun _ =>
      Holds.modify fun _ hv => losePage_memoryOk ⟨setShadowState_wf hv.1 _ _ _, hv.2⟩) hs

theorem execPublish_memoryOk {h : Hq} {a b : BitVec 4} {c : BitVec 3} {s : State} (hs : s.memoryOk) :
    Canonical (execPublish h a b c s) :=
  runS_memoryOk (Holds.bind replayable_memoryOk fun _ => Holds.get fun _ _ =>
      Holds.ite (fun _ => Holds.pure _) fun _ => Holds.bind shadowRange_memoryOk fun _ =>
      Holds.bind (Holds.modify fun _ hv => State.finishChunks_memoryOk hv) fun _ =>
      Holds.bind release_memoryOk fun _ => Holds.eachM fun _ => Holds.modify fun _ hv => publishPage_memoryOk hv) hs

theorem execAtomv_memoryOk {h : Hq} {c st n : BitVec 4} {f : BitVec 5} {s : State} (hs : s.memoryOk) :
    Canonical (execAtomv h c st n f s) := by
  unfold execAtomv
  refine runS_memoryOk (transfer_memoryOk (Holds.bind storeStart_memoryOk fun _ => ?_)) hs
  split
  · exact Holds.bind headSq_memoryOk fun _ => Holds.get fun _ _ => Holds.bind itemsCheck_memoryOk fun _ =>
      Holds.bind relOf_memoryOk fun _ => Holds.bind (Holds.eachM fun _ => atomItem_memoryOk) fun _ =>
      Holds.bind closeBuffers_memoryOk fun _ => Holds.bind acqOf_memoryOk fun _ => takeSq_memoryOk

theorem execAmos_memoryOk {h : Hq} {d a b : BitVec 4} {z : BitVec 1} {so op : BitVec 4} {s : State}
    (hs : s.memoryOk) : Canonical (execAmos h d a b z so op s) := by
  unfold execAmos
  refine runS_memoryOk (scalarTransfer_memoryOk (Holds.bind replayable_memoryOk fun _ => Holds.get fun _ _ =>
        Holds.ite (fun _ => Holds.faultAt _ _) fun _ => Holds.bind pages_memoryOk fun _ =>
        Holds.whenThen (Holds.faultAt _ _) fun _ => Holds.bind homeCheck_memoryOk fun _ =>
        Holds.bind (Holds.eachM fun _ => tagCheck_memoryOk) fun _ => Holds.bind watchCheck_memoryOk fun _ =>
        Holds.bind awaitReply_memoryOk fun _ => Holds.bind relOf_memoryOk fun _ => ?_)) hs
  split
  · exact Holds.bind amoAt_memoryOk fun _ => Holds.bind (Holds.modCx fun _ h => h) fun _ => acqOf_memoryOk
  · exact Holds.pure _

theorem execBdrain_memoryOk {h : Hq} {st : BitVec 4} {s : State} (hs : s.memoryOk) : Canonical (execBdrain h st s) :=
  runS_memoryOk (Holds.withTrap (Holds.bind boundFor_memoryOk fun _ => Holds.get fun _ _ =>
        Holds.ite (fun _ => Holds.bind (Holds.modify fun _ hv => beginFlight_memoryOk hv) fun _ =>
          Holds.bind modSeq_memoryOk fun _ => Holds.waitFor _) fun _ => Holds.pure _)) hs

theorem execVsel_memoryOk {h : Tl} {d : BitVec 4} {a b : BitVec 5} {p : BitVec 6} {x : BitVec 2} {s : State}
    (hs : s.memoryOk) : Canonical (execVsel h d a b p x s) :=
  runCa_memoryOk (Holds.bind opsCx_memoryOk fun _ => Holds.bind src_memoryOk fun _ =>
      Holds.bind src_memoryOk fun _ => Holds.modCx fun _ h => h) hs

theorem execAmodset_memoryOk {h : Hd} {a m : BitVec 4} {s : State} (hs : s.memoryOk) :
    Canonical (execAmodset h a m s) :=
  runCq_memoryOk (Holds.bind opsCx_memoryOk fun _ => Holds.ite (fun _ => Holds.modCx fun _ h => h) fun _ =>
      Holds.fault _) hs

theorem execQpush_memoryOk {h : Tl} {n : BitVec 4} {a : BitVec 5} {g : BitVec 6} {s : State} (hs : s.memoryOk) :
    Canonical (execQpush h n a g s) :=
  runCv_memoryOk (Holds.bind opsCx_memoryOk fun _ => Holds.bind src_memoryOk fun _ =>
      Holds.ite (fun _ => Holds.ite (fun _ => Holds.waitFor _) fun _ => Holds.modCx fun _ h => h) fun _ =>
      Holds.ite (fun _ => Holds.waitFor _) fun _ => Holds.modCx fun _ h => h) hs

theorem execWin_memoryOk {h : Hd} {ws : BitVec 2} {c ak : BitVec 4} {sh e : BitVec 2} {first last rel : BitVec 1}
    {b0 : BitVec 20} {s : State} (hs : s.memoryOk) : Canonical (execWin h ws c ak sh e first last rel b0 s) :=
  runBank_memoryOk (Holds.bind opsCx_memoryOk fun _ => Holds.get fun _ _ =>
      Holds.bind (Holds.waitUnless _ _) fun _ => Holds.bind (Holds.require _ _) fun _ =>
      Holds.whenThen epiStreams_memoryOk fun _ => Holds.bind (Holds.require _ _) fun _ =>
      Holds.bind (Holds.require _ _) fun _ => Holds.bind (Holds.require _ _) fun _ =>
      Holds.bind (Holds.require _ _) fun _ => Holds.modCx fun _ h => h) hs

theorem execWcfg_memoryOk {h : Hd} {n : BitVec 5} {a : BitVec 4} {s : State} (hs : s.memoryOk) :
    Canonical (execWcfg h n a s) :=
  runBank_memoryOk (Holds.bind opsCx_memoryOk fun _ => Holds.ite (fun _ => Holds.modCx fun _ h => h) fun _ =>
      Holds.fault _) hs

theorem execWaccEpi_memoryOk {h : Hd} {c : BitVec 4} {e : BitVec 2} {s : State} (hs : s.memoryOk) :
    Canonical (execWaccEpi h c e s) :=
  runBank_memoryOk (Holds.bind accWait_memoryOk fun _ => Holds.bind opsCx_memoryOk fun _ =>
      Holds.bind epiStreams_memoryOk fun _ => Holds.get fun _ _ => Holds.bind (Holds.waitUnless _ _) fun _ =>
      Holds.modCx fun _ h => h) hs

theorem execWstat_memoryOk {h : Hd} {d : BitVec 4} {p : BitVec 6} {e : BitVec 1} {s : State} (hs : s.memoryOk) :
    Canonical (execWstat h d p e s) := by
  unfold execWstat
  refine runBank_memoryOk (Holds.bind opsCx_memoryOk fun _ => ?_) hs
  split
  · exact Holds.modCx fun _ h => h
  · exact Holds.bind (Holds.modCx fun _ h => h) fun _ => Holds.ite (fun _ => Holds.pure _) fun _ =>
      Holds.modCx fun _ h => h

theorem execLvtset_memoryOk {h : Hd} {t : BitVec 1} {n : BitVec 3} {a : BitVec 5} {s : State} (hs : s.memoryOk) :
    Canonical (execLvtset h t n a s) :=
  runCw_memoryOk (Holds.bind src_memoryOk fun _ => Holds.get fun _ _ => Holds.bind (Holds.waitUnless _ _) fun _ =>
      Holds.ite (fun _ => Holds.bind (Holds.require _ _) fun _ => Holds.modCx fun _ h => h) fun _ =>
      Holds.bind (Holds.require _ _) fun _ => Holds.modCx fun _ h => h) hs

theorem execBcast_memoryOk {h : Hd} {s0 ak : BitVec 4} {nm1 : BitVec 6} {tm1 : BitVec 4} {wp : BitVec 1}
    {b0 : BitVec 20} {s : State} (hs : s.memoryOk) : Canonical (execBcast h s0 ak nm1 tm1 wp b0 s) := by
  unfold execBcast
  refine runBcast_memoryOk (Holds.withTrap (Holds.bind opsCx_memoryOk fun _ => Holds.get fun _ _ =>
        Holds.bind (Holds.waitUnless _ _) fun _ => Holds.bind (Holds.require _ _) fun _ =>
        Holds.bind boundFor_memoryOk fun _ => ?_)) hs
  split
  · exact Holds.bind (Holds.require _ _) fun _ => Holds.bind (Holds.require _ _) fun _ =>
      Holds.bind (Holds.require _ _) fun _ => Holds.bind rowFour_memoryOk fun _ =>
      Holds.bind (Holds.collectM fun _ => readElems_memoryOk) fun _ => Holds.bind (Holds.require _ _) fun _ =>
      Holds.bind (Holds.require _ _) fun _ => Holds.bind (Holds.require _ _) fun _ =>
      Holds.bind (Holds.require _ _) fun _ => Holds.modify fun _ hu => hu

theorem execPlanb_memoryOk {h : Hd} {d : BitVec 4} {s : State} (hs : s.memoryOk) : Canonical (execPlanb h d s) := by
  unfold execPlanb
  refine runBcast_memoryOk (Holds.bind opsCx_memoryOk fun _ => Holds.get fun _ _ => ?_) hs
  split
  · split
    · exact Holds.bind (Holds.modify fun _ hu => hu) fun _ => Holds.modCx fun _ h => h
    · exact Holds.fault _
    · exact Holds.fault _
    · exact Holds.whenThen (Holds.modify fun _ hu => beginPlan_memoryOk hu) fun _ => Holds.waitFor _
    · exact Holds.waitFor _
  · exact Holds.bind (Holds.modify fun _ hu => State.parkPlan_memoryOk hu) fun _ => Holds.get fun _ _ =>
      Holds.ite (fun _ => Holds.waitFor _) fun _ => Holds.iteThen (Holds.modify fun _ hv => beginPlan_memoryOk hv)
        (Holds.modify fun _ hv => hv) fun _ => Holds.waitFor _

theorem execPlane_memoryOk {h : Hd} {s : State} (hs : s.memoryOk) : Canonical (execPlane h s) := by
  unfold execPlane
  refine runBcast_memoryOk (Holds.get fun _ _ => Holds.ite (fun _ => Holds.modCx fun _ h => h) fun _ => ?_) hs
  split
  · exact Holds.bind (Holds.modify fun _ hu => hu) fun _ => Holds.waitFor _
  · exact Holds.waitFor _
  · exact Holds.fault _

theorem execFibexSet_memoryOk {h : Hd} {a : BitVec 4} {s : State} (hs : s.memoryOk) :
    Canonical (execFibexSet h a s) :=
  runBcast_memoryOk (Holds.bind replayable_memoryOk fun _ => Holds.bind opsCx_memoryOk fun _ =>
      Holds.bind (Holds.require _ _) fun _ => Holds.modify fun _ hu => hu) hs

end Sys2Proof.Machine
end

section

/-! PROOFS. The events keep memory canonical. -/

namespace Sys2Proof.Machine

theorem execDecoderChunkDone_memoryOk {c : CtxId} {s : State} (hs : s.memoryOk) :
    Canonical (execDecoderChunkDone c s) := by
  have hf : ({ s.focus c with cur := .l } : State).memoryOk := State.focus_memoryOk hs
  unfold execDecoderChunkDone
  refine Canonical.next (memoryOk_ite (fun _ => hs) fun _ => ?_)
  split
  · exact hs
  · refine memoryOk_ite (fun _ => hs) fun _ => ?_
    split
    · have h := Holds.ok (Holds.ite (fun _ => ldzStart_memoryOk) fun _ => ldzDeliver_memoryOk) hf ‹_›
      exact State.focus_memoryOk h
    · exact hs

theorem execWindowStaging_memoryOk {c : CtxId} {n : Nat} {s : State} (hs : s.memoryOk) :
    Canonical (execWindowStaging c n s) := by
  unfold execWindowStaging
  refine Canonical.next ?_
  split
  · exact hs
  · split
    · exact hs
    · exact memoryOk_ite (fun _ => hs) fun _ => State.updCtx_memoryOk hs

theorem execWindowPass_memoryOk {c : CtxId} {n : Nat} {s : State} (hs : s.memoryOk) :
    Canonical (execWindowPass c n s) := by
  unfold execWindowPass
  refine Canonical.next ?_
  split
  · exact hs
  · split
    · exact hs
    · exact memoryOk_ite (fun _ => hs) fun _ => State.updCtx_memoryOk hs

theorem execWindowRescale_memoryOk {c : CtxId} {n : Nat} {s : State} (hs : s.memoryOk) :
    Canonical (execWindowRescale c n s) := by
  unfold execWindowRescale
  refine Canonical.next ?_
  split
  · exact hs
  · split
    · exact hs
    · exact memoryOk_ite (fun _ => hs) fun _ => State.updCtx_memoryOk hs

theorem execWindowAccumulate_memoryOk {c : CtxId} {n : Nat} {s : State} (hs : s.memoryOk) :
    Canonical (execWindowAccumulate c n s) := by
  unfold execWindowAccumulate
  refine Canonical.next ?_
  split
  · exact hs
  · split
    · exact hs
    · exact memoryOk_ite (fun _ => hs) fun _ => State.updCtx_memoryOk hs

theorem execEpilogueTile_memoryOk {c : CtxId} {s : State} (hs : s.memoryOk) : Canonical (execEpilogueTile c s) := by
  unfold execEpilogueTile
  refine Canonical.next ?_
  split
  · exact hs
  · dsimp only
    split
    · exact hs
    · exact memoryOk_ite (fun _ => hs) fun _ => runTile_memoryOk
          (Holds.iteThen readBias_memoryOk (Holds.pure _) fun _ => Holds.modCx fun _ h => h) hs

theorem execEpilogueOutput_memoryOk {c : CtxId} {s : State} (hs : s.memoryOk) :
    Canonical (execEpilogueOutput c s) := by
  unfold execEpilogueOutput
  refine Canonical.next ?_
  split
  · exact hs
  · exact memoryOk_ite (fun _ => hs) fun _ => memoryOk_ite (fun _ => runTile_memoryOk writeTile_memoryOk hs) fun _ =>
      memoryOk_ite (fun _ => State.updCtx_memoryOk hs) fun _ => hs

theorem execEpilogueTimeout_memoryOk {c : CtxId} {s : State} (hs : s.memoryOk) :
    Canonical (execEpilogueTimeout c s) := by
  unfold execEpilogueTimeout
  refine Canonical.next ?_
  split
  · exact hs
  · exact memoryOk_ite (fun _ => runTile_memoryOk writeTile_memoryOk (State.updCtx_memoryOk hs)) fun _ =>
      State.updCtx_memoryOk hs

theorem execPlanPublish_memoryOk {s : State} (hs : s.memoryOk) : Canonical (execPlanPublish s) := by
  unfold execPlanPublish
  refine Canonical.next ?_
  split
  · exact hs
  · exact memoryOk_ite (fun _ => State.publishWave_memoryOk hs) fun _ =>
      memoryOk_ite (fun _ => State.publishWave_memoryOk hs) fun _ => hs

theorem execPlanClose_memoryOk {s : State} (hs : s.memoryOk) : Canonical (execPlanClose s) := by
  unfold execPlanClose
  refine Canonical.next ?_
  split
  · exact hs
  · exact memoryOk_ite (fun _ => memoryOk_ite (fun _ => State.updCtx_memoryOk (State.closeWave_memoryOk hs)) fun _ =>
        State.updCtx_memoryOk (State.closeWave_memoryOk hs)) fun _ => hs

theorem execPlanOverrun_memoryOk {s : State} (hs : s.memoryOk) : Canonical (execPlanOverrun s) := by
  unfold execPlanOverrun
  refine Canonical.next ?_
  split
  · exact hs
  · exact memoryOk_ite (fun _ => State.focus_memoryOk (State.takeFault_memoryOk (State.focus_memoryOk hs))) fun _ =>
      hs

theorem execPlanAbort_memoryOk {s : State} (hs : s.memoryOk) : Canonical (execPlanAbort s) := by
  unfold execPlanAbort
  refine Canonical.next ?_
  split
  · exact hs
  · split
    · exact State.updCtx_memoryOk (foldl_keeps State.memoryOk _ (fun u _ hu => abortMember_memoryOk hu) _ hs)
    · exact hs

theorem execCopyCommandStart_memoryOk {c : CtxId} {ticket : DWord} {s : State} (hs : s.memoryOk) :
    Canonical (execCopyCommandStart c ticket s) := by
  unfold execCopyCommandStart
  refine Canonical.next ?_
  split
  · exact hs
  · split
    · exact hs
    · exact memoryOk_ite (fun _ => hs) fun _ => memoryOk_ite (fun _ => State.updCtx_memoryOk hs) fun _ =>
        runCopy_memoryOk (Holds.whenThen modCopy_memoryOk fun _ => Holds.ite (fun _ => modCopy_memoryOk) fun _ =>
          Holds.bind copyChecks_memoryOk fun _ => Holds.bind copyOpens_memoryOk fun _ => modCopy_memoryOk) hs

theorem execCopyCommandFinish_memoryOk {c : CtxId} {ticket : DWord} {s : State} (hs : s.memoryOk) :
    Canonical (execCopyCommandFinish c ticket s) := by
  unfold execCopyCommandFinish
  refine Canonical.next ?_
  split
  · exact hs
  · split
    · exact hs
    · exact memoryOk_ite (fun _ => hs) fun _ => runCopy_memoryOk
          (Holds.iteThen (Holds.pure _) copyRead_memoryOk fun _ =>
          Holds.iteThen copyEmpty_memoryOk copyWrite_memoryOk fun _ =>
          Holds.bind (Holds.modify fun _ hu => settleWrites_memoryOk hu) fun _ =>
          Holds.ite (fun _ => Holds.bind modCopy_memoryOk fun _ => Holds.bind chainEnd_memoryOk fun _ =>
            modCopy_memoryOk) fun _ => Holds.bind copyDone_memoryOk fun _ => modCopy_memoryOk) hs

theorem execCopyBoundOverrun_memoryOk {c : CtxId} {pre : Nat} {s : State} (hs : s.memoryOk) :
    Canonical (execCopyBoundOverrun c pre s) := by
  unfold execCopyBoundOverrun
  refine Canonical.next ?_
  split
  · exact hs
  · split
    · exact hs
    · exact memoryOk_ite (fun _ => hs) fun _ => memoryOk_ite (fun _ => State.updCtx_memoryOk hs) fun _ =>
        runCopy_memoryOk (Holds.ite (fun _ => Holds.bind copyRead_memoryOk fun _ =>
            Holds.bind copyWrite_memoryOk fun _ => Holds.bind (Holds.modify fun _ hu =>
              settleWrites_memoryOk hu) fun _ => Holds.throw _) fun _ => Holds.throw _) hs

theorem execCollectiveComplete_memoryOk {t : Nat} {peers : List Peer} {order : List Nat} {s : State}
    (hs : s.memoryOk) : Canonical (execCollectiveComplete t peers order s) := by
  unfold execCollectiveComplete
  refine Canonical.next ?_
  split
  · exact hs
  · refine memoryOk_ite (fun _ => hs) fun _ => ?_
    split
    · exact failTile_memoryOk (undone_memoryOk (Holds.error readTile_memoryOk hs ‹_›))
    · exact hs
    · refine memoryOk_ite (fun _ => failTile_memoryOk (Holds.ok readTile_memoryOk hs ‹_›)) fun _ => ?_
      split
      · exact hs
      · exact completeTile_memoryOk (Holds.ok readTile_memoryOk hs ‹_›)

theorem execCollectiveBoundOverrun_memoryOk {t : Nat} {s : State} (hs : s.memoryOk) :
    Canonical (execCollectiveBoundOverrun t s) := by
  unfold execCollectiveBoundOverrun
  refine Canonical.next ?_
  split
  · exact hs
  · exact memoryOk_ite (fun _ => failTile_memoryOk hs) fun _ => hs

theorem execCollectivePeerFailed_memoryOk {t dev : Nat} {mismatch : Bool} {s : State} (hs : s.memoryOk) :
    Canonical (execCollectivePeerFailed t dev mismatch s) := by
  unfold execCollectivePeerFailed
  refine Canonical.next ?_
  split
  · exact hs
  · exact memoryOk_ite (fun _ => failTile_memoryOk hs) fun _ => hs

theorem execRemoteRequest_memoryOk {r : FabricReq} {s : State} (hs : s.memoryOk) :
    Canonical (execRemoteRequest r s) := by
  unfold execRemoteRequest
  refine Canonical.next ?_
  split
  · exact performOwn_memoryOk hs
  · exact memoryOk_ite (fun _ => hs) fun _ => hs
  · exact memoryOk_ite (fun _ => ⟨(Memory.mergeN_wf hs.1 _ _ _), hs.2⟩) fun _ => hs
  · refine memoryOk_ite (fun _ => ?_) fun _ => hs
    dsimp only
    split
    · exact hs
    · exact ⟨(Memory.writeN_wf hs.1 _ _), hs.2⟩
  · exact memoryOk_ite (fun _ => ⟨hs.1, (Tags.write_wf hs.2 _ _)⟩) fun _ => hs

theorem execLinkLaneFailure_memoryOk {link : Nat} {lost : List Nat} {s : State} (hs : s.memoryOk) :
    Canonical (execLinkLaneFailure link lost s) := by
  refine Canonical.next (memoryOk_ite (fun _ => foldl_keeps State.memoryOk _ (fun u d hu => ?_) _ hs) fun _ => hs)
  have h : (fatalDisables (.route d) (u.loseLaunches (u.toward d) 0x382)).memoryOk :=
    fatalDisables_memoryOk (State.loseLaunches_memoryOk hu)
  exact h

theorem execNodeDispatch_memoryOk {s : State} (hs : s.memoryOk) : Canonical (execNodeDispatch s) := by
  unfold execNodeDispatch
  refine Canonical.next ?_
  split
  · exact dispatchHandler_memoryOk hs
  · split
    · exact hs
    · split
      · exact hs
      · split
        · exact hs
        · exact State.dispatch_memoryOk hs

theorem execNodeComplete_memoryOk {c : CtxId} {s : State} (hs : s.memoryOk) : Canonical (execNodeComplete c s) := by
  unfold execNodeComplete
  refine Canonical.next ?_
  split
  · refine memoryOk_ite (fun _ => memoryOk_ite (fun _ => ?_) fun _ => ?_) fun _ => hs
    · split
      · exact State.endLaunch_memoryOk hs
      · exact State.updLaunch_memoryOk (State.updCtx_memoryOk hs)
    · split
      · exact completeNode_memoryOk hs
      · exact hs
  · exact hs

theorem execNodeLate_memoryOk {s : State} (hs : s.memoryOk) : Canonical (execNodeLate s) := by
  unfold execNodeLate
  refine Canonical.next ?_
  split
  · exact hs
  · exact State.settle_memoryOk (crecLate_memoryOk (State.updCtxsOf_memoryOk (State.updLaunch_memoryOk hs)))

theorem execPreemption_memoryOk {die core : Nat} {s : State} (hs : s.memoryOk) :
    Canonical (execPreemption die core s) := by
  unfold execPreemption
  refine Canonical.next ?_
  split
  · exact memoryOk_ite (fun _ => State.swap_memoryOk hs) fun _ => hs
  · exact hs

theorem execBankSwap_memoryOk {die core : Nat} {s : State} (hs : s.memoryOk) :
    Canonical (execBankSwap die core s) := by
  unfold execBankSwap
  refine Canonical.next ?_
  split
  · exact hs
  · refine memoryOk_ite (fun _ => hs) fun _ => ?_
    split
    · exact State.swap_memoryOk hs
    · exact memoryOk_ite (fun _ => hs) fun _ => memoryOk_ite (fun _ => State.swap_memoryOk hs) fun _ =>
        memoryOk_ite (fun _ => State.swap_memoryOk hs) fun _ => hs

theorem execSpill_memoryOk {c : CtxId} {s : State} (hs : s.memoryOk) : Canonical (execSpill c s) := by
  unfold execSpill
  refine Canonical.next ?_
  split
  · exact memoryOk_ite (fun _ => spillCtx_memoryOk hs) fun _ => hs
  · exact hs

theorem execContextRestore_memoryOk {c : CtxId} {die core bank : Nat} {s : State} (hs : s.memoryOk) :
    Canonical (execContextRestore c die core bank s) := by
  unfold execContextRestore
  refine Canonical.next ?_
  split
  · split
    · split
      · exact memoryOk_ite (fun _ => State.restoreInto_memoryOk (State.makeRoom_memoryOk hs)) fun _ => hs
      · exact hs
    · exact hs
  · exact hs

theorem execContextYield_memoryOk {c : CtxId} {s : State} (hs : s.memoryOk) : Canonical (execContextYield c s) := by
  unfold execContextYield
  refine Canonical.next ?_
  split
  · exact memoryOk_ite (fun _ => State.updCtx_memoryOk hs) fun _ => hs
  · exact hs

theorem execPageMigration_memoryOk {asid : Nat} {va : DWord} {ppn : Nat} {s : State} (hs : s.memoryOk) :
    Canonical (execPageMigration asid va ppn s) := by
  unfold execPageMigration
  refine Canonical.next ?_
  split
  · exact hs
  · refine memoryOk_ite (fun _ => hs) fun _ => revokePage_memoryOk (State.memoryOk.mapMem ?_ fun _ w => moveLeaves_wf w _ _)
    exact copyPages_memoryOk (markMoved_memoryOk (clearPage_memoryOk (settleWrites_memoryOk hs)))

theorem execPageUnmap_memoryOk {asid : Nat} {va : DWord} {s : State} (hs : s.memoryOk) :
    Canonical (execPageUnmap asid va s) := by
  unfold execPageUnmap
  refine Canonical.next ?_
  split
  · exact hs
  · refine memoryOk_ite (fun _ => hs) fun _ => revokePage_memoryOk (State.memoryOk.mapMem ?_ fun _ w => clearLeaves_wf w _)
    exact clearPage_memoryOk (settleWrites_memoryOk hs)

theorem execWatchHitByOtherAgent_memoryOk {s : State} (hs : s.memoryOk) : Canonical (execWatchHitByOtherAgent s) := by
  unfold execWatchHitByOtherAgent
  refine Canonical.next ?_
  split
  · exact hs
  · dsimp only
    split
    · exact hs
    · exact memoryOk_ite (fun _ => hs) fun _ =>
        State.focus_memoryOk (State.takeFault_memoryOk (State.focus_memoryOk hs))

theorem execFaultFrameWrite_memoryOk {c : CtxId} {s : State} (hs : s.memoryOk) :
    Canonical (execFaultFrameWrite c s) := by
  unfold execFaultFrameWrite
  refine Canonical.next ?_
  split
  · split
    · exact memoryOk_ite (fun _ => hs) fun _ => State.updCtx_memoryOk hs
    · exact hs
  · exact hs

theorem execFrameRouting_memoryOk {c : CtxId} {choice : FirmwareChoice} {s : State} (hs : s.memoryOk) :
    Canonical (execFrameRouting c choice s) := by
  unfold execFrameRouting
  refine Canonical.next ?_
  split
  · exact hs
  · exact hs
  · dsimp only
    split
    · exact toHandler_memoryOk hs
    · exact memoryOk_ite (fun _ => toHandler_memoryOk hs) fun _ =>
        resumeFrame_memoryOk ⟨writeEntries_wf hs.1 _, hs.2⟩
    · exact memoryOk_ite (fun _ => resumeFrame_memoryOk hs) fun _ => toHandler_memoryOk hs
    · exact resumeCtx_memoryOk (State.restorePlan_memoryOk hs)
    · exact State.loseLaunches_memoryOk hs

theorem execWatchdogExpiry_memoryOk {c : CtxId} {q : SeqId} {s : State} (hs : s.memoryOk) :
    Canonical (execWatchdogExpiry c q s) := by
  unfold execWatchdogExpiry
  refine Canonical.next ?_
  split
  · exact hs
  · split
    · exact hs
    · exact State.focus_memoryOk (State.takeFault_memoryOk (State.focus_memoryOk hs))

theorem execDeviceFatalError_memoryOk {f : Fatal} {s : State} (hs : s.memoryOk) :
    Canonical (execDeviceFatalError f s) := by
  unfold execDeviceFatalError
  refine Canonical.next (memoryOk_ite (fun _ => hs) fun _ => ?_)
  split
  · exact fatalDisables_memoryOk (State.loseLaunches_memoryOk hs)

theorem execSpareLineOrColumn_memoryOk {core : Option (Nat × Nat)} {s : State} (hs : s.memoryOk) :
    Canonical (execSpareLineOrColumn core s) := by
  unfold execSpareLineOrColumn
  refine Canonical.next (memoryOk_ite (fun _ => hs) fun _ => ?_)
  split
  · exact hs
  · exact memoryOk_ite (fun _ => hs) fun _ => hs

theorem execSpareCoreMove_memoryOk {die core : Nat} {s : State} (hs : s.memoryOk) :
    Canonical (execSpareCoreMove die core s) := by
  unfold execSpareCoreMove
  refine Canonical.next ?_
  split
  · exact hs
  · exact memoryOk_ite (fun _ => hs) fun _ => State.replaceCore_memoryOk (State.activate_memoryOk hs)

theorem execIntervalBoundary_memoryOk {s : State} (hs : s.memoryOk) : Canonical (execIntervalBoundary s) :=
  Canonical.next (memoryOk_ite (fun _ => foldl_keeps State.memoryOk _ (fun _ _ hu =>
          pairBoundary_memoryOk hu) _ hs) fun _ => hs)

theorem execHostSubmission_memoryOk {s : State} (hs : s.memoryOk) : Canonical (execHostSubmission s) := by
  refine Canonical.next (memoryOk_ite (fun _ => hs) fun _ => ?_)
  dsimp only
  split
  · have h := acceptPacket_memoryOk.ok hs ‹_›
    exact ⟨Memory.writeN_wf (Memory.writeN_wf h.1 _ _) _ _, h.2⟩
  · have h := acceptPacket_memoryOk.error hs ‹_›
    exact ⟨Memory.writeN_wf h.1 _ _, h.2⟩

theorem execMgmtFreeze_memoryOk {slot : Nat} {s : State} (hs : s.memoryOk) : Canonical (execMgmtFreeze slot s) := by
  unfold execMgmtFreeze
  refine Canonical.next (memoryOk_ite (fun _ => command_memoryOk ?_ hs) fun _ => hs)
  split
  · exact Holds.bind freezeMarkM_memoryOk fun _ => Holds.pure _
  · exact Holds.bind freezeM_memoryOk fun _ => Holds.pure _
  · exact Holds.bind freezeDropM_memoryOk fun _ => Holds.pure _
  · exact Holds.bind freezeContM_memoryOk fun _ => Holds.pure _
  · exact Holds.fault _

theorem execMgmtThaw_memoryOk {slot : Nat} {s : State} (hs : s.memoryOk) : Canonical (execMgmtThaw slot s) :=
  Canonical.next (memoryOk_ite (fun _ => command_memoryOk (Holds.get fun _ _ =>
          Holds.ite (fun _ => Holds.waitFor _) fun _ => Holds.bind (Holds.require _ _) fun _ =>
          Holds.bind (Holds.require _ _) fun _ => Holds.bind (Holds.require _ _) fun _ =>
          Holds.bind thawM_memoryOk fun _ => Holds.pure _) hs) fun _ => hs)

theorem execAttest_memoryOk {slot : Nat} {s : State} (hs : s.memoryOk) : Canonical (execAttest slot s) := by
  refine Canonical.next (memoryOk_ite (fun _ => hs) fun _ => memoryOk_ite (fun _ => ?_) fun _ => ?_)
  · exact memoryOk_ite (fun _ => answerSlot_memoryOk hs) fun _ =>
      State.updMbox_memoryOk (s := { s with attested := s.attested + 1 }) hs
  · exact answerSlot_memoryOk hs.writeN

theorem execUrgent_memoryOk {slot : Nat} {s : State} (hs : s.memoryOk) : Canonical (execUrgent slot s) :=
  Canonical.next (memoryOk_ite (fun _ => answerSlot_memoryOk (foldl_keeps State.memoryOk _ (fun _ _ hu =>
            urgentWith_memoryOk hu) _ hs)) fun _ => hs)

theorem execHostMemoryAccess_memoryOk {a : HostAccess} {s : State} (hs : s.memoryOk) :
    Canonical (execHostMemoryAccess a s) := by
  unfold execHostMemoryAccess
  refine Canonical.next ?_
  split
  · exact hs
  · exact memoryOk_ite (fun _ => ⟨(Memory.writeN_wf hs.1 _ _), hs.2⟩) fun _ => hs

theorem execBootStep_memoryOk {b : BootInput} {s : State} (hs : s.memoryOk) : Canonical (execBootStep b s) := by
  unfold execBootStep
  refine Canonical.next (memoryOk_ite (fun _ => hs) fun _ => memoryOk_ite (fun _ => hs) fun _ => ?_)
  split
  · refine memoryOk_ite (fun _ => ?_) fun _ => hs
    have h : (({ s with images := [] } : State).takeImages b.images).2.memoryOk := hs
    split <;> rename_i e <;> rw [e] at h <;> exact h
  · refine memoryOk_ite (fun _ => ?_) fun _ => hs
    have h : (s.takeImages b.images).2.memoryOk := hs
    split <;> rename_i e <;> rw [e] at h <;> exact h
  · exact memoryOk_ite (fun _ => hs) fun _ => hs
  · refine memoryOk_ite (fun _ => ?_) fun _ => hs
    split
    · exact hs
    · exact memoryOk_ite (fun _ => hs) fun _ => hs
  · exact hs

theorem execIllegalInstruction_memoryOk {s : State} (hs : s.memoryOk) : Canonical (execIllegalInstruction s) := by
  unfold execIllegalInstruction
  refine Canonical.next (memoryOk_ite (fun _ => ?_) fun _ => hs)
  split
  · exact memoryOk_ite (fun _ => State.faultAtWord_memoryOk (Holds.ok nextUnit_memoryOk hs ‹_›)) fun _ => hs
  · exact hs

end Sys2Proof.Machine
end

section

/-! PROOFS. Every step keeps memory canonical (O59, O60). -/

namespace Sys2Proof.Machine

/-- Every instruction and every event; those that need no lemma of their own are their shell and its operation. -/
theorem exec_memoryOk {i : Instr} {s : State} (hs : s.memoryOk) : Canonical (exec i s) := by
  cases i with
  | nop => exact execNop_memoryOk hs
  | halt => exact execHalt_memoryOk hs
  | fence => exact execFence_memoryOk hs
  | tkpost => exact execTkpost_memoryOk hs
  | tkwait => exact execTkwait_memoryOk hs
  | pbt => exact runShared_memoryOk (Holds.get fun _ _ => modSeq_memoryOk) hs
  | brx => exact runTransfer_memoryOk openDelay_memoryOk hs
  | brxd => exact runTransfer_memoryOk (Holds.get fun _ _ => Holds.bind (Holds.modCx fun _ h => h) fun _ =>
        openDelay_memoryOk) hs
  | add => exact runK_memoryOk aluKR_memoryOk hs
  | sub => exact runK_memoryOk aluKR_memoryOk hs
  | and => exact runK_memoryOk aluKR_memoryOk hs
  | or => exact runK_memoryOk aluKR_memoryOk hs
  | xor => exact runK_memoryOk aluKR_memoryOk hs
  | shl => exact runK_memoryOk aluKR_memoryOk hs
  | shr => exact runK_memoryOk aluKR_memoryOk hs
  | sra => exact runK_memoryOk aluKR_memoryOk hs
  | mul => exact runK_memoryOk aluKR_memoryOk hs
  | mulh => exact runK_memoryOk aluKR_memoryOk hs
  | mulhu => exact runK_memoryOk aluKR_memoryOk hs
  | div => exact runK_memoryOk aluKR_memoryOk hs
  | divu => exact runK_memoryOk aluKR_memoryOk hs
  | rem => exact runK_memoryOk aluKR_memoryOk hs
  | min => exact runK_memoryOk aluKR_memoryOk hs
  | max => exact runK_memoryOk aluKR_memoryOk hs
  | addi => exact runK_memoryOk aluKI_memoryOk hs
  | andi => exact runK_memoryOk aluKI_memoryOk hs
  | ori => exact runK_memoryOk aluKI_memoryOk hs
  | xori => exact runK_memoryOk aluKI_memoryOk hs
  | shli => exact runK_memoryOk shiftKI_memoryOk hs
  | shri => exact runK_memoryOk shiftKI_memoryOk hs
  | srai => exact runK_memoryOk shiftKI_memoryOk hs
  | movi => exact runK_memoryOk setX_memoryOk hs
  | movhi => exact runK_memoryOk (Holds.get fun _ _ => setX_memoryOk) hs
  | cmp => exact runK_memoryOk (Holds.get fun _ _ => setQ_memoryOk) hs
  | cmpi => exact runK_memoryOk (Holds.get fun _ _ => setQ_memoryOk) hs
  | qand => exact runK_memoryOk (Holds.bind getQ_memoryOk fun _ => Holds.bind getQ_memoryOk fun _ => setQ_memoryOk) hs
  | qor => exact runK_memoryOk (Holds.bind getQ_memoryOk fun _ => Holds.bind getQ_memoryOk fun _ => setQ_memoryOk) hs
  | qnot => exact runK_memoryOk (Holds.bind getQ_memoryOk fun _ => setQ_memoryOk) hs
  | ldx => exact runK_memoryOk loadX_memoryOk hs
  | stx => exact execStx_memoryOk hs
  | stxTag => exact execStxTag_memoryOk hs
  | ldxp => exact runK_memoryOk loadX_memoryOk hs
  | amo => exact execAmo_memoryOk hs
  | cinv => exact cacheWord_memoryOk hs
  | cwb => exact cacheWord_memoryOk hs
  | pin => exact execPin_memoryOk hs
  | unpin => exact execUnpin_memoryOk hs
  | mfs => exact runK_memoryOk (Holds.get fun _ _ => Holds.modCx fun _ h => h) hs
  | mts => exact execMts_memoryOk hs
  | rdplan => exact runK_memoryOk (Holds.get fun _ _ => Holds.modCx fun _ h => h) hs
  | trap => exact runK_memoryOk (Holds.throw _) hs
  | brk => exact runK_memoryOk (Holds.throw _) hs
  | garr => exact execGarr_memoryOk hs
  | gwait => exact execGwait_memoryOk hs
  | gsync => exact execGsync_memoryOk hs
  | launch => exact execLaunch_memoryOk hs
  | spawn => exact execSpawn_memoryOk hs
  | cpy => exact execCpy_memoryOk hs
  | cpyc => exact execCpyc_memoryOk hs
  | cpywait => exact runK_memoryOk (Holds.get fun _ _ => copyWait_memoryOk) hs
  | cpywaitAll => exact runK_memoryOk copyWait_memoryOk hs
  | cpywaitChain => exact runK_memoryOk copyWait_memoryOk hs
  | ctreadyArm => exact execCtreadyArm_memoryOk hs
  | ctreadyFire => exact execCtreadyFire_memoryOk hs
  | ctreadyGo => exact execCtreadyGo_memoryOk hs
  | ctwait => exact execCtwait_memoryOk hs
  | ctwaitTest => exact runK_memoryOk (Holds.bind waitedTile_memoryOk fun _ => Holds.modCx fun _ h => h) hs
  | boostRel => exact runK_memoryOk boost_memoryOk hs
  | boostMid => exact runK_memoryOk boost_memoryOk hs
  | boostMax => exact runK_memoryOk boost_memoryOk hs
  | freezeMark => exact execFreezeMark_memoryOk hs
  | freeze => exact execFreeze_memoryOk hs
  | freezeDrop => exact execFreezeDrop_memoryOk hs
  | freezeCont => exact execFreezeCont_memoryOk hs
  | thaw => exact execThaw_memoryOk hs
  | resume => exact execResume_memoryOk hs
  | resumeTerm => exact execResumeTerm_memoryOk hs
  | yAdd => exact runLS_memoryOk aluY_memoryOk hs
  | ySub => exact runLS_memoryOk aluY_memoryOk hs
  | yAnd => exact runLS_memoryOk aluY_memoryOk hs
  | yOr => exact runLS_memoryOk aluY_memoryOk hs
  | yXor => exact runLS_memoryOk aluY_memoryOk hs
  | yShl => exact runLS_memoryOk aluY_memoryOk hs
  | yShr => exact runLS_memoryOk aluY_memoryOk hs
  | ySra => exact runLS_memoryOk aluY_memoryOk hs
  | yMin => exact runLS_memoryOk aluY_memoryOk hs
  | yMax => exact runLS_memoryOk aluY_memoryOk hs
  | yAddi => exact runLS_memoryOk (Holds.get fun _ _ => setYz_memoryOk) hs
  | yMovi => exact runLS_memoryOk setYz_memoryOk hs
  | yCmp => exact runLS_memoryOk (Holds.get fun _ _ => setQ_memoryOk) hs
  | yMfs => exact runLS_memoryOk (Holds.get fun _ _ => setYz_memoryOk) hs
  | sbind => exact execSbind_memoryOk hs
  | sset => exact execSset_memoryOk hs
  | lds => exact execLds_memoryOk hs
  | ldso => exact execLdso_memoryOk hs
  | ldg => exact execLdg_memoryOk hs
  | ldz => exact execLdz_memoryOk hs
  | ldb => exact execLdb_memoryOk hs
  | pref => exact runL_memoryOk (transfer_memoryOk (Holds.bind boundFor_memoryOk fun _ => Holds.pure _)) hs
  | bdecl => exact execBdecl_memoryOk hs
  | bwait => exact runLS_memoryOk (Holds.get fun _ _ => Holds.ite (fun _ => Holds.throw _) fun _ =>
        Holds.waitUnless _ _) hs
  | bstateRead => exact runLS_memoryOk (Holds.get fun _ _ => setYz_memoryOk) hs
  | bstatePdone => exact runLS_memoryOk (Holds.bind replayable_memoryOk fun _ => Holds.get fun _ _ =>
        bufAccess_memoryOk) hs
  | bstateCdone => exact runLS_memoryOk (Holds.bind replayable_memoryOk fun _ => Holds.get fun _ _ =>
        bufAccess_memoryOk) hs
  | bstateFree => exact execBstateFree_memoryOk hs
  | ldtf => exact runL_memoryOk (Holds.modify fun _ hu => hu) hs
  | sts => exact execSts_memoryOk hs
  | qst => exact execQst_memoryOk hs
  | stb => exact execStb_memoryOk hs
  | shopen => exact execShopen_memoryOk hs
  | publish => exact execPublish_memoryOk hs
  | atomv => exact execAtomv_memoryOk hs
  | amos => exact execAmos_memoryOk hs
  | bdrain => exact execBdrain_memoryOk hs
  | vadd => exact runCv_memoryOk vector2_memoryOk hs
  | vsub => exact runCv_memoryOk vector2_memoryOk hs
  | vmul => exact runCv_memoryOk vector2_memoryOk hs
  | vfma => exact runCv_memoryOk vector2_memoryOk hs
  | vfms => exact runCv_memoryOk vector2_memoryOk hs
  | vmin => exact runCv_memoryOk vector2_memoryOk hs
  | vmax => exact runCv_memoryOk vector2_memoryOk hs
  | vabs => exact runCv_memoryOk vector1_memoryOk hs
  | vneg => exact runCv_memoryOk vector1_memoryOk hs
  | vand => exact runCv_memoryOk vector2_memoryOk hs
  | vor => exact runCv_memoryOk vector2_memoryOk hs
  | vxor => exact runCv_memoryOk vector2_memoryOk hs
  | vnot => exact runCv_memoryOk vector1_memoryOk hs
  | vshl => exact runCv_memoryOk vector2_memoryOk hs
  | vshr => exact runCv_memoryOk vector2_memoryOk hs
  | vsra => exact runCv_memoryOk vector2_memoryOk hs
  | vmad => exact runCv_memoryOk vector2_memoryOk hs
  | vcmp => exact runCa_memoryOk (Holds.bind src_memoryOk fun _ => Holds.bind src_memoryOk fun _ =>
        Holds.modCx fun _ h => h) hs
  | vsel _ _ _ _ _ c => exact execVsel_memoryOk (x := c) hs
  | vmov => exact runCv_memoryOk (Holds.bind src_memoryOk fun _ => setV_memoryOk) hs
  | vmovi => exact runCv_memoryOk setV_memoryOk hs
  | vcvt => exact runCv_memoryOk (Holds.bind opsCx_memoryOk fun _ => Holds.bind src_memoryOk fun _ =>
        setV_memoryOk) hs
  | vrotr => exact runCv_memoryOk axisMove_memoryOk hs
  | vrotc => exact runCv_memoryOk axisMove_memoryOk hs
  | vbcr => exact runCv_memoryOk axisMove_memoryOk hs
  | vbcc => exact runCv_memoryOk axisMove_memoryOk hs
  | vredr => exact runCv_memoryOk axisReduce_memoryOk hs
  | vredc => exact runCv_memoryOk axisReduce_memoryOk hs
  | vscanr => exact runCv_memoryOk axisReduce_memoryOk hs
  | vscanc => exact runCv_memoryOk axisReduce_memoryOk hs
  | vexp2 => exact runCv_memoryOk special_memoryOk hs
  | vlog2 => exact runCv_memoryOk special_memoryOk hs
  | vrcp => exact runCv_memoryOk special_memoryOk hs
  | vrsq => exact runCv_memoryOk special_memoryOk hs
  | vtanh => exact runCv_memoryOk special_memoryOk hs
  | pand => exact runCa_memoryOk pred2_memoryOk hs
  | por => exact runCa_memoryOk pred2_memoryOk hs
  | pxor => exact runCa_memoryOk pred2_memoryOk hs
  | pnot => exact runCa_memoryOk pred2_memoryOk hs
  | pmov => exact runCa_memoryOk pred2_memoryOk hs
  | pany => exact runCa_memoryOk (Holds.bind opsCx_memoryOk fun _ => setQ_memoryOk) hs
  | pall => exact runCa_memoryOk (Holds.bind opsCx_memoryOk fun _ => setQ_memoryOk) hs
  | pcnt => exact runCa_memoryOk (Holds.bind opsCx_memoryOk fun _ => Holds.modCx fun _ h => h) hs
  | twr => exact runCq_memoryOk (Holds.bind opsCx_memoryOk fun _ => Holds.modCx fun _ h => h) hs
  | trr => exact runCq_memoryOk (Holds.bind opsCx_memoryOk fun _ => Holds.modCx fun _ h => h) hs
  | trc => exact runCq_memoryOk (Holds.bind opsCx_memoryOk fun _ => Holds.modCx fun _ h => h) hs
  | tclr => exact runCq_memoryOk (Holds.modCx fun _ h => h) hs
  | aadd => exact runCq_memoryOk (Holds.bind opsCx_memoryOk fun _ => Holds.modCx fun _ h => h) hs
  | amov => exact runCq_memoryOk (Holds.bind opsCx_memoryOk fun _ => Holds.modCx fun _ h => h) hs
  | apost => exact runCq_memoryOk (Holds.bind opsCx_memoryOk fun _ => Holds.modCx fun _ h => h) hs
  | amodset => exact execAmodset_memoryOk hs
  | aidx => exact runCq_memoryOk (Holds.bind opsCx_memoryOk fun _ => Holds.modCx fun _ h => h) hs
  | aaddi => exact runCa_memoryOk (Holds.bind opsCx_memoryOk fun _ => Holds.modCx fun _ h => h) hs
  | qpush => exact execQpush_memoryOk hs
  | aMfs => exact runCa_memoryOk (Holds.bind opsCx_memoryOk fun _ => Holds.get fun _ _ => Holds.modCx fun _ h => h) hs
  | win => exact execWin_memoryOk hs
  | wcfg => exact execWcfg_memoryOk hs
  | wcfgRd => exact runBank_memoryOk (Holds.bind opsCx_memoryOk fun _ => Holds.modCx fun _ h => h) hs
  | waccRd => exact runBank_memoryOk (Holds.bind accWait_memoryOk fun _ => Holds.modCx fun _ h => h) hs
  | waccWr => exact runBank_memoryOk (Holds.bind accWait_memoryOk fun _ => Holds.bind src_memoryOk fun _ =>
        Holds.modCx fun _ h => h) hs
  | waccClr => exact runBank_memoryOk (Holds.bind accWait_memoryOk fun _ => Holds.modCx fun _ h => h) hs
  | waccEpi => exact execWaccEpi_memoryOk hs
  | wstat => exact execWstat_memoryOk hs
  | lvtset => exact execLvtset_memoryOk hs
  | bcast => exact execBcast_memoryOk hs
  | planb => exact execPlanb_memoryOk hs
  | plane => exact execPlane_memoryOk hs
  | fibexRd => exact runBcast_memoryOk (Holds.get fun _ _ => Holds.modCx fun _ h => h) hs
  | fibexSet => exact execFibexSet_memoryOk hs
  | ldxpReply => exact Canonical.next (answer_memoryOk hs)
  | decoderChunkDone => exact execDecoderChunkDone_memoryOk hs
  | shadowCopyOnFirstWrite => exact Canonical.next (firstWrite_memoryOk hs)
  | windowStaging => exact execWindowStaging_memoryOk hs
  | windowPass => exact execWindowPass_memoryOk hs
  | windowRescale => exact execWindowRescale_memoryOk hs
  | windowAccumulate => exact execWindowAccumulate_memoryOk hs
  | epilogueTile => exact execEpilogueTile_memoryOk hs
  | epilogueOutput => exact execEpilogueOutput_memoryOk hs
  | epilogueTimeout => exact execEpilogueTimeout_memoryOk hs
  | bcastSideband => exact Canonical.next (State.updLight_memoryOk hs)
  | bcastLight => exact Canonical.next (State.updLight_memoryOk hs)
  | planPublish => exact execPlanPublish_memoryOk hs
  | planClose => exact execPlanClose_memoryOk hs
  | planOverrun => exact execPlanOverrun_memoryOk hs
  | planAbort => exact execPlanAbort_memoryOk hs
  | fibreLightLoss => exact Canonical.next hs
  | copyCommandStart => exact execCopyCommandStart_memoryOk hs
  | copyCommandFinish => exact execCopyCommandFinish_memoryOk hs
  | copyBoundOverrun => exact execCopyBoundOverrun_memoryOk hs
  | tileFlagWrite => exact Canonical.next (takeFlag_memoryOk hs)
  | collectiveComplete => exact execCollectiveComplete_memoryOk hs
  | collectiveBoundOverrun => exact execCollectiveBoundOverrun_memoryOk hs
  | collectivePeerFailed => exact execCollectivePeerFailed_memoryOk hs
  | remoteRequest => exact execRemoteRequest_memoryOk hs
  | remoteReply =>
      exact Canonical.next (State.updCtx_memoryOk (acceptTile_memoryOk (acceptStore_memoryOk (answer_memoryOk hs))))
  | linkLaneFailure => exact execLinkLaneFailure_memoryOk hs
  | nodeDispatch => exact execNodeDispatch_memoryOk hs
  | nodeComplete => exact execNodeComplete_memoryOk hs
  | nodeLate => exact execNodeLate_memoryOk hs
  | preemption => exact execPreemption_memoryOk hs
  | bankSwap => exact execBankSwap_memoryOk hs
  | spill => exact execSpill_memoryOk hs
  | contextRestore => exact execContextRestore_memoryOk hs
  | contextYield => exact execContextYield_memoryOk hs
  | pageMigration => exact execPageMigration_memoryOk hs
  | pageUnmap => exact execPageUnmap_memoryOk hs
  | l2LeaseExpiry => exact Canonical.next (dropLines_memoryOk hs)
  | watchHitByOtherAgent => exact execWatchHitByOtherAgent_memoryOk hs
  | faultFrameWrite => exact execFaultFrameWrite_memoryOk hs
  | frameRouting => exact execFrameRouting_memoryOk hs
  | parityReplay => exact Canonical.next hs
  | watchdogExpiry => exact execWatchdogExpiry_memoryOk hs
  | deviceFatalError => exact execDeviceFatalError_memoryOk hs
  | urgentPreemption => exact Canonical.next (urgentOn_memoryOk hs)
  | calibrationRun => exact Canonical.next (memoryOk_ite (fun _ => hs) fun _ => hs)
  | calibrationStale => exact Canonical.next hs
  | spareLineOrColumn => exact execSpareLineOrColumn_memoryOk hs
  | combLaserSwitch => exact Canonical.ite (fun _ => Canonical.next hs) fun _ => execDeviceFatalError_memoryOk hs
  | spareCoreMove => exact execSpareCoreMove_memoryOk hs
  | coreWithdrawal => exact Canonical.next (memoryOk_ite (fun _ => hs) fun _ =>
        State.replaceCore_memoryOk (State.loseLaunches_memoryOk hs))
  | intervalBoundary => exact execIntervalBoundary_memoryOk hs
  | thermalCapChange => exact Canonical.next (memoryOk_ite (fun _ => hs) fun _ => hs)
  | hostSubmission => exact execHostSubmission_memoryOk hs
  | submissionQueueBaseWrite => exact Canonical.next (memoryOk_ite (fun _ => hs) fun _ => hs)
  | ident => exact Canonical.next (memoryOk_ite (fun _ => answerSlot_memoryOk hs) fun _ => hs)
  | mgmtFreeze => exact execMgmtFreeze_memoryOk hs
  | mgmtThaw => exact execMgmtThaw_memoryOk hs
  | attest => exact execAttest_memoryOk hs
  | urgent => exact execUrgent_memoryOk hs
  | mboxOtherOp => exact Canonical.next (memoryOk_ite (fun _ => answerSlot_memoryOk hs) fun _ => hs)
  | registerWindowWrite => exact Canonical.next (memoryOk_ite (fun _ => State.updMbox_memoryOk hs) fun _ => hs)
  | hostMemoryAccess => exact execHostMemoryAccess_memoryOk hs
  | resetRelease => exact Canonical.next (State.afterReset_memoryOk hs)
  | bootStep => exact execBootStep_memoryOk hs
  | illegalInstruction => exact execIllegalInstruction_memoryOk hs
  | debuggerStop => exact Canonical.next (State.updCtx_memoryOk hs)
  | spareHbmPseudoChannel => exact Canonical.next hs
  | fibreLightReturn => exact Canonical.next (memoryOk_ite (fun _ => hs) fun _ => hs)
  | powerLoss => exact Canonical.next ⟨Memory.filter_wf hs.1 _, Tags.filter_wf hs.2 _⟩

theorem after_memoryOk {i : Instr} {s : State} (hs : s.memoryOk) : (after i s).memoryOk := by
  unfold after
  split
  · exact exec_memoryOk hs _ ‹_›
  · exact hs

theorem runBundle_memoryOk {run : Instr → State → State} {is : List Instr} {s : State}
    (hrun : ∀ i s, s.memoryOk → (run i s).memoryOk) (hs : s.memoryOk) : (runBundle run is s).memoryOk :=
  endBundle_memoryOk (foldl_keeps (fun p : State × Nat => p.1.memoryOk) _
    (fun p i (hp : p.1.memoryOk) => hrun i { p.1 with bun := p.1.bun.map (fun b => { b with off := p.2 }) } hp) _ hs)

theorem runUnit_memoryOk {s : State} (hs : s.memoryOk) : Canonical (runUnit s) := by
  unfold runUnit
  split
  · exact Canonical.next (State.faultHere_memoryOk (nextUnit_memoryOk.error hs ‹_›))
  · exact Canonical.next hs
  · exact Canonical.ite (fun _ => exec_memoryOk hs) fun _ =>
      Canonical.next (State.faultAtWord_memoryOk (nextUnit_memoryOk.ok hs ‹_›))
  · exact exec_memoryOk (nextUnit_memoryOk.ok hs ‹_›)
  · exact Canonical.next (runBundle_memoryOk (fun _ _ h => after_memoryOk h) (nextUnit_memoryOk.ok hs ‹_›))

theorem settleWith_memoryOk {bad : Trap → State → State} {c : CtxId} {s : State}
    (hbad : ∀ t u, u.memoryOk → (bad t u).memoryOk)
    (hs : s.memoryOk) : (settleWith bad c s).memoryOk := by
  unfold settleWith
  split
  · refine memoryOk_ite (fun _ => ?_) fun _ => hs
    split
    · exact takeTransfer_memoryOk.ok hs ‹_›
    · exact hbad _ _ (takeTransfer_memoryOk.error hs ‹_›)
    · exact hs
  · exact hs

theorem settle_memoryOk {c : CtxId} {s : State} (hs : s.memoryOk) : (settle c s).memoryOk :=
  settleWith_memoryOk (fun _ _ hu => State.faultHere_memoryOk hu) hs

theorem settleStopped_memoryOk {c : CtxId} {s : State} (hs : s.memoryOk) : (settleStopped c s).memoryOk :=
  settleWith_memoryOk (fun _ _ _ => hs) hs

theorem drain_memoryOk {q : SeqId} {s : State} (hs : s.memoryOk) : Canonical (drain q s) := by
  have hr : Canonical (runUnit { s with cx := { s.cx with status := .running, frameOut := none } }) := runUnit_memoryOk hs
  unfold drain
  dsimp only
  split
  · have ht := hr _ ‹_›
    exact Canonical.ite (fun _ => Canonical.next (settleStopped_memoryOk ht)) fun _ => Canonical.next hs
  · exact hr

theorem issue_memoryOk {c : CtxId} {q : SeqId} {s : State} (hs : s.memoryOk) : Canonical (issue c q s) := by
  unfold issue
  split
  · exact Canonical.next hs
  · have hf : ({ s.focus c with cur := q } : State).memoryOk := State.focus_memoryOk hs
    refine Canonical.ite (fun _ => ?_) fun _ => Canonical.ite (fun _ => drain_memoryOk hf) fun _ => Canonical.next hs
    have hr := runUnit_memoryOk (State.acquireDue_memoryOk hf)
    dsimp only
    split
    · have ht := hr _ ‹_›
      exact Canonical.ite (fun _ => Canonical.next (settle_memoryOk ht)) fun _ => Canonical.next hs
    · exact hr

theorem takeTurn_memoryOk {t : Turn} {s : State} (hs : s.memoryOk) : Canonical (takeTurn t s) := by
  unfold takeTurn
  split
  · exact Canonical.next hs
  · exact Canonical.next (tick_memoryOk hs)
  · exact issue_memoryOk hs
  · exact Canonical.next ⟨writeEntries_wf hs.1 _, hs.2⟩
  · exact Canonical.next (domainEvent_memoryOk hs)
  · exact Canonical.ite (fun _ => exec_memoryOk hs) fun _ => Canonical.next hs

theorem heldTurn_memoryOk {t : Turn} {s : State} (hs : s.memoryOk) : Canonical (heldTurn t s) := by
  unfold heldTurn
  split
  · exact exec_memoryOk hs
  · exact Canonical.next hs

/-- The invariant of log entry 1, for the step of the model. -/
theorem step_memoryOk {s : State} (hs : s.memoryOk) : Canonical (step s) := by
  unfold step
  refine Canonical.ite (fun _ => heldTurn_memoryOk (nextTurn_memoryOk hs)) fun _ => ?_
  split
  · exact exec_memoryOk hs
  · split
    · exact Canonical.next (dueChange_memoryOk hs _ ‹_›)
    · exact takeTurn_memoryOk (nextTurn_memoryOk hs)

/-- Settles O59: neither memory nor tags hold an entry. -/
theorem resetMemoryIsCanonical : Obligations.ResetMemoryIsCanonical := by
  unfold Obligations.ResetMemoryIsCanonical
  exact ⟨rfl, rfl⟩

/-- Settles O60: every function that a step runs keeps the form, each by the functions it is made of. -/
theorem stepsKeepMemoryCanonical : Obligations.StepsKeepMemoryCanonical := by
  unfold Obligations.StepsKeepMemoryCanonical
  exact fun _ t hs h => step_memoryOk hs t h

end Sys2Proof.Machine
end

section

/-! PROOFS. The checks of an access that lies in one page, or whose parts lie in this device's memory (04 R105, R112, R131, R134). -/

namespace Sys2Proof.Machine

variable {s u : State} {ag : Agent} {k : Acc} {va : DWord} {n : Nat} {tr : Tr}

theorem passA_ok (h : inMap tr k va.toNat = true) (s : State) : passA k va tr s = .ok () (s.withA tr) := by
  unfold passA
  rw [if_pos h]
  exact markA_run tr s

theorem cut_onePage (h : va.toNat % 4096 + n ≤ 4096) : cut va n = [(va, n)] := if_pos (by omega)

/-- An access in one page that passes 04 R105 has A set in its leaf. -/
theorem pages_onePage (h : va.toNat % 4096 + n ≤ 4096) (ht : translate s ag.asid k va = .ok tr) (hm : inMap tr k va.toNat = true) :
    pages ag k va n s = .ok [⟨va, n, tr⟩] (s.withA tr) := by
  have fate : partFate s ag.asid k false va = .ok tr := by unfold partFate; rw [ht]; rfl
  have all : translateAll ag k false [(va, n)] s = .ok [⟨va, n, tr⟩] (s.withA tr) := by
    unfold translateAll
    rw [get_run, fate]
    exact (bind_ok (passA_ok hm s)).trans rfl
  unfold pages
  simp only [cut_onePage h, List.length_singleton, Nat.lt_irrefl, and_false, if_false, decide_false]
  exact (bind_ok all).trans rfl

/-- One that does not takes the fault of the first row that fails. -/
theorem pages_onePage_fault {c : Nat} (h : va.toNat % 4096 + n ≤ 4096) (ht : translate s ag.asid k va = .error c) :
    pages ag k va n s = .error (.trap { cause := c, va := va }) s := by
  have fate : partFate s ag.asid k false va = .error c := by unfold partFate; rw [ht]
  have all : translateAll ag k false [(va, n)] s = .error (.trap { cause := c, va := va }) s := by
    unfold translateAll
    rw [get_run, fate]
    rfl
  unfold pages
  simp only [cut_onePage h, List.length_singleton, Nat.lt_irrefl, and_false, if_false, decide_false]
  exact bind_error all

theorem reachCheck_memory {segs : List Seg} (h : ∀ g ∈ segs, g.tr.spad = false) : reachCheck ag segs s = .ok () s := by
  have none : segs.find? (fun g => g.tr.spad) = none := List.find?_eq_none.2 fun g hg => by simp [h g hg]
  unfold reachCheck
  simp only [none]
  rfl

theorem homeCheck_here {segs : List Seg} (h : ∀ g ∈ segs, g.tr.home = s.dev) : homeCheck k segs s = .ok () s := by
  have none : segs.filter (fun g => !g.tr.spad && g.tr.home != s.dev) = [] :=
    List.filter_eq_nil_iff.2 fun g hg => by simp [h g hg]
  unfold homeCheck
  rw [get_run]
  simp only [none, List.find?_nil]
  rfl

/-- The granule of a part that has another tag than its address (04 R131). -/
def Seg.untagged (s : State) (k : Acc) (g : Seg) : Option Nat :=
  if g.tr.tce then (granules (g.tagKey k) g.len).find? (fun r => s.tags.read r != BitVec.ofNat 4 (bits g.va.toNat 59 56)) else none

theorem tagCheck_ok {g : Seg} (h : g.untagged s k = none) : tagCheck k g s = .ok () s := by
  unfold Seg.untagged at h
  unfold tagCheck
  rw [get_run]
  split at h
  · rename_i tce
    simp only [if_pos tce, h]
    rfl
  · rename_i tce
    rw [if_neg tce]
    rfl

theorem tagCheck_fault {g : Seg} {r : Nat} (h : g.untagged s k = some r) :
    tagCheck k g s = .error (.trap
      { cause := 0x089, va := g.va, aux0 := (BitVec.ofNat 4 (bits g.va.toNat 59 56)).toNat + 16 * (s.tags.read r).toNat }) s := by
  unfold Seg.untagged at h
  split at h
  · rename_i tce
    unfold tagCheck
    rw [get_run]
    simp only [if_pos tce, h]
    rfl
  · cases h

/-- No watchpoint watches: nothing is recorded. -/
theorem watchCheck_unwatched (h : ∀ c ∈ s.ctxs, watchHit c ag k va.toNat n = false) : watchCheck ag k va n s = .ok () s := by
  have own : s.ctxs.any (fun c => ownSequencer c ag && watchHit c ag k va.toNat n) = false :=
    List.any_eq_false.2 fun c hc => by simp [h c hc]
  have others : s.ctxs.filter (fun c => !ownSequencer c ag && watchHit c ag k va.toNat n) = [] :=
    List.filter_eq_nil_iff.2 fun c hc => by simp [h c hc]
  have noted : noteHits ag k va n s = s := by unfold noteHits; rw [others, List.map_nil, List.append_nil]
  unfold watchCheck
  rw [get_run, own, noted]
  rfl

theorem watchCheck_fault (h : ∃ c ∈ s.ctxs, ownSequencer c ag = true ∧ watchHit c ag k va.toNat n = true) :
    watchCheck ag k va n s = .error (.trap { cause := 0x08A, va := va }) s := by
  obtain ⟨c, hc, own, hit⟩ := h
  have any : s.ctxs.any (fun c => ownSequencer c ag && watchHit c ag k va.toNat n) = true :=
    List.any_eq_true.2 ⟨c, hc, by rw [own, hit]; rfl⟩
  unfold watchCheck
  rw [get_run, if_pos any]
  rfl

theorem State.PlainAccess.untagged {g : Seg} (h : s.PlainAccess k g.va g.len g.tr) : g.untagged (s.withA g.tr) k = none := by
  unfold Seg.untagged
  split
  · rename_i tce
    exact List.find?_eq_none.2 fun r hr => by simpa [State.withA] using h.tags tce r hr
  · rfl

/-- The checks of a plain access pass, and set A in its leaf. -/
theorem State.PlainAccess.checkAccess {g : Seg} (h : s.PlainAccess k g.va g.len g.tr) :
    checkAccess s.agent k g.va g.len s = .ok [g] (s.withA g.tr) := by
  have passed : pages s.agent k g.va g.len s = .ok [g] (s.withA g.tr) :=
    pages_onePage h.onePage h.found (inMap_of_translate h.found h.here)
  have reach : reachCheck s.agent [g] (s.withA g.tr) = .ok () (s.withA g.tr) := reachCheck_memory fun x hx => List.mem_singleton.1 hx ▸ h.memory
  have home : homeCheck k [g] (s.withA g.tr) = .ok () (s.withA g.tr) := homeCheck_here fun x hx => List.mem_singleton.1 hx ▸ h.here
  have tags : eachM [g] (tagCheck k) (s.withA g.tr) = .ok () (s.withA g.tr) := (bind_ok (tagCheck_ok h.untagged)).trans rfl
  have watch : watchCheck s.agent k g.va g.len (s.withA g.tr) = .ok () (s.withA g.tr) := watchCheck_unwatched h.unwatched
  unfold Machine.checkAccess
  rw [bind_ok passed, bind_ok reach, bind_ok home, bind_ok tags, bind_ok watch]
  rfl

end Sys2Proof.Machine
end

section

/-! PROOFS. Plain accesses read and write memory (04 R106, R110, R121, R137; log entry 3). -/

namespace Sys2Proof.Machine

variable {s u : State} {ag : Agent} {pol : Nat} {g : Seg} {segs : List Seg}

/-- Lines of a test that no line passes: none is written back or dropped. -/
theorem dropLines_none {p : L2Line → Bool} (h : ∀ e ∈ u.l2, p e = false) : dropLines p u = u := by
  have none : u.l2.filter p = [] := List.filter_eq_nil_iff.2 fun e he => by simp [h e he]
  have all : u.l2.filter (fun e => !p e) = u.l2 := List.filter_eq_self.2 fun e he => by simp [h e he]
  unfold dropLines
  rw [none, all]
  rfl

theorem not_mem_dropLines (p : L2Line → Bool) (u : State) : ∀ e ∈ (dropLines p u).l2, p e = false :=
  fun e he => by simpa using (List.mem_filter.1 he).2

/-- The state holds no line of an agent's die. -/
def State.noLines (u : State) (ag : Agent) : Prop := ∀ e ∈ u.l2, (e.die == ag.die) = false

/-- A part of memory at hand: no copy that its home does not know of is between it and an agent, since its page is of kind S and
the agent's die holds no line, or since the die keeps none of it. -/
def Seg.atHand (g : Seg) (ag : Agent) (a : Nat) (u : State) : Prop :=
  g.tr.spad = false ∧ (g.tr.strong = true ∧ u.noLines ag ∨ g.tr.strong = false ∧ cachesAway u ag g.tr a = false)

theorem Seg.atHand.inOrderOf {a : Nat} (h : g.atHand ag a u) : Machine.inOrderOf ag g.tr u = u := by
  unfold Machine.inOrderOf
  obtain ⟨_, ⟨strong, lines⟩ | ⟨weak, _⟩⟩ := h
  · split
    · exact dropLines_none lines
    · rfl
  · rw [weak]
    rfl

theorem Seg.atHand.fetchSeg (h : g.atHand ag (g.key .read) u) :
    Machine.fetchSeg ag pol g u = .ok (u.mem.readN (g.key .read) g.len) u := by
  obtain ⟨mem, ⟨strong, lines⟩ | ⟨_, near⟩⟩ := h
  · have nc : policy g.tr pol = 0 := if_pos strong
    have idle : dropLines (fun e => e.die == ag.die && (linesOf (g.key .read) g.len).contains e.line) u = u :=
      dropLines_none fun e he => by simp [lines e he]
    cases away : cachesAway u ag g.tr (g.key .read)
    case false => exact fetchSeg_memory mem away
    case true =>
      unfold Machine.fetchSeg
      rw [get_run]
      simp only [mem, nc, away, idle, Bool.false_eq_true, if_false, beq_self_eq_true, Bool.and_self, if_true]
      rfl
  · exact fetchSeg_memory mem near

theorem readSegs_atHand (h : ∀ g ∈ segs, g.atHand ag (g.key .read) u) :
    readSegs ag pol segs u = .ok (bytesOf u.mem segs) u := by
  induction segs with
  | nil => rfl
  | cons g gs ih =>
    have one : readSeg ag pol g u = .ok (u.mem.readN (g.key .read) g.len) u := by
      unfold readSeg
      rw [modify_bind, (h g (by simp)).inOrderOf]
      exact (h g (by simp)).fetchSeg
    unfold readSegs
    rw [bind_ok one, bind_ok (ih fun g hg => h g (by simp [hg]))]
    rfl

/-- The first access to an S page gives up the lines of the die; the others find none. -/
theorem readSegs_strong (hs : s.agent.srce < 6) (h : ∀ g ∈ segs, g.tr.spad = false ∧ g.tr.strong = true) :
    readSegs s.agent pol segs s = .ok (bytesOf (s.ordered segs).mem segs) (s.ordered segs) := by
  cases segs with
  | nil => rfl
  | cons g gs =>
    have strong := (h g (by simp)).2
    have ordered : s.ordered (g :: gs) = dropLines (fun e => e.die == s.agent.die) s := by simp [State.ordered, strong]
    have dropped : inOrderOf s.agent g.tr s = dropLines (fun e => e.die == s.agent.die) s := by simp [inOrderOf, strong, hs]
    have lines : (s.ordered (g :: gs)).noLines s.agent := by rw [ordered]; exact not_mem_dropLines _ s
    have hand : ∀ x ∈ g :: gs, x.atHand s.agent (x.key .read) (s.ordered (g :: gs)) :=
      fun x hx => ⟨(h x hx).1, .inl ⟨(h x hx).2, lines⟩⟩
    have again : readSegs s.agent pol (g :: gs) s = readSegs s.agent pol (g :: gs) (s.ordered (g :: gs)) := by
      unfold readSegs readSeg
      show EStateM.bind _ _ _ = EStateM.bind _ _ _
      unfold EStateM.bind
      rw [modify_bind, modify_bind, (hand g (by simp)).inOrderOf, dropped, ordered]
    rw [again, readSegs_atHand hand]

/-- What a write makes of memory before its bytes: D, the order of an S page, and the dirty bitmap (04 R106, R110, R137). -/
def State.prepared (s : State) (g : Seg) (data : List Byte) : State :=
  let s1 := State.ordered { s with mem := setEntryBits s.mem g.tr.entry 0x40 } [g]
  markDirty (markDirty s1 s.cx.id.launch (g.key .write)) s.cx.id.launch (g.key .write + data.length - 1)

theorem State.stored_eq (s : State) (g : Seg) (data : List Byte) :
    s.stored g data = { s.prepared g data with mem := (s.prepared g data).mem.writeN (g.key .write) data } := rfl

theorem State.ordered_weak {strong : Bool} (h : ∀ g ∈ segs, g.tr.strong = strong) (hs : strong = false) : s.ordered segs = s := by
  unfold State.ordered
  rw [if_neg (by simp only [List.any_eq_true, not_exists, not_and]; intro g hg; simp [h g hg, hs])]

theorem State.agent_srce (s : State) : s.agent.srce < 6 := by
  show seqNum s.cur < 6
  cases s.cur <;> decide

theorem State.near.readSegs (h : s.near .read segs) :
    readSegs s.agent pol segs s = .ok (bytesOf (s.ordered segs).mem segs) (s.ordered segs) := by
  obtain ⟨strong, parts⟩ := h
  cases strong
  case true => exact readSegs_strong s.agent_srce fun g hg => ⟨(parts g hg).1, (parts g hg).2.1⟩
  case false =>
    rw [State.ordered_weak (fun g hg => (parts g hg).2.1) rfl]
    exact readSegs_atHand fun g hg => ⟨(parts g hg).1, .inr ⟨(parts g hg).2.1, by simpa using (parts g hg).2.2⟩⟩

theorem mergeByte_all (o b : Byte) : mergeByte o b 0xFF = b := by
  unfold mergeByte
  rw [show (0xFF : Byte) = BitVec.allOnes 8 from rfl, BitVec.not_allOnes, BitVec.and_zero, BitVec.zero_or, BitVec.and_allOnes]

/-- No line of a die changes where there is none. -/
theorem updLine_none {line : Nat} {f : L2Line → L2Line} (h : u.noLines ag) : updLine ag.die line f u = u := by
  have keep : u.l2.map (fun e => if e.die == ag.die && e.line == line then f e else e) = u.l2 :=
    (List.map_congr_left fun e he => by simp only [h e he, Bool.false_and, Bool.false_eq_true, if_false]).trans (List.map_id' _)
  unfold updLine
  rw [keep]

/-- A write that meets no line of the die goes to memory alone. -/
theorem putBytes_home {away : Bool} {p a : Nat} {bs : List Byte} (h : away = false ∨ p ≠ 2 ∧ u.noLines ag) :
    putBytes away p ag 0xFF a bs u = { u with mem := u.mem.writeN a bs } := by
  induction bs generalizing a u with
  | nil => rfl
  | cons b bs ih =>
    have one : putByte away p ag 0xFF a b u = { u with mem := u.mem.write a b } := by
      obtain rfl | ⟨hp, lines⟩ := h
      · simp only [putByte, Bool.false_and, Bool.false_eq_true, if_false, mergeByte_all]
      · have wt : (away && p == 2) = false := by simp [hp]
        have keep : ∀ v : State, v.l2 = u.l2 → updLine ag.die (a / 64) (fun e => e.put (a % 64) b 0xFF false) v = v :=
          fun v hv => updLine_none (by unfold State.noLines; rw [hv]; exact lines)
        simp only [putByte, wt, Bool.false_eq_true, if_false, mergeByte_all, keep, ite_self]
    rw [putBytes, one]
    exact ih h

@[simp] theorem markDirty_l2 (s : State) (launch k : Nat) : (markDirty s launch k).l2 = s.l2 := by
  unfold markDirty
  dsimp only
  split
  · split <;> rfl
  · rfl

@[simp] theorem markDirty_dev (s : State) (launch k : Nat) : (markDirty s launch k).dev = s.dev := by
  unfold markDirty
  dsimp only
  split
  · split <;> rfl
  · rfl

@[simp] theorem State.ordered_dev (s : State) (segs : List Seg) : (s.ordered segs).dev = s.dev := by
  unfold State.ordered
  split <;> rfl

theorem State.ordered_strong (h : segs.any (fun g => g.tr.strong) = true) : s.ordered segs = dropLines (fun e => e.die == s.agent.die) s :=
  if_pos h

theorem inOrderOf_agent (s u : State) (g : Seg) (hd : u.agent.die = s.agent.die) : inOrderOf s.agent g.tr u = u.ordered [g] := by
  have srce := s.agent_srce
  unfold inOrderOf State.ordered
  simp [srce, hd]

/-- After the preparation of a write the part is at hand. -/
theorem State.near.prepared {data : List Byte} (h : s.near .write [g]) : g.atHand s.agent (g.key .write) (s.prepared g data) := by
  obtain ⟨strong, parts⟩ := h
  obtain ⟨mem, kind, home⟩ := parts g (by simp)
  refine ⟨mem, ?_⟩
  cases strong
  case true =>
    refine .inl ⟨kind, fun e he => ?_⟩
    simp only [State.prepared, markDirty_l2, State.ordered_strong (segs := [g]) (by simp [kind])] at he
    exact not_mem_dropLines _ _ e he
  case false =>
    refine .inr ⟨kind, ?_⟩
    have same : (s.prepared g data).dev = s.dev := by simp only [State.prepared, markDirty_dev, State.ordered_dev]
    have away : cachesAway s s.agent g.tr (g.key .write) = false := by simpa using home
    unfold cachesAway at away ⊢
    rw [same]
    exact away

/-- A write to a part at hand goes to memory alone, whatever its policy. -/
theorem putBytes_atHand {data : List Byte} {a : Nat} (h : g.atHand ag a u) :
    putBytes (cachesAway u ag g.tr a) (writePolicy u ag g.tr a pol) ag 0xFF a data
      (if cachesAway u ag g.tr a && writePolicy u ag g.tr a pol == 0 then
        dropLines (fun e => e.die == ag.die && (linesOf a data.length).contains e.line) u else u) =
    { u with mem := u.mem.writeN a data } := by
  obtain ⟨_, ⟨strong, lines⟩ | ⟨_, near⟩⟩ := h
  · have nc : writePolicy u ag g.tr a pol = 0 := by simp [writePolicy, policy, strong]
    have idle : dropLines (fun e => e.die == ag.die && (linesOf a data.length).contains e.line) u = u :=
      dropLines_none fun e he => by simp only [lines e he, Bool.false_and]
    simp only [nc, idle, ite_self]
    exact putBytes_home (.inr ⟨by decide, lines⟩)
  · simp only [near, Bool.false_and, Bool.false_eq_true, if_false]
    exact putBytes_home (.inl rfl)

theorem State.near.writeSegs {data : List Byte} (h : s.near .write [g]) (hl : data.length = g.len) (h0 : 0 < g.len) :
    writeSegs s.agent pol .write [g] data s = .ok () (s.stored g data) := by
  have mem : g.tr.spad = false := by obtain ⟨_, parts⟩ := h; exact (parts g (by simp)).1
  have hand := h.prepared (data := data)
  have ordered : inOrderOf s.agent g.tr (setD g.tr.entry s) = State.ordered { s with mem := setEntryBits s.mem g.tr.entry 0x40 } [g] :=
    inOrderOf_agent s _ g rfl
  have launch : s.agent.ctx.launch = s.cx.id.launch := rfl
  have some : data.isEmpty = false := by cases data with | nil => simp at hl; omega | cons => rfl
  have one : writeSegBits s.agent pol .write 0xFF g data s = .ok () (s.stored g data) := by
    unfold writeSegBits
    rw [get_run, mem, if_neg Bool.false_ne_true, markD, modify_bind, modify_bind, ordered, get_run]
    simp only [show (Acc.write == Acc.shadow) = false from rfl, Bool.false_and, Bool.false_eq_true, if_false, some, set_run, launch]
    rw [State.stored_eq, ← putBytes_atHand hand]
    rfl
  unfold Machine.writeSegs writeSegsBits
  rw [List.take_of_length_le hl.le, bind_ok one]
  rfl

/-- Settles O16: the checks find nothing to fault and set A, and a part at hand is read from memory and written to memory. -/
theorem plainAccessesReadAndWriteMemory : Obligations.PlainAccessesReadAndWriteMemory := by
  unfold Obligations.PlainAccessesReadAndWriteMemory
  exact fun s pol segs g k data => ⟨fun h => h.checkAccess, fun h => h.readSegs, fun h hl h0 => h.writeSegs hl h0⟩

end Sys2Proof.Machine
end

section

/-! PROOFS. Words of K whose operation faults, or leaves the sequencer where it stood. -/

namespace Sys2Proof.Machine

variable {s u : State} {op : M Unit} {t : Trap}

/-- A token given back after it was taken. -/
theorem Ctx.setTokens_takenBy {c : Ctx} {q : SeqId} {tk : BitVec 3} {i : Nat} (hw : c.openField q tk = some i) (h0 : 0 < c.tokens i)
    {x : Ctx} (hx : x.tok = (c.takenBy q tk).tok) : x.setTokens i (x.tokens i + 1) = { x with tok := c.tok } := by
  have taken : (c.takenBy q tk).tok = (c.setTokens i (c.tokens i - 1)).tok := by simp only [Ctx.takenBy, hw]
  by_cases h : i < 12
  case neg => exact absurd h0 (by simp [Ctx.tokens, h])
  case pos =>
    have count : x.tokens i = c.tokens i - 1 := by
      have small : c.tokens i < 16 := by simp only [Ctx.tokens, h, dif_pos]; exact BitVec.isLt _
      simp only [Ctx.tokens, Ctx.setTokens, h, dif_pos, hx, taken, Vector.getElem_set_self, BitVec.toNat_ofNat] at small ⊢
      omega
    have back : BitVec.ofNat 4 (c.tokens i - 1 + 1) = c.tok[i] := by
      rw [Nat.sub_add_cancel h0]
      simp only [Ctx.tokens, h, dif_pos, BitVec.ofNat_toNat, BitVec.setWidth_eq]
    have restored : x.tok.set i (BitVec.ofNat 4 (c.tokens i - 1 + 1)) = c.tok := by
      rw [hx, taken, back]
      simp [Ctx.setTokens, h]
    simp only [Ctx.setTokens, h, dif_pos, count, restored]

/-- A word whose effect faults gives its token back and takes the fault. -/
theorem runWord_trap {q : SeqId} {qp tk : BitVec 3} {words : Nat} (hi : s.Issues q qp tk)
    (hop : op (s.started q tk) = .error (.trap t) u) (hr : t.retires = false) (htok : u.cx.tok = (s.started q tk).cx.tok) :
    runWord qp tk words op s = (u.tokensOf s).faultHere t := by
  obtain ⟨hf, _, hq, ht, _⟩ := hi
  subst hf
  unfold runWord
  cases hw : s.cx.openField s.cur tk with
  | none =>
    have same : s.started s.cur tk = s := by unfold State.started Ctx.takenBy; rw [hw]
    rw [same] at hop htok
    have tokens : u.tokensOf s = u := by unfold State.tokensOf; rw [← htok]
    simp [hq, hop, hr, tokens]
  | some i =>
    have h0 : s.cx.tokens i ≠ 0 := by have := ht i hw; omega
    have taken : s.started s.cur tk = { s with cx := s.cx.setTokens i (s.cx.tokens i - 1) } := by
      unfold State.started Ctx.takenBy; rw [hw]
    have back : u.cx.setTokens i (u.cx.tokens i + 1) = { u.cx with tok := s.cx.tok } :=
      Ctx.setTokens_takenBy hw (ht i hw) htok
    rw [taken] at hop
    simp [hq, hop, hr, h0, back, State.tokensOf]

theorem runK_trap {h : Hq} {words : Nat} (hi : s.Issues .k h.qp h.tk) (hop : op (s.started .k h.tk) = .error (.trap t) u)
    (hr : t.retires = false) (htok : u.cx.tok = (s.started .k h.tk).cx.tok) :
    runK h words op s = .next ((u.tokensOf s).faultHere t) := by
  unfold runK
  rw [if_pos hi.focus, runWord_trap hi hop hr htok]

/-- A word whose effect leaves the sequencer where it stood completes. -/
theorem runK_stands {h : Hq} {words : Nat} (hi : s.Issues .k h.qp h.tk) (hop : op (s.started .k h.tk) = .ok () u)
    (hu : (s.started .k h.tk).Stands .k u) : runK h words op s = .next (u.retired .k h.tk words) := by
  obtain ⟨id, tok, seq, cur⟩ := hu
  refine runK_ok hi hop (by simpa [State.started] using id) (by rw [cur]; exact hi.focus) ?_ ?_
  · intro i hp
    have room := hi.room_taken hp
    have same : u.cx.tok = (s.cx.takenBy .k h.tk).tok := tok
    simpa only [Ctx.tokens, same] using room
  · rw [seq, State.started_seq]
    cases (s.cx.seq .k).pend <;> simp

/-- A change of the machine that keeps what accesses keep, and then of a register x, leaves every sequencer where it stood. -/
theorem State.stands_wx (hk : u.kept = s.kept) (q : SeqId) (d : BitVec 5) (v : DWord) :
    s.Stands q { u with cx := u.cx.wx d v } := by
  obtain ⟨id, tok, seq, cur⟩ := State.stands_of_kept hk q
  exact ⟨by simpa using id, by simpa using tok, by simpa [Ctx.seq] using seq, cur⟩

theorem State.Stands.of_kept {q : SeqId} {v : State} (h : s.Stands q u) (hk : v.kept = u.kept) : s.Stands q v := by
  obtain ⟨id, tok, seq, cur⟩ := State.stands_of_kept hk q
  exact ⟨id.trans h.id, tok.trans h.tok, seq.trans h.seq, cur.trans h.cur⟩

theorem State.kept_acq (so : BitVec 4) (s : State) : (State.acq so s).kept = s.kept := by
  unfold State.acq
  exact kept_ite (kept_acquired _ s) rfl

theorem State.kept_rel (so : BitVec 4) (s : State) : (State.rel so s).kept = s.kept := by
  unfold State.rel
  exact kept_ite (kept_released _ s) rfl

theorem acqOf_run (so : BitVec 4) (s : State) : acqOf so s = .ok () (State.acq so s) := by
  unfold acqOf State.acq
  split <;> rfl

theorem relOf_bind {β : Type} (so : BitVec 4) (f : Unit → M β) (s : State) : (relOf so >>= f) s = f () (State.rel so s) := by
  unfold relOf State.rel
  split <;> rfl

theorem State.agent_kept (s : State) : s.kept.agent = s.agent := rfl

theorem State.agent_of_kept (h : u.kept = s.kept) : u.agent = s.agent := by rw [← u.agent_kept, h, s.agent_kept]

@[simp] theorem State.started_agent (s : State) (q : SeqId) (tk : BitVec 3) : (s.started q tk).agent = s.agent := by
  unfold State.agent
  simp only [State.started_seq, State.started_cur]
  simp [Ctx.agent, Ctx.core, State.started]

theorem State.remote_of_kept (h : u.kept = s.kept) : u.cx.remote = s.cx.remote :=
  (congrArg (fun v : State => v.cx.remote) h :)
theorem State.dev_of_kept (h : u.kept = s.kept) : u.dev = s.dev :=
  (congrArg (fun v : State => v.dev) h :)
theorem State.tok_of_kept (h : u.kept = s.kept) : u.cx.tok = s.cx.tok :=
  (congrArg (fun v : State => v.cx.tok) h :)

end Sys2Proof.Machine
end

section

/-! PROOFS. K's accesses to memory of this device (04 R105, R112, R131, R134; 06 R187 to R192). -/

namespace Sys2Proof.Machine

variable {s s1 u : State} {k : Acc} {va : DWord} {n pol : Nat} {op : RemoteOp} {parks : Bool} {segs : List Seg} {t : Trap}

/-- An access whose checks pass is performed. -/
theorem State.Checked.kAccess (h : s.Checked k va n segs s1) (hr : s.cx.remote = none) :
    kAccess k va n pol op parks s = kPerform s.agent pol op segs s1 := by
  obtain ⟨checks, memory, here⟩ := h
  unfold Machine.checkAccess at checks
  obtain ⟨segs', v, passed, checks⟩ := of_bind_ok checks
  obtain ⟨⟨⟩, v1, reach, checks⟩ := of_bind_ok checks
  obtain ⟨⟨⟩, v2, home, checks⟩ := of_bind_ok checks
  obtain ⟨⟨⟩, v3, tags, checks⟩ := of_bind_ok checks
  obtain ⟨⟨⟩, v4, watch, checks⟩ := of_bind_ok checks
  cases checks
  have dev : v.dev = s.dev := State.dev_of_kept ((pages_keeps _ _ _ _).ok passed)
  cases (reachCheck_memory memory).symm.trans reach
  cases (homeCheck_here fun g hg => by rw [here g hg, dev]).symm.trans home
  have spad : segs.any (fun g => g.tr.spad) = false := List.any_eq_false.2 fun g hg => by simp [memory g hg]
  have away : segs.any (fun g => g.away v) = false := List.any_eq_false.2 fun g hg => by simp [Seg.away, here g hg, dev]
  unfold Machine.kAccess
  rw [get_run]
  simp only [hr]
  rw [bind_ok passed]
  simp only [spad, Bool.false_eq_true, if_false]
  rw [get_run]
  simp only [away, Bool.false_eq_true, if_false]
  rw [bind_ok tags, bind_ok watch]

/-- How the checks of an access that fails go: its page fails 04 R105, or is a scratchpad page, or a tag or a watchpoint stops it. -/
theorem State.AccessFails.checks (h : s.AccessFails k va n t u) :
    pages s.agent k va n s = .error (.trap t) u ∨
    ∃ g : Seg, pages s.agent k va n s = .ok [g] u ∧
      (g.tr.spad = true ∧ t = { cause := 0x091, va := va } ∨
       g.tr.spad = false ∧ g.tr.home = u.dev ∧
        (tagCheck k g u = .error (.trap t) u ∧ t.cause = 0x089 ∨
         tagCheck k g u = .ok () u ∧ watchCheck s.agent k va n u = .error (.trap t) u)) := by
  obtain ⟨onePage, ⟨c, fails, rfl, rfl⟩ | ⟨tr, found, spad, rfl, rfl⟩ | ⟨tr, found, memory, here, rfl, other⟩⟩ := h
  · exact .inl (pages_onePage_fault onePage fails)
  · exact .inr ⟨⟨va, n, tr⟩, pages_onePage onePage found (by simp [inMap, spad]), .inl ⟨spad, rfl⟩⟩
  · refine .inr ⟨⟨va, n, tr⟩, pages_onePage onePage found (inMap_of_translate found here), .inr ⟨memory, here, ?_⟩⟩
    change (match Seg.untagged (s.withA tr) k ⟨va, n, tr⟩ with | some r => _ | none => _) at other
    cases granule : Seg.untagged (s.withA tr) k ⟨va, n, tr⟩ with
    | some r =>
      rw [granule] at other
      exact .inl ⟨other ▸ tagCheck_fault granule, other ▸ rfl⟩
    | none =>
      rw [granule] at other
      obtain ⟨⟨c, hc, core, hit⟩, rfl⟩ := other
      refine .inr ⟨tagCheck_ok granule, watchCheck_fault ⟨c, hc, ?_, hit⟩⟩
      have srce : s.agent.srce < 4 := by
        show seqNum s.cur < 4
        cases s.cur <;> decide
      have own : c.core = (s.agent.die, s.agent.core) := core
      simp [ownSequencer, own, srce]

theorem State.AccessFails.retires (h : s.AccessFails k va n t u) : t.retires = false := by
  obtain ⟨-, ⟨c, -, rfl, -⟩ | ⟨tr, -, -, rfl, -⟩ | ⟨tr, -, -, -, -, other⟩⟩ := h
  · rfl
  · rfl
  · dsimp only at other
    split at other
    · rw [other]
    · rw [other.2]

theorem State.AccessFails.cx (h : s.AccessFails k va n t u) : u.cx = s.cx := by
  obtain ⟨-, ⟨c, -, -, rfl⟩ | ⟨tr, -, -, -, rfl⟩ | ⟨tr, -, -, -, rfl, -⟩⟩ := h <;> rfl

/-- An access that fails a check takes its fault. -/
theorem State.AccessFails.kAccess (h : s.AccessFails k va n t u) (hr : s.cx.remote = none) :
    kAccess k va n pol op parks s = .error (.trap t) u := by
  unfold Machine.kAccess
  rw [get_run]
  simp only [hr]
  obtain fails | ⟨g, passed, ⟨spad, rfl⟩ | ⟨memory, here, checks⟩⟩ := h.checks
  · rw [bind_error fails]
  · rw [bind_ok passed]
    simp only [List.any_cons, List.any_nil, spad, Bool.or_false, if_true]
    rfl
  · rw [bind_ok passed]
    simp only [List.any_cons, List.any_nil, memory, Bool.or_false, Bool.false_eq_true, if_false]
    rw [get_run]
    have away : g.away u = false := by simp [Seg.away, here]
    simp only [away, Bool.false_eq_true, if_false]
    obtain ⟨tag, -⟩ | ⟨tag, watch⟩ := checks
    · exact bind_error (bind_error tag)
    · rw [bind_ok (show eachM [g] (tagCheck k) u = .ok () u from (bind_ok tag).trans rfl), bind_error watch]

end Sys2Proof.Machine
end

section

/-! PROOFS. Scalar memory of K (06 R188 to R192). -/

namespace Sys2Proof.Machine

variable {s s1 s2 u : State} {h : Hq} {d a : BitVec 5} {pol : BitVec 2} {so : BitVec 4} {sz : BitVec 3} {imm : BitVec 32}
  {segs : List Seg} {t : Trap} {k : Acc} {va : DWord} {n : Nat}

@[simp] theorem State.started_kAddr (s : State) (q : SeqId) (tk : BitVec 3) (a : BitVec 5) (imm : BitVec 32) :
    kAddr (s.started q tk).cx a imm = kAddr s.cx a imm := by simp [kAddr, State.started]

@[simp] theorem State.started_remote (s : State) (q : SeqId) (tk : BitVec 3) : (s.started q tk).cx.remote = s.cx.remote :=
  Ctx.takenBy_remote ..

@[simp] theorem State.started_rx (s : State) (q : SeqId) (tk : BitVec 3) (i : BitVec 5) : (s.started q tk).cx.rx i = s.cx.rx i :=
  Ctx.takenBy_rx ..

theorem State.Checked.kept (hc : s.Checked k va n segs s1) : s1.kept = s.kept := (checkAccess_keeps _ _ _ _).ok hc.checks

theorem amoAt_keeps (ag : Agent) (g : Seg) (op n v w : Nat) : Keeps (amoAt ag g op n v w) := by
  intro P
  unfold amoAt
  refine Holds.bind (Keeps.modify (kept_inOrderOf ag g.tr) P) fun _ => Holds.bind (Keeps.modify (kept_dropLines _) P) fun _ =>
    Holds.get fun _ _ => ?_
  dsimp only
  split
  · exact Holds.pure _
  · exact Holds.bind (markD_keeps g.tr P) fun _ => Holds.bind (Keeps.modify (fun s => kept_markDirty s _ _) P) fun _ =>
      Holds.bind (Keeps.modify (fun s => kept_mem s _) P) fun _ => Holds.pure _

/-- The operation of LDX and LDXP, once its access goes on. -/
theorem loadX_ok {parks : Bool} {v : Nat} (hu : s.unplanned)
    (access : kAccess .read (kAddr s.cx a imm) (sizeBytes sz) pol.toNat .load parks s = .ok v s2) :
    loadX parks d a pol so sz imm s = .ok () (State.acq so { s2 with cx := s2.cx.wx d (extendLoad sz v) }) := by
  unfold loadX
  rw [replayable_bind hu, get_run, bind_ok access, modCx_bind, acqOf_run]

theorem loadX_fault {parks : Bool} (hu : s.unplanned) (hr : s.cx.remote = none)
    (hf : s.AccessFails .read (kAddr s.cx a imm) (sizeBytes sz) t u) : loadX parks d a pol so sz imm s = .error (.trap t) u := by
  unfold loadX
  rw [replayable_bind hu, get_run, bind_error (hf.kAccess hr)]

/-- Settles O17: a checked access reads its parts and x[xd] takes them; one that fails a check gives back its token and faults. -/
theorem scalarLoadsComplete : Obligations.ScalarLoadsComplete := by
  unfold Obligations.ScalarLoadsComplete
  intro s i h d a pol so sz imm segs b s1 s2 hi issues unplanned remote
  have unplanned' := unplanned.started .k h.tk
  have remote' : (s.started .k h.tk).cx.remote = none := by simpa using remote
  have word : ∃ parks, exec i s = runK h 2 (loadX parks d a pol so sz imm) s := by
    obtain rfl | rfl := hi
    · exact ⟨false, rfl⟩
    · exact ⟨true, rfl⟩
  obtain ⟨parks, word⟩ := word
  refine ⟨fun checked read => ?_, fun t u fails => ?_⟩
  · have access : kAccess .read (kAddr (s.started .k h.tk).cx a imm) (sizeBytes sz) pol.toNat .load parks (s.started .k h.tk)
        = .ok (leNat b) s2 := by
      rw [State.started_kAddr, checked.kAccess remote', State.started_agent]
      unfold kPerform
      exact (bind_ok read).trans rfl
    have kept : s2.kept = (s.started .k h.tk).kept := ((readSegs_keeps _ _ _).ok read).trans checked.kept
    rw [word]
    exact runK_stands issues (loadX_ok unplanned' access) ((State.stands_wx kept .k d _).of_kept (State.kept_acq so _))
  · rw [word]
    refine runK_trap issues (loadX_fault unplanned' remote' ?_) fails.retires (by rw [fails.cx])
    rw [State.started_kAddr]
    exact fails

theorem State.rel_remote (so : BitVec 4) (s : State) : (s.rel so).cx.remote = s.cx.remote := State.remote_of_kept (State.kept_rel so s)
theorem State.rel_agent (so : BitVec 4) (s : State) : (s.rel so).agent = s.agent := State.agent_of_kept (State.kept_rel so s)
theorem State.rel_dev (so : BitVec 4) (s : State) : (s.rel so).dev = s.dev := State.dev_of_kept (State.kept_rel so s)
theorem State.rel_tok (so : BitVec 4) (s : State) : (s.rel so).cx.tok = s.cx.tok := State.tok_of_kept (State.kept_rel so s)

/-- The operation of STX after its plan check, release and address. -/
theorem execStx_of_access {r : EStateM.Result Stop State Nat} (hu : s.unplanned)
    (access : kAccess .write (kAddr s.cx a imm) (sizeBytes sz) pol.toNat (.store (natBytes (sizeBytes sz) (s.cx.rx d).toNat)) false
      ((s.started .k h.tk).rel so) = r) :
    ∃ op : M Unit, exec (.stx h d a pol so sz imm) s = runK h 2 op s ∧
      (∀ v t, r = .ok v t → op (s.started .k h.tk) = .ok () t) ∧ (∀ e t, r = .error e t → op (s.started .k h.tk) = .error e t) := by
  refine ⟨_, rfl, fun v t hr => ?_, fun e t hr => ?_⟩ <;>
    rw [replayable_bind (hu.started .k h.tk), get_run, relOf_bind, State.started_kAddr, State.started_rx]
  · exact (bind_ok (access.trans hr)).trans rfl
  · exact bind_error (access.trans hr)

theorem execStx_ok (issues : s.Issues .k h.qp h.tk) (hu : s.unplanned) (hr : s.cx.remote = none)
    (checked : ((s.started .k h.tk).rel so).Checked .write (kAddr s.cx a imm) (sizeBytes sz) segs s1)
    (written : writeSegs s.agent pol.toNat .write segs (natBytes (sizeBytes sz) (s.cx.rx d).toNat) s1 = .ok () s2) :
    exec (.stx h d a pol so sz imm) s = .next (s2.retired .k h.tk 2) := by
  obtain ⟨op, word, goes, -⟩ := execStx_of_access (h := h) (a := a) (imm := imm) (sz := sz) (pol := pol) (d := d) (so := so) hu rfl
  have access := checked.kAccess (pol := pol.toNat) (op := .store (natBytes (sizeBytes sz) (s.cx.rx d).toNat)) (parks := false)
    (by simpa [State.rel_remote] using hr)
  rw [State.rel_agent, State.started_agent] at access
  have kept : s2.kept = (s.started .k h.tk).kept :=
    ((writeSegs_keeps _ _ _ _ _).ok written).trans (checked.kept.trans (State.kept_rel so _))
  rw [word]
  refine runK_stands issues (goes 0 s2 ?_) (State.stands_of_kept kept .k)
  rw [access]
  exact (bind_ok written).trans rfl

theorem execStx_fault (issues : s.Issues .k h.qp h.tk) (hu : s.unplanned) (hr : s.cx.remote = none)
    (fails : ((s.started .k h.tk).rel so).AccessFails .write (kAddr s.cx a imm) (sizeBytes sz) t u) :
    exec (.stx h d a pol so sz imm) s = .next ((u.tokensOf s).faultHere t) := by
  obtain ⟨op, word, -, stops⟩ := execStx_of_access (h := h) (a := a) (imm := imm) (sz := sz) (pol := pol) (d := d) (so := so) hu rfl
  rw [word]
  exact runK_trap issues (stops _ _ (fails.kAccess (by simpa [State.rel_remote] using hr))) fails.retires
    (by rw [fails.cx, State.rel_tok])

/-- What STX.tag does from its address, in the machine that its release leaves. -/
def stxTagFrom (ag : Agent) (va : DWord) (tag : BitVec 4) : M Unit := do
  let segs ← pages ag .write va 32
  if segs.any (fun g => g.tr.spad) then faultAt 0x091 va
  else do
    homeCheck .write segs
    watchCheck ag .write va 32
    eachM segs (fun g => do
      modify (inOrderOf ag g.tr)
      modify (fun s1 => { s1 with tags := s1.tags.write (g.key .write / 32) tag }))

theorem execStxTag_eq (hu : s.unplanned)
    (hva : va = kAddr s.cx a imm - BitVec.ofNat 64 ((kAddr s.cx a imm).toNat % 32)) :
    ∃ op : M Unit, exec (.stxTag h d a so imm) s = runK h 2 op s ∧
      op (s.started .k h.tk) = stxTagFrom s.agent va ((s.cx.rx d).setWidth 4) ((s.started .k h.tk).rel so) := by
  refine ⟨_, rfl, ?_⟩
  rw [replayable_bind (hu.started .k h.tk), get_run, relOf_bind, State.started_kAddr, State.started_rx, State.started_agent, ← hva]
  rfl

theorem State.AccessFails.stxTagFrom {tag : BitVec 4} (fails : s.AccessFails .write va 32 t u) (ht : t.cause ≠ 0x089) :
    stxTagFrom s.agent va tag s = .error (.trap t) u := by
  unfold Machine.stxTagFrom
  obtain fault | ⟨g, passed, ⟨spad, rfl⟩ | ⟨memory, here, ⟨-, tag⟩ | ⟨-, watch⟩⟩⟩ := fails.checks
  · exact bind_error fault
  · rw [bind_ok passed]
    simp only [List.any_cons, List.any_nil, spad, Bool.or_false, if_true]
    rfl
  · exact absurd tag ht
  · rw [bind_ok passed]
    simp only [List.any_cons, List.any_nil, memory, Bool.or_false, Bool.false_eq_true, if_false]
    rw [bind_ok (homeCheck_here fun x hx => List.mem_singleton.1 hx ▸ here)]
    exact bind_error watch

theorem stxTagFrom_ok {tag : BitVec 4} {g : Seg} (passed : pages s.agent .write va 32 s = .ok [g] s1) (memory : g.tr.spad = false)
    (here : g.tr.home = s.dev) (watch : watchCheck s.agent .write va 32 s1 = .ok () s2) :
    stxTagFrom s.agent va tag s = .ok () { s2.ordered [g] with tags := s2.tags.write (g.key .write / 32) tag } := by
  have kept : s2.kept = s.kept := ((watchCheck_keeps _ _ _ _).ok watch).trans ((pages_keeps _ _ _ _).ok passed)
  have dev : g.tr.home = s1.dev := here.trans (State.dev_of_kept ((pages_keeps _ _ _ _).ok passed)).symm
  have ordered : inOrderOf s.agent g.tr s2 = s2.ordered [g] := inOrderOf_agent s s2 g (by rw [State.agent_of_kept kept])
  have tags : (s2.ordered [g]).tags = s2.tags := by
    unfold State.ordered
    split <;> rfl
  unfold Machine.stxTagFrom
  rw [bind_ok passed]
  simp only [List.any_cons, List.any_nil, memory, Bool.or_false, Bool.false_eq_true, if_false]
  rw [bind_ok (homeCheck_here fun x hx => List.mem_singleton.1 hx ▸ dev), bind_ok watch]
  unfold eachM
  refine (bind_ok (a := ()) (t := { s2.ordered [g] with tags := s2.tags.write (g.key .write / 32) tag }) ?_).trans rfl
  rw [modify_bind, ordered, modify_run, tags]

/-- Settles O18: STX as a checked access after its release, and STX.tag as the same checks but for tags. -/
theorem scalarStoresComplete : Obligations.ScalarStoresComplete := by
  unfold Obligations.ScalarStoresComplete
  intro s s1 s2 h d a pol so sz imm segs va g issues unplanned
  refine ⟨fun remote checked written => execStx_ok issues unplanned remote checked written,
    fun t u remote fails => execStx_fault issues unplanned remote fails, fun t u hva fails ht => ?_, fun hva passed memory here watch => ?_⟩
  · obtain ⟨op, word, run⟩ := execStxTag_eq (h := h) (d := d) (so := so) unplanned hva
    have stops := fails.stxTagFrom (tag := (s.cx.rx d).setWidth 4) ht
    rw [State.rel_agent, State.started_agent] at stops
    rw [word]
    exact runK_trap issues (run.trans stops) fails.retires (by rw [fails.cx, State.rel_tok])
  · obtain ⟨op, word, run⟩ := execStxTag_eq (h := h) (d := d) (so := so) unplanned hva
    have agent : ((s.started .k h.tk).rel so).agent = s.agent := by rw [State.rel_agent, State.started_agent]
    have dev : ((s.started .k h.tk).rel so).dev = s.dev := State.rel_dev so _
    rw [← agent] at passed watch
    have goes := stxTagFrom_ok (tag := (s.cx.rx d).setWidth 4) passed memory (here.trans dev.symm) watch
    have kept : s2.kept = (s.started .k h.tk).kept :=
      ((watchCheck_keeps _ _ _ _).ok watch).trans (((pages_keeps _ _ _ _).ok passed).trans (State.kept_rel so _))
    have ordered : (s2.ordered [g]).kept = s2.kept := by
      unfold State.ordered
      exact kept_ite (kept_dropLines _ s2) rfl
    rw [agent] at goes
    rw [word]
    exact runK_stands issues (run.trans goes) ((State.stands_of_kept (ordered.trans kept) .k).of_kept rfl)

/-- The operation of AMO where its address is aligned: a checked access after the release, whose old value x[xd] takes. -/
theorem execAmo_of_access {op : BitVec 4} {r : EStateM.Result Stop State Nat} (hu : s.unplanned)
    (ha : (s.cx.rx a).toNat % sizeBytes sz = 0)
    (access : kAccess .atomic (s.cx.rx a) (sizeBytes sz) 0 (.amo op.toNat ((s.cx.rx d).toNat % 2 ^ (8 * sizeBytes sz))
      ((s.cx.rx (d + 1)).toNat % 2 ^ (8 * sizeBytes sz))) false ((s.started .k h.tk).rel so) = r) :
    ∃ f : M Unit, exec (.amo h d a so sz op) s = runK h 2 f s ∧
      (∀ v t, r = .ok v t →
        f (s.started .k h.tk) = .ok () (State.acq so { t with cx := t.cx.wx d (BitVec.ofNat 64 v) })) ∧
      (∀ e t, r = .error e t → f (s.started .k h.tk) = .error e t) := by
  refine ⟨_, rfl, fun v t hr => ?_, fun e t hr => ?_⟩ <;>
    rw [replayable_bind (hu.started .k h.tk), get_run] <;>
    simp only [State.started_rx] <;>
    rw [if_neg (by simp [ha]), relOf_bind]
  · rw [bind_ok (access.trans hr), modCx_bind, acqOf_run]
  · exact bind_error (access.trans hr)

theorem execAmo_misaligned {op : BitVec 4} (issues : s.Issues .k h.qp h.tk) (hu : s.unplanned)
    (ha : (s.cx.rx a).toNat % sizeBytes sz ≠ 0) :
    exec (.amo h d a so sz op) s = .next (s.faultHere { cause := 0x085, va := s.cx.rx a }) := by
  have tokens : (s.started .k h.tk).tokensOf s = s := by
    unfold State.tokensOf State.started Ctx.takenBy
    split
    · unfold Ctx.setTokens
      split <;> rfl
    · rfl
  obtain ⟨f, word, run⟩ : ∃ f : M Unit, exec (.amo h d a so sz op) s = runK h 2 f s ∧
      f (s.started .k h.tk) = .error (.trap { cause := 0x085, va := s.cx.rx a }) (s.started .k h.tk) := by
    refine ⟨_, rfl, ?_⟩
    rw [replayable_bind (hu.started .k h.tk), get_run]
    simp only [State.started_rx]
    rw [if_pos ha]
    rfl
  rw [word, runK_trap issues run rfl rfl, tokens]

/-- Settles O19: a misaligned AMO faults before its release; another is a checked access, whose part it computes on. -/
theorem atomicsComplete : Obligations.AtomicsComplete := by
  unfold Obligations.AtomicsComplete
  intro s h d a so sz op g old s1 s2 issues unplanned remote
  refine ⟨execAmo_misaligned issues unplanned, fun aligned => ⟨fun t u fails => ?_, fun checked computed => ?_⟩⟩
  · obtain ⟨f, word, -, stops⟩ := execAmo_of_access (h := h) (d := d) (so := so) (op := op) unplanned aligned rfl
    rw [word]
    exact runK_trap issues (stops _ _ (fails.kAccess (by simpa [State.rel_remote] using remote))) fails.retires
      (by rw [fails.cx, State.rel_tok])
  · obtain ⟨f, word, goes, -⟩ := execAmo_of_access (h := h) (d := d) (so := so) (op := op) unplanned aligned rfl
    have access := checked.kAccess (pol := 0) (parks := false) (op := .amo op.toNat ((s.cx.rx d).toNat % 2 ^ (8 * sizeBytes sz))
      ((s.cx.rx (d + 1)).toNat % 2 ^ (8 * sizeBytes sz))) (by simpa [State.rel_remote] using remote)
    rw [State.rel_agent, State.started_agent] at access
    have kept : s2.kept = (s.started .k h.tk).kept :=
      ((amoAt_keeps _ _ _ _ _ _).ok computed).trans (checked.kept.trans (State.kept_rel so _))
    rw [word]
    exact runK_stands issues (goes old s2 (access.trans computed)) ((State.stands_wx kept .k d _).of_kept (State.kept_acq so _))

end Sys2Proof.Machine
end

section

/-! PROOFS. Shadow copies, leases, page moves and host accesses (04 R122, R127, R135; 17 R432). -/

namespace Sys2Proof.Machine

variable {s : State}

theorem exec_pageMigration {asid : Nat} {va : DWord} {p : PageAt} {ppn : Nat} (hp : pageAt s asid va = some p)
    (used : pageInUse s asid p = false) (may : mayMigrate s p ppn = true) :
    exec (.pageMigration asid va ppn) s = .next (
      let v := clearPage p (settleWrites s)
      let dst := key v.dev (ppn * 2 ^ 12)
      let u := copyPages (p.tr.visible p.va) dst (p.size / 4096) (markMoved asid dst p.size v)
      revokePage asid p .migration { u with mem := moveLeaves p ppn u.mem }) := by
  show Host.Outcome.next _ = _
  simp only [hp, may, used, Bool.not_true, Bool.or_self, Bool.false_eq_true, if_false]

theorem exec_pageUnmap {asid : Nat} {va : DWord} {p : PageAt} (hp : pageAt s asid va = some p) (used : pageInUse s asid p = false) :
    exec (.pageUnmap asid va) s = .next (
      let v := clearPage p (settleWrites s)
      revokePage asid p .unmapping { v with mem := clearLeaves p v.mem }) := by
  show Host.Outcome.next _ = _
  simp only [hp, used, Bool.false_eq_true, if_false]

theorem exec_hostWrite {pa : Nat} {data : List Byte} (ok : ∀ i, i < data.length → paOk (pa + i) = true) :
    exec (.hostMemoryAccess (.write pa data)) s = .next { s with mem := s.mem.writeN (key s.dev pa) data } := by
  have all : (List.range data.length).all (fun i => paOk (pa + i)) = true :=
    List.all_eq_true.2 fun i hi => ok i (List.mem_range.1 hi)
  show Host.Outcome.next (if _ then _ else _) = _
  rw [if_pos all]

/-- Settles O47: each event is its meaning where its conditions hold. -/
theorem memoryEventsComplete : Obligations.MemoryEventsComplete := by
  unfold Obligations.MemoryEventsComplete
  intro s
  refine ⟨fun f rest first => ⟨fun written => ?_, fun isOpen => ?_⟩, fun _ _ => rfl,
    fun asid va p hp used => ⟨fun ppn may => exec_pageMigration hp used may, exec_pageUnmap hp used⟩, fun _ _ => rfl,
    fun _ _ ok => exec_hostWrite ok⟩
  · show Host.Outcome.next (firstWrite s) = _
    unfold firstWrite
    simp only [first, if_neg written, Memory.mergeN]
  · show Host.Outcome.next (firstWrite s) = _
    unfold firstWrite
    simp only [first, if_pos isOpen, Memory.mergeN]

end Sys2Proof.Machine
end

section

/-! PROOFS. Frames, watch hits, watchdogs and urgent pre-emptions (04 R134; 14 R385, R386, R390, R391, R397). -/

namespace Sys2Proof.Machine

variable {s : State} {c : CtxId} {x : Ctx}

/-- A context that is found has the name by which it is found. -/
theorem State.id_of_ctx? (h : s.ctx? c = some x) : x.id = c := by
  have found := List.find?_some h
  simpa using found

theorem exec_faultFrameWrite {f : Frame} (hx : s.ctx? c = some x) (hf : x.frameOut = some f) (run : s.frozen c = false)
    (drained : x.draining = false) (free : s.slotTaken x.place = false) : exec (.faultFrameWrite c) s =
      .next { s.updCtx c (fun x => { x with frameOut := none }) with slots := s.slots ++ [mailSlot x f] } := by
  have kept : s.keepsFrame c f = false := by simp [State.keepsFrame, run]
  show Host.Outcome.next _ = _
  simp only [hx, hf, kept, drained, free, Bool.or_self, Bool.false_eq_true, if_false]

/-- The machine in which a frame has been passed to the handler. -/
def State.passed (s : State) (c : CtxId) (e : MailSlot) : State :=
  toHandler c e.stop e.frame { s with slots := s.slots.map (fun x => if x = e then { x with routed := true } else x) }

/-- The machine without a frame's slot. -/
def State.without (s : State) (e : MailSlot) : State := { s with slots := s.slots.filter (fun x => x != e) }

/-- A frame takes the route of its cause; firmware answers the one that comes to it first. -/
theorem exec_frameRouting {e : MailSlot} {choice : FirmwareChoice} (he : s.slots.find? (fun e => e.ctx == c && !e.routed) = some e)
    (hc : ∀ die, choice ≠ .report die) : exec (.frameRouting c choice) s = .next (
      match routeOf e.frame.cause, choice with
      | .handler, _ => s.passed c e
      | .firmwareFirst, .resolve es =>
        if s.revocationOf c e.frame = some .unmapping then s.passed c e
        else resumeFrame c e.frame { s with mem := writeEntries s.mem es }
      | .firmwareFirst, _ => if s.revocationOf c e.frame = some .migration then resumeFrame c e.frame s else s.passed c e
      | .firmware, _ => resumeCtx c ((s.without e).restorePlan c.launch)
      | .deviceFatal, _ => (s.without e).endLaunch c.launch 4 e.frame.cause) := by
  have mark : s.slots.map (fun x => if x == e then { x with routed := true } else x) =
      s.slots.map (fun x => if x = e then { x with routed := true } else x) := by simp only [beq_iff_eq]
  show execFrameRouting c choice s = _
  unfold execFrameRouting State.passed State.without
  rw [he, ← mark]
  cases choice with
  | report die => exact absurd rfl (hc die)
  | pass => dsimp only; cases routeOf e.frame.cause <;> rfl
  | resolve es => dsimp only; cases routeOf e.frame.cause <;> rfl

theorem exec_watchHitByOtherAgent {h : WatchHit} (due : s.hits.find? s.hitDue = some h) (hx : s.ctx? h.ctx = some x)
    (busy : x.status ≠ .idle) : exec .watchHitByOtherAgent s = .next (((State.focus { s with hits := s.hits.erase h } h.ctx).takeFault
      { cause := 0x08B, va := h.va, aux0 := h.aux0, aux1 := h.aux1, srce := some 8, noInstr := true } 8 0).focus s.cx.id) := by
  have found : State.ctx? { s with hits := s.hits.erase h } h.ctx = some x := hx
  show execWatchHitByOtherAgent s = _
  unfold execWatchHitByOtherAgent
  simp only [due, found, if_neg busy]

theorem State.watchdogDue_of {q : SeqId} {a : Await} (ha : (x.seq q).awaiting = some a) (going : (x.seq q).halted = false)
    (status : x.status = .running ∨ x.status = .yielded) (counts : s.counts x = true) (bounded : a.bounded q = true)
    (past : (x.seq q).boundOf a < (x.seq q).waited) (absent : s.arrived x q a = false) : s.watchdogDue x q = some a := by
  have counted : s.waitCounts x q = true := by simp [State.waitCounts, counts]
  have runs : (x.status == .running || x.status == .yielded) = true := by simpa using status
  unfold State.watchdogDue
  rw [runs, counted, going, ha]
  simp [bounded, past, absent]

theorem exec_watchdogExpiry {q : SeqId} {a : Await} (hx : s.ctx? c = some x) (due : s.watchdogDue x q = some a) :
    exec (.watchdogExpiry c q) s = .next (((s.focus c).takeFault (watchdogTrap a x (x.seq q)) (seqNum q)
      (instrAt x q (wordIx (x.seq q).pc + (x.seq q).off))).focus s.cx.id) := by
  show execWatchdogExpiry c q s = _
  unfold execWatchdogExpiry
  simp only [hx, due]

/-- The machine in which a context waits no more to be pre-empted. -/
def State.unurged (s : State) (c : CtxId) : State := { s with urgent := s.urgent.filter (· != c) }

theorem exec_urgentPreemption_inside (hx : s.ctx? c = some x) (plan : s.inPlan x = true) :
    exec (.urgentPreemption c) s = .next (urgentAbort x (s.unurged c)) := by
  show Host.Outcome.next (urgentWith ((s.ctx? c).any s.inPlan) c s) = _
  unfold urgentWith
  simp only [hx, Option.any_some, plan, if_true]
  rfl

theorem exec_urgentPreemption_outside (hx : s.ctx? c = some x) (plan : s.inPlan x = false) : exec (.urgentPreemption c) s =
    .next ((urgentOutside x (s.unurged c)).getD { s with urgent := if s.urgent.contains c then s.urgent else s.urgent ++ [c] }) := by
  show Host.Outcome.next (urgentWith ((s.ctx? c).any s.inPlan) c s) = _
  unfold urgentWith
  simp only [hx, Option.any_some, plan, Bool.false_eq_true, if_false]
  rfl

/-- Outside a plan the bank goes to the shadow context where it can run; else the context is spilled, or waits to be. -/
theorem urgentOutside_active (active : s.isActive x = true) (busy : x.status ≠ .idle) : urgentOutside x s =
    if (s.shadowOf x.core).any Ctx.ready then some (s.swap x.core)
    else if s.imageReady x then some (spillCtx x.id s) else none := by
  unfold urgentOutside
  rw [if_neg (by simp [active, busy])]

/-- Settles O52: each event is its meaning where its conditions hold. -/
theorem framesAndWatchesProceed : Obligations.FramesAndWatchesProceed := by
  unfold Obligations.FramesAndWatchesProceed
  intro s
  refine ⟨fun c x f hx hf run drained free => exec_faultFrameWrite hx hf run drained free, fun c e choice he hc => ?_, fun c die => rfl,
    fun h x due hx busy => exec_watchHitByOtherAgent due hx busy,
    fun c q x a hx ha going status counts bounded past absent =>
      exec_watchdogExpiry hx (State.watchdogDue_of ha going status counts bounded past absent), fun c x hx => ?_, fun _ _ => rfl⟩
  · have pass := exec_frameRouting (choice := .pass) he nofun
    have resolve : ∀ es, _ := fun es => exec_frameRouting (choice := .resolve es) he nofun
    have any := exec_frameRouting he hc
    refine ⟨fun route => ?_, fun route => ⟨fun rev => ?_, fun rev => ?_, fun es rev => ?_, fun es rev => ?_⟩, fun route => ?_,
      fun route => ?_⟩
    · simp only [route] at any
      exact any
    · simp only [route, if_neg rev] at pass
      exact pass
    · simp only [route, if_pos rev] at pass
      exact pass
    · have answer := resolve es
      simp only [route, if_neg rev] at answer
      exact answer
    · have answer := resolve es
      simp only [route, if_pos rev] at answer
      exact answer
    · simp only [route] at any
      exact any
    · simp only [route] at any
      exact any
  · have id := State.id_of_ctx? hx
    have core : ∀ core, (s.unurged c).shadowOf core = s.shadowOf core := fun _ => rfl
    refine ⟨fun plan exporter => ?_, fun plan exporter => ?_, fun plan active busy => ⟨fun y shadow ready => ?_, fun shadow => ?_⟩⟩
    · rw [exec_urgentPreemption_inside hx plan]
      unfold urgentAbort
      rw [if_pos (show (s.unurged c).exporter.isSome = true from exporter)]
      rfl
    · rw [exec_urgentPreemption_inside hx plan]
      unfold urgentAbort
      rw [if_neg (by simp [State.unurged, exporter]), id]
      rfl
    · have here : ((s.unurged c).shadowOf x.core).any Ctx.ready = true := by simp [core, shadow, Ctx.ready, ready]
      rw [exec_urgentPreemption_outside hx plan, urgentOutside_active (s := s.unurged c) active busy, if_pos here]
      rfl
    · have none : ((s.unurged c).shadowOf x.core).any Ctx.ready = false := by
        rw [core]
        cases h : s.shadowOf x.core with
        | none => rfl
        | some y => simpa [Ctx.ready] using shadow y h
      have image : (s.unurged c).imageReady x = s.imageReady x := rfl
      rw [exec_urgentPreemption_outside hx plan, urgentOutside_active (s := s.unurged c) active busy, none, image, id]
      cases s.imageReady x <;> rfl

end Sys2Proof.Machine
end

section

/-! PROOFS. A byte that an access leaves alone: no line of a cache has written it, and nothing of the access is written there
(03 R74, 04 R106, R122, R137). -/

namespace Sys2Proof.Machine

variable {s t u v : State} {a : Nat}

/-- No line of a cache has a byte written that its home does not have. -/
def State.clean (s : State) (a : Nat) : Prop := ∀ e ∈ s.l2, e.line = a / 64 → nibbleMask e.dirty (a % 64) = 0

/-- A change of the machine leaves a byte alone, in memory and in the lines of the caches. -/
def Spares (a : Nat) (s t : State) : Prop := s.clean a → t.mem.read a = s.mem.read a ∧ t.clean a

theorem State.uncached.clean (h : s.uncached a) : s.clean a := fun e he line => absurd line (h e he)

theorem Spares.rfl : Spares a s s := fun h => ⟨Eq.refl _, h⟩

theorem Spares.trans (h1 : Spares a s t) (h2 : Spares a t u) : Spares a s u := fun h =>
  have ⟨r1, c1⟩ := h1 h
  have ⟨r2, c2⟩ := h2 c1
  ⟨r2.trans r1, c2⟩

theorem Spares.ite {c : Prop} [Decidable c] (ht : c → Spares a s t) (hu : ¬c → Spares a s u) : Spares a s (if c then t else u) := by
  split
  · exact ht ‹_›
  · exact hu ‹_›

/-- A change of memory at other bytes. -/
theorem Spares.of_mem (hl : t.l2 = s.l2) (hm : t.mem.read a = s.mem.read a) : Spares a s t :=
  fun h => ⟨hm, by unfold State.clean; rw [hl]; exact h⟩

/-- A change of lines that writes none of their bytes. -/
theorem Spares.of_lines (hm : t.mem = s.mem) (hl : s.clean a → t.clean a) : Spares a s t := fun h => ⟨by rw [hm], hl h⟩

/-! ## Nibbles -/

theorem nibbles_getLsbD {i : Nat} {mask : Byte} {n : Nat} (h : n < 2 * i ∨ 2 * i + 2 ≤ n) : (nibbles i mask).getLsbD n = false := by
  have small : (if mask &&& 0x0F = 0 then 0 else 1) + (if mask &&& 0xF0 = 0 then 0 else 2) < 4 := by split <;> split <;> decide
  unfold nibbles
  generalize (if mask &&& 0x0F = 0 then 0 else 1) + (if mask &&& 0xF0 = 0 then 0 else 2) = x at small
  rw [BitVec.getLsbD_ofNat, show 4 ^ i = 2 ^ (2 * i) by rw [Nat.pow_mul], Nat.testBit_mul_two_pow]
  obtain below | above := h
  · simp [Nat.not_le.2 below]
  · have high : x.testBit (n - 2 * i) = false :=
      Nat.testBit_lt_two_pow (lt_of_lt_of_le small (Nat.pow_le_pow_right (show 0 < 2 by decide) (show 2 ≤ n - 2 * i by omega)))
    simp [high]

/-- The nibbles of one byte are none of another's. -/
theorem nibbleMask_or_nibbles {d : BitVec 128} {i j : Nat} {mask : Byte} (h : j ≠ i) :
    nibbleMask (d ||| nibbles i mask) j = nibbleMask d j := by
  unfold nibbleMask
  rw [BitVec.getLsbD_or, BitVec.getLsbD_or, nibbles_getLsbD (by omega), nibbles_getLsbD (by omega), Bool.or_false, Bool.or_false]

theorem read_writeNibbles {e : L2Line} {sel : BitVec 128} {m : Memory} (h : e.line = a / 64 → nibbleMask sel (a % 64) = 0) :
    (writeNibbles e sel m).read a = m.read a := by
  unfold writeNibbles
  refine List.foldlRecOn (List.range 64) _ (motive := fun m' : Memory => m'.read a = m.read a) rfl fun m' hm i hi => ?_
  have hi := List.mem_range.1 hi
  dsimp only
  split
  · exact hm
  · rename_i written
    refine (Memory.read_write_ne _ (fun here => written ?_) _).trans hm
    rw [show i = a % 64 by omega]
    exact h (by omega)

theorem read_writeBacks {l : List L2Line} {m : Memory} (h : ∀ e ∈ l, e.line = a / 64 → nibbleMask e.dirty (a % 64) = 0) :
    (l.foldl writeBack m).read a = m.read a :=
  List.foldlRecOn l writeBack (motive := fun m' : Memory => m'.read a = m.read a) rfl fun _ hm e he => (read_writeNibbles (h e he)).trans hm

/-! ## The caches -/

theorem dropLines_spares (p : L2Line → Bool) (s : State) : Spares a s (dropLines p s) := fun h =>
  ⟨read_writeBacks fun e he => h e (List.mem_filter.1 he).1, fun e he => h e (List.mem_filter.1 he).1⟩

theorem cleanLines_spares (p : L2Line → Bool) (s : State) : Spares a s (cleanLines p s) := by
  refine fun h => ⟨read_writeBacks fun e he => h e (List.mem_filter.1 he).1, fun e he line => ?_⟩
  obtain ⟨e', he', rfl⟩ := List.mem_map.1 he
  by_cases sel : p e' = true
  · simp [sel, nibbleMask]
  · rw [if_neg sel] at line ⊢
    exact h e' he' line

theorem inOrderOf_spares (ag : Agent) (tr : Tr) (s : State) : Spares a s (inOrderOf ag tr s) :=
  Spares.ite (fun _ => dropLines_spares _ s) fun _ => Spares.rfl

theorem fillLine_spares (die line : Nat) (s : State) : Spares a s (fillLine die line s) := by
  unfold fillLine
  split
  · exact Spares.rfl
  · refine Spares.of_lines rfl fun h e he line => ?_
    obtain old | new := List.mem_append.1 he
    · exact h e old line
    · rw [List.mem_singleton.1 new]
      exact (show nibbleMask 0 (a % 64) = 0 by simp [nibbleMask])

theorem updLine_spares {die line : Nat} {f : L2Line → L2Line} (hl : ∀ e, (f e).line = e.line)
    (hf : ∀ e : L2Line, line = a / 64 → nibbleMask (f e).dirty (a % 64) = nibbleMask e.dirty (a % 64)) (s : State) :
    Spares a s (updLine die line f s) := by
  refine Spares.of_lines rfl fun h e he here => ?_
  obtain ⟨e', he', rfl⟩ := List.mem_map.1 he
  by_cases sel : (e'.die == die && e'.line == line) = true
  · have same : e'.line = line := by simpa using (Bool.and_eq_true_iff.1 sel).2
    rw [if_pos sel] at here ⊢
    rw [hl] at here
    rw [hf e' (same ▸ here)]
    exact h e' he' here
  · rw [if_neg sel] at here ⊢
    exact h e' he' here

theorem bringLine_spares (ag : Agent) (line : Nat) (m : BitVec 128) (s : State) : Spares a s (bringLine ag line m s) :=
  Spares.ite (fun _ => (fillLine_spares _ _ s).trans (updLine_spares (f := fun e => e.hold ag.core m) (fun _ => rfl) (fun _ _ => rfl) _))
    fun _ => fillLine_spares _ _ s

theorem putByte_spares {away : Bool} {pol : Nat} {ag : Agent} {mask b : Byte} {k : Nat} (h : a ≠ k) (s : State) :
    Spares a s (putByte away pol ag mask k b s) := by
  have marked : ∀ dirty, ∀ s : State, Spares a s (updLine ag.die (k / 64) (fun e => e.put (k % 64) b mask dirty) s) := by
    refine fun dirty => updLine_spares (fun _ => rfl) fun e line => ?_
    cases dirty
    · rfl
    · exact nibbleMask_or_nibbles (by omega)
  have stored : Spares a s { s with mem := s.mem.write k (mergeByte (s.mem.read k) b mask) } :=
    Spares.of_mem rfl (Memory.read_write_ne _ h _)
  exact Spares.ite (fun _ => (bringLine_spares _ _ _ s).trans (marked true _)) fun _ =>
    Spares.ite (fun _ => stored.trans (marked false _)) fun _ => stored

theorem putBytes_spares {away : Bool} {pol : Nat} {ag : Agent} {mask : Byte} {k : Nat} {bs : List Byte} (h : a < k ∨ k + bs.length ≤ a)
    (s : State) : Spares a s (putBytes away pol ag mask k bs s) := by
  induction bs generalizing k s with
  | nil => exact Spares.rfl
  | cons b bs ih =>
    rw [List.length_cons] at h
    exact (putByte_spares (by omega) s).trans (ih (by omega) _)

theorem setD_spares {entry : Nat} (h : a ≠ entry + 1) (s : State) : Spares a s (setD entry s) :=
  Spares.of_mem rfl (Memory.read_write_ne _ h _)

theorem State.withA_spares {tr : Tr} (h : a ≠ tr.entry + 1) (s : State) : Spares a s (s.withA tr) :=
  Spares.of_mem rfl (Memory.read_write_ne _ h _)

theorem markDirty_read {launch k : Nat} (h : s.dirtyCell launch k ≠ some a) : (markDirty s launch k).mem.read a = s.mem.read a := by
  unfold State.dirtyCell at h
  unfold markDirty
  dsimp only at h ⊢
  split
  · rename_i here
    rw [if_pos here] at h
    cases hl : s.launch? launch with
    | none => rfl
    | some l =>
      rw [hl] at h
      exact Memory.read_write_ne _ (fun e => h (by rw [e]; rfl)) _
  · rfl

theorem State.released_spares (hf : s.firstWrites = []) (scope : Nat) : Spares a s (s.released scope) := by
  have settled : settleWrites s = s := by unfold settleWrites; rw [hf]; rfl
  unfold State.released
  rw [settled]
  exact Spares.ite (fun _ => Spares.rfl) fun _ => cleanLines_spares _ s

theorem State.acquired_read (h : s.clean a) (scope : Nat) : (s.acquired scope).mem.read a = s.mem.read a := by
  unfold State.acquired
  split
  · rfl
  · show (if scope = 4 then dropLines _ s else s).mem.read a = _
    split
    · exact (dropLines_spares _ s h).1
    · rfl

end Sys2Proof.Machine
end

section

/-! PROOFS. What the write of a part of an access changes: its bytes, lines of the agent's die, and its frame (04 R103, R106, R122, R127). -/

namespace Sys2Proof.Machine

variable {s t u : State} {a : Nat} {ag : Agent} {pol : Nat} {k : Acc} {mask : Byte} {g : Seg} {segs : List Seg} {data : List Byte}

/-! ## The machine but for memory and lines -/

/-- The machine but for memory and the lines of the caches. -/
def State.unstored (s : State) : State := { s with mem := [], l2 := [] }

@[simp] theorem unstored_dropLines (p : L2Line → Bool) (s : State) : (dropLines p s).unstored = s.unstored := rfl
@[simp] theorem unstored_updLine (die line : Nat) (f : L2Line → L2Line) (s : State) : (updLine die line f s).unstored = s.unstored := rfl
@[simp] theorem unstored_setD (entry : Nat) (s : State) : (setD entry s).unstored = s.unstored := rfl

@[simp] theorem unstored_fillLine (die line : Nat) (s : State) : (fillLine die line s).unstored = s.unstored := by
  unfold fillLine
  split <;> rfl

@[simp] theorem unstored_bringLine (ag : Agent) (line : Nat) (m : BitVec 128) (s : State) : (bringLine ag line m s).unstored = s.unstored := by
  unfold bringLine
  dsimp only
  split
  · rw [unstored_updLine, unstored_fillLine]
  · exact unstored_fillLine ..

@[simp] theorem unstored_inOrderOf (ag : Agent) (tr : Tr) (s : State) : (inOrderOf ag tr s).unstored = s.unstored := by
  unfold inOrderOf
  split <;> rfl

@[simp] theorem unstored_markDirty (s : State) (launch k : Nat) : (markDirty s launch k).unstored = s.unstored := by
  unfold markDirty
  dsimp only
  split
  · split <;> rfl
  · rfl

@[simp] theorem unstored_putByte (away : Bool) (pol : Nat) (ag : Agent) (mask : Byte) (k : Nat) (b : Byte) (s : State) :
    (putByte away pol ag mask k b s).unstored = s.unstored := by
  unfold putByte
  split
  · rw [unstored_updLine, unstored_bringLine]
  · dsimp only
    split <;> rfl

@[simp] theorem unstored_putBytes (away : Bool) (pol : Nat) (ag : Agent) (mask : Byte) (k : Nat) (bs : List Byte) (s : State) :
    (putBytes away pol ag mask k bs s).unstored = s.unstored := by
  induction bs generalizing k s with
  | nil => rfl
  | cons b bs ih => exact (ih _ _).trans (unstored_putByte ..)

theorem State.tags_of_unstored (h : t.unstored = s.unstored) : t.tags = s.tags := (congrArg (fun u : State => u.tags) h :)
theorem State.hits_of_unstored (h : t.unstored = s.unstored) : t.hits = s.hits := (congrArg (fun u : State => u.hits) h :)
theorem State.firstWrites_of_unstored (h : t.unstored = s.unstored) : t.firstWrites = s.firstWrites :=
  (congrArg (fun u : State => u.firstWrites) h :)
theorem State.ctx?_of_unstored (h : t.unstored = s.unstored) (c : CtxId) : t.ctx? c = s.ctx? c := (congrArg (fun u : State => u.ctx? c) h :)
theorem State.dirtyCell_of_kept (h : t.kept = s.kept) (l b : Nat) : t.dirtyCell l b = s.dirtyCell l b :=
  (congrArg (fun u : State => u.dirtyCell l b) h :)
theorem State.dirtyCell_of_unstored (h : t.unstored = s.unstored) (l b : Nat) : t.dirtyCell l b = s.dirtyCell l b :=
  (congrArg (fun u : State => u.dirtyCell l b) h :)

/-! ## The steps of a write -/

/-- D set in the leaf, and the order of an S page kept. -/
def State.marked (s : State) (ag : Agent) (g : Seg) : State := inOrderOf ag g.tr (setD g.tr.entry s)

/-- The dirty bitmap set for the first and the last byte. -/
def State.bitmapped (s : State) (ag : Agent) (k : Acc) (g : Seg) (data : List Byte) : State :=
  if data.isEmpty then markDirty s ag.ctx.launch (g.key k)
  else markDirty (markDirty s ag.ctx.launch (g.key k)) ag.ctx.launch (g.key k + data.length - 1)

/-- The bytes of a part written, through the lines of the agent's die. -/
def State.putPart (s : State) (ag : Agent) (pol : Nat) (k : Acc) (mask : Byte) (g : Seg) (data : List Byte) : State :=
  let away := cachesAway s ag g.tr (g.key k)
  let p := writePolicy s ag g.tr (g.key k) pol
  putBytes away p ag mask (g.key k) data
    (if away && p == 0 then dropLines (fun e => e.die == ag.die && (linesOf (g.key k) data.length).contains e.line) s else s)

/-- A frame written, of each byte the bits of a mask. -/
def Ctx.merged (off : Nat) (mask : Byte) (data : List Byte) (c : Ctx) : Ctx := { c with spad := c.spad.mergeN off mask data }

/-- A write of a part goes to its frame, or waits for the copy of its page, or goes to memory. -/
theorem writeSegBits_ok (h : writeSegBits ag pol k mask g data s = .ok () t) :
    (g.tr.spad = true ∧ ∃ c, s.frame? ag.ctx.launch g.tr.lcore = some c ∧
      t = (s.marked ag g).updCtx c.id (Ctx.merged g.frameOff mask data)) ∨
    (g.tr.spad = false ∧ k = .shadow ∧ ∃ f, t = { s.marked ag g with firstWrites := f }) ∨
    (g.tr.spad = false ∧ t = ((s.marked ag g).bitmapped ag k g data).putPart ag pol k mask g data) := by
  unfold writeSegBits at h
  rw [get_run] at h
  cases spad : g.tr.spad
  case true =>
    rw [if_pos spad] at h
    cases frame : s.frame? ag.ctx.launch g.tr.lcore with
    | none => simp only [frame] at h; cases h
    | some c =>
      simp only [frame] at h
      cases h
      exact .inl ⟨rfl, c, rfl, rfl⟩
  case false =>
    rw [if_neg (by simp [spad]), markD, modify_bind, modify_bind, get_run] at h
    split at h
    · rename_i waits
      cases h
      have shadow : k = .shadow := by
        simp only [Bool.and_eq_true, beq_iff_eq] at waits
        exact waits.1.1
      exact .inr (.inl ⟨rfl, shadow, _, rfl⟩)
    · cases h
      exact .inr (.inr ⟨rfl, rfl⟩)

theorem State.marked_unstored (s : State) (ag : Agent) (g : Seg) : (s.marked ag g).unstored = s.unstored := by
  unfold State.marked
  rw [unstored_inOrderOf, unstored_setD]

theorem State.bitmapped_unstored (s : State) (ag : Agent) (k : Acc) (g : Seg) (data : List Byte) :
    (s.bitmapped ag k g data).unstored = s.unstored := by
  unfold State.bitmapped
  split <;> simp

theorem State.putPart_unstored (s : State) (ag : Agent) (pol : Nat) (k : Acc) (mask : Byte) (g : Seg) (data : List Byte) :
    (s.putPart ag pol k mask g data).unstored = s.unstored := by
  unfold State.putPart
  rw [unstored_putBytes]
  split <;> rfl

/-- What is written to memory leaves the machine but for memory and lines. -/
theorem State.written_unstored (s : State) (ag : Agent) (pol : Nat) (k : Acc) (mask : Byte) (g : Seg) (data : List Byte) :
    (((s.marked ag g).bitmapped ag k g data).putPart ag pol k mask g data).unstored = s.unstored := by
  rw [State.putPart_unstored, State.bitmapped_unstored, State.marked_unstored]

@[simp] theorem State.updCtx_rest (s : State) (c : CtxId) (f : Ctx → Ctx) : (s.updCtx c f).tags = s.tags ∧ (s.updCtx c f).hits = s.hits ∧
    (s.updCtx c f).firstWrites = s.firstWrites ∧ (s.updCtx c f).mem = s.mem ∧ (s.updCtx c f).l2 = s.l2 := by
  unfold State.updCtx
  split <;> exact ⟨rfl, rfl, rfl, rfl, rfl⟩

/-- A write changes of tags nothing, of hits nothing, and of the writes that wait none but a shadow write. -/
theorem writeSegBits_rest (h : writeSegBits ag pol k mask g data s = .ok () t) :
    t.tags = s.tags ∧ t.hits = s.hits ∧ (k ≠ .shadow → t.firstWrites = s.firstWrites) := by
  have marked := s.marked_unstored ag g
  have same := And.intro (State.tags_of_unstored marked) (And.intro (State.hits_of_unstored marked) (State.firstWrites_of_unstored marked))
  obtain ⟨tags, hits, waits⟩ := same
  obtain ⟨-, c, -, rfl⟩ | ⟨-, shadow, f, rfl⟩ | ⟨-, rfl⟩ := writeSegBits_ok h
  · obtain ⟨tags', hits', waits', -, -⟩ := State.updCtx_rest (s.marked ag g) c.id (Ctx.merged g.frameOff mask data)
    exact ⟨tags'.trans tags, hits'.trans hits, fun _ => waits'.trans waits⟩
  · exact ⟨tags, hits, fun other => absurd shadow other⟩
  · have written := s.written_unstored ag pol k mask g data
    exact ⟨State.tags_of_unstored written, State.hits_of_unstored written, fun _ => State.firstWrites_of_unstored written⟩

theorem writeSegsBits_rest (h : writeSegsBits ag pol k mask segs data s = .ok () t) :
    t.tags = s.tags ∧ t.hits = s.hits ∧ (k ≠ .shadow → t.firstWrites = s.firstWrites) := by
  induction segs generalizing data s with
  | nil =>
    cases h
    exact ⟨rfl, rfl, fun _ => rfl⟩
  | cons g gs ih =>
    obtain ⟨⟨⟩, u, one, rest⟩ := of_bind_ok h
    obtain ⟨tags, hits, waits⟩ := writeSegBits_rest one
    obtain ⟨tags', hits', waits'⟩ := ih rest
    exact ⟨tags'.trans tags, hits'.trans hits, fun other => (waits' other).trans (waits other)⟩

/-! ## Bytes of memory -/

/-- A byte that the write of one part leaves alone. -/
def Seg.spared (g : Seg) (k : Acc) (cell : Nat → Option Nat) (a : Nat) : Prop :=
  (a < g.key k ∨ g.key k + g.len ≤ a) ∧ a ≠ g.tr.entry + 1 ∧ ∀ b, g.key k ≤ b → b < g.key k + g.len → cell b ≠ some a

theorem State.marked_spares (h : a ≠ g.tr.entry + 1) (s : State) : Spares a s (s.marked ag g) :=
  (setD_spares h s).trans (inOrderOf_spares _ _ _)

theorem State.bitmapped_l2 (s : State) (ag : Agent) (k : Acc) (g : Seg) (data : List Byte) : (s.bitmapped ag k g data).l2 = s.l2 := by
  unfold State.bitmapped
  split <;> simp

theorem State.bitmapped_read (h : g.spared k (s.dirtyCell ag.ctx.launch) a) (h0 : 0 < g.len) (hl : data.length ≤ g.len) :
    (s.bitmapped ag k g data).mem.read a = s.mem.read a := by
  obtain ⟨-, -, cells⟩ := h
  have first := markDirty_read (cells _ le_rfl (by omega))
  unfold State.bitmapped
  split
  · exact first
  · rename_i some
    have pos : 0 < data.length := List.length_pos_iff.2 (by simpa using some)
    refine (markDirty_read ?_).trans first
    rw [State.dirtyCell_of_unstored (unstored_markDirty s _ _)]
    exact cells _ (by omega) (by omega)

theorem State.bitmapped_spares (h : g.spared k (s.dirtyCell ag.ctx.launch) a) (h0 : 0 < g.len) (hl : data.length ≤ g.len) :
    Spares a s (s.bitmapped ag k g data) :=
  Spares.of_mem (s.bitmapped_l2 ..) (State.bitmapped_read h h0 hl)

theorem State.putPart_spares (h : a < g.key k ∨ g.key k + g.len ≤ a) (hl : data.length ≤ g.len) (s : State) :
    Spares a s (s.putPart ag pol k mask g data) :=
  Spares.trans (Spares.ite (fun _ => dropLines_spares _ s) fun _ => Spares.rfl) (putBytes_spares (by omega) _)

theorem writeSegBits_spares (h : g.spared k (s.dirtyCell ag.ctx.launch) a) (h0 : 0 < g.len) (hl : data.length ≤ g.len)
    (ok : writeSegBits ag pol k mask g data s = .ok () t) : Spares a s t := by
  obtain ⟨outside, leaf, cells⟩ := h
  have marked := State.marked_spares (ag := ag) leaf s
  obtain ⟨-, c, -, rfl⟩ | ⟨-, -, f, rfl⟩ | ⟨-, rfl⟩ := writeSegBits_ok ok
  · obtain ⟨-, -, -, mem, l2⟩ := State.updCtx_rest (s.marked ag g) c.id (Ctx.merged g.frameOff mask data)
    exact marked.trans (Spares.of_mem l2 (by rw [mem]))
  · exact marked.trans (Spares.of_mem rfl rfl)
  · have cell : (s.marked ag g).dirtyCell ag.ctx.launch = s.dirtyCell ag.ctx.launch :=
      funext fun b => State.dirtyCell_of_unstored (s.marked_unstored ag g) _ b
    exact marked.trans ((State.bitmapped_spares (cell ▸ ⟨outside, leaf, cells⟩) h0 hl).trans (State.putPart_spares outside hl _))

theorem writeSegsBits_spares (h : ∀ g ∈ segs, g.spared k (s.dirtyCell ag.ctx.launch) a ∧ 0 < g.len)
    (ok : writeSegsBits ag pol k mask segs data s = .ok () t) : Spares a s t := by
  induction segs generalizing data s with
  | nil =>
    cases ok
    exact Spares.rfl
  | cons g gs ih =>
    obtain ⟨⟨⟩, u, one, rest⟩ := of_bind_ok ok
    obtain ⟨spared, pos⟩ := h g (by simp)
    have cell : u.dirtyCell ag.ctx.launch = s.dirtyCell ag.ctx.launch :=
      funext fun b => State.dirtyCell_of_kept ((writeSegBits_keeps _ _ _ _ _ _).ok one) _ b
    exact (writeSegBits_spares spared pos (List.length_take_le _ _) one).trans (ih (fun x hx => cell ▸ h x (by simp [hx])) rest)

/-! ## Lines of the caches -/

/-- Of the lines, only those of a die change, and only lines of a set come in or are written. -/
def LinesWithin (die : Nat) (ls : Nat → Prop) (s t : State) : Prop :=
  (∀ e ∈ t.l2, e ∈ s.l2 ∨ e.die = die ∧ ls e.line) ∧ ∀ e ∈ s.l2, e.die ≠ die → e ∈ t.l2

theorem LinesWithin.of_eq {die : Nat} {ls : Nat → Prop} (h : t.l2 = s.l2) : LinesWithin die ls s t := by
  unfold LinesWithin
  rw [h]
  exact ⟨fun e he => .inl he, fun e he _ => he⟩

theorem LinesWithin.trans {die : Nat} {ls : Nat → Prop} (h1 : LinesWithin die ls s t) (h2 : LinesWithin die ls t u) : LinesWithin die ls s u :=
  ⟨fun e he => (h2.1 e he).elim (h1.1 e) .inr, fun e he other => h2.2 e (h1.2 e he other) other⟩

theorem LinesWithin.ite {die : Nat} {ls : Nat → Prop} {c : Prop} [Decidable c] (ht : c → LinesWithin die ls s t)
    (hu : ¬c → LinesWithin die ls s u) : LinesWithin die ls s (if c then t else u) := by
  split
  · exact ht ‹_›
  · exact hu ‹_›

theorem dropLines_within {die : Nat} {ls : Nat → Prop} {p : L2Line → Bool} (h : ∀ e, p e = true → e.die = die) (s : State) :
    LinesWithin die ls s (dropLines p s) :=
  ⟨fun _ he => .inl (List.mem_filter.1 he).1,
    fun e he other => List.mem_filter.2 ⟨he, by simpa using fun sel : p e = true => other (h e sel)⟩⟩

theorem updLine_within {die line : Nat} {ls : Nat → Prop} (h : ls line) {f : L2Line → L2Line}
    (hf : ∀ e, (f e).die = e.die ∧ (f e).line = e.line)
    (s : State) : LinesWithin die ls s (updLine die line f s) := by
  refine ⟨fun e he => ?_, fun e he other => List.mem_map.2 ⟨e, he, by simp [other]⟩⟩
  obtain ⟨e', he', rfl⟩ := List.mem_map.1 he
  by_cases sel : (e'.die == die && e'.line == line) = true
  · have same : e'.die = die ∧ e'.line = line := by simpa using sel
    rw [if_pos sel, (hf e').1, (hf e').2, same.1, same.2]
    exact .inr ⟨rfl, h⟩
  · rw [if_neg sel]
    exact .inl he'

theorem fillLine_within {die line : Nat} {ls : Nat → Prop} (h : ls line) (s : State) : LinesWithin die ls s (fillLine die line s) := by
  unfold fillLine
  split
  · exact LinesWithin.of_eq rfl
  · refine ⟨fun e he => ?_, fun e he _ => List.mem_append.2 (.inl he)⟩
    obtain old | new := List.mem_append.1 he
    · exact .inl old
    · rw [List.mem_singleton.1 new]
      exact .inr ⟨rfl, h⟩

theorem bringLine_within {ag : Agent} {line : Nat} {ls : Nat → Prop} (h : ls line) (m : BitVec 128) (s : State) :
    LinesWithin ag.die ls s (bringLine ag line m s) :=
  LinesWithin.ite (fun _ => (fillLine_within h s).trans (updLine_within h (f := fun e => e.hold ag.core m) (fun _ => ⟨rfl, rfl⟩) _))
    fun _ => fillLine_within h s

theorem putByte_within {away : Bool} {ls : Nat → Prop} {n : Nat} {b : Byte} (h : ls (n / 64)) (s : State) :
    LinesWithin ag.die ls s (putByte away pol ag mask n b s) := by
  have line : ∀ dirty, ∀ s : State, LinesWithin ag.die ls s (updLine ag.die (n / 64) (fun e => e.put (n % 64) b mask dirty) s) :=
    fun dirty => updLine_within h fun _ => ⟨rfl, rfl⟩
  have stored : LinesWithin ag.die ls s { s with mem := s.mem.write n (mergeByte (s.mem.read n) b mask) } := LinesWithin.of_eq rfl
  exact LinesWithin.ite (fun _ => (bringLine_within h _ s).trans (line true _)) fun _ =>
    LinesWithin.ite (fun _ => stored.trans (line false _)) fun _ => stored

theorem putBytes_within {away : Bool} {ls : Nat → Prop} {n : Nat} (h : ∀ i, i < data.length → ls ((n + i) / 64)) (s : State) :
    LinesWithin ag.die ls s (putBytes away pol ag mask n data s) := by
  induction data generalizing n s with
  | nil => exact LinesWithin.of_eq rfl
  | cons b bs ih =>
    refine (putByte_within (h 0 (by simp)) s).trans (ih (fun i hi => ?_) _)
    rw [Nat.add_right_comm, Nat.add_assoc]
    exact h (i + 1) (by simpa using hi)

theorem inOrderOf_within {ls : Nat → Prop} (tr : Tr) (s : State) : LinesWithin ag.die ls s (inOrderOf ag tr s) :=
  LinesWithin.ite (fun _ => dropLines_within (fun e h => by simpa using h) s) fun _ => LinesWithin.of_eq rfl

theorem mem_linesOf {n len i : Nat} (h : i < len) : (n + i) / 64 ∈ linesOf n len := by
  unfold linesOf
  rw [if_neg (by omega)]
  exact List.mem_map.2 ⟨(n + i) / 64 - n / 64, List.mem_range.2 (by omega), by omega⟩

theorem writeSegBits_within (hl : data.length ≤ g.len) (ok : writeSegBits ag pol k mask g data s = .ok () t) :
    LinesWithin ag.die (· ∈ linesOf (g.key k) g.len) s t := by
  have marked : LinesWithin ag.die (· ∈ linesOf (g.key k) g.len) s (s.marked ag g) :=
    LinesWithin.trans (t := setD g.tr.entry s) (LinesWithin.of_eq rfl) (inOrderOf_within g.tr _)
  obtain ⟨-, c, -, rfl⟩ | ⟨-, -, f, rfl⟩ | ⟨-, rfl⟩ := writeSegBits_ok ok
  · obtain ⟨-, -, -, -, l2⟩ := State.updCtx_rest (s.marked ag g) c.id (Ctx.merged g.frameOff mask data)
    exact marked.trans (LinesWithin.of_eq l2)
  · exact marked.trans (LinesWithin.of_eq rfl)
  · refine marked.trans (LinesWithin.trans (LinesWithin.of_eq (State.bitmapped_l2 ..)) (LinesWithin.trans (LinesWithin.ite (fun _ => ?_) fun _ =>
      LinesWithin.of_eq rfl) (putBytes_within (fun i hi => mem_linesOf (by omega)) _)))
    exact dropLines_within (fun e sel => by simp only [Bool.and_eq_true, beq_iff_eq] at sel; exact sel.1) _

theorem LinesWithin.mono {die : Nat} {ls ls' : Nat → Prop} (h : LinesWithin die ls s t) (hl : ∀ n, ls n → ls' n) :
    LinesWithin die ls' s t :=
  ⟨fun e he => (h.1 e he).imp_right fun ⟨d, l⟩ => ⟨d, hl _ l⟩, h.2⟩

theorem writeSegsBits_within (ok : writeSegsBits ag pol k mask segs data s = .ok () t) :
    LinesWithin ag.die (fun n => ∃ g ∈ segs, n ∈ linesOf (g.key k) g.len) s t := by
  induction segs generalizing data s with
  | nil =>
    cases ok
    exact LinesWithin.of_eq rfl
  | cons g gs ih =>
    obtain ⟨⟨⟩, u, one, rest⟩ := of_bind_ok ok
    exact ((writeSegBits_within (List.length_take_le _ _) one).mono fun n hn => ⟨g, by simp, hn⟩).trans
      ((ih rest).mono fun n ⟨x, hx, hn⟩ => ⟨x, by simp [hx], hn⟩)

/-! ## Frames -/

theorem State.ctx?_updCtx {c : CtxId} {f : Ctx → Ctx} (hf : ∀ x, (f x).id = x.id) (s : State) (c' : CtxId) :
    (s.updCtx c f).ctx? c' = if c' = c then (s.ctx? c').map f else s.ctx? c' := by
  have name : ∀ x : Ctx, (if x.id == c then f x else x).id = x.id := fun x => by split <;> simp [hf]
  by_cases here : s.cx.id = c
  · have upd : s.updCtx c f = { s with cx := f s.cx } := if_pos here
    rw [upd]
    by_cases asked : c' = c
    · simp [State.ctx?, State.ctxs, hf, here, asked]
    · have other : ¬ c = c' := fun e => asked e.symm
      simp [State.ctx?, State.ctxs, hf, here, asked, other]
  · have upd : s.updCtx c f = { s with others := s.others.map (fun x => if x.id == c then f x else x) } := if_neg here
    have found : (s.others.map (fun x => if x.id == c then f x else x)).find? (fun x => x.id == c') =
        (s.others.find? (fun x => x.id == c')).map (fun x => if x.id == c then f x else x) := by
      rw [List.find?_map]
      simp only [Function.comp_def, name]
    rw [upd]
    by_cases focus : s.cx.id = c'
    · have asked : ¬ c' = c := fun e => here (focus.trans e)
      simp [State.ctx?, State.ctxs, focus, asked]
    · simp only [State.ctx?, State.ctxs, List.find?_cons, beq_eq_false_iff_ne.2 focus, found]
      cases h : s.others.find? (fun x => x.id == c') with
      | none => split <;> rfl
      | some x =>
        have id : x.id = c' := by simpa using List.find?_some h
        by_cases asked : c' = c <;> simp [id, asked]

/-- Byte `i` of the frame of a context stays. -/
def FrameKeeps (c : CtxId) (i : Nat) (s t : State) : Prop :=
  ∀ x, s.ctx? c = some x → ∃ y, t.ctx? c = some y ∧ y.spad.read i = x.spad.read i

theorem FrameKeeps.of_unstored {c : CtxId} {i : Nat} (h : t.unstored = s.unstored) : FrameKeeps c i s t :=
  fun x hx => ⟨x, (State.ctx?_of_unstored h c).trans hx, rfl⟩

theorem FrameKeeps.trans {c : CtxId} {i : Nat} (h1 : FrameKeeps c i s t) (h2 : FrameKeeps c i t u) : FrameKeeps c i s u := fun x hx =>
  have ⟨y, hy, e1⟩ := h1 x hx
  have ⟨z, hz, e2⟩ := h2 y hy
  ⟨z, hz, e2.trans e1⟩

theorem Ctx.merged_read {off i : Nat} (h : i < off ∨ off + data.length ≤ i) (c : Ctx) :
    (c.merged off mask data).spad.read i = c.spad.read i :=
  Memory.read_writeN_outside _ (by rw [List.length_zipWith, Memory.readN_length]; omega)

theorem State.frame?_id {launch lcore : Nat} {c : Ctx} (h : s.frame? launch lcore = some c) : c.id = ⟨launch, lcore⟩ := by
  have found := List.find?_some h
  simp only [Bool.and_eq_true, beq_iff_eq] at found
  exact found.1

theorem writeSegBits_frame {c : CtxId} {i : Nat} (hl : data.length ≤ g.len)
    (h : g.tr.spad = true → c = ⟨ag.ctx.launch, g.tr.lcore⟩ → i < g.frameOff ∨ g.frameOff + g.len ≤ i)
    (ok : writeSegBits ag pol k mask g data s = .ok () t) : FrameKeeps c i s t := by
  have marked : FrameKeeps c i s (s.marked ag g) := FrameKeeps.of_unstored (s.marked_unstored ag g)
  obtain ⟨spad, x, frame, rfl⟩ | ⟨-, -, f, rfl⟩ | ⟨-, rfl⟩ := writeSegBits_ok ok
  · refine marked.trans fun y hy => ?_
    rw [State.ctx?_updCtx (f := Ctx.merged g.frameOff mask data) fun _ => rfl]
    split
    · rename_i same
      exact ⟨_, by rw [hy]; rfl, Ctx.merged_read (by have := h spad (same.trans (State.frame?_id frame)); omega) y⟩
    · exact ⟨y, hy, rfl⟩
  · exact marked.trans fun y hy => ⟨y, hy, rfl⟩
  · exact FrameKeeps.of_unstored (s.written_unstored ..)

theorem writeSegsBits_frame {c : CtxId} {i : Nat}
    (h : ∀ g ∈ segs, g.tr.spad = true → c = ⟨ag.ctx.launch, g.tr.lcore⟩ → i < g.frameOff ∨ g.frameOff + g.len ≤ i)
    (ok : writeSegsBits ag pol k mask segs data s = .ok () t) : FrameKeeps c i s t := by
  induction segs generalizing data s with
  | nil =>
    cases ok
    exact FrameKeeps.of_unstored rfl
  | cons g gs ih =>
    obtain ⟨⟨⟩, u, one, rest⟩ := of_bind_ok ok
    exact (writeSegBits_frame (List.length_take_le _ _) (h g (by simp)) one).trans (ih (fun x hx => h x (by simp [hx])) rest)

end Sys2Proof.Machine
end

section

/-! PROOFS. Loads, stores, atomics and the writes of parts leave everything else (04 R106, R137; 06 R189, R190). -/

namespace Sys2Proof.Machine

variable {s t u : State} {a : Nat} {ag : Agent} {pol : Nat} {k : Acc} {mask : Byte} {g : Seg} {segs : List Seg} {data : List Byte}

/-! ## Writes and atomics of parts -/

theorem State.Untouched.spared (h : s.Untouched k segs a) : ∀ g ∈ segs, g.spared k (s.dirtyCell s.agent.ctx.launch) a := h

theorem cachesAway_of_dev (h : t.dev = s.dev) (ag : Agent) (tr : Tr) (k : Nat) : cachesAway t ag tr k = cachesAway s ag tr k := by
  unfold cachesAway
  rw [h]

theorem setD_read {entry : Nat} (h : a ≠ entry + 1) (s : State) : (setD entry s).mem.read a = s.mem.read a :=
  Memory.read_write_ne _ h _

theorem State.writeN_read {n : Nat} (h : a < n ∨ n + data.length ≤ a) (s : State) :
    ({ s with mem := s.mem.writeN n data } : State).mem.read a = s.mem.read a := Memory.read_writeN_outside _ h

theorem State.dev_of_unstored (h : t.unstored = s.unstored) : t.dev = s.dev := (congrArg (fun u : State => u.dev) h :)

/-- A part put to memory that the agent's die keeps no copy of touches no line. -/
theorem State.putPart_near_read (near : cachesAway s ag g.tr (g.key k) = false) (h : a < g.key k ∨ g.key k + g.len ≤ a)
    (hl : data.length ≤ g.len) : (s.putPart ag pol k 0xFF g data).mem.read a = s.mem.read a := by
  unfold State.putPart
  rw [near, putBytes_home (.inl rfl)]
  exact Memory.read_writeN_outside _ (by omega)

theorem State.marked_weak (weak : g.tr.strong = false) (s : State) : s.marked ag g = setD g.tr.entry s := if_neg (by simp [weak])

theorem writeSegBits_near_read (mem : g.tr.spad = false) (weak : g.tr.strong = false) (near : cachesAway s ag g.tr (g.key .write) = false)
    (h : g.spared .write (s.dirtyCell ag.ctx.launch) a) (h0 : 0 < g.len) (hl : data.length ≤ g.len)
    (ok : writeSegBits ag pol .write 0xFF g data s = .ok () t) : t.mem.read a = s.mem.read a := by
  obtain ⟨spad, -⟩ | ⟨-, shadow, -⟩ | ⟨-, done⟩ := writeSegBits_ok ok
  · rw [mem] at spad
    cases spad
  · cases shadow
  · have cell : (s.marked ag g).dirtyCell ag.ctx.launch = s.dirtyCell ag.ctx.launch :=
      funext fun b => State.dirtyCell_of_unstored (s.marked_unstored ag g) _ b
    have dev : ((s.marked ag g).bitmapped ag .write g data).dev = s.dev :=
      State.dev_of_unstored ((State.bitmapped_unstored ..).trans (s.marked_unstored ag g))
    rw [done, State.putPart_near_read ((cachesAway_of_dev dev ..).trans near) h.1 hl, State.bitmapped_read (cell ▸ h) h0 hl,
      State.marked_weak weak, setD_read h.2.1]

theorem writeSegs_near_read (parts : ∀ g ∈ segs, g.tr.spad = false ∧ g.tr.strong = false ∧ cachesAway s ag g.tr (g.key .write) = false)
    (h : ∀ g ∈ segs, g.spared .write (s.dirtyCell ag.ctx.launch) a ∧ 0 < g.len) (ok : writeSegs ag pol .write segs data s = .ok () t) :
    t.mem.read a = s.mem.read a := by
  unfold writeSegs at ok
  induction segs generalizing data s with
  | nil =>
    cases ok
    rfl
  | cons g gs ih =>
    obtain ⟨⟨⟩, u, one, rest⟩ := of_bind_ok ok
    obtain ⟨mem, weak, near⟩ := parts g (by simp)
    obtain ⟨spared, pos⟩ := h g (by simp)
    have kept := (writeSegBits_keeps _ _ _ _ _ _).ok one
    have cell : u.dirtyCell ag.ctx.launch = s.dirtyCell ag.ctx.launch := funext fun b => State.dirtyCell_of_kept kept _ b
    refine (ih (fun x hx => ?_) (fun x hx => cell ▸ h x (by simp [hx])) rest).trans
      (writeSegBits_near_read mem weak near spared pos (List.length_take_le _ _) one)
    rw [cachesAway_of_dev (State.dev_of_kept kept)]
    exact parts x (by simp [hx])

/-- A plain write changes of memory its bytes, the leaf and the bitmap; what no line holds stays, or what no copy is between. -/
theorem State.near.writeSegs_leaves (h : s.near .write segs) (pos : ∀ g ∈ segs, 0 < g.len)
    (ok : Machine.writeSegs s.agent pol .write segs data s = .ok () t) :
    t.still = s.still ∧ t.tags = s.tags ∧
      ∀ a, s.Untouched .write segs a → (segs.any (fun g => g.tr.strong) = true → s.uncached a) → t.mem.read a = s.mem.read a := by
  refine ⟨State.still_of_kept ((writeSegs_keeps _ _ _ _ _).ok ok), (writeSegsBits_rest ok).1, fun a untouched uncached => ?_⟩
  obtain ⟨strong, parts⟩ := h
  have spared := fun g hg => And.intro (untouched.spared g hg) (pos g hg)
  cases strong
  case false =>
    exact writeSegs_near_read (fun g hg => ⟨(parts g hg).1, (parts g hg).2.1, by simpa using (parts g hg).2.2⟩) spared ok
  case true =>
    cases segs with
    | nil =>
      cases ok
      rfl
    | cons g gs =>
      have strong : (g :: gs).any (fun g => g.tr.strong) = true := by simp [(parts g (by simp)).2.1]
      exact (writeSegsBits_spares spared ok (uncached strong).clean).1

theorem unstored_mem (m : Memory) (s : State) : ({ s with mem := m } : State).unstored = s.unstored := rfl

/-- The bytes of an atomic access written, the leaf and the bitmap first. -/
def State.atomStored (s : State) (ag : Agent) (g : Seg) (bytes : List Byte) : State :=
  let u := markDirty (setD g.tr.entry s) ag.ctx.launch (g.key .atomic)
  { u with mem := u.mem.writeN (g.key .atomic) bytes }

theorem State.atomStored_unstored (s : State) (ag : Agent) (g : Seg) (bytes : List Byte) :
    (s.atomStored ag g bytes).unstored = s.unstored := by
  unfold State.atomStored
  exact (unstored_mem _ _).trans ((unstored_markDirty ..).trans (unstored_setD ..))

theorem State.atomStored_read {bytes : List Byte} (h : g.spared .atomic (s.dirtyCell ag.ctx.launch) a) (pos : 0 < g.len)
    (hl : bytes.length = g.len) : (s.atomStored ag g bytes).mem.read a = s.mem.read a := by
  obtain ⟨outside, leaf, cells⟩ := h
  have cell : (setD g.tr.entry s).dirtyCell ag.ctx.launch (g.key .atomic) ≠ some a := by
    rw [State.dirtyCell_of_unstored (unstored_setD ..)]
    exact cells _ le_rfl (by omega)
  exact (State.writeN_read (by omega) _).trans ((markDirty_read cell).trans (setD_read leaf s))

theorem atomStored_run (bytes : List Byte) (old : Nat) (u : State) :
    (do
      markD g.tr
      modify (fun s => markDirty s ag.ctx.launch (g.key .atomic))
      modify (fun s => { s with mem := s.mem.writeN (g.key .atomic) bytes })
      pure old : M Nat) u = .ok old (u.atomStored ag g bytes) := by
  rw [markD, modify_bind, modify_bind, modify_bind]
  unfold State.atomStored
  rfl

/-- An atomic access drops the die's copy of its line, and stores its bytes, or nothing where its compare fails. -/
theorem amoAt_ok {op n v w old : Nat} (h : amoAt ag g op n v w s = .ok old t) :
    ∃ u, u.unstored = s.unstored ∧ (∀ a, Spares a s u) ∧ (t = u ∨ ∃ bytes, bytes.length = n ∧ t = u.atomStored ag g bytes) := by
  refine ⟨dropLines (fun e => e.die == ag.die && e.line == g.key .atomic / 64) (inOrderOf ag g.tr s),
    (unstored_dropLines ..).trans (unstored_inOrderOf ..), fun a => (inOrderOf_spares ag g.tr s).trans (dropLines_spares _ _), ?_⟩
  unfold amoAt at h
  rw [modify_bind, modify_bind, get_run] at h
  generalize dropLines (fun e => e.die == ag.die && e.line == g.key .atomic / 64) (inOrderOf ag g.tr s) = u at h ⊢
  cases new : amoNew op n (leNat (u.mem.readN (g.key .atomic) n)) v w with
  | none =>
    simp only [new] at h
    cases h
    exact .inl rfl
  | some value =>
    simp only [new] at h
    rw [atomStored_run] at h
    cases h
    exact .inr ⟨_, natBytes_length _ _, rfl⟩

theorem amoAt_leaves {op v w old : Nat} (pos : 0 < g.len) (ok : amoAt s.agent g op g.len v w s = .ok old t) :
    t.still = s.still ∧ t.tags = s.tags ∧ ∀ a, s.Untouched .atomic [g] a → s.uncached a → t.mem.read a = s.mem.read a := by
  obtain ⟨u, same, spares, done⟩ := amoAt_ok ok
  have rest : t.unstored = s.unstored := by
    obtain rfl | ⟨bytes, -, rfl⟩ := done
    · exact same
    · exact (u.atomStored_unstored ..).trans same
  refine ⟨State.still_of_kept ((amoAt_keeps _ _ _ _ _ _).ok ok), State.tags_of_unstored rest, fun a untouched uncached => ?_⟩
  obtain ⟨read, -⟩ := spares a uncached.clean
  obtain rfl | ⟨bytes, length, rfl⟩ := done
  · exact read
  · have cell : u.dirtyCell s.agent.ctx.launch = s.dirtyCell s.agent.ctx.launch :=
      funext fun b => State.dirtyCell_of_unstored same _ b
    exact (State.atomStored_read (cell ▸ untouched.spared g (by simp)) pos length).trans read

/-- Writes of parts, of whatever kind, change their bytes in memory, in lines of the agent's die and in frames. -/
theorem writeSegs_leaves (pos : ∀ g ∈ segs, 0 < g.len) (ok : writeSegs s.agent pol k segs data s = .ok () t) :
    t.still = s.still ∧ t.tags = s.tags ∧ t.hits = s.hits ∧ (k ≠ .shadow → t.firstWrites = s.firstWrites) ∧
      (∀ a, s.Untouched k segs a → s.uncached a → t.mem.read a = s.mem.read a) ∧
      (∀ e ∈ t.l2, e ∈ s.l2 ∨ (e.die = s.cx.core.1 ∧ ∃ g ∈ segs, e.line ∈ linesOf (g.key k) g.len)) ∧
      (∀ e ∈ s.l2, e.die ≠ s.cx.core.1 → e ∈ t.l2) ∧
      (∀ c x y, s.ctx? c = some x → t.ctx? c = some y → ∀ i,
        (∀ g ∈ segs, g.tr.spad = true → c = ⟨s.cx.id.launch, g.tr.lcore⟩ → i < g.frameOff ∨ g.frameOff + g.len ≤ i) →
          y.spad.read i = x.spad.read i) := by
  obtain ⟨tags, hits, waits⟩ := writeSegsBits_rest ok
  obtain ⟨inside, others⟩ := writeSegsBits_within ok
  refine ⟨State.still_of_kept ((writeSegs_keeps _ _ _ _ _).ok ok), tags, hits, waits, fun a untouched uncached => ?_, inside, others,
    fun c x y hx hy i apart => ?_⟩
  · exact (writeSegsBits_spares (fun g hg => ⟨untouched.spared g hg, pos g hg⟩) ok uncached.clean).1
  · obtain ⟨z, hz, same⟩ := writeSegsBits_frame apart ok x hx
    cases hy.symm.trans hz
    exact same

end Sys2Proof.Machine
end

section

/-! PROOFS. What a load or a store of K changes (04 R106, R137; 06 R189, R190). -/

namespace Sys2Proof.Machine

variable {s t u w : State} {a : Nat} {k : Acc} {g : Seg} {segs : List Seg} {data : List Byte} {so : BitVec 4}

/-! ## Accesses leave all but memory and lines -/

theorem State.kept_of_unstored (h : t.unstored = s.unstored) : t.kept = s.kept := (congrArg (fun u : State => u.kept) h :)
theorem State.spad_of_unstored (h : t.unstored = s.unstored) : t.cx.spad = s.cx.spad := (congrArg (fun u : State => u.cx.spad) h :)
theorem State.retired_unstored (h : t.unstored = s.unstored) (q : SeqId) (tk : BitVec 3) (n : Nat) :
    (t.retired q tk n).unstored = (s.retired q tk n).unstored := (congrArg (fun u : State => u.retired q tk n) h :)
theorem State.wx_unstored (h : t.unstored = s.unstored) (d : BitVec 5) (v : DWord) :
    ({ t with cx := t.cx.wx d v } : State).unstored = ({ s with cx := s.cx.wx d v } : State).unstored :=
  (congrArg (fun u : State => { u with cx := u.cx.wx d v }) h :)

@[simp] theorem unstored_freshLines (p : L2Line → Bool) (s : State) : (freshLines p s).unstored = s.unstored := rfl
@[simp] theorem unstored_cleanLines (p : L2Line → Bool) (s : State) : (cleanLines p s).unstored = s.unstored := rfl
@[simp] theorem unstored_withA (s : State) (tr : Tr) : (s.withA tr).unstored = s.unstored := rfl

@[simp] theorem unstored_ordered (s : State) (segs : List Seg) : (s.ordered segs).unstored = s.unstored := by
  unfold State.ordered
  split <;> simp

theorem unstored_acq (so : BitVec 4) (s : State) : (State.acq so s).unstored = s.unstored := by
  unfold State.acq State.acquired
  split
  · split
    · rfl
    · dsimp only
      rw [unstored_freshLines]
      split <;> simp
  · rfl

theorem settleWrites_none (h : s.firstWrites = []) : settleWrites s = s := by
  unfold settleWrites
  rw [h]
  rfl

theorem unstored_rel (h : soRel so = true → s.firstWrites = []) : (State.rel so s).unstored = s.unstored := by
  unfold State.rel State.released
  split
  · rename_i rel
    rw [settleWrites_none (h rel)]
    split <;> simp
  · rfl

theorem unstored_stored (s : State) (g : Seg) (data : List Byte) : (s.stored g data).unstored = s.unstored := by
  rw [State.stored_eq, unstored_mem]
  unfold State.prepared
  rw [unstored_markDirty, unstored_markDirty, unstored_ordered]
  exact unstored_mem _ _

theorem State.ordered_spares (segs : List Seg) (s : State) : Spares a s (s.ordered segs) :=
  Spares.ite (fun _ => dropLines_spares _ s) fun _ => Spares.rfl

theorem State.acq_read (so : BitVec 4) (h : s.clean a) : (State.acq so s).mem.read a = s.mem.read a := by
  unfold State.acq
  split
  · exact State.acquired_read h _
  · rfl

theorem State.rel_spares (h : soRel so = true → s.firstWrites = []) : Spares a s (State.rel so s) :=
  Spares.ite (fun rel => State.released_spares (h rel) _) fun _ => Spares.rfl

theorem markDirty_mem_wf (hw : s.mem.wf = true) (launch n : Nat) : (markDirty s launch n).mem.wf = true := by
  unfold markDirty
  dsimp only
  split
  · split
    · exact hw
    · exact Memory.write_wf hw _ _
  · exact hw

theorem State.rel_mem_wf (hr : soRel so = true → s.firstWrites = []) (hw : s.mem.wf = true) : (State.rel so s).mem.wf = true := by
  unfold State.rel State.released
  split
  · rename_i rel
    rw [settleWrites_none (hr rel)]
    split
    · exact hw
    · exact cleanLines_mem_wf _ hw
  · exact hw

theorem State.ordered_mem_wf (hw : s.mem.wf = true) (segs : List Seg) : (s.ordered segs).mem.wf = true := by
  unfold State.ordered
  split
  · exact dropLines_mem_wf _ hw
  · exact hw

/-- A part stored holds in memory what was written. -/
theorem State.stored_read {j : Nat} (hw : s.mem.wf = true) (h : j < data.length) :
    data[j]? = some ((s.stored g data).mem.read (g.key .write + j)) := by
  have prepared : (s.prepared g data).mem.wf = true := by
    unfold State.prepared
    exact markDirty_mem_wf (markDirty_mem_wf (State.ordered_mem_wf (setEntryBits_wf hw _ _) _) ..) ..
  rw [List.getElem?_eq_getElem h]
  exact congrArg some (Memory.read_writeN_inside prepared _ h).symm

/-- What is near stays near where accesses alone have been made. -/
theorem State.near.moved (h : s.near k segs) (agent : t.agent = s.agent) (dev : t.dev = s.dev) : t.near k segs := by
  obtain ⟨strong, parts⟩ := h
  refine ⟨strong, fun g hg => ?_⟩
  rw [agent, cachesAway_of_dev dev]
  exact parts g hg

theorem State.PlainAccess.checked (h : s.PlainAccess k g.va g.len g.tr) : s.Checked k g.va g.len [g] (s.withA g.tr) :=
  ⟨h.checkAccess, fun _ hx => List.mem_singleton.1 hx ▸ h.memory, fun _ hx => List.mem_singleton.1 hx ▸ h.here⟩

theorem State.retired_spad (s : State) (q : SeqId) (tk : BitVec 3) (n : Nat) : (s.retired q tk n).cx.spad = s.cx.spad := by
  simp [State.retired]

theorem State.started_spad (s : State) (q : SeqId) (tk : BitVec 3) : (s.started q tk).cx.spad = s.cx.spad := by
  simp [State.started]

theorem State.wx_spad (s : State) (d : BitVec 5) (v : DWord) : (s.cx.wx d v).spad = s.cx.spad := by simp

/-! ## Words of K -/

theorem sizeBytes_pos (sz : BitVec 3) : 0 < sizeBytes sz := by
  unfold sizeBytes
  split <;> decide

/-- The machine in which a load reads its part. -/
def State.loads (s : State) (tk : BitVec 3) (g : Seg) : State := ((s.started .k tk).withA g.tr).ordered [g]

/-- The machine in which a store writes its part. -/
def State.stores (s : State) (tk : BitVec 3) (so : BitVec 4) (g : Seg) : State := ((s.started .k tk).rel so).withA g.tr

theorem State.loads_unstored (s : State) (tk : BitVec 3) (g : Seg) : (s.loads tk g).unstored = (s.started .k tk).unstored :=
  (unstored_ordered _ _).trans (unstored_withA _ _)

theorem State.stores_unstored {tk : BitVec 3} (h : soRel so = true → s.firstWrites = []) (g : Seg) :
    (s.stores tk so g).unstored = (s.started .k tk).unstored :=
  (unstored_withA _ _).trans (unstored_rel h)

theorem State.loads_spares (tk : BitVec 3) (h : a ≠ g.tr.entry + 1) : Spares a s (s.loads tk g) :=
  ((Spares.of_mem (t := s.started .k tk) rfl rfl).trans (State.withA_spares h _)).trans (State.ordered_spares [g] _)

theorem State.stores_spares {tk : BitVec 3} (hr : soRel so = true → s.firstWrites = []) (h : a ≠ g.tr.entry + 1) :
    Spares a s (s.stores tk so g) :=
  ((Spares.of_mem (t := s.started .k tk) rfl rfl).trans (State.rel_spares hr)).trans (State.withA_spares h _)

/-- A word after whose accesses the machine is that which its effect leaves, but for memory and lines. -/
theorem State.retired_leaves {tk : BitVec 3} (h : t.unstored = w.unstored) (tags : w.tags = s.tags) (spad : w.cx.spad = s.cx.spad) :
    (t.retired .k tk 2).still = (w.retired .k tk 2).still ∧ (t.retired .k tk 2).tags = s.tags ∧
      (t.retired .k tk 2).cx.spad = s.cx.spad := by
  have same := State.retired_unstored h .k tk 2
  refine ⟨State.still_of_kept (State.kept_of_unstored same), (State.tags_of_unstored same).trans tags, ?_⟩
  rw [State.spad_of_unstored same, State.retired_spad, spad]

section
variable {i : Instr} {h : Hq} {d r : BitVec 5} {plc : BitVec 2} {sz : BitVec 3} {imm : BitVec 32}
  (issues : s.Issues .k h.qp h.tk) (unplanned : s.unplanned) (remote : s.cx.remote = none)
  (hva : g.va = kAddr s.cx r imm) (hn : g.len = sizeBytes sz)
include issues unplanned remote hva hn

/-- A plain load reads its part, writes x[xd] and acquires. -/
theorem load_run (hi : i = .ldx h d r plc so sz imm ∨ i = .ldxp h d r plc so sz imm)
    (plain : (s.started .k h.tk).PlainAccess .read g.va g.len g.tr) (near : s.near .read [g]) :
    ∃ v, exec i s = .next ((State.acq so { s.loads h.tk g with cx := (s.loads h.tk g).cx.wx d v }).retired .k h.tk 2) := by
  have agent : ((s.started .k h.tk).withA g.tr).agent = s.agent :=
    (State.agent_of_kept (State.kept_of_unstored (unstored_withA ..))).trans (State.started_agent ..)
  have read := (near.moved agent rfl).readSegs (pol := plc.toNat)
  rw [agent] at read
  have checked := plain.checked
  rw [hva, hn] at checked
  exact ⟨_, (scalarLoadsComplete s i h d r plc so sz imm [g] _ _ _ hi issues unplanned remote).1 checked read⟩

/-- A plain load changes x[xd], and A of its leaf. -/
theorem load_leaves (hi : i = .ldx h d r plc so sz imm ∨ i = .ldxp h d r plc so sz imm)
    (plain : (s.started .k h.tk).PlainAccess .read g.va g.len g.tr) (near : s.near .read [g]) :
    ∃ v t, exec i s = .next t ∧ t.still = (s.does .k h.tk 2 (fun u => { u with cx := u.cx.wx d v })).still ∧ t.tags = s.tags ∧
      t.cx.spad = s.cx.spad ∧ ∀ a, a ≠ g.tr.entry + 1 → s.uncached a → t.mem.read a = s.mem.read a := by
  obtain ⟨v, run⟩ := load_run issues unplanned remote hva hn hi plain near
  obtain ⟨still, tags, spad⟩ := State.retired_leaves (s := s) (tk := h.tk)
    ((unstored_acq so _).trans (State.wx_unstored (s.loads_unstored h.tk g) d v)) rfl
    ((State.wx_spad ..).trans (State.started_spad ..))
  refine ⟨v, _, run, still, tags, spad, fun a leaf uncached => ?_⟩
  obtain ⟨read, clean⟩ := State.loads_spares h.tk leaf uncached.clean
  exact (State.acq_read (s := { s.loads h.tk g with cx := (s.loads h.tk g).cx.wx d v }) so clean).trans read

/-- A plain store releases and writes its part. -/
theorem store_run (plain : ((s.started .k h.tk).rel so).PlainAccess .write g.va g.len g.tr) (near : s.near .write [g]) :
    writeSegs s.agent plc.toNat .write [g] (natBytes (sizeBytes sz) (s.cx.rx d).toNat) (s.stores h.tk so g) =
        .ok () ((s.stores h.tk so g).stored g (natBytes (sizeBytes sz) (s.cx.rx d).toNat)) ∧
      exec (.stx h d r plc so sz imm) s =
        .next (((s.stores h.tk so g).stored g (natBytes (sizeBytes sz) (s.cx.rx d).toNat)).retired .k h.tk 2) := by
  have kept : (s.stores h.tk so g).kept = (s.started .k h.tk).kept :=
    (State.kept_of_unstored (unstored_withA ..)).trans (State.kept_rel so _)
  have agent : (s.stores h.tk so g).agent = s.agent := (State.agent_of_kept kept).trans (State.started_agent ..)
  have pos : 0 < g.len := hn ▸ sizeBytes_pos sz
  have written := (near.moved agent ((State.dev_of_kept kept).trans rfl)).writeSegs (pol := plc.toNat)
    (data := natBytes (sizeBytes sz) (s.cx.rx d).toNat) (by rw [natBytes_length, hn]) pos
  rw [agent] at written
  have checked := plain.checked
  rw [hva, hn] at checked
  exact ⟨written, execStx_ok issues unplanned remote checked written⟩

/-- A plain store changes its bytes, A and D of the leaf, and the dirty bitmap. -/
theorem store_leaves (rel : soRel so = true → s.firstWrites = [])
    (plain : ((s.started .k h.tk).rel so).PlainAccess .write g.va g.len g.tr) (near : s.near .write [g]) :
    ∃ t, exec (.stx h d r plc so sz imm) s = .next t ∧ t.still = (s.does .k h.tk 2 id).still ∧ t.tags = s.tags ∧
      t.cx.spad = s.cx.spad ∧ (∀ a, s.Untouched .write [g] a → s.uncached a → t.mem.read a = s.mem.read a) ∧
      (s.mem.wf = true → ∀ j, j < g.len → (natBytes g.len (s.cx.rx d).toNat)[j]? = some (t.mem.read (g.key .write + j))) := by
  obtain ⟨written, run⟩ := store_run issues unplanned remote hva hn (plc := plc) (d := d) plain near
  have stored := (unstored_stored (s.stores h.tk so g) g (natBytes (sizeBytes sz) (s.cx.rx d).toNat)).trans (State.stores_unstored rel g)
  obtain ⟨still, tags, spad⟩ := State.retired_leaves (s := s) (tk := h.tk) stored rfl (State.started_spad ..)
  have pos : 0 < g.len := hn ▸ sizeBytes_pos sz
  refine ⟨_, run, still, tags, spad, fun a untouched uncached => ?_, fun hw j hj => ?_⟩
  · have spared : g.spared .write (s.dirtyCell s.agent.ctx.launch) a := untouched.spared g (by simp)
    have before : Spares a s (s.stores h.tk so g) := State.stores_spares rel spared.2.1
    have cell : (s.stores h.tk so g).dirtyCell s.agent.ctx.launch = s.dirtyCell s.agent.ctx.launch :=
      funext fun b => (State.dirtyCell_of_unstored (State.stores_unstored rel g) _ b).trans rfl
    have bytes : Spares a (s.stores h.tk so g) _ := writeSegsBits_spares
      (fun x hx => by rw [List.mem_singleton.1 hx, cell]; exact ⟨spared, pos⟩) written
    exact ((before.trans bytes) uncached.clean).1
  · have prior : (s.stores h.tk so g).mem.wf = true := setEntryBits_wf (State.rel_mem_wf (s := s.started .k h.tk) rel hw) _ _
    rw [hn] at hj ⊢
    exact State.stored_read prior (by rwa [natBytes_length])

end

end Sys2Proof.Machine
end

section

/-! PROOFS. What the items of a stream's transfer change: bytes, buffers, held pages, and that the transfer is in flight (01 R27,
09 R264, R269). -/

namespace Sys2Proof.Machine

variable {α : Type} {P : State → Prop} {s t u k : State} {ag : Agent} {st : BitVec 4} {b : Binding} {ac : Acc} {own acc : Nat}
  {str : Stream} {g : Seg} {it : Item}

/-- The machine but for what accesses and buffers change is `k`. -/
abbrev StillAs (k : State) (s : State) : Prop := s.still = k

/-- An operation changes nothing but what accesses and buffers change. -/
def Stills (m : M α) : Prop := ∀ k, Holds (StillAs k) m

theorem Stills.ok {m : M α} {a : α} (h : Stills m) (hm : m s = .ok a t) : t.still = s.still := (h s.still).ok rfl hm

theorem Keeps.stills {m : M α} (h : Keeps m) : Stills m := fun _ s hs => (State.still_of_kept (h s.kept s rfl)).trans hs

theorem Stills.modify {f : State → State} (h : ∀ s, (f s).still = s.still) : Stills (modify f : M Unit) :=
  fun _ => Holds.modify fun s hs => (h s).trans hs

theorem Stills.of_bind_ok {β : Type} {m : M α} {f : α → M β} {c : β} (h : Stills m) (hm : (m >>= f) s = .ok c t) :
    ∃ a u, u.still = s.still ∧ f a u = .ok c t :=
  have ⟨a, u, first, rest⟩ := Machine.of_bind_ok hm
  ⟨a, u, h.ok first, rest⟩

theorem Stills.of_whenThen_ok {β : Type} {p : Prop} [Decidable p] {m : M PUnit} {f : PUnit → M β} {c : β} (h : Stills m)
    (hm : (if p then m >>= f else f ⟨⟩) s = .ok c t) : ∃ u, u.still = s.still ∧ f ⟨⟩ u = .ok c t := by
  split at hm
  · obtain ⟨⟨⟩, u, still, rest⟩ := h.of_bind_ok hm
    exact ⟨u, still, rest⟩
  · exact ⟨s, rfl, hm⟩

/-! ## Contexts -/

theorem still_focus (s : State) {f : Ctx → Ctx} (h : (f s.cx).still = s.cx.still) : ({ s with cx := f s.cx } : State).still = s.still := by
  simp only [State.still, h]

theorem Stills.modCx {f : Ctx → Ctx} (h : ∀ c, (f c).still = c.still) : Stills (modCx f) :=
  fun _ => Holds.modCx fun s hs => (still_focus s (h s.cx)).trans hs

theorem still_updCtx {f : Ctx → Ctx} (h : ∀ c, (f c).still = c.still) (s : State) (c : CtxId) : (s.updCtx c f).still = s.still := by
  unfold State.updCtx
  split
  · exact still_focus s (h s.cx)
  · have each : ∀ x : Ctx, (if x.id == c then f x else x).still = x.still := fun x => by split <;> simp [h]
    simp only [State.still, List.map_map, Function.comp_def, each]

@[simp] theorem Ctx.still_spad (c : Ctx) (m : Memory) : ({ c with spad := m } : Ctx).still = c.still := rfl

@[simp] theorem Ctx.still_setBuf (c : Ctx) (i : BitVec 6) (r : Buffer) : (c.setBuf i r).still = c.still := by
  have unmet : ∀ (p : Prop) [Decidable p] (q : SeqState), SeqState.unmet (if p then { q with met := true } else q) = q.unmet :=
    fun p _ q => by split <;> rfl
  simp only [Ctx.still, Ctx.setBuf, Ctx.updSeqs, unmet]

theorem Ctx.still_holds (c : Ctx) (i : BitVec 4) (pages : List StreamPage) :
    (c.setStream i { c.stream i with pages := pages }).still = c.still := by
  have cleared : (Vector.set c.streams i.toNat { c.stream i with pages := pages } i.isLt).map (fun t => { t with pages := [] }) =
      c.streams.map (fun t => { t with pages := [] }) := by
    ext1 j hj
    rw [Vector.getElem_map, Vector.getElem_map, Vector.getElem_set]
    split
    · rename_i here
      subst here
      rfl
    · rfl
  simp only [Ctx.still, Ctx.setStream, Ctx.updSeqs, cleared]

/-! ## Buffers -/

theorem bufCheck_holds {c : CtxId} {i : BitVec 6} {agent acc : Nat} : Holds P (bufCheck c i agent acc) := by
  unfold bufCheck
  refine Holds.get fun _ _ => ?_
  split
  · exact Holds.fault _
  · exact Holds.ite (fun _ => Holds.throw _) fun _ => Holds.ite (fun _ => Holds.throw _) fun _ => Holds.pure _

theorem bufAccess_stills {c : CtxId} {i : BitVec 6} {agent acc : Nat} : Stills (bufAccess c i agent acc) := fun k =>
  Holds.bind bufCheck_holds fun _ => Stills.modify (fun s => still_updCtx (fun c => c.still_setBuf ..) s _) k

theorem bufFill_stills {c : CtxId} {i : BitVec 6} {top : Nat} : Stills (bufFill c i top) :=
  Stills.modify fun s => still_updCtx (fun c => c.still_setBuf ..) s _

theorem spadEach_stills {me : CtxId} {g : Seg} {f : Ctx → BitVec 6 → M Unit} (hf : ∀ c i, Stills (f c i)) : Stills (spadEach me g f) := by
  intro k
  unfold spadEach
  refine Holds.get fun _ _ => Holds.ite (fun _ => ?_) fun _ => Holds.pure _
  split
  · exact Holds.faultAt _ _
  · exact Holds.eachM fun i => hf _ i k

theorem spadFill_stills {me : CtxId} {g : Seg} : Stills (spadFill me g) := spadEach_stills fun _ _ => bufFill_stills

theorem enterPart_stills {ag : Agent} {own : Nat} {g : Seg} : Stills (enterPart ag own g) := fun k =>
  Holds.ite (fun _ => spadFill_stills k) fun _ =>
    Holds.bind (spadEach_stills (fun _ _ => bufAccess_stills) k) fun _ => Holds.ite (fun _ => spadFill_stills k) fun _ => Holds.pure _

theorem completeBuffer_stills {ag : Agent} {own : Nat} {c : CtxId} {i : BitVec 6} : Stills (completeBuffer ag own c i) := fun k =>
  Holds.get fun _ _ => Holds.ite (fun _ => Holds.pure _) fun _ => Holds.bind bufCheck_holds fun _ =>
    Stills.modify (fun s => still_updCtx (fun c => c.still_setBuf ..) s _) k

theorem closeBuffers_stills {ag : Agent} {ws : List (Item × List Seg)} : Stills (closeBuffers ag ws) := by
  have closed : ∀ (p : Prop) [Decidable p] (x : Ctx) i r, (if p then x.setBuf i r else x).still = x.still :=
    fun p _ x i r => by split <;> simp
  intro k
  unfold closeBuffers
  refine Holds.ite (fun _ => Holds.pure _) fun _ => Holds.eachM fun _ => Holds.modify fun s hs => ?_
  split
  · exact hs
  · exact foldl_keeps (StillAs k) _ (fun u i hu => (still_updCtx (fun x => closed _ x i _) u _).trans hu) _ hs

/-! ## The writes of a transfer -/

theorem itemWrite_stills {ag : Agent} {own : Nat} {str : Stream} {b : Binding} {ac : Acc} {p : Item × List Seg} :
    Stills (itemWrite ag own str b ac p) := by
  intro k
  unfold itemWrite
  dsimp only
  split
  · exact Holds.get fun _ _ => Holds.bind (bufAccess_stills k) fun _ => Holds.bind (Stills.modCx (fun c => c.still_spad _) k) fun _ =>
      bufFill_stills k
  · exact Holds.bind (Holds.eachM fun _ => enterPart_stills k) fun _ => (writeSegsBits_keeps _ _ _ _ _ _).stills k

theorem lastWrite_stills {ag : Agent} {own : Nat} {l : Bool} {b : Binding} {ws : List (Item × List Seg)} :
    Stills (lastWrite ag own l b ws) := by
  intro k
  unfold lastWrite
  refine Holds.get fun _ _ => Holds.ite (fun _ => Holds.pure _) fun _ => Holds.ite (fun _ => bufAccess_stills k) fun _ => ?_
  split
  · exact Holds.pure _
  · split
    · exact Holds.pure _
    · refine Holds.ite (fun _ => Holds.pure _) fun _ => ?_
      split
      · exact Holds.pure _
      · split
        · exact Holds.pure _
        · exact completeBuffer_stills k

theorem performItems_stills {ag : Agent} {own : Nat} {str : Stream} {b : Binding} {ac : Acc} {l : Bool} {ws codes : List (Item × List Seg)} :
    Stills (performItems ag own str b ac l ws codes) := fun k =>
  Holds.bind (Holds.eachM fun _ => itemWrite_stills k) fun _ => Holds.bind (lastWrite_stills k) fun _ =>
    closeBuffers_stills k

/-- The atomic access of one lane changes its bytes and the buffers that hold them. -/
theorem atomItem_stills {ag : Agent} {b : Binding} {op v : Nat} {p : Item × List Seg} : Stills (atomItem ag b op v p) := by
  intro k
  unfold atomItem
  refine Holds.get fun _ _ => ?_
  split
  · refine Holds.bind (bufAccess_stills k) fun _ => Holds.bind (Stills.modCx (fun c => ?_) k) fun _ => bufFill_stills k
    dsimp only
    split <;> simp
  · refine Holds.ite (fun _ => Holds.bind (enterPart_stills k) fun _ => Holds.bind ((markD_keeps _).stills k) fun _ =>
      Holds.bind ((Keeps.modify (kept_inOrderOf _ _)).stills k) fun _ => ?_) fun _ =>
      Holds.bind ((amoAt_keeps _ _ _ _ _ _).stills k) fun _ => Holds.pure _
    split
    · exact Holds.pure _
    · refine Stills.modify (fun s => still_updCtx (fun c => ?_) s _) k
      split <;> simp
  · exact Holds.pure _

/-! ## The checks of a transfer -/

theorem windowCheck_holds {str : Stream} {va : DWord} {n : Nat} : Holds P (windowCheck str va n) := by
  unfold windowCheck
  split
  · exact Holds.faultAt _ _
  · exact Holds.pure _

theorem spadCheck_holds {me : CtxId} {own acc : Nat} {g : Seg} : Holds P (spadCheck me own acc g) := by
  unfold spadCheck
  refine Holds.get fun _ _ => Holds.ite (fun _ => ?_) fun _ => Holds.pure _
  split
  · exact Holds.faultAt _ _
  · exact Holds.ite (fun _ => Holds.faultAt _ _) fun _ => Holds.withTrap (Holds.eachM fun _ => bufCheck_holds)

theorem reachedCheck_holds {ag : Agent} {n : Nat} {va : DWord} : Holds P (reachedCheck ag n va) := by
  unfold reachedCheck
  refine Holds.get fun _ _ => ?_
  dsimp only
  split
  · exact Holds.throw _
  · exact Holds.pure _

theorem shadowCheck_holds {needPair : Bool} {g : Seg} : Holds P (shadowCheck needPair g) :=
  Holds.ite (fun _ => Holds.ite (fun _ => Holds.faultAt _ _) fun _ => Holds.pure _) fun _ =>
    Holds.ite (fun _ => Holds.faultAt _ _) fun _ => Holds.pure _

theorem itemRange_holds {st : BitVec 4} {b : Binding} {it : Item} : Holds P (itemRange st b it) := by
  unfold itemRange
  refine Holds.get fun _ _ => Holds.withTrap (Holds.ite (fun _ => Holds.fault _) fun _ => ?_)
  split
  · exact Holds.ite (fun _ => Holds.throw _) fun _ => Holds.pure _
  · exact Holds.pure _

theorem holdPages_stills {st : BitVec 4} {segs : List Seg} : Stills (holdPages st segs) :=
  Stills.modCx fun c => by
    dsimp only
    split
    · rfl
    · exact c.still_holds st _

theorem itemCheck_stills {ag : Agent} {own : Nat} {st : BitVec 4} {str : Stream} {ac : Acc} {n : Nat} {it : Item} :
    Stills (itemCheck ag own st str ac n it) := by
  intro k
  unfold itemCheck
  refine Holds.withTrap ?_
  split
  · exact Holds.ite (fun _ => Holds.fault _) fun _ => Holds.pure _
  · exact Holds.bind windowCheck_holds fun _ => Holds.whenThen (Holds.faultAt _ _) fun _ =>
      Holds.bind ((pages_keeps _ _ _ _).stills k) fun _ => Holds.bind (Holds.eachM fun _ => spadCheck_holds) fun _ =>
      Holds.whenThen reachedCheck_holds fun _ => Holds.bind ((homeCheck_keeps _ _).stills k) fun _ =>
      Holds.whenThen (Holds.eachM fun _ => shadowCheck_holds) fun _ =>
      Holds.bind (Holds.eachM fun _ => (tagCheck_keeps _ _).stills k) fun _ => Holds.bind ((watchCheck_keeps _ _ _ _).stills k) fun _ =>
      Holds.bind (holdPages_stills k) fun _ => Holds.pure _

theorem landItem_stills {ag : Agent} {st : BitVec 4} {ac : Acc} {p : Item × List Seg} : Stills (landItem ag st ac p) := by
  intro k
  unfold landItem
  split
  · exact Holds.pure _
  · exact Holds.bind (Stills.modify (fun _ => rfl) k) fun _ => holdPages_stills k

/-! ## A transfer in flight -/

/-- The sequencer in focus with a transfer in flight, that has waited so long. -/
def State.flown (f : Option Flight) (w : Nat) (s : State) : State :=
  { s with cx := s.cx.updSeq s.cur (fun q => { q with flight := f, waited := w }) }

theorem State.flown_still (h : t.still = s.still) (f : Option Flight) (w : Nat) : (t.flown f w).still = (s.flown f w).still := by
  have through : ∀ u : State, (u.flown f w).still = u.still.flown f w := fun u => by
    unfold State.flown State.still
    cases u.cur <;> rfl
  rw [through, through, h]

theorem State.flown_self (s : State) : s.flown (s.cx.seq s.cur).flight (s.cx.seq s.cur).waited = s := by
  have same : ∀ (c : Ctx) (q : SeqId), c.updSeq q (fun x => { x with flight := (c.seq q).flight, waited := (c.seq q).waited }) = c :=
    fun c q => by cases q <;> rfl
  unfold State.flown
  rw [same]

theorem State.flown_flown (s : State) (f f' : Option Flight) (w w' : Nat) : (s.flown f w).flown f' w' = s.flown f' w' := by
  have last : ∀ (c : Ctx) (q : SeqId), (c.updSeq q (fun x => { x with flight := f, waited := w })).updSeq q
      (fun x => { x with flight := f', waited := w' }) = c.updSeq q (fun x => { x with flight := f', waited := w' }) :=
    fun c q => by cases q <;> rfl
  unfold State.flown
  rw [last]

theorem Ctx.updSeq_const (c : Ctx) (q : SeqId) (f : SeqState → SeqState) : c.updSeq q f = c.updSeq q (fun _ => f (c.seq q)) := by
  cases q <;> rfl

/-- A change of the sequencer in focus in its transfer and its wait alone. -/
theorem State.flown_of (s : State) {f : SeqState → SeqState} (h : ∀ q, ∃ x w, f q = { q with flight := x, waited := w }) :
    ∃ x w, ({ s with cx := s.cx.updSeq s.cur f } : State) = s.flown x w := by
  obtain ⟨x, w, same⟩ := h (s.cx.seq s.cur)
  refine ⟨x, w, ?_⟩
  unfold State.flown
  rw [Ctx.updSeq_const _ _ f, same, Ctx.updSeq_const _ _ fun q => { q with flight := x, waited := w }]

theorem beginFlight_flown (drain : Option (Nat × Nat)) (s : State) : ∃ f w, beginFlight st drain s = s.flown f w := by
  refine s.flown_of fun q => ?_
  split
  · exact ⟨_, _, rfl⟩
  · exact ⟨_, _, rfl⟩

/-- A wait for what another device has to do has nothing to wait for. -/
theorem awaitReply_ok {pol : Nat} {segs : List Seg} (h : awaitReply ag pol ac segs s = .ok () t) : t = s := by
  unfold awaitReply at h
  rw [get_run] at h
  split at h
  · cases h
    rfl
  · rw [modify_bind] at h
    cases h

theorem naming_ok {f : Nat × Nat × DWord → Nat × Nat × DWord} {m : M α} {a : α} (h : naming ag st f m s = .ok a t) : m s = .ok a t := by
  unfold naming at h
  split at h
  · split at h <;> cases h
  · exact h

/-- The parts of a transfer sent, and that it is in flight noted. -/
theorem awaitAcks_ok {ws : List (Item × List Seg)} (focus : ag.srce ≠ 4) (h : awaitAcks ag st str ac ws s = .ok () t) :
    ∃ f w, t = s.flown f w := by
  unfold awaitAcks at h
  rw [get_run] at h
  dsimp only at h
  split at h
  · exact ⟨_, _, (awaitReply_ok (naming_ok h)).trans s.flown_self.symm⟩
  · rw [modify_bind] at h
    obtain ⟨⟨⟩, u, sent, h⟩ := of_bind_ok h
    obtain ⟨f, w, begun⟩ := beginFlight_flown (st := st) none s
    rw [begun] at sent
    cases sent
    obtain ⟨f', w', noted⟩ := (s.flown f w).flown_of (f := fun q => { q with flight := q.flight.map _ }) fun q => ⟨_, q.waited, rfl⟩
    exact ⟨f', w', (awaitReply_ok (naming_ok h)).trans (noted.trans (s.flown_flown f f' w w'))⟩

theorem itemsCheck_ok {items : List Item} {ws : List (Item × List Seg)} (focus : ag.srce ≠ 4)
    (h : itemsCheck ag own st str b ac items s = .ok ws t) : ∃ f w, t.still = (s.flown f w).still := by
  unfold itemsCheck at h
  cases accepted : ag.accepted with
  | some parts =>
    simp only [accepted] at h
    obtain ⟨⟨⟩, u, landed, h⟩ := of_bind_ok h
    cases h
    have still : t.still = s.still := Stills.ok (fun k => Holds.eachM fun _ => landItem_stills k) landed
    exact ⟨_, _, still.trans (by rw [s.flown_self])⟩
  | none =>
    simp only [accepted] at h
    rw [get_run] at h
    obtain ⟨v1, still1, h⟩ := Stills.of_whenThen_ok (fun _ => bufCheck_holds) h
    obtain ⟨⟨⟩, v2, still2, h⟩ := Stills.of_bind_ok (fun _ => Holds.eachM fun _ => itemRange_holds) h
    obtain ⟨ws', v3, still3, h⟩ := Stills.of_bind_ok
      (fun k => Holds.collectM fun _ => Holds.bind (itemCheck_stills k) fun _ => Holds.pure _) h
    obtain ⟨⟨⟩, u, sent, h⟩ := of_bind_ok h
    cases h
    obtain ⟨f, w, rfl⟩ := awaitAcks_ok focus sent
    exact ⟨f, w, State.flown_still (still3.trans (still2.trans still1)) f w⟩

/-- The items of a transfer written note it in flight, and change no register and no other context. -/
theorem State.Writes.still {items : List Item} {l : Bool} {ws ps codes : List (Item × List Seg)}
    (h : s.Writes st str b items l ws ps codes u) : ∃ f w, u.still = (s.flown f w).still := by
  obtain ⟨v, checked, performed⟩ := h
  have focus : s.agent.srce ≠ 4 := by
    show seqNum s.cur ≠ 4
    cases s.cur <;> decide
  obtain ⟨f, w, flown⟩ := itemsCheck_ok focus checked
  exact ⟨f, w, (performItems_stills.ok performed).trans flown⟩

end Sys2Proof.Machine
end

section

/-! PROOFS. What every access leaves (O57). -/

namespace Sys2Proof.Machine

/-- Settles O57: a word of K changes its register and its part; each write, atomic or item keeps the rest of the machine. -/
theorem accessesChangeOnlyTheirBytes : Obligations.AccessesChangeOnlyTheirBytes := by
  unfold Obligations.AccessesChangeOnlyTheirBytes
  refine fun s => ⟨fun i h d a pol so sz imm g issues unplanned remote hva hn => ⟨fun hi plain near _ => ?_, fun hi rel plain near _ => ?_⟩,
    fun pol segs data t near pos ok => near.writeSegs_leaves pos ok, fun g op v w old t pos ok => amoAt_leaves pos ok,
    fun k pol segs data t pos ok => writeSegs_leaves pos ok, fun st t bd items l ws ps codes u writes => writes.still,
    fun bd op l u ok => Stills.ok (fun k => Holds.eachM fun _ => atomItem_stills k) ok⟩
  · exact load_leaves issues unplanned remote hva hn hi plain near
  · subst hi
    exact store_leaves issues unplanned remote hva hn rel plain near

end Sys2Proof.Machine
end

section

/-! PROOFS. A node completes, and a late one is counted (05 R155, R156). -/

namespace Sys2Proof.Machine

variable {s : State} {c : CtxId} {x : Ctx} {l : Launch} {n : Node}

/-! ## Lists changed in one place -/

theorem modAt_eq_modify {α : Type} (xs : List α) (i : Nat) (f : α → α) : modAt xs i f = xs.modify i f := by
  induction xs generalizing i with
  | nil => simp [modAt]
  | cons x xs ih => cases i <;> simp [modAt, ih]

theorem getElem?_modAt {α : Type} (xs : List α) (i : Nat) (f : α → α) (j : Nat) :
    (modAt xs i f)[j]? = if j = i then xs[j]?.map f else xs[j]? := by
  rw [modAt_eq_modify, List.getElem?_modify]
  by_cases here : j = i <;> simp [here, Ne.symm]

/-- Each entry of a successor list takes one from the count of the node that it names. -/
theorem getElem?_releaseSuccs (ns : List Node) (succ : List Nat) (j : Nat) :
    (releaseSuccs ns succ)[j]? = ns[j]?.map (fun n => { n with remaining := n.remaining - succ.count j }) := by
  induction succ generalizing ns with
  | nil => simp [releaseSuccs]
  | cons i is ih =>
    have first : releaseSuccs ns (i :: is) = releaseSuccs (modAt ns i (fun n => { n with remaining := n.remaining - 1 })) is := rfl
    rw [first, ih, getElem?_modAt, List.count_cons]
    by_cases here : j = i <;> simp [here, Function.comp_def, Nat.sub_sub, Nat.add_comm, Ne.symm]

/-! ## Launches by number -/

/-- A launch that is found has the number by which it is found. -/
theorem State.num_of_launch? {k : Nat} (h : s.launch? k = some l) : l.num = k := by
  have found := List.find?_some h
  simpa using found

/-- A change of the nodes of a launch is found under its number. -/
theorem State.launch?_updNodes (g : Launch → List Node) (s : State) (k : Nat) :
    (s.updLaunch k (fun l => { l with nodes := g l })).launch? k = (s.launch? k).map (fun l => { l with nodes := g l }) := by
  have same : ∀ l : Launch, (if l.num == k then { l with nodes := g l } else l).num = l.num := fun l => by split <;> rfl
  unfold State.launch? State.updLaunch
  rw [List.find?_map]
  simp only [Function.comp_def, same]
  cases found : s.launches.find? (fun l => l.num == k) with
  | none => rfl
  | some l =>
    have num : l.num = k := by simpa using List.find?_some found
    simp [num]

/-! ## Completion -/

/-- The nodes of a launch after one of them has completed: its successors are released, unless it has spawned. -/
def nodesAfter (ns : List Node) (i : Nat) (n : Node) : List Node :=
  let done := modAt ns i (fun n => { n with st := .done })
  if n.spawned then done else releaseSuccs done n.succ

theorem nodesAfter_eq (ns : List Node) (i : Nat) (n : Node) : nodesAfter ns i n = ns.zipIdx.map (fun p => { p.1 with
    st := if p.2 = i then .done else p.1.st
    remaining := p.1.remaining - if n.spawned then 0 else n.succ.count p.2 }) := by
  refine List.ext_getElem? fun j => ?_
  unfold nodesAfter
  by_cases here : j = i <;> cases n.spawned <;> simp [getElem?_releaseSuccs, getElem?_modAt, here, Function.comp_def]

/-- The machine in which a node has completed, before the ready nodes settle. -/
def State.nodeDone (s : State) (x : Ctx) (l : Launch) (n : Node) : State :=
  ((cleanLines (fun e => e.line * 64 / 2 ^ 48 == s.dev) s).updCtx x.id (fun c => { c with status := .idle, lastDone := s.clock })).updLaunch
    l.num (fun l => { l with nodes := nodesAfter l.nodes x.node n })

theorem completeNode_eq (x : Ctx) (l : Launch) (n : Node) (s : State) : completeNode x l n s = (s.nodeDone x l n).settle l.num := rfl

theorem State.nodeDone_launch? (hl : s.launch? l.num = some l) (x : Ctx) (n : Node) :
    (s.nodeDone x l n).launch? l.num = some { l with nodes := nodesAfter l.nodes x.node n } := by
  unfold State.nodeDone
  rw [State.launch?_updNodes]
  simp only [State.launch?, State.updCtx_launches]
  exact congrArg (Option.map _) hl

theorem State.nodeDone_ctx? (s : State) (x : Ctx) (l : Launch) (n : Node) (o : CtxId) :
    (s.nodeDone x l n).ctx? o =
      if o = x.id then (s.ctx? o).map (fun c => { c with status := .idle, lastDone := s.clock }) else s.ctx? o :=
  State.ctx?_updCtx (f := fun c => { c with status := .idle, lastDone := s.clock }) (fun _ => rfl)
    (cleanLines (fun e => e.line * 64 / 2 ^ 48 == s.dev) s) o

/-- The release of a completion leaves nothing dirty of the lines of this device (04 R121, 05 R155). -/
theorem State.nodeDone_clean {e : L2Line} (he : e ∈ (s.nodeDone x l n).l2) (here : e.line * 64 / 2 ^ 48 = s.dev) : e.dirty = 0 := by
  unfold State.nodeDone at he
  rw [State.updLaunch_l2, State.updCtx_l2] at he
  obtain ⟨e', -, rfl⟩ := List.mem_map.1 he
  by_cases sel : (e'.line * 64 / 2 ^ 48 == s.dev) = true
  · rw [if_pos sel]
  · rw [if_neg sel] at here
    exact absurd (beq_iff_eq.2 here) sel

/-- A node of a context completes where it is over, and its launch runs. -/
theorem exec_nodeComplete (hx : s.ctx? c = some x) (hl : s.launch? c.launch = some l) (running : x.status = .running)
    (ended : x.nodeOver = true) (written : s.firstWrites = []) (node : c.lcore ≠ Config.handlerLcore) (run : l.run = .running)
    (hn : l.nodes[x.node]? = some n) : exec (.nodeComplete c) s = .next (completeNode x l n s) := by
  show Host.Outcome.next _ = _
  simp [hx, hl, running, ended, written, node, run, hn]

/-- The handler's node completes where it holds no frame, and waits for the next one (14 R389). -/
theorem exec_nodeComplete_handler (hx : s.ctx? c = some x) (hl : s.launch? c.launch = some l) (running : x.status = .running)
    (ended : x.nodeOver = true) (written : s.firstWrites = []) (handler : c.lcore = Config.handlerLcore) (none : l.held = none) :
    exec (.nodeComplete c) s = .next (State.updLaunch
      (s.updCtx c (fun x => { x with status := .idle, place := .unplaced, lastDone := s.clock })) l.num
      (fun l => { l with nodes := modAt l.nodes l.handler (fun n => { n with st := .blocked }) })) := by
  show Host.Outcome.next _ = _
  simp [hx, hl, running, ended, written, handler, none]

/-! ## Lateness -/

/-- The first of a list stands in it. -/
theorem mem_of_firstBy {α : Type} {lt : α → α → Bool} {xs : List α} {a : α} (h : firstBy lt xs = some a) : a ∈ xs := by
  induction xs generalizing a with
  | nil => cases h
  | cons b bs ih =>
    unfold firstBy at h
    cases rest : firstBy lt bs with
    | none =>
      rw [rest] at h
      cases h
      exact List.mem_cons_self
    | some y =>
      simp only [rest] at h
      split at h <;> cases h
      · exact List.mem_cons_of_mem _ (ih rest)
      · exact List.mem_cons_self

theorem lateNode_lt {k : Key} {i : Nat} (h : lateNode s = some (k, l, i)) : i < l.nodes.length := by
  obtain ⟨l', -, inside⟩ := List.mem_flatMap.1 (mem_of_firstBy h)
  obtain ⟨j, hj, found⟩ := List.mem_filterMap.1 inside
  split at found
  · split at found <;> cases found
    exact List.mem_range.1 hj
  · cases found

/-- A late node with the nodes `gone` that its lateness discards. -/
def Launch.lateWith (l : Launch) (i : Nat) (gone : List Nat) : Launch :=
  { l with
    late := l.late + 1, firstLate := if l.firstLate = 0xFFFF then i else l.firstLate, discard := l.discard + gone.length
    nodes := (modAt l.nodes i (fun n => { n with late := true })).zipIdx.map (fun p =>
      if gone.contains p.2 then { p.1 with st := .discarded } else p.1) }

/-- The machine that holds the launch so: a context of it that was to go on with a discarded node has none. -/
def State.lateWith (s : State) (l : Launch) (i : Nat) (gone : List Nat) : State :=
  (s.updLaunch l.num (fun _ => l.lateWith i gone)).updCtxsOf l.num (fun c =>
    if gone.contains c.node && c.status != .idle && l.poolHolds c.node then { c with status := .idle } else c)

/-- The machine after a node was found late: its completion record tells so, and the ready nodes settle. -/
def State.afterLate (s : State) (l : Launch) (i : Nat) (gone : List Nat) : State :=
  (crecLate (l.lateWith i gone) (s.lateWith l i gone)).settle l.num

/-- The nodes that go with a late one under ABL. -/
def Launch.goneWith (l : Launch) (i : Nat) : List Nat :=
  (reach l.nodes l.nodes.length [i]).filter (fun j => (l.nodes[j]?).any (fun n => n.st != .discarded))

theorem exec_nodeLate {k : Key} {i : Nat} (h : lateNode s = some (k, l, i)) : 
    exec .nodeLate s = .next (s.afterLate l i (if l.abl then l.goneWith i else [])) := by
  show Host.Outcome.next _ = _
  rw [h]
  rfl

theorem Launch.lateWith_nil (l : Launch) (i : Nat) : l.lateWith i [] = { l with
    late := l.late + 1, firstLate := if l.firstLate = 0xFFFF then i else l.firstLate
    nodes := modAt l.nodes i (fun n => { n with late := true }) } := by
  simp [Launch.lateWith]

theorem State.lateWith_nil (s : State) (l : Launch) (i : Nat) : s.lateWith l i [] = s.updLaunch l.num (fun _ => l.lateWith i []) := by
  simp only [State.lateWith, State.updCtxsOf, List.contains_nil, Bool.false_and, Bool.false_eq_true, if_false, ite_self, List.map_id']


theorem Launch.goneWith_nodup (l : Launch) (i : Nat) : (l.goneWith i).Nodup := (nodup_reach _ _ _ (by simp)).filter _

theorem Launch.mem_goneWith {i j : Nat} (hi : i < l.nodes.length) :
    j ∈ l.goneWith i ↔ l.reaches i j ∧ ∃ n, l.nodes[j]? = some n ∧ n.st ≠ .discarded := by
  unfold Launch.goneWith
  rw [List.mem_filter, mem_reach hi]
  cases l.nodes[j]? <;> simp

end Sys2Proof.Machine
end

section

/-! PROOFS. Banks are exchanged, and contexts leave them and come into them (05 R154, R157 to R161; 15 R416). -/

namespace Sys2Proof.Machine

variable {s : State} {c : CtxId} {x y a : Ctx} {l : Launch} {n : Node} {core : Nat × Nat} {d i b : Nat}

/-! ## The active bank -/

theorem State.activeBank_activate (s : State) (core : Nat × Nat) (k : Nat) :
    (s.activate core k).activeBank core = if k = 1 then 1 else 0 := by
  unfold State.activate State.activeBank
  by_cases one : k = 1 <;> by_cases held : core ∈ s.bank1 <;> simp [one, held]

theorem State.activeBank_activate_of_ne {o : Nat × Nat} (h : o ≠ core) (s : State) (k : Nat) :
    (s.activate core k).activeBank o = s.activeBank o := by
  unfold State.activate State.activeBank
  by_cases one : k = 1 <;> by_cases held : core ∈ s.bank1 <;> simp [one, held, h]

theorem State.activeBank_swap (s : State) (core : Nat × Nat) : (s.swap core).activeBank core = 1 - s.activeBank core := by
  unfold State.swap
  rw [State.activeBank_activate]
  unfold State.activeBank
  split <;> simp

/-- What a context that is in neither a plan nor at work does, so that one of the shadow bank may take its place (05 R160, R161). -/
def Ctx.rests (a : Ctx) : Prop :=
  a.status = .idle ∨ a.status = .parked ∨ a.status = .yielded ∨ a.onReply = true ∨ a.status = .stopped

/-- The shadow context takes the bank of one that yields to its wave (11 R324). -/
theorem exec_bankSwap_wave (shadow : s.shadowOf (d, i) = some y) (active : s.inBank (d, i) (s.activeBank (d, i)) = some a)
    (free : s.awaited a.id = false) (wave : s.awaited y.id = true) (way : s.makesWay a.id = true) :
    exec (.bankSwap d i) s = .next (s.swap (d, i)) := by
  show Host.Outcome.next _ = _
  simp [shadow, active, State.claims, free, wave, way]

/-- The shadow context takes the bank of one that has halted, or rests outside a plan. -/
theorem exec_bankSwap_rest (shadow : s.shadowOf (d, i) = some y) (active : s.inBank (d, i) (s.activeBank (d, i)) = some a)
    (free : s.awaited a.id = false) (claims : s.claims y = true) (ended : a.allHalted = true ∨ s.inPlan a = false ∧ a.rests) :
    exec (.bankSwap d i) s = .next (s.swap (d, i)) := by
  have gives : (a.allHalted || (!s.inPlan a && (a.status == .idle || a.status == .parked || a.status == .yielded || a.onReply ||
      a.status == .stopped))) = true := by
    simpa [Ctx.rests, or_assoc] using ended
  show Host.Outcome.next _ = _
  simp only [shadow, active, claims, free, gives, Bool.not_true, Bool.false_eq_true, if_false, if_true, ite_self]

theorem exec_preemption (shadow : s.shadowOf (d, i) = some y) (active : s.inBank (d, i) (s.activeBank (d, i)) = some a)
    (claims : s.claims y = true) (stays : (s.awaited a.id && s.makesWay y.id) = false) (outside : s.inPlan a = false)
    (lower : Key.lt (s.keyOf y) (s.keyOf a) = true) : exec (.preemption d i) s = .next (s.swap (d, i)) := by
  show Host.Outcome.next _ = _
  simp only [shadow, active, claims, stays, outside, lower, Bool.not_false, Bool.and_self, if_true]

/-! ## Leaving a bank and coming into one -/

/-- A context as it leaves its bank. -/
def Ctx.spilled (c : Ctx) : Ctx := { c with place := .spilled c.core.1, streams := c.streams.map Stream.unheld }

/-- A context as it stands in a place. -/
def Ctx.standingIn (c : Ctx) (place : Place) : Ctx := { c with place := place }

theorem spillCtx_eq (h : s.ctx? c = some x) : spillCtx c s = { (cleanLines (fun e => e.die == x.core.1) s).updCtx c Ctx.spilled with
    tiles := s.tiles.filter (fun t => t.core != x.core) } := by
  unfold spillCtx
  rw [h]
  rfl

theorem spillCtx_none (h : s.ctx? c = none) : spillCtx c s = s := by
  unfold spillCtx
  rw [h]

theorem State.ctx?_spillCtx (s : State) (c o : CtxId) :
    (spillCtx c s).ctx? o = if o = c then (s.ctx? o).map Ctx.spilled else s.ctx? o := by
  cases h : s.ctx? c with
  | none =>
    rw [spillCtx_none h]
    split
    · rename_i same
      rw [same, h]
      rfl
    · rfl
  | some x =>
    rw [spillCtx_eq h]
    exact State.ctx?_updCtx (f := Ctx.spilled) (fun _ => rfl) (cleanLines (fun e => e.die == x.core.1) s) o

/-- A spill changes contexts, the memory and lines that it writes back to, and the tiles of a core. -/
theorem spillCtx_rest (c : CtxId) (s : State) :
    { spillCtx c s with cx := s.cx, others := s.others, mem := s.mem, l2 := s.l2, tiles := s.tiles } = s := by
  cases h : s.ctx? c with
  | none => rw [spillCtx_none h]
  | some x =>
    rw [spillCtx_eq h]
    unfold State.updCtx
    split <;> rfl

theorem State.ctx?_restoreInto (s : State) (c : CtxId) (bank : Nat × Nat × Nat) (o : CtxId) : (s.restoreInto c bank).ctx? o =
    if o = c then (s.ctx? o).map (fun x => x.standingIn (.bank bank.1 bank.2.1 bank.2.2)) else s.ctx? o :=
  State.ctx?_updCtx (f := fun x => x.standingIn (.bank bank.1 bank.2.1 bank.2.2)) (fun _ => rfl) (freshLines (fun e => e.die == bank.1) s) o

/-- A restore changes contexts, and lines of its die. -/
theorem State.restoreInto_rest (s : State) (c : CtxId) (bank : Nat × Nat × Nat) :
    { s.restoreInto c bank with cx := s.cx, others := s.others, l2 := s.l2 } = s := by
  unfold State.restoreInto State.updCtx
  split <;> rfl

theorem exec_spill {w : Launch × Node × Nat × Key} (hx : s.ctx? c = some x) (may : s.spillable x = true) (wants : w ∈ s.wanting)
    (place : placeFor s w.1 w.2.1 w.2.2.1 w.2.2.2 = some (d, i, b, some c)) : exec (.spill c) s = .next (spillCtx c s) := by
  have wanted : s.wanting.any (fun w => match placeFor s w.1 w.2.1 w.2.2.1 w.2.2.2 with
      | some (_, _, _, some v) => v == c
      | _ => false) = true := List.any_eq_true.2 ⟨w, wants, by simp [place]⟩
  show Host.Outcome.next _ = _
  rw [hx]
  exact congrArg Host.Outcome.next (if_pos (by rw [may, Bool.true_and]; exact (congrArg _ wanted).trans (Bool.or_true _)))

theorem exec_contextYield (hx : s.ctx? c = some x) (due : s.yieldDue x = true) :
    exec (.contextYield c) s = .next (s.updCtx c (fun x => { x with status := .yielded })) := by
  show Host.Outcome.next _ = _
  simp only [hx, due, if_true]

theorem exec_contextRestore {die : Nat} {v : Option CtxId} (hx : s.ctx? c = some x) (hl : s.launch? c.launch = some l)
    (run : l.run = .running) (spilled : x.place = .spilled die) (hn : l.nodes[x.node]? = some n) (wants : s.wantsBank x = true)
    (place : placeFor.other s l n c.lcore (s.keyOf x) = some (d, i, b, v)) :
    exec (.contextRestore c d i b) s = .next ((s.makeRoom (d, i, b) v).restoreInto c (d, i, b)) := by
  show Host.Outcome.next _ = _
  simp [hx, hl, run, spilled, hn, wants, place]

end Sys2Proof.Machine
end

section

/-! PROOFS. Reads change no context. -/

namespace Sys2Proof.Machine

/-- An operation leaves the context in focus as it is. -/
def LeavesFocus {α : Type} (m : M α) : Prop := ∀ c, Holds (fun s : State => s.cx = c) m

theorem LeavesFocus.ok {α : Type} {m : M α} (h : LeavesFocus m) {s t : State} {a : α} (hm : m s = .ok a t) : t.cx = s.cx :=
  (h s.cx).ok (P := fun u : State => u.cx = s.cx) rfl hm

theorem LeavesFocus.modify {f : State → State} (h : ∀ s, (f s).cx = s.cx) : LeavesFocus (modify f : M Unit) :=
  fun _ => Holds.modify fun s hs => (h s).trans hs

theorem State.cx_of_unstored {s t : State} (h : t.unstored = s.unstored) : t.cx = s.cx := (congrArg (fun u : State => u.cx) h :)

theorem passA_leavesFocus (k : Acc) (va : DWord) (t : Tr) : LeavesFocus (passA k va t) := fun _ =>
  Holds.ite (fun _ => Holds.modify fun _ hs => hs) fun _ => Holds.pure _

theorem translateAll_leavesFocus (ag : Agent) (k : Acc) (crosses : Bool) (parts : List (DWord × Nat)) :
    LeavesFocus (translateAll ag k crosses parts) := by
  intro c
  induction parts with
  | nil => exact Holds.pure _
  | cons part rest ih =>
    unfold translateAll
    refine Holds.get fun s _ => ?_
    split
    · exact Holds.bind (passA_leavesFocus _ _ _ c) fun _ => Holds.bind ih fun _ => Holds.pure _
    · refine Holds.get fun u _ => ?_
      split
      · exact Holds.faultAt _ _
      · split
        · exact Holds.bind (passA_leavesFocus _ _ _ c) fun _ => Holds.faultAt _ _
        · exact Holds.faultAt _ _

theorem pages_leavesFocus (ag : Agent) (k : Acc) (va : DWord) (n : Nat) : LeavesFocus (pages ag k va n) := by
  intro c
  refine Holds.ite (fun _ => Holds.faultAt _ _) fun _ => Holds.bind (translateAll_leavesFocus ag k _ _ c) fun _ => ?_
  split
  · exact Holds.ite (fun _ => Holds.faultAt _ _) fun _ => Holds.pure _
  · exact Holds.pure _

theorem reachCheck_leavesFocus (ag : Agent) (segs : List Seg) : LeavesFocus (reachCheck ag segs) := by
  intro c
  unfold reachCheck
  split
  · exact Holds.ite (fun _ => Holds.pure _) fun _ => Holds.faultAt _ _
  · exact Holds.pure _

theorem homeCheck_leavesFocus (k : Acc) (segs : List Seg) : LeavesFocus (homeCheck k segs) := by
  intro c
  unfold homeCheck
  refine Holds.get fun s _ => ?_
  dsimp only
  split
  · exact Holds.faultAt _ _
  · exact Holds.faultAt _ _
  · exact Holds.pure _

theorem tagCheck_leavesFocus (k : Acc) (g : Seg) : LeavesFocus (tagCheck k g) := by
  intro c
  unfold tagCheck
  refine Holds.get fun s _ => Holds.ite (fun _ => ?_) fun _ => Holds.pure _
  dsimp only
  split
  · exact Holds.throw _
  · exact Holds.pure _

theorem watchCheck_leavesFocus (ag : Agent) (k : Acc) (va : DWord) (n : Nat) : LeavesFocus (watchCheck ag k va n) := fun _ =>
  Holds.get fun _ hs => Holds.ite (fun _ => Holds.faultAt _ _) fun _ => Holds.set hs

theorem checkAccess_leavesFocus (ag : Agent) (k : Acc) (va : DWord) (n : Nat) : LeavesFocus (checkAccess ag k va n) := fun c =>
  Holds.bind (pages_leavesFocus ag k va n c) fun segs => Holds.bind (reachCheck_leavesFocus ag segs c) fun _ =>
    Holds.bind (homeCheck_leavesFocus k segs c) fun _ => Holds.bind (Holds.eachM fun g => tagCheck_leavesFocus k g c) fun _ =>
      Holds.bind (watchCheck_leavesFocus ag k va n c) fun _ => Holds.pure _

theorem bringLines_cx (ag : Agent) (lines : List Nat) (s : State) :
    (lines.foldl (fun s line => bringLine ag line 0 s) s).cx = s.cx := by
  induction lines generalizing s with
  | nil => rfl
  | cons line lines ih => exact (ih _).trans (State.cx_of_unstored (unstored_bringLine ag line 0 s))

theorem fetchSeg_leavesFocus (ag : Agent) (pol : Nat) (g : Seg) : LeavesFocus (fetchSeg ag pol g) := by
  intro c
  unfold fetchSeg
  refine Holds.get fun s hs => Holds.ite (fun _ => ?_) fun _ => Holds.ite (fun _ => ?_) fun _ => ?_
  · split
    · exact Holds.faultAt _ _
    · exact Holds.pure _
  · exact Holds.bind (Holds.set hs) fun _ => Holds.pure _
  · refine Holds.bind (Holds.set ?_) fun _ => Holds.pure _
    split
    · exact (bringLines_cx ag _ s).trans hs
    · exact hs

theorem readSegs_leavesFocus (ag : Agent) (pol : Nat) (segs : List Seg) : LeavesFocus (readSegs ag pol segs) := by
  intro c
  induction segs with
  | nil => exact Holds.pure _
  | cons g gs ih =>
    have ordered := LeavesFocus.modify (fun s => State.cx_of_unstored (unstored_inOrderOf ag g.tr s)) c
    exact Holds.bind (Holds.bind ordered fun _ => fetchSeg_leavesFocus ag pol g c) fun _ => Holds.bind ih fun _ => Holds.pure _

theorem readMem_leavesFocus (ag : Agent) (pol : Nat) (va : DWord) (n : Nat) : LeavesFocus (readMem ag pol va n) := fun c =>
  Holds.bind (checkAccess_leavesFocus ag .read va n c) fun segs => readSegs_leavesFocus ag pol segs c

theorem readNodeArgs_leavesFocus (l : Launch) (n : Node) : LeavesFocus (readNodeArgs l n) := fun c =>
  Holds.bind (Holds.eachM fun _ => Holds.bind (readMem_leavesFocus _ _ _ _ c) fun _ => Holds.ite (fun _ => Holds.fault _) fun _ => Holds.pure _)
    fun _ => Holds.bind (readMem_leavesFocus _ _ _ _ c) fun _ => Holds.pure _

end Sys2Proof.Machine
end

section

/-! PROOFS. A node is dispatched (05 R148, R152 to R155; 15 R415). -/

namespace Sys2Proof.Machine

variable {s : State} {d : Dispatch} {l : Launch} {n : Node} {x : Ctx} {c : CtxId}

/-! ## The machine that a dispatch finds -/

theorem State.ctx?_makeRoom (s : State) (bank : Nat × Nat × Nat) (v : Option CtxId) (o : CtxId) :
    (s.makeRoom bank v).ctx? o = if v = some o then (s.ctx? o).map Ctx.spilled else s.ctx? o := by
  have active : ∀ u : State, (if u.yields (bank.1, bank.2.1) then u.activate (bank.1, bank.2.1) bank.2.2 else u).ctx? o = u.ctx? o :=
    fun u => by split <;> rfl
  refine (active _).trans ?_
  cases v with
  | none => rfl
  | some v => simpa [eq_comm] using s.ctx?_spillCtx v o

theorem spillCtx_launches (c : CtxId) (s : State) : (spillCtx c s).launches = s.launches :=
  (congrArg (fun u : State => u.launches) (spillCtx_rest c s) :)

theorem State.makeRoom_launches (s : State) (bank : Nat × Nat × Nat) (v : Option CtxId) : (s.makeRoom bank v).launches = s.launches := by
  have active : ∀ u : State,
      (if u.yields (bank.1, bank.2.1) then u.activate (bank.1, bank.2.1) bank.2.2 else u).launches = u.launches :=
    fun u => by split <;> rfl
  refine (active _).trans ?_
  cases v with
  | none => rfl
  | some v => exact spillCtx_launches v s

theorem State.ctx?_dispatched (s : State) (d : Dispatch) (o : CtxId) :
    (s.dispatched d).ctx? o = if d.spills = some o then (s.ctx? o).map Ctx.spilled else s.ctx? o :=
  s.ctx?_makeRoom d.bank d.spills o

theorem State.launch?_dispatched (s : State) (d : Dispatch) : (s.dispatched d).launch? d.launch = (s.launch? d.launch).map (fun l =>
    { l with nodes := modAt l.nodes d.node (fun n => { n with st := .running, lcore := d.lcore }) }) := by
  unfold State.dispatched
  rw [State.launch?_updNodes]
  simp only [State.launch?, State.makeRoom_launches]

/-! ## The context in focus -/

theorem State.ctx?_takeCtx (s : State) (c : CtxId) : (s.takeCtx c).2.ctx? c = some ((s.ctx? c).getD { id := c }) := by
  unfold State.takeCtx
  cases h : s.ctx? c with
  | some x => exact h
  | none =>
    have new : State.ctx? { s with others := s.others ++ [{ id := c }] } c = (s.ctx? c).or (some { id := c }) := by
      simp only [State.ctx?, State.ctxs, ← List.cons_append, List.find?_append]
      simp
    rw [h] at new
    exact new

theorem State.takeCtx_launches (s : State) (c : CtxId) : (s.takeCtx c).2.launches = s.launches := by
  unfold State.takeCtx
  split <;> rfl

theorem State.cx_focus (h : s.ctx? c = some x) : (s.focus c).cx = x := by
  unfold State.focus
  by_cases here : s.cx.id = c
  · rw [if_pos here]
    simpa [State.ctx?, State.ctxs, here] using h
  · have found : s.others.find? (fun x => x.id == c) = some x := by simpa [State.ctx?, State.ctxs, here] using h
    rw [if_neg here, found]

/-- The bank that a dispatch gives. -/
def Dispatch.place (d : Dispatch) : Place := .bank d.bank.1 d.bank.2.1 d.bank.2.2

/-- The logical core that a dispatch runs its node as. -/
def Dispatch.id (d : Dispatch) : CtxId := ⟨d.launch, d.lcore⟩

/-- The context in focus at a start is what its logical core had, as 05 R148 has it at the start of a node. -/
theorem State.startAt_cx (s : State) (d : Dispatch) (l : Launch) (n : Node) :
    ((s.dispatched d).startAt d l n).cx = ((s.ctx? d.id).getD { id := d.id }).startNode n d.node l.asid d.place := by
  have taken : (((s.dispatched d).takeCtx d.id).2.updCtx d.id (fun c => c.startNode n d.node l.asid d.place)).ctx? d.id =
      some ((((s.dispatched d).ctx? d.id).getD { id := d.id }).startNode n d.node l.asid d.place) := by
    rw [State.ctx?_updCtx (f := fun c => c.startNode n d.node l.asid d.place) fun _ => rfl, if_pos rfl, State.ctx?_takeCtx]
    rfl
  refine (State.cx_focus taken).trans ?_
  rw [State.ctx?_dispatched]
  split
  · cases s.ctx? d.id <;> rfl
  · rfl

theorem State.startAt_id (s : State) (d : Dispatch) (l : Launch) (n : Node) : ((s.dispatched d).startAt d l n).cx.id = d.id := by
  rw [State.startAt_cx]
  show ((s.ctx? d.id).getD { id := d.id }).id = d.id
  cases found : s.ctx? d.id with
  | none => rfl
  | some x => exact State.id_of_ctx? found

theorem State.startAt_launch? (s : State) (d : Dispatch) (l : Launch) (n : Node) (k : Nat) :
    (s.startAt d l n).launch? k = s.launch? k := by
  simp only [State.startAt, State.launch?, State.focus_launches, State.updCtx_launches, State.takeCtx_launches]

theorem State.startAt_running (hl : s.launch? d.launch = some l) (hn : l.nodes[d.node]? = some n) :
    (((s.dispatched d).startAt d l n).launch? d.launch).any (fun l =>
      (l.nodes[d.node]?).any (fun m => m.st == .running && m.lcore == d.lcore)) = true := by
  rw [State.startAt_launch?, State.launch?_dispatched, hl]
  simp [getElem?_modAt, hn]

/-! ## A context at the start of a node -/

theorem Ctx.startNode_seq (c : Ctx) (n : Node) (i : Nat) (asid : BitVec 13) (p : Place) (q : SeqId) :
    (c.startNode n i asid p).seq q = startSeq n q := by
  cases q <;> rfl

theorem startSeq_rq (n : Node) (q : SeqId) (i : BitVec 3) : (startSeq n q).rq i = (i == 0) := by
  simp [startSeq, SeqState.rq, Vector.get]

theorem Ctx.startNode_startsFrom (c : Ctx) (n : Node) (i : Nat) (asid : BitVec 13) (p : Place) :
    (c.startNode n i asid p).StartsFrom c where
  scalars := ⟨rfl, rfl, rfl, rfl, rfl⟩
  images := ⟨rfl, rfl, rfl, rfl⟩
  seqs q := by
    rw [Ctx.startNode_seq]
    exact ⟨rfl, startSeq_rq n q⟩
  streams st := by simp [Ctx.stream, Ctx.startNode, Ctx.keepForNode, Vector.get]
  queues := ⟨rfl, rfl, rfl, rfl, fun i => by simp [Ctx.tokens, Ctx.startNode, Ctx.keepForNode]⟩
  kept := ⟨rfl, rfl, rfl, rfl, rfl, rfl, rfl, rfl, rfl, rfl, rfl⟩

/-! ## Dispatch -/

theorem exec_nodeDispatch (none : handlerReady s = none) (hd : nextDispatch s = some d) (hl : s.launch? d.launch = some l)
    (hn : l.nodes[d.node]? = some n) : exec .nodeDispatch s = .next (s.dispatch d l n) := by
  show Host.Outcome.next _ = _
  simp only [none, hd, hl, hn]

theorem exec_nodeDispatch_handler (h : handlerReady s = some l) : exec .nodeDispatch s = .next (dispatchHandler l s) := by
  show Host.Outcome.next _ = _
  rw [h]

/-- A node that was frozen as it ran goes on in its context, which comes into the bank of the dispatch. -/
theorem State.ctx?_dispatch_recorded (h : (s.recorded l d.node n).isSome = true) (hx : s.ctx? d.id = some x) :
    ∃ y, (s.dispatch d l n).ctx? d.id = some y ∧ y.place = d.place ∧ y.status = x.status ∧ y.node = x.node ∧ (∀ q, y.seq q = x.seq q) ∧
      y.x = x.x ∧ y.v = x.v ∧ y.acc = x.acc := by
  have comes : (s.dispatch d l n).ctx? d.id = ((s.dispatched d).ctx? d.id).map (fun x => x.standingIn d.place) := by
    unfold State.dispatch
    rw [if_pos h]
    exact (State.ctx?_restoreInto _ _ _ _).trans (if_pos rfl)
  rw [comes, State.ctx?_dispatched, hx]
  split <;> exact ⟨_, rfl, rfl, rfl, rfl, fun q => by cases q <;> rfl, rfl, rfl, rfl⟩

/-- A node that starts has k0 to k15 as its argument block holds them. -/
theorem State.dispatch_cx {ks : List Nat} {u : State} (h : s.recorded l d.node n = none)
    (args : readNodeArgs l n ((s.dispatched d).startAt d l n) = .ok ks u) :
    (s.dispatch d l n).cx = ((s.dispatched d).startAt d l n).cx.loadK ks := by
  have same := (readNodeArgs_leavesFocus l n).ok args
  unfold State.dispatch
  rw [if_neg (by simp [h])]
  show (loadNode l n ((s.dispatched d).startAt d l n)).cx = _
  unfold loadNode
  rw [args, ← same]

end Sys2Proof.Machine
end

section

/-! PROOFS. Nodes and banks (05 R148, R152 to R161; 14 R391; 15 R416). -/

namespace Sys2Proof.Machine

/-- Settles O51, event by event. -/
theorem nodesAndBanksProceed : Obligations.NodesAndBanksProceed := by
  unfold Obligations.NodesAndBanksProceed
  intro s
  refine ⟨fun l ready => exec_nodeDispatch_handler ready,
    fun d l n none hd hl hn => ⟨exec_nodeDispatch none hd hl hn, fun x recorded id => ?_, fun fresh => ?_⟩,
    fun core c x bank hx => ⟨⟨s.activeBank_swap core, fun o ne => s.activeBank_activate_of_ne ne _, rfl⟩, ?_, ?_⟩,
    fun c x l n hx hl running ended written => ⟨fun node run hn => ?_, fun handler none =>
      exec_nodeComplete_handler hx hl running ended written handler none⟩,
    fun k l i late abl => ?_, fun k l i late abl => ?_,
    fun d i y a shadow active => ⟨exec_bankSwap_wave shadow active, exec_bankSwap_rest shadow active, exec_preemption shadow active⟩,
    fun c x hx => ⟨fun w wants d i b may place => exec_spill hx may wants place, fun due => exec_contextYield hx due,
      fun l n die d i b v hl run spilled hn wants place => exec_contextRestore hx hl run spilled hn wants place⟩,
    fun _ _ => rfl⟩
  · -- a node that was frozen as it ran
    have found : s.ctx? ⟨l.num, n.lcore⟩ = some x := (Option.filter_eq_some_iff.1 recorded).1
    rw [← State.id_of_ctx? found] at found
    rw [id] at found ⊢
    exact State.ctx?_dispatch_recorded (d := d) (by simp [recorded]) found
  · -- a node that starts
    have cx := s.startAt_cx d l n
    have name := s.startAt_id d l n
    have running := State.startAt_running hl hn
    refine ⟨name, ?_, ?_, ?_, ?_, ?_, fun q => ?_, running, fun ks u args => State.dispatch_cx fresh args⟩ <;> rw [cx]
    · rfl
    · rfl
    · rfl
    · rfl
    · exact Ctx.startNode_startsFrom ..
    · rw [Ctx.startNode_seq]
      exact ⟨rfl, by simp [startSeq]⟩
  · exact ⟨by rw [State.ctx?_spillCtx, if_pos rfl, hx]; rfl, fun o ne => by rw [State.ctx?_spillCtx, if_neg ne], spillCtx_rest c s⟩
  · exact ⟨by rw [State.ctx?_restoreInto, if_pos rfl, hx]; rfl, fun o ne => by rw [State.ctx?_restoreInto, if_neg ne],
      s.restoreInto_rest c bank⟩
  · have num := State.num_of_launch? hl
    have name := State.id_of_ctx? hx
    refine ⟨s.nodeDone x l n, ?_, ?_, ?_, fun o ne => ?_, fun e he here => State.nodeDone_clean he here⟩
    · rw [exec_nodeComplete hx hl running ended written node run hn, completeNode_eq]
    · rw [State.nodeDone_launch? (num ▸ hl), nodesAfter_eq]
    · rw [State.nodeDone_ctx?, if_pos name.symm, hx]
      rfl
    · rw [State.nodeDone_ctx?, if_neg (name ▸ ne)]
  · have event := exec_nodeLate late
    rw [abl, if_neg Bool.false_ne_true, State.afterLate, State.lateWith_nil, Launch.lateWith_nil] at event
    exact event
  · have event := exec_nodeLate late
    rw [if_pos abl] at event
    exact ⟨l.goneWith i, l.goneWith_nodup i, fun j => Launch.mem_goneWith (lateNode_lt late), event⟩

end Sys2Proof.Machine
end

section

/-! PROOFS. LAUNCH and SPAWN (05 R142, R164, R165). -/

namespace Sys2Proof.Machine

variable {s s1 s2 u : State} {l : Launch} {n : Node} {h : Hq} {d a : BitVec 5} {bs : List Byte}

/-! ## LAUNCH -/

/-- The machine in which a launch has been accepted: it is held, its record is written, and its ready nodes settle. -/
def State.accepted (s : State) (l : Launch) : State := (crecInit l (s.hold l)).settle l.num

theorem acceptPacket_ok {p : Nat} {issuer : Option Nat} (checked : checkPacket p issuer s1 = .ok l s2) :
    acceptPacket p issuer s1 = .ok l.num (s2.accepted l) := by
  unfold acceptPacket
  rw [bind_ok checked]
  rfl

theorem State.accepted_focal (other : s.cx.id.launch ≠ l.num) : (s.accepted l).focal = s.focal := by
  have record : (crecInit l (s.hold l)).focal = s.focal := (State.focal_of_kept (crecWrite_kept l 0 _ (s.hold l))).trans rfl
  exact (settle_focal (by rwa [State.launch_of_focal record])).trans record

theorem State.nextLaunch_of_kept (h : u.kept = s.kept) : u.nextLaunch = s.nextLaunch := (congrArg (fun v : State => v.nextLaunch) h :)
theorem State.launch?_of_kept (h : u.kept = s.kept) (k : Nat) : u.launch? k = s.launch? k :=
  (congrArg (fun v : State => v.launch? k) h :)

theorem State.Stands.wx {q : SeqId} (hu : s.Stands q u) (d : BitVec 5) (v : DWord) : s.Stands q { u with cx := u.cx.wx d v } := by
  obtain ⟨id, tok, seq, cur⟩ := hu
  exact ⟨by simpa using id, by simpa using tok, by simpa [Ctx.seq] using seq, cur⟩

/-- LAUNCH of a packet that passes its rows. The launch has a number that no context has, so the sequencer stands where it stood. -/
theorem exec_launch (issues : s.Issues .k h.qp h.tk) (unplanned : s.unplanned) (room : s.launches.length < launchLimit)
    (other : s.cx.id.launch ≠ s.nextLaunch) (aligned : (s.cx.rx a).toNat % 128 = 0)
    (read : readMem (machineAgent s.cx.id.launch s.cx.asid.toNat) 0 (s.cx.rx a) 128 ((s.started .k h.tk).released 3) = .ok bs s1)
    (checked : checkPacket (leNat bs) (some s.cx.asid.toNat) s1 = .ok l s2) :
    exec (.launch h d a) s = .next (State.retired
      { s2.accepted l with cx := (s2.accepted l).cx.wx d (BitVec.ofNat 64 s.nextLaunch) } .k h.tk 1) := by
  have va : (s.started .k h.tk).cx.rx a = s.cx.rx a := State.started_rx ..
  have id : (s.started .k h.tk).cx.id = s.cx.id := Ctx.takenBy_id ..
  have asid : (s.started .k h.tk).cx.asid = s.cx.asid := Ctx.takenBy_asid ..
  have few : ¬ launchLimit ≤ (s.started .k h.tk).launches.length := Nat.not_le.2 room
  have kept : s1.kept = (s.started .k h.tk).kept := ((readMem_keeps _ _ _ _).ok read).trans (kept_released 3 _)
  have num : l.num = s.nextLaunch := (checkPacket_num checked).trans ((State.nextLaunch_of_kept kept).trans rfl)
  have stays : s2.focal = (s.started .k h.tk).focal := State.focal_of_kept (((checkPacket_keeps _ _).ok checked).trans kept)
  have accepted : (s2.accepted l).focal = (s.started .k h.tk).focal :=
    (State.accepted_focal (by rwa [State.launch_of_focal stays, id, num])).trans stays
  refine runK_stands issues ?_ ((State.stands_of_focal accepted .k).wx d _)
  rw [replayable_bind (unplanned.started .k h.tk), get_run]
  unfold release
  rw [modify_bind, va, id, asid, if_neg few, if_neg (not_not.2 aligned), bind_ok read, bind_ok (acceptPacket_ok checked), num, modCx_run]

/-! ## A node that runs keeps its launch -/

/-- The node at an index runs. -/
def runsAt (ns : List Node) (k : Nat) : Prop := ∃ n, ns[k]? = some n ∧ n.st = .running

theorem runsAt.modAt {ns : List Node} {k i : Nat} {f : Node → Node} (runs : runsAt ns k) (hf : i ≠ k ∨ ∀ n, (f n).st = n.st) :
    runsAt (modAt ns i f) k := by
  obtain ⟨n, hn, st⟩ := runs
  unfold runsAt
  rw [getElem?_modAt, hn]
  split
  · rename_i here
    exact ⟨_, rfl, (hf.resolve_left (not_not.2 here.symm) n).trans st⟩
  · exact ⟨n, rfl, st⟩

theorem runsAt.releaseSuccs {ns : List Node} {k : Nat} (runs : runsAt ns k) (succ : List Nat) : runsAt (releaseSuccs ns succ) k := by
  obtain ⟨n, hn, st⟩ := runs
  unfold runsAt
  rw [getElem?_releaseSuccs, hn]
  exact ⟨_, rfl, st⟩

/-- Only blocked nodes settle (05 R152). -/
theorem runsAt.settleNodes {ns : List Node} {k : Nat} (runs : runsAt ns k) (handler fuel : Nat) :
    runsAt (settleNodes handler fuel ns) k := by
  induction fuel generalizing ns with
  | zero => exact runs
  | succ fuel ih =>
    unfold Machine.settleNodes
    split
    · exact runs
    · rename_i i ready
      split
      · exact runs
      · rename_i m hm
        have blocked := List.find?_some ready
        have other : i ≠ k := by
          rintro rfl
          obtain ⟨n, hn, st⟩ := runs
          simp [hn, st] at blocked
        split
        · exact ih (runs.modAt (.inl other))
        · exact ih ((runs.modAt (.inl other)).releaseSuccs _)

theorem Launch.not_finished {k : Nat} (runs : runsAt l.nodes k) (node : k ≠ l.handler) : l.finished = false := by
  obtain ⟨n, hn, st⟩ := runs
  refine Bool.eq_false_iff.2 fun all => ?_
  have ended := List.all_eq_true.1 all k (List.mem_range.2 (List.getElem?_eq_some_iff.1 hn).1)
  simp [node, hn, st] at ended

/-- Where a node of it runs, a launch goes on as its ready nodes settle. -/
theorem State.settle_running {num k : Nat} (hl : s.launch? num = some l) (runs : runsAt l.nodes k) (node : k ≠ l.handler) :
    s.settle num = s.updLaunch num (fun l => { l with nodes := settleNodes l.handler (l.nodes.length + 1) l.nodes }) := by
  unfold State.settle
  dsimp only
  rw [State.launch?_updNodes, hl]
  have going := Launch.not_finished (l := { l with nodes := settleNodes l.handler (l.nodes.length + 1) l.nodes }) (runs.settleNodes _ _) node
  exact if_neg (Bool.eq_false_iff.1 going)

/-! ## SPAWN -/

/-- The machine after a node has spawned: its successors are released, before the ready ones settle. -/
def State.spawned (s : State) (l : Launch) (i : Nat) (n : Node) : State :=
  s.updLaunch l.num (fun l => { l with nodes := releaseSuccs (modAt l.nodes i (fun n => { n with spawned := true })) n.succ })

theorem State.spawned_settle_focal {i : Nat} (hl : s.launch? l.num = some l) (hn : l.nodes[i]? = some n) (running : n.st = .running)
    (node : i ≠ l.handler) (m : Node) : ((s.spawned l i m).settle l.num).focal = s.focal := by
  have runs : runsAt (releaseSuccs (modAt l.nodes i (fun n => { n with spawned := true })) m.succ) i :=
    (runsAt.modAt (f := fun n => { n with spawned := true }) ⟨n, hn, running⟩ (.inr fun _ => rfl)).releaseSuccs _
  have found : (s.spawned l i m).launch? l.num = some { l with
      nodes := releaseSuccs (modAt l.nodes i (fun n => { n with spawned := true })) m.succ } := by
    unfold State.spawned
    rw [State.launch?_updNodes, hl]
    rfl
  rw [State.settle_running found runs node]
  rfl

theorem exec_spawn (issues : s.Issues .k h.qp h.tk) (unplanned : s.unplanned) (hl : s.launch? s.cx.id.launch = some l)
    (hn : l.nodes[s.cx.node]? = some n) (running : n.st = .running) (node : s.cx.node ≠ l.handler) :
    exec (.spawn h) s = .next (s.does .k h.tk 1 (fun t =>
      if n.spawned ∨ s.cx.id.lcore = Config.handlerLcore then t.released 3
      else ((t.released 3).spawned l s.cx.node n).settle l.num)) := by
  have kept : ((s.started .k h.tk).released 3).kept = (s.started .k h.tk).kept := kept_released 3 _
  have started : (s.started .k h.tk).cx.id = s.cx.id ∧ (s.started .k h.tk).cx.node = s.cx.node :=
    ⟨Ctx.takenBy_id .., Ctx.takenBy_node ..⟩
  unfold State.does
  dsimp only
  generalize hv : (s.started .k h.tk).released 3 = v at kept
  have id : v.cx.id = s.cx.id := (State.stands_of_kept kept .k).id.trans started.1
  have here : v.cx.node = s.cx.node := (congrArg (fun u : State => u.cx.node) kept :).trans started.2
  have found : v.launch? s.cx.id.launch = some l := (State.launch?_of_kept kept _).trans hl
  refine runK_stands issues (u := if n.spawned ∨ s.cx.id.lcore = Config.handlerLcore then v else (v.spawned l s.cx.node n).settle l.num) ?_ ?_
  · rw [replayable_bind (unplanned.started .k h.tk)]
    unfold release
    rw [modify_bind, get_run, hv, id, here, found]
    simp only [hn]
    by_cases past : n.spawned = true ∨ s.cx.id.lcore = Config.handlerLcore
    · rw [if_pos past, if_pos (by simpa using past)]
      rfl
    · rw [if_neg past, if_neg (by simpa using past), modify_run, here]
      rfl
  · split
    · exact State.stands_of_kept kept .k
    · refine State.stands_of_focal ?_ .k
      exact (State.spawned_settle_focal (State.num_of_launch? hl ▸ found) hn running node n).trans (State.focal_of_kept kept)

/-- Settles O24: LAUNCH as what accepts its packet, SPAWN as what releases the successors of a node that runs on. -/
theorem launchAndSpawnComplete : Obligations.LaunchAndSpawnComplete := by
  unfold Obligations.LaunchAndSpawnComplete
  exact fun s h d a issues unplanned => ⟨fun b s1 l s2 room other aligned read checked =>
      exec_launch issues unplanned room other aligned read checked,
    fun l n hl hn running node => exec_spawn issues unplanned hl hn running node⟩

end Sys2Proof.Machine
end

section

/-! PROOFS. Words that their fields make no instruction of K, of L and S, or of C (02 R42 row 4; 06 R169, R183 to R186, R196). -/

namespace Sys2Proof.Machine

variable {m : SeqSel} {w : Nat}

/-- A word whose fields are not those of any instruction of its opcode is none. -/
theorem decode_error_of_raw (h : ∀ i, rawDecode m w = .ok i → i.fieldsOk m = false) : ∃ e, decode m w = .error e := by
  cases hd : decode m w with
  | error e => exact ⟨e, rfl⟩
  | ok i =>
    obtain ⟨raw, formed⟩ := decode_eq_ok hd
    unfold Instr.wellFormed at formed
    rw [h i raw, Bool.and_false] at formed
    cases formed

/-- A sequencer faults at words that are no instruction of its map. -/
theorem FaultsOn.of_rejected {bad : Nat → Prop} (h : ∀ w, bad w → ∀ i, rawDecode m w = .ok i → i.fieldsOk m = false) : FaultsOn m bad :=
  fun s s1 l is j may line cur map lead hj hb => faultsOn_illegal m s s1 l is j may line cur map lead hj (decode_error_of_raw (h _ hb))

/-- The answer of a decoder of one template: no instruction whose fields are assigned. -/
theorem fieldsOk_of_template {c : Bool} {i j : Instr} {e : DecodeError} (h : (if c then .ok j else .error e : Except DecodeError Instr) = .ok i)
    (bad : c = true → j.fieldsOk m = false) : i.fieldsOk m = false := by
  cases c with
  | false => cases h
  | true => cases h; exact bad rfl

theorem fits_iff {lo k v : Nat} : fits w lo k v = true ↔ w / 2 ^ lo % 2 ^ k = v := beq_iff_eq
theorem toNat_fld (w lo k : Nat) : (fld w lo k).toNat = w / 2 ^ lo % 2 ^ k := BitVec.toNat_ofNat ..

theorem sysAssigned_iff (n : Nat) : sysAssigned n = true ↔ systemNumber n := by
  simp only [sysAssigned, systemNumber, Bool.or_eq_true, Bool.and_eq_true, decide_eq_true_eq]
  omega

theorem sysAll_iff (n : Nat) : sysAll n = true ↔ systemNumberOfAll n := by
  simp only [sysAll, systemNumberOfAll, Bool.or_eq_true, Bool.and_eq_true, decide_eq_true_eq]
  omega

/-- A decoder of an opcode map reads a word by its opcode. -/
theorem opcode_of_bits {op : Nat} (h : bits w 31 26 = op) : w / 2 ^ 26 % 64 = op := h

theorem rejects_illegalArithmeticOfK (h : illegalArithmeticOfK w) (i : Instr) (hi : rawDecodeK w = .ok i) : i.fieldsOk .k = false := by
  unfold rawDecodeK at hi
  rcases h with ⟨op, past⟩ | ⟨op, reserved⟩ | ⟨op, reserved⟩
  case inl =>
    have shift : (fld w 7 9).toNat = bits w 15 7 := toNat_fld ..
    have stops : decide ((fld w 7 9).toNat ≤ 63) = false := decide_eq_false (by omega)
    simp only [List.mem_cons, List.not_mem_nil, or_false] at op
    rcases op with op | op | op <;> simp only [opcode_of_bits op] at hi <;> exact fieldsOk_of_template hi fun _ => stops
  all_goals
    simp only [opcode_of_bits op] at hi
    refine fieldsOk_of_template hi fun fit => ?_
    simp only [Bool.and_eq_true, fits_iff] at fit
    simp only [bits] at reserved
    omega

theorem rejects_illegalPredicateOfK (h : illegalPredicateOfK w) (i : Instr) (hi : rawDecodeK w = .ok i) : i.fieldsOk .k = false := by
  unfold rawDecodeK at hi
  rcases h with ⟨op, bad⟩ | ⟨op, bad⟩ | ⟨op, bad⟩ <;> simp only [opcode_of_bits op] at hi <;> simp only [bits] at bad
  case inr.inr =>
    have qnot : (fits w 24 2 0 && fits w 19 2 0 && fits w 7 9 2 && fits w 3 1 0) = false := Bool.eq_false_iff.2 fun fit => by
      simp only [Bool.and_eq_true, fits_iff] at fit; omega
    have qand : (fits w 24 2 0 && fits w 19 2 0 && fits w 14 2 0 && fits w 7 4 0 && fits w 3 1 0) = false := Bool.eq_false_iff.2 fun fit => by
      simp only [Bool.and_eq_true, fits_iff] at fit; omega
    unfold decK1c at hi
    rw [qnot, qand] at hi
    refine fieldsOk_of_template hi fun fit => ?_
    simp only [Bool.and_eq_true, fits_iff] at fit
    omega
  all_goals
    refine fieldsOk_of_template hi fun fit => decide_eq_false ?_
    simp only [Bool.and_eq_true, fits_iff] at fit
    rw [toNat_fld]
    omega

theorem rejects_illegalRdplan (h : illegalRdplan w) (i : Instr) (hi : rawDecodeK w = .ok i) : i.fieldsOk .k = false := by
  obtain ⟨op, reserved⟩ := h
  unfold rawDecodeK at hi
  simp only [opcode_of_bits op] at hi
  refine fieldsOk_of_template hi fun fit => ?_
  simp only [Bool.and_eq_true, fits_iff] at fit
  simp only [bits] at reserved
  omega

theorem rejects_illegalSystemOfK (h : illegalSystemOfK w) (i : Instr) (hi : rawDecodeK w = .ok i) : i.fieldsOk .k = false := by
  unfold rawDecodeK at hi
  rcases h with ⟨op, number⟩ | ⟨op, reserved⟩ | ⟨op, reserved⟩
  case inl =>
    have none : sysAssigned (fld w 7 9).toNat = false := by
      rw [toNat_fld]
      exact Bool.eq_false_iff.2 fun h => number ((sysAssigned_iff _).1 h)
    simp only [List.mem_cons, List.not_mem_nil, or_false] at op
    rcases op with op | op <;> simp only [opcode_of_bits op] at hi <;> exact fieldsOk_of_template hi fun _ => none
  all_goals
    simp only [opcode_of_bits op] at hi
    refine fieldsOk_of_template hi fun fit => ?_
    simp only [Bool.and_eq_true, fits_iff] at fit
    simp only [bits] at reserved
    omega

/-- Not a number that every sequencer reads. -/
theorem sysAll_fld {lo : Nat} (number : ¬systemNumberOfAll (w / 2 ^ lo % 2 ^ 9)) : sysAll (fld w lo 9).toNat = false := by
  rw [toNat_fld]
  exact Bool.eq_false_iff.2 fun h => number ((sysAll_iff _).1 h)

theorem rejects_illegalSystemOfLS (hm : m = .l ∨ m = .s) (h : illegalSystemOfLS w) (i : Instr) (hi : rawDecode m w = .ok i) :
    i.fieldsOk m = false := by
  obtain ⟨op, number⟩ := h
  rcases hm with rfl | rfl
  · unfold rawDecode rawDecodeL at hi
    simp only [opcode_of_bits op] at hi
    exact fieldsOk_of_template hi fun _ => sysAll_fld number
  · unfold rawDecode rawDecodeS at hi
    simp only [opcode_of_bits op] at hi
    exact fieldsOk_of_template hi fun _ => sysAll_fld number

theorem rejects_illegalSystemOfC (hm : m = .c ∨ m = .b) (h : illegalSystemOfC w) (i : Instr) (hi : rawDecode m w = .ok i) :
    i.fieldsOk m = false := by
  obtain ⟨op, number⟩ := h
  rcases hm with rfl | rfl
  · unfold rawDecode rawDecodeC at hi
    simp only [opcode_of_bits op] at hi
    exact fieldsOk_of_template hi fun _ => sysAll_fld number
  · unfold rawDecode rawDecodeB at hi
    simp only [opcode_of_bits op] at hi
    exact fieldsOk_of_template hi fun _ => sysAll_fld number

end Sys2Proof.Machine
end

section

/-! PROOFS. Scalar arithmetic and predicates of K (06 R183 to R186). -/

namespace Sys2Proof.Machine

variable {s : State} {h : Hq} {words : Nat} {v : DWord}

/-! ## What the operations compute (06 R183) -/

theorem aluShl_eq (a b : DWord) : aluShl a b = BitVec.ofNat 64 (a.toNat * 2 ^ (b.toNat % 64)) := by
  refine BitVec.eq_of_toNat_eq ?_
  rw [aluShl, BitVec.toNat_shiftLeft, Nat.shiftLeft_eq, BitVec.toNat_ofNat]

theorem aluShr_eq (a b : DWord) : aluShr a b = BitVec.ofNat 64 (a.toNat / 2 ^ (b.toNat % 64)) := by
  refine BitVec.eq_of_toNat_eq ?_
  rw [aluShr, BitVec.toNat_ushiftRight, Nat.shiftRight_eq_div_pow, BitVec.toNat_ofNat,
    Nat.mod_eq_of_lt ((Nat.div_le_self _ _).trans_lt a.isLt)]

theorem aluSra_eq (a b : DWord) : aluSra a b = BitVec.ofInt 64 (a.toInt / 2 ^ (b.toNat % 64)) := by
  rw [aluSra, BitVec.sshiftRight, Int.shiftRight_eq_div_pow]
  norm_cast

theorem mul_eq_ofInt (a b : DWord) : a * b = BitVec.ofInt 64 (a.toInt * b.toInt) := by
  rw [BitVec.ofInt_mul, BitVec.ofInt_toInt, BitVec.ofInt_toInt]

theorem aluRem_eq (a b : DWord) : aluRem a b = if b = 0 then a else BitVec.ofInt 64 (a.toInt.tmod b.toInt) := by
  rw [aluRem, Int.tmod_def]; rfl

theorem aluMin_eq (a b : DWord) : aluMin a b = if b.slt a then b else a := by
  rw [aluMin, BitVec.slt_eq_decide]
  by_cases le : a.toInt ≤ b.toInt
  · rw [if_pos le, if_neg (by simpa using le)]
  · rw [if_neg le, if_pos (by simpa using le)]

theorem aluMax_eq (a b : DWord) : aluMax a b = if a.slt b then b else a := by
  rw [aluMax, BitVec.slt_eq_decide]
  rcases lt_trichotomy a.toInt b.toInt with lt | eq | gt
  · rw [if_pos lt.le, if_pos (decide_eq_true lt)]
  · cases BitVec.eq_of_toInt_eq eq
    rw [ite_self, ite_self]
  · rw [if_neg (not_le.2 gt), if_neg (by simpa using gt.le)]

/-- A shift by an immediate takes the low bits of the immediate. -/
theorem toNat_imm_mod (i : BitVec 9) : (i.setWidth 64 : DWord).toNat % 64 = i.toNat % 64 := by
  rw [BitVec.toNat_setWidth]
  omega

theorem append_setWidth_eq (imm : BitVec 32) (a : DWord) :
    (imm ++ a.setWidth 32 : DWord) = BitVec.ofNat 64 (imm.toNat * 2 ^ 32 + a.toNat % 2 ^ 32) := by
  refine BitVec.eq_of_toNat_eq ?_
  rw [BitVec.toNat_append, BitVec.toNat_setWidth, BitVec.toNat_ofNat, ← Nat.shiftLeft_add_eq_or_of_lt (Nat.mod_lt _ (by decide)),
    Nat.shiftLeft_eq]
  have := imm.isLt
  omega

/-! ## The words (06 R183, R184) -/

/-- A word of K whose effect is a change of its context that leaves the shell of the word alone completes. -/
theorem runK_does {op : M Unit} {f : Ctx → Ctx} (issues : s.Issues .k h.qp h.tk) (hf : Ctx.LeavesShell f)
    (hop : op (s.started .k h.tk) = .ok () { s.started .k h.tk with cx := f (s.started .k h.tk).cx }) :
    runK h words op s = .next (s.does .k h.tk words (fun t => { t with cx := f t.cx })) := by
  unfold runK
  rw [if_pos issues.focus, runWord_does issues hf hop]

theorem Ctx.leavesShell_wx (d : BitVec 5) (v : DWord) : Ctx.LeavesShell (fun c => c.wx d v) :=
  ⟨fun c => c.wx_id d v, fun c => c.wx_tok d v, fun c q => by simp [Ctx.seq]⟩

theorem runK_setX (issues : s.Issues .k h.qp h.tk) (d : BitVec 5) (v : DWord) :
    runK h words (setX d v) s = .next (s.does .k h.tk words (fun t => { t with cx := t.cx.wx d v })) :=
  runK_does issues (Ctx.leavesShell_wx d v) rfl

variable {f : DWord → DWord → DWord}

/-- A register form writes its value of the registers before it. -/
theorem runK_aluKR {a b : BitVec 5} (issues : s.Issues .k h.qp h.tk) (d : BitVec 5) (hv : f (s.cx.rx a) (s.cx.rx b) = v) :
    runK h 1 (aluKR f d a b) s = .next (s.does .k h.tk 1 (fun t => { t with cx := t.cx.wx d v })) := by
  refine runK_does issues (Ctx.leavesShell_wx d v) ?_
  unfold aluKR
  rw [get_run, State.started_rx, State.started_rx, hv]
  rfl

/-- So does an immediate form. -/
theorem runK_aluKI {a : BitVec 5} {i : BitVec 9} (issues : s.Issues .k h.qp h.tk) (d : BitVec 5) (hv : f (s.cx.rx a) (i.signExtend 64) = v) :
    runK h 1 (aluKI f d a i) s = .next (s.does .k h.tk 1 (fun t => { t with cx := t.cx.wx d v })) := by
  refine runK_does issues (Ctx.leavesShell_wx d v) ?_
  unfold aluKI
  rw [get_run, State.started_rx, hv]
  rfl

/-- And a shift by an immediate. -/
theorem runK_shiftKI {a : BitVec 5} {i : BitVec 9} (issues : s.Issues .k h.qp h.tk) (d : BitVec 5) (hv : f (s.cx.rx a) (i.setWidth 64) = v) :
    runK h 1 (shiftKI f d a i) s = .next (s.does .k h.tk 1 (fun t => { t with cx := t.cx.wx d v })) := by
  refine runK_does issues (Ctx.leavesShell_wx d v) ?_
  unfold shiftKI
  rw [get_run, State.started_rx, hv]
  rfl

theorem exec_movhi {d a : BitVec 5} {imm : BitVec 32} (issues : s.Issues .k h.qp h.tk) : exec (.movhi h d a imm) s =
    .next (s.does .k h.tk 2 (fun t => { t with cx := t.cx.wx d (BitVec.ofNat 64 (imm.toNat * 2 ^ 32 + (s.cx.rx a).toNat % 2 ^ 32)) })) := by
  refine runK_does issues (Ctx.leavesShell_wx d _) ?_
  rw [get_run, State.started_rx, append_setWidth_eq]
  rfl

/-- Every arithmetic instruction of K is one of these forms. -/
theorem exec_arithmeticOfK {i : Instr} {r : ScalarRow 5 DWord} (row : arithmeticOfK i s.cx = some r) (issues : s.Issues .k r.h.qp r.h.tk) :
    exec i s = .next (s.does .k r.h.tk r.words (fun t => { t with cx := t.cx.wx r.dest r.value })) := by
  cases i
  case shl => cases row; exact runK_aluKR issues _ (aluShl_eq ..)
  case shr => cases row; exact runK_aluKR issues _ (aluShr_eq ..)
  case sra => cases row; exact runK_aluKR issues _ (aluSra_eq ..)
  case mul => cases row; exact runK_aluKR issues _ (mul_eq_ofInt ..)
  case rem => cases row; exact runK_aluKR issues _ (aluRem_eq ..)
  case min => cases row; exact runK_aluKR issues _ (aluMin_eq ..)
  case max => cases row; exact runK_aluKR issues _ (aluMax_eq ..)
  case add | sub | and | or | xor | mulh | mulhu | div | divu => cases row; exact runK_aluKR issues _ rfl
  case addi | andi | ori | xori => cases row; exact runK_aluKI issues _ rfl
  case shli => cases row; exact runK_shiftKI issues _ ((aluShl_eq ..).trans (by rw [toNat_imm_mod]))
  case shri => cases row; exact runK_shiftKI issues _ ((aluShr_eq ..).trans (by rw [toNat_imm_mod]))
  case srai => cases row; exact runK_shiftKI issues _ ((aluSra_eq ..).trans (by rw [toNat_imm_mod]))
  case movi => cases row; exact runK_setX issues _ _
  case movhi => cases row; exact exec_movhi issues
  all_goals cases row

/-- Settles O13: each word is a register form, an immediate form or a move, whose value is that of its row. -/
theorem arithmeticOfKWritesItsValue : Obligations.ArithmeticOfKWritesItsValue := by
  unfold Obligations.ArithmeticOfKWritesItsValue
  refine ⟨fun s i r row issues => exec_arithmeticOfK row issues, fun c d v => ?_, FaultsOn.of_rejected fun w => rejects_illegalArithmeticOfK⟩
  rw [Ctx.rx_wx]
  by_cases zero : d = 0
  · rw [if_neg (by simp [zero]), if_pos zero, zero, Ctx.rx_zero]
  · rw [if_pos ⟨rfl, zero⟩, if_neg zero]

/-! ## Predicates (06 R185, R186) -/

theorem condition_iff (c : Nat) (a b : DWord) : condition c a b = true ↔ holdsOf c a b := by
  unfold condition holdsOf
  split <;> simp

theorem Ctx.leavesShell_wq (q : SeqId) (d : BitVec 3) (v : Bool) : Ctx.LeavesShell (fun c => c.updSeq q (fun st => st.wq d v)) := by
  refine ⟨fun c => c.updSeq_id q _, fun c => c.updSeq_tok q _, fun c r => ?_⟩
  by_cases same : r = q
  · rw [same, Ctx.updSeq_seq]
    unfold SeqState.wq
    split <;> rfl
  · rw [Ctx.updSeq_seq_ne _ same]

theorem setQ_run {q : SeqId} {d : BitVec 3} {v : Bool} (focus : s.cur = q) :
    setQ d v s = .ok () { s with cx := s.cx.updSeq q (fun st => st.wq d v) } := by
  subst focus; rfl

/-- A word of K that writes a predicate. -/
theorem runK_setQ {op : M Unit} {d : BitVec 3} {v : Bool} (issues : s.Issues .k h.qp h.tk)
    (hop : op (s.started .k h.tk) = setQ d v (s.started .k h.tk)) :
    runK h words op s = .next (s.does .k h.tk words (fun t => { t with cx := t.cx.updSeq .k (fun st => st.wq d v) })) := by
  refine runK_does issues (Ctx.leavesShell_wq .k d v) ?_
  rw [hop, setQ_run (show (s.started .k h.tk).cur = .k from issues.focus)]

/-- A predicate of K read outside a bundle. -/
theorem getQ_bind {β : Type} (issues : s.Issues .k h.qp h.tk) (a : BitVec 3) (g : Bool → M β) :
    (getQ a >>= g) (s.started .k h.tk) = g (s.cx.seqK.rq a) (s.started .k h.tk) := by
  have bun : (s.started .k h.tk).bun = none := issues.alone
  refine bind_ok ?_
  unfold getQ
  rw [get_run, State.operands, bun]
  dsimp only
  rw [State.started_seq, State.started_cur, issues.focus]
  rfl

theorem exec_predicateOfK {i : Instr} {r : ScalarRow 3 Prop} {v : Bool} (row : predicateOfK i s.cx = some r) (truth : v = true ↔ r.value)
    (issues : s.Issues .k r.h.qp r.h.tk) :
    exec i s = .next (s.does .k r.h.tk r.words (fun t => { t with cx := t.cx.updSeq .k (fun st => st.wq r.dest v) })) := by
  cases i
  case cmp | cmpi =>
    cases row
    refine runK_setQ issues ?_
    rw [get_run]
    simp only [State.started_rx]
    rw [Bool.eq_iff_iff.2 (truth.trans (condition_iff ..).symm)]
  case qand | qor | qnot =>
    cases row
    refine runK_setQ issues ?_
    simp only [getQ_bind issues]
    congr 1
    rw [Bool.eq_iff_iff, truth]
    simp
  all_goals cases row

theorem SeqState.rq_wq (st : SeqState) (d : BitVec 3) (v : Bool) : (st.wq d v).rq d = (d == 0 || v) := by
  unfold SeqState.wq SeqState.rq
  by_cases zero : d = 0
  · simp [zero]
  · rw [if_neg zero]
    exact congrArg (d == 0 || ·) (Vector.getElem_set_self d.isLt)

/-- Settles O14: a comparison is its condition, and QAND, QOR and QNOT are of the predicates before the word. -/
theorem predicatesOfKAreWritten : Obligations.PredicatesOfKAreWritten := by
  unfold Obligations.PredicatesOfKAreWritten
  exact ⟨fun s i r v row truth issues => exec_predicateOfK row truth issues, SeqState.rq_wq, FaultsOn.of_rejected fun w => rejects_illegalPredicateOfK⟩

end Sys2Proof.Machine
end

section

/-! PROOFS. Taking a fault, and the words that retire and then fault (06 R170, R197; 14 R381, R383). -/

namespace Sys2Proof.Machine

variable {s : State}

/-! ## Words that retire and fault (06 R197) -/

/-- Where the post of a word has room, its sequencer moves past it (01 R22). -/
theorem finish_posted {s0 : State} {tk : BitVec 3} {words : Nat} {opened : Bool}
    (room : ∀ i, fieldPost s.cur tk = some i → s.cx.tokens i < 15) : finish s0 tk words opened s =
      ({ s with cx := (s.cx.postedBy s.cur tk).updSeq s.cur (fun st => st.retire words opened) }, true) := by
  unfold finish Ctx.postedBy
  cases hp : fieldPost s.cur tk with
  | none => rfl
  | some i => exact if_neg (Nat.not_le.2 (room i hp))

/-- A word of L, S or K that retires and then faults (06 R197). -/
theorem runWord_retires {q : SeqId} {qp tk : BitVec 3} {words : Nat} {op : M Unit} {t : Trap} (issues : s.Issues q qp tk)
    (hop : op (s.started q tk) = .error (.trap t) (s.started q tk)) (hr : t.retires = true) :
    runWord qp tk words op s = (s.does q tk words id).takeFault t (seqNum q) (instrAt s.cx q (wordIx (s.cx.seq q).pc)) := by
  have focus := issues.focus
  subst focus
  have fin : finish s tk words false (s.started s.cur tk) = (s.does s.cur tk words id, true) := finish_posted fun i hp => issues.room_taken hp
  have truth : (s.cx.seq s.cur).rq qp = true := issues.holds
  unfold runWord
  cases hw : s.cx.openField s.cur tk with
  | none =>
    have same : s.started s.cur tk = s := by unfold State.started Ctx.takenBy; rw [hw]
    rw [same] at hop fin
    simp [truth, hop, hr, fin]
  | some i =>
    have held : s.cx.tokens i ≠ 0 := Nat.pos_iff_ne_zero.1 (issues.token i hw)
    have taken : s.started s.cur tk = { s with cx := s.cx.setTokens i (s.cx.tokens i - 1) } := by
      unfold State.started Ctx.takenBy; rw [hw]
    rw [taken] at hop fin
    simp [truth, hop, hr, held, fin]

/-- Settles O11: both words throw a trap that retires. -/
theorem trapAndBreakRetireAndFault : Obligations.TrapAndBreakRetireAndFault := by
  unfold Obligations.TrapAndBreakRetireAndFault
  intro s h n issues fault
  have word (cause : Nat) : runK h 1 (throw (.trap { cause := cause, tcode := n, retires := true })) s = .next (fault cause) := by
    unfold runK
    rw [if_pos issues.focus]
    exact congrArg Host.Outcome.next (runWord_retires issues rfl rfl)
  exact ⟨word 0x030, word 0x031⟩

/-! ## A token given back (14 R381; log 21) -/

/-- A context but for its tokens and which of them its sequencers hold. -/
def Ctx.untokened (c : Ctx) : Ctx :=
  { c.updSeqs (fun st => { st with fielded := [] }) with tok := Vector.replicate 12 0 }

theorem Ctx.giveBack_untokened (c : Ctx) : c.giveBack.untokened = c.untokened := by
  have one (q : SeqId) (x : Ctx) (i : Nat) : ((x.setTokens i (x.tokens i + 1)).updSeq q
      (fun st => { st with fielded := st.fielded.erase i })).untokened = x.untokened := by
    unfold Ctx.setTokens
    split <;> cases q <;> rfl
  unfold Ctx.giveBack
  refine foldl_keeps (fun x : Ctx => x.untokened = c.untokened) _ (fun x q hx => ?_) _ rfl
  refine foldl_keeps (fun y : Ctx => y.untokened = c.untokened) _ (fun y i hy => ?_) _ hx
  split
  · exact (one q y i).trans hy
  · exact hy

/-- The registers of a context, whose values a fault leaves. -/
def Ctx.registers (c : Ctx) := (c.x, c.y, c.z, c.a, c.v, c.p)

section
variable {c x : Ctx}

theorem Ctx.pc_of_untokened (h : x.untokened = c.untokened) (q : SeqId) : (x.seq q).pc = (c.seq q).pc := by
  cases q
  · exact (congrArg (fun x : Ctx => x.seqL.pc) h :)
  · exact (congrArg (fun x : Ctx => x.seqC.pc) h :)
  · exact (congrArg (fun x : Ctx => x.seqS.pc) h :)
  · exact (congrArg (fun x : Ctx => x.seqK.pc) h :)

theorem Ctx.id_of_untokened (h : x.untokened = c.untokened) : x.id = c.id := (congrArg (fun x : Ctx => x.id) h :)
theorem Ctx.node_of_untokened (h : x.untokened = c.untokened) : x.node = c.node := (congrArg (fun x : Ctx => x.node) h :)
theorem Ctx.registers_of_untokened (h : x.untokened = c.untokened) : x.registers = c.registers := (congrArg Ctx.registers h :)
end

theorem Ctx.giveBack_id (c : Ctx) : c.giveBack.id = c.id := Ctx.id_of_untokened c.giveBack_untokened

/-! ## What a fault records (06 R170; 14 R381, R383) -/

theorem State.launch?_updLaunch {f : Launch → Launch} (hf : ∀ l, (f l).num = l.num) (s : State) (n k : Nat) :
    (s.updLaunch n f).launch? k = (s.launch? k).map (fun l => if l.num == n then f l else l) := by
  have num (l : Launch) : (if l.num == n then f l else l).num = l.num := by split <;> simp [hf]
  unfold State.launch? State.updLaunch
  rw [List.find?_map]
  simp only [Function.comp_def, num]

/-- The frame that a fault leaves to be written. -/
def State.faultFrame (s : State) (t : Trap) (srce instr : Nat) : Frame :=
  frameOf { s with cx := s.cx.giveBack } s.cx.giveBack t (t.srce.getD srce) instr

theorem State.faultFrame_pcs (s : State) (t : Trap) (srce instr : Nat) :
    (s.faultFrame t srce instr).pcs = [s.cx.seqL.pc, s.cx.seqC.pc, s.cx.seqS.pc, s.cx.seqK.pc] :=
  List.map_congr_left fun q _ => Ctx.pc_of_untokened s.cx.giveBack_untokened q

theorem State.faultFrame_serial {t : Trap} {srce instr : Nat} {l : Launch} (hl : s.launch? s.cx.id.launch = some l) :
    (s.faultFrame t srce instr).serial = l.serial := by
  have found : State.launch? { s with cx := s.cx.giveBack } s.cx.giveBack.id.launch = some l := by rw [Ctx.giveBack_id]; exact hl
  show (match State.launch? { s with cx := s.cx.giveBack } s.cx.giveBack.id.launch with | some l => l.serial | none => 0) = l.serial
  rw [found]

theorem State.takeFault_launch? {t : Trap} {srce instr : Nat} {l : Launch} (hl : s.launch? s.cx.id.launch = some l) :
    (s.takeFault t srce instr).launch? s.cx.id.launch = some { l with serial := l.serial + 1 } := by
  have bumped : (s.takeFault t srce instr).launch? s.cx.id.launch =
      (s.updLaunch s.cx.giveBack.id.launch (fun l => { l with serial := l.serial + 1 })).launch? s.cx.id.launch := rfl
  have kept (l : Launch) : ({ l with serial := l.serial + 1 } : Launch).num = l.num := rfl
  rw [bumped, State.launch?_updLaunch kept, hl, Ctx.giveBack_id]
  simp [State.num_of_launch? hl]

theorem State.takeFault_fpc (s : State) (t : Trap) (srce instr : Nat) (q : SeqId) :
    (s.takeFault t srce instr).cx.fpc.get (BitVec.ofNat 2 (seqNum q)) = (s.cx.seq q).pc := by
  have recorded : (s.takeFault t srce instr).cx.fpc = let pcs := (s.faultFrame t srce instr).pcs
    (#v[heldAt 0 pcs, heldAt 1 pcs, heldAt 2 pcs, heldAt 3 pcs] : Vector DWord 4) := rfl
  rw [recorded, State.faultFrame_pcs]
  cases q <;> rfl

theorem Ctx.registers_updSeq (c : Ctx) (q : SeqId) (f : SeqState → SeqState) : (c.updSeq q f).registers = c.registers := by
  cases q <;> rfl

theorem State.takeFault_registers (s : State) (t : Trap) (srce instr : Nat) : (s.takeFault t srce instr).cx.registers = s.cx.registers := by
  refine Eq.trans ?_ (Ctx.registers_of_untokened s.cx.giveBack_untokened)
  show Ctx.registers (allSeqs.foldl (fun c q => c.updSeq q (fun st => st.stop (t.srce.getD srce == seqNum q))) s.cx.giveBack) = _
  exact foldl_keeps (fun x : Ctx => x.registers = s.cx.giveBack.registers) _ (fun x q hx => (x.registers_updSeq q _).trans hx) _ rfl

/-- Settles O10: a token that is given back leaves the program counters, the name and the registers of the context. -/
theorem takingAFaultStopsAndRecords : Obligations.TakingAFaultStopsAndRecords := by
  unfold Obligations.TakingAFaultStopsAndRecords
  intro s t srce instr u
  have registers := s.takeFault_registers t srce instr
  simp only [Ctx.registers, Prod.mk.injEq] at registers
  obtain ⟨hx, hy, hz, ha, hv, hp⟩ := registers
  have id := s.cx.giveBack_id
  refine ⟨rfl, rfl, s.takeFault_fpc t srce instr, ⟨s.faultFrame t srce instr, rfl, rfl, rfl, rfl, rfl, rfl, s.faultFrame_pcs t srce instr,
    congrArg CtxId.launch id, Ctx.node_of_untokened s.cx.giveBack_untokened, congrArg CtxId.lcore id, rfl, rfl,
    fun l hl => ⟨State.faultFrame_serial hl, State.takeFault_launch? hl⟩⟩, rfl, hx, hy, hz, ha, hv, hp⟩

end Sys2Proof.Machine
end

section

/-! PROOFS. System registers and the plan clock (06 R169, R171, R196). -/

namespace Sys2Proof.Machine

variable {s : State} {h : Hq} {n : BitVec 9} {a d : BitVec 5}

/-- A word that has taken its token reads of the system registers what stood before it. -/
theorem sysRead_started (s : State) (q : SeqId) (tk : BitVec 3) (n : Nat) : sysRead (s.started q tk) n = sysRead s n := by
  have permits : (s.started q tk).permitsOf (s.started q tk).cx = s.permitsOf s.cx := by
    simp [State.permitsOf, Ctx.onBcast, Ctx.core, State.started, State.die, State.poolOf]
  have bitmap : (s.started q tk).dmapOf = s.dmapOf := rfl
  have cores : (s.started q tk).crun = s.crun := rfl
  unfold sysRead
  dsimp only
  rw [permits, bitmap, cores]
  simp [State.started]

/-- A token given back, with no effect between. -/
theorem State.started_tokensOf (s : State) (q : SeqId) (tk : BitVec 3) : (s.started q tk).tokensOf s = s := by
  unfold State.tokensOf State.started Ctx.takenBy
  split
  · unfold Ctx.setTokens
    split <;> rfl
  · rfl

theorem exec_mfs (issues : s.Issues .k h.qp h.tk) :
    exec (.mfs h d n) s = .next (s.does .k h.tk 1 (fun t => { t with cx := t.cx.wx d (sysRead s n.toNat) })) := by
  refine runK_does issues (Ctx.leavesShell_wx d _) ?_
  rw [get_run, sysRead_started]
  rfl

theorem exec_yMfs {q : SeqId} {e : BitVec 4} (hq : q = .l ∨ q = .s) (issues : s.Issues q h.qp h.tk) :
    exec (.yMfs h e n) s = .next (s.does q h.tk 1 (fun t => { t with cx := t.cx.wLS q e (sysRead s n.toNat) })) := by
  have focus := issues.focus
  subst focus
  refine runLS_does hq issues (Ctx.leavesShell_wLS s.cur e _) ?_
  rw [get_run, sysRead_started, setYz_run]
  rfl

theorem exec_rdplan {f : BitVec 1} (issues : s.Issues .k h.qp h.tk) : exec (.rdplan h d f) s = .next (s.does .k h.tk 1 (fun t =>
    { t with cx := t.cx.wx d (BitVec.ofNat 64 s.clock - if f = 0 then 0 else s.cx.pbase) })) := by
  refine runK_does issues (Ctx.leavesShell_wx d _) ?_
  have base : (s.started .k h.tk).cx.pbase = s.cx.pbase := Ctx.takenBy_pbase ..
  have value : (BitVec.ofNat 64 s.clock - if f = 0 then 0 else s.cx.pbase) =
      if f = 0 then BitVec.ofNat 64 s.clock else BitVec.ofNat 64 s.clock - s.cx.pbase := by
    split
    · exact BitVec.sub_zero _
    · rfl
  rw [get_run, value, ← base]
  rfl

/-! ## MTS (06 R171) -/

theorem exec_mts_ignored (issues : s.Issues .k h.qp h.tk) (fixed : sysWritable n.toNat = false) :
    exec (.mts h a n) s = .next (s.does .k h.tk 1 id) := by
  refine runK_does issues Ctx.leavesShell_id ?_
  rw [get_run, fixed]
  rfl

theorem exec_mts_faults (issues : s.Issues .k h.qp h.tk) (writable : sysWritable n.toNat = true)
    (bad : sysWriteOk n.toNat (s.cx.rx a) = false) : exec (.mts h a n) s = .next (s.faultHere { cause := 0x013 }) := by
  refine (runK_trap (t := { cause := 0x013 }) (u := s.started .k h.tk) issues ?_ rfl rfl).trans (by rw [State.started_tokensOf])
  rw [get_run, State.started_rx, writable, bad]
  rfl

/-- A writable system register of a context written: ss.wdb, and the address or the control of a watchpoint. -/
def Ctx.sysWritten (c : Ctx) (n : BitVec 9) (v : DWord) : Ctx :=
  if n = 0x00E then { c with wdb := v }
  else if n.toNat < 0x038 then { c with wpa := c.wpa.set (n.setWidth 3) v }
  else { c with wpc := c.wpc.set (n.setWidth 3) v }

theorem Ctx.leavesShell_sysWritten (n : BitVec 9) (v : DWord) : Ctx.LeavesShell (fun c => c.sysWritten n v) := by
  unfold Ctx.sysWritten
  split_ifs <;> exact ⟨fun _ => rfl, fun _ => rfl, fun _ q => by cases q <;> rfl⟩

/-- The registers of the watchpoints stand at 0x030 and 0x038, from a multiple of 8 up (06 R169). -/
theorem setWidth_three_eq {base : Nat} (low : base ≤ n.toNat) (mult : base % 8 = 0) : BitVec.ofNat 3 (n.toNat - base) = n.setWidth 3 := by
  refine BitVec.eq_of_toNat_eq ?_
  rw [BitVec.toNat_ofNat, BitVec.toNat_setWidth]
  omega

theorem sysWrite_run (writable : sysWritable n.toNat = true) (v : DWord) (t : State) :
    sysWrite n.toNat v t = .ok () { t with cx := t.cx.sysWritten n v } := by
  have number : n = 0x00E ↔ n.toNat = 0x00E := by rw [BitVec.toNat_eq]; rfl
  simp only [sysWritable, Bool.or_eq_true, beq_iff_eq, decide_eq_true_eq] at writable
  unfold sysWrite Ctx.sysWritten
  rw [modCx_run]
  simp only [number]
  split_ifs with wdb low
  · rfl
  · rw [setWidth_three_eq (writable.resolve_left wdb) rfl]
  · rw [setWidth_three_eq (not_lt.1 low) rfl]

theorem exec_mts_writes (issues : s.Issues .k h.qp h.tk) (writable : sysWritable n.toNat = true)
    (ok : sysWriteOk n.toNat (s.cx.rx a) = true) :
    exec (.mts h a n) s = .next (s.does .k h.tk 1 (fun t => { t with cx := t.cx.sysWritten n (s.cx.rx a) })) := by
  refine runK_does issues (Ctx.leavesShell_sysWritten n _) ?_
  rw [get_run, State.started_rx, writable, ok]
  exact sysWrite_run writable _ _

/-- Settles O22: the fault clauses from the fields that no instruction has, and each word as a change of its context. -/
theorem systemRegistersAreReadAndWritten : Obligations.SystemRegistersAreReadAndWritten := by
  unfold Obligations.SystemRegistersAreReadAndWritten
  exact ⟨FaultsOn.of_rejected fun w => rejects_illegalRdplan, FaultsOn.of_rejected fun w => rejects_illegalSystemOfK,
    fun m hm => FaultsOn.of_rejected fun w => rejects_illegalSystemOfLS hm, fun m hm => FaultsOn.of_rejected fun w => rejects_illegalSystemOfC hm,
    fun s h d a e n f => ⟨fun issues => ⟨exec_mfs issues, exec_rdplan issues, exec_mts_ignored issues, exec_mts_faults issues,
      exec_mts_writes issues⟩, fun q hq issues => exec_yMfs hq issues⟩⟩

end Sys2Proof.Machine
end

section

/-! PROOFS. K's accesses to another device when their reply has come (06 R188, R191; 13 R358, R359; log 17). -/

namespace Sys2Proof.Machine

variable {s : State} {h : Hq} {d a : BitVec 5} {pol : BitVec 2} {so : BitVec 4} {sz : BitVec 3} {imm : BitVec 32} {r : Remote} {v : Nat}

/-- K holds no reply any more. -/
def State.answered (s : State) : State := { s with cx := { s.cx with remote := none } }

/-- The reply to K's access has come, with a value (13 R359). -/
def State.Replied (s : State) (v : Nat) : Prop := ∃ r, s.cx.remote = some r ∧ r.replied = true ∧ r.performed = some (v, none)

theorem State.Replied.started (hr : s.Replied v) (q : SeqId) (tk : BitVec 3) : (s.started q tk).Replied v := by
  obtain ⟨r, remote, rest⟩ := hr
  exact ⟨r, (State.started_remote s q tk).trans remote, rest⟩

theorem State.Replied.rel (hr : s.Replied v) (so : BitVec 4) : (s.rel so).Replied v := by
  obtain ⟨r, remote, rest⟩ := hr
  exact ⟨r, (State.rel_remote so s).trans remote, rest⟩

/-- An access whose reply has come takes its value. -/
theorem State.Replied.kAccess (hr : s.Replied v) (k : Acc) (va : DWord) (n pol : Nat) (op : RemoteOp) (parks : Bool) :
    kAccess k va n pol op parks s = .ok v s.answered := by
  obtain ⟨r, remote, replied, performed⟩ := hr
  unfold Machine.kAccess
  rw [get_run, remote]
  dsimp only
  rw [if_pos replied, modCx_bind, performed]
  rfl

theorem State.stands_answered (q : SeqId) (s : State) : s.Stands q s.answered := ⟨rfl, rfl, by cases q <;> rfl, rfl⟩

theorem State.Stands.trans {q : SeqId} {t u : State} (h : s.Stands q t) (g : t.Stands q u) : s.Stands q u :=
  ⟨g.id.trans h.id, g.tok.trans h.tok, g.seq.trans h.seq, g.cur.trans h.cur⟩

theorem runK_loadX_replied {parks : Bool} (issues : s.Issues .k h.qp h.tk) (unplanned : s.unplanned) (hr : s.Replied v) :
    runK h 2 (loadX parks d a pol so sz imm) s = .next (State.retired (State.acq so
      { (s.started .k h.tk).answered with cx := (s.started .k h.tk).answered.cx.wx d (extendLoad sz v) }) .k h.tk 2) :=
  runK_stands issues (loadX_ok (unplanned.started .k h.tk) ((hr.started .k h.tk).kAccess ..))
    (((State.stands_answered .k _).wx d _).of_kept (State.kept_acq so _))

theorem exec_stx_replied (issues : s.Issues .k h.qp h.tk) (unplanned : s.unplanned) (hr : s.Replied v) :
    exec (.stx h d a pol so sz imm) s = .next (((s.started .k h.tk).rel so).answered.retired .k h.tk 2) := by
  obtain ⟨op, word, goes, -⟩ := execStx_of_access (h := h) (a := a) (imm := imm) (sz := sz) (pol := pol) (d := d) (so := so) unplanned rfl
  rw [word]
  exact runK_stands issues (goes _ _ (((hr.started .k h.tk).rel so).kAccess ..))
    ((State.stands_of_kept (State.kept_rel so _) .k).trans (State.stands_answered .k _))

theorem exec_amo_replied {op : BitVec 4} (issues : s.Issues .k h.qp h.tk) (unplanned : s.unplanned) (hr : s.Replied v)
    (aligned : (s.cx.rx a).toNat % sizeBytes sz = 0) : exec (.amo h d a so sz op) s = .next (State.retired (State.acq so
      { ((s.started .k h.tk).rel so).answered with
        cx := ((s.started .k h.tk).rel so).answered.cx.wx d (BitVec.ofNat 64 v) }) .k h.tk 2) := by
  obtain ⟨f, word, goes, -⟩ := execAmo_of_access (h := h) (d := d) (so := so) (op := op) unplanned aligned rfl
  rw [word]
  exact runK_stands issues (goes _ _ (((hr.started .k h.tk).rel so).kAccess ..))
    ((((State.stands_of_kept (State.kept_rel so _) .k).trans (State.stands_answered .k _)).wx d _).of_kept (State.kept_acq so _))

/-- Settles O20: the access of each word takes the value of its reply. -/
theorem remoteAccessesCompleteWithTheirReply : Obligations.RemoteAccessesCompleteWithTheirReply := by
  unfold Obligations.RemoteAccessesCompleteWithTheirReply
  intro s h d a pol so sz op imm r v issues unplanned remote replied performed
  have hr : s.Replied v := ⟨r, remote, replied, performed⟩
  exact ⟨runK_loadX_replied issues unplanned hr, runK_loadX_replied issues unplanned hr, exec_stx_replied issues unplanned hr,
    exec_amo_replied issues unplanned hr⟩

end Sys2Proof.Machine
end

section

/-! PROOFS. Cache and pin control (06 R193, R194). -/

namespace Sys2Proof.Machine

variable {s s1 : State} {h : Hq} {a b : BitVec 5} {va : DWord} {n : Nat} {ps : List (DWord × Tr)}

theorem cachePage_keeps (asid : Nat) (needRd : Bool) (va : DWord) : Keeps (cachePage asid needRd va) := by
  intro P
  unfold cachePage
  refine Holds.get fun s _ => ?_
  dsimp only
  split
  · exact Holds.bind (markA_keeps _ P) fun _ => Holds.pure _
  · exact Holds.bind (Holds.pure _) fun _ => Holds.pure _

theorem cacheRange_keeps (needRd : Bool) (va : DWord) (n : Nat) : Keeps (cacheRange needRd va n) := by
  intro P
  unfold cacheRange
  refine Holds.get fun s _ => Holds.ite (fun _ => Holds.faultAt _ _) fun _ => Holds.bind (Holds.collectM fun x => cachePage_keeps _ _ x P) fun all => ?_
  dsimp only
  split
  · exact Holds.faultAt _ _
  · split
    · exact Holds.faultAt _ _
    · exact Holds.pure _

@[simp] theorem State.started_core (s : State) (q : SeqId) (tk : BitVec 3) : (s.started q tk).cx.core = s.cx.core := by
  simp [State.started, Ctx.core]

@[simp] theorem State.started_id (s : State) (q : SeqId) (tk : BitVec 3) : (s.started q tk).cx.id = s.cx.id := Ctx.takenBy_id ..

/-- CINV, CWB, PIN and UNPIN (06 R193): nothing over a length of 0, else the checks of the range and what the word does with it. -/
def rangeOp (needRd : Bool) (a b : BitVec 5) (rest : State → List (DWord × Tr) → M Unit) : M Unit := do
  replayable
  let s ← get
  if (s.cx.rx b).toNat = 0 then pure ()
  else do
    let ps ← cacheRange needRd (s.cx.rx a) (s.cx.rx b).toNat
    rest s ps

section
variable {needRd : Bool} {rest : State → List (DWord × Tr) → M Unit}

theorem runK_rangeOp_empty (issues : s.Issues .k h.qp h.tk) (unplanned : s.unplanned) (zero : (s.cx.rx b).toNat = 0) :
    runK h 1 (rangeOp needRd a b rest) s = .next (s.does .k h.tk 1 id) := by
  refine runK_does issues Ctx.leavesShell_id ?_
  unfold rangeOp
  rw [replayable_bind (unplanned.started .k h.tk), get_run, State.started_rx, if_pos zero]
  rfl

/-- A word over a range that passes its checks, in the machine that these leave. -/
theorem runK_rangeOp {u : State} (issues : s.Issues .k h.qp h.tk) (unplanned : s.unplanned) (nonempty : (s.cx.rx b).toNat ≠ 0)
    (range : cacheRange needRd (s.cx.rx a) (s.cx.rx b).toNat (s.started .k h.tk) = .ok ps s1)
    (goes : rest (s.started .k h.tk) ps s1 = .ok () u) (stands : s1.Stands .k u) :
    runK h 1 (rangeOp needRd a b rest) s = .next (u.retired .k h.tk 1) := by
  refine runK_stands issues ?_ ((State.stands_of_kept ((cacheRange_keeps _ _ _).ok range) .k).trans stands)
  unfold rangeOp
  rw [replayable_bind (unplanned.started .k h.tk), get_run, State.started_rx, State.started_rx, if_neg nonempty, bind_ok range, goes]

end

/-! ## CINV and CWB -/

/-- What CINV and CWB do to the lines of a range: to those of the core's data cache, or of the die L2 as well (06 R193). -/
def State.cacheActed (s1 s : State) (c : BitVec 1) (ls : List Nat) (drop : Bool) : State :=
  let mine (e : L2Line) : Bool := e.die == s.cx.core.1 && ls.contains e.line
  if c = 1 then (if drop then dropLines mine s1 else cleanLines mine s1) else cleanHeld s.cx.core.1 s.cx.core.2 ls drop s1

theorem cacheWord_empty {c : BitVec 1} {drop : Bool} (issues : s.Issues .k h.qp h.tk) (unplanned : s.unplanned)
    (zero : (s.cx.rx b).toNat = 0) : cacheWord h a b c drop s = .next (s.does .k h.tk 1 id) :=
  runK_rangeOp_empty issues unplanned zero

theorem State.kept_cacheActed (s1 s : State) (c : BitVec 1) (ls : List Nat) (drop : Bool) : (s1.cacheActed s c ls drop).kept = s1.kept := by
  unfold State.cacheActed
  exact kept_ite (kept_ite rfl rfl) rfl

theorem cacheWord_range {c : BitVec 1} {drop : Bool} (issues : s.Issues .k h.qp h.tk) (unplanned : s.unplanned)
    (nonempty : (s.cx.rx b).toNat ≠ 0) (range : cacheRange false (s.cx.rx a) (s.cx.rx b).toNat (s.started .k h.tk) = .ok ps s1) :
    cacheWord h a b c drop s =
      .next ((s1.cacheActed s c (rangeLines (s.cx.rx a) (s.cx.rx b).toNat ps) drop).retired .k h.tk 1) := by
  refine runK_rangeOp issues unplanned nonempty range ?_ (State.stands_of_kept (s1.kept_cacheActed s c _ drop) .k)
  simp only [State.started_rx, State.started_core]
  unfold State.cacheActed
  rcases (by decide : ∀ c : BitVec 1, c = 0 ∨ c = 1) c with rfl | rfl <;> cases drop <;> rfl

/-! ## PIN and UNPIN -/

theorem exec_unpin_range (issues : s.Issues .k h.qp h.tk) (unplanned : s.unplanned) (nonempty : (s.cx.rx b).toNat ≠ 0)
    (range : cacheRange false (s.cx.rx a) (s.cx.rx b).toNat (s.started .k h.tk) = .ok ps s1) :
    exec (.unpin h a b) s = .next (State.retired { s1 with pins := s1.pins.filter (fun p => !(p.die == s.cx.core.1 &&
      p.launch == s.cx.id.launch && (rangeLines (s.cx.rx a) (s.cx.rx b).toNat ps).contains p.line)) } .k h.tk 1) := by
  refine runK_rangeOp issues unplanned nonempty range ?_ ⟨rfl, rfl, rfl, rfl⟩
  simp only [State.started_rx, State.started_core, State.started_id]
  rfl

/-- The lines of a range that a PIN on a die pins: those homed on it (06 R194). -/
def State.homed (s : State) (die : Nat) (va : DWord) (n : Nat) (ps : List (DWord × Tr)) : List Nat :=
  (rangeLines va n (ps.filter (fun p => !p.2.h))).filter (fun l => l * 64 / 2 ^ 48 == s.dev && homeDie (l * 64 % 2 ^ 48) == die)

/-- The lines that a die has pinned. -/
def State.pinnedLines (s : State) (die : Nat) : List Nat := ((s.pins.filter (fun p => p.die == die)).map (·.line)).dedup

/-- The lines that a die holds pinned with those of a range. -/
def State.pinsWith (s : State) (die : Nat) (ls : List Nat) : Nat :=
  (s.pinnedLines die).length + (ls.filter (fun l => !(s.pinnedLines die).contains l)).dedup.length

theorem exec_pin_range (issues : s.Issues .k h.qp h.tk) (unplanned : s.unplanned) (nonempty : (s.cx.rx b).toNat ≠ 0)
    (range : cacheRange true (s.cx.rx a) (s.cx.rx b).toNat (s.started .k h.tk) = .ok ps s1)
    (fits : s.pinsWith s.cx.core.1 (s.homed s.cx.core.1 (s.cx.rx a) (s.cx.rx b).toNat ps) ≤ pinLimit) :
    exec (.pin h a b) s = .next (State.retired { s1 with
      pins := s1.pins ++ ((s.homed s.cx.core.1 (s.cx.rx a) (s.cx.rx b).toNat ps).filter
        (fun l => !s1.pins.contains ⟨s.cx.core.1, l, s.cx.id.launch⟩)).dedup.map (fun l => ⟨s.cx.core.1, l, s.cx.id.launch⟩) } .k h.tk 1) := by
  have kept := (cacheRange_keeps _ _ _).ok range
  have lines : s1.homed s.cx.core.1 (s.cx.rx a) (s.cx.rx b).toNat ps = s.homed s.cx.core.1 (s.cx.rx a) (s.cx.rx b).toNat ps := by
    unfold State.homed; rw [State.dev_of_kept kept]; rfl
  have pins : s1.pinsWith s.cx.core.1 = s.pinsWith s.cx.core.1 :=
    (congrArg (fun u : State => u.pinsWith s.cx.core.1) kept :)
  rw [← lines, ← pins] at fits
  rw [← lines]
  refine runK_rangeOp issues unplanned nonempty range ?_ ⟨rfl, rfl, rfl, rfl⟩
  simp only [State.started_rx, State.started_core, State.started_id]
  exact (congrFun (if_neg (Nat.not_lt.2 fits)) s1).trans rfl

/-- Settles O21: each word in the machine that the checks of its range leave. -/
theorem cacheAndPinControlComplete : Obligations.CacheAndPinControlComplete := by
  unfold Obligations.CacheAndPinControlComplete
  rintro s h a b c ps s1 va n ls issues unplanned rfl rfl rfl
  exact ⟨fun zero => ⟨cacheWord_empty issues unplanned zero, cacheWord_empty issues unplanned zero,
      runK_rangeOp_empty issues unplanned zero, runK_rangeOp_empty issues unplanned zero⟩,
    fun nonempty range => ⟨cacheWord_range issues unplanned nonempty range, cacheWord_range issues unplanned nonempty range,
      exec_unpin_range issues unplanned nonempty range⟩,
    fun nonempty range fits => exec_pin_range issues unplanned nonempty range fits⟩

end Sys2Proof.Machine
end

section

/-! PROOFS. Groups (05 R150; 06 R198). -/

namespace Sys2Proof.Machine

variable {s t : State} {h : Hq} {d a : BitVec 5} {c : BitVec 1} {g : BitVec 8} {l : Launch}

theorem look_upd {α : Type} (es : List (Nat × α)) (k : Nat) (v : α) : look (upd es k v) k = some v := by
  have found (es : List (Nat × α)) (held : es.any (fun e => e.1 == k) = true) :
      (es.map (fun e => if e.1 == k then (k, v) else e)).find? (fun e => e.1 == k) = some (k, v) := by
    induction es with
    | nil => cases held
    | cons e es ih =>
      by_cases here : e.1 = k
      · simp [here]
      · simpa [here] using ih (by simpa [here] using held)
  unfold look upd
  split
  · rename_i held
    rw [found es held]
    rfl
  · rename_i free
    have absent : es.find? (fun e => e.1 == k) = none := by
      rw [List.find?_eq_none]
      exact fun e he here => free (List.any_eq_true.2 ⟨e, he, here⟩)
    simp [absent]

/-- A group whose members list the running context is there for it (05 R149). -/
theorem groupOf_run (hl : t.launch? t.cx.id.launch = some l) (hm : l.member g.toNat t.cx.id.lcore = true) : groupOf g t = .ok l t := by
  unfold groupOf
  rw [get_run, hl]
  dsimp only
  rw [if_pos hm]
  rfl

/-- The machine after an arrival at a barrier (05 R150). -/
def State.arrivedAt (t : State) (num : Nat) (g : BitVec 8) (lcore : Nat) : State := t.updLaunch num (fun l => l.arrive g.toNat lcore)

theorem arriveM_run (fresh : (l.barrier g.toNat).arrived.contains t.cx.id.lcore = false) :
    arriveM g l t = .ok (l.barrier g.toNat).phase (t.arrivedAt l.num g t.cx.id.lcore) := by
  unfold arriveM
  rw [get_run]
  exact (congrFun (if_neg (by rw [fresh]; decide)) t).trans rfl

theorem waitPhase_run {n : BitVec 32} (hl : t.launch? t.cx.id.launch = some l) (done : phaseDone (l.barrier g.toNat).phase n = true) :
    waitPhase g n t = .ok () t := by
  unfold waitPhase
  rw [get_run, hl]
  dsimp only
  rw [done, waitUnless_true]

/-- The arrival of the last member completes the phase. -/
theorem Launch.arrive_barrier {k lcore : Nat}
    (last : allArrived ((look l.groups k).getD 0) ((l.barrier k).arrived ++ [lcore]) = true) :
    (l.arrive k lcore).barrier k = ⟨(l.barrier k).phase + 1, []⟩ := by
  unfold Launch.arrive Launch.barrier at *
  dsimp only
  rw [if_pos last, look_upd]
  rfl

theorem phaseDone_succ (n : BitVec 32) : phaseDone (n + 1) n = true := by
  unfold phaseDone
  rw [show n + 1 - n = 1 by rw [BitVec.add_comm, BitVec.add_sub_cancel]]
  decide


theorem Launch.arrive_num (l : Launch) (k lcore : Nat) : (l.arrive k lcore).num = l.num := rfl

theorem State.arrivedAt_launch? (hl : t.launch? t.cx.id.launch = some l) (lcore : Nat) :
    (t.arrivedAt l.num g lcore).launch? t.cx.id.launch = some (l.arrive g.toNat lcore) := by
  have num : (l.num == l.num) = true := beq_self_eq_true _
  unfold State.arrivedAt
  rw [State.launch?_updLaunch (fun l => l.arrive_num _ _), hl, Option.map_some, if_pos num]

/-- The running context is a member of the group, of its launch, that a word names. -/
structure State.InGroup (t : State) (g : BitVec 8) (l : Launch) : Prop where
  launch : t.launch? t.cx.id.launch = some l
  member : l.member g.toNat t.cx.id.lcore = true

theorem State.InGroup.of_kept {u : State} (hg : t.InGroup g l) (hk : u.kept = t.kept) : u.InGroup g l := by
  have id := (State.stands_of_kept hk .k).id
  exact ⟨by rw [State.launch?_of_kept hk, id]; exact hg.launch, by rw [id]; exact hg.member⟩

theorem State.InGroup.started (hg : s.InGroup g l) (q : SeqId) (tk : BitVec 3) : (s.started q tk).InGroup g l :=
  ⟨by rw [State.started_id]; exact hg.launch, by rw [State.started_id]; exact hg.member⟩

theorem State.started_arrived (s : State) (q : SeqId) (tk : BitVec 3) : (s.started q tk).cx.arrived = s.cx.arrived := by
  simp [State.started]

theorem release_run (n : Nat) (t : State) : release n t = .ok () (t.released n) := rfl

/-- The arrival of GARR and GSYNC releases at the scope of the word first (06 R198). -/
def State.arrives (t : State) (c : BitVec 1) (g : BitVec 8) (l : Launch) (lcore : Nat) : State :=
  (t.released (groupScope c)).arrivedAt l.num g lcore

theorem State.released_id (n : Nat) (t : State) : (t.released n).cx.id = t.cx.id := (State.stands_of_kept (kept_released n t) .k).id

theorem State.stands_arrives (c : BitVec 1) (g : BitVec 8) (l : Launch) (n : Nat) (t : State) : t.Stands .k (t.arrives c g l n) :=
  (State.stands_of_kept (kept_released (groupScope c) t) .k).trans ⟨rfl, rfl, rfl, rfl⟩

theorem State.arrives_launch? (hg : t.InGroup g l) (lcore : Nat) :
    (t.arrives c g l lcore).launch? (t.arrives c g l lcore).cx.id.launch = some (l.arrive g.toNat lcore) :=
  State.arrivedAt_launch? (hg.of_kept (kept_released _ t)).launch _

theorem arriveM_released (fresh : (l.barrier g.toNat).arrived.contains t.cx.id.lcore = false) :
    arriveM g l (t.released (groupScope c)) = .ok (l.barrier g.toNat).phase (t.arrives c g l t.cx.id.lcore) := by
  have id := t.released_id (groupScope c)
  unfold State.arrives
  rw [arriveM_run (by rw [id]; exact fresh), id]

/-- The end of GWAIT and GSYNC: what a completed phase lets the context see (06 R198). -/
def State.pastBarrier (t : State) (c : BitVec 1) : State := State.acquired (groupScope c) { t with cx := { t.cx with arrived := none } }

theorem State.stands_pastBarrier (c : BitVec 1) (t : State) : t.Stands .k (t.pastBarrier c) :=
  State.Stands.of_kept (u := { t with cx := { t.cx with arrived := none } }) ⟨rfl, rfl, rfl, rfl⟩ (kept_acquired _ _)

section
variable (issues : s.Issues .k h.qp h.tk) (unplanned : s.unplanned) (hg : s.InGroup g l)
include issues unplanned hg

theorem exec_garr (fresh : (l.barrier g.toNat).arrived.contains s.cx.id.lcore = false) :
    exec (.garr h d c g) s = .next (s.does .k h.tk 1 (fun t =>
      { t.arrives c g l s.cx.id.lcore with cx := (t.arrives c g l s.cx.id.lcore).cx.wx d ((l.barrier g.toNat).phase.setWidth 64) })) := by
  obtain ⟨launch, member⟩ := hg.started .k h.tk
  refine runK_stands issues ?_ ((State.stands_arrives c g l _ _).wx d _)
  rw [replayable_bind (unplanned.started .k h.tk), bind_ok (groupOf_run launch member), bind_ok (release_run _ _),
    bind_ok (arriveM_released (by rw [State.started_id]; exact fresh)), State.started_id]
  rfl

theorem exec_gwait (done : phaseDone (l.barrier g.toNat).phase ((s.cx.rx a).setWidth 32) = true) :
    exec (.gwait h a c g) s = .next (s.does .k h.tk 1 (fun t => t.acquired (groupScope c))) := by
  obtain ⟨launch, member⟩ := hg.started .k h.tk
  refine runK_stands issues ?_ (State.stands_of_kept (kept_acquired _ _) .k)
  rw [replayable_bind (unplanned.started .k h.tk), bind_ok (groupOf_run launch member), get_run, State.started_rx,
    bind_ok (waitPhase_run launch done)]
  rfl

theorem exec_gsync_last (absent : s.cx.arrived = none) (fresh : (l.barrier g.toNat).arrived.contains s.cx.id.lcore = false)
    (last : allArrived ((look l.groups g.toNat).getD 0) ((l.barrier g.toNat).arrived ++ [s.cx.id.lcore]) = true) :
    exec (.gsync h d c g) s = .next (s.does .k h.tk 1 (fun t =>
      { (t.arrives c g l s.cx.id.lcore).pastBarrier c with cx := ((t.arrives c g l s.cx.id.lcore).pastBarrier c).cx.wx d ((l.barrier g.toNat).phase.setWidth 64) })) := by
  have started := hg.started .k h.tk
  have absent' : (s.started .k h.tk).cx.arrived = none := (State.started_arrived ..).trans absent
  refine runK_stands issues ?_ (((State.stands_arrives c g l _ _).trans (State.stands_pastBarrier c _)).wx d _)
  rw [replayable_bind (unplanned.started .k h.tk), bind_ok (groupOf_run started.launch started.member), get_run, absent']
  dsimp only
  rw [bind_ok (release_run _ _), bind_ok (arriveM_released (c := c) (by rw [State.started_id]; exact fresh)),
    State.started_id, modCx_bind, bind_ok (waitPhase_run (l := l.arrive g.toNat s.cx.id.lcore) ?_ ?_)]
  · rfl
  · exact State.arrives_launch? started _
  · rw [Launch.arrive_barrier last]
    exact phaseDone_succ _

theorem exec_gsync_arrived {n : BitVec 32} (arrived : s.cx.arrived = some (g.toNat, n)) (done : phaseDone (l.barrier g.toNat).phase n = true) :
    exec (.gsync h d c g) s = .next (s.does .k h.tk 1 (fun t =>
      { t.pastBarrier c with cx := (t.pastBarrier c).cx.wx d (n.setWidth 64) })) := by
  obtain ⟨launch, member⟩ := hg.started .k h.tk
  have arrived' : (s.started .k h.tk).cx.arrived = some (g.toNat, n) := (State.started_arrived ..).trans arrived
  refine runK_stands issues ?_ ((State.stands_pastBarrier c _).wx d _)
  rw [replayable_bind (unplanned.started .k h.tk), bind_ok (groupOf_run launch member), get_run, arrived']
  dsimp only
  rw [if_pos rfl, bind_ok (waitPhase_run launch done)]
  rfl

end

/-- Settles O23: each word finds the context in its group, and a last arrival has completed its phase. -/
theorem groupsComplete : Obligations.GroupsComplete := by
  unfold Obligations.GroupsComplete
  intro s h d a c g l issues unplanned launch member
  have hg : s.InGroup g l := ⟨launch, member⟩
  exact ⟨exec_garr issues unplanned hg, exec_gwait issues unplanned hg, exec_gsync_last issues unplanned hg,
    fun n => exec_gsync_arrived issues unplanned hg⟩

end Sys2Proof.Machine
end

section

/-! PROOFS. Requests at their home and replies (06 R190, R191; 13 R358, R359; logs 7, 17). -/

namespace Sys2Proof.Machine

variable {s : State} {c : CtxId} {x : Ctx} {r : Remote}

/-- What a context in flight waits for of another device. -/
def State.setRemote (s : State) (c : CtxId) (r : Remote) : State := s.updCtx c (fun x => { x with remote := some r })

section
variable (there : s.ctx? c = some x) (waits : x.remote = some r)
include there waits

/-- A request that is not yet performed, where the checks of its parts find a trap. -/
theorem exec_remoteRequest_traps {t : Trap} (fresh : r.performed = none) (trap : partsTrap s r.parts = some t) :
    exec (.remoteRequest (.own c)) s = .next (s.setRemote c { r with performed := some (0, some t) }) := by
  show Host.Outcome.next (performOwn c s) = _
  unfold performOwn
  rw [there]
  dsimp only
  rw [waits]
  dsimp only
  rw [fresh, trap]
  rfl

theorem exec_remoteRequest_performs (fresh : r.performed = none) (passes : partsTrap s r.parts = none) :
    exec (.remoteRequest (.own c)) s = .next ((performRemote c.launch x.core.1 r s).2.setRemote c
      { r with performed := some ((performRemote c.launch x.core.1 r s).1, none) }) := by
  show Host.Outcome.next (performOwn c s) = _
  unfold performOwn
  rw [there]
  dsimp only
  rw [waits]
  dsimp only
  rw [fresh, passes]
  rfl

end

/-! ## Replies -/

/-- A reply marks a performed request of a sequencer that has not parked its context. -/
theorem answer_unparked (c : CtxId) (s : State) : answer c false s = s.updCtx c (fun x =>
    match x.remote with
    | some r => if r.performed.isSome && !r.parks then { x with remote := some { r with replied := true } } else x
    | none => x) := by
  unfold answer
  congr 1
  funext x
  cases x.remote with
  | none => rfl
  | some r => exact ite_congr (by rw [beq_false]) (fun _ => rfl) fun _ => rfl

theorem State.updCtx_others (s : State) (c : CtxId) (f : Ctx → Ctx) : { s.updCtx c f with cx := s.cx, others := s.others } = s := by
  unfold State.updCtx
  split <;> rfl

/-- What a reply to LDXP does to the context that waits for it. -/
def Ctx.unparked (x : Ctx) : Ctx :=
  match x.remote with
  | some r =>
    if r.performed.isSome && r.parks == true then
      { x with remote := some { r with replied := true }
               status := if x.status == .parked then .running else x.status }
    else x
  | none => x

theorem Ctx.unparked_id (x : Ctx) : x.unparked.id = x.id := by
  unfold Ctx.unparked
  split
  · split <;> rfl
  · rfl

theorem Ctx.unparked_of_parked (waits : x.remote = some r) (performed : r.performed.isSome = true) (parks : r.parks = true)
    (parked : x.status = .parked) : x.unparked = { x with remote := some { r with replied := true }, status := .running } := by
  unfold Ctx.unparked
  rw [waits]
  dsimp only
  rw [performed, parks, parked]
  rfl

theorem exec_ldxpReply (c : CtxId) (s : State) : exec (.ldxpReply c) s = .next (s.updCtx c Ctx.unparked) := rfl

/-- Settles O45: what each step of a request is, by the state of the request. -/
theorem remoteRequestsArePerformedAndAnswered : Obligations.RemoteRequestsArePerformedAndAnswered := by
  unfold Obligations.RemoteRequestsArePerformedAndAnswered
  intro s c x r there waits
  refine ⟨fun t => exec_remoteRequest_traps there waits, exec_remoteRequest_performs there waits, fun _ _ => ?reply,
    fun performed parks parked => ?ldxp, fun src pa n op v w tce tag passes => ⟨?read, fun data mask len => ?write, fun new amo => ?atomic⟩,
    fun src pa new passes => ?tag⟩
  case reply => exact congrArg (fun t => Host.Outcome.next ((acceptTile c (acceptStore c t)).updCtx c Ctx.ackAll)) (answer_unparked c s)
  case ldxp =>
    have found := State.ctx?_updCtx Ctx.unparked_id s (c := c)
    refine ⟨_, exec_ldxpReply c s, ?_, fun i other => by rw [found, if_neg other], s.updCtx_others c _⟩
    rw [found, if_pos rfl, there, Option.map_some, Ctx.unparked_of_parked waits performed parks parked]
  case read => exact congrArg Host.Outcome.next (if_pos passes)
  case write =>
    subst len
    exact congrArg Host.Outcome.next (if_pos passes)
  case atomic =>
    refine congrArg Host.Outcome.next ((if_pos passes).trans ?_)
    dsimp only
    rw [amo]
  case tag => exact congrArg Host.Outcome.next (if_pos passes)

end Sys2Proof.Machine
end

section

/-! PROOFS. The shared instructions on L, S and K (06 R172 to R182). -/

namespace Sys2Proof.Machine

variable {s t : State} {q : SeqId} {h : Hd} {qp tk : BitVec 3} {words : Nat} {op : M Unit} {keeps : Bool} {f : SeqState → SeqState}

/-- The sequencer moves past its words, which may have opened a transfer, with the token of their field posted. -/
def State.movedPast (s : State) (q : SeqId) (tk : BitVec 3) (words : Nat) (opened : Bool) : State :=
  { s with cx := (s.cx.postedBy q tk).updSeq q (fun st => st.retire words opened) }

/-- A word whose effect goes on completes, whether or not it waits with its token. -/
theorem runWord_completes {u : State} (issues : s.Issues q qp tk) (hop : op (s.started q tk) = .ok () u) (id : u.cx.id = s.cx.id)
    (cur : u.cur = q) (room : ∀ i, fieldPost q tk = some i → u.cx.tokens i < 15) :
    runWord qp tk words op s keeps = u.movedPast q tk words ((s.cx.seq q).pend.isNone && (u.cx.seq q).pend.isSome) := by
  have focus := issues.focus
  subst focus
  have truth : (s.cx.seq s.cur).rq qp = true := issues.holds
  have fin (opened : Bool) : (finish s tk words opened u).1 = u.movedPast s.cur tk words opened := by
    have posted : finish s tk words opened u = (u.movedPast u.cur tk words opened, true) := finish_posted (by rw [cur]; exact room)
    rw [posted, cur]
  have closed : (!(s.cx.seq s.cur).pend.isSome) = (s.cx.seq s.cur).pend.isNone := by cases (s.cx.seq s.cur).pend <;> rfl
  unfold runWord
  cases hw : s.cx.openField s.cur tk with
  | none =>
    have same : s.started s.cur tk = s := by unfold State.started Ctx.takenBy; rw [hw]
    rw [same] at hop
    simp [truth, hop, id, fin, cur, closed]
  | some i =>
    have held : s.cx.tokens i ≠ 0 := Nat.pos_iff_ne_zero.1 (issues.token i hw)
    have taken : s.started s.cur tk = { s with cx := s.cx.setTokens i (s.cx.tokens i - 1) } := by
      unfold State.started Ctx.takenBy; rw [hw]
    rw [taken] at hop
    simp [truth, hop, id, fin, cur, closed, held]

theorem Ctx.updSeq_postedBy (c : Ctx) (q : SeqId) (tk : BitVec 3) (f : SeqState → SeqState) :
    (c.updSeq q f).postedBy q tk = (c.postedBy q tk).updSeq q f := by
  have set (i n : Nat) : (c.updSeq q f).setTokens i n = (c.setTokens i n).updSeq q f := by
    unfold Ctx.setTokens
    split <;> cases q <;> rfl
  have count (i : Nat) : (c.updSeq q f).tokens i = c.tokens i := by unfold Ctx.tokens; rw [Ctx.updSeq_tok]
  unfold Ctx.postedBy
  cases fieldPost q tk with
  | none => rfl
  | some i => simp only [set, count]

/-- What a shared word that halts its sequencer or opens a transfer leaves of the sequencer, before it retires. -/
def SeqState.shared (halts : Bool) (opens : Option Pend) (st : SeqState) : SeqState :=
  { st with halted := st.halted || halts, pend := opens.or st.pend }

theorem State.shared_other (other : q ≠ .c) (halts : Bool) (opens : Option Pend) (t : State) :
    s.shared q tk words halts opens t =
      { t with cx := (t.cx.postedBy q tk).updSeq q (fun st => (st.shared halts opens).retire words opens.isSome) } := by
  unfold State.shared SeqState.shared
  simp only [if_neg other]

/-- A shared word of L, S or K whose effect goes on, with a change of its sequencer that retires as the word says. -/
theorem runWord_shared {halts : Bool} {opens : Option Pend} (issues : s.Issues q qp tk) (other : q ≠ .c)
    (hop : op (s.started q tk) = .ok () { t with cx := t.cx.updSeq q f }) (id : t.cx.id = s.cx.id) (cur : t.cur = q)
    (room : ∀ i, fieldPost q tk = some i → t.cx.tokens i < 15)
    (opened : ((s.cx.seq q).pend.isNone && (f (t.cx.seq q)).pend.isSome) = opens.isSome)
    (ends : ∀ st, (f st).retire words opens.isSome = (st.shared halts opens).retire words opens.isSome) :
    runWord qp tk words op s keeps = s.shared q tk words halts opens t := by
  have count (i : Nat) : (t.cx.updSeq q f).tokens i = t.cx.tokens i := by unfold Ctx.tokens; rw [Ctx.updSeq_tok]
  rw [runWord_completes issues hop ((t.cx.updSeq_id q f).trans id) cur (fun i hp => (count i).trans_lt (room i hp)),
    State.shared_other other]
  unfold State.movedPast
  dsimp only
  rw [Ctx.updSeq_seq, opened, Ctx.updSeq_postedBy, Ctx.updSeq_updSeq]
  simp only [ends]

/-- One that changes nothing of its sequencer but the transfer in whose delay it stands. -/
theorem runWord_plain (issues : s.Issues q qp tk) (other : q ≠ .c) (hop : op (s.started q tk) = .ok () t) (id : t.cx.id = s.cx.id)
    (cur : t.cur = q) (room : ∀ i, fieldPost q tk = some i → t.cx.tokens i < 15) (pend : (t.cx.seq q).pend = (s.cx.seq q).pend) :
    runWord qp tk words op s keeps = s.shared q tk words false none t := by
  have same : t.cx.updSeq q (fun st => st) = t.cx := by cases q <;> rfl
  refine runWord_shared issues other (f := fun st => st) (by rw [same]; exact hop) id cur room ?_ fun st => ?_
  · rw [pend]
    cases (s.cx.seq q).pend <;> rfl
  · unfold SeqState.shared
    rw [Bool.or_false]
    rfl

/-! ## The words of L, S and K -/

theorem State.IssuesShared.issues (hi : s.IssuesShared q h) : s.Issues q h.qp h.tk := ⟨hi.focus, hi.alone, hi.holds, hi.token, hi.room⟩

theorem State.IssuesShared.room_started (hi : s.IssuesShared q h) {i : Nat} (hp : fieldPost q h.tk = some i) :
    (s.started q h.tk).cx.tokens i < 15 := hi.issues.room_taken hp

theorem runShared_other (hi : s.IssuesShared q h) (other : q ≠ .c) :
    runShared h words op s keeps = .next (runWord h.qp h.tk words op s keeps) := if_neg (by rw [hi.focus]; exact other)

theorem modSeq_run_at (cur : t.cur = q) (f : SeqState → SeqState) : modSeq f t = .ok () { t with cx := t.cx.updSeq q f } := by
  subst cur
  rfl

/-- The effect of FENCE: C of a compute core has nothing to release (06 R182). -/
def State.fenced (t : State) (q : SeqId) (c : BitVec 3) (o : BitVec 2) : State :=
  (if o = 1 ∨ (q = .c ∧ t.cx.onBcast = false) then t else t.released c.toNat).acquired c.toNat

theorem State.kept_fenced (t : State) (q : SeqId) (c : BitVec 3) (o : BitVec 2) : (t.fenced q c o).kept = t.kept :=
  (kept_acquired _ _).trans (kept_ite rfl (kept_released _ t))

/-- The cache actions of FENCE, and the lines that are fetched afresh. -/
def fenceOp (c : BitVec 3) (o : BitVec 2) : M Unit := do
  let s ← get
  if (s.cur != .c || s.cx.onBcast) && o != 1 then release c.toNat else pure ()
  acquire c.toNat
  modSeq (fun st => { st with fetched := [] })

theorem fenceOp_run (cur : t.cur = q) (c : BitVec 3) (o : BitVec 2) : fenceOp c o t =
    .ok () { t.fenced q c o with cx := (t.fenced q c o).cx.updSeq q (fun st => { st with fetched := [] }) } := by
  subst cur
  have afresh := modSeq_run_at (State.stands_of_kept (t.kept_fenced t.cur c o) t.cur).cur (fun st => { st with fetched := [] })
  unfold fenceOp
  rw [get_run]
  unfold State.fenced at *
  by_cases idle : o = 1 ∨ (t.cur = .c ∧ t.cx.onBcast = false)
  · rw [if_pos idle] at *
    exact (congrFun (if_neg (by rcases idle with rfl | ⟨c, b⟩ <;> simp [*])) t).trans afresh
  · rw [if_neg idle] at *
    exact (congrFun (if_pos (by cases hb : t.cx.onBcast <;> simp_all)) t).trans afresh

theorem Ctx.tokens_removed (c : Ctx) (p n i : Nat) : (c.setTokens p (c.tokens p - n)).tokens i ≤ c.tokens i := by
  by_cases hp : p < 12
  · rw [Ctx.tokens_setTokens i hp (by have := c.tokens_le p; omega)]
    split
    · rename_i same
      rw [same]
      exact Nat.sub_le _ _
    · exact le_rfl
  · unfold Ctx.setTokens
    rw [dif_neg hp]

@[simp] theorem State.started_rReg (s : State) (q r : SeqId) (tk : BitVec 3) (b : BitVec 5) : (s.started q tk).cx.rReg r b = s.cx.rReg r b := by
  cases r
  · exact Ctx.takenBy_ry ..
  · simp [State.started, Ctx.rReg, Ctx.ra]
  · exact Ctx.takenBy_rz ..
  · exact Ctx.takenBy_rx ..

theorem Ctx.wReg_id (c : Ctx) (q : SeqId) (b : BitVec 5) (v : DWord) : (c.wReg q b v).id = c.id := by
  cases q <;> simp [Ctx.wReg]

theorem Ctx.wReg_seq (c : Ctx) (q r : SeqId) (b : BitVec 5) (v : DWord) : (c.wReg q b v).seq r = c.seq r := by
  cases q <;> simp [Ctx.wReg]

theorem Ctx.wReg_tok (c : Ctx) (q : SeqId) (b : BitVec 5) (v : DWord) : (c.wReg q b v).tok = c.tok := by
  cases q <;> simp [Ctx.wReg]

theorem State.operands_alone (alone : t.bun = none) : t.operands = t.cx := by
  unfold State.operands
  rw [alone]

theorem State.wordPc_alone (cur : t.cur = q) (alone : t.bun = none) : t.wordPc = (t.cx.seq q).pc := by
  subst cur
  unfold State.wordPc
  rw [alone]
  exact BitVec.add_zero _

/-- The transfer that a word opens, by the target that the sequencer has loaded (06 R177, R179). -/
def SeqState.delay (st : SeqState) (j : BitVec 2) (taken : Bool) (left : Nat) : Pend := ⟨st.j.get j, taken, left⟩

theorem openDelay_other (cur : t.cur = q) (alone : t.bun = none) (other : q ≠ .c) (j : BitVec 2) (taken : Bool) :
    openDelay j taken t =
      .ok () { t with cx := t.cx.updSeq q (fun st => { st with pend := some ((t.cx.seq q).delay j taken 2) }) } := by
  unfold openDelay
  rw [get_run, State.operands_alone alone]
  refine (congrFun (if_neg (by rw [cur]; exact other)) t).trans ?_
  subst cur
  rfl

theorem raiseCopy_none (free : t.cx.copy.faults = []) : raiseCopy t = .ok () t := by
  unfold raiseCopy
  rw [get_run, free]
  rfl

theorem raiseTile_none (free : t.cx.tileFaults = []) : raiseTile t = .ok () t := by
  unfold raiseTile
  rw [get_run, free]
  rfl

/-- The effect of BRXD: its register counts down, and it opens a transfer (06 R178). -/
def brxdOp (j : BitVec 2) (b : BitVec 5) : M Unit := do
  let s ← get
  let c := s.operands.wReg s.cur b (s.operands.rReg s.cur b - 1)
  modCx (fun cx => cx.wReg s.cur b (s.operands.rReg s.cur b - 1))
  openDelay j (c.rReg s.cur b != 0)

theorem brxdOp_run (cur : t.cur = q) (j : BitVec 2) (b : BitVec 5) : brxdOp j b t =
    openDelay j ((t.operands.wReg q b (t.operands.rReg q b - 1)).rReg q b != 0)
      { t with cx := t.cx.wReg q b (t.operands.rReg q b - 1) } := by
  subst cur
  rfl

/-- A sequencer that HALT stops. -/
def SeqState.halt (st : SeqState) : SeqState := { st with halted := true, pend := none }

/-- The effect of HALT (06 R175; 11 R326). -/
def haltOp : M Unit := do
  let s ← get
  match s.cur with
  | .c => do
    if s.cx.onBcast && s.planOpen s.cx.id.launch then fault 0x206 else pure ()
    raiseBank
    modBun (fun b => { b with halts := some b.off })
  | .k => do
    raiseCopy
    raiseTile
    modSeq (fun st => { st with halted := true, pend := none })
  | _ => modSeq (fun st => { st with halted := true, pend := none })

theorem haltOp_other (cur : t.cur = q) (other : q ≠ .c) (faults : q = .k → t.cx.copy.faults = [] ∧ t.cx.tileFaults = []) :
    haltOp t = modSeq SeqState.halt t := by
  unfold haltOp
  rw [get_run, cur]
  cases q with
  | c => exact absurd rfl other
  | l => rfl
  | s => rfl
  | k =>
    obtain ⟨copies, tiles⟩ := faults rfl
    exact (bind_ok (raiseCopy_none copies)).trans (bind_ok (raiseTile_none tiles))

theorem runTransfer_outside (hi : s.IssuesShared q h) (outside : (s.cx.seq q).pend = none) :
    runTransfer h op s = runShared h 1 op s := by
  refine if_neg ?_
  unfold inDelay
  rw [State.operands_alone hi.alone, hi.focus, outside]
  exact Bool.false_ne_true

section
variable (hi : s.IssuesShared q h) (other : q ≠ .c)
include hi other

theorem exec_nop_other : exec (.nop h) s = .next (s.shared q h.tk 1 false none (s.started q h.tk)) := by
  have away : s.cur ≠ .c := by rw [hi.focus]; exact other
  refine (if_neg away).trans ((runShared_other hi other).trans (congrArg Host.Outcome.next ?_))
  exact runWord_plain hi.issues other rfl (s.started_id ..) hi.focus (fun i hp => hi.room_started hp) (by rw [State.started_seq])

theorem exec_fence_other (c : BitVec 3) (o : BitVec 2) : exec (.fence h c o) s = .next (s.shared q h.tk 1 false none
    { (s.started q h.tk).fenced q c o with
      cx := ((s.started q h.tk).fenced q c o).cx.updSeq q (fun st => { st with fetched := [] }) }) := by
  obtain ⟨id, tok, seq, cur⟩ := State.stands_of_kept ((s.started q h.tk).kept_fenced q c o) q
  refine (runShared_other hi other).trans (congrArg Host.Outcome.next ?_)
  refine runWord_plain hi.issues other ?_ ?_ (cur.trans hi.focus) (fun i hp => ?_) ?_
  · exact fenceOp_run (t := s.started q h.tk) hi.focus c o
  · exact (Ctx.updSeq_id ..).trans (id.trans (s.started_id ..))
  · have room := hi.room_started hp
    unfold Ctx.tokens at *
    dsimp only
    rw [Ctx.updSeq_tok, tok]
    exact room
  · exact (congrArg SeqState.pend (Ctx.updSeq_seq ..)).trans (by dsimp only; rw [seq, State.started_seq])

/-- A shared word whose effect is one on the context that leaves its name, its sequencer, and room for the word's post. -/
theorem runWord_changes {g : Ctx → Ctx} (hop : op (s.started q h.tk) = .ok () { s.started q h.tk with cx := g (s.started q h.tk).cx })
    (id : ∀ c, (g c).id = c.id) (pend : ∀ c, ((g c).seq q).pend = (c.seq q).pend)
    (room : ∀ i, fieldPost q h.tk = some i → (g (s.started q h.tk).cx).tokens i < 15) :
    runWord h.qp h.tk words op s keeps = s.shared q h.tk words false none { s.started q h.tk with cx := g (s.started q h.tk).cx } :=
  runWord_plain hi.issues other hop ((id _).trans (s.started_id ..)) hi.focus room (by dsimp only; rw [pend, State.started_seq])

theorem exec_tkpost_other (f : BitVec 2) (n : BitVec 4) (fits : (s.started q h.tk).cx.tokens (postQueue q f.toNat) + n.toNat ≤ 15)
    (room : ∀ i, fieldPost q h.tk = some i → ((s.started q h.tk).cx.setTokens (postQueue q f.toNat)
      ((s.started q h.tk).cx.tokens (postQueue q f.toNat) + n.toNat)).tokens i < 15) :
    exec (.tkpost h f n) s = .next (s.shared q h.tk 1 false none { s.started q h.tk with
      cx := (s.started q h.tk).cx.setTokens (postQueue q f.toNat) ((s.started q h.tk).cx.tokens (postQueue q f.toNat) + n.toNat) }) := by
  refine (runShared_other hi other).trans (congrArg Host.Outcome.next ?_)
  refine runWord_changes hi other (g := fun c => c.setTokens (postQueue q f.toNat) (c.tokens (postQueue q f.toNat) + n.toNat)) ?_
    (fun c => c.setTokens_id _ _) (fun c => by rw [Ctx.setTokens_seq]) room
  have focus := hi.focus
  subst focus
  rw [get_run]
  exact (congrFun (if_neg other) _).trans (congrFun (if_neg (Nat.not_lt.2 fits)) _)

theorem exec_tkwait_other (f : BitVec 2) (n : BitVec 4) (enough : n.toNat ≤ (s.started q h.tk).cx.tokens (waitQueue q f.toNat)) :
    exec (.tkwait h f n) s = .next (s.shared q h.tk 1 false none { s.started q h.tk with
      cx := (s.started q h.tk).cx.setTokens (waitQueue q f.toNat) ((s.started q h.tk).cx.tokens (waitQueue q f.toNat) - n.toNat) }) := by
  refine (runShared_other hi other).trans (congrArg Host.Outcome.next ?_)
  refine runWord_changes hi other (g := fun c => c.setTokens (waitQueue q f.toNat) (c.tokens (waitQueue q f.toNat) - n.toNat)) ?_
    (fun c => c.setTokens_id _ _) (fun c => by rw [Ctx.setTokens_seq]) (fun i hp => (Ctx.tokens_removed ..).trans_lt (hi.room_started hp))
  have focus := hi.focus
  subst focus
  rw [get_run]
  exact (congrFun (if_neg other) _).trans (congrFun (if_neg (Nat.not_lt.2 enough)) _)

theorem exec_pbt_other (j : BitVec 2) (m : BitVec 1) (b : BitVec 5) (imm : BitVec 32) :
    exec (.pbt h j m b imm) s = .next (s.shared q h.tk 2 false none { s.started q h.tk with
      cx := (s.started q h.tk).cx.updSeq q (fun st => { st with
        j := st.j.set j ((if m = 0 then (s.cx.seq q).pc else s.cx.rReg q b) + imm.signExtend 64) }) }) := by
  refine (runShared_other hi other).trans (congrArg Host.Outcome.next ?_)
  refine runWord_changes hi other (g := fun c => c.updSeq q (fun st => { st with
        j := st.j.set j ((if m = 0 then (s.cx.seq q).pc else s.cx.rReg q b) + imm.signExtend 64) })) ?_
    (fun c => c.updSeq_id _ _) (fun c => by rw [Ctx.updSeq_seq]) (fun i hp => ?_)
  · have focus : (s.started q h.tk).cur = q := hi.focus
    rw [get_run, State.wordPc_alone focus hi.alone, State.operands_alone (t := s.started q h.tk) hi.alone, focus,
      State.started_rReg, State.started_seq]
    exact modSeq_run_at focus _
  · unfold Ctx.tokens
    rw [Ctx.updSeq_tok]
    exact hi.room_started hp

theorem exec_brx_other (outside : (s.cx.seq q).pend = none) (j : BitVec 2) :
    exec (.brx h j) s = .next (s.shared q h.tk 1 false (some ((s.cx.seq q).delay j true 2)) (s.started q h.tk)) := by
  refine (runTransfer_outside hi outside).trans ((runShared_other hi other).trans (congrArg Host.Outcome.next ?_))
  refine runWord_shared hi.issues other (openDelay_other (t := s.started q h.tk) hi.focus hi.alone other j true) (s.started_id ..)
    hi.focus (fun i hp => hi.room_started hp) ?_ fun st => ?_
  · rw [outside]
    rfl
  · unfold SeqState.shared
    rw [Bool.or_false, State.started_seq]
    rfl

theorem exec_brxd_other (outside : (s.cx.seq q).pend = none) (j : BitVec 2) (b : BitVec 5) :
    exec (.brxd h j b) s = .next (s.shared q h.tk 1 false
      (some ((s.cx.seq q).delay j (((s.started q h.tk).cx.wReg q b (s.cx.rReg q b - 1)).rReg q b != 0) 2))
      { s.started q h.tk with cx := (s.started q h.tk).cx.wReg q b (s.cx.rReg q b - 1) }) := by
  have focus : (s.started q h.tk).cur = q := hi.focus
  have run := brxdOp_run focus j b
  rw [State.operands_alone (t := s.started q h.tk) hi.alone, State.started_rReg] at run
  have opens := openDelay_other (t := { s.started q h.tk with cx := (s.started q h.tk).cx.wReg q b (s.cx.rReg q b - 1) })
    focus hi.alone other j (((s.started q h.tk).cx.wReg q b (s.cx.rReg q b - 1)).rReg q b != 0)
  dsimp only at opens
  rw [Ctx.wReg_seq, State.started_seq] at opens
  refine (runTransfer_outside hi outside).trans ((runShared_other hi other).trans (congrArg Host.Outcome.next ?_))
  refine runWord_shared hi.issues other (f := fun st => { st with pend := some ((s.cx.seq q).delay j
    (((s.started q h.tk).cx.wReg q b (s.cx.rReg q b - 1)).rReg q b != 0) 2) }) (run.trans opens)
    ((Ctx.wReg_id ..).trans (s.started_id ..)) focus (fun i hp => ?_) ?_ fun st => ?_
  · unfold Ctx.tokens
    dsimp only
    rw [Ctx.wReg_tok]
    exact hi.room_started hp
  · rw [outside]
    rfl
  · unfold SeqState.shared
    rw [Bool.or_false]
    rfl

theorem exec_halt_other (faults : q = .k → s.cx.copy.faults = [] ∧ s.cx.tileFaults = []) :
    exec (.halt h) s = .next (s.shared q h.tk 1 true none (s.started q h.tk)) := by
  have focus : (s.started q h.tk).cur = q := hi.focus
  refine (runShared_other hi other).trans (congrArg Host.Outcome.next ?_)
  refine runWord_shared hi.issues other (f := SeqState.halt) ((haltOp_other focus other fun k => ?_).trans (modSeq_run_at focus _))
    (s.started_id ..) focus (fun i hp => hi.room_started hp) (Bool.and_false _) fun st => ?_
  · obtain ⟨copies, tiles⟩ := faults k
    exact ⟨(congrArg CopyState.faults (Ctx.takenBy_copy ..)).trans copies, (Ctx.takenBy_tileFaults ..).trans tiles⟩
  · unfold SeqState.shared SeqState.halt SeqState.retire
    rw [Bool.or_true]
    rfl

end

end Sys2Proof.Machine
end

section

/-! PROOFS. The shared instructions on C, as bundles of their own (02 R52; 06 R172 to R182; 08 R231). -/

namespace Sys2Proof.Machine

variable {s t u : State} {h : Hd} {tk : BitVec 3} {words : Nat} {op : M Unit} {b : Bundle} {c c1 : Ctx} {halts : Bool} {opens : Option Pend}
  {gets posts : List (Nat × Nat × Nat)}

/-- What the token field of a word posts when its bundle retires. -/
def fieldPosts (tk : BitVec 3) (off : Nat) : List (Nat × Nat × Nat) :=
  match fieldPost .c tk with
  | some i => [(i, 1, off)]
  | none => []

/-- The bundle of a lone shared word after its effect: the tokens that it removes and posts, whether it halts, and the transfer that it opens. -/
def State.loneBundle (s : State) (tk : BitVec 3) (words : Nat) (gets posts : List (Nat × Nat × Nat)) (halts : Bool) (opens : Option Pend) : Bundle :=
  { Machine.loneBundle s tk words [] with gets := gets, posts := posts, halts := if halts then some 0 else none, xfer := opens }

theorem slot_opened (hi : s.IssuesShared .c h) (hop : op (s.opened h.tk words) = .ok () { t with bun := some b }) :
    slot true h.tk op (s.openBundle words) = { t with bun := some { b with posts := b.posts ++ fieldPosts h.tk b.off } } := by
  have effect (post : State → State) (note : (Bundle → Bundle) → State → State) (v : State) (hv : op v = .ok () { t with bun := some b }) :
      slot.effect true op note post v = post { t with bun := some b } := by
    unfold slot.effect
    rw [if_pos rfl, hv]
  have noted : (match fieldPost .c h.tk with
      | some i => ({ t with bun := some { b with posts := b.posts ++ [(i, 1, b.off)] } } : State)
      | none => { t with bun := some b }) = { t with bun := some { b with posts := b.posts ++ fieldPosts h.tk b.off } } := by
    unfold fieldPosts
    cases fieldPost .c h.tk with
    | none => rw [List.append_nil]
    | some i => rfl
  rw [← noted]
  unfold State.opened State.started Ctx.takenBy at hop
  unfold slot State.openBundle
  dsimp only
  cases hw : s.cx.openField .c h.tk with
  | none =>
    rw [hw] at hop
    exact effect _ _ _ hop
  | some i =>
    rw [hw] at hop
    dsimp only
    rw [if_neg (Nat.pos_iff_ne_zero.1 (hi.token i hw))]
    exact effect _ _ _ hop

theorem endBundle_takes_and_retires {s0 : State} (holds : t.bun = some b) (taken : takeGets t b = (u, b)) (waits : b.waits = []) (traps : b.traps = [])
    (fits : postAll u.cx b.posts = some c) : endBundle s0 t = retireBundle u b c := by
  unfold endBundle
  rw [holds]
  dsimp only
  rw [taken]
  dsimp only
  rw [waits, traps]
  dsimp only [List.find?_nil, List.isEmpty_nil]
  rw [fits]
  rfl

theorem retireBundle_shared (off : List (Nat × Nat × Nat)) :
    retireBundle u { s.loneBundle tk words gets posts halts opens with posts := off } (c.postedBy .c tk) =
      s.shared .c tk words halts opens { u with cx := c, bun := none } := by
  unfold retireBundle State.loneBundle Machine.loneBundle State.shared
  cases halts <;> cases opens <;> rfl

/-- A shared word of C that is a bundle of its own completes, in the state that its effect and what the bundle takes leave, where there is
room for what the bundle posts. -/
theorem runCq_shared (hi : s.IssuesShared .c h)
    (hop : op (s.opened h.tk words) = .ok () { t with bun := some (s.loneBundle h.tk words gets posts halts opens) })
    (taken : ∀ b : Bundle, b.short = false → b.gets = gets → takeGets { t with bun := some b } b = ({ t with cx := c1, bun := some b }, b))
    (fits : postAll c1 (posts ++ fieldPosts h.tk 0) = some (c.postedBy .c h.tk)) :
    runCq h words op s = .next (s.shared .c h.tk words halts opens { t with cx := c, bun := none }) := by
  have truth : s.cx.seqC.rq h.qp = true := hi.holds
  unfold runCq runC
  rw [if_neg (not_not.2 hi.focus), hi.alone]
  dsimp only
  rw [truth, slot_opened hi hop, endBundle_takes_and_retires rfl (taken _ rfl rfl) rfl rfl fits, retireBundle_shared]

theorem postAll_fieldPosts (room : ∀ i, fieldPost .c tk = some i → c.tokens i < 15) : postAll c (fieldPosts tk 0) = some (c.postedBy .c tk) := by
  unfold fieldPosts Ctx.postedBy
  cases hp : fieldPost .c tk with
  | none => rfl
  | some i => exact if_neg (by have := room i hp; omega)

/-- One that takes and posts no token but that of its field. -/
theorem runCq_plain (hi : s.IssuesShared .c h)
    (hop : op (s.opened h.tk words) = .ok () { t with bun := some (s.loneBundle h.tk words [] [] halts opens) })
    (alone : t.bun = none) (room : ∀ i, fieldPost .c h.tk = some i → t.cx.tokens i < 15) :
    runCq h words op s = .next (s.shared .c h.tk words halts opens t) := by
  have same : ({ t with bun := none } : State) = t := by rw [← alone]
  have run := runCq_shared (c := t.cx) (c1 := t.cx) hi hop (fun b _ none => takeGets_none _ _ none) (postAll_fieldPosts room)
  exact run.trans (by rw [same])

end Sys2Proof.Machine
end

section

/-! PROOFS. What a release and an acquire do does not depend on the bundle of C that is open (04 R121, R127). -/

namespace Sys2Proof.Machine

variable {t : State} {bun : Option Bundle}

/-- The machine with a bundle open, or none. -/
def State.inBundle (s : State) (bun : Option Bundle) : State := { s with bun := bun }

theorem State.inBundle_mem (t : State) : (t.inBundle bun).mem = t.mem := rfl

theorem State.inBundle_tags (t : State) : (t.inBundle bun).tags = t.tags := rfl

theorem State.inBundle_memory (t : State) (m : Memory) (g : Tags) :
    { t.inBundle bun with mem := m, tags := g } = ({ t with mem := m, tags := g } : State).inBundle bun := rfl

theorem State.inBundle_withMem (t : State) (m : Memory) : { t.inBundle bun with mem := m } = ({ t with mem := m } : State).inBundle bun := rfl

theorem State.inBundle_ite {p : Prop} [Decidable p] (a b : State) :
    (if p then a else b).inBundle bun = if p then a.inBundle bun else b.inBundle bun := by
  split <;> rfl

theorem markDirty_inBundle (t : State) (l k : Nat) : markDirty (t.inBundle bun) l k = (markDirty t l k).inBundle bun := by
  have launch : (t.inBundle bun).launch? l = t.launch? l := rfl
  unfold markDirty
  dsimp only
  rw [launch]
  rw [State.inBundle_ite]
  cases t.launch? l <;> rfl

/-- The page that the oldest waiting shadow write goes to, copied where it is the first to one that is open (04 R127). -/
def FirstWrite.page (f : FirstWrite) (s : State) : State :=
  let t : Tr := ⟨f.entry, readEntry s.mem f.entry, 4⟩
  if t.shst = 1 then
    let s := copyPage (markDirty s f.launch (t.shadow 0)) (t.visible 0) (t.shadow 0)
    { s with mem := setShadowState s.mem f.entry 2 false }
  else dropPage (t.shadow 0) s

/-- A waiting shadow write is performed (04 R127). -/
def FirstWrite.perform (f : FirstWrite) (s : State) : State :=
  let a := Tr.shadow ⟨f.entry, readEntry s.mem f.entry, 4⟩ 0 + f.off
  let s := markDirty (f.page s) f.launch a
  { s with mem := s.mem.mergeN a f.mask f.data }

theorem firstWrite_nil (empty : t.firstWrites = []) : firstWrite t = t := by
  unfold firstWrite
  rw [empty]

theorem firstWrite_cons {f : FirstWrite} {rest : List FirstWrite} (waits : t.firstWrites = f :: rest) :
    firstWrite t = f.perform { t with firstWrites := rest } := by
  unfold firstWrite
  rw [waits]
  rfl

theorem dropPage_inBundle (n : Nat) (t : State) : dropPage n (t.inBundle bun) = (dropPage n t).inBundle bun := rfl

theorem copyPage_inBundle (t : State) (src dst : Nat) : copyPage (t.inBundle bun) src dst = (copyPage t src dst).inBundle bun := by
  unfold copyPage
  dsimp only
  rw [dropPage_inBundle, dropPage_inBundle, State.inBundle_mem, State.inBundle_tags]
  exact State.inBundle_memory ..

theorem FirstWrite.page_inBundle (f : FirstWrite) (t : State) : f.page (t.inBundle bun) = (f.page t).inBundle bun := by
  unfold FirstWrite.page
  dsimp only
  rw [State.inBundle_mem, markDirty_inBundle, copyPage_inBundle, dropPage_inBundle, State.inBundle_mem, State.inBundle_ite]
  exact ite_congr rfl (fun _ => State.inBundle_withMem ..) fun _ => rfl

theorem FirstWrite.perform_inBundle (f : FirstWrite) (t : State) : f.perform (t.inBundle bun) = (f.perform t).inBundle bun := by
  unfold FirstWrite.perform
  dsimp only
  rw [f.page_inBundle, State.inBundle_mem, markDirty_inBundle, State.inBundle_mem]
  exact State.inBundle_withMem ..

theorem firstWrite_inBundle (t : State) : firstWrite (t.inBundle bun) = (firstWrite t).inBundle bun := by
  cases waits : t.firstWrites with
  | nil => rw [firstWrite_nil waits, firstWrite_nil (t := t.inBundle bun) waits]
  | cons f rest =>
    rw [firstWrite_cons waits, firstWrite_cons (t := t.inBundle bun) waits, ← f.perform_inBundle]
    rfl

theorem settleWrites_inBundle (t : State) : settleWrites (t.inBundle bun) = (settleWrites t).inBundle bun := by
  have fold (ns : List Nat) (t : State) :
      ns.foldl (fun s _ => firstWrite s) (t.inBundle bun) = (ns.foldl (fun s _ => firstWrite s) t).inBundle bun := by
    induction ns generalizing t with
    | nil => rfl
    | cons n ns ih => rw [List.foldl_cons, List.foldl_cons, firstWrite_inBundle, ih]
  exact fold _ t

theorem State.released_inBundle (n : Nat) (t : State) : (t.inBundle bun).released n = (t.released n).inBundle bun := by
  unfold State.released
  dsimp only
  rw [settleWrites_inBundle]
  rw [State.inBundle_ite]
  rfl

theorem State.acquired_inBundle (n : Nat) (t : State) : (t.inBundle bun).acquired n = (t.acquired n).inBundle bun := by
  unfold State.acquired
  split
  · rfl
  · split <;> rfl

theorem State.fenced_inBundle (q : SeqId) (c : BitVec 3) (o : BitVec 2) (t : State) :
    (t.inBundle bun).fenced q c o = (t.fenced q c o).inBundle bun := by
  unfold State.fenced
  rw [State.released_inBundle, ← State.acquired_inBundle]
  rw [State.inBundle_ite]
  rfl

end Sys2Proof.Machine
end

section

/-! PROOFS. The shared instructions as bundles of their own on C, and on every sequencer (06 R172 to R182). -/

namespace Sys2Proof.Machine

variable {s t : State} {q : SeqId} {h : Hd} {words : Nat} {op : M Unit} {keeps : Bool} {b : Bundle}

theorem runShared_lone (hi : s.IssuesShared .c h) : runShared h words op s keeps = runCq h words op s := if_pos hi.focus

theorem raiseBank_none (clear : t.operands.deferred = []) : raiseBank t = .ok () t := by
  unfold raiseBank
  rw [get_run, clear]
  rfl

theorem State.inBundle_operands (t : State) (b : Bundle) : (t.inBundle (some b)).operands = b.old := rfl

theorem haltOp_lone (cur : t.cur = .c) (unplanned : t.unplanned) (clear : t.operands.deferred = []) :
    haltOp t = modBun (fun b => { b with halts := some b.off }) t := by
  unfold haltOp
  rw [get_run, cur]
  exact (congrFun (if_neg (by rw [unplanned]; decide)) t).trans (bind_ok (raiseBank_none clear))

/-- The transfer that a word opens in a bundle of C (06 R179). -/
theorem openDelay_lone (cur : t.cur = .c) (b : Bundle) (j : BitVec 2) (taken : Bool) :
    openDelay j taken (t.inBundle (some b)) = .ok () (t.inBundle (some { b with xfer := some ((b.old.seq .c).delay j taken 1) })) := by
  unfold openDelay
  rw [get_run]
  refine (congrFun (if_pos cur) _).trans ?_
  rw [State.inBundle_operands, show (t.inBundle (some b)).cur = .c from cur]
  rfl

theorem takeGets_one {p n off : Nat} (enough : n ≤ t.cx.tokens p) (b : Bundle) (all : b.short = false) (gets : b.gets = [(p, n, off)]) :
    takeGets { t with bun := some b } b = ({ t with cx := t.cx.setTokens p (t.cx.tokens p - n), bun := some b }, b) := by
  unfold takeGets
  rw [all, gets]
  exact if_neg (Nat.not_lt.2 enough)

theorem State.started_closed (alone : s.bun = none) (c : Ctx) :
    ({ s.started q h.tk with cx := c, bun := none } : State) = { s.started q h.tk with cx := c } := by
  rw [← alone]
  rfl

section
variable (hi : s.IssuesShared .c h)
include hi

theorem exec_nop_lone : exec (.nop h) s = .next (s.shared .c h.tk 1 false none (s.started .c h.tk)) :=
  (if_pos hi.focus).trans (runCq_plain hi (op := pure ()) rfl hi.alone fun _ hp => hi.room_started hp)

theorem exec_halt_lone (clear : s.cx.deferred = []) (unplanned : s.unplanned) :
    exec (.halt h) s = .next (s.shared .c h.tk 1 true none (s.started .c h.tk)) :=
  (runShared_lone hi).trans (runCq_plain hi (op := haltOp)
    (haltOp_lone (t := s.opened h.tk 1) hi.focus (unplanned.started .c h.tk) clear) hi.alone fun _ hp => hi.room_started hp)

theorem exec_fence_lone (c : BitVec 3) (o : BitVec 2) : exec (.fence h c o) s = .next (s.shared .c h.tk 1 false none
    { (s.started .c h.tk).fenced .c c o with
      cx := ((s.started .c h.tk).fenced .c c o).cx.updSeq .c (fun st => { st with fetched := [] }) }) := by
  have kept := (s.started .c h.tk).kept_fenced .c c o
  refine (runShared_lone hi).trans (runCq_plain hi (op := fenceOp c o) ?_ ?_ fun i hp => ?_)
  · refine (fenceOp_run (t := s.opened h.tk 1) hi.focus c o).trans ?_
    rw [show s.opened h.tk 1 = (s.started .c h.tk).inBundle _ from rfl, State.fenced_inBundle]
    rfl
  · exact (congrArg (fun u : State => u.bun) kept).trans hi.alone
  · have room := hi.room_started hp
    unfold Ctx.tokens at *
    dsimp only
    rw [Ctx.updSeq_tok, (State.stands_of_kept kept .c).tok]
    exact room

theorem exec_tkpost_lone (f : BitVec 2) (n : BitVec 4) (fits : (s.started .c h.tk).cx.tokens (postQueue .c f.toNat) + n.toNat ≤ 15)
    (room : ∀ i, fieldPost .c h.tk = some i → ((s.started .c h.tk).cx.setTokens (postQueue .c f.toNat)
      ((s.started .c h.tk).cx.tokens (postQueue .c f.toNat) + n.toNat)).tokens i < 15) :
    exec (.tkpost h f n) s = .next (s.shared .c h.tk 1 false none { s.started .c h.tk with
      cx := (s.started .c h.tk).cx.setTokens (postQueue .c f.toNat) ((s.started .c h.tk).cx.tokens (postQueue .c f.toNat) + n.toNat) }) := by
  rw [← State.started_closed hi.alone]
  refine (runShared_lone hi).trans (runCq_shared (t := s.started .c h.tk) (c1 := (s.started .c h.tk).cx) (gets := [])
    (posts := [(postQueue .c f.toNat, n.toNat, 0)]) hi ?_ (fun b _ gets => takeGets_none _ b gets)
    ((if_neg (Nat.not_lt.2 fits)).trans (postAll_fieldPosts room)))
  rw [get_run]
  refine (congrFun (if_pos hi.focus) _).trans ?_
  rw [show (s.opened h.tk 1).cur = .c from hi.focus]
  rfl

theorem exec_tkwait_lone (f : BitVec 2) (n : BitVec 4) (enough : n.toNat ≤ (s.started .c h.tk).cx.tokens (waitQueue .c f.toNat)) :
    exec (.tkwait h f n) s = .next (s.shared .c h.tk 1 false none { s.started .c h.tk with
      cx := (s.started .c h.tk).cx.setTokens (waitQueue .c f.toNat) ((s.started .c h.tk).cx.tokens (waitQueue .c f.toNat) - n.toNat) }) := by
  rw [← State.started_closed hi.alone]
  refine (runShared_lone hi).trans (runCq_shared (t := s.started .c h.tk) (gets := [(waitQueue .c f.toNat, n.toNat, 0)]) (posts := []) hi ?_
    (takeGets_one enough) (postAll_fieldPosts fun i hp => (Ctx.tokens_removed ..).trans_lt (hi.room_started hp)))
  rw [get_run]
  refine (congrFun (if_pos hi.focus) _).trans ?_
  rw [show (s.opened h.tk 1).cur = .c from hi.focus]
  rfl

theorem exec_pbt_lone (j : BitVec 2) (m : BitVec 1) (b : BitVec 5) (imm : BitVec 32) :
    exec (.pbt h j m b imm) s = .next (s.shared .c h.tk 2 false none { s.started .c h.tk with
      cx := (s.started .c h.tk).cx.updSeq .c (fun st => { st with
        j := st.j.set j ((if m = 0 then (s.cx.seq .c).pc else s.cx.rReg .c b) + imm.signExtend 64) }) }) := by
  refine (runShared_lone hi).trans (runCq_plain hi ?_ hi.alone fun i hp => ?_)
  · have focus : (s.opened h.tk 2).cur = .c := hi.focus
    have pc : (s.opened h.tk 2).wordPc = (s.cx.seq .c).pc := by
      unfold State.wordPc
      rw [focus]
      exact (BitVec.add_zero _).trans (congrArg SeqState.pc (s.started_seq ..))
    rw [get_run, pc, focus]
    exact modSeq_run_at focus _
  · unfold Ctx.tokens
    dsimp only
    rw [Ctx.updSeq_tok]
    exact hi.room_started hp

theorem exec_brx_lone (outside : (s.cx.seq .c).pend = none) (j : BitVec 2) :
    exec (.brx h j) s = .next (s.shared .c h.tk 1 false (some ((s.cx.seq .c).delay j true 1)) (s.started .c h.tk)) :=
  (runTransfer_outside hi outside).trans ((runShared_lone hi).trans (runCq_plain hi
    (openDelay_lone (t := s.started .c h.tk) hi.focus _ j true) hi.alone fun _ hp => hi.room_started hp))

theorem exec_brxd_lone (outside : (s.cx.seq .c).pend = none) (j : BitVec 2) (b : BitVec 5) :
    exec (.brxd h j b) s = .next (s.shared .c h.tk 1 false
      (some ((s.cx.seq .c).delay j (((s.started .c h.tk).cx.wReg .c b (s.cx.rReg .c b - 1)).rReg .c b != 0) 1))
      { s.started .c h.tk with cx := (s.started .c h.tk).cx.wReg .c b (s.cx.rReg .c b - 1) }) := by
  have value : (s.cx.wReg .c b (s.cx.rReg .c b - 1)).rReg .c b = ((s.started .c h.tk).cx.wReg .c b (s.cx.rReg .c b - 1)).rReg .c b := by
    have same : (s.started .c h.tk).cx.ra (b.setWidth 4) = s.cx.ra (b.setWidth 4) := s.started_rReg .c .c h.tk b
    unfold Ctx.wReg Ctx.rReg
    rw [Ctx.ra_wa, Ctx.ra_wa, same]
  rw [← value]
  refine (runTransfer_outside hi outside).trans ((runShared_lone hi).trans (runCq_plain hi ?_ hi.alone fun i hp => ?_))
  · exact (brxdOp_run (t := s.opened h.tk 1) hi.focus j b).trans (openDelay_lone
      (t := { s.started .c h.tk with cx := (s.started .c h.tk).cx.wReg .c b (s.cx.rReg .c b - 1) }) hi.focus _ j _)
  · unfold Ctx.tokens
    dsimp only
    rw [Ctx.wReg_tok]
    exact hi.room_started hp

end

/-- Settles O8: on C each word is a bundle of its own, and on L, S and K it runs alone. -/
theorem sharedInstructionsComplete : Obligations.SharedInstructionsComplete := by
  unfold Obligations.SharedInstructionsComplete
  intro s q h hi
  have bcast : (s.started q h.tk).cx.onBcast = s.cx.onBcast := by simp [State.started, Ctx.onBcast]
  have fences (c : BitVec 3) (o : BitVec 2) : (s.started q h.tk).fenced q c o = State.acquired c.toNat
      (if o = 1 ∨ (q = .c ∧ s.cx.onBcast = false) then s.started q h.tk else (s.started q h.tk).released c.toNat) := by
    unfold State.fenced
    rw [bcast]
  dsimp only
  simp only [← fences]
  by_cases lone : q = .c
  · subst lone
    exact ⟨exec_nop_lone hi, fun quiet _ => have ⟨clear, unplanned⟩ := quiet rfl; exec_halt_lone hi clear unplanned,
      exec_fence_lone hi, exec_tkpost_lone hi, exec_tkwait_lone hi,
      exec_pbt_lone hi, fun j b outside => ⟨exec_brx_lone hi outside j, exec_brxd_lone hi outside j b⟩⟩
  · simp only [if_neg lone]
    exact ⟨exec_nop_other hi lone, fun _ => exec_halt_other hi lone, exec_fence_other hi lone, exec_tkpost_other hi lone, exec_tkwait_other hi lone,
      exec_pbt_other hi lone, fun j b outside => ⟨exec_brx_other hi lone outside j, exec_brxd_other hi lone outside j b⟩⟩

end Sys2Proof.Machine
end

section

/-! PROOFS. Scalar arithmetic and CMP of L and S (07 R204 to R206; 09 R260). -/

namespace Sys2Proof.Machine

variable {m : SeqSel} {w words : Nat} {s : State} {q : SeqId} {h : Hq} {v : DWord}

/-- Opcode 0x10 of L and S has ten functions (07 R204). -/
theorem decL10_past (past : 10 ≤ bits w 13 7) (i : Instr) : decL10 w ≠ .ok i := by
  have unfit {k : Nat} (low : k < 10) : fits w 7 7 k = false := Bool.eq_false_iff.2 fun fit => by
    rw [fits_iff] at fit
    simp only [bits] at past
    omega
  unfold decL10
  simp [unfit]

/-- Opcode 0x12 is MOVI, whose other fields are 0 (07 R205). -/
theorem decL12_reserved (reserved : bits w 21 18 ≠ 0 ∨ bits w 17 14 ≠ 0 ∨ bits w 13 7 ≠ 0) (i : Instr) : decL12 w ≠ .ok i := by
  unfold decL12
  split
  · rename_i fit
    simp only [Bool.and_eq_true, fits_iff] at fit
    simp only [bits] at reserved
    omega
  · exact nofun

theorem rejects_illegalArithmeticOfLS (hm : m = .l ∨ m = .s) (bad : illegalArithmeticOfLS w) (i : Instr) (hi : rawDecode m w = .ok i) :
    i.fieldsOk m = false := by
  rcases hm with rfl | rfl
  · unfold rawDecode rawDecodeL at hi
    rcases bad with ⟨op, past⟩ | ⟨op, reserved⟩ <;> simp only [opcode_of_bits op] at hi
    · exact absurd hi (decL10_past past i)
    · exact absurd hi (decL12_reserved reserved i)
  · unfold rawDecode rawDecodeS at hi
    rcases bad with ⟨op, past⟩ | ⟨op, reserved⟩ <;> simp only [opcode_of_bits op] at hi
    · exact absurd hi (decL10_past past i)
    · exact absurd hi (decL12_reserved reserved i)

/-! ## The words -/

/-- A register of the sequencer in focus, its token taken, as it was before. -/
theorem State.started_ryz (focus : s.cur = q) (tk : BitVec 3) (i : BitVec 4) : (s.started q tk).ryz i = s.cx.rLS q i := by
  unfold State.ryz Ctx.rLS
  rw [State.started_cur, focus]
  simp [State.started]

/-- A word of L or S that writes a register. -/
theorem runLS_setYz {op : M Unit} {d : BitVec 4} (hq : q = .l ∨ q = .s) (issues : s.Issues q h.qp h.tk)
    (hop : op (s.started q h.tk) = setYz d v (s.started q h.tk)) :
    runLS h words op s = .next (s.does q h.tk words (fun t => { t with cx := t.cx.wLS q d v })) := by
  have focus := issues.focus
  subst focus
  exact runLS_does hq issues (Ctx.leavesShell_wLS s.cur d v) (hop.trans (setYz_run ..))

/-- A register form writes its value of the registers before it. -/
theorem runLS_aluY {f : DWord → DWord → DWord} {a b : BitVec 4} (hq : q = .l ∨ q = .s) (issues : s.Issues q h.qp h.tk) (d : BitVec 4)
    (hv : f (s.cx.rLS q a) (s.cx.rLS q b) = v) :
    runLS h 1 (aluY f d a b) s = .next (s.does q h.tk 1 (fun t => { t with cx := t.cx.wLS q d v })) := by
  refine runLS_setYz hq issues ?_
  unfold aluY
  rw [get_run, State.started_ryz issues.focus, State.started_ryz issues.focus, hv]

/-- Every arithmetic instruction of L and S is a register form, ADDI or MOVI. -/
theorem exec_arithmeticOfLS {i : Instr} {r : ScalarRow 4 DWord} (hq : q = .l ∨ q = .s) (row : arithmeticOfLS i (s.cx.rLS q) = some r)
    (issues : s.Issues q r.h.qp r.h.tk) :
    exec i s = .next (s.does q r.h.tk r.words (fun t => { t with cx := t.cx.wLS q r.dest r.value })) := by
  cases i
  case yShl => cases row; exact runLS_aluY hq issues _ (aluShl_eq ..)
  case yShr => cases row; exact runLS_aluY hq issues _ (aluShr_eq ..)
  case ySra => cases row; exact runLS_aluY hq issues _ (aluSra_eq ..)
  case yMin => cases row; exact runLS_aluY hq issues _ (aluMin_eq ..)
  case yMax => cases row; exact runLS_aluY hq issues _ (aluMax_eq ..)
  case yAdd | ySub | yAnd | yOr | yXor => cases row; exact runLS_aluY hq issues _ rfl
  case yAddi => cases row; exact runLS_setYz hq issues (by rw [get_run, State.started_ryz issues.focus])
  case yMovi => cases row; exact runLS_setYz hq issues rfl
  all_goals cases row

theorem exec_yCmp {d : BitVec 3} {a b : BitVec 4} {c : BitVec 3} {v : Bool} (hq : q = .l ∨ q = .s)
    (truth : v = true ↔ holdsOf c.toNat (s.cx.rLS q a) (s.cx.rLS q b)) (issues : s.Issues q h.qp h.tk) :
    exec (.yCmp h d a b c) s = .next (s.does q h.tk 1 (fun t => { t with cx := t.cx.updSeq q (fun st => st.wq d v) })) := by
  have value : condition c.toNat (s.cx.rLS q a) (s.cx.rLS q b) = v := Bool.eq_iff_iff.2 ((condition_iff ..).trans truth.symm)
  refine runLS_does hq issues (Ctx.leavesShell_wq q d v) ?_
  rw [get_run, State.started_ryz issues.focus, State.started_ryz issues.focus, value]
  exact setQ_run (s := s.started q h.tk) issues.focus

/-- Settles O15: each word is a register form, an immediate form or CMP, and its opcodes have no other fields. -/
theorem arithmeticOfLAndSWritesItsValue : Obligations.ArithmeticOfLAndSWritesItsValue := by
  unfold Obligations.ArithmeticOfLAndSWritesItsValue
  exact ⟨FaultsOn.of_rejected fun w => rejects_illegalArithmeticOfLS (.inl rfl),
    FaultsOn.of_rejected fun w => rejects_illegalArithmeticOfLS (.inr rfl),
    fun s q hq => ⟨fun i r row issues => exec_arithmeticOfLS hq row issues, fun h d a b c v truth issues => exec_yCmp hq truth issues⟩⟩

end Sys2Proof.Machine
end

section

/-! PROOFS. SSET and SBIND (07 R211, R212; 09 R261). -/

namespace Sys2Proof.Machine

variable {s : State} {q : SeqId} {h : Hq} {st n : BitVec 4} {b : BitVec 6} {epi bk : BitVec 1} {imm : BitVec 32} {t : Stream}

/-- A stream register written. -/
def State.withStream (s : State) (st : BitVec 4) (t : Stream) : State := { s with cx := s.cx.setStream st t }

theorem Ctx.leavesShell_setStream (st : BitVec 4) (t : Stream) : Ctx.LeavesShell (fun c => c.setStream st t) :=
  ⟨fun _ => rfl, fun _ => rfl, fun _ q => by cases q <;> rfl⟩

theorem Ctx.setStream_setStream (c : Ctx) (st : BitVec 4) (t u : Stream) : (c.setStream st t).setStream st u = c.setStream st u := by
  unfold Ctx.setStream
  dsimp only
  rw [Vector.set_set]

/-- A stream register written twice holds what is written last. -/
theorem modCx_setStream_twice (t u : Stream) (s : State) :
    (modCx (fun c => c.setStream st t) >>= fun _ => modCx (fun c => c.setStream st u)) s = modCx (fun c => c.setStream st u) s := by
  rw [modCx_bind]
  exact congrArg (fun c => EStateM.Result.ok () { s with cx := c }) (s.cx.setStream_setStream st t u)

@[simp] theorem State.started_stream (s : State) (q : SeqId) (tk : BitVec 3) (st : BitVec 4) :
    (s.started q tk).cx.stream st = s.cx.stream st := by
  simp [State.started, Ctx.stream]

@[simp] theorem State.started_streamBusy (s : State) (q : SeqId) (tk : BitVec 3) (st : BitVec 4) :
    (s.started q tk).cx.streamBusy st = s.cx.streamBusy st := by
  simp [State.started, Ctx.streamBusy, Ctx.epiBusy]

/-- What a fault would name changes nothing where there is none. -/
theorem withTrap_ok {α : Type} {f : Trap → Trap} {m : M α} {a : α} {u : State} (run : m s = .ok a u) : withTrap f m s = .ok a u := by
  unfold withTrap
  rw [run]

/-- A word of L or S that writes a stream register. -/
theorem runLS_setStream {op : M Unit} {words : Nat} {f : Trap → Trap} (hq : q = .l ∨ q = .s) (issues : s.Issues q h.qp h.tk)
    (hop : op (s.started q h.tk) = modCx (fun c => c.setStream st t) (s.started q h.tk)) :
    runLS h words (withTrap f op) s = .next (s.does q h.tk words (·.withStream st t)) :=
  runLS_does hq issues (Ctx.leavesShell_setStream st t) (withTrap_ok (hop.trans (modCx_run ..)))

section
variable (hq : q = .l ∨ q = .s) (issues : s.Issues q h.qp h.tk) (idle : s.cx.streamBusy st = false)
include hq issues idle

theorem exec_sset_field {f : BitVec 5} (field : f ≠ 12) : exec (.sset h st n f imm) s = .next (s.does q h.tk 2
    (·.withStream st { (s.cx.stream st).setField f.toNat (s.cx.rLS q n + imm.signExtend 64) with bind := none, pages := [] })) := by
  refine runLS_setStream hq issues ?_
  rw [get_run, State.started_streamBusy, idle, State.started_stream, State.started_ryz issues.focus]
  exact congrFun (if_pos field) _

theorem exec_sset_pos (within : (s.cx.stream st).bind = none ∨ (s.cx.rLS q n + imm.signExtend 64).toNat ≤ (s.cx.stream st).total) :
    exec (.sset h st n 12 imm) s = .next (s.does q h.tk 2
      (·.withStream st ((s.cx.stream st).setField 12 (s.cx.rLS q n + imm.signExtend 64)))) := by
  refine runLS_setStream hq issues ?_
  rw [get_run, State.started_streamBusy, idle, State.started_stream, State.started_ryz issues.focus]
  refine (congrFun (if_neg Bool.false_ne_true) _).trans ((congrFun (if_neg (not_not.2 rfl)) _).trans (congrFun (if_neg ?_) _))
  rintro ⟨bound, past⟩
  rcases within with free | within
  · rw [free] at bound
    cases bound
  · omega

theorem exec_sbind (declared : bk = 1 → (s.cx.buf b).declared = true)
    (rows : bindCause (s.cx.stream st) (q == .s) (bk == 1) (epi == 1) (s.cx.buf b).len = none) :
    exec (.sbind h b st epi bk imm) s = .next (s.does q h.tk 2 (·.withStream st { (s.cx.stream st).setField 12 0 with
      bind := some ⟨q == .s, bk == 1, b, epi == 1⟩, bound := imm, pages := [] })) := by
  refine runLS_setStream hq issues ?_
  have there : ¬(bk = 1 ∧ (!(s.cx.buf b).declared) = true) := fun ⟨memory, missing⟩ => by rw [declared memory] at missing; cases missing
  rw [get_run, State.started_streamBusy, idle, State.started_stream, State.started_buf, State.started_cur, issues.focus]
  dsimp only
  rw [if_neg there, rows]
  exact modCx_setStream_twice ..
end

/-- Settles O30: each word writes its stream register. -/
theorem streamRegistersAreSetAndBound : Obligations.StreamRegistersAreSetAndBound := by
  unfold Obligations.StreamRegistersAreSetAndBound
  intro s q h st n f b epi bk imm hq issues idle t v put
  exact ⟨exec_sset_field hq issues idle, exec_sset_pos hq issues idle, exec_sbind hq issues idle⟩

end Sys2Proof.Machine
end

section

/-! PROOFS. What the transfers of L leave as it was: where the sequencer in focus stands, and the tile slots (01 R21, R27; 07 R210, R213). -/

namespace Sys2Proof.Machine

variable {α : Type} {P : State → Prop}

/-- What a transfer of L leaves as it was, whatever it reads and whether or not it goes on: the sequencer that has its turn, of its
context the name, the place, the tokens and the tile slots, and the transfers of control that its sequencers await. -/
structure Stance where
  cur : SeqId
  id : CtxId
  place : Place
  tok : Vector (BitVec 4) 12
  slots : Vector (Option Tile) (2 ^ 2)
  pend : SeqId → Option Pend

def State.stance (s : State) : Stance := ⟨s.cur, s.cx.id, s.cx.place, s.cx.tok, s.cx.slots, fun q => (s.cx.seq q).pend⟩

abbrev StanceAs (k : Stance) (s : State) : Prop := s.stance = k

variable {k : Stance}

theorem stance_of_ok {m : M α} {s t : State} {a : α} (h : Holds (StanceAs s.stance) m) (hm : m s = .ok a t) : t.stance = s.stance :=
  h.ok rfl hm

theorem State.stance_eq {s t : State} (cur : t.cur = s.cur) (id : t.cx.id = s.cx.id) (place : t.cx.place = s.cx.place)
    (tok : t.cx.tok = s.cx.tok) (slots : t.cx.slots = s.cx.slots) (pend : ∀ q, (t.cx.seq q).pend = (s.cx.seq q).pend) :
    t.stance = s.stance := by
  unfold State.stance
  rw [cur, id, place, tok, slots, funext pend]

/-! ## Changes of the state -/

theorem State.stance_still (s : State) : s.still.stance = s.stance := State.stance_eq rfl rfl rfl rfl rfl fun q => by cases q <;> rfl

theorem State.stance_of_still {s t : State} (h : t.still = s.still) : t.stance = s.stance := by
  rw [← t.stance_still, h, s.stance_still]

theorem Stills.stance {m : M α} (h : Stills m) : Holds (StanceAs k) m := fun s hs => (State.stance_of_still (h s.still s rfl)).trans hs

theorem Keeps.stance {m : M α} (h : Keeps m) : Holds (StanceAs k) m := h.stills.stance

theorem modify_stance {f : State → State} (h : ∀ s, (f s).stance = s.stance) : Holds (StanceAs k) (modify f : M Unit) :=
  Holds.modify fun s hs => (h s).trans hs

theorem State.stance_updSeq (s : State) (q : SeqId) {f : SeqState → SeqState} (hf : ∀ x, (f x).pend = x.pend) :
    ({ s with cx := s.cx.updSeq q f } : State).stance = s.stance := by
  refine State.stance_eq rfl (s.cx.updSeq_id q f) (s.cx.updSeq_place q f) (s.cx.updSeq_tok q f) (s.cx.updSeq_slots q f) fun r => ?_
  by_cases same : r = q
  · rw [same, Ctx.updSeq_seq, hf]
  · rw [Ctx.updSeq_seq_ne _ same]

theorem noteToward_stance (ag : Agent) (ds : List Nat) (s : State) : (noteToward ag ds s).stance = s.stance := by
  unfold noteToward
  split
  · exact State.stance_eq rfl rfl rfl rfl rfl fun q => by cases q <;> rfl
  · exact s.stance_updSeq _ fun _ => rfl

theorem beginFlight_stance (st : BitVec 4) (drain : Option (Nat × Nat)) (s : State) : (beginFlight st drain s).stance = s.stance :=
  s.stance_updSeq _ fun x => by split <;> rfl

theorem rename_stance (f : Nat × Nat × DWord → Nat × Nat × DWord) (s : State) :
    ({ s with cx := s.cx.updSeq s.cur (·.rename f) } : State).stance = s.stance := s.stance_updSeq _ fun _ => rfl

theorem undone_stance (s t : State) : (undone s t).stance = s.stance := rfl

theorem inFlight_stance (st : BitVec 4) (s t : State) : (inFlight st s t).stance = s.stance :=
  (beginFlight_stance ..).trans ((undone s t).stance_updSeq s.cur fun _ => rfl)

theorem State.stance_atPos (s : State) (st : BitVec 4) (v : Nat) : (s.atPos st v).stance = s.stance :=
  State.stance_eq rfl rfl rfl rfl rfl fun q => by cases q <;> rfl

theorem State.stance_gives (s : State) (n : BitVec 4) (img : Image) : (s.gives n img).stance = s.stance := by
  unfold State.gives Ctx.setLq
  split
  · exact State.stance_eq rfl rfl rfl rfl rfl fun q => by cases q <;> rfl
  · rfl

/-! ## Operations around an access -/

theorem reading_stance {ag : Agent} {pol : Nat} {places : List (DWord × Nat)} {op : M α} (hop : Holds (StanceAs k) op) :
    Holds (StanceAs k) (reading ag pol places op) := by
  refine Holds.shell hop (fun s a t _ ht e => ?_) fun s x t _ ht e => ?_
  · simpa only [endOf, reading, e] using ht
  · cases x with
    | wait a => simpa only [endOf, reading, e] using (noteToward_stance ..).trans ht
    | trap a => simpa only [endOf, reading, e] using ht

theorem naming_stance {ag : Agent} {st : BitVec 4} {f : Nat × Nat × DWord → Nat × Nat × DWord} {op : M α} (hop : Holds (StanceAs k) op) :
    Holds (StanceAs k) (naming ag st f op) := by
  refine Holds.shell hop (fun s a t _ ht e => ?_) fun s x t _ ht e => ?_
  · simpa only [endOf, naming, e] using ht
  · cases x with
    | wait a =>
      by_cases waits : ag.srce = 0 ∨ ag.srce = 2
      · simpa only [endOf, naming, e, if_pos waits] using (rename_stance ..).trans ((beginFlight_stance ..).trans ht)
      · simpa only [endOf, naming, e, if_neg waits] using ht
    | trap a => simpa only [endOf, naming, e] using ht

theorem transferAt_stance {f : Stream → Nat} {st : BitVec 4} {op : M Unit} (hop : Holds (StanceAs k) op) :
    Holds (StanceAs k) (transferAt f st op) := by
  refine Holds.shell hop (fun s a t _ ht e => ?_) fun s x t hs _ e => ?_
  · simpa only [endOf, transferAt, e] using (beginFlight_stance ..).trans ht
  · cases x with
    | wait a =>
      simp only [endOf, transferAt, e]
      split
      · exact (inFlight_stance ..).trans hs
      · exact (rename_stance ..).trans ((inFlight_stance ..).trans hs)
    | trap a => simpa only [endOf, transferAt, e] using (undone_stance s t).trans hs

theorem elemOp_stance {ag : Agent} {st : BitVec 4} {n e : Nat} {op : M α} (hop : Holds (StanceAs k) op) :
    Holds (StanceAs k) (elemOp ag st n e op) := naming_stance (Holds.withTrap hop)

theorem replayable_holds : Holds P replayable := Holds.get fun _ _ => Holds.ite (fun _ => Holds.fault _) fun _ => Holds.pure _

theorem boundFor_holds {st : BitVec 4} {write : Bool} : Holds P (boundFor st write) := by
  unfold boundFor
  refine Holds.get fun _ _ => ?_
  dsimp only
  split
  · exact Holds.fault _
  · exact Holds.ite (fun _ => Holds.pure _) fun _ => Holds.fault _

theorem rowFour_holds {b : Binding} : Holds P (rowFour b) := Holds.get fun _ _ => Holds.ite (fun _ => bufCheck_holds) fun _ => Holds.pure _

theorem rangeCheck_holds {st : BitVec 4} {n : Nat} {e : Int} : Holds P (rangeCheck st n e) :=
  Holds.ite (fun _ => Holds.withTrap (Holds.fault _)) fun _ => Holds.pure _

theorem bufRange_holds {t : Stream} {b : Binding} {off n acc : Nat} : Holds P (bufRange t b off n acc) :=
  Holds.get fun _ _ => Holds.ite (fun _ => Holds.throw _) fun _ => Holds.pure _

theorem replayableRead_holds {va : DWord} {n : Nat} : Holds P (replayableRead va n) :=
  Holds.get fun _ _ => Holds.ite (fun _ => Holds.faultAt _ _) fun _ => Holds.pure _

theorem awaitReply_stance {ag : Agent} {pol : Nat} {a : Acc} {segs : List Seg} : Holds (StanceAs k) (awaitReply ag pol a segs) :=
  Holds.get fun _ _ => Holds.ite (fun _ => Holds.pure _) fun _ =>
    Holds.bind (modify_stance fun s => noteToward_stance ag _ s) fun _ => Holds.waitFor _

/-! ## Reads of a stream -/

theorem spadTouch_stills {me : CtxId} {own acc : Nat} {g : Seg} : Stills (spadTouch me own acc g) := fun k =>
  Holds.bind (spadEach_stills (fun _ _ => bufAccess_stills) k) fun _ => Holds.ite (fun _ => spadFill_stills k) fun _ => Holds.pure _

variable {ag : Agent} {own : Nat} {st : BitVec 4} {t : Stream} {b : Binding}

theorem streamMem_stance {va : DWord} {n : Nat} : Holds (StanceAs k) (streamMem ag own st t va n) :=
  Holds.bind replayableRead_holds fun _ => Holds.bind windowCheck_holds fun _ => Holds.bind (pages_keeps _ _ _ _).stance fun _ =>
    Holds.bind (Holds.eachM fun _ => spadCheck_holds) fun _ => Holds.bind (homeCheck_keeps _ _).stance fun _ =>
    Holds.bind (Holds.eachM fun _ => (tagCheck_keeps _ _).stance) fun _ => Holds.bind (watchCheck_keeps _ _ _ _).stance fun _ =>
    Holds.bind (naming_stance awaitReply_stance) fun _ => Holds.bind holdPages_stills.stance fun _ =>
    Holds.bind (Holds.eachM fun _ => spadTouch_stills.stance) fun _ => (readSegs_keeps _ _ _).stance

theorem streamBytes_stance {off n : Nat} : Holds (StanceAs k) (streamBytes ag own st t b off n) :=
  Holds.ite (fun _ => Holds.bind bufRange_holds fun _ => Holds.get fun _ _ => Holds.bind bufAccess_stills.stance fun _ => Holds.pure _)
    fun _ => streamMem_stance

theorem streamHeader_stance {e : Nat} : Holds (StanceAs k) (streamHeader ag own st t e) :=
  Holds.bind streamMem_stance fun _ => Holds.ite (fun _ => Holds.pure _) fun _ => Holds.faultAt _ _

theorem streamCode_stance {e : Nat} : Holds (StanceAs k) (streamCode ag own st t b e) :=
  Holds.ite (fun _ => Holds.bind (Holds.collectM fun _ => streamBytes_stance) fun _ => Holds.pure _) fun _ =>
    Holds.bind streamBytes_stance fun _ => Holds.pure _

theorem elemsFrom_stance {es : List (Nat × Int)} {hdr : Option (Nat × Nat)} : Holds (StanceAs k) (elemsFrom ag own st t b es hdr) := by
  induction es generalizing hdr with
  | nil => exact Holds.pure _
  | cons ke rest ih =>
    unfold elemsFrom
    refine Holds.bind rangeCheck_holds fun _ => Holds.bind (Holds.withTrap bufRange_holds) fun _ => Holds.bind (elemOp_stance ?_) fun _ =>
      Holds.bind (elemOp_stance streamCode_stance) fun _ => Holds.bind ih fun _ => Holds.pure _
    split
    · exact Holds.ite (fun _ => Holds.pure _) fun _ => Holds.ite (fun _ => streamHeader_stance) fun _ => Holds.pure _
    · exact Holds.ite (fun _ => streamHeader_stance) fun _ => Holds.pure _

theorem readElems_stance {es : List (Nat × Int)} : Holds (StanceAs k) (readElems ag own st t b es) := reading_stance elemsFrom_stance

theorem lastRead_stance {l : BitVec 1} : Holds (StanceAs k) (lastRead l b) :=
  Holds.get fun _ _ => Holds.ite (fun _ => bufAccess_stills.stance) fun _ => Holds.pure _

end Sys2Proof.Machine
end

section

/-! PROOFS. The shell of a transfer of L, and the checks that its rows pass (07 R203, R211, R213). -/

namespace Sys2Proof.Machine

variable {s t : State} {h : Hq} {words : Nat} {op : M Unit}

/-! ## The shell -/

/-- What the shell of a word finds after its effect, where the effect leaves it: the sequencer that has its turn, of the context its name
and its tokens, and the transfers of control that its sequencers await. -/
structure State.Footing (s t : State) : Prop where
  cur : t.cur = s.cur
  id : t.cx.id = s.cx.id
  tok : t.cx.tok = s.cx.tok
  pend : ∀ q, (t.cx.seq q).pend = (s.cx.seq q).pend

theorem State.Footing.of_stance (same : t.stance = s.stance) : s.Footing t where
  cur := congrArg Stance.cur same
  id := congrArg Stance.id same
  tok := congrArg Stance.tok same
  pend := congrFun (congrArg Stance.pend same)

theorem State.Footing.trans {u : State} (first : s.Footing t) (next : t.Footing u) : s.Footing u where
  cur := next.cur.trans first.cur
  id := next.id.trans first.id
  tok := next.tok.trans first.tok
  pend q := (next.pend q).trans (first.pend q)

/-- A word whose effect leaves the shell its footing completes. -/
theorem runWord_footing {q : SeqId} {qp tk : BitVec 3} (issues : s.Issues q qp tk) (run : op (s.started q tk) = .ok () t)
    (footing : (s.started q tk).Footing t) : runWord qp tk words op s = t.retired q tk words := by
  obtain ⟨cur, id, tok, pend⟩ := footing
  refine runWord_ok issues run (id.trans (State.started_id ..)) (cur.trans issues.focus) (fun i hp => ?_) ?_
  · unfold Ctx.tokens
    rw [tok]
    exact issues.room_taken hp
  · rw [pend, State.started_seq]
    cases (s.cx.seq q).pend
    · exact .inr rfl
    · exact .inl rfl

theorem runL_footing (issues : s.Issues .l h.qp h.tk) (run : op (s.started .l h.tk) = .ok () t) (footing : (s.started .l h.tk).Footing t) :
    runL h words op s = .next (t.retired .l h.tk words) := by
  unfold runL
  rw [if_pos issues.focus, runWord_footing issues run footing]

/-- A sequencer that moves past its words has no transfer in flight. -/
theorem SeqState.retire_grounded (x : SeqState) (f : Option Flight) (w n : Nat) (opened : Bool) :
    ({ x with flight := f, waited := w } : SeqState).retire n opened = x.retire n opened := by
  unfold SeqState.retire
  split
  · rfl
  · rfl

theorem beginFlight_retired {q : SeqId} (focus : t.cur = q) (st : BitVec 4) (tk : BitVec 3) (n : Nat) :
    (beginFlight st none t).retired q tk n = t.retired q tk n := by
  obtain ⟨f, w, begun⟩ := beginFlight_flown (st := st) none t
  have grounded : (fun x : SeqState => ({ x with flight := f, waited := w } : SeqState).retire n false) = fun x => x.retire n false :=
    funext fun x => x.retire_grounded f w n false
  rw [begun]
  unfold State.flown State.retired
  dsimp only
  rw [focus, Ctx.updSeq_postedBy, Ctx.updSeq_updSeq, grounded]

theorem transferAt_run {f : Stream → Nat} {st : BitVec 4} (run : op s = .ok () t) :
    transferAt f st op s = .ok () (beginFlight st none t) := by
  unfold transferAt
  dsimp only
  rw [run]

/-- A word of L whose effect is a transfer on a stream. -/
theorem runL_transferAt {f : Stream → Nat} {st : BitVec 4} (issues : s.Issues .l h.qp h.tk) (run : op (s.started .l h.tk) = .ok () t)
    (footing : (s.started .l h.tk).Footing t) : runL h words (transferAt f st op) s = .next (t.retired .l h.tk words) := by
  rw [runL_footing issues (transferAt_run run) (footing.trans (.of_stance (beginFlight_stance ..))),
    beginFlight_retired (footing.cur.trans issues.focus)]

/-! ## The rows -/

variable {st : BitVec 4} {str : Stream} {b : Binding} {β : Type}

theorem State.Bound.started {write : Bool} (bound : s.Bound st write str b) (q : SeqId) (tk : BitVec 3) :
    (s.started q tk).Bound st write str b := ⟨(State.started_stream ..).trans bound.reg, bound.bind, bound.dir⟩

theorem State.sideOpen.started (side : s.sideOpen b) (q : SeqId) (tk : BitVec 3) : (s.started q tk).sideOpen b := by
  unfold State.sideOpen at side ⊢
  rwa [State.started_buf]

theorem boundFor_bind {write : Bool} (bound : s.Bound st write str b) (g : Stream × Binding → M β) :
    (boundFor st write >>= g) s = g (str, b) s := by
  refine bind_ok ?_
  unfold boundFor
  rw [get_run, bound.reg, bound.bind]
  exact congrFun (if_pos bound.dir) s

theorem require_run {ok : Bool} {cause : Nat} (holds : ok = true) (s : State) : require ok cause s = .ok () s := by
  subst holds
  rfl

theorem notExhausted_run (more : str.pos < str.total) (s : State) : notExhausted str s = .ok () s := require_run (decide_eq_true more) s

theorem atPos_require_bind {ok : Bool} {cause : Nat} (holds : ok = true) (g : Unit → M β) :
    (atPos st str (require ok cause) >>= g) s = g () s :=
  bind_ok (withTrap_ok (require_run holds s))

/-- A buffer of the context in focus that allows an access passes its check. -/
theorem bufCheck_ok {i : BitVec 6} {agent acc : Nat} (declared : (s.cx.buf i).declared = true) (legal : (s.cx.buf i).legal agent acc = true) :
    bufCheck s.cx.id i agent acc s = .ok () s := by
  unfold bufCheck
  rw [get_run, State.ctx?_focus]
  simp [declared, legal]

theorem rowFour_run (side : s.sideOpen b) : rowFour b s = .ok () s := by
  unfold rowFour
  rw [get_run]
  split
  · exact bufCheck_ok (side ‹_›).1 (side ‹_›).2
  · rfl

theorem giveLq_bind {n : BitVec 4} (room : (s.cx.lqAt n.toNat).length < 2) (img : Image) (g : Unit → M β) :
    (giveLq n.toNat img >>= g) s = g () (s.gives n img) := by
  refine bind_ok ?_
  unfold giveLq
  rw [get_run, if_neg (Nat.not_le.2 room)]
  rfl

theorem setPos_bind (v : Nat) (g : Unit → M β) (s : State) : (setPos st v >>= g) s = g () (s.atPos st v) := rfl

end Sys2Proof.Machine
end

section

/-! PROOFS. LDS and LDG (07 R213 to R216). -/

namespace Sys2Proof.Machine

variable {s s1 s2 : State} {h : Hq} {st n : BitVec 4} {l : BitVec 1} {t : Stream} {b : Binding} {xs : List Element}

/-- The level tables of the context in focus are those before its token was taken. -/
@[simp] theorem State.started_lvt (s : State) (q : SeqId) (tk : BitVec 3) : (s.started q tk).cx.lvt = s.cx.lvt := Ctx.takenBy_lvt ..

theorem elemLevel_started (s : State) (q : SeqId) (tk : BitVec 3) (t : Stream) : elemLevel (s.started q tk).cx t = elemLevel s.cx t := by
  funext x
  unfold elemLevel
  rw [State.started_lvt]

theorem widen_started (s : State) (q : SeqId) (tk : BitVec 3) (t : Stream) : widen (s.started q tk).cx t = widen s.cx t := by
  funext x
  unfold widen
  rw [elemLevel_started]

theorem elemImage_started (s : State) (q : SeqId) (tk : BitVec 3) (t : Stream) (xs : List Element) :
    elemImage (s.started q tk).cx t xs = elemImage s.cx t xs := by
  unfold elemImage
  rw [widen_started]

/-- The image that LDG gives of the elements read for an entry of iq (07 R216). -/
def gatherImage (c : Ctx) (t : Stream) (ix : BitVec 2048) (xs : List Element) : Image :=
  let lanes := List.zip ((gatherRun t ix).map (·.1)) (xs.map (widen c t))
  imageOf ((List.range 1024).map (fun j => (look lanes j).getD 0))

theorem gatherImage_started (s : State) (q : SeqId) (tk : BitVec 3) (t : Stream) (ix : BitVec 2048) (xs : List Element) :
    gatherImage (s.started q tk).cx t ix xs = gatherImage s.cx t ix xs := by
  unfold gatherImage
  rw [widen_started]

/-- The entries that are left of iq. -/
def State.iqLeft (s : State) (rest : List (BitVec 2048)) : State := { s with cx := { s.cx with iq := rest } }

theorem State.stance_iqLeft (s : State) (rest : List (BitVec 2048)) : (s.iqLeft rest).stance = s.stance :=
  State.stance_eq rfl rfl rfl rfl rfl fun q => by cases q <;> rfl

section
variable (issues : s.Issues .l h.qp h.tk) (bound : s.Bound st false t b) (side : s.sideOpen b) (room : (s1.cx.lqAt n.toNat).length < 2)
include issues bound side room

theorem exec_lds {cnt : Nat} (count : cnt = min t.perImage (t.total - t.pos)) (format : t.fmt ≤ 7 ∨ t.fmt ≤ 9 ∧ t.raw = false)
    (more : t.pos < t.total) (read : readElems s.agent 0 st t b (t.run t.pos cnt) (s.started .l h.tk) = .ok xs s1)
    (last : lastRead l b ((s1.gives n (elemImage s.cx t xs)).atPos st (t.pos + cnt)) = .ok () s2) :
    exec (.lds h st n l) s = .next (s2.retired .l h.tk 1) := by
  have allowed : (decide (t.fmt ≤ 7) || (decide (t.fmt ≤ 9) && !t.raw)) = true := by simpa using format
  refine runL_transferAt issues ?_ (.of_stance ?_)
  · rw [boundFor_bind (bound.started ..)]
    dsimp only
    rw [require_bind allowed, bind_ok (notExhausted_run more _), bind_ok (rowFour_run (side.started _ _)), get_run,
      State.started_agent, ← count, bind_ok read, giveLq_bind room, setPos_bind, elemImage_started]
    exact last
  · exact (stance_of_ok lastRead_stance last).trans ((State.stance_atPos ..).trans ((State.stance_gives ..).trans
      (stance_of_ok readElems_stance read)))

theorem exec_ldg {ix : BitVec 2048} {rest : List (BitVec 2048)} (format : t.fmt ≤ 7) (cooked : t.raw = false) (entry : s.cx.iq = ix :: rest)
    (within : ∀ c, c < 64 → indexAt ix c < t.n1)
    (read : readElems s.agent 0 st t b ((gatherRun t ix).map (·.2)) (s.started .l h.tk) = .ok xs s1)
    (last : lastRead l b ((s1.gives n (gatherImage s.cx t ix xs)).iqLeft rest) = .ok () s2) :
    exec (.ldg h st n l) s = .next (s2.retired .l h.tk 1) := by
  rw [← gatherImage_started s .l h.tk] at last
  have allowed : (decide (t.fmt ≤ 7) && !t.raw) = true := by simp [format, cooked]
  have queue : (s.started .l h.tk).cx.iq = ix :: rest := (Ctx.takenBy_iq ..).trans entry
  have inside : (List.range 64).find? (fun c => decide (t.n1 ≤ indexAt ix c)) = none := by
    rw [List.find?_eq_none]
    intro c hc
    simpa using within c (List.mem_range.1 hc)
  refine runL_transferAt issues ?_ (.of_stance ?_)
  · rw [boundFor_bind (bound.started ..)]
    dsimp only
    rw [require_bind allowed, bind_ok (rowFour_run (side.started _ _)), get_run, queue]
    dsimp only
    rw [inside]
    dsimp only
    rw [State.started_agent, bind_ok read, giveLq_bind room]
    exact last
  · exact (stance_of_ok lastRead_stance last).trans ((State.stance_iqLeft ..).trans ((State.stance_gives ..).trans
      (stance_of_ok readElems_stance read)))
end

/-- Settles O32: each instruction reads its elements after its rows, gives their image, and completes the side of its stream. -/
theorem imageLoadsComplete : Obligations.ImageLoadsComplete := by
  unfold Obligations.ImageLoadsComplete
  intro s s1 s2 h st n l t b xs issues bound side room
  exact ⟨exec_lds issues bound side room rfl,
    fun ix rest format cooked entry within => exec_ldg issues bound side room format cooked entry within⟩

end Sys2Proof.Machine
end

section

/-! PROOFS. LDSO, LDTF and PREF (07 R217 to R219, R226). -/

namespace Sys2Proof.Machine

variable {s s1 s2 : State} {h : Hq} {st n : BitVec 4} {c l : BitVec 1} {t : Stream} {b : Binding} {tile : Tile}

/-! ## What a tile is made of does not depend on the token taken -/

theorem tileKey_started (s : State) (q : SeqId) (tk : BitVec 3) (t : Stream) (b : Binding) :
    tileKey (s.started q tk).cx t b = tileKey s.cx t b := by
  unfold tileKey
  simp [State.started]

theorem buildTile_started (s : State) (q : SeqId) (tk : BitVec 3) (t : Stream) (xs : List Element) :
    buildTile (s.started q tk).cx t xs = buildTile s.cx t xs := by
  unfold buildTile
  rw [elemLevel_started]

/-! ## A tile found or read, and staged -/

/-- A tile put into its slot once that is free, and POS moved past the slice (07 R218). -/
def stageTile (st n : BitVec 4) (l : BitVec 1) (t : Stream) (b : Binding) (tile : Tile) : M Unit := do
  let s ← get
  if (s.cx.slot (n.setWidth 2)).isSome then waitFor (.slot n.toNat)
  else do
    modCx (fun c => c.setSlot (n.setWidth 2) (some tile))
    setPos st (t.pos + t.n0 * t.n1)
    lastRead l b

/-- The tile cache after a tile of it has been used (07 R219). -/
def State.usesTile (s : State) (e : CachedTile) : State := { s with tiles := useTile e s.tiles }

/-- The tile cache after a tile has been read that LDSO keeps there where `c` is 1 (07 R219). -/
def State.keepsTile (s : State) (core : Nat × Nat) (c : BitVec 1) (key : List Nat) (tile : Tile) : State :=
  if c = 1 then s.usesTile ⟨core, key, tile⟩ else s

/-- LDSO after its checks: it stages the tile found in the cache, or the one that it reads (07 R218, R219). -/
def loadTile (u : State) (st n : BitVec 4) (c l : BitVec 1) (t : Stream) (b : Binding) : Option CachedTile → M Unit
  | some e => do
    modify (·.usesTile e)
    stageTile st n l t b e.tile
  | none => do
    rowFour b
    let xs ← readElems u.agent 0 st t b (t.run t.pos (t.n0 * t.n1))
    if c = 1 then modify (fun s => s.usesTile ⟨s.cx.core, tileKey u.cx t b, buildTile u.cx t xs⟩) else pure ()
    stageTile st n l t b (buildTile u.cx t xs)

theorem stageTile_ok (free : s.cx.slot (n.setWidth 2) = none)
    (last : lastRead l b ((s.withSlot (n.setWidth 2) tile).atPos st (t.pos + t.n0 * t.n1)) = .ok () s2) :
    stageTile st n l t b tile s = .ok () s2 := by
  unfold stageTile
  rw [get_run, free]
  exact last

theorem State.footing_withSlot (s : State) (i : BitVec 2) (tile : Tile) : s.Footing (s.withSlot i tile) :=
  ⟨rfl, rfl, rfl, fun q => by cases q <;> rfl⟩

theorem State.Footing.staged {i : BitVec 2} {v : Nat} (footing : s.Footing s1)
    (last : lastRead l b ((s1.withSlot i tile).atPos st v) = .ok () s2) : s.Footing s2 :=
  footing.trans ((s1.footing_withSlot i tile).trans (.of_stance ((stance_of_ok lastRead_stance last).trans (State.stance_atPos ..))))

theorem State.stance_keepsTile (s : State) (core : Nat × Nat) (c : BitVec 1) (key : List Nat) (tile : Tile) :
    (s.keepsTile core c key tile).stance = s.stance := by
  unfold State.keepsTile
  split <;> rfl

theorem Ctx.core_of_stance (same : s1.stance = s.stance) : s1.cx.core = s.cx.core := by
  have place : s1.cx.place = s.cx.place := congrArg Stance.place same
  unfold Ctx.core
  rw [place]

theorem slot_of_stance (same : s1.stance = s.stance) (i : BitVec 2) : s1.cx.slot i = s.cx.slot i := by
  have slots : s1.cx.slots = s.cx.slots := congrArg Stance.slots same
  unfold Ctx.slot
  rw [slots]

theorem slot_started (s : State) (q : SeqId) (tk : BitVec 3) (i : BitVec 2) : (s.started q tk).cx.slot i = s.cx.slot i := by
  simp [State.started, Ctx.slot]

/-- A tile that the cache does not give is read, kept where `c` says so, and staged. -/
theorem loadTile_miss {u : State} {core : Nat × Nat} {xs : List Element} (side : u.sideOpen b)
    (read : readElems s.agent 0 st t b (t.run t.pos (t.n0 * t.n1)) u = .ok xs s1) (own : s1.cx.core = core)
    (free : s1.cx.slot (n.setWidth 2) = none)
    (last : lastRead l b (((s1.keepsTile core c (tileKey s.cx t b) (buildTile s.cx t xs)).withSlot (n.setWidth 2) (buildTile s.cx t xs)).atPos st
      (t.pos + t.n0 * t.n1)) = .ok () s2) :
    loadTile s st n c l t b none u = .ok () s2 := by
  subst own
  unfold loadTile
  dsimp only
  rw [bind_ok (rowFour_run side), bind_ok read]
  unfold State.keepsTile at last
  by_cases keeps : c = 1
  · rw [if_pos keeps] at last ⊢
    exact stageTile_ok (s := s1.usesTile _) free last
  · rw [if_neg keeps] at last ⊢
    exact stageTile_ok free last

/-! ## LDSO -/

/-- The rows that LDSO checks of its stream (07 R217, R218). -/
structure Stream.SliceOk (t : Stream) : Prop where
  format : t.fmt = 6 ∨ t.fmt = 7 ∨ (t.fmt = 8 ∨ t.fmt = 9) ∧ t.raw = false
  rows : t.n0 ≤ 1024
  columns : t.n1 ≤ 8
  more : t.pos < t.total
  whole : t.pos % (t.n0 * t.n1) = 0

theorem Stream.SliceOk.allowed (ok : t.SliceOk) :
    ((t.fmt == 6 || t.fmt == 7 || t.fmt == 8 || t.fmt == 9) && !(t.raw && decide (8 ≤ t.fmt))) = true := by
  rcases ok.format with six | seven | ⟨eight | nine, cooked⟩
  · simp [six]
  · simp [seven]
  · simp [eight, cooked]
  · simp [nine, cooked]

theorem Stream.SliceOk.fits (ok : t.SliceOk) : (decide (t.n0 ≤ 1024) && decide (t.n1 ≤ 8)) = true := by simp [ok.rows, ok.columns]

/-- The tile that the cache of the core holds of the slice at POS (07 R219). -/
def State.tileFor (s : State) (t : Stream) (b : Binding) : Option CachedTile :=
  s.tiles.find? (fun e => e.core == s.cx.core && e.key == tileKey s.cx t b)

theorem tileFor_started (s : State) (q : SeqId) (tk : BitVec 3) (t : Stream) (b : Binding) : (s.started q tk).tileFor t b = s.tileFor t b := by
  unfold State.tileFor
  rw [State.started_core, tileKey_started]
  rfl

section
variable (issues : s.Issues .l h.qp h.tk) (bound : s.Bound st false t b) (compute : s.cx.onBcast = false) (ok : t.SliceOk)
include issues bound compute ok

/-- LDSO past its checks loads the tile that its cache holds, or one that it reads. -/
theorem exec_ldso_loads {found : Option CachedTile}
    (lookup : (if c = 1 then s.tileFor t b else none) = found) (run : loadTile s st n c l t b found (s.started .l h.tk) = .ok () s2)
    (footing : (s.started .l h.tk).Footing s2) : exec (.ldso h st n c l) s = .next (s2.retired .l h.tk 1) := by
  refine (if_neg (by rw [compute]; exact Bool.false_ne_true)).trans (runL_transferAt issues ?_ footing)
  rw [boundFor_bind (bound.started ..)]
  dsimp only
  rw [require_bind ok.allowed, require_bind ok.fits, bind_ok (notExhausted_run ok.more _), atPos_require_bind (beq_iff_eq.2 ok.whole), get_run]
  have cache : (if c = 1 then (s.started .l h.tk).tiles.find? (fun e => e.core == (s.started .l h.tk).cx.core &&
      e.key == tileKey (s.started .l h.tk).cx t b) else none) = found := by
    rw [← lookup, ← tileFor_started s .l h.tk]
    rfl
  rw [cache, tileKey_started, State.started_agent]
  cases found with
  | some e => exact run
  | none =>
    simp only [buildTile_started]
    exact run

variable (free : s.cx.slot (n.setWidth 2) = none)
include free

theorem exec_ldso_hit {e : CachedTile} (cached : c = 1) (hit : s.tileFor t b = some e)
    (last : lastRead l b ((((s.started .l h.tk).usesTile e).withSlot (n.setWidth 2) e.tile).atPos st (t.pos + t.n0 * t.n1)) = .ok () s2) :
    exec (.ldso h st n c l) s = .next (s2.retired .l h.tk 1) := by
  refine exec_ldso_loads issues bound compute ok (found := some e) (by rw [if_pos cached, hit]) ?_
    (.staged (s1 := (s.started .l h.tk).usesTile e) (.of_stance rfl) last)
  exact stageTile_ok (s := (s.started .l h.tk).usesTile e) ((slot_started ..).trans free) last

theorem exec_ldso_miss {xs : List Element} (miss : c = 0 ∨ s.tileFor t b = none) (side : s.sideOpen b)
    (read : readElems s.agent 0 st t b (t.run t.pos (t.n0 * t.n1)) (s.started .l h.tk) = .ok xs s1)
    (last : lastRead l b (((s1.keepsTile s.cx.core c (tileKey s.cx t b) (buildTile s.cx t xs)).withSlot (n.setWidth 2) (buildTile s.cx t xs)).atPos
      st (t.pos + t.n0 * t.n1)) = .ok () s2) :
    exec (.ldso h st n c l) s = .next (s2.retired .l h.tk 1) := by
  have same := stance_of_ok readElems_stance read
  have lookup : (if c = 1 then s.tileFor t b else none) = none := by
    rcases miss with rfl | miss
    · rfl
    · rw [miss, ite_self]
  refine exec_ldso_loads issues bound compute ok lookup ?_ (.staged (.of_stance ((State.stance_keepsTile ..).trans same)) last)
  refine loadTile_miss (side.started _ _) read ?_ (((slot_of_stance same _).trans (slot_started ..)).trans free) last
  rw [Ctx.core_of_stance same, State.started_core]
end

/-! ## LDTF and PREF -/

theorem exec_ldtf (issues : s.Issues .l h.qp h.tk) : exec (.ldtf h) s = .next (s.does .l h.tk 1 (fun u =>
    { u with tiles := u.tiles.filter (fun e => e.core != s.cx.core) })) := by
  refine runL_footing issues ?_ (.of_stance rfl)
  rw [modify_run, State.started_core]

theorem exec_pref (issues : s.Issues .l h.qp h.tk) (bound : s.Bound st false t b) :
    exec (.pref h st n) s = .next (s.does .l h.tk 1 id) := by
  refine runL_transferAt issues ?_ (.of_stance rfl)
  rw [boundFor_bind (bound.started ..)]
  rfl

/-- Settles O33: LDSO past its checks stages the tile found, or the one that it reads; LDTF and PREF are one step each. -/
theorem weightLoadsComplete : Obligations.WeightLoadsComplete := by
  unfold Obligations.WeightLoadsComplete
  intro s s2 h st n c l t b issues
  refine ⟨fun bound compute format rows columns more whole free => ?_, exec_ldtf issues, exec_pref issues⟩
  have ok : t.SliceOk := ⟨format, rows, columns, more, whole⟩
  exact ⟨fun e => exec_ldso_hit issues bound compute ok free, fun xs s1 => exec_ldso_miss issues bound compute ok free⟩

end Sys2Proof.Machine
end

section

/-! PROOFS. What LDB and LDZ leave as it was: where L stands (07 R223 to R225). -/

namespace Sys2Proof.Machine

variable {k : Stance} {ag : Agent} {st n : BitVec 4} {t : Stream} {b : Binding} {i : BitVec 6}

theorem setPos_stance {v : Nat} : Holds (StanceAs k) (setPos st v) := modify_stance fun s => s.stance_atPos st v

theorem fillBuffer_stance {data : List Byte} : Holds (StanceAs k) (fillBuffer i data) :=
  Holds.get fun _ _ => Holds.bind bufAccess_stills.stance fun _ =>
    (Stills.modCx fun c => (Ctx.still_spad ..).trans (c.still_setBuf ..)).stance

theorem lastFill_stance {c : CtxId} {l : BitVec 1} : Holds (StanceAs k) (if l = 1 then bufAccess c i 0 2 else pure ()) :=
  Holds.ite (fun _ => bufAccess_stills.stance) fun _ => Holds.pure _

theorem groupBytes_stance {m e : Nat} : Holds (StanceAs k) (groupBytes ag st t b m e) :=
  Holds.bind (Holds.collectM fun _ => elemOp_stance (Holds.collectM fun _ => streamBytes_stance)) fun _ => Holds.pure _

theorem storedBytes_stance {cnt : Nat} : Holds (StanceAs k) (storedBytes ag st t b cnt) :=
  reading_stance (Holds.ite
    (fun _ => Holds.bind (Holds.collectM fun _ => Holds.bind rangeCheck_holds fun _ => groupBytes_stance) fun _ => Holds.pure _)
    fun _ => Holds.bind (Holds.collectM fun _ => Holds.bind rangeCheck_holds fun _ => elemOp_stance streamCode_stance) fun _ => Holds.pure _)

theorem zbBytes_stance {m len : Nat} : Holds (StanceAs k) (zbBytes ag st t b m len) :=
  reading_stance (Holds.bind (Holds.collectM fun _ => Holds.bind rangeCheck_holds fun _ => streamBytes_stance) fun _ => Holds.pure _)

theorem decodeChunk_stance {f a : Nat} : Holds (StanceAs k) (decodeChunk ag st t b f a) := by
  unfold decodeChunk
  refine Holds.bind (Holds.withTrap (Holds.require _ _)) fun _ => Holds.bind (Holds.withTrap zbBytes_stance) fun _ =>
    Holds.bind (Holds.withTrap (Holds.bind (Holds.require _ _) fun _ => Holds.bind zbBytes_stance fun _ =>
      Holds.bind (Holds.require _ _) fun _ => Holds.bind (Holds.require _ _) fun _ => ?_)) fun _ =>
    Holds.bind (Holds.withTrap (Holds.require _ _)) fun _ => Holds.pure _
  split
  · exact Holds.pure _
  · exact Holds.fault _

theorem stance_wy (s : State) (n : BitVec 4) (v : DWord) : ({ s with cx := s.cx.wy n v } : State).stance = s.stance := by
  unfold Ctx.wy
  split
  · rfl
  · exact State.stance_eq rfl rfl rfl rfl rfl fun q => by cases q <;> rfl

theorem ldzChunk_stance {f : Nat} : Holds (StanceAs k) (ldzChunk i st n f) :=
  transferAt_stance (Holds.bind replayable_holds fun _ => Holds.bind boundFor_holds fun _ => Holds.get fun _ _ =>
    Holds.bind (Holds.withTrap (Holds.require _ _)) fun _ => Holds.bind (Holds.withTrap rowFour_holds) fun _ =>
    Holds.bind (naming_stance decodeChunk_stance) fun _ => Holds.bind (Holds.withTrap (Holds.require _ _)) fun _ =>
    Holds.bind fillBuffer_stance fun _ => Holds.bind setPos_stance fun _ => modify_stance fun s => stance_wy s _ _)

theorem ldzDeliver_stance {f : Nat} : Holds (StanceAs k) (ldzDeliver i st n f) :=
  Holds.bind ldzChunk_stance fun _ => modify_stance fun s => s.stance_updSeq s.cur fun _ => rfl

theorem ldzLoop_stance {fuel f : Nat} : Holds (StanceAs k) (ldzLoop i st n fuel f) := by
  induction fuel generalizing f with
  | zero => exact Holds.pure _
  | succ fuel ih => exact Holds.get fun _ _ => Holds.ite (fun _ => Holds.pure _) fun _ => Holds.bind ldzDeliver_stance fun _ => ih

theorem ldzStart_stance : Holds (StanceAs k) (ldzStart i st n) :=
  transferAt_stance (Holds.bind replayable_holds fun _ => Holds.bind boundFor_holds fun _ => Holds.bind (Holds.require _ _) fun _ =>
    Holds.bind (Holds.require _ _) fun _ => Holds.get fun _ _ => Holds.ite (fun _ => Holds.throw _) fun _ =>
    Holds.ite (fun _ => Holds.throw _) fun _ => Holds.bind (Holds.withTrap (Holds.require _ _)) fun _ =>
    Holds.ite (fun _ => rowFour_holds) fun _ => Holds.bind bufCheck_holds fun _ => Holds.ite (fun _ => Holds.throw _) fun _ => Holds.pure _)

theorem lastChunk_stance : Holds (StanceAs k) (lastChunk i st) := Holds.get fun _ _ => Holds.withTrap bufAccess_stills.stance

end Sys2Proof.Machine
end

section

/-! PROOFS. LDB and LDZ (07 R223 to R225). -/

namespace Sys2Proof.Machine

variable {s s1 s2 s3 : State} {h : Hq} {b : BitVec 6} {st n : BitVec 4} {l : BitVec 1} {t : Stream} {bd : Binding}

@[simp] theorem State.started_ry (s : State) (q : SeqId) (tk : BitVec 3) (i : BitVec 4) : (s.started q tk).cx.ry i = s.cx.ry i :=
  Ctx.takenBy_ry ..

/-! ## LDB -/

/-- LDB after its checks, on the state `u` that it began on: it stores `cnt` elements, moves POS past them, and completes the buffer at
LAST (07 R223). -/
def loadBuffer (u : State) (b : BitVec 6) (st : BitVec 4) (l : BitVec 1) (t : Stream) (bd : Binding) (cnt : Nat) : M Unit := do
  let bf := u.cx.buf b
  if cnt = 0 then
    if !bf.declared then throw (.trap (bufTrap 0x111 u.cx b 0))
    else if bf.prod ≠ 0 then throw (.trap (bufTrap 0x110 u.cx b 0))
    else rowFour bd
  else do
    bufCheck u.cx.id b 0 0
    if bf.len < bf.writeFp + cnt * t.width / 8 then throw (.trap (bufTrap 0x112 u.cx b 0)) else pure ()
    rowFour bd
    let data ← storedBytes u.agent st t bd cnt
    fillBuffer b data
  setPos st (t.pos + cnt)
  if l = 1 then bufAccess u.cx.id b 0 2 else pure ()

theorem loadBuffer_none {u : State} (declared : (u.cx.buf b).declared = true) (producer : (u.cx.buf b).prod = 0) (side : u.sideOpen bd)
    (last : (if l = 1 then bufAccess u.cx.id b 0 2 else pure ()) (u.atPos st t.pos) = .ok () s2) :
    loadBuffer u b st l t bd 0 u = .ok () s2 := by
  unfold loadBuffer
  dsimp only
  rw [if_pos rfl, declared, if_neg (by decide), if_neg (not_not.2 producer), bind_ok (rowFour_run side), setPos_bind]
  exact last

theorem loadBuffer_some {u : State} {cnt : Nat} {data : List Byte} (nonempty : cnt ≠ 0) (declared : (u.cx.buf b).declared = true)
    (legal : (u.cx.buf b).legal 0 0 = true) (room : (u.cx.buf b).writeFp + cnt * t.width / 8 ≤ (u.cx.buf b).len) (side : u.sideOpen bd)
    (read : storedBytes u.agent st t bd cnt u = .ok data s1) (fill : fillBuffer b data s1 = .ok () s2)
    (last : (if l = 1 then bufAccess u.cx.id b 0 2 else pure ()) (s2.atPos st (t.pos + cnt)) = .ok () s3) :
    loadBuffer u b st l t bd cnt u = .ok () s3 := by
  unfold loadBuffer
  dsimp only
  rw [if_neg nonempty, bind_ok (bufCheck_ok declared legal), if_neg (Nat.not_lt.2 room), bind_ok (rowFour_run side), bind_ok read,
    bind_ok fill, setPos_bind]
  exact last

/-- The rows that LDB checks of its stream and its count (07 R223). -/
structure Stream.CountOk (t : Stream) (cnt : Nat) : Prop where
  bytes : cnt * t.width % 8 = 0
  blocks : t.fmt = 8 → cnt % 256 = 0 ∧ t.pos % 256 = 0
  groups : t.fmt = 9 → cnt % 64 = 0 ∧ t.pos % 64 = 0
  more : t.pos < t.total
  within : cnt ≤ t.total - t.pos

section
variable {cnt : Nat}

theorem Stream.CountOk.counted (ok : t.CountOk cnt) :
    (cnt * t.width % 8 == 0 && (t.fmt != 8 || cnt % 256 == 0) && (t.fmt != 9 || cnt % 64 == 0)) = true := by
  simp only [Bool.and_eq_true, Bool.or_eq_true, beq_iff_eq, bne_iff_ne]
  exact ⟨⟨ok.bytes, or_iff_not_imp_left.2 fun eight => (ok.blocks (not_not.1 eight)).1⟩,
    or_iff_not_imp_left.2 fun nine => (ok.groups (not_not.1 nine)).1⟩

theorem Stream.CountOk.aligned (ok : t.CountOk cnt) : ((t.fmt != 8 || t.pos % 256 == 0) && (t.fmt != 9 || t.pos % 64 == 0)) = true := by
  simp only [Bool.and_eq_true, Bool.or_eq_true, beq_iff_eq, bne_iff_ne]
  exact ⟨or_iff_not_imp_left.2 fun eight => (ok.blocks (not_not.1 eight)).2, or_iff_not_imp_left.2 fun nine => (ok.groups (not_not.1 nine)).2⟩

variable (issues : s.Issues .l h.qp h.tk) (unplanned : s.unplanned) (bound : s.Bound st false t bd) (count : cnt = (s.cx.ry n).toNat)
  (ok : t.CountOk cnt)
include issues unplanned bound count ok

theorem exec_ldb_loads (run : loadBuffer (s.started .l h.tk) b st l t bd cnt (s.started .l h.tk) = .ok () s2)
    (footing : (s.started .l h.tk).Footing s2) : exec (.ldb h b st n l) s = .next (s2.retired .l h.tk 1) := by
  refine runL_transferAt issues ?_ footing
  rw [replayable_bind (unplanned.started ..), boundFor_bind (bound.started ..)]
  dsimp only
  rw [get_run, State.started_ry, ← count, require_bind ok.counted, atPos_require_bind ok.aligned, bind_ok (notExhausted_run ok.more _),
    require_bind (decide_eq_true ok.within)]
  exact run

theorem exec_ldb_none (declared : (s.cx.buf b).declared = true) (empty : cnt = 0) (producer : (s.cx.buf b).prod = 0) (side : s.sideOpen bd)
    (last : (if l = 1 then bufAccess s.cx.id b 0 2 else pure ()) ((s.started .l h.tk).atPos st t.pos) = .ok () s2) :
    exec (.ldb h b st n l) s = .next (s2.retired .l h.tk 1) := by
  refine exec_ldb_loads issues unplanned bound count ok ?_
    (.of_stance ((stance_of_ok lastFill_stance last).trans (State.stance_atPos ..)))
  rw [empty]
  exact loadBuffer_none (by rwa [State.started_buf]) (by rwa [State.started_buf]) (side.started _ _) (by rwa [State.started_id])

theorem exec_ldb_some {data : List Byte} (declared : (s.cx.buf b).declared = true) (nonempty : cnt ≠ 0) (legal : (s.cx.buf b).legal 0 0 = true)
    (room : (s.cx.buf b).writeFp + cnt * t.width / 8 ≤ (s.cx.buf b).len) (side : s.sideOpen bd)
    (read : storedBytes s.agent st t bd cnt (s.started .l h.tk) = .ok data s1) (fill : fillBuffer b data s1 = .ok () s2)
    (last : (if l = 1 then bufAccess s.cx.id b 0 2 else pure ()) (s2.atPos st (t.pos + cnt)) = .ok () s3) :
    exec (.ldb h b st n l) s = .next (s3.retired .l h.tk 1) := by
  refine exec_ldb_loads issues unplanned bound count ok ?_
    (.of_stance ((stance_of_ok lastFill_stance last).trans ((State.stance_atPos ..).trans
      ((stance_of_ok fillBuffer_stance fill).trans (stance_of_ok storedBytes_stance read)))))
  exact loadBuffer_some nonempty (by rwa [State.started_buf]) (by rwa [State.started_buf]) (by rwa [State.started_buf]) (side.started _ _)
    (by rwa [State.started_agent]) fill (by rwa [State.started_id])
end

/-! ## LDZ -/

theorem chunksDone_started (s : State) (q : SeqId) (tk : BitVec 3) : chunksDone (s.started q tk) = chunksDone s := by
  unfold chunksDone
  rw [show (s.started q tk).cx.seqL = s.cx.seqL from Ctx.takenBy_seqL ..]

theorem postRoom_bind {β : Type} {tk : BitVec 3} (focus : s.cur = .l) (room : ∀ i, fieldPost .l tk = some i → s.cx.tokens i < 15)
    (g : Unit → M β) : (postRoom tk >>= g) s = g () s := by
  refine bind_ok ?_
  unfold postRoom
  rw [get_run, focus]
  cases post : fieldPost .l tk with
  | none => rfl
  | some i =>
    dsimp only
    rw [decide_eq_true (room i post)]
    rfl

/-- An operation that runs where a condition holds, then another. -/
theorem whenThen_run {β : Type} {p : Prop} [Decidable p] {m : M PUnit} (start : (if p then m else pure ()) s = .ok () s1) (g : PUnit → M β) :
    (if p then m >>= g else g ⟨⟩) s = g ⟨⟩ s1 := by
  by_cases first : p
  · rw [if_pos first] at start ⊢
    exact bind_ok start
  · rw [if_neg first] at start ⊢
    cases start
    rfl

theorem exec_ldz (issues : s.Issues .l h.qp h.tk)
    (start : (if chunksDone s = 0 then ldzStart b st n else pure ()) (s.started .l h.tk) = .ok () s1)
    (loop : ldzLoop b st n ((s.cx.ry n).toNat / 4) (chunksDone s) s1 = .ok () s2)
    (room : ∀ i, fieldPost .l h.tk = some i → s2.cx.tokens i < 15) (last : (if l = 1 then lastChunk b st else pure ()) s2 = .ok () s3) :
    exec (.ldz h b st n l) s = .next (s3.retired .l h.tk 1) := by
  have begun : s1.stance = (s.started .l h.tk).stance := stance_of_ok (Holds.ite (fun _ => ldzStart_stance) fun _ => Holds.pure _) start
  have looped : s2.stance = (s.started .l h.tk).stance := (stance_of_ok ldzLoop_stance loop).trans begun
  have ended : s3.stance = s2.stance := stance_of_ok (Holds.ite (fun _ => lastChunk_stance) fun _ => Holds.pure _) last
  have focus : s2.cur = .l := (congrArg Stance.cur looped).trans issues.focus
  refine runL_footing issues ?_ (.of_stance (ended.trans looped))
  rw [get_run, chunksDone_started, State.started_ry]
  exact (whenThen_run start _).trans ((bind_ok loop).trans ((postRoom_bind focus room _).trans last))

/-- An operation that goes on under another name goes on as it does. -/
theorem naming_run {α : Type} {ag : Agent} {f : Nat × Nat × DWord → Nat × Nat × DWord} {m : M α} {a : α} (run : m s = .ok a s1) :
    naming ag st f m s = .ok a s1 := by
  unfold naming
  rw [run]

/-- A chunk of an LDZ is stored, and counted. -/
theorem ldzDeliver_run {f inLen sum : Nat} {out : List Byte} (unplanned : s.unplanned) (bound : s.Bound st false t bd) (more : t.pos < t.total)
    (side : s.sideOpen bd) (decoded : decodeChunk s.agent st t bd f t.pos s = .ok (out, inLen, sum) s1)
    (fits : out.length ≤ (s.cx.ry n).toNat) (fill : fillBuffer b out s1 = .ok () s2) :
    let u := s2.atPos st (min t.total ((t.pos + 16 + inLen + 15) / 16 * 16))
    let v := beginFlight st none { u with cx := u.cx.wy n (u.cx.ry n - BitVec.ofNat 64 out.length) }
    ldzDeliver b st n f s = .ok () { v with cx := v.cx.updSeq v.cur (·.delivered f) } := by
  refine bind_ok (transferAt_run ?_)
  rw [replayable_bind unplanned, boundFor_bind bound]
  dsimp only
  rw [get_run, bind_ok (withTrap_ok (notExhausted_run more s)), bind_ok (withTrap_ok (rowFour_run side)), bind_ok (naming_run decoded)]
  dsimp only
  rw [bind_ok (withTrap_ok (require_run (decide_eq_true fits) s1)), bind_ok fill, setPos_bind]
  rfl

/-- Settles O34: LDB past its checks stores its elements or has none to store; LDZ is its start, its loop and its end, and a chunk is one
transfer of it. -/
theorem bufferLoadsComplete : Obligations.BufferLoadsComplete := by
  unfold Obligations.BufferLoadsComplete
  intro s s1 s2 s3 h b st n l t bd
  refine ⟨?_, exec_ldz, fun f out inLen sum unplanned bound more side decoded fits fill =>
    ldzDeliver_run unplanned bound more side decoded fits fill⟩
  intro issues unplanned bound cnt bf last bytes blocks groups more within declared
  have ok : t.CountOk cnt := ⟨bytes, blocks, groups, more, within⟩
  exact ⟨exec_ldb_none issues unplanned bound rfl ok declared, fun data => exec_ldb_some issues unplanned bound rfl ok declared⟩

end Sys2Proof.Machine
end

section

/-! PROOFS. Words that their fields make no instruction of the vector family (02 R42 row 4; 08 R238 to R243). -/

namespace Sys2Proof.Machine

variable {m : SeqSel} {w : Nat}

/-- Below the opcodes of the bank the two maps of C are one (02 R58). -/
theorem rawDecode_eq_rawDecodeC (hm : m = .c ∨ m = .b) (below : bits w 31 26 < 0x38) : rawDecode m w = rawDecodeC w := by
  rcases hm with rfl | rfl
  · rfl
  · have opcode : w / 2 ^ 26 % 64 < 56 := below
    unfold rawDecode rawDecodeB rawDecodeC
    generalize w / 2 ^ 26 % 64 = op at opcode
    interval_cases op <;> rfl

/-- A field that holds another value than a constant. -/
theorem fld_beq_false {lo k v : Nat} (other : w / 2 ^ lo % 2 ^ k ≠ v % 2 ^ k) : (fld w lo k == BitVec.ofNat k v) = false :=
  beq_false_of_ne fun same => other (by rw [← toNat_fld, same, BitVec.toNat_ofNat])

theorem rejects_illegalVectorArithmetic (hm : m = .c ∨ m = .b) (bad : illegalVectorArithmetic w) (i : Instr) (hi : rawDecode m w = .ok i) :
    i.fieldsOk m = false := by
  unfold illegalVectorArithmetic at bad
  simp only [List.mem_cons, List.not_mem_nil, or_false] at bad
  rw [rawDecode_eq_rawDecodeC hm (by omega)] at hi
  unfold rawDecodeC at hi
  rcases bad with ⟨op, type⟩ | ⟨op, type⟩ | ⟨op, vb⟩
  · have integer : (fld w 4 2 == 3#2) = false := fld_beq_false type
    rcases op with op | op | op | op | op | op | op <;> simp only [opcode_of_bits op] at hi
    case inr.inr.inr.inl => exact fieldsOk_of_template hi fun _ => Bool.and_eq_false_iff.2 (.inr integer)
    all_goals
      obtain rfl := Except.ok.inj hi
      exact Bool.and_eq_false_iff.2 (.inr integer)
  · have float : (fld w 4 2 == 0#2) = true := beq_iff_eq.2 (BitVec.eq_of_toNat_eq ((toNat_fld ..).trans type))
    simp only [opcode_of_bits op] at hi
    obtain rfl := Except.ok.inj hi
    exact Bool.and_eq_false_iff.2 (.inr (congrArg (!·) float))
  · rcases op with op | op | op <;> simp only [opcode_of_bits op] at hi <;> exact fieldsOk_of_template hi fun fit => absurd (fits_iff.1 fit) vb

/-- VCMP has eight conditions, the last two on integers alone (08 R239). -/
theorem fieldsOk_vcmp (bad : 8 ≤ bits w 25 22 ∨ (6 ≤ bits w 25 22 ∧ bits w 5 4 ≠ 3)) {h : Tl} {a b : BitVec 5} {p : BitVec 6} :
    (Instr.vcmp h (fld w 22 4) a b p (fld w 4 2)).fieldsOk m = false := by
  have code : (fld w 22 4).toNat = bits w 25 22 := toNat_fld ..
  rcases bad with past | ⟨lanes, type⟩
  · exact Bool.and_eq_false_iff.2 (.inl (Bool.and_eq_false_iff.2 (.inr (decide_eq_false (by omega)))))
  · exact Bool.and_eq_false_iff.2 (.inr (Bool.or_eq_false_iff.2 ⟨decide_eq_false (by omega), fld_beq_false type⟩))

theorem rejects_illegalVectorMove (hm : m = .c ∨ m = .b) (bad : illegalVectorMove w) (i : Instr) (hi : rawDecode m w = .ok i) :
    i.fieldsOk m = false := by
  unfold illegalVectorMove at bad
  simp only [List.mem_cons, List.not_mem_nil, or_false] at bad
  rw [rawDecode_eq_rawDecodeC hm (by omega)] at hi
  unfold rawDecodeC at hi
  have vb : (fld w 12 5).toNat = bits w 16 12 := toNat_fld ..
  rcases bad with ⟨op, condition⟩ | ⟨op, reserved⟩ | ⟨op, reserved⟩ | ⟨op, conversion⟩ | ⟨op, reserved⟩ | ⟨op, operator⟩
  · simp only [opcode_of_bits op] at hi
    obtain rfl := Except.ok.inj hi
    exact fieldsOk_vcmp condition
  · simp only [opcode_of_bits op] at hi
    exact fieldsOk_of_template hi fun fit => absurd (fits_iff.1 fit) reserved
  · simp only [opcode_of_bits op] at hi
    refine fieldsOk_of_template hi fun fit => ?_
    simp only [Bool.and_eq_true, fits_iff] at fit
    simp only [bits] at reserved
    omega
  · simp only [opcode_of_bits op] at hi
    refine fieldsOk_of_template hi fun fit => Bool.and_eq_false_iff.2 (.inr (decide_eq_false fun low => ?_))
    exact conversion.elim (absurd (fits_iff.1 fit)) (by omega)
  · rcases op with op | op | op | op <;> simp only [opcode_of_bits op] at hi <;>
      exact fieldsOk_of_template hi fun fit => absurd ((fits_iff.1 fit).symm.trans reserved) (by decide)
  · have none : decide ((fld w 12 5).toNat ≤ 2) = false := decide_eq_false (by omega)
    rcases op with op | op | op | op <;> simp only [opcode_of_bits op] at hi <;> obtain rfl := Except.ok.inj hi <;>
      exact Bool.and_eq_false_iff.2 (.inr none)

end Sys2Proof.Machine
end

section

/-! PROOFS. A word of C that changes its context alone, as a bundle of its own (02 R52; 08 R235 to R253). -/

namespace Sys2Proof.Machine

variable {s : State} {i : Instr} {r : BundleRow} {f : Instr → Ctx → Option BundleRow}

/-- The families of words of C that change their context alone. -/
def contextFamilies : List (Instr → Ctx → Option BundleRow) :=
  [vectorArithmetic, vectorLogic, vectorMove, vectorAxis, vectorQueued, lanePredicates, tilesAndAddresses, bankRegisters]

theorem enacts_of_family (family : f ∈ contextFamilies) {o : Ctx} (row : f i o = some r) : Enacts o i r := by
  simp only [contextFamilies, List.mem_cons, List.not_mem_nil, or_false] at family
  rcases family with rfl | rfl | rfl | rfl | rfl | rfl | rfl | rfl
  · exact enacts_vectorArithmetic row
  · exact enacts_vectorLogic row
  · exact enacts_vectorMove row
  · exact enacts_vectorAxis row
  · exact enacts_vectorQueued row
  · exact enacts_lanePredicates row
  · exact enacts_tilesAndAddresses row
  · exact enacts_bankRegisters row

/-- Every instruction of these families has a meaning. -/
theorem exec_eq_after_of_family (family : f ∈ contextFamilies) {o : Ctx} (row : f i o = some r) (s : State) : exec i s = .next (after i s) := by
  simp only [contextFamilies, List.mem_cons, List.not_mem_nil, or_false] at family
  cases i
  all_goals first
    | rfl
    | rcases family with rfl | rfl | rfl | rfl | rfl | rfl | rfl | rfl <;> cases row

/-- A word that does in a bundle what its row says completes as a bundle of its own. -/
theorem Enacts.after_lone (enacts : Enacts s.cx i r) (issues : s.IssuesC r.truth r.tk r.srcs) :
    after i s = s.bundled r.tk r.words r.srcs r.effect := by
  obtain ⟨⟨op, shell, performs⟩, -, fields, -⟩ := enacts
  rw [shell s issues.focus]
  refine runC_bundled issues ?_ fun j => ?_
  · exact performs { s with cx := s.cx.takenBy .c r.tk, bun := some (loneBundle s r.tk r.words []) } _ issues.focus rfl rfl issues.sources
      fun _ => Ctx.bankView_takenBy ..
  · exact Ctx.tokens_of_fieldView (fields _) j

theorem exec_bundled_of_family (family : f ∈ contextFamilies) (row : f i s.cx = some r) (issues : s.IssuesC r.truth r.tk r.srcs) :
    exec i s = .next (s.bundled r.tk r.words r.srcs r.effect) := by
  rw [exec_eq_after_of_family family row s, (enacts_of_family family row).after_lone issues]

/-- Settles O38: each word has the row of its family, and the types that it does not accept are in no map of C. -/
theorem vectorArithmeticWritesTrueLanes : Obligations.VectorArithmeticWritesTrueLanes := by
  unfold Obligations.VectorArithmeticWritesTrueLanes
  refine ⟨FaultsOn.of_rejected fun w => rejects_illegalVectorArithmetic (.inl rfl),
    FaultsOn.of_rejected fun w => rejects_illegalVectorArithmetic (.inr rfl), ?_⟩
  rintro s i r (row | row) issues
  · exact exec_bundled_of_family (by simp [contextFamilies]) row issues
  · exact exec_bundled_of_family (by simp [contextFamilies]) row issues

/-- Settles O39: each word has the row of its family, and what its fields do not assign is in no map of C. -/
theorem vectorMovesAndReductionsComplete : Obligations.VectorMovesAndReductionsComplete := by
  unfold Obligations.VectorMovesAndReductionsComplete
  refine ⟨FaultsOn.of_rejected fun w => rejects_illegalVectorMove (.inl rfl),
    FaultsOn.of_rejected fun w => rejects_illegalVectorMove (.inr rfl), ?_⟩
  rintro s i r (row | row) issues
  · exact exec_bundled_of_family (by simp [contextFamilies]) row issues
  · exact exec_bundled_of_family (by simp [contextFamilies]) row issues

/-- Settles O40: each word has the row of its family. -/
theorem predicatesTilesAndAddressesComplete : Obligations.PredicatesTilesAndAddressesComplete := by
  unfold Obligations.PredicatesTilesAndAddressesComplete
  rintro s i r (row | row | row) issues
  · exact exec_bundled_of_family (by simp [contextFamilies]) row issues
  · exact exec_bundled_of_family (by simp [contextFamilies]) row issues
  · exact exec_bundled_of_family (by simp [contextFamilies]) row issues

end Sys2Proof.Machine
end

section

/-! PROOFS. The shell of a word of S, the rows that a store passes, and what its writes leave as it was (09 R261 to R264). -/

namespace Sys2Proof.Machine

variable {s t u : State} {h : Hq} {words : Nat} {op : M Unit} {st n : BitVec 4} {str : Stream} {b : Binding} {β : Type}

/-! ## The shell -/

theorem runS_footing (issues : s.Issues .s h.qp h.tk) (run : op (s.started .s h.tk) = .ok () t) (footing : (s.started .s h.tk).Footing t) :
    runS h words op s = .next (t.retired .s h.tk words) := by
  unfold runS
  rw [if_pos issues.focus, runWord_footing issues run footing]

/-- A word of S whose effect is a transfer on a stream. -/
theorem runS_transfer (issues : s.Issues .s h.qp h.tk) (run : op (s.started .s h.tk) = .ok () t)
    (same : t.stance = (s.started .s h.tk).stance) : runS h words (transfer st op) s = .next (t.retired .s h.tk words) := by
  have footing : (s.started .s h.tk).Footing t := .of_stance same
  calc runS h words (transfer st op) s = .next ((beginFlight st none t).retired .s h.tk words) :=
        runS_footing issues (transferAt_run run) (footing.trans (.of_stance (beginFlight_stance ..)))
    _ = .next (t.retired .s h.tk words) := by rw [beginFlight_retired (footing.cur.trans issues.focus)]

/-- A word of S whose effect leaves the sequencer where it stood. -/
theorem runS_stands (issues : s.Issues .s h.qp h.tk) (run : op (s.started .s h.tk) = .ok () u) (stands : (s.started .s h.tk).Stands .s u) :
    runS h words op s = .next (u.retired .s h.tk words) := by
  obtain ⟨id, tok, seq, cur⟩ := stands
  refine runS_ok issues run (id.trans (State.started_id ..)) (cur.trans issues.focus) (fun i hp => ?_) ?_
  · unfold Ctx.tokens
    rw [tok]
    exact issues.room_taken hp
  · rw [seq, State.started_seq]
    cases (s.cx.seq .s).pend
    · exact .inr rfl
    · exact .inl rfl

/-! ## The rows of a store -/

theorem State.Storing.started (storing : s.Storing st str b) (q : SeqId) (tk : BitVec 3) : (s.started q tk).Storing st str b :=
  ⟨storing.bound.started q tk, storing.epi, storing.more, storing.blocks, storing.groups⟩

theorem State.Storing.aligned (storing : s.Storing st str b) :
    ((str.fmt != 8 || str.pos % 256 == 0) && (str.fmt != 9 || str.pos % 64 == 0)) = true := by
  simp only [Bool.and_eq_true, Bool.or_eq_true, beq_iff_eq, bne_iff_ne]
  exact ⟨or_iff_not_imp_left.2 fun eight => storing.blocks (not_not.1 eight),
    or_iff_not_imp_left.2 fun nine => storing.groups (not_not.1 nine)⟩

theorem storeStart_bind {ok : Stream → Bool} (unplanned : s.unplanned) (storing : s.Storing st str b) (format : ok str = true)
    (g : Stream × Binding → M β) : (storeStart st ok >>= g) s = g (str, b) s := by
  have allowed : (ok str && !b.epi) = true := by rw [format, storing.epi]; rfl
  refine bind_ok ?_
  unfold storeStart
  rw [replayable_bind unplanned, boundFor_bind storing.bound]
  dsimp only
  rw [require_bind allowed, bind_ok (notExhausted_run storing.more s), atPos_require_bind storing.aligned]
  rfl

@[simp] theorem State.started_sqAt (s : State) (q : SeqId) (tk : BitVec 3) (n : Nat) : (s.started q tk).cx.sqAt n = s.cx.sqAt n := by
  simp [State.started, Ctx.sqAt]

theorem headSq_bind {img : Image} (head : (s.cx.sqAt n.toNat).head? = some img) (g : Image → M β) : (headSq n >>= g) s = g img s := by
  obtain ⟨rest, queue⟩ := List.head?_eq_some_iff.1 head
  refine bind_ok ?_
  unfold headSq
  rw [get_run, queue]
  rfl

theorem takeSq_run (v : Nat) (s : State) : takeSq n st v s = .ok () ((s.sqTaken n).atPos st v) := rfl

/-! ## What a store leaves -/

theorem State.agent_srce_ne_epilogue (s : State) : s.agent.srce ≠ 4 := by
  show seqNum s.cur ≠ 4
  cases s.cur <;> decide

theorem State.stance_flown (s : State) (f : Option Flight) (w : Nat) : (s.flown f w).stance = s.stance := s.stance_updSeq s.cur fun _ => rfl

theorem stance_of_flown (flown : ∃ f w, t.still = (s.flown f w).still) : t.stance = s.stance := by
  obtain ⟨f, w, still⟩ := flown
  exact (State.stance_of_still still).trans (s.stance_flown f w)

theorem State.stance_sqTaken (s : State) (n : BitVec 4) : (s.sqTaken n).stance = s.stance := by
  unfold State.sqTaken Ctx.setSq
  split
  · exact State.stance_eq rfl rfl rfl rfl rfl fun q => by cases q <;> rfl
  · rfl

/-- An entry of sq n taken and POS moved past its elements. -/
theorem State.stance_sqTaken_atPos (s : State) (v : Nat) : ((s.sqTaken n).atPos st v).stance = s.stance :=
  (State.stance_atPos ..).trans (State.stance_sqTaken ..)

/-- z[n] of the context in focus written. -/
def State.withZ (s : State) (n : BitVec 4) (v : DWord) : State := { s with cx := s.cx.wz n v }

theorem State.stance_withZ (s : State) (n : BitVec 4) (v : DWord) : (s.withZ n v).stance = s.stance := by
  unfold State.withZ Ctx.wz
  split
  · rfl
  · exact State.stance_eq rfl rfl rfl rfl rfl fun q => by cases q <;> rfl

/-- q[o] of a sequencer of the context in focus written. -/
def State.withQ (s : State) (q : SeqId) (o : BitVec 3) (v : Bool) : State := { s with cx := s.cx.updSeq q (fun x => x.wq o v) }

theorem State.stance_withQ (s : State) (q : SeqId) (o : BitVec 3) (v : Bool) : (s.withQ q o v).stance = s.stance :=
  s.stance_updSeq q fun x => by
    unfold SeqState.wq
    split <;> rfl

end Sys2Proof.Machine
end

section

/-! PROOFS. STS, QST and STB (09 R262 to R268). -/

namespace Sys2Proof.Machine

variable {s s2 s3 u1 : State} {h : Hq} {st n : BitVec 4} {b : BitVec 6} {o : BitVec 3} {l : BitVec 1} {t : Stream} {bd : Binding} {img : Image}
  {ws : List (Item × List Seg)} {cnt : Nat}

theorem quantTable_started (s : State) (q : SeqId) (tk : BitVec 3) (t : Stream) : quantTable (s.started q tk) t = quantTable s t := by
  unfold quantTable
  rw [State.started_seq, State.started_lvt, State.started_cur]

theorem State.agent_still (s : State) : s.still.agent = s.agent := by
  unfold State.agent State.still
  cases s.cur <;> rfl

theorem State.agent_of_still (h : u1.still = s.still) : u1.agent = s.agent := by rw [← u1.agent_still, h, s.agent_still]

/-- The bytes that a buffer holds are whole elements of a stream, no more than are to come (09 R268). -/
structure Stream.HoldsWhole (t : Stream) (fp : Nat) : Prop where
  whole : fp * 8 % t.width = 0
  groups : t.fmt = 9 → fp % 64 = 0
  within : fp * 8 / t.width ≤ t.total - t.pos

theorem Stream.HoldsWhole.counted {fp : Nat} (ok : t.HoldsWhole fp) : (fp * 8 % t.width == 0 && (t.fmt != 9 || fp % 64 == 0)) = true := by
  simp only [Bool.and_eq_true, Bool.or_eq_true, beq_iff_eq, bne_iff_ne]
  exact ⟨ok.whole, or_iff_not_imp_left.2 fun nine => ok.groups (not_not.1 nine)⟩

/-- The elements of a stream that the bytes below FP of a buffer hold (09 R268). -/
def Ctx.elementsIn (c : Ctx) (b : BitVec 6) (t : Stream) : Nat := (c.buf b).fp * 8 / t.width

/-- The writes of these elements from POS on. -/
def Ctx.itemsIn (c : Ctx) (b : BitVec 6) (t : Stream) (bd : Binding) : List Item :=
  let data := c.spad.readN (c.buf b).base (c.buf b).fp
  elemItems t bd (unpackBits t.width (c.elementsIn b t) (leNat data)) (chunksOf 64 ((c.buf b).fp / 64) data)

theorem lastTaken_stance {k : Stance} {c : CtxId} : Holds (StanceAs k) (if l = 1 then bufAccess c b 1 3 else pure ()) :=
  Holds.ite (fun _ => bufAccess_stills.stance) fun _ => Holds.pure _

section
variable (issues : s.Issues .s h.qp h.tk) (unplanned : s.unplanned) (storing : s.Storing st t bd)
include issues unplanned storing

theorem exec_sts (count : cnt = min t.perImage (t.total - t.pos)) (plain : t.fmt ≠ 8) (packed : t.fmt ≠ 10)
    (head : (s.cx.sqAt n.toNat).head? = some img)
    (writes : (s.started .s h.tk).Writes st t bd (elemItems t bd (narrowImage t img cnt)
      ((chunksOf 64 (cnt / 64) (narrowImage t img cnt)).map ni8Group)) (l == 1) ws ws ws s2) :
    exec (.sts h st n l) s = .next (((s2.sqTaken n).atPos st (t.pos + cnt)).retired .s h.tk 1) := by
  have format : (t.fmt != 8 && t.fmt != 10) = true := by simp [plain, packed]
  refine runS_transfer issues ?_ ((State.stance_sqTaken_atPos ..).trans (stance_of_flown writes.still))
  obtain ⟨s1, checked, performed⟩ := writes
  rw [storeStart_bind (unplanned.started ..) (storing.started ..) format]
  dsimp only
  rw [headSq_bind (by rwa [State.started_sqAt]), get_run, ← count, bind_ok checked]
  exact (bind_ok performed).trans (takeSq_run ..)

theorem exec_qst {qs : List Quantised} (count : cnt = min 1024 (t.total - t.pos)) (blocks : t.fmt = 8)
    (head : (s.cx.sqAt n.toNat).head? = some img)
    (quantised : quantiseBlocks t.taben (quantTable s t) (cnt / 256) 0 (lanesOf img) (s.started .s h.tk) = .ok qs (s.started .s h.tk))
    (writes : (s.started .s h.tk).Writes st t bd (t.byLane (blockItems t bd qs)) (l == 1) ws (headersLast ws)
      (ws.filter (fun p => !p.1.isHeader)) s2) :
    exec (.qst h st n o l) s = .next ((((s2.withQ .s o (qs.any (·.ovf))).sqTaken n).atPos st (t.pos + cnt)).retired .s h.tk 1) := by
  have same : s2.stance = (s.started .s h.tk).stance := stance_of_flown writes.still
  have focus : s2.cur = .s := (congrArg Stance.cur same).trans issues.focus
  have format : (t.fmt == 8) = true := beq_iff_eq.2 blocks
  refine runS_transfer issues ?_ ((State.stance_sqTaken_atPos ..).trans ((State.stance_withQ ..).trans same))
  obtain ⟨s1, checked, performed⟩ := writes
  rw [storeStart_bind (unplanned.started ..) (storing.started ..) format]
  dsimp only
  rw [headSq_bind (by rwa [State.started_sqAt]), get_run, quantTable_started, ← count, bind_ok quantised, bind_ok checked, bind_ok performed,
    bind_ok (setQ_run focus)]
  exact takeSq_run ..

theorem exec_stb (plain : t.fmt ≠ 8) (taken : bufAccess s.cx.id b 1 1 (s.started .s h.tk) = .ok () u1) (ok : t.HoldsWhole (s.cx.buf b).fp)
    (count : cnt = s.cx.elementsIn b t) (writes : u1.Writes st t bd (s.cx.itemsIn b t bd) false ws ws ws s2)
    (last : (if l = 1 then bufAccess s.cx.id b 1 3 else pure ()) ((s2.atPos st (t.pos + cnt)).withZ n (BitVec.ofNat 64 cnt)) = .ok () s3) :
    exec (.stb h b st n l) s = .next (s3.retired .s h.tk 1) := by
  subst count
  have entered : u1.still = (s.started .s h.tk).still := bufAccess_stills.ok taken
  have same : s3.stance = (s.started .s h.tk).stance :=
    calc s3.stance = (s2.atPos st (t.pos + s.cx.elementsIn b t)).stance := (stance_of_ok lastTaken_stance last).trans (State.stance_withZ ..)
      _ = u1.stance := (State.stance_atPos ..).trans (stance_of_flown writes.still)
      _ = (s.started .s h.tk).stance := State.stance_of_still entered
  have agent : u1.agent = s.agent := (State.agent_of_still entered).trans (State.started_agent ..)
  have format : (t.fmt != 8) = true := bne_iff_ne.2 plain
  refine runS_transfer issues ?_ same
  obtain ⟨s1, checked, performed⟩ := writes
  rw [agent] at checked performed
  rw [storeStart_bind (unplanned.started ..) (storing.started ..) format]
  dsimp only
  rw [get_run, State.started_id, bind_ok taken, State.started_buf, State.started_spad, State.started_agent, require_bind ok.counted,
    require_bind (decide_eq_true ok.within)]
  exact (bind_ok checked).trans ((bind_ok performed).trans last)

end

/-- Settles O35: each instruction passes its rows, and its elements are written as the checks of its items let them be. -/
theorem streamStoresComplete : Obligations.StreamStoresComplete := by
  unfold Obligations.StreamStoresComplete
  intro s s2 s3 h st n b o l t bd img items ws issues unplanned storing u
  refine ⟨?_, ?_, ?_⟩
  · rintro cnt count plain packed head rfl writes
    exact exec_sts issues unplanned storing count plain packed head writes
  · rintro cnt qs count blocks head quantised rfl writes v
    exact exec_qst issues unplanned storing count blocks head quantised writes
  · rintro u1 plain taken bf data cnt whole groups within rfl writes v last
    exact exec_stb issues unplanned storing plain taken ⟨whole, groups, within⟩ rfl writes last

end Sys2Proof.Machine
end

section

/-! PROOFS. ATOMV and AMOS (09 R271, R272). -/

namespace Sys2Proof.Machine

variable {s s1 s2 s3 : State} {h : Hq} {c st n d a b : BitVec 4} {f : BitVec 5} {z : BitVec 1} {so op : BitVec 4} {t : Stream} {bd : Binding}
  {img : Image} {ws : List (Item × List Seg)} {cnt : Nat}

/-! ## ATOMV -/

/-- The formats that ATOMV takes with an operation (09 R271). -/
def Stream.TakesAtomic (t : Stream) (f : BitVec 5) : Prop := if f = 0 then t.fmt = 3 ∨ t.fmt = 0 else if f = 10 then t.fmt = 0 else t.fmt = 3

theorem Stream.TakesAtomic.allowed (format : t.TakesAtomic f) (cooked : t.raw = false) (visible : t.shd = false) :
    (!t.raw && !t.shd && (if f = 0 then t.fmt == 3 || t.fmt == 0 else if f = 10 then t.fmt == 0 else t.fmt == 3)) = true := by
  unfold Stream.TakesAtomic at format
  rw [cooked, visible]
  split_ifs at format ⊢ <;> simpa using format

/-- The atomics of ATOMV, one for each lane, in order, and what its writes held back (09 R271). -/
def atomics (ag : Agent) (bd : Binding) (f : BitVec 5) (vs : List Nat) (ws : List (Item × List Seg)) : M Unit := do
  eachM (List.zip ws vs) (fun p => atomItem ag bd f.toNat p.2 p.1)
  closeBuffers ag ws

theorem atomics_stills {ag : Agent} {vs : List Nat} : Stills (atomics ag bd f vs ws) := fun k =>
  Holds.bind (Holds.eachM fun _ => atomItem_stills k) fun _ => closeBuffers_stills k

theorem State.stance_of_kept {u v : State} (kept : v.kept = u.kept) : v.stance = u.stance := State.stance_of_still (State.still_of_kept kept)

theorem exec_atomv (issues : s.Issues .s h.qp h.tk) (unplanned : s.unplanned) (storing : s.Storing st t bd) (cooked : t.raw = false)
    (visible : t.shd = false) (count : cnt = min 1024 (t.total - t.pos)) (format : t.TakesAtomic f)
    (head : (s.cx.sqAt n.toNat).head? = some img)
    (checked : itemsCheck s.agent 1 st t bd .atomic (t.byLane (elemItems t bd ((lanesOf img).take cnt) [])) (s.started .s h.tk) = .ok ws s2)
    (performed : atomics s.agent bd f ((lanesOf img).take cnt) ws (s2.rel c) = .ok () s3) :
    exec (.atomv h c st n f) s = .next ((((s3.acq c).sqTaken n).atPos st (t.pos + cnt)).retired .s h.tk 1) := by
  have same : (((s3.acq c).sqTaken n).atPos st (t.pos + cnt)).stance = (s.started .s h.tk).stance :=
    calc (((s3.acq c).sqTaken n).atPos st (t.pos + cnt)).stance = s3.stance :=
          (State.stance_sqTaken_atPos ..).trans (State.stance_of_kept (State.kept_acq ..))
      _ = s2.stance := (State.stance_of_still (atomics_stills.ok performed)).trans (State.stance_of_kept (State.kept_rel ..))
      _ = (s.started .s h.tk).stance := stance_of_flown (itemsCheck_ok s.agent_srce_ne_epilogue checked)
  refine runS_transfer issues ?_ same
  rw [storeStart_bind (unplanned.started ..) (storing.started ..) (format.allowed cooked visible)]
  dsimp only
  rw [headSq_bind (by rwa [State.started_sqAt]), get_run, State.started_agent, ← count, bind_ok checked, relOf_bind]
  obtain ⟨⟨⟩, s3', each, closed⟩ := of_bind_ok performed
  rw [bind_ok each, bind_ok closed, bind_ok (acqOf_run ..)]
  exact takeSq_run ..

/-! ## AMOS -/

/-- An access of one part of memory whose checks pass passes each of them. -/
theorem checkAccess_one {ag : Agent} {k : Acc} {va : DWord} {m : Nat} {g : Seg} (checked : checkAccess ag k va m s = .ok [g] s1)
    (memory : g.tr.spad = false) : ∃ u v w, pages ag k va m s = .ok [g] u ∧ homeCheck k [g] u = .ok () v ∧
      eachM [g] (tagCheck k) v = .ok () w ∧ watchCheck ag k va m w = .ok () s1 := by
  unfold checkAccess at checked
  obtain ⟨segs, u, passed, checked⟩ := of_bind_ok checked
  obtain ⟨⟨⟩, u1, reach, checked⟩ := of_bind_ok checked
  obtain ⟨⟨⟩, v, home, checked⟩ := of_bind_ok checked
  obtain ⟨⟨⟩, w, tags, checked⟩ := of_bind_ok checked
  obtain ⟨⟨⟩, x, watch, checked⟩ := of_bind_ok checked
  cases checked
  have same : reachCheck ag [g] u = .ok () u := reachCheck_memory fun x hx => List.mem_singleton.1 hx ▸ memory
  cases same.symm.trans reach
  exact ⟨u, v, w, passed, home, tags, watch⟩

/-- An access to memory of this device, or one that has been answered, waits for no reply (09 R259). -/
theorem awaitReply_here {ag : Agent} {pol : Nat} {k : Acc} {g : Seg} (memory : g.tr.spad = false)
    (here : g.tr.home = s.dev ∨ ag.acked = true) : awaitReply ag pol k [g] s = .ok () s := by
  unfold awaitReply
  rw [get_run]
  refine congrFun (if_pos ?_) s
  rcases here with home | acked
  · simp [Seg.elsewhere, memory, home]
  · rw [acked, Bool.true_or]

theorem scalarTransfer_run {m : M Unit} (run : m s = .ok () s1) : scalarTransfer m s = .ok () s1 := by
  unfold scalarTransfer
  rw [run]

theorem State.stands_withZ (s : State) (n : BitVec 4) (v : DWord) : s.Stands .s (s.withZ n v) := by
  unfold State.withZ Ctx.wz
  split <;> exact ⟨rfl, rfl, rfl, rfl⟩

@[simp] theorem State.started_rz (s : State) (q : SeqId) (tk : BitVec 3) (i : BitVec 4) : (s.started q tk).cx.rz i = s.cx.rz i :=
  Ctx.takenBy_rz ..

theorem exec_amos {m old : Nat} {g : Seg} (issues : s.Issues .s h.qp h.tk) (unplanned : s.unplanned) (size : m = if z = 1 then 4 else 8)
    (aligned : (s.cx.rz a).toNat % m = 0) (checked : checkAccess s.agent .atomic (s.cx.rz a) m (s.started .s h.tk) = .ok [g] s1)
    (memory : g.tr.spad = false) (here : g.tr.home = s.dev ∨ s.cx.seqS.acked = true)
    (performed : amoAt s.agent g op.toNat m ((s.cx.rz d).toNat % 2 ^ (8 * m)) ((s.cx.rz b).toNat % 2 ^ (8 * m)) (s1.rel so) = .ok old s2) :
    exec (.amos h d a b z so op) s = .next ((State.acq so (s2.withZ d (BitVec.ofNat 64 old))).retired .s h.tk 2) := by
  have kept1 : s1.kept = (s.started .s h.tk).kept := (checkAccess_keeps _ _ _ _).ok checked
  have kept2 : s2.kept = (s.started .s h.tk).kept := ((amoAt_keeps _ _ _ _ _ _).ok performed).trans ((State.kept_rel ..).trans kept1)
  have answered : g.tr.home = s1.dev ∨ s.agent.acked = true := by
    have dev : s1.dev = (s.started .s h.tk).dev := State.dev_of_kept kept1
    have acked : s.agent.acked = s.cx.seqS.acked := by
      unfold State.agent
      rw [issues.focus]
      rfl
    rw [dev, acked]
    exact here
  refine runS_stands issues (scalarTransfer_run ?_)
    (((State.stands_of_kept kept2 .s).trans (State.stands_withZ ..)).of_kept (State.kept_acq ..))
  obtain ⟨u, v, w, passed, home, tags, watch⟩ := checkAccess_one checked memory
  have inMemory : [g].any (fun g => g.tr.spad) = false := by simp [memory]
  rw [replayable_bind (unplanned.started ..), get_run]
  dsimp only
  rw [← size, State.started_rz, if_neg (not_not.2 aligned), State.started_agent, bind_ok passed, inMemory, if_neg Bool.false_ne_true,
    bind_ok home, bind_ok tags, bind_ok watch, bind_ok (awaitReply_here memory answered), relOf_bind]
  dsimp only
  rw [State.started_rz, State.started_rz, bind_ok performed, modCx_bind, acqOf_run]
  rfl

/-- Settles O36: ATOMV passes the rows of a store, and its atomics follow its release; AMOS is a checked access whose part it computes on. -/
theorem storeAtomicsComplete : Obligations.StoreAtomicsComplete := by
  unfold Obligations.StoreAtomicsComplete
  intro s s1 s2 s3 h c st n d a b f z so op issues unplanned
  refine ⟨?_, ?_⟩
  · rintro t bd img items ws cnt storing cooked visible count format head rfl checked performed
    exact exec_atomv issues unplanned storing cooked visible count format head checked performed
  · intro g old m aligned checked memory here performed
    exact exec_amos issues unplanned rfl aligned checked memory here performed

end Sys2Proof.Machine
end

section

/-! PROOFS. SHOPEN, PUBLISH and BDRAIN (09 R273 to R276; 04 R127 to R129). -/

namespace Sys2Proof.Machine

variable {s u : State} {h : Hq} {a b st : BitVec 4} {c : BitVec 3} {ps : List (DWord × Tr)}

theorem State.stands_refl (q : SeqId) (s : State) : s.Stands q s := ⟨rfl, rfl, rfl, rfl⟩

theorem State.Stands.withMem {q : SeqId} (stands : s.Stands q u) (m : Memory) : s.Stands q { u with mem := m } :=
  ⟨stands.id, stands.tok, stands.seq, stands.cur⟩

/-- A change of each element in turn is a fold. -/
theorem eachM_modify {α : Type} (f : State → α → State) (xs : List α) (s : State) :
    eachM xs (fun x => modify (fun s => f s x)) s = .ok () (xs.foldl f s) := by
  induction xs generalizing s with
  | nil => rfl
  | cons x xs ih => exact ih (f s x)

theorem foldl_stands {α : Type} {q : SeqId} {f : State → α → State} (each : ∀ (s : State) x, s.Stands q (f s x)) (xs : List α) (s : State) :
    s.Stands q (xs.foldl f s) := foldl_keeps (s.Stands q) f (fun t x stands => stands.trans (each t x)) xs (s.stands_refl q)

/-! ## The pages of a range -/

/-- The pages of a range of shadowed memory opened (04 R127). -/
def openPage (entry : Nat) (s : State) : State := losePage entry { s with mem := setShadowState s.mem entry 1 false }

theorem openPage_stands (q : SeqId) (entry : Nat) (s : State) : s.Stands q (openPage entry s) := ⟨rfl, rfl, rfl, rfl⟩

theorem dropPage_stands (q : SeqId) (page : Nat) (s : State) : s.Stands q (dropPage page s) :=
  State.stands_of_kept (kept_dropLines _ s) q

theorem publishPage_stands (q : SeqId) (entry : Nat) (s : State) : s.Stands q (publishPage entry s) := by
  have lost : s.Stands q (losePage entry s) := ⟨rfl, rfl, rfl, rfl⟩
  have dropped : ∀ x y, s.Stands q (dropPage x (dropPage y (losePage entry s))) := fun x y =>
    (lost.trans (dropPage_stands q y _)).trans (dropPage_stands q x _)
  unfold publishPage
  dsimp only
  split
  · exact dropped _ _
  · exact (dropped _ _).withMem _
  · exact (dropped _ _).withMem _

/-- The pages of a range opened, one after another (09 R274). -/
def openPages (ps : List (DWord × Tr)) (s : State) : State := ps.foldl (fun s p => openPage p.2.entry s) s

theorem openPages_stands (q : SeqId) (ps : List (DWord × Tr)) (s : State) : s.Stands q (openPages ps s) :=
  foldl_stands (f := fun s (p : DWord × Tr) => openPage p.2.entry s) (fun s p => openPage_stands q p.2.entry s) ps s

/-- The pages of a range published, one after another (09 R275). -/
def publishPages (ps : List (DWord × Tr)) (s : State) : State := ps.foldl (fun s p => publishPage p.2.entry s) s

theorem publishPages_stands (q : SeqId) (ps : List (DWord × Tr)) (s : State) : s.Stands q (publishPages ps s) :=
  foldl_stands (f := fun s (p : DWord × Tr) => publishPage p.2.entry s) (fun s p => publishPage_stands q p.2.entry s) ps s

/-- What PUBLISH does with the pages of its range: LDZs that have begun to deliver are finished, and the release comes first. -/
def publishOp (c : BitVec 3) (ps : List (DWord × Tr)) : M Unit := do
  modify State.finishChunks
  release c.toNat
  eachM ps (fun p => modify (publishPage p.2.entry))

theorem publishOp_run (c : BitVec 3) (ps : List (DWord × Tr)) (s : State) :
    publishOp c ps s = .ok () (publishPages ps (s.finishChunks.released c.toNat)) := by
  unfold publishOp publishPages
  rw [modify_bind, bind_ok (release_run ..), eachM_modify (fun s (p : DWord × Tr) => publishPage p.2.entry s) ps]

/-- SHOPEN and PUBLISH (09 R273): nothing over a length of 0, else the checks of the range and what the word does with its pages. -/
def shadowOp (a b : BitVec 4) (rest : List (DWord × Tr) → M Unit) : M Unit := do
  replayable
  let s ← get
  if s.cx.rz b = 0 then pure ()
  else do
    let ps ← shadowRange (s.cx.rz a) (s.cx.rz b).toNat
    rest ps

section
variable (issues : s.Issues .s h.qp h.tk) (unplanned : s.unplanned) {rest : List (DWord × Tr) → M Unit}
include issues unplanned

theorem runS_shadowOp_empty (zero : s.cx.rz b = 0) : runS h 1 (shadowOp a b rest) s = .next (s.does .s h.tk 1 id) := by
  refine runS_stands issues ?_ (State.stands_refl ..)
  unfold shadowOp
  rw [replayable_bind (unplanned.started ..), get_run, State.started_rz, if_pos zero]
  rfl

theorem runS_shadowOp (nonempty : s.cx.rz b ≠ 0)
    (range : shadowRange (s.cx.rz a) (s.cx.rz b).toNat (s.started .s h.tk) = .ok ps (s.started .s h.tk))
    (run : rest ps (s.started .s h.tk) = .ok () u) (stands : (s.started .s h.tk).Stands .s u) :
    runS h 1 (shadowOp a b rest) s = .next (u.retired .s h.tk 1) := by
  refine runS_stands issues ?_ stands
  unfold shadowOp
  rw [replayable_bind (unplanned.started ..), get_run, State.started_rz, State.started_rz, if_neg nonempty, bind_ok range, run]

theorem exec_shopen_range (nonempty : s.cx.rz b ≠ 0)
    (range : shadowRange (s.cx.rz a) (s.cx.rz b).toNat (s.started .s h.tk) = .ok ps (s.started .s h.tk)) :
    exec (.shopen h a b) s = .next (s.does .s h.tk 1 (openPages ps)) :=
  runS_shadowOp issues unplanned nonempty range (eachM_modify _ ps _) (openPages_stands .s ps _)

theorem exec_publish_range (nonempty : s.cx.rz b ≠ 0)
    (range : shadowRange (s.cx.rz a) (s.cx.rz b).toNat (s.started .s h.tk) = .ok ps (s.started .s h.tk))
    (finished : (s.started .s h.tk).Stands .s (s.started .s h.tk).finishChunks) :
    exec (.publish h a b c) s = .next ((publishPages ps ((s.started .s h.tk).finishChunks.released c.toNat)).retired .s h.tk 1) :=
  runS_shadowOp (rest := publishOp c) issues unplanned nonempty range (publishOp_run c ps _)
    ((finished.of_kept (kept_released _ _)).trans (publishPages_stands .s ps _))
end

/-! ## BDRAIN -/

@[simp] theorem Ctx.takenBy_nextTile (c : Ctx) (q : SeqId) (tk : BitVec 3) : (c.takenBy q tk).nextTile = c.nextTile := by
  unfold Ctx.takenBy
  split <;> simp

theorem drainUpTo_started (s : State) (q : SeqId) (tk : BitVec 3) : drainUpTo (s.started q tk) = drainUpTo s := by
  simp [State.started, drainUpTo]

theorem drainPending_started (s : State) (q : SeqId) (tk : BitVec 3) (upTo : Nat × Nat) :
    drainPending (s.started q tk).cx st upTo = drainPending s.cx st upTo := by
  simp [State.started, drainPending]

theorem exec_bdrain {t : Stream} {bd : Binding} (issues : s.Issues .s h.qp h.tk) (bound : s.Bound st true t bd)
    (drained : drainPending s.cx st (drainUpTo s) = false) : exec (.bdrain h st) s = .next (s.does .s h.tk 1 id) := by
  refine runS_stands issues (withTrap_ok ?_) (State.stands_refl ..)
  rw [boundFor_bind (bound.started ..), get_run, drainUpTo_started, drainPending_started, drained]
  rfl

/-- Settles O37: SHOPEN and PUBLISH change the pages of their range one after another; a BDRAIN with nothing to wait for goes on. -/
theorem shadowInstructionsComplete : Obligations.ShadowInstructionsComplete := by
  unfold Obligations.ShadowInstructionsComplete
  intro s h a b st c ps issues
  exact ⟨fun unplanned zero => ⟨runS_shadowOp_empty issues unplanned zero, runS_shadowOp_empty issues unplanned zero⟩,
    fun unplanned nonempty range => ⟨exec_shopen_range issues unplanned nonempty range, exec_publish_range issues unplanned nonempty range⟩,
    fun t bd => exec_bdrain issues⟩

end Sys2Proof.Machine
end

section

/-! PROOFS. The bank's registers, WIN, WACC.epi and MFS of C (06 R171; 10 R299 to R302, R308, R312, R313). -/

namespace Sys2Proof.Machine

variable {s : State} {h : Hd} {f : Ctx → Ctx} {op : M Unit} {words : Nat} {tk : BitVec 3}

/-- Settles O41: each word has the row of its family. -/
theorem bankRegistersComplete : Obligations.BankRegistersComplete := by
  unfold Obligations.BankRegistersComplete
  intro s i r row issues
  exact exec_bundled_of_family (by simp [contextFamilies]) row issues

/-! ## A lone word of C that looks at the machine -/

/-- A lone word of C whose operation changes the context in focus, where that leaves the token queues. -/
theorem runC_does {truth : Ctx → Bool} (issues : s.IssuesC truth tk []) (tokens : ∀ c, (f c).tok = c.tok)
    (run : op (s.opened tk words) = .ok () { s.opened tk words with cx := f (s.opened tk words).cx }) :
    runC words truth tk op s = s.bundled tk words [] f :=
  runC_bundled issues run fun i => by unfold Ctx.tokens; rw [tokens]

/-- A lone word of the bank of a compute core that has recorded no fault. -/
theorem runBank_does (issues : s.IssuesC (fun c => c.seqC.rq h.qp) h.tk []) (compute : s.cx.onBcast = false) (quiet : s.cx.deferred = [])
    (tokens : ∀ c, (f c).tok = c.tok)
    (run : op (s.opened h.tk words) = .ok () { s.opened h.tk words with cx := f (s.opened h.tk words).cx }) :
    runBank h words op s = .next (s.bundled h.tk words [] f) := by
  refine congrArg Host.Outcome.next (runC_does issues tokens ?_)
  have here : (s.opened h.tk words).cx.onBcast = false := (congrArg (· == _) (congrArg CtxId.lcore (Ctx.takenBy_id ..))).trans compute
  rw [bind_ok (raiseBank_ok (t := s.opened h.tk words) quiet), get_run, here]
  exact run

theorem State.opened_wordPc (focus : s.cur = .c) : (s.opened tk words).wordPc = s.cx.seqC.pc := by
  have here : (s.opened tk words).cur = .c := focus
  unfold State.wordPc
  rw [here]
  exact (BitVec.add_zero _).trans (congrArg SeqState.pc (s.started_seq ..))

@[simp] theorem State.opened_operands (s : State) (tk : BitVec 3) (words : Nat) : (s.opened tk words).operands = s.cx := rfl

@[simp] theorem Ctx.takenBy_placed (c : Ctx) (q : SeqId) (tk : BitVec 3) : (c.takenBy q tk).placed = c.placed := by simp [Ctx.placed]
@[simp] theorem Ctx.takenBy_core (c : Ctx) (q : SeqId) (tk : BitVec 3) : (c.takenBy q tk).core = c.core := by simp [Ctx.core]

/-- Taking a token leaves the windows of every core. -/
theorem State.windowsOn_opened (core : Nat × Nat) : (s.opened tk words).windowsOn core = s.windowsOn core := by
  unfold State.windowsOn
  rw [show (s.opened tk words).ctxs = s.cx.takenBy .c tk :: s.others from rfl, State.ctxs, List.filter_cons, List.filter_cons,
    Ctx.takenBy_placed, Ctx.takenBy_core]
  split <;> simp

theorem Ctx.accAt_takenBy (c : Ctx) (q : SeqId) (tk : BitVec 3) (a : BitVec 4) : (c.takenBy q tk).accAt a = c.accAt a := by
  unfold Ctx.accAt
  rw [Ctx.takenBy_acc]

section
variable (s tk words)

@[simp] theorem State.opened_core : (s.opened tk words).cx.core = s.cx.core := Ctx.takenBy_core ..
@[simp] theorem State.opened_wins : (s.opened tk words).cx.wins = s.cx.wins := Ctx.takenBy_wins ..
@[simp] theorem State.opened_nextWin : (s.opened tk words).cx.nextWin = s.cx.nextWin := Ctx.takenBy_nextWin ..
@[simp] theorem State.opened_epi : (s.opened tk words).cx.epi = s.cx.epi := Ctx.takenBy_epi ..
@[simp] theorem State.opened_nextTile : (s.opened tk words).cx.nextTile = s.cx.nextTile := Ctx.takenBy_nextTile ..
@[simp] theorem State.opened_accAt (a : BitVec 4) : (s.opened tk words).cx.accAt a = s.cx.accAt a := Ctx.accAt_takenBy ..
@[simp] theorem State.opened_accDone (a : BitVec 4) : (s.opened tk words).cx.accDone a = s.cx.accFree a :=
  Ctx.accDone_of_bankView (Ctx.bankView_takenBy ..) a
@[simp] theorem State.opened_winRoom : (s.opened tk words).cx.winRoom = s.cx.winRoom := by
  unfold Ctx.winRoom
  rw [State.opened_wins]

end

/-! ## Rows 3 to 6 of 10 R301 -/

/-- An operation that goes on or stops, the same in every machine, and changes nothing. -/
def Verdict (m : M Unit) : Prop := m = pure () ∨ ∃ e, m = throw e

theorem Verdict.pure : Verdict (pure ()) := .inl rfl
theorem Verdict.fault (cause : Nat) : Verdict (fault cause) := .inr ⟨_, rfl⟩
theorem Verdict.require (b : Bool) (cause : Nat) : Verdict (require b cause) := by
  cases b with
  | true => exact .pure
  | false => exact .fault cause
theorem Verdict.bind {m : M Unit} {g : Unit → M Unit} (first : Verdict m) (rest : Verdict (g ())) : Verdict (m >>= g) := by
  obtain rfl | ⟨e, rfl⟩ := first
  · exact rest
  · exact .inr ⟨e, rfl⟩

/-- What goes on in one machine goes on in every other. -/
theorem Verdict.ok_of_ok {m : M Unit} {s t u : State} (verdict : Verdict m) (ok : m s = .ok () t) : m u = .ok () u := by
  obtain rfl | ⟨e, rfl⟩ := verdict
  · rfl
  · exact nomatch ok

/-- The rows of a descriptor's streams are checks of the context's stream registers alone. -/
theorem epiStreams_verdict (d : DWord) (s : State) : ∃ m, Verdict m ∧ ∀ t : State, t.cx.streams = s.cx.streams → epiStreams d t = m t := by
  refine ⟨?rows, ?verdict, fun t streams => ?reads⟩
  case reads =>
    unfold epiStreams
    rw [get_run]
    unfold Ctx.stream
    rw [streams]
  case verdict =>
    dsimp only
    repeat' split
    all_goals apply_rules [Verdict.bind, Verdict.require, Verdict.fault, Verdict.pure]

theorem epiStreams_opened {d : DWord} (ok : epiStreams d s = .ok () s) :
    epiStreams d (s.opened tk words) = .ok () (s.opened tk words) := by
  obtain ⟨m, verdict, rows⟩ := epiStreams_verdict d s
  rw [rows _ (Ctx.takenBy_streams ..)]
  exact verdict.ok_of_ok ((rows s rfl).symm.trans ok)

/-! ## WIN, WACC.epi and MFS of C -/

section
variable {c : BitVec 4} {e : BitVec 2} (issues : s.IssuesC (fun c => c.seqC.rq h.qp) h.tk []) (compute : s.cx.onBcast = false)
  (quiet : s.cx.deferred = [])
include issues compute quiet

theorem exec_waccEpi (free : s.cx.accFree c = true) (streams : epiStreams (s.cx.wep.get e) s = .ok () s) (room : s.cx.epi.length < 4) :
    let tile : EpiTile := { win := none, entry := s.cx.nextTile, step := s.clock, addr := s.cx.seqC.pc, b0 := 0, acc := c, ws := 0
                            epi := s.cx.wep.get e, bound := polBound s.cx.wpol, x := s.cx.accAt c, base := s.cx.pbase.toNat }
    exec (.waccEpi h c e) s = .next (s.bundled h.tk 1 [] (fun x => { x with epi := x.epi ++ [tile], nextTile := x.nextTile + 1 })) := by
  intro tile
  refine runBank_does issues compute quiet (fun _ => rfl) ?_
  have reached : accWait c (s.opened h.tk 1) = .ok () (s.opened h.tk 1) := by
    rw [accWait, get_run, State.opened_accDone, free, waitUnless_true]
  have place : (s.opened h.tk 1).cx.epi.length < epiLimit := (congrArg List.length (State.opened_epi ..)).trans_lt room
  rw [bind_ok reached, opsCx_bind, State.opened_operands, bind_ok (epiStreams_opened streams), get_run,
    waitUnless_bind (decide_eq_true place), modCx_run, State.opened_wordPc issues.focus, State.opened_accAt, State.opened_nextTile]
  rfl

/-- WIN passes the rows of 10 R301 in their order. -/
theorem exec_win {ws : BitVec 2} {ak : BitVec 4} {sh : BitVec 2} {first last rel : BitVec 1} {b0 : BitVec 20}
    (room : (s.cx.wins.filter (fun w => !w.flags.abort)).length < windowLimit) (offset : (s.cx.ra ak).toNat < 1024)
    (streams : last = 1 → epiStreams (s.cx.wep.get e) s = .ok () s) (planned : s.cx.pbase ≠ 0)
    (within : pastPlan b0.toNat (shapeSpan (s.cx.wsh.get sh)) = false)
    (ahead : s.clock + s.lead ≤ s.cx.pbase.toNat + b0.toNat)
    (clear : touchesCalibration (s.cx.pbase.toNat + b0.toNat) (shapeSpan (s.cx.wsh.get sh)) = false)
    (apart : ∀ w ∈ s.windowsOn s.cx.core,
      meets (s.cx.pbase.toNat + b0.toNat) (shapeSpan (s.cx.wsh.get sh)) w.stamp (shapeSpan w.shape) = false) :
    let w : Window := { serial := s.cx.nextWin, addr := s.cx.seqC.pc, base := s.cx.pbase.toNat, b0 := b0.toNat, ws := ws, acc := c
                        kofs := (s.cx.ra ak).toNat, shape := s.cx.wsh.get sh, epi := s.cx.wep.get e, pol := s.cx.wpol
                        first := first == 1, last := last == 1, rel := rel == 1 }
    exec (.win h ws c ak sh e first last rel b0) s =
      .next (s.bundled h.tk 2 [] (fun c => { c with wins := c.wins ++ [w], nextWin := c.nextWin + 1 })) := by
  intro w
  refine runBank_does issues compute quiet (fun _ => rfl) ?_
  rw [opsCx_bind, State.opened_operands, get_run]
  have place : (s.opened h.tk 2).cx.winRoom = true := (State.opened_winRoom ..).trans (decide_eq_true room)
  have rows : (if last = 1 then epiStreams (s.cx.wep.get e) else pure ()) (s.opened h.tk 2) = .ok () (s.opened h.tk 2) := by
    split
    · exact epiStreams_opened (streams ‹last = 1›)
    · rfl
  have based : (s.cx.pbase != 0 && !pastPlan b0.toNat (shapeSpan (s.cx.wsh.get sh))) = true := by
    rw [within, bne_iff_ne.2 planned]
    rfl
  have intime : (s.opened h.tk 2).clock + (s.opened h.tk 2).lead ≤ s.cx.pbase.toNat + b0.toNat := ahead
  have free : (!((s.opened h.tk 2).windowsOn (s.opened h.tk 2).cx.core).any (fun w =>
      meets (s.cx.pbase.toNat + b0.toNat) (shapeSpan (s.cx.wsh.get sh)) w.stamp (shapeSpan w.shape))) = true := by
    rw [State.opened_core, State.windowsOn_opened, Bool.not_eq_true', List.any_eq_false]
    exact fun w there => Bool.eq_false_iff.1 (apart w there)
  rw [waitUnless_bind place, require_bind (decide_eq_true offset), whenThen_run rows]
  dsimp only
  rw [require_bind based, require_bind (decide_eq_true intime), require_bind (congrArg (!·) clear), require_bind free, modCx_run,
    State.opened_wordPc issues.focus, State.opened_nextWin]

end

theorem exec_aMfs {h : Tl} {d : BitVec 4} {n : BitVec 9} (issues : s.IssuesC (fun _ => true) h.tk []) :
    exec (.aMfs h d n) s = .next (s.bundled h.tk 1 [] (fun c =>
      c.wa d (sysRead { s with cx := { s.cx with pbase := s.baseBefore } } n.toNat))) :=
  congrArg Host.Outcome.next (runC_does issues (fun _ => Ctx.wa_tok ..) rfl)

/-- Settles O42: a token that is taken changes nothing of what the rows of WIN and WACC.epi look at, nor of what MFS reads. -/
theorem windowsAndEpiloguesAreAccepted : Obligations.WindowsAndEpiloguesAreAccepted := by
  unfold Obligations.WindowsAndEpiloguesAreAccepted
  refine ⟨?win, fun s h c e => exec_waccEpi, fun s h d n => exec_aMfs⟩
  case win =>
    intro s h ws c ak sh e first last rel b0 issues compute quiet room offset streams planned span b within ahead clear apart
    exact exec_win issues compute quiet room offset streams planned within ahead clear apart

end Sys2Proof.Machine
end

section

/-! PROOFS. The windows of a context and the tiles of its epilogue at their steps (10 R282 to R289, R294, R302 to R306). -/

namespace Sys2Proof.Machine

variable {s u : State} {c : CtxId} {x : Ctx}

/-! ## Windows -/

/-- The next pass of a window whose plan runs on delivers its codes from its step on (10 R294). -/
theorem Window.pass_begins (w : Window) {clock : Nat} (runs : w.flags.abort = false) (more : w.passes < w.p)
    (due : w.stamp + w.passes * w.u + w.t + 8 ≤ clock) :
    (w.flags.abort || decide (w.p ≤ w.passes) || decide (clock < w.stamp + w.passes * w.u + w.t + 8)) = false := by
  simp [runs, more, due]

section
variable {n : Nat} {w : Window} {g : Staged} (there : s.ctx? c = some x) (found : x.win? n = some w)
include there found

theorem exec_windowAccumulate (due : w.lightEnd + 24 ≤ s.clock) :
    exec (.windowAccumulate c n) s = .next (s.updCtx c (fun x => x.accumulate w)) := by
  show Host.Outcome.next _ = _
  simp only [there, found, if_neg (Nat.not_lt.2 due)]

variable (runs : w.flags.abort = false)
include runs

theorem exec_windowStaging (fresh : w.stagingDone = false) (due : w.stamp ≤ s.clock + 32) :
    exec (.windowStaging c n) s = .next (s.updCtx c (fun x => match staging x w with
      | .error cause => x.invalidate w cause
      | .ok g =>
        let x := x.updWin n (fun w => { w with staged := some g })
        if w.rel then x.setSlot w.ws none else x)) := by
  have begins : (w.flags.abort || w.stagingDone || decide (s.clock + 32 < w.stamp)) = false := by simp [runs, fresh, due]
  show Host.Outcome.next _ = _
  simp only [there, found]
  exact congrArg Host.Outcome.next (if_neg (Bool.eq_false_iff.1 begins))

theorem exec_windowRescale (staged : w.staged = some g) (fresh : w.d = none) (due : w.lightEnd + 16 ≤ s.clock) :
    exec (.windowRescale c n) s = .next (s.updCtx c (fun x => x.updWin n (fun v => { v with d := some (w.c.zipIdx.map (fun v =>
      rescale v.1 (shapeSh w.shape) ((w.ea[v.2 / 8]?).getD 0) ((g.ew[v.2 % 8]?).getD 0))) }))) := by
  have begins : (w.flags.abort || w.d.isSome || decide (s.clock < w.lightEnd + 16)) = false := by simp [runs, fresh, due]
  show Host.Outcome.next _ = _
  simp only [there, found, begins, staged, Bool.false_eq_true, if_false]

section
variable (more : w.passes < w.p) (due : w.stamp + w.passes * w.u + w.t + 8 ≤ s.clock)
include more due

theorem exec_windowPass_dark (dark : s.light.find? (fun b => b.lights w w.passes) = none) : exec (.windowPass c n) s = .next
    { s.updCtx c (fun x => x.updWin n (fun _ => { w with flags := { w.flags with absent := true }, passes := w.passes + 1 })) with
      ticks := s.ticks + 256 } := by
  have begins := w.pass_begins runs more due
  show Host.Outcome.next _ = _
  simp only [there, found, begins, dark, Bool.false_eq_true, if_false]

theorem exec_windowPass_lit {b : Bcast} (lit : s.light.find? (fun b => b.lights w w.passes) = some b) (staged : w.staged = some g)
    (weighted : w.weighted w.passes = true) : exec (.windowPass c n) s = .next
    { s.updCtx c (fun x => x.updWin n (fun _ => { passCodes w g b w.passes s.ticks with passes := w.passes + 1 })) with
      ticks := s.ticks + 256 } := by
  have begins := w.pass_begins runs more due
  show Host.Outcome.next _ = _
  simp only [there, found, begins, lit, staged, weighted, Bool.false_eq_true, if_false, if_true]

end
end

/-! ## Tiles -/

theorem State.focus_of_id (here : s.cx.id = c) : s.focus c = s := if_pos here

/-- An operation of the epilogue of the context in focus that goes on. -/
theorem runTile_ok {i : Nat} {e : EpiTile} {op : M Unit} (here : s.cx.id = c) (run : op s = .ok () u) : runTile c i e op s = u.focus c := by
  unfold runTile
  rw [State.focus_of_id here, here]
  simp only [run]

/-- One of two operations, then another. -/
theorem iteThen_run {α β : Type} {p : Prop} [Decidable p] {m n : M α} {a : α} (start : (if p then m else n) s = .ok a u) (g : α → M β) :
    (if p then m >>= g else n >>= g) s = g a u := by
  by_cases first : p
  · rw [if_pos first] at start ⊢
    exact bind_ok start
  · rw [if_neg first] at start ⊢
    exact bind_ok start

section
variable {e : EpiTile} {rest : List EpiTile} (there : s.ctx? c = some x) (active : s.isActive x = true) (head : x.epi = e :: rest)

include there active head in
theorem State.tileOf_head : s.tileOf c = some (x, e) := by
  unfold State.tileOf
  simp only [there, active, head, Bool.true_or, if_true, List.head?_cons, Option.map_some]

/-- What the bias and the activation make of the elements of a tile (10 R303, R304). -/
def EpiTile.shapedBy (e : EpiTile) (bias : List Nat) (c : Ctx) : List Nat :=
  let biased := if epiBen e.epi then e.x.zipIdx.map (fun v => fp32.add v.1 ((bias[v.2 % 8]?).getD 0)) else e.x
  if epiAen e.epi then biased.map (activate (c.actTable (epiAct e.epi))) else biased

include there active head in
theorem exec_epilogueTile {bias : List Nat} (here : s.cx.id = c) (running : s.freezing c = false) (raw : e.shaped = false)
    (read : if epiBen e.epi then readBias e (epiBs e.epi) s = .ok bias u else bias = [] ∧ u = s) :
    exec (.epilogueTile c) s = .next (State.focus { u with cx := { u.cx with
      epi := modAt u.cx.epi 0 (fun v => { v with x := e.shapedBy bias u.cx, shaped := true, sent := false, acked := false }) } } c) := by
  have first : s.shapeNext c x = 0 := by unfold State.shapeNext; rw [running]; rfl
  have at0 : x.epi[0]? = some e := by rw [head]; rfl
  have biases : (if epiBen e.epi then readBias e (epiBs e.epi) else pure []) s = .ok bias u := by
    split at read
    case isTrue wanted => rwa [if_pos wanted]
    case isFalse plain =>
      obtain ⟨rfl, rfl⟩ := read
      rw [if_neg plain, pure_run]
  refine congrArg Host.Outcome.next ?_
  simp only [State.tileOf_head there active head, first, at0, raw, Bool.false_eq_true, if_false]
  exact runTile_ok here (iteThen_run biases _)

include there active head in
theorem exec_epilogueOutput_oq (shaped : e.shaped = true) (queue : epiOut e.epi = false) (room : x.oq.length < 4) :
    exec (.epilogueOutput c) s = .next (s.updCtx c (fun x => ({ x with oq := x.oq ++ [imageOf e.x] } : Ctx).popTile false)) := by
  have space : x.oq.length < oqLimit := room
  show Host.Outcome.next _ = _
  simp only [State.tileOf_head there active head, shaped, queue, space, Bool.not_true, Bool.false_eq_true, if_false, if_true]

include there active head in
theorem exec_epilogueOutput_stream (here : s.cx.id = c) (shaped : e.shaped = true) (stream : epiOut e.epi = true)
    (run : writeTile e s = .ok () u) (stays : u.cx.id = c) : exec (.epilogueOutput c) s = .next u := by
  show Host.Outcome.next _ = _
  simp only [State.tileOf_head there active head, shaped, stream, Bool.not_true, Bool.false_eq_true, if_false, if_true,
    runTile_ok here run, State.focus_of_id stays]

variable (overdue : s.tileOverdue x = some e)

include there overdue in
theorem exec_epilogueTimeout_drops (unsent : (e.shaped && epiOut e.epi) = false) :
    exec (.epilogueTimeout c) s = .next (s.updCtx c (fun x => x.timeoutTile e)) := by
  show Host.Outcome.next _ = _
  simp only [there, Option.bind_some, overdue, unsent, Bool.false_eq_true, if_false]

include there overdue in
theorem exec_epilogueTimeout_performs (here : s.cx.id = c) (shaped : e.shaped = true) (stream : epiOut e.epi = true)
    (run : writeTile { e with acked := true } { s with cx := s.cx.deferTile e { cause := 0x310 } } = .ok () u) (stays : u.cx.id = c) :
    exec (.epilogueTimeout c) s = .next u := by
  have deferred : s.updCtx c (fun x => x.deferTile e { cause := 0x310 }) = { s with cx := s.cx.deferTile e { cause := 0x310 } } := if_pos here
  have sends : (e.shaped && epiOut e.epi) = true := by rw [shaped, stream]; rfl
  refine congrArg Host.Outcome.next ?_
  simp only [there, Option.bind_some, overdue, sends, if_true, deferred]
  exact (runTile_ok (s := { s with cx := s.cx.deferTile e { cause := 0x310 } }) here run).trans (State.focus_of_id stays)

end

/-- Settles O48: an event of a window is found in its context; one of a tile works on the head of the queue, in the context in focus. -/
theorem windowsAndTilesProceed : Obligations.WindowsAndTilesProceed := by
  unfold Obligations.WindowsAndTilesProceed
  intro s c x there
  refine ⟨fun n w found runs => ⟨?staging, fun more due => ⟨?dark, fun b g => ?lit⟩, fun g => ?rescale, ?accumulate⟩,
    fun e rest active head => ⟨?shape, ?queue, fun overdue => ⟨?drop, fun u => ?perform⟩, fun u => ?output⟩⟩
  case staging => exact exec_windowStaging there found runs
  case dark => exact exec_windowPass_dark there found runs more due
  case lit => exact exec_windowPass_lit there found runs more due
  case rescale => exact exec_windowRescale there found runs
  case accumulate => exact exec_windowAccumulate there found
  case shape => exact fun bias u => exec_epilogueTile there active head
  case queue => exact exec_epilogueOutput_oq there active head
  case drop => exact exec_epilogueTimeout_drops there overdue
  case perform => exact fun shaped stream here => exec_epilogueTimeout_performs there overdue here shaped stream
  case output => exact exec_epilogueOutput_stream there active head

end Sys2Proof.Machine
end

section

/-! PROOFS. A word of the broadcast core's C as a bundle of its own: it completes, or waits for its plan (08 R231; 11 R323, R325). -/

namespace Sys2Proof.Machine

variable {s t u : State} {h : Hd} {tk : BitVec 3} {words : Nat} {op : M Unit} {f : Ctx → Ctx} {p : Option Plan} {e : BitVec 4} {q : List Plan}

theorem State.IssuesC.shared (issues : s.IssuesC (fun c => c.seqC.rq h.qp) h.tk []) : s.IssuesShared .c h :=
  ⟨issues.focus, issues.alone, issues.holds, issues.token, issues.room⟩

@[simp] theorem State.opened_id (s : State) (tk : BitVec 3) (words : Nat) : (s.opened tk words).cx.id = s.cx.id := Ctx.takenBy_id ..

@[simp] theorem State.opened_onBcast (s : State) (tk : BitVec 3) (words : Nat) : (s.opened tk words).cx.onBcast = s.cx.onBcast := by
  unfold Ctx.onBcast
  rw [State.opened_id]

/-- On the broadcast core a word of its C has its effect. -/
theorem onBcast_run (bcast : s.cx.onBcast = true) : (do let s ← get; if s.cx.onBcast then op else fault 0x011 : M Unit) s = op s :=
  congrFun (if_pos bcast) s

section
variable (issues : s.IssuesC (fun c => c.seqC.rq h.qp) h.tk []) (bcast : s.cx.onBcast = true)
include issues bcast

/-- A word of the broadcast core whose effect goes on completes. -/
theorem runBcast_closed (run : op (s.opened h.tk words) = .ok () u) (bun : u.bun = (s.opened h.tk words).bun)
    (tok : u.cx.tok = (s.opened h.tk words).cx.tok) : runBcast h words op s = .next (s.closed h.tk words u) := by
  have same : ({ u with bun := some (loneBundle s h.tk words []) } : State) = u :=
    congrArg (fun b => ({ u with bun := b } : State)) bun.symm
  refine congrArg Host.Outcome.next (runC_ok (u := u) (c2 := u.cx) issues ?_ fun i hp => ?_)
  · exact (onBcast_run ((s.opened_onBcast h.tk words).trans bcast)).trans (run.trans (congrArg (EStateM.Result.ok ()) same.symm))
  · unfold Ctx.tokens
    rw [tok]
    exact issues.shared.room_started hp

/-- One that changes its context, the plan and the mask of the ports. -/
theorem runBcast_bundled (tokens : ∀ c, (f c).tok = c.tok)
    (run : op (s.opened h.tk words) = .ok () { s.opened h.tk words with cx := f (s.opened h.tk words).cx, plan := p, exportMask := e }) :
    runBcast h words op s = .next { s.bundled h.tk words [] f with plan := p, exportMask := e } := by
  rw [runBcast_closed issues bcast run rfl (tokens _)]
  refine congrArg Host.Outcome.next ?_
  refine congrArg (fun b => ({ s.bundled h.tk words [] f with plan := p, exportMask := e, bun := b } : State)) issues.alone.symm

end

/-- A lone word that waits for its plan notes that, and keeps what it has done. -/
theorem slot_waits_plan (issues : s.IssuesShared .c h) (run : op (s.opened h.tk words) = .error (.wait .plan) u) :
    slot true h.tk op (s.openBundle words) = { u with bun := u.bun.map (·.waitsOn .plan) } := by
  have effect (note : (Bundle → Bundle) → State → State) (post : State → State) (v : State) (waits : op v = .error (.wait .plan) u) :
      slot.effect true op note post v = note (·.waitsOn .plan) u := by
    unfold slot.effect
    rw [if_pos rfl, waits]
  unfold State.opened State.started Ctx.takenBy at run
  unfold slot State.openBundle
  dsimp only
  cases hw : s.cx.openField .c h.tk with
  | none =>
    rw [hw] at run
    exact effect _ _ _ run
  | some i =>
    rw [hw] at run
    dsimp only
    rw [if_neg (Nat.pos_iff_ne_zero.1 (issues.token i hw))]
    exact effect _ _ _ run

theorem endBundle_waits_plan {s0 : State} (b : Bundle) (holds : u.bun = some (b.waitsOn .plan)) (gets : b.gets = []) (waits : b.waits = [])
    (traps : b.traps = []) : endBundle s0 u = ({ u with cx := s0.cx, bun := none } : State).waitAt b.off .plan := by
  unfold endBundle
  rw [holds]
  dsimp only
  rw [takeGets_none _ (b.waitsOn .plan) gets]
  unfold Bundle.waitsOn
  dsimp only
  rw [waits, traps]
  rfl

section
variable (issues : s.IssuesC (fun c => c.seqC.rq h.qp) h.tk []) (bcast : s.cx.onBcast = true)
include issues bcast

/-- A word of the broadcast core that waits for its plan keeps what it has done of the plan, and nothing else. -/
theorem runBcast_awaits (run : op (s.opened h.tk words) = .error (.wait .plan) { s.opened h.tk words with plan := p, snapshots := q }) :
    runBcast h words op s = .next (({ s with plan := p, snapshots := q } : State).waitAt 0 .plan) := by
  have truth : s.cx.seqC.rq h.qp = true := issues.holds
  have here := (onBcast_run ((s.opened_onBcast h.tk words).trans bcast)).trans run
  unfold runBcast runCq runC
  rw [if_neg (not_not.2 issues.focus), issues.alone]
  dsimp only
  rw [truth, slot_waits_plan issues.shared here, endBundle_waits_plan (loneBundle s h.tk words []) rfl rfl rfl rfl]
  rfl

end

end Sys2Proof.Machine
end

section

/-! PROOFS. PLANB, PLANE and FIBEX (11 R323 to R325, R330, R334). -/

namespace Sys2Proof.Machine

variable {s : State} {h : Hd} {d : BitVec 4} {p : Plan}

/-! ## The plan that a word finds -/

@[simp] theorem State.opened_stoppedForPlan (s : State) (tk : BitVec 3) (words : Nat) :
    (s.opened tk words).cx.stoppedForPlan = s.cx.stoppedForPlan := by
  have same : (s.opened tk words).cx.unfinished = s.cx.unfinished := by
    funext q
    have seq : (s.opened tk words).cx.seq q = s.cx.seq q := s.started_seq ..
    have remote : (s.opened tk words).cx.remote = s.cx.remote := s.started_remote ..
    unfold Ctx.unfinished
    rw [seq, remote]
  unfold Ctx.stoppedForPlan
  rw [same]

@[simp] theorem Ctx.takenBy_planeDone (c : Ctx) (q : SeqId) (tk : BitVec 3) : (c.takenBy q tk).planeDone = c.planeDone := by
  unfold Ctx.takenBy Ctx.setTokens
  split
  · split <;> rfl
  · rfl

@[simp] theorem State.opened_planeDone (s : State) (tk : BitVec 3) (words : Nat) : (s.opened tk words).cx.planeDone = s.cx.planeDone :=
  Ctx.takenBy_planeDone ..

@[simp] theorem State.opened_myPlan (s : State) (tk : BitVec 3) (words : Nat) : (s.opened tk words).myPlan = s.myPlan := by
  unfold State.myPlan
  rw [State.opened_id]
  rfl

theorem State.myPlan_none (free : s.plan = none) : s.myPlan = none := by
  unfold State.myPlan
  rw [free]
  rfl

theorem State.myPlan_own (there : s.plan = some p) (own : p.launch = s.cx.id.launch) : s.myPlan = some p := by
  unfold State.myPlan
  rw [there]
  simp [own]

theorem State.myPlan_other (there : s.plan = some p) (other : p.launch ≠ s.cx.id.launch) : s.myPlan = none := by
  unfold State.myPlan
  rw [there]
  simp [other]

theorem State.parkPlan_none (free : s.plan = none) : s.parkPlan = s := by
  unfold State.parkPlan
  rw [free]

theorem State.parkPlan_stopping (there : s.plan = some p) (phase : p.phase = .stopping) : s.parkPlan = { s with plan := none } := by
  unfold State.parkPlan
  rw [there]
  exact if_pos phase

theorem State.parkPlan_opening (there : s.plan = some p) (phase : p.phase = .opening) :
    s.parkPlan = { s with plan := none, snapshots := s.snapshots ++ [p] } := by
  unfold State.parkPlan
  rw [there]
  dsimp only
  rw [phase]
  rfl

theorem State.parkPlan_keeps (there : s.plan = some p) (begun : p.phase ≠ .stopping) (taken : p.phase ≠ .opening) : s.parkPlan = s := by
  unfold State.parkPlan
  rw [there]
  exact (if_neg begun).trans (if_neg taken)

/-- The snapshot that PLANB takes (11 R323). -/
def Ctx.planSnapshot (c : Ctx) : Ctx := { c with seqC := { c.seqC with waited := 0, awaiting := none } }

/-- PLANB opens its plan where L, S and K have stopped, and stops them where they have not. -/
def State.planBegun (snap : Ctx) (s : State) : State :=
  if s.cx.stoppedForPlan then beginPlan snap s
  else { s with plan := some { launch := s.cx.id.launch, snapshot := snap, waves := [], phase := .stopping } }

/-- What PLANB begins is of the plan alone. -/
theorem State.planBegun_frame (snap : Ctx) (s : State) :
    s.planBegun snap = { s with plan := (s.planBegun snap).plan, snapshots := (s.planBegun snap).snapshots } := by
  unfold State.planBegun
  split <;> rfl

/-- What PLANB begins does not depend on its token and its bundle. -/
theorem State.opened_planBegun (snap : Ctx) (s : State) (tk : BitVec 3) (words : Nat) (p : Option Plan) (q : List Plan) :
    let t : State := { s with plan := p, snapshots := q }
    ({ s.opened tk words with plan := p, snapshots := q } : State).planBegun snap =
      { s.opened tk words with plan := (t.planBegun snap).plan, snapshots := (t.planBegun snap).snapshots } := by
  intro t
  have stop : ({ s.opened tk words with plan := p, snapshots := q } : State).cx.stoppedForPlan = t.cx.stoppedForPlan :=
    s.opened_stoppedForPlan tk words
  unfold State.planBegun
  rw [stop]
  split
  · rfl
  · rw [show ({ s.opened tk words with plan := p, snapshots := q } : State).cx.id = t.cx.id from s.opened_id tk words]

section
variable (issues : s.IssuesC (fun c => c.seqC.rq h.qp) h.tk []) (bcast : s.cx.onBcast = true)
include issues bcast

/-- PLANB of a launch without a plan, once the plan of another has given way (11 R336). -/
theorem exec_planb_begins {q : List Plan} (mine : s.myPlan = none)
    (parked : (s.opened h.tk 1).parkPlan = { s.opened h.tk 1 with plan := none, snapshots := q }) :
    exec (.planb h d) s = .next ((({ s with plan := none, snapshots := q } : State).planBegun s.cx.planSnapshot).waitAt 0 .plan) := by
  rw [State.planBegun_frame]
  refine runBcast_awaits issues bcast ?_
  rw [← State.opened_planBegun, opsCx_bind, get_run, State.opened_myPlan, mine]
  dsimp only
  rw [modify_bind, parked, get_run]
  unfold State.planBegun
  by_cases stopped : (s.opened h.tk 1).cx.stoppedForPlan
  · simp only [stopped, if_true, Option.isSome_none, Bool.false_eq_true, if_false]
    rfl
  · simp only [stopped, Option.isSome_none, Bool.false_eq_true, if_false]
    rfl

/-- PLANB waits for the plan of another launch whose base is out. -/
theorem exec_planb_waits (mine : s.myPlan = none) (there : s.plan = some p) (parked : (s.opened h.tk 1).parkPlan = s.opened h.tk 1) :
    exec (.planb h d) s = .next (s.waitAt 0 .plan) := by
  refine runBcast_awaits (p := s.plan) (q := s.snapshots) issues bcast ?_
  have other : (s.opened h.tk 1).plan.isSome = true := Option.isSome_of_eq_some there
  rw [opsCx_bind, get_run, State.opened_myPlan, mine]
  dsimp only
  rw [modify_bind, parked, get_run]
  exact congrFun (if_pos other) _

/-! ## PLANB of a plan of its own launch, PLANE and FIBEX -/

/-- L, S and K have completed what they had issued. -/
theorem exec_planb_stopping (mine : s.myPlan = some p) (phase : p.phase = .stopping) (stopped : s.cx.stoppedForPlan = true) :
    exec (.planb h d) s = .next ((beginPlan s.cx.planSnapshot s).waitAt 0 .plan) := by
  refine runBcast_awaits issues bcast (p := (beginPlan s.cx.planSnapshot s).plan) (q := (beginPlan s.cx.planSnapshot s).snapshots) ?_
  rw [opsCx_bind, get_run, State.opened_myPlan, mine]
  dsimp only
  rw [phase, State.opened_stoppedForPlan, stopped]
  rfl

theorem exec_planb_published (mine : s.myPlan = some p) (phase : p.phase = .published) :
    exec (.planb h d) s = .next
      { s.bundled h.tk 1 [] (fun c => c.wa d (BitVec.ofNat 64 p.base)) with plan := some { p with phase := .running } } := by
  refine runBcast_bundled (e := s.exportMask) issues bcast (fun _ => Ctx.wa_tok ..) ?_
  rw [opsCx_bind, get_run, State.opened_myPlan, mine]
  dsimp only
  rw [phase]
  rfl

theorem exec_plane_running (there : s.plan = some p) (mine : s.myPlan = some p) (phase : p.phase = .running) (more : s.cx.planeDone = false) :
    exec (.plane h) s = .next (State.waitAt { s with plan := some { p with phase := .closing } } 0 .plan) := by
  refine runBcast_awaits (p := some { p with phase := .closing }) (q := s.snapshots) issues bcast ?_
  have plan : (s.opened h.tk 1).plan = some p := there
  rw [get_run, State.opened_planeDone, more, State.opened_myPlan, mine]
  simp only [Option.map_some, phase, Bool.false_eq_true, if_false, modify_bind, plan]
  rfl

theorem exec_plane_closed (closed : s.cx.planeDone = true) :
    exec (.plane h) s = .next (s.bundled h.tk 1 [] (fun c => { c with planeDone := false })) := by
  refine runBcast_bundled (f := fun c => { c with planeDone := false }) (p := s.plan) (e := s.exportMask) issues bcast (fun _ => rfl) ?_
  rw [get_run, State.opened_planeDone, closed]
  rfl

theorem exec_fibexRd : exec (.fibexRd h d) s = .next (s.bundled h.tk 1 [] (fun c => c.wa d (fibreWord s))) :=
  runBcast_bundled (p := s.plan) (e := s.exportMask) issues bcast (fun _ => Ctx.wa_tok ..) rfl

theorem exec_fibexSet (unplanned : s.unplanned) (within : (s.cx.ra d).toNat < 16) :
    exec (.fibexSet h d) s = .next
      { s.bundled h.tk 1 [] id with exportMask := (s.cx.ra d).setWidth 4 &&& BitVec.ofNat 4 (joinedPorts s) } := by
  refine runBcast_bundled (p := s.plan) issues bcast (fun _ => rfl) ?_
  have free : (s.opened h.tk 1).unplanned := unplanned.started .c h.tk
  rw [replayable_bind free, opsCx_bind, State.opened_operands]
  dsimp only
  rw [require_bind (decide_eq_true within)]
  rfl

end

/-- The plan that opens for a launch (11 R323, R324, R330). -/
theorem beginPlan_launch {snap : Ctx} {l : Launch} (held : s.launch? snap.id.launch = some l) :
    let kept := (s.snapshots.find? (fun p => p.launch == snap.id.launch && p.phase == .opening)).map
      (fun p => if p.wave = 0 then { p with waves := wavesOf (min l.grant s.cores.toNat) p.waves.flatten } else p)
    beginPlan snap s = { s with
      plan := some { kept.getD { launch := l.num, snapshot := snap, waves := wavesOf (min l.grant s.cores.toNat) (participants l) } with
        peersReady := s.exportMask == 0 }
      snapshots := s.snapshots.filter (fun q => q.launch != l.num) } := by
  have num : l.num = snap.id.launch := by simpa using List.find?_some held
  unfold beginPlan
  rw [held, ← num]
  cases s.snapshots.find? (fun p => p.launch == l.num && p.phase == .opening) <;> rfl

/-- Settles O44: PLANB begins a plan where none of its launch is open, and goes on with its own by its phase. -/
theorem plansAndPortsComplete : Obligations.PlansAndPortsComplete := by
  unfold Obligations.PlansAndPortsComplete
  intro s h d issues bcast snap begun
  refine ⟨fun free => ?none, fun p there other => ?other, fun l held => ?opens, fun p there own => ⟨?stopping, ?published, ?running⟩,
    exec_plane_closed issues bcast, exec_fibexRd issues bcast, exec_fibexSet issues bcast⟩
  case none =>
    have parked : (s.opened h.tk 1).parkPlan = { s.opened h.tk 1 with plan := none } := by
      rw [State.parkPlan_none (s := s.opened h.tk 1) free, ← free]
      rfl
    have same : ({ s with plan := none } : State) = s := by rw [← free]
    have begins := exec_planb_begins (d := d) (q := s.snapshots) issues bcast (State.myPlan_none free) parked
    rwa [same] at begins
  case other =>
    have mine := State.myPlan_other there other
    have here : (s.opened h.tk 1).plan = some p := there
    by_cases stopping : p.phase = .stopping
    · rw [if_pos stopping]
      exact exec_planb_begins issues bcast mine (State.parkPlan_stopping here stopping)
    · rw [if_neg stopping]
      by_cases opening : p.phase = .opening
      · rw [if_pos opening]
        exact exec_planb_begins issues bcast mine (State.parkPlan_opening here opening)
      · rw [if_neg opening]
        exact exec_planb_waits issues bcast mine there (State.parkPlan_keeps here stopping opening)
  case opens =>
    have opened := beginPlan_launch (s := s) (snap := snap) held
    intro g opens
    dsimp only at opened
    split
    case h_1 fresh =>
      rw [show s.snapshots.find? (fun p => p.launch == snap.id.launch && p.phase == .opening) = none from fresh] at opened
      exact opened
    case h_2 p kept =>
      rw [show s.snapshots.find? (fun p => p.launch == snap.id.launch && p.phase == .opening) = some p from kept] at opened
      exact opened
  case stopping => exact exec_planb_stopping issues bcast (State.myPlan_own there own)
  case published => exact exec_planb_published issues bcast (State.myPlan_own there own)
  case running => exact exec_plane_running issues bcast there (State.myPlan_own there own)

end Sys2Proof.Machine
end

section

/-! PROOFS. Elements that are read change nothing but what accesses and buffers change (04 R106, R121; 07 R210, R213). -/

namespace Sys2Proof.Machine

variable {α β : Type} {s t : State} {m : M α}

/-- An operation that goes on has changed nothing but what accesses and buffers change; one that waits may have noted that. -/
def Quiet (m : M α) : Prop := ∀ ⦃s t : State⦄ ⦃a : α⦄, m s = .ok a t → t.still = s.still

theorem Stills.quiet (stills : Stills m) : Quiet m := fun _ _ _ run => stills.ok run

theorem Keeps.quiet (keeps : Keeps m) : Quiet m := keeps.stills.quiet

theorem Quiet.pure (a : α) : Quiet (pure a : M α) := Stills.quiet fun _ => Holds.pure _

theorem Quiet.bind {f : α → M β} (first : Quiet m) (rest : ∀ a, Quiet (f a)) : Quiet (m >>= f) := fun _ _ _ run =>
  have ⟨_, _, one, two⟩ := of_bind_ok run
  (rest _ two).trans (first one)

theorem Quiet.get {f : State → M α} (rest : ∀ s, Quiet (f s)) : Quiet (get >>= f) := fun s _ _ run => rest s run

theorem Quiet.ite {c : Prop} [Decidable c] {a b : M α} (yes : Quiet a) (no : Quiet b) : Quiet (if c then a else b) := by
  split
  · exact yes
  · exact no

theorem Quiet.collectM {xs : List α} {f : α → M β} (each : ∀ x, Quiet (f x)) : Quiet (collectM xs f) := by
  induction xs with
  | nil => exact Quiet.pure _
  | cons x xs ih => exact Quiet.bind (each x) fun _ => Quiet.bind ih fun _ => Quiet.pure _

theorem Quiet.withTrap {f : Trap → Trap} (quiet : Quiet m) : Quiet (withTrap f m) := by
  intro s t a run
  unfold Machine.withTrap at run
  split at run
  · cases run
  · exact quiet run

variable {ag : Agent} {own : Nat} {st : BitVec 4} {str : Stream} {b : Binding}

theorem Quiet.naming {f : Nat × Nat × DWord → Nat × Nat × DWord} (quiet : Quiet m) : Quiet (naming ag st f m) := by
  intro s t a run
  unfold Machine.naming at run
  split at run
  · split at run <;> cases run
  · exact quiet run

theorem Quiet.reading {pol : Nat} {places : List (DWord × Nat)} (quiet : Quiet m) : Quiet (reading ag pol places m) := by
  intro s t a run
  unfold Machine.reading at run
  split at run
  · cases run
  · exact quiet run

theorem Quiet.elemOp {n e : Nat} (quiet : Quiet m) : Quiet (elemOp ag st n e m) := quiet.withTrap.naming

/-! ## Reads of a stream -/

theorem awaitReply_quiet {pol : Nat} {k : Acc} {segs : List Seg} : Quiet (awaitReply ag pol k segs) :=
  Quiet.get fun _ => Quiet.ite (Quiet.pure _) fun _ _ _ run => have ⟨_, _, _, waits⟩ := of_bind_ok run; nomatch waits

theorem streamMem_quiet {va : DWord} {n : Nat} : Quiet (streamMem ag own st str va n) :=
  Quiet.bind (Stills.quiet fun _ => replayableRead_holds) fun _ => Quiet.bind (Stills.quiet fun _ => windowCheck_holds) fun _ =>
    Quiet.bind (pages_keeps _ _ _ _).quiet fun _ => Quiet.bind (Stills.quiet fun _ => Holds.eachM fun _ => spadCheck_holds) fun _ =>
    Quiet.bind (homeCheck_keeps _ _).quiet fun _ => Quiet.bind (Stills.quiet fun _ => Holds.eachM fun _ => (tagCheck_keeps _ _).stills _) fun _ =>
    Quiet.bind (watchCheck_keeps _ _ _ _).quiet fun _ => Quiet.bind awaitReply_quiet.naming fun _ =>
    Quiet.bind holdPages_stills.quiet fun _ => Quiet.bind (Stills.quiet fun k => Holds.eachM fun _ => spadTouch_stills k) fun _ =>
    (readSegs_keeps _ _ _).quiet

theorem streamBytes_quiet {off n : Nat} : Quiet (streamBytes ag own st str b off n) :=
  Quiet.ite (Quiet.bind (Stills.quiet fun _ => bufRange_holds) fun _ => Quiet.get fun _ => Quiet.bind bufAccess_stills.quiet fun _ => Quiet.pure _)
    streamMem_quiet

theorem streamHeader_quiet {e : Nat} : Quiet (streamHeader ag own st str e) :=
  Quiet.bind streamMem_quiet fun _ => Stills.quiet fun _ => Holds.ite (fun _ => Holds.pure _) fun _ => Holds.faultAt _ _

theorem streamCode_quiet {e : Nat} : Quiet (streamCode ag own st str b e) :=
  Quiet.ite (Quiet.bind (Quiet.collectM fun _ => streamBytes_quiet) fun _ => Quiet.pure _) (Quiet.bind streamBytes_quiet fun _ => Quiet.pure _)

theorem elemsFrom_quiet {es : List (Nat × Int)} {hdr : Option (Nat × Nat)} : Quiet (elemsFrom ag own st str b es hdr) := by
  induction es generalizing hdr with
  | nil => exact Quiet.pure _
  | cons ke rest ih =>
    refine Quiet.bind (Stills.quiet fun _ => rangeCheck_holds) fun _ => Quiet.bind (Stills.quiet fun _ => Holds.withTrap bufRange_holds) fun _ =>
      Quiet.bind (Quiet.elemOp ?_) fun _ => Quiet.bind streamCode_quiet.elemOp fun _ => Quiet.bind ih fun _ => Quiet.pure _
    split
    · exact Quiet.ite (Quiet.pure _) (Quiet.ite streamHeader_quiet (Quiet.pure _))
    · exact Quiet.ite streamHeader_quiet (Quiet.pure _)

theorem readElems_quiet {es : List (Nat × Int)} : Quiet (readElems ag own st str b es) := elemsFrom_quiet.reading

end Sys2Proof.Machine
end

section

/-! PROOFS. BCAST (11 R318 to R320). -/

namespace Sys2Proof.Machine

variable {s t u : State} {h : Hd} {str : Stream} {bd : Binding} {st : BitVec 4}

theorem State.bun_of_still (same : t.still = s.still) : t.bun = s.bun := (congrArg (fun u : State => u.bun) same :)

theorem State.tok_of_still (same : t.still = s.still) : t.cx.tok = s.cx.tok := (congrArg (fun u : State => u.cx.tok) same :)

/-! ## What the rows of 11 R318 look at is as it was before the token was taken -/

theorem State.Bound.opened {write : Bool} (bound : s.Bound st write str bd) (tk : BitVec 3) (words : Nat) :
    (s.opened tk words).Bound st write str bd := ⟨(bound.started .c tk).reg, bound.bind, bound.dir⟩

theorem State.sideOpen.opened (side : s.sideOpen bd) (tk : BitVec 3) (words : Nat) : (s.opened tk words).sideOpen bd := side.started .c tk

@[simp] theorem State.opened_stream (s : State) (tk : BitVec 3) (words : Nat) (st : BitVec 4) :
    (s.opened tk words).cx.stream st = s.cx.stream st := s.started_stream ..

@[simp] theorem State.opened_agent (s : State) (tk : BitVec 3) (words : Nat) : (s.opened tk words).agent = s.agent := s.started_agent ..

@[simp] theorem State.opened_planOpen (s : State) (tk : BitVec 3) (words : Nat) (l : Nat) : (s.opened tk words).planOpen l = s.planOpen l := rfl

theorem elemOwn_opened (s : State) (tk : BitVec 3) (words : Nat) (str : Stream) (bk : Bool) (e : Int) :
    elemOwn (s.opened tk words) str bk e = elemOwn s str bk e := by
  have asid : (s.opened tk words).cx.asid = s.cx.asid := Ctx.takenBy_asid ..
  unfold elemOwn ownBytes ownFrame
  rw [asid]
  rfl

/-- A row of 11 R318 for the format of the stream. -/
theorem bcastFormat_allowed (format : 6 ≤ str.fmt ∧ str.fmt ≤ 9) (cooked : str.raw = false) (few : str.n1 ≤ 32) :
    ((str.fmt == 6 || str.fmt == 7 || str.fmt == 8 || str.fmt == 9) && !str.raw && decide (str.n1 ≤ 32)) = true := by
  have named : str.fmt = 6 ∨ str.fmt = 7 ∨ str.fmt = 8 ∨ str.fmt = 9 := by omega
  rcases named with is | is | is | is <;> simp [is, cooked, few]

/-! ## The BCAST that is accepted -/

/-- A BCAST of a stream under a base, before its elements are read. -/
def Stream.bcast (str : Stream) (base : DWord) (nm1 : BitVec 6) (tm1 : BitVec 4) (wp : BitVec 1) (b0 : BitVec 20) : Bcast :=
  { base := base.toNat, b0 := b0.toNat, n := nm1.toNat + 1, t := tm1.toNat + 1, wp := wp == 1, rows := [], ea := []
    pa := if str.fmt = 9 ∧ 4 < str.prec then str.prec else 0 }

/-- It with the levels and the exponents of its elements (11 R319). -/
def Bcast.litBy (b : Bcast) (c : Ctx) (str : Stream) (rows : List (List Element)) : Bcast :=
  let ea := rows.map (fun row => match row with | x :: _ => blockEw str x | [] => 0)
  { b with rows := rows.map (fun row => row.map (elemLevel c str)), ea := ea ++ List.replicate (32 - ea.length) 0 }

/-- The machine that has accepted a BCAST. -/
def State.accepts (u : State) (b lit : Bcast) : State := { u with
  light := u.light ++ [lit], plan := u.plan.map (fun p => { p with lastStep := max p.lastStep (b.stamp + b.span) }) }

/-- BCAST passes the rows of 11 R318 in their order; what it reads leaves its bundle and its tokens as they were. -/
theorem exec_bcast {s0 ak : BitVec 4} {nm1 : BitVec 6} {tm1 : BitVec 4} {wp : BitVec 1} {b0 : BitVec 20} {b : Bcast} {k : Nat}
    {rows : List (List Element)} (issues : s.IssuesC (fun c => c.seqC.rq h.qp) h.tk []) (bcast : s.cx.onBcast = true)
    (bound : s.Bound s0 false str bd) (form : b = str.bcast s.baseBefore nm1 tm1 wp b0) (count : k = (nm1.toNat + 1) * (tm1.toNat + 1))
    (room : s.bcastRoom s.cx = true) (planned : s.planOpen s.cx.id.launch = true) (based : s.baseBefore ≠ 0)
    (within : pastPlan b0.toNat b.span = false) (format : 6 ≤ str.fmt ∧ str.fmt ≤ 9) (cooked : str.raw = false) (few : str.n1 ≤ 32)
    (own : ∀ row ∈ bcastRun str (s.cx.ra ak).toNat k, ∀ p ∈ row, elemOwn s str bd.bk p.2 = true)
    (fits : (s.cx.ra ak).toNat + k ≤ str.n0) (more : str.pos + str.n1 * str.n0 ≤ str.total) (side : s.sideOpen bd)
    (read : collectM (bcastRun str (s.cx.ra ak).toNat k) (fun row => readElems s.agent 0 s0 str bd row) (s.opened h.tk 2) = .ok rows u)
    (blocks : str.fmt = 8 → rows.any straddles = false) (ahead : s.clock + s.bcastLead ≤ b.stamp)
    (clear : touchesCalibration b.stamp b.span = false) (apart : ∀ l ∈ s.light, l.occupies b.stamp b.span = false) :
    exec (.bcast h s0 ak nm1 tm1 wp b0) s = .next (s.closed h.tk 2 (u.accepts b (b.litBy s.cx str rows))) := by
  have quiet : u.still = (s.opened h.tk 2).still := Quiet.collectM (fun _ => readElems_quiet) read
  refine runBcast_closed issues bcast (withTrap_ok ?_) (State.bun_of_still (t := u) quiet) (State.tok_of_still (t := u) quiet)
  have base : (s.opened h.tk 2).opBase = s.baseBefore := rfl
  have parts : (if (str.fmt == 9 && decide (4 < str.prec)) = true then str.prec else 0) = if str.fmt = 9 ∧ 4 < str.prec then str.prec else 0 := by
    simp only [Bool.and_eq_true, beq_iff_eq, decide_eq_true_eq]
  have levels : elemLevel (s.opened h.tk 2).cx str = elemLevel s.cx str := elemLevel_started ..
  have planOk : (s.planOpen s.cx.id.launch && s.baseBefore != 0 && !pastPlan b0.toNat b.span) = true := by
    rw [planned, within, bne_iff_ne.2 based]
    rfl
  have framed : (bcastRun str (s.cx.ra ak).toNat k).all (fun row => row.all (fun p => elemOwn (s.opened h.tk 2) str bd.bk p.2)) = true := by
    simpa only [elemOwn_opened, List.all_eq_true] using own
  have inside : (decide ((s.cx.ra ak).toNat + k ≤ str.n0) && decide (str.pos + str.n1 * str.n0 ≤ str.total)) = true := by
    rw [decide_eq_true fits, decide_eq_true more]
    rfl
  have whole : (str.fmt != 8 || !rows.any straddles) = true := by
    simpa [or_iff_not_imp_left] using blocks
  have intime : (s.opened h.tk 2).clock + (s.opened h.tk 2).bcastLead ≤ b.stamp := ahead
  have free : (!(s.opened h.tk 2).light.any (fun l => l.occupies b.stamp b.span)) = true := by
    rw [Bool.not_eq_true', List.any_eq_false]
    exact fun l there => Bool.eq_false_iff.1 (apart l there)
  rw [opsCx_bind, State.opened_operands, get_run]
  dsimp only
  rw [base, State.opened_stream, bound.reg, parts, State.opened_planOpen, State.opened_id, levels]
  unfold Stream.bcast at form
  subst form count
  rw [waitUnless_bind (b := (s.opened h.tk 2).bcastRoom s.cx) room, require_bind planOk, boundFor_bind (bound.opened ..)]
  dsimp only
  rw [require_bind (bcastFormat_allowed format cooked few), require_bind framed, require_bind inside, bind_ok (rowFour_run (side.opened _ _)),
    State.opened_agent, bind_ok read, require_bind whole, require_bind (decide_eq_true intime), require_bind (congrArg (!·) clear),
    require_bind free, modify_run]
  rfl

/-- Settles O43: what the rows look at is not the token that was taken. -/
theorem broadcastsAreAccepted : Obligations.BroadcastsAreAccepted := by
  unfold Obligations.BroadcastsAreAccepted
  intro s u h s0 ak nm1 tm1 wp b0 t bd rows issues bcast bound n k kofs b room planned based within format cooked few own fits more side read
    blocks ahead clear apart
  exact exec_bcast issues bcast bound rfl rfl room planned based within format cooked few own fits more side read blocks ahead clear apart

end Sys2Proof.Machine
end

section

/-! PROOFS. Side-band, light, plans and fibre ports at their steps (11 R319, R320, R323 to R335; logs 7, 26, 56). -/

namespace Sys2Proof.Machine

variable {s : State} {p q : Plan} {n port d : Nat}

/-! ## Side-band and light -/

theorem exec_bcastSideband (s : State) (b : Nat) : exec (.bcastSideband b) s = .next (s.updLight b (fun l =>
    if l.side = false ∧ l.stamp ≤ s.clock + 32 ∧ l.sends (l.stamp - 32) = true then { l with side := true } else l)) := by
  refine congrArg (fun f => Host.Outcome.next (s.updLight b f)) (funext fun l => if_congr ?_ rfl rfl)
  simp only [Bcast.sideDue, Bool.and_eq_true, Bool.not_eq_true', decide_eq_true_eq, and_assoc]

theorem exec_bcastLight (s : State) (b : Nat) : exec (.bcastLight b) s = .next (s.updLight b (fun l =>
    if l.side = true ∧ l.lit < l.passes ∧ l.stamp + l.lit * l.u ≤ s.clock ∧ l.sends (l.stamp + l.lit * l.u) = true
    then { l with lit := l.lit + 1 } else l)) := by
  refine congrArg (fun f => Host.Outcome.next (s.updLight b f)) (funext fun l => if_congr ?_ rfl rfl)
  simp only [Bcast.lightDue, Bool.and_eq_true, decide_eq_true_eq, and_assoc]

/-! ## Publication -/

/-- A base reaches a context that can take it and has it not yet, with the accumulators' plan-start copy. -/
theorem State.publishTo_eq (q : Plan) (s : State) (c : Nat) : State.publishTo q s c = s.updCtx ⟨q.launch, c⟩ (fun x =>
    if x.pbase ≠ BitVec.ofNat 64 q.base ∧ (∀ w ∈ x.wins, w.flags.invalid = true ∨ w.flags.abort = true)
    then { x with pacc := x.acc, pbase := BitVec.ofNat 64 q.base } else x) := by
  refine congrArg (s.updCtx _) (funext fun x => if_congr ?_ rfl rfl)
  simp only [Ctx.hasBase, Ctx.takesBase, Bool.and_eq_true, Bool.not_eq_true', beq_eq_false_iff_ne, List.all_eq_true, Bool.or_eq_true]

theorem State.allPublished_iff (s : State) (q : Plan) :
    s.allPublished q = true ↔ ∀ c ∈ q.members, ∃ x, s.ctx? ⟨q.launch, c⟩ = some x ∧ x.pbase = BitVec.ofNat 64 q.base := by
  simp only [State.allPublished, List.all_eq_true, Option.any_eq_true, Ctx.hasBase, beq_iff_eq]

/-- A base that reaches contexts joins no module and parts none. -/
theorem State.foldl_publishTo_exporter (q : Plan) (cs : List Nat) (s : State) : (cs.foldl (State.publishTo q) s).exporter = s.exporter :=
  foldl_keeps (fun u : State => u.exporter = s.exporter) _ (fun _ _ same => (State.updCtx_exporter ..).trans same) _ rfl

/-- What follows once a base has been told to the members of its wave (11 R323, R333). -/
theorem State.publishWave_eq (s : State) (q : Plan) : s.publishWave q =
    let u := q.members.foldl (State.publishTo q) s
    if u.allPublished q = true then
      if s.exporter.isSome = true then { u with plan := some { q with phase := .running } }
      else { u.updCtx ⟨q.launch, Config.bcastLcore⟩ (fun x => { x with pbase := BitVec.ofNat 64 q.base }) with
        plan := some { q with phase := .published } }
    else { u with plan := some { q with phase := .publishing } } := by
  unfold State.publishWave
  dsimp only
  rw [State.foldl_publishTo_exporter]
  cases (q.members.foldl (State.publishTo q) s).allPublished q <;> rfl

theorem exec_planPublish_publishing (there : s.plan = some p) (phase : p.phase = .publishing) :
    exec .planPublish s = .next (s.publishWave p) := by
  refine congrArg Host.Outcome.next ?_
  rw [there]
  exact if_pos phase

theorem exec_planPublish_opening (there : s.plan = some p) (phase : p.phase = .opening)
    (runs : ∃ l, s.launch? p.launch = some l ∧ l.run = .running) (active : ∀ c ∈ p.members, s.activeMember p.launch c = true)
    (peers : p.peersReady = true) (waits : s.planbWaits p.launch = true) :
    exec .planPublish s = .next (s.publishWave (p.takes s.planBase)) := by
  obtain ⟨l, held, running⟩ := runs
  have ready : s.waveReady p = true := by
    simpa [State.waveReady, phase, held, running] using active
  refine congrArg Host.Outcome.next ?_
  rw [there]
  dsimp only
  rw [phase, ready, peers, waits]
  rfl

/-! ## Closing -/

theorem State.closeWave_peerWaves (s : State) (p : Plan) : (s.closeWave p).peerWaves = s.peerWaves :=
  foldl_keeps (fun u : State => u.peerWaves = s.peerWaves) _ (fun _ _ same => (State.updCtx_peerWaves ..).trans same) _ rfl

theorem State.closeWave_exportMask (s : State) (p : Plan) : (s.closeWave p).exportMask = s.exportMask :=
  foldl_keeps (fun u : State => u.exportMask = s.exportMask) _ (fun _ _ same => (State.updCtx_exportMask ..).trans same) _ rfl

/-- A closed wave is followed by the next, or by the end of the plan (11 R325, R332). -/
theorem exec_planClose (there : s.plan = some p) (phase : p.phase = .closing) (past : p.lastStep ≤ s.clock) :
    exec .planClose s = .next (
      let u := s.closeWave p
      let bc : CtxId := ⟨p.launch, Config.bcastLcore⟩
      if p.wave + 1 < max p.waves.length s.peerWaves then
        { u.updCtx bc (fun x => x.fromSnapshot p.snapshot) with plan := some (p.nextWave (s.exportMask == 0)) }
      else { u.updCtx bc (fun x => { x with closed := x.pbase, pbase := 0, planeDone := true }) with plan := none, peerWaves := 0 }) := by
  have due : s.closeDue = true := by
    unfold State.closeDue
    rw [there]
    simp [phase, past]
  refine congrArg Host.Outcome.next ?_
  rw [there]
  dsimp only
  rw [if_pos due, State.closeWave_peerWaves, State.closeWave_exportMask]

/-! ## Overrun and abort -/

theorem exec_planOverrun (there : s.plan = some p) (opened : p.phase.isOpen = true) (own : s.exporter = none)
    (past : p.base + 2 ^ 20 + 4096 ≤ s.clock) :
    let u := s.focus ⟨p.launch, Config.bcastLcore⟩
    exec .planOverrun s = .next ((u.takeFault { cause := 0x201 } 1 (instrAt u.cx .c (wordIx u.cx.seqC.pc))).focus s.cx.id) := by
  have due : s.overrunDue = true := by
    unfold State.overrunDue
    rw [there]
    have bound : p.base + planSpan + 4096 ≤ s.clock := past
    simp [opened, own, bound]
  refine congrArg Host.Outcome.next ?_
  rw [there]
  exact if_pos due

theorem exec_planAbort (there : s.plan = some p) (phase : p.phase = .aborting n) :
    let u := p.members.foldl (abortMember p n) s
    exec .planAbort s = .next { u.updCtx ⟨p.launch, Config.bcastLcore⟩ (fun x => { x with pbase := 0 }) with
      plan := none, peerWaves := 0
      snapshots := if u.exporter.isSome then u.snapshots else u.snapshots ++ [{ p with phase := .aborted }] } := by
  refine congrArg Host.Outcome.next ?_
  rw [there]
  dsimp only
  rw [phase]

/-! ## Fibre ports -/

theorem exec_fibreLightReturn (peer : look s.peers port = some d) :
    exec (.fibreLightReturn port) s = .next { s with fibreUp := s.fibreUp ||| BitVec.ofNat 4 (2 ^ port) } :=
  congrArg Host.Outcome.next (if_pos (Option.isSome_of_eq_some peer))

/-- Settles O49, event by event; a base reaches the members of its wave one after another. -/
theorem broadcastEventsComplete : Obligations.BroadcastEventsComplete := by
  unfold Obligations.BroadcastEventsComplete
  intro s
  refine ⟨fun b => ⟨exec_bcastSideband s b, exec_bcastLight s b⟩, fun p there => ⟨exec_planPublish_opening there,
    exec_planPublish_publishing there, fun q same => ?reaches, fun phase past => ?closes, exec_planOverrun there,
    fun n => exec_planAbort there⟩, fun port => ⟨rfl, fun d => exec_fibreLightReturn⟩⟩
  case reaches =>
    intro base u all
    have wave : u = q.members.foldl (State.publishTo q) s :=
      congrArg (fun f => q.members.foldl f s) (funext fun v => funext fun c => (State.publishTo_eq q v c).symm)
    have told : all ↔ u.allPublished q = true := (State.allPublished_iff u q).symm
    rw [told, State.publishWave_eq, ← wave, ← same]
    exact ⟨fun lacking => if_neg lacking, fun every joined => (if_pos every).trans (if_pos joined),
      fun every alone => (if_pos every).trans (if_neg (by rw [alone]; decide))⟩
  case closes =>
    have closes := exec_planClose there phase past
    exact ⟨fun next => closes.trans (congrArg Host.Outcome.next (if_pos next)),
      fun last => closes.trans (congrArg Host.Outcome.next (if_neg (Nat.not_lt.2 last)))⟩

end Sys2Proof.Machine
end

section

/-! PROOFS. CPY, CPYC and CPYWAIT (12 R343 to R348). -/

namespace Sys2Proof.Machine

variable {s t : State} {h : Hq} {d a b : BitVec 5} {n : Nat} {sides : List (DWord × Nat)}

/-! ## The checks and the queue -/

/-- An operation that every element lets go on, and that changes nothing, goes on past them all. -/
theorem eachM_goes {α : Type} {l : List α} {f : α → M Unit} (goes : ∀ e ∈ l, f e t = .ok () t) : eachM l f t = .ok () t := by
  induction l with
  | nil => rfl
  | cons e rest ih =>
    exact (bind_ok (goes e List.mem_cons_self)).trans (ih fun e there => goes e (List.mem_cons_of_mem _ there))

/-- A named buffer allows the copy engine its access to `n` bytes (rows 4 to 6 of 12 R348). -/
structure Ctx.SideOk (c : Ctx) (n : Nat) (e : DWord × Nat) : Prop where
  declared : (c.buf (specBuf e.1)).declared = true
  within : specOff e.1 + n ≤ (c.buf (specBuf e.1)).len
  agent : (if e.2 = 1 then (c.buf (specBuf e.1)).cons else (c.buf (specBuf e.1)).prod) = 2

theorem Ctx.SideOk.agent_toNat {c : Ctx} {e : DWord × Nat} (ok : c.SideOk n e) :
    (if e.2 = 1 then (c.buf (specBuf e.1)).cons.toNat else (c.buf (specBuf e.1)).prod.toNat) = 2 :=
  (apply_ite BitVec.toNat ..).symm.trans (congrArg BitVec.toNat ok.agent)

theorem Ctx.SideOk.started {e : DWord × Nat} (ok : s.cx.SideOk n e) (q : SeqId) (tk : BitVec 3) : (s.started q tk).cx.SideOk n e := by
  obtain ⟨declared, within, agent⟩ := ok
  exact ⟨by rwa [State.started_buf], by rwa [State.started_buf], by rwa [State.started_buf]⟩

theorem copyBuffersOk_run (ok : ∀ e ∈ sides, t.cx.SideOk n e) : copyBuffersOk sides n t = .ok () t := by
  unfold copyBuffersOk
  rw [get_run]
  refine (bind_ok (eachM_goes fun e there => ?declared)).trans
    ((bind_ok (eachM_goes fun e there => ?agent)).trans (eachM_goes fun e there => ?within))
  case declared => exact congrFun (if_pos (ok e there).declared) t
  case agent => exact congrFun (if_pos (ok e there).agent_toNat) t
  case within => exact congrFun (if_pos (ok e there).within) t

/-- The queue with a command of the next ticket (12 R338). -/
def CopyState.queued (q : CopyState) (f : DWord → CopyCmd) : CopyState :=
  { q with iseq := q.iseq + 1, queue := q.queue ++ [f (q.iseq + 1)] }

theorem queueCopy_run {f : DWord → CopyCmd} (room : t.cx.copy.queue.length < 32) :
    queueCopy f t = .ok () { t with cx := { t.cx with copy := t.cx.copy.queued f } } :=
  waitUnless_bind (decide_eq_true room)

/-- The copy state is none of what the shell of a word looks at. -/
theorem Ctx.leavesShell_copy (q : CopyState) : Ctx.LeavesShell (fun c => { c with copy := q }) :=
  ⟨fun _ => rfl, fun _ => rfl, fun _ q => by cases q <;> rfl⟩

theorem State.started_copy (s : State) (q : SeqId) (tk : BitVec 3) : (s.started q tk).cx.copy = s.cx.copy := Ctx.takenBy_copy ..

theorem copyWait_run {done : CopyState → Bool} {ticket : CopyState → Nat} {value : CopyState → DWord} (unplanned : t.unplanned)
    (free : t.cx.copy.faults = []) (ended : done t.cx.copy = true) :
    copyWait d done ticket value t = .ok () { t with cx := t.cx.wx d (value t.cx.copy) } := by
  unfold copyWait
  rw [replayable_bind unplanned, bind_ok (raiseCopy_none free), get_run, waitUnless_bind ended]
  rfl

/-! ## The words -/

section
variable (issues : s.Issues .k h.qp h.tk) (unplanned : s.unplanned) (free : s.cx.copy.faults = [])
include issues unplanned free

/-- CPYWAIT goes on once what it waits for of the queue holds. -/
theorem runK_copyWait {done : CopyState → Bool} {ticket : CopyState → Nat} {value : CopyState → DWord} (ended : done s.cx.copy = true) :
    runK h 1 (copyWait d done ticket value) s =
      .next (s.does .k h.tk 1 (fun t => { t with cx := t.cx.wx d (value s.cx.copy) })) := by
  have copy := s.started_copy .k h.tk
  refine runK_does issues (Ctx.leavesShell_wx d _) ?_
  rw [copyWait_run (unplanned.started ..) (by rwa [copy]) (by rwa [copy]), copy]

theorem exec_cpywait (past : (s.cx.copy.cseq - s.cx.rx a).toNat < 2 ^ 63) :
    exec (.cpywait h d a) s = .next (s.does .k h.tk 1 (fun t => { t with cx := t.cx.wx d s.cx.copy.cseq })) := by
  have copy := s.started_copy .k h.tk
  refine runK_does issues (Ctx.leavesShell_wx d _) ?_
  rw [get_run, State.started_rx, copyWait_run (unplanned.started ..) (by rwa [copy]) (by rw [copy]; exact decide_eq_true past), copy]

theorem exec_cpy {p c st : BitVec 1} (moves : p = 0 ∨ c = 1 ∨ st = 1)
    (form : copyFormOk false (st == 1) (c == 1) (s.cx.rx d) (s.cx.rx a) (lenOf (s.cx.rx b)) = true)
    (ok : ∀ e ∈ copySides (st == 1) (c == 1) (s.cx.rx d) (s.cx.rx a), s.cx.SideOk (lenOf (s.cx.rx b)) e) (room : s.cx.copy.queue.length < 32) :
    exec (.cpy h d a b p c st) s = .next (s.does .k h.tk 1 (fun t => { t with cx := { t.cx with copy := s.cx.copy.queued fun ticket =>
      { ticket, words := encode (.cpy h d a b p c st), chained := false, first := false, last := false
        scope := 0, expect := 0, sbuf := st == 1, dbuf := c == 1, done := p == 1, dst := s.cx.rx d
        src := s.cx.rx a, len := lenOf (s.cx.rx b), bound := boundField (s.cx.rx b) } } })) := by
  have copy := s.started_copy .k h.tk
  have legal : (p == 0 || c == 1 || st == 1) = true := by simpa [or_assoc] using moves
  refine runK_does issues (Ctx.leavesShell_copy _) ?_
  rw [replayable_bind (unplanned.started ..), bind_ok (raiseCopy_none (by rwa [copy])), get_run]
  simp only [State.started_rx]
  rw [require_bind legal, require_bind form, bind_ok (copyBuffersOk_run fun e there => (ok e there).started ..), queueCopy_run (by rwa [copy]), copy]

theorem exec_cpyc {first last : BitVec 1} {sc : BitVec 2} {imm : BitVec 32} (ends : last = 1 ∨ imm = 0 ∧ sc = 0)
    (form : copyFormOk true false false (s.cx.rx d) (s.cx.rx a) (lenOf (s.cx.rx b)) = true) (chain : s.cx.copy.isOpen = (first != 1))
    (room : s.cx.copy.queue.length < 32) :
    exec (.cpyc h d a b first last sc imm) s = .next (s.does .k h.tk 2 (fun t => { t with cx := { t.cx with copy := { s.cx.copy.queued fun ticket =>
      { ticket, words := encode (.cpyc h d a b first last sc imm), chained := true, first := first == 1
        last := last == 1, scope := sc.toNat, expect := imm, sbuf := false, dbuf := false, done := false
        dst := s.cx.rx d, src := s.cx.rx a, len := lenOf (s.cx.rx b), bound := boundField (s.cx.rx b) } with isOpen := last != 1 } } })) := by
  have copy := s.started_copy .k h.tk
  have legal : (last == 1 || (imm == 0 && sc == 0)) = true := by simpa using ends
  have fits : (s.cx.copy.isOpen != (first == 1)) = true := by
    rw [chain]
    exact Bool.not_bne_self _
  refine runK_does issues (Ctx.leavesShell_copy _) ?_
  rw [replayable_bind (unplanned.started ..), bind_ok (raiseCopy_none (by rwa [copy])), get_run]
  simp only [State.started_rx, copy]
  rw [require_bind legal, require_bind form, require_bind fits, bind_ok (queueCopy_run (by rwa [copy])), copy]
  rfl

end

/-- Settles O25: a command that passes its rows is queued under the next ticket, and CPYWAIT goes on once its tickets have come. -/
theorem copyInstructionsComplete : Obligations.CopyInstructionsComplete := by
  unfold Obligations.CopyInstructionsComplete
  intro s h d a b p c st first last sc imm issues unplanned free
  refine ⟨fun moves form sides => ?cpy, exec_cpyc issues unplanned free, exec_cpywait issues unplanned free, fun all => ?drained⟩
  case cpy =>
    refine exec_cpy issues unplanned free moves form fun e there => ?_
    obtain ⟨declared, within, agent⟩ := sides e there
    exact ⟨declared, within, agent⟩
  case drained =>
    have ended : (s.cx.copy.cseq == s.cx.copy.iseq) = true := beq_iff_eq.2 all
    exact ⟨runK_copyWait issues unplanned free ended, runK_copyWait issues unplanned free ended⟩

end Sys2Proof.Machine
end

section

/-! PROOFS. Copy commands and chunks of an LDZ at their steps (12 R339 to R341, R346, R349; 07 R225). -/

namespace Sys2Proof.Machine

variable {s u u1 u2 u3 : State} {c : CtxId} {x : Ctx} {k : CopyCmd} {ticket : DWord} {data : List Byte}

/-! ## Operations of the copy engine -/

/-- Two operations that go on, and then a third. -/
theorem bind_bind_run {α β γ : Type} {m : M α} {f : α → M β} {b : β} (run : (m >>= f) s = .ok b u) (g : β → M γ) :
    (m >>= fun a => f a >>= g) s = g b u := by
  rw [← bind_assoc]
  exact bind_ok run

theorem runCopy_ok {op : M Unit} (run : op (s.focus c) = .ok () u) : runCopy c k op s = u.focus s.cx.id := by
  unfold runCopy
  rw [run]

/-- The context in focus has its command fail with a trap, and the context before is in focus again (12 R346). -/
def State.copyFails (u : State) (k : CopyCmd) (f : Trap) (back : CtxId) : State :=
  State.focus { u with cx := { u.cx with copy := u.cx.copy.fail k f } } back

theorem runCopy_trap {op : M Unit} {f : Trap} (run : op (s.focus c) = .error (.trap f) u) :
    runCopy c k op s = u.copyFails k f s.cx.id := by
  unfold runCopy
  rw [run]
  rfl

/-- A command with bytes to move moves them from its source to its destination; one of length 0 covers the empty range (12 R343). -/
def CopyCmd.Moves (k : CopyCmd) (data : List Byte) (s u1 u2 : State) : Prop :=
  if k.len = 0 then data = [] ∧ copyEmpty k s = .ok () u2 else copyRead k k.len s = .ok data u1 ∧ copyWrite k data u1 = .ok () u2

theorem CopyCmd.Moves.steps (moves : k.Moves data s u1 u2) :
    ∃ v, (if k.len = 0 then pure [] else copyRead k k.len) s = .ok data v ∧
      (if k.len = 0 then copyEmpty k else copyWrite k data) v = .ok () u2 := by
  unfold CopyCmd.Moves at moves
  by_cases empty : k.len = 0
  · rw [if_pos empty] at moves
    rw [if_pos empty, if_pos empty, moves.1]
    exact ⟨s, rfl, moves.2⟩
  · rw [if_neg empty] at moves
    rw [if_neg empty, if_neg empty]
    exact ⟨u1, moves⟩

/-! ## Starting -/

/-- The copy state as the FIRST command of a chain finds it (12 R346). -/
def CopyState.chainBegun (q : CopyState) : CopyState := { q with chain := 0xFFFFFFFF, failed := false, pages := [], thawed := false }

/-- The machine in which a command makes its checks. -/
def State.chainBegun (s : State) (k : CopyCmd) : State :=
  if k.first then { s with cx := { s.cx with copy := s.cx.copy.chainBegun } } else s

theorem chainBegun_run (s : State) (k : CopyCmd) :
    (if k.first = true then modCopy CopyState.chainBegun else pure ()) s = .ok () (s.chainBegun k) := by
  unfold State.chainBegun
  split <;> rfl

section
variable (there : s.ctx? c = some x) (found : x.copy.cmd? ticket = some k)
include there found

section
variable (placed : x.placed = true) (may : copyMayStart x k = true)
include placed may

theorem exec_copyCommandStart_discards (chained : k.chained = true) (later : k.first = false) (failed : x.copy.failed = true) :
    exec (.copyCommandStart c ticket) s = .next (s.updCtx c (fun x => { x with copy := x.copy.discard k })) := by
  show Host.Outcome.next _ = _
  simp only [there, found, placed, may, chained, later, failed, Bool.not_true, Bool.not_false, Bool.and_self, Bool.or_self, Bool.false_eq_true,
    if_false, if_true]

theorem exec_copyCommandStart_starts (sound : (k.chained && !k.first && x.copy.failed) = false)
    (checks : (if k.len = 0 then pure () else do copyChecks k; copyOpens k : M Unit) ((s.focus c).chainBegun k) = .ok () u) :
    exec (.copyCommandStart c ticket) s = .next (State.focus { u with cx := { u.cx with
      copy := u.cx.copy.upd ticket (fun k => { k with started := some s.clock }) } } s.cx.id) := by
  show Host.Outcome.next _ = _
  simp only [there, found, placed, may, sound, Bool.not_true, Bool.or_self, Bool.false_eq_true, if_false]
  refine congrArg Host.Outcome.next (runCopy_ok ((whenThen_run (chainBegun_run _ k) _).trans ?_))
  by_cases empty : k.len = 0
  · rw [if_pos empty] at checks ⊢
    cases checks
    rfl
  · rw [if_neg empty] at checks ⊢
    exact bind_bind_run checks _

end

/-! ## Finishing -/

/-- The bytes of a command in the checksum of its chain (12 R346). -/
def CopyState.summed (q : CopyState) (data : List Byte) : CopyState := { q with chain := rwsOf q.chain data }

/-- The machine with the bytes of a command of the context in focus in the checksum of its chain. -/
def State.copySummed (s : State) (data : List Byte) : State := { s with cx := { s.cx with copy := s.cx.copy.summed data } }

theorem exec_copyCommandFinish (started : k.started.isSome = true) (unfinished : k.finished = false) (moves : k.Moves data (s.focus c) u1 u2)
    (plain : k.chained = false → copyDone k (settleWrites u2) = .ok () u3)
    (chained : k.chained = true → chainEnd k ((settleWrites u2).copySummed data) = .ok () u3) :
    exec (.copyCommandFinish c ticket) s =
      .next (State.focus { u3 with cx := { u3.cx with copy := u3.cx.copy.finish ticket } } s.cx.id) := by
  have runs : (k.started.isNone || k.finished) = false := by simp [Option.isNone_eq_false_iff.2 started, unfinished]
  obtain ⟨v, read, written⟩ := moves.steps
  show Host.Outcome.next _ = _
  simp only [there, found, runs, Bool.false_eq_true, if_false]
  refine congrArg Host.Outcome.next (runCopy_ok ((iteThen_run read _).trans ((iteThen_run written _).trans ?_)))
  rw [modify_bind]
  by_cases chain : k.chained = true
  · rw [if_pos chain]
    exact bind_ok (chained chain)
  · rw [if_neg chain]
    exact bind_ok (plain (Bool.eq_false_iff.2 chain))

end

/-! ## Overrun -/

/-- The fault of a command that has counted past its bound, with `wrote` bytes written (12 R349). -/
def CopyCmd.boundTrap (k : CopyCmd) (wrote : Nat) : Trap :=
  { cause := 0x310, va := if k.dbuf then 0 else k.dst + BitVec.ofNat 64 wrote, lval := wrote }

/-- How many bytes of its first `pre` a command that stops has written: none before it has started. -/
def CopyCmd.wrote (k : CopyCmd) (pre : Nat) : Nat := if k.started.isSome then pre else 0

/-- A command that stops writes a part first, which FP of its buffer covers even where it has no bytes (12 R343, R349). -/
def CopyCmd.HasPart (k : CopyCmd) (pre : Nat) : Prop := k.started.isSome = true ∧ 0 < k.len ∧ (k.dbuf = true ∨ 0 < pre)

/-- What a command does as it stops. -/
def CopyCmd.stop (k : CopyCmd) (wrote : Nat) : M Unit :=
  if k.started.isSome && decide (0 < k.len) && (k.dbuf || decide (0 < wrote)) then do
    let data ← copyRead k wrote
    copyWrite k data
    modify settleWrites
    throw (.trap (k.boundTrap wrote))
  else throw (.trap (k.boundTrap wrote))

section
variable {pre : Nat}

theorem CopyCmd.HasPart.wrote_eq (part : k.HasPart pre) : k.wrote pre = pre := if_pos part.1

theorem CopyCmd.hasPart_iff :
    (k.started.isSome && decide (0 < k.len) && (k.dbuf || decide (0 < k.wrote pre))) = true ↔ k.HasPart pre := by
  unfold CopyCmd.HasPart CopyCmd.wrote
  cases k.started <;> simp

theorem CopyCmd.stop_unmoved (unmoved : ¬k.HasPart pre) : k.stop (k.wrote pre) s = .error (.trap (k.boundTrap (k.wrote pre))) s :=
  congrFun (if_neg (mt CopyCmd.hasPart_iff.1 unmoved)) s

theorem CopyCmd.stop_part (part : k.HasPart pre) (read : copyRead k pre s = .ok data u1) (written : copyWrite k data u1 = .ok () u2) :
    k.stop (k.wrote pre) s = .error (.trap (k.boundTrap (k.wrote pre))) (settleWrites u2) := by
  unfold CopyCmd.stop
  rw [if_pos (CopyCmd.hasPart_iff.2 part), part.wrote_eq, bind_ok read, bind_ok written, modify_bind]
  rfl

variable {rest : List CopyCmd} (there : s.ctx? c = some x) (head : x.copy.queue = k :: rest) (past : x.copy.overrun = true)
  (within : 0 < k.len → pre < k.len)
include there head past within

/-- The oldest command of a context, past its bound, stops, or is discarded with its chain (12 R346, R349). -/
theorem exec_copyBoundOverrun : exec (.copyBoundOverrun c pre) s =
    .next (if k.chained && !k.first && x.copy.failed then s.updCtx c (fun x => { x with copy := x.copy.discard k })
      else runCopy c k (k.stop (k.wrote pre)) s) := by
  have stops : (!x.copy.overrun || decide (0 < k.len ∧ k.len ≤ pre)) = false := by
    simpa [past, Nat.pos_iff_ne_zero] using within
  show Host.Outcome.next _ = _
  simp only [there, head, stops, Bool.false_eq_true, if_false]
  rfl

theorem exec_copyBoundOverrun_discards (chained : k.chained = true) (later : k.first = false) (failed : x.copy.failed = true) :
    exec (.copyBoundOverrun c pre) s = .next (s.updCtx c (fun x => { x with copy := x.copy.discard k })) := by
  rw [exec_copyBoundOverrun there head past within, chained, later, failed]
  rfl

variable (sound : (k.chained && !k.first && x.copy.failed) = false)
include sound

theorem exec_copyBoundOverrun_unmoved (unmoved : ¬k.HasPart pre) :
    exec (.copyBoundOverrun c pre) s = .next ((s.focus c).copyFails k (k.boundTrap (k.wrote pre)) s.cx.id) := by
  rw [exec_copyBoundOverrun there head past within, sound, if_neg Bool.false_ne_true, runCopy_trap (CopyCmd.stop_unmoved unmoved)]

theorem exec_copyBoundOverrun_part (part : k.HasPart pre) (read : copyRead k pre (s.focus c) = .ok data u1)
    (written : copyWrite k data u1 = .ok () u2) :
    exec (.copyBoundOverrun c pre) s = .next ((settleWrites u2).copyFails k (k.boundTrap (k.wrote pre)) s.cx.id) := by
  rw [exec_copyBoundOverrun there head past within, sound, if_neg Bool.false_ne_true, runCopy_trap (CopyCmd.stop_part part read written)]

end

/-! ## Chunks of an LDZ -/

/-- The LDZ that L of a context stands at takes its next step (07 R225): with no chunk delivered yet it makes the checks of its start, and
those alone; later it delivers a chunk. -/
theorem exec_decoderChunkDone {l : State} {b : BitVec 6} {st n : BitVec 4} (turn : { s.focus c with cur := .l } = l) (here : l.cx.id = c)
    (may : l.mayIssue = true) (stands : ldzAt l.cx = some (b, st, n)) (more : l.cx.ry n ≠ 0)
    (run : (if chunksDone l = 0 then ldzStart b st n else ldzDeliver b st n (chunksDone l)) l = .ok () u) :
    exec (.decoderChunkDone c) s = .next (State.focus { u with cur := s.cur } s.cx.id) := by
  have issues : ¬(l.cx.id ≠ c ∨ l.mayIssue = false) := by simp [here, may]
  subst turn
  refine congrArg Host.Outcome.next ((if_neg issues).trans ?_)
  dsimp only at stands more ⊢
  rw [stands]
  dsimp only
  rw [if_neg more, run]

/-- Settles O46: a command runs in its context, and fails where it counts past its bound; a chunk is delivered in L's turn. In that last
clause the `if` of model and statement takes in what follows its `else`, so with no chunk delivered yet the start alone is run. -/
theorem copyCommandsAndChunksProceed : Obligations.CopyCommandsAndChunksProceed := by
  unfold Obligations.CopyCommandsAndChunksProceed
  intro s c x there
  refine ⟨fun ticket k found => ⟨fun placed may => ⟨?discards, fun u1 u2 sound begun checks => ?starts⟩, fun data u1 u2 u3 => ?finishes⟩,
    fun k rest pre head past within => ⟨?drops, fun sound => ⟨?unmoved, fun data u1 u2 part read => ?part⟩⟩, fun b st n u => ?chunk⟩
  case discards => exact exec_copyCommandStart_discards there found placed may
  case starts =>
    subst begun
    exact exec_copyCommandStart_starts there found placed may sound checks
  case finishes => exact exec_copyCommandFinish there found
  case drops => exact exec_copyBoundOverrun_discards there head past within
  case unmoved => exact exec_copyBoundOverrun_unmoved there head past within sound
  case part => exact exec_copyBoundOverrun_part there head past within sound part read
  case chunk => exact exec_decoderChunkDone rfl

end Sys2Proof.Machine
end
